-- ==== Sys2Proof/Word.lean ====
section
/-!
DEFINITION. The word and byte types, and the sparse table that every large part of the state is held in.
-/

namespace Sys2Proof

/-- A 64-bit word: a g register, a control register, an address while it is computed. -/
abbrev Word := BitVec 64

/-- One byte of memory. -/
abbrev Byte := BitVec 8

/-- The exception flags NV, DZ, OF, UF, NX in bits 4 to 0, as FP.FLAGS holds them (R102). -/
abbrev Flags := BitVec 5

/-- A sparse table: pairs of key and value, keys strictly rising, and no value equal to the table's default. -/
abbrev Tbl (α : Type) := List (Nat × α)

end Sys2Proof
end

