-- ==== Sys2Proof/Syntax.lean ====
section
/-!
DEFINITION. The syntax of Iggan: operand kinds, modifiers, and one constructor per row of the opcode table.
-/

namespace Sys2Proof

/-- g0 to g31 (R91). -/
abbrev GReg := BitVec 5
/-- v0 to v31; v31 is the vector channel (R198). -/
abbrev VReg := BitVec 5
/-- m0 to m7; m0 reads as all ones (R199). -/
abbrev MReg := BitVec 3
/-- c0 to c7, accumulator tiles (R247). -/
abbrev CReg := BitVec 3
/-- o0 to o15, operand slots (R239). -/
abbrev OReg := BitVec 4
/-- h0 to h15, tensor handles (R266). -/
abbrev HReg := BitVec 4

/-- The type codes of R174, in code order. -/
inductive ElemType where
  | n4 | s4 | n8 | s8 | n16 | s16 | n32 | s32 | e4m3 | e5m2 | f16 | bf16 | f32 | sh8 | sh4 | sh2
  deriving DecidableEq, Repr

/-- The type with a code (R174); the code is taken modulo 16. -/
def ElemType.ofCode (c : Nat) : ElemType :=
  match c % 16 with
  | 0 => .n4 | 1 => .s4 | 2 => .n8 | 3 => .s8 | 4 => .n16 | 5 => .s16 | 6 => .n32 | 7 => .s32
  | 8 => .e4m3 | 9 => .e5m2 | 10 => .f16 | 11 => .bf16 | 12 => .f32 | 13 => .sh8 | 14 => .sh4 | _ => .sh2

/-- The code of a type (R174). -/
def ElemType.code : ElemType → Nat
  | .n4 => 0 | .s4 => 1 | .n8 => 2 | .s8 => 3 | .n16 => 4 | .s16 => 5 | .n32 => 6 | .s32 => 7
  | .e4m3 => 8 | .e5m2 => 9 | .f16 => 10 | .bf16 => 11 | .f32 => 12 | .sh8 => 13 | .sh4 => 14 | .sh2 => 15

/-- The element width in bits, the exponent plane apart (R174). -/
def ElemType.width : ElemType → Nat
  | .n4 | .s4 | .sh4 => 4
  | .n8 | .s8 | .e4m3 | .e5m2 | .sh8 => 8
  | .n16 | .s16 | .f16 | .bf16 => 16
  | .n32 | .s32 | .f32 => 32
  | .sh2 => 2

/-- The types 0 to 12. -/
def ElemType.le12 (t : ElemType) : Bool := t.code ≤ 12
/-- The integer types 0 to 7. -/
def ElemType.isInt (t : ElemType) : Bool := t.code ≤ 7
/-- The signed integer types. -/
def ElemType.isSigned : ElemType → Bool
  | .s4 | .s8 | .s16 | .s32 => true
  | _ => false
/-- The floating-point types 8 to 12. -/
def ElemType.isFloat (t : ElemType) : Bool := 8 ≤ t.code && t.code ≤ 12
/-- The types whose width doubles within their kind: 0 to 5 and 8 to 11 (R216, R222). -/
def ElemType.widens (t : ElemType) : Bool := t.code ≤ 5 || (8 ≤ t.code && t.code ≤ 11)
/-- The types of 16 and 32 bits. -/
def ElemType.wide16 (t : ElemType) : Bool := t.width = 16 || t.width = 32

/-- The type of twice the width in the same kind (R222); a type that does not widen is its own. -/
def ElemType.doubled : ElemType → ElemType
  | .n4 => .n8 | .s4 => .s8 | .n8 => .n16 | .s8 => .s16 | .n16 => .n32 | .s16 => .s32
  | .e4m3 | .e5m2 => .bf16 | .f16 | .bf16 => .f32
  | t => t

/-- The pairs `vcvt` accepts: two distinct types of one width, from 0 to 12 (R221). -/
def cvtPair (src t : ElemType) : Bool :=
  src.le12 && t.le12 && src != t && src.width == t.width

/-- The factor 2 or 4 of `vwcvt`, for the pairs it accepts (R222). -/
def widenFactor (src t : ElemType) : Option Nat :=
  if src.le12 && t.le12 then
    if t.width = 2 * src.width then some 2
    else if t.width = 4 * src.width then some 4 else none
  else none

/-- The width of an atomic or reservation: `.w` or `.d` (R53, SYNC). -/
inductive AmoWidth where
  | w | d
  deriving DecidableEq, Repr
def AmoWidth.ofCode (c : Nat) : AmoWidth := if c % 2 = 0 then .w else .d
def AmoWidth.code : AmoWidth → Nat
  | .w => 0 | .d => 1
/-- The bytes it moves. -/
def AmoWidth.bytes : AmoWidth → Nat
  | .w => 4 | .d => 8

/-- The ordering field of SYNC (R53). -/
inductive AmoOrd where
  | rlx | acq | rel | ar
  deriving DecidableEq, Repr
def AmoOrd.ofCode (c : Nat) : AmoOrd :=
  match c % 4 with
  | 0 => .rlx | 1 => .acq | 2 => .rel | _ => .ar
def AmoOrd.code : AmoOrd → Nat
  | .rlx => 0 | .acq => 1 | .rel => 2 | .ar => 3
def AmoOrd.acquires : AmoOrd → Bool
  | .acq | .ar => true
  | _ => false
def AmoOrd.releases : AmoOrd → Bool
  | .rel | .ar => true
  | _ => false

/-- The level of `cancel` (R66). -/
inductive CancelLevel where
  | launch | graph | job
  deriving DecidableEq, Repr
def CancelLevel.ofCode? : Nat → Option CancelLevel
  | 0 => some .launch | 1 => some .graph | 2 => some .job | _ => none
def CancelLevel.code : CancelLevel → Nat
  | .launch => 0 | .graph => 1 | .job => 2

/-- The control registers (R89). -/
inductive CtlReg where
  | taskId | taskStat | taskPrio | taskLaunch | part | yieldLeft | trapVec | trapCause | trapVal | trapPc | trapRep
  | fpMode | fpFlags | hypCur | hypSpillwait | strmCur | chanIn | chanOut | asid | world | clkCycle
  deriving DecidableEq, Repr
/-- The register with an index (R89). -/
def CtlReg.ofCode? : Nat → Option CtlReg
  | 0x000 => some .taskId | 0x001 => some .taskStat | 0x002 => some .taskPrio | 0x003 => some .taskLaunch
  | 0x008 => some .part | 0x010 => some .yieldLeft
  | 0x018 => some .trapVec | 0x019 => some .trapCause | 0x01A => some .trapVal | 0x01B => some .trapPc
  | 0x01C => some .trapRep | 0x020 => some .fpMode | 0x021 => some .fpFlags
  | 0x028 => some .hypCur | 0x029 => some .hypSpillwait | 0x030 => some .strmCur
  | 0x038 => some .chanIn | 0x039 => some .chanOut | 0x040 => some .asid | 0x041 => some .world
  | 0x048 => some .clkCycle
  | _ => none
/-- The index of a register (R89). -/
def CtlReg.code : CtlReg → Nat
  | .taskId => 0x000 | .taskStat => 0x001 | .taskPrio => 0x002 | .taskLaunch => 0x003
  | .part => 0x008 | .yieldLeft => 0x010
  | .trapVec => 0x018 | .trapCause => 0x019 | .trapVal => 0x01A | .trapPc => 0x01B
  | .trapRep => 0x01C | .fpMode => 0x020 | .fpFlags => 0x021
  | .hypCur => 0x028 | .hypSpillwait => 0x029 | .strmCur => 0x030
  | .chanIn => 0x038 | .chanOut => 0x039 | .asid => 0x040 | .world => 0x041
  | .clkCycle => 0x048

/-- The condition of `vcmp` (R217). -/
inductive VcmpCond where
  | eq | ne | lt | le
  deriving DecidableEq, Repr
def VcmpCond.ofCode (c : Nat) : VcmpCond :=
  match c % 4 with
  | 0 => .eq | 1 => .ne | 2 => .lt | _ => .le
def VcmpCond.code : VcmpCond → Nat
  | .eq => 0 | .ne => 1 | .lt => 2 | .le => 3

/-- The reduction operations of `rwin` and `ramo` (R53, ENGINE). -/
inductive RedOp where
  | iadd | fadd32 | fadd64 | and | or | xor | imin | imax | fmin | fmax | amax
  deriving DecidableEq, Repr
def RedOp.ofCode? : Nat → Option RedOp
  | 0 => some .iadd | 1 => some .fadd32 | 2 => some .fadd64 | 3 => some .and | 4 => some .or | 5 => some .xor
  | 6 => some .imin | 7 => some .imax | 8 => some .fmin | 9 => some .fmax | 10 => some .amax
  | _ => none
def RedOp.code : RedOp → Nat
  | .iadd => 0 | .fadd32 => 1 | .fadd64 => 2 | .and => 3 | .or => 4 | .xor => 5
  | .imin => 6 | .imax => 7 | .fmin => 8 | .fmax => 9 | .amax => 10

/-- The precision of a scalar floating-point instruction (R104). -/
inductive Prec where
  | s | d
  deriving DecidableEq, Repr
def Prec.ofCode (c : Nat) : Prec := if c % 2 = 0 then .s else .d
def Prec.code : Prec → Nat
  | .s => 0 | .d => 1

/-- The rounding field of FP (R53); `dyn` takes FP.MODE.RM. -/
inductive RndSel where
  | dyn | rne | rtz | rup | rdn
  deriving DecidableEq, Repr
def RndSel.ofCode? : Nat → Option RndSel
  | 0 => some .dyn | 1 => some .rne | 2 => some .rtz | 3 => some .rup | 4 => some .rdn | _ => none
def RndSel.code : RndSel → Nat
  | .dyn => 0 | .rne => 1 | .rtz => 2 | .rup => 3 | .rdn => 4

/-- The condition of `fcmp` (R107). -/
inductive FcmpCond where
  | eq | lt | le | un
  deriving DecidableEq, Repr
def FcmpCond.ofCode? : Nat → Option FcmpCond
  | 0 => some .eq | 1 => some .lt | 2 => some .le | 3 => some .un | _ => none
def FcmpCond.code : FcmpCond → Nat
  | .eq => 0 | .lt => 1 | .le => 2 | .un => 3

/-- The kind of `fcvt` (R109). -/
inductive FcvtKind where
  | tof | tos | ton | froms | fromn
  deriving DecidableEq, Repr
def FcvtKind.ofCode? : Nat → Option FcvtKind
  | 0 => some .tof | 1 => some .tos | 2 => some .ton | 3 => some .froms | 4 => some .fromn | _ => none
def FcvtKind.code : FcvtKind → Nat
  | .tof => 0 | .tos => 1 | .ton => 2 | .froms => 3 | .fromn => 4

/-- The stride of `rep` (R54). -/
inductive Stride where
  | x1 | x2 | x4
  deriving DecidableEq, Repr
def Stride.ofCode? : Nat → Option Stride
  | 0 => some .x1 | 1 => some .x2 | 2 => some .x4 | _ => none
def Stride.code : Stride → Nat
  | .x1 => 0 | .x2 => 1 | .x4 => 2
/-- The register numbers one repeat steps by (R54). -/
def Stride.step : Stride → Nat
  | .x1 => 1 | .x2 => 2 | .x4 => 4

/-- The rows of the opcode table, one constructor each. A row with a word carries the word's fields; an event row
carries none: what selects the event and what comes with it stands in the state (the field ev). -/
inductive Instr where
  | add (d : GReg) (a : GReg) (b : GReg)
  | sub (d : GReg) (a : GReg) (b : GReg)
  | mul (d : GReg) (a : GReg) (b : GReg)
  | mulh (d : GReg) (a : GReg) (b : GReg)
  | mulhn (d : GReg) (a : GReg) (b : GReg)
  | div (d : GReg) (a : GReg) (b : GReg)
  | divn (d : GReg) (a : GReg) (b : GReg)
  | rem (d : GReg) (a : GReg) (b : GReg)
  | remn (d : GReg) (a : GReg) (b : GReg)
  | and (d : GReg) (a : GReg) (b : GReg)
  | or (d : GReg) (a : GReg) (b : GReg)
  | xor (d : GReg) (a : GReg) (b : GReg)
  | andn (d : GReg) (a : GReg) (b : GReg)
  | orn (d : GReg) (a : GReg) (b : GReg)
  | sll (d : GReg) (a : GReg) (b : GReg)
  | srl (d : GReg) (a : GReg) (b : GReg)
  | sra (d : GReg) (a : GReg) (b : GReg)
  | rol (d : GReg) (a : GReg) (b : GReg)
  | ror (d : GReg) (a : GReg) (b : GReg)
  | min (d : GReg) (a : GReg) (b : GReg)
  | max (d : GReg) (a : GReg) (b : GReg)
  | minn (d : GReg) (a : GReg) (b : GReg)
  | maxn (d : GReg) (a : GReg) (b : GReg)
  | slt (d : GReg) (a : GReg) (b : GReg)
  | sltn (d : GReg) (a : GReg) (b : GReg)
  | sel (d : GReg) (a : GReg) (b : GReg) (c : GReg)
  | clz (d : GReg) (a : GReg)
  | ctz (d : GReg) (a : GReg)
  | popc (d : GReg) (a : GReg)
  | brev (d : GReg) (a : GReg)
  | bfx (d : GReg) (a : GReg) (b : GReg)
  | bfi (d : GReg) (a : GReg) (b : GReg)
  | clmul (d : GReg) (a : GReg) (b : GReg)
  | clmulh (d : GReg) (a : GReg) (b : GReg)
  | addi (d : GReg) (a : GReg) (imm : BitVec 14)
  | andi (d : GReg) (a : GReg) (imm : BitVec 14)
  | ori (d : GReg) (a : GReg) (imm : BitVec 14)
  | xori (d : GReg) (a : GReg) (imm : BitVec 14)
  | slli (d : GReg) (a : GReg) (sh : BitVec 6)
  | srli (d : GReg) (a : GReg) (sh : BitVec 6)
  | srai (d : GReg) (a : GReg) (sh : BitVec 6)
  | slti (d : GReg) (a : GReg) (imm : BitVec 14)
  | lui (j : BitVec 3) (imm : BitVec 23)
  | addpc (j : BitVec 3) (imm : BitVec 23)
  | beq (a : GReg) (b : GReg) (off : BitVec 14)
  | bne (a : GReg) (b : GReg) (off : BitVec 14)
  | blt (a : GReg) (b : GReg) (off : BitVec 14)
  | bge (a : GReg) (b : GReg) (off : BitVec 14)
  | bltn (a : GReg) (b : GReg) (off : BitVec 14)
  | bgen (a : GReg) (b : GReg) (off : BitVec 14)
  | jal (j : BitVec 3) (imm : BitVec 23)
  | jalr (d : GReg) (a : GReg) (imm : BitVec 14)
  | ldB (d : GReg) (a : GReg) (imm : BitVec 14)
  | ldH (d : GReg) (a : GReg) (imm : BitVec 14)
  | ldW (d : GReg) (a : GReg) (imm : BitVec 14)
  | ldD (d : GReg) (a : GReg) (imm : BitVec 14)
  | ldBn (d : GReg) (a : GReg) (imm : BitVec 14)
  | ldHn (d : GReg) (a : GReg) (imm : BitVec 14)
  | ldWn (d : GReg) (a : GReg) (imm : BitVec 14)
  | ldacqW (d : GReg) (a : GReg) (imm : BitVec 14)
  | ldacqD (d : GReg) (a : GReg) (imm : BitVec 14)
  | ldntD (d : GReg) (a : GReg) (imm : BitVec 14)
  | stB (d : GReg) (a : GReg) (imm : BitVec 14)
  | stH (d : GReg) (a : GReg) (imm : BitVec 14)
  | stW (d : GReg) (a : GReg) (imm : BitVec 14)
  | stD (d : GReg) (a : GReg) (imm : BitVec 14)
  | strelW (d : GReg) (a : GReg) (imm : BitVec 14)
  | strelD (d : GReg) (a : GReg) (imm : BitVec 14)
  | stntD (d : GReg) (a : GReg) (imm : BitVec 14)
  | mstoreW (d : GReg) (a : GReg) (imm : BitVec 14)
  | mstoreD (d : GReg) (a : GReg) (imm : BitVec 14)
  | amoadd (d : GReg) (a : GReg) (b : GReg) (width : AmoWidth) (ord : AmoOrd)
  | amoand (d : GReg) (a : GReg) (b : GReg) (width : AmoWidth) (ord : AmoOrd)
  | amoor (d : GReg) (a : GReg) (b : GReg) (width : AmoWidth) (ord : AmoOrd)
  | amoxor (d : GReg) (a : GReg) (b : GReg) (width : AmoWidth) (ord : AmoOrd)
  | amomin (d : GReg) (a : GReg) (b : GReg) (width : AmoWidth) (ord : AmoOrd)
  | amomax (d : GReg) (a : GReg) (b : GReg) (width : AmoWidth) (ord : AmoOrd)
  | amominn (d : GReg) (a : GReg) (b : GReg) (width : AmoWidth) (ord : AmoOrd)
  | amomaxn (d : GReg) (a : GReg) (b : GReg) (width : AmoWidth) (ord : AmoOrd)
  | amoswap (d : GReg) (a : GReg) (b : GReg) (width : AmoWidth) (ord : AmoOrd)
  | amocas (d : GReg) (a : GReg) (b : GReg) (width : AmoWidth) (ord : AmoOrd)
  | lr (d : GReg) (a : GReg) (width : AmoWidth) (ord : AmoOrd)
  | sc (d : GReg) (a : GReg) (b : GReg) (width : AmoWidth) (ord : AmoOrd)
  | wrs (d : GReg) (a : GReg) (b : GReg) (width : AmoWidth)
  | fenceAcq
  | fenceRel
  | fenceSc
  | afence
  | pref (a : GReg)
  | spawn (d : GReg) (a : GReg) (b : GReg) (cell : Bool)
  | quit
  | yield (n : BitVec 16) (gm : GReg)
  | depsig (a : GReg)
  | cancel (a : GReg) (level : CancelLevel)
  | trap (n : BitVec 7)
  | tret
  | cget (d : GReg) (reg : CtlReg)
  | cgetFpFlags (d : GReg)
  | cset (d : GReg) (reg : CtlReg)
  | csetChanIn (d : GReg)
  | csetChanOut (d : GReg)
  | inval (a : GReg) (b : GReg)
  | vadd (t : ElemType) (d : VReg) (a : VReg) (b : VReg) (m : MReg)
  | vsub (t : ElemType) (d : VReg) (a : VReg) (b : VReg) (m : MReg)
  | vmul (t : ElemType) (d : VReg) (a : VReg) (b : VReg) (m : MReg)
  | vfma (t : ElemType) (d : VReg) (a : VReg) (b : VReg) (m : MReg)
  | vfms (t : ElemType) (d : VReg) (a : VReg) (b : VReg) (m : MReg)
  | vfnma (t : ElemType) (d : VReg) (a : VReg) (b : VReg) (m : MReg)
  | vmin (t : ElemType) (d : VReg) (a : VReg) (b : VReg) (m : MReg)
  | vmax (t : ElemType) (d : VReg) (a : VReg) (b : VReg) (m : MReg)
  | vabs (t : ElemType) (d : VReg) (a : VReg) (m : MReg)
  | vneg (t : ElemType) (d : VReg) (a : VReg) (m : MReg)
  | vrcp (t : ElemType) (d : VReg) (a : VReg) (m : MReg)
  | vrsqrt (t : ElemType) (d : VReg) (a : VReg) (m : MReg)
  | vexp2 (t : ElemType) (d : VReg) (a : VReg) (m : MReg)
  | vlog2 (t : ElemType) (d : VReg) (a : VReg) (m : MReg)
  | vtanh (t : ElemType) (d : VReg) (a : VReg) (m : MReg)
  | vand (t : ElemType) (d : VReg) (a : VReg) (b : VReg) (m : MReg)
  | vor (t : ElemType) (d : VReg) (a : VReg) (b : VReg) (m : MReg)
  | vxor (t : ElemType) (d : VReg) (a : VReg) (b : VReg) (m : MReg)
  | vnot (t : ElemType) (d : VReg) (a : VReg) (m : MReg)
  | vshl (t : ElemType) (d : VReg) (a : VReg) (b : VReg) (m : MReg)
  | vshr (t : ElemType) (d : VReg) (a : VReg) (b : VReg) (m : MReg)
  | vsra (t : ElemType) (d : VReg) (a : VReg) (b : VReg) (m : MReg)
  | vcmp (t : ElemType) (cond : VcmpCond) (k : MReg) (a : VReg) (b : VReg) (m : MReg)
  | vsel (t : ElemType) (d : VReg) (a : VReg) (b : VReg) (m : MReg)
  | vcvt (t : ElemType) (d : VReg) (a : VReg) (src : ElemType) (m : MReg)
  | vwcvt (t : ElemType) (d : VReg) (a : VReg) (src : ElemType) (m : MReg)
  | vwmul (t : ElemType) (d : VReg) (a : VReg) (b : VReg) (m : MReg)
  | vwadd (t : ElemType) (d : VReg) (a : VReg) (b : VReg) (m : MReg)
  | vnarrow (t : ElemType) (d : VReg) (a : VReg) (m : MReg)
  | vredsum (t : ElemType) (d : VReg) (a : VReg) (b : VReg) (m : MReg)
  | vredmax (t : ElemType) (d : VReg) (a : VReg) (b : VReg) (m : MReg)
  | vredmin (t : ElemType) (d : VReg) (a : VReg) (b : VReg) (m : MReg)
  | vscan (t : ElemType) (d : VReg) (a : VReg) (b : GReg) (m : MReg)
  | vxscan (t : ElemType) (d : VReg) (a : VReg) (b : GReg) (m : MReg)
  | vclmul (t : ElemType) (d : VReg) (a : VReg) (b : VReg) (m : MReg)
  | vperm (t : ElemType) (d : VReg) (a : VReg) (b : VReg) (m : MReg)
  | vslide (t : ElemType) (d : VReg) (a : VReg) (b : GReg) (m : MReg)
  | vbcast (t : ElemType) (d : VReg) (a : GReg) (m : MReg)
  | viota (t : ElemType) (d : VReg) (m : MReg)
  | vcompress (t : ElemType) (d : VReg) (a : VReg) (m : MReg)
  | vexpand (t : ElemType) (d : VReg) (a : VReg) (m : MReg)
  | vmovg (t : ElemType) (d : GReg) (a : VReg) (b : GReg)
  | vmovxTov (d : VReg) (a : MReg)
  | vmovxTom (d : MReg) (a : VReg)
  | vpmerge (d : VReg) (a : VReg) (b : VReg) (m : MReg)
  | vnoise (d : VReg) (a : GReg) (b : GReg) (m : MReg)
  | vamax (d : GReg) (a : VReg) (b : GReg) (m : MReg)
  | kand (d : MReg) (a : MReg) (b : MReg)
  | kor (d : MReg) (a : MReg) (b : MReg)
  | kxor (d : MReg) (a : MReg) (b : MReg)
  | knot (d : MReg) (a : MReg)
  | kpopc (d : GReg) (a : MReg)
  | kfirst (d : GReg) (a : MReg)
  | vaddSat (t : ElemType) (d : VReg) (a : VReg) (b : VReg) (m : MReg)
  | vsubSat (t : ElemType) (d : VReg) (a : VReg) (b : VReg) (m : MReg)
  | vmulSat (t : ElemType) (d : VReg) (a : VReg) (b : VReg) (m : MReg)
  | vnarrowSat (t : ElemType) (d : VReg) (a : VReg) (m : MReg)
  | vld (t : ElemType) (d : VReg) (a : GReg) (m : MReg)
  | vst (t : ElemType) (d : VReg) (a : GReg) (m : MReg)
  | vldg (t : ElemType) (d : VReg) (a : GReg) (b : GReg) (m : MReg)
  | vstg (t : ElemType) (d : VReg) (a : GReg) (b : GReg) (m : MReg)
  | vgather (t : ElemType) (d : VReg) (a : GReg) (b : VReg) (m : MReg)
  | vscatter (t : ElemType) (d : VReg) (a : GReg) (b : VReg) (m : MReg)
  | pld (d : VReg) (a : GReg)
  | pst (d : VReg) (a : GReg)
  | tstat (d : GReg) (a : GReg)
  | tready (a : GReg)
  | tempty (a : GReg)
  | barinit (a : GReg) (b : GReg)
  | barpost (a : GReg) (b : GReg)
  | bararr (a : GReg)
  | bardrop (a : GReg)
  | barwait (a : GReg) (b : GReg)
  | oclaim (d : GReg) (a : OReg)
  | orelease (a : OReg)
  | oload (d : OReg) (a : GReg) (b : GReg)
  | mxset (a : GReg)
  | mxget (d : GReg)
  | mxzero (d : CReg)
  | mxmul (d : CReg) (a : OReg) (b : OReg)
  | mxloadc (d : CReg) (a : GReg) (b : GReg)
  | mxstore (d : CReg) (a : GReg) (b : GReg)
  | mxwait (a : CReg)
  | mxdrain
  | eset (e : BitVec 6) (a : GReg)
  | eget (e : BitVec 6) (a : GReg)
  | cpyMm (a : GReg) (b : GReg) (bar : Bool)
  | cpyMt (a : GReg) (b : GReg) (bar : Bool)
  | cpyTm (a : GReg) (b : GReg) (bar : Bool)
  | qput (a : GReg) (b : GReg)
  | rwin (a : GReg) (op : RedOp)
  | rclose (a : GReg)
  | ramo (a : GReg) (b : GReg) (op : RedOp)
  | rwait (a : GReg) (b : GReg)
  | hload (d : HReg) (a : GReg)
  | hstore (d : HReg) (a : GReg)
  | hquery (d : GReg) (a : HReg) (b : GReg)
  | tld (d : VReg) (a : HReg) (b : GReg) (m : MReg)
  | tst (d : VReg) (a : HReg) (b : GReg) (m : MReg)
  | relayout (d : HReg) (a : GReg) (b : GReg)
  | rlwait (a : HReg)
  | hopen (d : GReg) (a : GReg)
  | henter (a : GReg)
  | hleave
  | hconfirm (d : GReg) (a : GReg) (excl : Bool)
  | hrefute (d : GReg) (a : GReg)
  | hstat (d : GReg) (a : GReg)
  | copen (off : BitVec 12)
  | cclose
  | screate (d : GReg) (a : GReg)
  | sfork (d : GReg) (a : GReg) (b : GReg)
  | sdrop (d : GReg) (a : GReg)
  | sact (d : GReg) (a : GReg) (b : GReg)
  | spop (d : GReg) (a : GReg)
  | shor (d : GReg) (a : GReg) (b : GReg)
  | sret (a : GReg)
  | sjoin (d : GReg) (a : GReg) (b : GReg)
  | senter (a : GReg)
  | smigr (d : GReg) (a : GReg) (b : GReg)
  | accept (d : GReg) (a : GReg)
  | fadd (d : GReg) (a : GReg) (b : GReg) (prec : Prec) (rnd : RndSel)
  | fsub (d : GReg) (a : GReg) (b : GReg) (prec : Prec) (rnd : RndSel)
  | fmul (d : GReg) (a : GReg) (b : GReg) (prec : Prec) (rnd : RndSel)
  | fdiv (d : GReg) (a : GReg) (b : GReg) (prec : Prec) (rnd : RndSel)
  | fsqrt (d : GReg) (a : GReg) (prec : Prec) (rnd : RndSel)
  | ffma (d : GReg) (a : GReg) (b : GReg) (prec : Prec) (rnd : RndSel)
  | fmin (d : GReg) (a : GReg) (b : GReg) (prec : Prec)
  | fmax (d : GReg) (a : GReg) (b : GReg) (prec : Prec)
  | fcmp (d : GReg) (a : GReg) (b : GReg) (prec : Prec) (cond : FcmpCond)
  | fcvt (d : GReg) (a : GReg) (prec : Prec) (rnd : RndSel) (kind : FcvtKind)
  | fclass (d : GReg) (a : GReg) (prec : Prec)
  | rep (count : BitVec 6) (sd : Bool) (sa : Bool) (sb : Bool) (stride : Stride)
  | wrsTimeout
  | l1Replacement
  | homeEviction
  | quitComplete
  | invalHolder
  | tlbWalk
  | matrixBlockGrant
  | matrixEntryComplete
  | vectorLaneGrant
  | vectorEntryComplete
  | carterSector
  | routerContribution
  | routerHoldExpiry
  | contributionArrive
  | windowTimeout
  | windowDelivery
  | weaverUnit
  | hypDiePrepare
  | hypCommit
  | hypApply
  | hypSweep
  | versionSpillwaitExpiry
  | streamArrival
  | streamBatchTimeout
  | streamBatchPlace
  | winnowerJoin
  | pageReload
  | strmSpillwaitExpiry
  | unpark
  | notifyStore
  | factorPoll
  | launchPacket
  | launchAccept
  | copyPacket
  | waitPacket
  | waitPacketComplete
  | signalPacket
  | barrierAndPacket
  | barrierAndComplete
  | cancelPacket
  | replayBegin
  | replayEnd
  | restartAck
  | reservedPacket
  | queueRestart
  | queueTableUpdate
  | queueMap
  | queueWaitTimeout
  | queueUnmap
  | factorWatchdog
  | distributorChunk
  | taskCreate
  | depIndexRelease
  | reissueFinish
  | preemptRequest
  | contextRestore
  | dieFence
  | fenceNotice
  | packageLost
  | packageTableRewrite
  | fabricFlitArrival
  | linkCrcRetry
  | pauseFlit
  | resumeFlit
  | hostWrite
  | hostRead
  | assayerCompare
  | assayerSkewTimeout
  | quarantineSet
  | injectionArm
  | moduleReset
  | bootStage
  | firmwareUpdate
  | svnRaise
  | attestationRequest
  | regionBitChange
  | powerCapSet
  | powerThrottle
  | clockStepUp
  | thermalThrottle
  | thermalFence
  | coolantFlowLoss
  | thermalShutdown
  | telemetrySample
  | notAnInstruction
  | fabricDieFailure
  | powerLoss
  deriving DecidableEq, Repr

end Sys2Proof
end

