-- ==== Sys2Proof/Machine/Numbers.lean ====
section
/-!
DEFINITION. Number formats and arithmetic of spec/09_numbers.md: exact values, rounding, the special functions, the
summation orders. Element and register values are natural numbers, the bit patterns.
-/

namespace Sys2Proof.Machine

/-- The rounding modes, as FP.MODE.RM codes them (R101). -/
inductive Rnd where
  | rne | rtz | rup | rdn
  deriving DecidableEq, Repr

/-- The mode with a code (R101). -/
def Rnd.ofCode (c : Nat) : Rnd :=
  match c % 4 with
  | 0 => .rne | 1 => .rtz | 2 => .rup | _ => .rdn

/-- The floating-point formats of R177. -/
inductive FpFmt where
  | fp64 | f32 | f16 | bf16 | e4m3 | e5m2
  deriving DecidableEq, Repr

/-- Exponent bits (R177). -/
def FpFmt.expBits : FpFmt → Nat
  | .fp64 => 11 | .f32 => 8 | .f16 => 5 | .bf16 => 8 | .e4m3 => 4 | .e5m2 => 5
/-- Fraction bits (R177). -/
def FpFmt.fracBits : FpFmt → Nat
  | .fp64 => 52 | .f32 => 23 | .f16 => 10 | .bf16 => 7 | .e4m3 => 3 | .e5m2 => 2
/-- Bias (R177). -/
def FpFmt.bias : FpFmt → Nat
  | .fp64 => 1023 | .f32 => 127 | .f16 => 15 | .bf16 => 127 | .e4m3 => 7 | .e5m2 => 15
/-- Canonical NaN (R178). -/
def FpFmt.nan : FpFmt → Nat
  | .fp64 => 0x7FF8000000000000 | .f32 => 0x7FC00000 | .f16 => 0x7E00 | .bf16 => 0x7FC0 | .e4m3 => 0x7F | .e5m2 => 0x7E
/-- Largest finite value (R178). -/
def FpFmt.maxFinite : FpFmt → Nat
  | .fp64 => 0x7FEFFFFFFFFFFFFF | .f32 => 0x7F7FFFFF | .f16 => 0x7BFF | .bf16 => 0x7F7F | .e4m3 => 0x7E | .e5m2 => 0x7B
/-- Positive infinity (R178); e4m3 has none and gives its largest finite value (R179). -/
def FpFmt.inf : FpFmt → Nat
  | .fp64 => 0x7FF0000000000000 | .f32 => 0x7F800000 | .f16 => 0x7C00 | .bf16 => 0x7F80 | .e4m3 => 0x7E | .e5m2 => 0x7C
/-- The sign bit's weight. -/
def FpFmt.signBit (f : FpFmt) : Nat := 2 ^ (f.expBits + f.fracBits)
/-- The bit pattern with a sign. -/
def FpFmt.signed (f : FpFmt) (neg : Bool) (mag : Nat) : Nat := if neg then f.signBit + mag else mag

/-- A value: a NaN, an infinity, or (−1)^neg · mant · 2^exp exactly. -/
inductive FpVal where
  | nan (signalling : Bool)
  | inf (neg : Bool)
  | fin (neg : Bool) (mant : Nat) (exp : Int)
  deriving DecidableEq, Repr

/-- The value of a bit pattern (R177, R178). -/
def FpFmt.decode (f : FpFmt) (b : Nat) : FpVal :=
  let frac := b % 2 ^ f.fracBits
  let ex := b / 2 ^ f.fracBits % 2 ^ f.expBits
  let neg := b / f.signBit % 2 = 1
  if f = .e4m3 ∧ ex = 15 ∧ frac = 7 then .nan false
  else if f ≠ .e4m3 ∧ ex = 2 ^ f.expBits - 1 then
    if frac = 0 then .inf neg else .nan (frac < 2 ^ (f.fracBits - 1))
  else if ex = 0 then .fin neg frac (1 - f.bias - f.fracBits)
  else .fin neg (2 ^ f.fracBits + frac) ((ex : Int) - f.bias - f.fracBits)

def flagNV : Flags := 16
def flagDZ : Flags := 8
def flagOF : Flags := 4
def flagUF : Flags := 2
def flagNX : Flags := 1

/-- The flag of an invalid operation, when there is one. -/
def nvIf (c : Bool) : Flags := if c then flagNV else 0

/-- mant · 2^k rounded to an integer, and whether that was inexact (R179). -/
def roundInt (mode : Rnd) (neg : Bool) (mant : Nat) (k : Int) : Nat × Bool :=
  if 0 ≤ k then (mant * 2 ^ k.toNat, false)
  else
    let n := (-k).toNat
    let q := mant / 2 ^ n
    let r := mant % 2 ^ n
    if r = 0 then (q, false)
    else
      let up : Bool := match mode with
        | .rne => decide (2 ^ n < 2 * r) || (decide (2 * r = 2 ^ n) && decide (q % 2 = 1))
        | .rtz => false
        | .rup => !neg
        | .rdn => neg
      (if up then q + 1 else q, true)

/-- A finite value rounded to a format: the bit pattern and OF, UF, NX (R103, R179). Tininess is detected after rounding
with an unbounded exponent range (DEDUCED, log entry 17). -/
def roundFin (f : FpFmt) (mode : Rnd) (neg : Bool) (mant : Nat) (e : Int) : Nat × Flags :=
  if mant = 0 then (f.signed neg 0, 0)
  else
    let emin : Int := 1 - f.bias
    let fb : Int := f.fracBits
    let top : Int := (mant.log2 : Int) + e
    let q : Int := max (top - fb) (emin - fb)
    let (m, inexact) := roundInt mode neg mant (e - q)
    let mu := (roundInt mode neg mant (e - (top - fb))).1
    let tiny : Bool := (mu.log2 : Int) + (top - fb) < emin
    let mag := m + (q + fb + f.bias - 1).toNat * 2 ^ f.fracBits
    if f.maxFinite < mag then
      let toInf : Bool := match mode with
        | .rne => true
        | .rtz => false
        | .rup => !neg
        | .rdn => neg
      (f.signed neg (if toInf then f.inf else f.maxFinite), flagOF ||| flagNX)
    else
      (f.signed neg mag, (if inexact then flagNX else 0) ||| (if inexact && tiny then flagUF else 0))

/-- RoundToFormat (R179): the bit pattern and the flags of the rounding. -/
def roundToFormat (f : FpFmt) (mode : Rnd) : FpVal → Nat × Flags
  | .nan _ => (f.nan, 0)
  | .inf neg => (f.signed neg f.inf, 0)
  | .fin neg m e => roundFin f mode neg m e

def FpVal.isNan : FpVal → Bool
  | .nan _ => true
  | _ => false
def FpVal.isSig : FpVal → Bool
  | .nan s => s
  | _ => false
def FpVal.isZero : FpVal → Bool
  | .fin _ m _ => m = 0
  | _ => false
def FpVal.isNeg : FpVal → Bool
  | .nan _ => false
  | .inf n => n
  | .fin n _ _ => n
def FpVal.negate : FpVal → FpVal
  | .nan s => .nan s
  | .inf n => .inf (!n)
  | .fin n m e => .fin (!n) m e

/-- The exact signed integer of a finite value at the scale 2^base, base at most its exponent. -/
def scaled (neg : Bool) (m : Nat) (e base : Int) : Int :=
  let v : Int := (m : Int) * 2 ^ (e - base).toNat
  if neg then -v else v

/-- The exact sum, and whether it is invalid (R103). The mode gives the sign of an exact zero sum. -/
def addVal (mode : Rnd) (a b : FpVal) : FpVal × Bool :=
  match a, b with
  | .nan s, y => (.nan false, s || y.isSig)
  | x, .nan s => (.nan false, s || x.isSig)
  | .inf n, .inf k => if n = k then (.inf n, false) else (.nan false, true)
  | .inf n, .fin _ _ _ => (.inf n, false)
  | .fin _ _ _, .inf n => (.inf n, false)
  | .fin n m e, .fin k p g =>
    let base := min e g
    let v := scaled n m e base + scaled k p g base
    if v = 0 then (.fin (if m = 0 ∧ p = 0 ∧ n = k then n else decide (mode = .rdn)) 0 0, false)
    else (.fin (decide (v < 0)) v.natAbs base, false)

/-- The exact product, and whether it is invalid (R103). -/
def mulVal (a b : FpVal) : FpVal × Bool :=
  match a, b with
  | .nan s, y => (.nan false, s || y.isSig)
  | x, .nan s => (.nan false, s || x.isSig)
  | .inf n, y => if y.isZero then (.nan false, true) else (.inf (n != y.isNeg), false)
  | x, .inf n => if x.isZero then (.nan false, true) else (.inf (n != x.isNeg), false)
  | .fin n m e, .fin k p g => (.fin (n != k) (m * p) (e + g), false)

/-- a·b + c exactly, and whether it is invalid: 0·∞ is, whatever c is (R103). -/
def fmaVal (mode : Rnd) (a b c : FpVal) : FpVal × Bool :=
  let (p, nv) := mulVal a b
  let (r, nv') := addVal mode p c
  (r, nv || nv')

/-- The quotient with a sticky bit below 66 true bits, and its flags NV and DZ (R103, R105). -/
def divVal (a b : FpVal) : FpVal × Flags :=
  match a, b with
  | .nan s, y => (.nan false, nvIf (s || y.isSig))
  | x, .nan s => (.nan false, nvIf (s || x.isSig))
  | .inf _, .inf _ => (.nan false, flagNV)
  | .inf n, .fin k _ _ => (.inf (n != k), 0)
  | .fin n _ _, .inf k => (.fin (n != k) 0 0, 0)
  | .fin n m e, .fin k p g =>
    if p = 0 then
      if m = 0 then (.nan false, flagNV) else (.inf (n != k), flagDZ)
    else
      let sh := 68 + p.log2
      let num := m * 2 ^ sh
      (.fin (n != k) (2 * (num / p) + (if num % p = 0 then 0 else 1)) (e - g - sh - 1), 0)

/-- The integer square root of n, found bit by bit from bit k − 1 down, r being the bits found so far. -/
def isqrtFrom (n : Nat) : Nat → Nat → Nat
  | 0, r => r
  | k + 1, r => if (r + 2 ^ k) * (r + 2 ^ k) ≤ n then isqrtFrom n k (r + 2 ^ k) else isqrtFrom n k r

/-- The integer square root. -/
def isqrt (n : Nat) : Nat := isqrtFrom n (n.log2 / 2 + 1) 0

/-- The square root with a sticky bit, and whether it is invalid (R103, R105). -/
def sqrtVal : FpVal → FpVal × Bool
  | .nan s => (.nan false, s)
  | .inf n => if n then (.nan false, true) else (.inf false, false)
  | .fin n m e =>
    if m = 0 then (.fin n 0 0, false)
    else if n then (.nan false, true)
    else
      let sh : Nat := if (e % 2 = 0) then 140 else 141
      let num := m * 2 ^ sh
      let r := isqrt num
      (.fin false (2 * r + (if r * r = num then 0 else 1)) ((e - sh) / 2 - 1), false)

/-- a < b for values that are no NaN, +0 and −0 equal. -/
def ltVal (a b : FpVal) : Bool :=
  match a, b with
  | .nan _, _ => false
  | _, .nan _ => false
  | .inf n, .inf k => n && !k
  | .inf n, .fin _ _ _ => n
  | .fin _ _ _, .inf k => !k
  | .fin n m e, .fin k p g => let base := min e g; decide (scaled n m e base < scaled k p g base)

/-- a = b for values that are no NaN, +0 and −0 equal. -/
def eqVal (a b : FpVal) : Bool := !a.isNan && !b.isNan && !ltVal a b && !ltVal b a

/-- a below b with −0 below +0: the order of the minimum and maximum (R106). -/
def belowVal (a b : FpVal) : Bool := ltVal a b || (a.isZero && b.isZero && a.isNeg && !b.isNeg)

/-- The smaller or larger operand's bits, and NV for a signalling NaN (R106). -/
def minMaxBits (f : FpFmt) (wantMax : Bool) (a b : Nat) : Nat × Flags :=
  let x := f.decode a
  let y := f.decode b
  let fl := nvIf (x.isSig || y.isSig)
  if x.isNan && y.isNan then (f.nan, fl)
  else if x.isNan then (b, fl)
  else if y.isNan then (a, fl)
  else if wantMax then (if belowVal x y then b else a, fl)
  else (if belowVal y x then b else a, fl)

/-- a + b rounded (R103). -/
def addBits (f : FpFmt) (mode : Rnd) (a b : Nat) : Nat × Flags :=
  let (v, nv) := addVal mode (f.decode a) (f.decode b)
  let (r, fl) := roundToFormat f mode v
  (r, fl ||| nvIf nv)

/-- a − b rounded (R103). -/
def subBits (f : FpFmt) (mode : Rnd) (a b : Nat) : Nat × Flags :=
  let (v, nv) := addVal mode (f.decode a) (f.decode b).negate
  let (r, fl) := roundToFormat f mode v
  (r, fl ||| nvIf nv)

/-- a · b rounded (R103). -/
def mulBits (f : FpFmt) (mode : Rnd) (a b : Nat) : Nat × Flags :=
  let (v, nv) := mulVal (f.decode a) (f.decode b)
  let (r, fl) := roundToFormat f mode v
  (r, fl ||| nvIf nv)

/-- a / b rounded (R103, R105). -/
def divBits (f : FpFmt) (mode : Rnd) (a b : Nat) : Nat × Flags :=
  let (v, fl) := divVal (f.decode a) (f.decode b)
  let (r, fl') := roundToFormat f mode v
  (r, fl ||| fl')

/-- The square root rounded (R103, R105). -/
def sqrtBits (f : FpFmt) (mode : Rnd) (a : Nat) : Nat × Flags :=
  let (v, nv) := sqrtVal (f.decode a)
  let (r, fl) := roundToFormat f mode v
  (r, fl ||| nvIf nv)

/-- ±(a · b) ± c with one rounding (R103, R218). -/
def fmaBits (f : FpFmt) (mode : Rnd) (negProd negAdd : Bool) (a b c : Nat) : Nat × Flags :=
  let x := f.decode a
  let z := f.decode c
  let (v, nv) := fmaVal mode (if negProd then x.negate else x) (f.decode b) (if negAdd then z.negate else z)
  let (r, fl) := roundToFormat f mode v
  (r, fl ||| nvIf nv)

/-- A conversion between floating-point formats (R180). -/
def convertBits (src dst : FpFmt) (mode : Rnd) (a : Nat) : Nat × Flags :=
  let v := src.decode a
  let (r, fl) := roundToFormat dst mode v
  (r, fl ||| nvIf v.isSig)

/-- A value rounded to an integer between lo and hi (R109, R181). -/
def toIntVal (mode : Rnd) (lo hi : Int) : FpVal → Int × Flags
  | .nan _ => (0, flagNV)
  | .inf n => (if n then lo else hi, flagNV)
  | .fin n m e =>
    let (q, inexact) := roundInt mode n m e
    let v : Int := if n then -(q : Int) else q
    if v < lo then (lo, flagNV)
    else if hi < v then (hi, flagNV)
    else (v, if inexact then flagNX else 0)

/-- An integer rounded to a format (R181). -/
def ofIntBits (f : FpFmt) (mode : Rnd) (v : Int) : Nat × Flags := roundFin f mode (decide (v < 0)) v.natAbs 0

/-- The classification bit of `fclass` (R108). -/
def classBit (f : FpFmt) (a : Nat) : Nat :=
  match f.decode a with
  | .nan s => if s then 8 else 9
  | .inf n => if n then 0 else 7
  | .fin n m _ =>
    if m = 0 then (if n then 3 else 4)
    else if m < 2 ^ f.fracBits then (if n then 2 else 5)
    else (if n then 1 else 6)

/-! ### Integers (R175, R176) -/

/-- WrapN. -/
def wrapN (v : Int) (w : Nat) : Nat := (v % 2 ^ w).toNat
/-- The two's complement reading of w bits. -/
def asSigned (b w : Nat) : Int := if b % 2 ^ w < 2 ^ (w - 1) then ((b % 2 ^ w : Nat) : Int) else ((b % 2 ^ w : Nat) : Int) - 2 ^ w
/-- The least value of an integer type. -/
def intMin (signed : Bool) (w : Nat) : Int := if signed then -(2 ^ (w - 1)) else 0
/-- The greatest value of an integer type. -/
def intMax (signed : Bool) (w : Nat) : Int := if signed then 2 ^ (w - 1) - 1 else 2 ^ w - 1
/-- SatS and SatN: the value clamped to the type's range. -/
def clampInt (signed : Bool) (w : Nat) (v : Int) : Int := max (intMin signed w) (min v (intMax signed w))

/-- The carry-less product: the exclusive or, over each set bit j of b below n, of a shifted left by j (R94). -/
def clmulNat (a b : Nat) : Nat → Nat
  | 0 => 0
  | n + 1 => clmulNat a b n ^^^ (if b.testBit n then a * 2 ^ n else 0)

/-! ### Element types (R174) -/


/-- The format of a floating-point element type; the types that are none answer f32. -/
def fmtOf : ElemType → FpFmt
  | .e4m3 => .e4m3 | .e5m2 => .e5m2 | .f16 => .f16 | .bf16 => .bf16 | _ => .f32

/-- The integer an element of an integer type stands for (R175). -/
def elemInt (t : ElemType) (b : Nat) : Int := if t.isSigned then asSigned b t.width else ((b % 2 ^ t.width : Nat) : Int)

/-- An integer operation that wraps (R218). -/
def wrapElem (t : ElemType) (v : Int) : Nat × Flags := (wrapN v t.width, 0)
/-- An integer operation that saturates (R219). -/
def satElem (t : ElemType) (v : Int) : Nat × Flags := (wrapN (clampInt t.isSigned t.width v) t.width, 0)

/-- `vadd` on one element (R218). -/
def elemAdd (t : ElemType) (mode : Rnd) (a b : Nat) : Nat × Flags :=
  if t.isInt then wrapElem t (elemInt t a + elemInt t b) else addBits (fmtOf t) mode a b
/-- `vsub` on one element (R218). -/
def elemSub (t : ElemType) (mode : Rnd) (a b : Nat) : Nat × Flags :=
  if t.isInt then wrapElem t (elemInt t a - elemInt t b) else subBits (fmtOf t) mode a b
/-- `vmul` on one element (R218). -/
def elemMul (t : ElemType) (mode : Rnd) (a b : Nat) : Nat × Flags :=
  if t.isInt then wrapElem t (elemInt t a * elemInt t b) else mulBits (fmtOf t) mode a b
/-- `vfma`, `vfms` and `vfnma` on one element: ±(a·b) ± d (R218). -/
def elemFma (t : ElemType) (mode : Rnd) (negProd negAdd : Bool) (a b d : Nat) : Nat × Flags :=
  if t.isInt then
    let p := elemInt t a * elemInt t b
    wrapElem t ((if negProd then -p else p) + (if negAdd then -elemInt t d else elemInt t d))
  else fmaBits (fmtOf t) mode negProd negAdd a b d
/-- `vmin` and `vmax` on one element (R218). -/
def elemMinMax (t : ElemType) (wantMax : Bool) (a b : Nat) : Nat × Flags :=
  if t.isInt then
    (if wantMax then (if elemInt t a < elemInt t b then b else a)
     else (if elemInt t b < elemInt t a then b else a), 0)
  else minMaxBits (fmtOf t) wantMax a b
/-- `vabs` on one element (R218). -/
def elemAbs (t : ElemType) (a : Nat) : Nat × Flags :=
  if t.isInt then wrapElem t (elemInt t a).natAbs
  else
    let f := fmtOf t
    let v := f.decode a
    if v.isNan then (f.nan, nvIf v.isSig) else (a % f.signBit, 0)
/-- `vneg` on one element (R218). -/
def elemNeg (t : ElemType) (a : Nat) : Nat × Flags :=
  if t.isInt then wrapElem t (-elemInt t a)
  else
    let f := fmtOf t
    let v := f.decode a
    if v.isNan then (f.nan, nvIf v.isSig) else ((a + f.signBit) % (2 * f.signBit), 0)
/-- `vshl` on one element (R218). -/
def elemShl (t : ElemType) (a b : Nat) : Nat × Flags := (a * 2 ^ (b % t.width) % 2 ^ t.width, 0)
/-- `vshr` on one element (R218). -/
def elemShr (t : ElemType) (a b : Nat) : Nat × Flags := (a / 2 ^ (b % t.width), 0)
/-- `vsra` on one element (R218). -/
def elemSra (t : ElemType) (a b : Nat) : Nat × Flags :=
  (wrapN (asSigned a t.width / 2 ^ (b % t.width)) t.width, 0)
/-- The comparison of `vcmp` (R220). -/
def elemCmp (t : ElemType) (c : VcmpCond) (a b : Nat) : Bool × Flags :=
  if t.isInt then
    (match c with
     | .eq => decide (elemInt t a = elemInt t b)
     | .ne => decide (elemInt t a ≠ elemInt t b)
     | .lt => decide (elemInt t a < elemInt t b)
     | .le => decide (elemInt t a ≤ elemInt t b), 0)
  else
    let x := (fmtOf t).decode a
    let y := (fmtOf t).decode b
    let sig := x.isSig || y.isSig
    let anyNan := x.isNan || y.isNan
    match c with
    | .eq => (eqVal x y, nvIf sig)
    | .ne => (!eqVal x y, nvIf sig)
    | .lt => (ltVal x y, nvIf anyNan)
    | .le => (ltVal x y || eqVal x y, nvIf anyNan)

/-- One element converted from a type to another, of one width or not (R221, R222). -/
def elemConvert (src dst : ElemType) (mode : Rnd) (a : Nat) : Nat × Flags :=
  if src.isInt then
    if dst.isInt then (wrapN (clampInt dst.isSigned dst.width (elemInt src a)) dst.width, 0)
    else ofIntBits (fmtOf dst) mode (elemInt src a)
  else if dst.isInt then
    let (v, fl) := toIntVal mode (intMin dst.isSigned dst.width) (intMax dst.isSigned dst.width) ((fmtOf src).decode a)
    (wrapN v dst.width, fl)
  else convertBits (fmtOf src) (fmtOf dst) mode a

/-- `vwmul` on one element: the exact product in the doubled type (R222). -/
def elemWideMul (t : ElemType) (mode : Rnd) (a b : Nat) : Nat × Flags :=
  if t.isInt then wrapElem t.doubled (elemInt t a * elemInt t b)
  else
    let (v, nv) := mulVal ((fmtOf t).decode a) ((fmtOf t).decode b)
    let (r, fl) := roundToFormat (fmtOf t.doubled) mode v
    (r, fl ||| nvIf nv)
/-- `vwadd` on one element: the exact sum in the doubled type (R222). -/
def elemWideAdd (t : ElemType) (mode : Rnd) (a b : Nat) : Nat × Flags :=
  if t.isInt then wrapElem t.doubled (elemInt t a + elemInt t b)
  else
    let (v, nv) := addVal mode ((fmtOf t).decode a) ((fmtOf t).decode b)
    let (r, fl) := roundToFormat (fmtOf t.doubled) mode v
    (r, fl ||| nvIf nv)
/-- `vnarrow` on one element of the doubled type (R223). -/
def elemNarrow (t : ElemType) (sat : Bool) (mode : Rnd) (a : Nat) : Nat × Flags :=
  if t.isInt then
    if sat then satElem t (elemInt t.doubled a) else (a % 2 ^ t.width, 0)
  else convertBits (fmtOf t.doubled) (fmtOf t) mode a

/-! ### Special functions (R191 to R197): every step is f32 with RNE -/

/-- Fma(a, b, c) = Rne32(a·b + c). -/
def fma32 (a b c : Nat) : Nat := (fmaBits .f32 .rne false false a b c).1
/-- Mul. -/
def mul32 (a b : Nat) : Nat := (mulBits .f32 .rne a b).1
/-- Add. -/
def add32 (a b : Nat) : Nat := (addBits .f32 .rne a b).1
/-- Scale(y, k) = Rne32(y·2^k). -/
def scale32 (y : Nat) (k : Int) : Nat :=
  match FpFmt.f32.decode y with
  | .fin n m e => (roundFin .f32 .rne n m (e + k)).1
  | v => (roundToFormat .f32 .rne v).1
/-- An exact value as f32. -/
def to32 (n : Bool) (m : Nat) (e : Int) : Nat := (roundFin .f32 .rne n m e).1
/-- 1.0. -/
def one32 : Nat := 0x3F800000
/-- −1.0. -/
def negOne32 : Nat := 0xBF800000
/-- A table entry. -/
def tabAt (t : List Nat) (j : Nat) : Nat := (t[j]?).getD 0

/-- ExpTab: entry j is Rne32 of 2^(j/16) (R191). -/
def expTab : List Nat :=
  [0x3F800000, 0x3F85AAC3, 0x3F8B95C2, 0x3F91C3D3, 0x3F9837F0, 0x3F9EF532, 0x3FA5FED7, 0x3FAD583F,
   0x3FB504F3, 0x3FBD08A4, 0x3FC5672A, 0x3FCE248C, 0x3FD744FD, 0x3FE0CCDF, 0x3FEAC0C7, 0x3FF5257D]

/-- LogRcp: entry j is Rne32 of 1 / (1 + j/32) (R191). -/
def logRcp : List Nat :=
  [0x3F800000, 0x3F783E10, 0x3F70F0F1, 0x3F6A0EA1, 0x3F638E39, 0x3F5D67C9, 0x3F579436, 0x3F520D21,
   0x3F4CCCCD, 0x3F47CE0C, 0x3F430C31, 0x3F3E82FA, 0x3F3A2E8C, 0x3F360B61, 0x3F321643, 0x3F2E4C41,
   0x3F2AAAAB, 0x3F272F05, 0x3F23D70A, 0x3F20A0A1, 0x3F1D89D9, 0x3F1A90E8, 0x3F17B426, 0x3F14F209,
   0x3F124925, 0x3F0FB824, 0x3F0D3DCB, 0x3F0AD8F3, 0x3F088889, 0x3F064B8A, 0x3F042108, 0x3F020821]

/-- LogOff: entry j is Rne32 of the negated base-2 logarithm of LogRcp[j] (R191). -/
def logOff : List Nat :=
  [0x00000000, 0x3D35D690, 0x3DB31FB7, 0x3E0462C4, 0x3E2E00D1, 0x3E567AEF, 0x3E7DE0B5, 0x3E92203D,
   0x3EA4D3C2, 0x3EB71110, 0x3EC8DDD3, 0x3EDA3F60, 0x3EEB3A9E, 0x3EFBD42A, 0x3F060828, 0x3F0DF98A,
   0x3F15C01A, 0x3F1D5DA0, 0x3F24D3C3, 0x3F2C2410, 0x3F335004, 0x3F3A58FE, 0x3F41404E, 0x3F480731,
   0x3F4EAECF, 0x3F553847, 0x3F5BA4A5, 0x3F61F4E5, 0x3F6829FA, 0x3F6E44CF, 0x3F744636, 0x3F7A2F03]

/-- RcpTab: entry j is Rne32 of 1 / (1 + (2j + 1)/64) (R191). -/
def rcpTab : List Nat :=
  [0x3F7C0FC1, 0x3F74898D, 0x3F6D7304, 0x3F66C2B4, 0x3F607038, 0x3F5A740E, 0x3F54C77B, 0x3F4F6475,
   0x3F4A4588, 0x3F4565C8, 0x3F40C0C1, 0x3F3C5264, 0x3F381703, 0x3F340B41, 0x3F302C0B, 0x3F2C7692,
   0x3F28E83F, 0x3F257EB5, 0x3F2237C3, 0x3F1F1166, 0x3F1C09C1, 0x3F191F1A, 0x3F164FDA, 0x3F139A86,
   0x3F10FDBC, 0x3F0E7835, 0x3F0C08C1, 0x3F09AE41, 0x3F0767AB, 0x3F053408, 0x3F03126F, 0x3F010204]

/-- RsqTab: entry j is Rne32 of 1 / sqrt(1 + (2j + 1)/32) (R191). -/
def rsqTab : List Nat :=
  [0x3F7C1764, 0x3F74C867, 0x3F6E133E, 0x3F67E3ED, 0x3F6229ED, 0x3F5CD76E, 0x3F57E0CF, 0x3F533C2E,
   0x3F4EE116, 0x3F4AC83F, 0x3F46EB5A, 0x3F4344E6, 0x3F3FD012, 0x3F3C889F, 0x3F396ACE, 0x3F36734A,
   0x3F339F19, 0x3F30EB96, 0x3F2E565C, 0x3F2BDD46, 0x3F297E62, 0x3F2737F0, 0x3F250855, 0x3F22EE1D,
   0x3F20E7F5, 0x3F1EF4A4, 0x3F1D130E, 0x3F1B422C, 0x3F19810C, 0x3F17CED0, 0x3F162AA9, 0x3F1493D9,
   0x3F1309AF, 0x3F118B87, 0x3F1018C6, 0x3F0EB0E0, 0x3F0D534F, 0x3F0BFF97, 0x3F0AB544, 0x3F0973E8,
   0x3F083B1E, 0x3F070A87, 0x3F05E1C7, 0x3F04C08B, 0x3F03A682, 0x3F029362, 0x3F0186E2, 0x3F0080C1]

/-- Exp2Ref (R192). -/
def exp2Ref (x : Nat) : Nat :=
  match FpFmt.f32.decode x with
  | .nan _ => FpFmt.f32.nan
  | .inf n => if n then 0 else FpFmt.f32.inf
  | .fin n m e =>
    if !ltVal (.fin n m e) (.fin false 128 0) then FpFmt.f32.inf
    else if !ltVal (.fin true 151 0) (.fin n m e) then 0
    else
      let km := (roundInt .rne n m (e + 4)).1
      let k : Int := if n then -(km : Int) else km
      let j := (k % 16).toNat
      let mm := (k - j) / 16
      let f := (roundToFormat .f32 .rne (addVal .rne (.fin n m e) (.fin (decide (0 < k)) k.natAbs (-4))).1).1
      let p := fma32 0x3D635847 f 0x3E75FDF0
      let p := fma32 p f 0x3F317218
      let p := fma32 p f one32
      scale32 (mul32 (tabAt expTab j) p) mm

/-- Log2Ref and its flags (R193). -/
def log2Ref (x : Nat) : Nat × Flags :=
  match FpFmt.f32.decode x with
  | .nan s => (FpFmt.f32.nan, nvIf s)
  | .inf n => if n then (FpFmt.f32.nan, flagNV) else (FpFmt.f32.inf, 0)
  | .fin n m e =>
    if m = 0 then (FpFmt.f32.signed true FpFmt.f32.inf, flagDZ)
    else if n then (FpFmt.f32.nan, flagNV)
    else
      let l := m.log2
      let j := m * 32 / 2 ^ l - 32
      let mant := to32 false m (-(l : Int))
      let ex : Int := e + l
      let t := fma32 mant (tabAt logRcp j) negOne32
      let q := fma32 0x3E93BB63 t 0xBEB8AA3B
      let q := fma32 q t 0x3EF6384F
      let q := fma32 q t 0xBF38AA3B
      let q := fma32 q t 0x3FB8AA3B
      (add32 (add32 (to32 (decide (ex < 0)) ex.natAbs 0) (tabAt logOff j)) (mul32 q t), 0)

/-- RcpRef and its flags (R194). -/
def rcpRef (x : Nat) : Nat × Flags :=
  match FpFmt.f32.decode x with
  | .nan s => (FpFmt.f32.nan, nvIf s)
  | .inf n => (FpFmt.f32.signed n 0, 0)
  | .fin n m e =>
    if m = 0 then (FpFmt.f32.signed n FpFmt.f32.inf, flagDZ)
    else
      let l := m.log2
      let j := m * 32 / 2 ^ l - 32
      let r := tabAt rcpTab j
      let d := fma32 (to32 true m (-(l : Int))) r one32
      let p := fma32 d d d
      let p := fma32 p d d
      let p := fma32 p d d
      let y := scale32 (fma32 r p r) (-(e + l))
      (FpFmt.f32.signed n y, 0)

/-- RsqrtRef and its flags (R195). -/
def rsqrtRef (x : Nat) : Nat × Flags :=
  match FpFmt.f32.decode x with
  | .nan s => (FpFmt.f32.nan, nvIf s)
  | .inf n => if n then (FpFmt.f32.nan, flagNV) else (0, 0)
  | .fin n m e =>
    if m = 0 then (FpFmt.f32.signed n FpFmt.f32.inf, flagDZ)
    else if n then (FpFmt.f32.nan, flagNV)
    else
      let top : Int := e + m.log2
      let ex : Int := if top % 2 = 0 then top else top - 1
      -- x = mm · 2^ex with mm in [1, 4)
      let sh : Int := e - ex
      let j := (if 0 ≤ sh then m * 2 ^ sh.toNat * 16 else m * 16 / 2 ^ (-sh).toNat) - 16
      let mm := to32 false m sh
      let r := tabAt rsqTab j
      let t := fma32 mm (mul32 r r) negOne32
      let q := fma32 t 0x3E8C0000 0xBEA00000
      let q := fma32 q t 0x3EC00000
      let q := fma32 q t 0xBF000000
      let q := mul32 q t
      (scale32 (fma32 r q r) (-(ex / 2)), 0)

/-- TanhRef and its flags (R196). -/
def tanhRef (x : Nat) : Nat × Flags :=
  match FpFmt.f32.decode x with
  | .nan s => (FpFmt.f32.nan, nvIf s)
  | .inf n => (FpFmt.f32.signed n one32, 0)
  | .fin n m e =>
    let ax : FpVal := .fin false m e
    if m = 0 then (x, 0)
    else if !ltVal ax (.fin false 9 0) then (FpFmt.f32.signed n one32, 0)
    else if ltVal ax (.fin false 1 (-4)) then
      let z := mul32 x x
      let q := fma32 z 0xBD5D0DD1 0x3E088889
      let q := fma32 q z 0xBEAAAAAB
      let q := mul32 q z
      (fma32 x q x, 0)
    else
      let u := exp2Ref (mul32 (x % FpFmt.f32.signBit) 0x4038AA3B)
      let w := (rcpRef (add32 u one32)).1
      let r := fma32 0xC0000000 w one32
      (FpFmt.f32.signed n r, 0)

/-- The special functions by name. -/
inductive Special where
  | rcp | rsqrt | exp2 | log2 | tanh
  deriving DecidableEq, Repr

/-- A special function on one element: widened to f32, computed, and rounded to the type (R191). -/
def elemSpecial (fn : Special) (t : ElemType) (mode : Rnd) (a : Nat) : Nat × Flags :=
  let v := (fmtOf t).decode a
  let x := (roundToFormat .f32 .rne v).1
  let (y, fl) := match fn with
    | .rcp => rcpRef x
    | .rsqrt => rsqrtRef x
    | .exp2 => (exp2Ref x, 0)
    | .log2 => log2Ref x
    | .tanh => tanhRef x
  let fl := fl ||| nvIf v.isSig
  if t = .f32 then (y, fl)
  else
    let (r, fl') := roundToFormat (fmtOf t) mode (FpFmt.f32.decode y)
    (r, fl ||| fl')

/-- NoiseRef (R197). -/
def noiseRef (seed step idx : Word) : Nat :=
  let z : Word := seed ^^^ (step * 0x9E3779B97F4A7C15#64) ^^^ (idx * 0xD1B54A32D192ED03#64)
  let z := (z ^^^ (z >>> 30)) * 0xBF58476D1CE4E5B9#64
  let z := (z ^^^ (z >>> 27)) * 0x94D049BB133111EB#64
  let z := z ^^^ (z >>> 31)
  let u := to32 false (2 * (z >>> 41).toNat + 1) (-24)
  let b := mul32 (log2Ref u).1 0xBF317218
  mul32 (log2Ref b).1 0xBF317218

/-- The merge of one pair (m, s) of `vpmerge` (R231). -/
def mergePair (mA sA mB sB : Nat) : Nat × Nat :=
  let nanQ (x : Nat) : Bool := (FpFmt.f32.decode x).isNan
  let negInf := FpFmt.f32.signed true FpFmt.f32.inf
  if nanQ mA || nanQ mB || nanQ sA || nanQ sB then (FpFmt.f32.nan, FpFmt.f32.nan)
  else if mA = negInf ∧ mB = negInf then (negInf, 0)
  else if mB = negInf then (mA, sA)
  else if mA = negInf then (mB, sB)
  else
    let m := if belowVal (FpFmt.f32.decode mA) (FpFmt.f32.decode mB) then mB else mA
    let eA := exp2Ref (subBits .f32 .rne mA m).1
    let eB := exp2Ref (subBits .f32 .rne mB m).1
    (m, fma32 sA eA (mul32 sB eB))

/-! ### Matrix summation (R186 to R188) -/

/-- Whether a value is +∞ or −∞ of the given sign. -/
def FpVal.isInf (neg : Bool) : FpVal → Bool
  | .inf n => n = neg
  | _ => false

/-- The base-2 logarithm of a non-zero finite value, rounded down. -/
def topOf : FpVal → Option Int
  | .fin _ m e => if m = 0 then none else some ((m.log2 : Int) + e)
  | _ => none

/-- The greatest of the logarithms of the non-zero values. -/
def maxTop : List FpVal → Option Int
  | [] => none
  | v :: r =>
    match topOf v, maxTop r with
    | some a, some b => some (max a b)
    | some a, none => some a
    | none, o => o

/-- The sum of the values truncated toward zero at the bit position bot (R186). -/
def windowSum (bot : Int) : List FpVal → Int
  | [] => 0
  | .fin n m e :: r =>
    let q : Nat := if 0 ≤ e - bot then m * 2 ^ (e - bot).toNat else m / 2 ^ (bot - e).toNat
    (if n then -(q : Int) else q) + windowSum bot r
  | _ :: r => windowSum bot r

/-- StepSum: the products of one K-step added to the accumulator (R186); a product 0·∞ is a NaN among them. -/
def stepSum (acc : Nat) (products : List FpVal) : Nat :=
  let all := FpFmt.f32.decode acc :: products
  if all.any FpVal.isNan || (all.any (FpVal.isInf false) && all.any (FpVal.isInf true)) then FpFmt.f32.nan
  else if all.any (FpVal.isInf false) then FpFmt.f32.inf
  else if all.any (FpVal.isInf true) then FpFmt.f32.signed true FpFmt.f32.inf
  else
    match maxTop all with
    | none => if all.all FpVal.isNeg then FpFmt.f32.signBit else 0
    | some l =>
      let s := windowSum (l - 61) all
      if s = 0 then 0 else (roundFin .f32 .rne (decide (s < 0)) s.natAbs (l - 61)).1

/-! ### The shared-exponent family (R182 to R185) -/

/-- The magnitude bits W of an element (R182). -/
def shMagBits : ElemType → Nat
  | .sh8 => 7 | .sh4 => 3 | _ => 1

/-- The value of an element with its group's exponent and its pair's micro-exponent bit (R182). -/
def shDecode (t : ElemType) (ex mu : Nat) (b : Nat) : FpVal :=
  let w := shMagBits t
  if ex = 0 then .fin false 0 0
  else if ex = 255 then .nan false
  else .fin (b / 2 ^ w % 2 = 1) (b % 2 ^ w) ((ex : Int) - 127 - (w - 1) - mu)

/-- Exp(x) of a finite non-zero value or 254 of an infinity; none of a zero (R184). -/
def shExp : FpVal → Option Int
  | .inf _ => some 254
  | v => (topOf v).map (· + 127)

/-- The greatest Exp of a list. -/
def shMaxExp : List FpVal → Option Int
  | [] => none
  | v :: r =>
    match shExp v, shMaxExp r with
    | some a, some b => some (max a b)
    | some a, none => some a
    | none, o => o

/-- Whether a value's Exp lies below E, a zero counting as below (R184). -/
def shBelow (ex : Int) (v : FpVal) : Bool :=
  match shExp v with
  | some a => a < ex
  | none => true

/-- One element encoded under E and its pair's μ (R184). -/
def shEncodeElem (t : ElemType) (ex : Int) (mu : Nat) : FpVal → Nat
  | .nan _ => 0
  | .inf n => (if n then 2 ^ shMagBits t else 0) + (2 ^ shMagBits t - 1)
  | .fin n m e =>
    let w := shMagBits t
    let q := (roundInt .rne n m (e - (ex - 127 - (w - 1) - mu))).1
    (if n then 2 ^ w else 0) + min q (2 ^ w - 1)

/-- The μ bit of each pair of a group's values, lowest pair first. -/
def shMus (ex : Int) : List FpVal → List Nat
  | a :: b :: r => (if shBelow ex a && shBelow ex b then 1 else 0) :: shMus ex r
  | _ => []

/-- The elements of a group's pairs. -/
def shElems (t : ElemType) (ex : Int) : List FpVal → List Nat → List Nat
  | a :: b :: r, mu :: ms => shEncodeElem t ex mu a :: shEncodeElem t ex mu b :: shElems t ex r ms
  | _, _ => []

/-- A number from its digits in base 2^k, lowest first. -/
def packDigits (k : Nat) : List Nat → Nat
  | [] => 0
  | d :: r => d + 2 ^ k * packDigits k r

/-- A group of 16 values encoded: the E byte, the μ byte, the elements, and the NV flag (R184). -/
def shEncode (t : ElemType) (vs : List FpVal) : Nat × Nat × List Nat × Flags :=
  let fl := nvIf (vs.any FpVal.isSig)
  if vs.any FpVal.isNan then (255, 0, vs.map fun _ => 0, fl)
  else
    match shMaxExp vs with
    | none => (0, 0, vs.map fun _ => 0, fl)
    | some mx =>
      let ex := max 1 (min mx 254)
      let mus := shMus ex vs
      (ex.toNat, packDigits 1 mus, shElems t ex vs mus, fl)

end Sys2Proof.Machine
end

