-- ==== Sys2Proof/WellFormed.lean ====
section
/-!
DEFINITION. Well-formed instructions: what R46 to R50 exclude although each field lies in its own range.
-/

namespace Sys2Proof

/-- Why an instruction is not well formed. -/
inductive IllFormed where
  /-- `add g0, g0, g0` would be the word 0, which is not an instruction (R46). -/
  | zeroWord
  /-- The operation does not accept the type code (R216, R221, R222, R235). -/
  | badType
  /-- A mask number 0 where m1 to m7 must stand (R216, R220, R234). -/
  | maskZero
  /-- A register number whose pair would leave the file (R232, R267). -/
  | badRegister
  /-- COUNT 0 in `rep` (R54). -/
  | repCount
  deriving DecidableEq, Repr

/-- No error when the check holds. -/
def ck (ok : Bool) (e : IllFormed) : Option IllFormed := if ok then none else some e

/-- The first of two checks that fails. -/
def ck2 (ok₁ : Bool) (e₁ : IllFormed) (ok₂ : Bool) (e₂ : IllFormed) : Option IllFormed :=
  if ok₁ then (if ok₂ then none else some e₂) else some e₁

/-- The first check that an instruction fails, or none: the words R46 to R50 exclude although their fields lie in
range, and the events whose operands lie outside the machine. -/
def Instr.illFormed : Instr → Option IllFormed
  | .add d a b => ck (d != 0 || a != 0 || b != 0) .zeroWord
  | .sub _ _ _ => none
  | .mul _ _ _ => none
  | .mulh _ _ _ => none
  | .mulhn _ _ _ => none
  | .div _ _ _ => none
  | .divn _ _ _ => none
  | .rem _ _ _ => none
  | .remn _ _ _ => none
  | .and _ _ _ => none
  | .or _ _ _ => none
  | .xor _ _ _ => none
  | .andn _ _ _ => none
  | .orn _ _ _ => none
  | .sll _ _ _ => none
  | .srl _ _ _ => none
  | .sra _ _ _ => none
  | .rol _ _ _ => none
  | .ror _ _ _ => none
  | .min _ _ _ => none
  | .max _ _ _ => none
  | .minn _ _ _ => none
  | .maxn _ _ _ => none
  | .slt _ _ _ => none
  | .sltn _ _ _ => none
  | .sel _ _ _ _ => none
  | .clz _ _ => none
  | .ctz _ _ => none
  | .popc _ _ => none
  | .brev _ _ => none
  | .bfx _ _ _ => none
  | .bfi _ _ _ => none
  | .clmul _ _ _ => none
  | .clmulh _ _ _ => none
  | .addi _ _ _ => none
  | .andi _ _ _ => none
  | .ori _ _ _ => none
  | .xori _ _ _ => none
  | .slli _ _ _ => none
  | .srli _ _ _ => none
  | .srai _ _ _ => none
  | .slti _ _ _ => none
  | .lui _ _ => none
  | .addpc _ _ => none
  | .beq _ _ _ => none
  | .bne _ _ _ => none
  | .blt _ _ _ => none
  | .bge _ _ _ => none
  | .bltn _ _ _ => none
  | .bgen _ _ _ => none
  | .jal _ _ => none
  | .jalr _ _ _ => none
  | .ldB _ _ _ => none
  | .ldH _ _ _ => none
  | .ldW _ _ _ => none
  | .ldD _ _ _ => none
  | .ldBn _ _ _ => none
  | .ldHn _ _ _ => none
  | .ldWn _ _ _ => none
  | .ldacqW _ _ _ => none
  | .ldacqD _ _ _ => none
  | .ldntD _ _ _ => none
  | .stB _ _ _ => none
  | .stH _ _ _ => none
  | .stW _ _ _ => none
  | .stD _ _ _ => none
  | .strelW _ _ _ => none
  | .strelD _ _ _ => none
  | .stntD _ _ _ => none
  | .mstoreW _ _ _ => none
  | .mstoreD _ _ _ => none
  | .amoadd _ _ _ _ _ => none
  | .amoand _ _ _ _ _ => none
  | .amoor _ _ _ _ _ => none
  | .amoxor _ _ _ _ _ => none
  | .amomin _ _ _ _ _ => none
  | .amomax _ _ _ _ _ => none
  | .amominn _ _ _ _ _ => none
  | .amomaxn _ _ _ _ _ => none
  | .amoswap _ _ _ _ _ => none
  | .amocas _ _ _ _ _ => none
  | .lr _ _ _ _ => none
  | .sc _ _ _ _ _ => none
  | .wrs _ _ _ _ => none
  | .fenceAcq => none
  | .fenceRel => none
  | .fenceSc => none
  | .afence => none
  | .pref _ => none
  | .spawn _ _ _ _ => none
  | .quit => none
  | .yield _ _ => none
  | .depsig _ => none
  | .cancel _ _ => none
  | .trap _ => none
  | .tret => none
  | .cget _ _ => none
  | .cgetFpFlags _ => none
  | .cset _ _ => none
  | .csetChanIn _ => none
  | .csetChanOut _ => none
  | .inval _ _ => none
  | .vadd t _ _ _ _ => ck t.le12 .badType
  | .vsub t _ _ _ _ => ck t.le12 .badType
  | .vmul t _ _ _ _ => ck t.le12 .badType
  | .vfma t _ _ _ _ => ck t.le12 .badType
  | .vfms t _ _ _ _ => ck t.le12 .badType
  | .vfnma t _ _ _ _ => ck t.le12 .badType
  | .vmin t _ _ _ _ => ck t.le12 .badType
  | .vmax t _ _ _ _ => ck t.le12 .badType
  | .vabs t _ _ _ => ck (t.isFloat || t.isSigned) .badType
  | .vneg t _ _ _ => ck (t.isFloat || t.isSigned) .badType
  | .vrcp t _ _ _ => ck t.isFloat .badType
  | .vrsqrt t _ _ _ => ck t.isFloat .badType
  | .vexp2 t _ _ _ => ck t.isFloat .badType
  | .vlog2 t _ _ _ => ck t.isFloat .badType
  | .vtanh t _ _ _ => ck t.isFloat .badType
  | .vand t _ _ _ _ => ck t.le12 .badType
  | .vor t _ _ _ _ => ck t.le12 .badType
  | .vxor t _ _ _ _ => ck t.le12 .badType
  | .vnot t _ _ _ => ck t.le12 .badType
  | .vshl t _ _ _ _ => ck t.isInt .badType
  | .vshr t _ _ _ _ => ck t.isInt .badType
  | .vsra t _ _ _ _ => ck t.isInt .badType
  | .vcmp t _ k _ _ _ => ck2 t.le12 .badType (k != 0) .maskZero
  | .vsel t _ _ _ _ => ck t.le12 .badType
  | .vcvt t _ _ src _ => ck (cvtPair src t) .badType
  | .vwcvt t _ _ src _ => ck (widenFactor src t).isSome .badType
  | .vwmul t _ _ _ _ => ck t.widens .badType
  | .vwadd t _ _ _ _ => ck t.widens .badType
  | .vnarrow t _ _ _ => ck t.widens .badType
  | .vredsum t _ _ _ _ => ck (t.isInt || t == .f16 || t == .bf16 || t == .f32) .badType
  | .vredmax t _ _ _ _ => ck t.le12 .badType
  | .vredmin t _ _ _ _ => ck t.le12 .badType
  | .vscan t _ _ _ _ => ck (t.isInt || t == .f16 || t == .bf16 || t == .f32) .badType
  | .vxscan t _ _ _ _ => ck t.isInt .badType
  | .vclmul t _ _ _ _ => ck (t == .n8 || t == .n16 || t == .n32) .badType
  | .vperm t _ _ _ _ => ck (t.le12 && t != .n4 && t != .s4) .badType
  | .vslide t _ _ _ _ => ck t.le12 .badType
  | .vbcast t _ _ _ => ck t.le12 .badType
  | .viota t _ _ => ck t.isInt .badType
  | .vcompress t _ _ _ => ck t.le12 .badType
  | .vexpand t _ _ _ => ck t.le12 .badType
  | .vmovg t _ _ _ => ck t.le12 .badType
  | .vmovxTov _ a => ck (a != 0) .maskZero
  | .vmovxTom d _ => ck (d != 0) .maskZero
  | .vpmerge _ _ _ _ => none
  | .vnoise _ a _ _ => ck (a.toNat < 30) .badRegister
  | .vamax _ _ _ _ => none
  | .kand d a b => ck (d != 0 && a != 0 && b != 0) .maskZero
  | .kor d a b => ck (d != 0 && a != 0 && b != 0) .maskZero
  | .kxor d a b => ck (d != 0 && a != 0 && b != 0) .maskZero
  | .knot d a => ck (d != 0 && a != 0) .maskZero
  | .kpopc _ a => ck (a != 0) .maskZero
  | .kfirst _ a => ck (a != 0) .maskZero
  | .vaddSat t _ _ _ _ => ck t.isInt .badType
  | .vsubSat t _ _ _ _ => ck t.isInt .badType
  | .vmulSat t _ _ _ _ => ck t.isInt .badType
  | .vnarrowSat t _ _ _ => ck (t.isInt && t.widens) .badType
  | .vld t _ _ _ => ck (t.le12 && t != .n4 && t != .s4) .badType
  | .vst t _ _ _ => ck (t.le12 && t != .n4 && t != .s4) .badType
  | .vldg t _ _ _ _ => ck (t.le12 && t != .n4 && t != .s4) .badType
  | .vstg t _ _ _ _ => ck (t.le12 && t != .n4 && t != .s4) .badType
  | .vgather t _ _ _ _ => ck (t.wide16 && t.le12) .badType
  | .vscatter t _ _ _ _ => ck (t.wide16 && t.le12) .badType
  | .pld _ _ => none
  | .pst _ _ => none
  | .tstat _ _ => none
  | .tready _ => none
  | .tempty _ => none
  | .barinit _ _ => none
  | .barpost _ _ => none
  | .bararr _ => none
  | .bardrop _ => none
  | .barwait _ _ => none
  | .oclaim _ _ => none
  | .orelease _ => none
  | .oload _ _ _ => none
  | .mxset _ => none
  | .mxget _ => none
  | .mxzero _ => none
  | .mxmul _ _ _ => none
  | .mxloadc _ _ _ => none
  | .mxstore _ _ _ => none
  | .mxwait _ => none
  | .mxdrain => none
  | .eset _ _ => none
  | .eget _ _ => none
  | .cpyMm _ _ _ => none
  | .cpyMt _ _ _ => none
  | .cpyTm _ _ _ => none
  | .qput _ _ => none
  | .rwin _ _ => none
  | .rclose _ => none
  | .ramo _ _ _ => none
  | .rwait _ _ => none
  | .hload _ _ => none
  | .hstore _ _ => none
  | .hquery _ _ _ => none
  | .tld _ _ b _ => ck (b != 31) .badRegister
  | .tst _ _ b _ => ck (b != 31) .badRegister
  | .relayout _ a _ => ck (a != 31) .badRegister
  | .rlwait _ => none
  | .hopen _ _ => none
  | .henter _ => none
  | .hleave => none
  | .hconfirm _ _ _ => none
  | .hrefute _ _ => none
  | .hstat _ _ => none
  | .copen _ => none
  | .cclose => none
  | .screate _ _ => none
  | .sfork _ _ _ => none
  | .sdrop _ _ => none
  | .sact _ _ _ => none
  | .spop _ _ => none
  | .shor _ _ _ => none
  | .sret _ => none
  | .sjoin _ _ _ => none
  | .senter _ => none
  | .smigr _ _ _ => none
  | .accept _ _ => none
  | .fadd _ _ _ _ _ => none
  | .fsub _ _ _ _ _ => none
  | .fmul _ _ _ _ _ => none
  | .fdiv _ _ _ _ _ => none
  | .fsqrt _ _ _ _ => none
  | .ffma _ _ _ _ _ => none
  | .fmin _ _ _ _ => none
  | .fmax _ _ _ _ => none
  | .fcmp _ _ _ _ _ => none
  | .fcvt _ _ _ _ _ => none
  | .fclass _ _ _ => none
  | .rep count _ _ _ _ => ck (count != 0) .repCount
  | .wrsTimeout => none
  | .l1Replacement => none
  | .homeEviction => none
  | .quitComplete => none
  | .invalHolder => none
  | .tlbWalk => none
  | .matrixBlockGrant => none
  | .matrixEntryComplete => none
  | .vectorLaneGrant => none
  | .vectorEntryComplete => none
  | .carterSector => none
  | .routerContribution => none
  | .routerHoldExpiry => none
  | .contributionArrive => none
  | .windowTimeout => none
  | .windowDelivery => none
  | .weaverUnit => none
  | .hypDiePrepare => none
  | .hypCommit => none
  | .hypApply => none
  | .hypSweep => none
  | .versionSpillwaitExpiry => none
  | .streamArrival => none
  | .streamBatchTimeout => none
  | .streamBatchPlace => none
  | .winnowerJoin => none
  | .pageReload => none
  | .strmSpillwaitExpiry => none
  | .unpark => none
  | .notifyStore => none
  | .factorPoll => none
  | .launchPacket => none
  | .launchAccept => none
  | .copyPacket => none
  | .waitPacket => none
  | .waitPacketComplete => none
  | .signalPacket => none
  | .barrierAndPacket => none
  | .barrierAndComplete => none
  | .cancelPacket => none
  | .replayBegin => none
  | .replayEnd => none
  | .restartAck => none
  | .reservedPacket => none
  | .queueRestart => none
  | .queueTableUpdate => none
  | .queueMap => none
  | .queueWaitTimeout => none
  | .queueUnmap => none
  | .factorWatchdog => none
  | .distributorChunk => none
  | .taskCreate => none
  | .depIndexRelease => none
  | .reissueFinish => none
  | .preemptRequest => none
  | .contextRestore => none
  | .dieFence => none
  | .fenceNotice => none
  | .packageLost => none
  | .packageTableRewrite => none
  | .fabricFlitArrival => none
  | .linkCrcRetry => none
  | .pauseFlit => none
  | .resumeFlit => none
  | .hostWrite => none
  | .hostRead => none
  | .assayerCompare => none
  | .assayerSkewTimeout => none
  | .quarantineSet => none
  | .injectionArm => none
  | .moduleReset => none
  | .bootStage => none
  | .firmwareUpdate => none
  | .svnRaise => none
  | .attestationRequest => none
  | .regionBitChange => none
  | .powerCapSet => none
  | .powerThrottle => none
  | .clockStepUp => none
  | .thermalThrottle => none
  | .thermalFence => none
  | .coolantFlowLoss => none
  | .thermalShutdown => none
  | .telemetrySample => none
  | .notAnInstruction => none
  | .fabricDieFailure => none
  | .powerLoss => none

/-- An instruction that fails no check. -/
abbrev Instr.WF (i : Instr) : Prop := i.illFormed = none

end Sys2Proof
end

