-- ==== Sys2Proof/Decode.lean ====
section
/-!
DEFINITION. The decoder, total on any bytes, and the encoder, both from R45 to R54 of spec/03_encoding.md.
-/

namespace Sys2Proof

/-- Why bytes are not an instruction (R50). -/
inductive DecodeError where
  /-- Fewer than four bytes. -/
  | short
  /-- The word 0 or class 0xF (R46). -/
  | notAWord
  /-- An op, command or sub-field value that R53 does not assign. -/
  | unassigned
  /-- A reserved field that is not zero (R48). -/
  | reserved
  /-- A register number beyond its kind's range (R48). -/
  | beyondKind
  /-- The fields are assigned, and a rule of the operation excludes them. -/
  | illFormed (why : IllFormed)
  deriving DecidableEq, Repr

/-- Bits hi to lo of a word, as a number. -/
def fld (w hi lo : Nat) : Nat := w / 2 ^ lo % 2 ^ (hi + 1 - lo)

/-- The n bits of a word from bit lo up. -/
def bits (n w lo : Nat) : BitVec n := BitVec.ofNat n (w / 2 ^ lo)

/-- Bits hi to lo are reserved. -/
def rsv (w hi lo : Nat) (x : Except DecodeError Instr) : Except DecodeError Instr :=
  if fld w hi lo = 0 then x else .error .reserved

/-- Bits hi to lo of a register field are zero in every number of the kind (R48). -/
def kind (w hi lo : Nat) (x : Except DecodeError Instr) : Except DecodeError Instr :=
  if fld w hi lo = 0 then x else .error .beyondKind

/-- TYPE is f32, the only code the operation accepts (R216). -/
def onlyF32 (w : Nat) (x : Except DecodeError Instr) : Except DecodeError Instr :=
  if fld w 21 18 = 12 then x else .error (.illFormed .badType)

/-- A sub-field whose value may be unassigned. -/
def orElse {α : Type} (o : Option α) (k : α → Except DecodeError Instr) : Except DecodeError Instr :=
  match o with
  | some a => k a
  | none => .error .unassigned

/-- The words of class 0x0, ALU-R (R53). -/
def decodeAluR (w : Nat) : Except DecodeError Instr :=
  match fld w 27 22 with
  | 0 => rsv w 6 0 <| .ok (.add (bits 5 w 17) (bits 5 w 12) (bits 5 w 7))
  | 1 => rsv w 6 0 <| .ok (.sub (bits 5 w 17) (bits 5 w 12) (bits 5 w 7))
  | 2 => rsv w 6 0 <| .ok (.mul (bits 5 w 17) (bits 5 w 12) (bits 5 w 7))
  | 3 => rsv w 6 0 <| .ok (.mulh (bits 5 w 17) (bits 5 w 12) (bits 5 w 7))
  | 4 => rsv w 6 0 <| .ok (.mulhn (bits 5 w 17) (bits 5 w 12) (bits 5 w 7))
  | 5 => rsv w 6 0 <| .ok (.div (bits 5 w 17) (bits 5 w 12) (bits 5 w 7))
  | 6 => rsv w 6 0 <| .ok (.divn (bits 5 w 17) (bits 5 w 12) (bits 5 w 7))
  | 7 => rsv w 6 0 <| .ok (.rem (bits 5 w 17) (bits 5 w 12) (bits 5 w 7))
  | 8 => rsv w 6 0 <| .ok (.remn (bits 5 w 17) (bits 5 w 12) (bits 5 w 7))
  | 9 => rsv w 6 0 <| .ok (.and (bits 5 w 17) (bits 5 w 12) (bits 5 w 7))
  | 10 => rsv w 6 0 <| .ok (.or (bits 5 w 17) (bits 5 w 12) (bits 5 w 7))
  | 11 => rsv w 6 0 <| .ok (.xor (bits 5 w 17) (bits 5 w 12) (bits 5 w 7))
  | 12 => rsv w 6 0 <| .ok (.andn (bits 5 w 17) (bits 5 w 12) (bits 5 w 7))
  | 13 => rsv w 6 0 <| .ok (.orn (bits 5 w 17) (bits 5 w 12) (bits 5 w 7))
  | 14 => rsv w 6 0 <| .ok (.sll (bits 5 w 17) (bits 5 w 12) (bits 5 w 7))
  | 15 => rsv w 6 0 <| .ok (.srl (bits 5 w 17) (bits 5 w 12) (bits 5 w 7))
  | 16 => rsv w 6 0 <| .ok (.sra (bits 5 w 17) (bits 5 w 12) (bits 5 w 7))
  | 17 => rsv w 6 0 <| .ok (.rol (bits 5 w 17) (bits 5 w 12) (bits 5 w 7))
  | 18 => rsv w 6 0 <| .ok (.ror (bits 5 w 17) (bits 5 w 12) (bits 5 w 7))
  | 19 => rsv w 6 0 <| .ok (.min (bits 5 w 17) (bits 5 w 12) (bits 5 w 7))
  | 20 => rsv w 6 0 <| .ok (.max (bits 5 w 17) (bits 5 w 12) (bits 5 w 7))
  | 21 => rsv w 6 0 <| .ok (.minn (bits 5 w 17) (bits 5 w 12) (bits 5 w 7))
  | 22 => rsv w 6 0 <| .ok (.maxn (bits 5 w 17) (bits 5 w 12) (bits 5 w 7))
  | 23 => rsv w 6 0 <| .ok (.slt (bits 5 w 17) (bits 5 w 12) (bits 5 w 7))
  | 24 => rsv w 6 0 <| .ok (.sltn (bits 5 w 17) (bits 5 w 12) (bits 5 w 7))
  | 25 => rsv w 1 0 <| .ok (.sel (bits 5 w 17) (bits 5 w 12) (bits 5 w 7) (bits 5 w 2))
  | 26 => rsv w 11 0 <| .ok (.clz (bits 5 w 17) (bits 5 w 12))
  | 27 => rsv w 11 0 <| .ok (.ctz (bits 5 w 17) (bits 5 w 12))
  | 28 => rsv w 11 0 <| .ok (.popc (bits 5 w 17) (bits 5 w 12))
  | 29 => rsv w 11 0 <| .ok (.brev (bits 5 w 17) (bits 5 w 12))
  | 30 => rsv w 6 0 <| .ok (.bfx (bits 5 w 17) (bits 5 w 12) (bits 5 w 7))
  | 31 => rsv w 6 0 <| .ok (.bfi (bits 5 w 17) (bits 5 w 12) (bits 5 w 7))
  | 32 => rsv w 6 0 <| .ok (.clmul (bits 5 w 17) (bits 5 w 12) (bits 5 w 7))
  | 33 => rsv w 6 0 <| .ok (.clmulh (bits 5 w 17) (bits 5 w 12) (bits 5 w 7))
  | _ => .error .unassigned

/-- The words of class 0x1, ALU-I (R53). -/
def decodeAluI (w : Nat) : Except DecodeError Instr :=
  match fld w 27 24 with
  | 0 => .ok (.addi (bits 5 w 19) (bits 5 w 14) (bits 14 w 0))
  | 1 => .ok (.andi (bits 5 w 19) (bits 5 w 14) (bits 14 w 0))
  | 2 => .ok (.ori (bits 5 w 19) (bits 5 w 14) (bits 14 w 0))
  | 3 => .ok (.xori (bits 5 w 19) (bits 5 w 14) (bits 14 w 0))
  | 4 => rsv w 13 6 <| .ok (.slli (bits 5 w 19) (bits 5 w 14) (bits 6 w 0))
  | 5 => rsv w 13 6 <| .ok (.srli (bits 5 w 19) (bits 5 w 14) (bits 6 w 0))
  | 6 => rsv w 13 6 <| .ok (.srai (bits 5 w 19) (bits 5 w 14) (bits 6 w 0))
  | 7 => .ok (.slti (bits 5 w 19) (bits 5 w 14) (bits 14 w 0))
  | 8 | 9 | 10 | 11 => .ok (.lui (bits 3 w 23) (bits 23 w 0))
  | 12 | 13 | 14 | 15 => .ok (.addpc (bits 3 w 23) (bits 23 w 0))
  | _ => .error .unassigned

/-- The words of class 0x5, BRANCH (R53). -/
def decodeBranch (w : Nat) : Except DecodeError Instr :=
  match fld w 27 24 with
  | 0 => .ok (.beq (bits 5 w 19) (bits 5 w 14) (bits 14 w 0))
  | 1 => .ok (.bne (bits 5 w 19) (bits 5 w 14) (bits 14 w 0))
  | 2 => .ok (.blt (bits 5 w 19) (bits 5 w 14) (bits 14 w 0))
  | 3 => .ok (.bge (bits 5 w 19) (bits 5 w 14) (bits 14 w 0))
  | 4 => .ok (.bltn (bits 5 w 19) (bits 5 w 14) (bits 14 w 0))
  | 5 => .ok (.bgen (bits 5 w 19) (bits 5 w 14) (bits 14 w 0))
  | _ => .error .unassigned

/-- The words of class 0x6, JUMP (R53). -/
def decodeJump (w : Nat) : Except DecodeError Instr :=
  match fld w 27 24 with
  | 0 | 1 | 2 | 3 => .ok (.jal (bits 3 w 23) (bits 23 w 0))
  | 4 => .ok (.jalr (bits 5 w 19) (bits 5 w 14) (bits 14 w 0))
  | _ => .error .unassigned

/-- The words of class 0x2, LOAD (R53). -/
def decodeLoad (w : Nat) : Except DecodeError Instr :=
  match fld w 27 24 with
  | 0 => .ok (.ldB (bits 5 w 19) (bits 5 w 14) (bits 14 w 0))
  | 1 => .ok (.ldH (bits 5 w 19) (bits 5 w 14) (bits 14 w 0))
  | 2 => .ok (.ldW (bits 5 w 19) (bits 5 w 14) (bits 14 w 0))
  | 3 => .ok (.ldD (bits 5 w 19) (bits 5 w 14) (bits 14 w 0))
  | 4 => .ok (.ldBn (bits 5 w 19) (bits 5 w 14) (bits 14 w 0))
  | 5 => .ok (.ldHn (bits 5 w 19) (bits 5 w 14) (bits 14 w 0))
  | 6 => .ok (.ldWn (bits 5 w 19) (bits 5 w 14) (bits 14 w 0))
  | 8 => .ok (.ldacqW (bits 5 w 19) (bits 5 w 14) (bits 14 w 0))
  | 9 => .ok (.ldacqD (bits 5 w 19) (bits 5 w 14) (bits 14 w 0))
  | 10 => .ok (.ldntD (bits 5 w 19) (bits 5 w 14) (bits 14 w 0))
  | _ => .error .unassigned

/-- The words of class 0x3, STORE (R53). -/
def decodeStore (w : Nat) : Except DecodeError Instr :=
  match fld w 27 24 with
  | 0 => .ok (.stB (bits 5 w 19) (bits 5 w 14) (bits 14 w 0))
  | 1 => .ok (.stH (bits 5 w 19) (bits 5 w 14) (bits 14 w 0))
  | 2 => .ok (.stW (bits 5 w 19) (bits 5 w 14) (bits 14 w 0))
  | 3 => .ok (.stD (bits 5 w 19) (bits 5 w 14) (bits 14 w 0))
  | 4 => .ok (.strelW (bits 5 w 19) (bits 5 w 14) (bits 14 w 0))
  | 5 => .ok (.strelD (bits 5 w 19) (bits 5 w 14) (bits 14 w 0))
  | 6 => .ok (.stntD (bits 5 w 19) (bits 5 w 14) (bits 14 w 0))
  | 7 => .ok (.mstoreW (bits 5 w 19) (bits 5 w 14) (bits 14 w 0))
  | 8 => .ok (.mstoreD (bits 5 w 19) (bits 5 w 14) (bits 14 w 0))
  | _ => .error .unassigned

/-- The words of class 0x4, SYNC (R53). -/
def decodeSync (w : Nat) : Except DecodeError Instr :=
  match fld w 27 22 with
  | 0 => rsv w 3 0 <| .ok (.amoadd (bits 5 w 17) (bits 5 w 12) (bits 5 w 7) (AmoWidth.ofCode (fld w 6 6)) (AmoOrd.ofCode (fld w 5 4)))
  | 1 => rsv w 3 0 <| .ok (.amoand (bits 5 w 17) (bits 5 w 12) (bits 5 w 7) (AmoWidth.ofCode (fld w 6 6)) (AmoOrd.ofCode (fld w 5 4)))
  | 2 => rsv w 3 0 <| .ok (.amoor (bits 5 w 17) (bits 5 w 12) (bits 5 w 7) (AmoWidth.ofCode (fld w 6 6)) (AmoOrd.ofCode (fld w 5 4)))
  | 3 => rsv w 3 0 <| .ok (.amoxor (bits 5 w 17) (bits 5 w 12) (bits 5 w 7) (AmoWidth.ofCode (fld w 6 6)) (AmoOrd.ofCode (fld w 5 4)))
  | 4 => rsv w 3 0 <| .ok (.amomin (bits 5 w 17) (bits 5 w 12) (bits 5 w 7) (AmoWidth.ofCode (fld w 6 6)) (AmoOrd.ofCode (fld w 5 4)))
  | 5 => rsv w 3 0 <| .ok (.amomax (bits 5 w 17) (bits 5 w 12) (bits 5 w 7) (AmoWidth.ofCode (fld w 6 6)) (AmoOrd.ofCode (fld w 5 4)))
  | 6 => rsv w 3 0 <| .ok (.amominn (bits 5 w 17) (bits 5 w 12) (bits 5 w 7) (AmoWidth.ofCode (fld w 6 6)) (AmoOrd.ofCode (fld w 5 4)))
  | 7 => rsv w 3 0 <| .ok (.amomaxn (bits 5 w 17) (bits 5 w 12) (bits 5 w 7) (AmoWidth.ofCode (fld w 6 6)) (AmoOrd.ofCode (fld w 5 4)))
  | 8 => rsv w 3 0 <| .ok (.amoswap (bits 5 w 17) (bits 5 w 12) (bits 5 w 7) (AmoWidth.ofCode (fld w 6 6)) (AmoOrd.ofCode (fld w 5 4)))
  | 9 => rsv w 3 0 <| .ok (.amocas (bits 5 w 17) (bits 5 w 12) (bits 5 w 7) (AmoWidth.ofCode (fld w 6 6)) (AmoOrd.ofCode (fld w 5 4)))
  | 10 => rsv w 11 7 <| rsv w 3 0 <| .ok (.lr (bits 5 w 17) (bits 5 w 12) (AmoWidth.ofCode (fld w 6 6)) (AmoOrd.ofCode (fld w 5 4)))
  | 11 => rsv w 3 0 <| .ok (.sc (bits 5 w 17) (bits 5 w 12) (bits 5 w 7) (AmoWidth.ofCode (fld w 6 6)) (AmoOrd.ofCode (fld w 5 4)))
  | 12 => rsv w 5 0 <| .ok (.wrs (bits 5 w 17) (bits 5 w 12) (bits 5 w 7) (AmoWidth.ofCode (fld w 6 6)))
  | 13 =>
    match fld w 5 4 with
    | 1 => rsv w 21 6 <| rsv w 3 0 <| .ok .fenceAcq
    | 2 => rsv w 21 6 <| rsv w 3 0 <| .ok .fenceRel
    | 3 => rsv w 21 6 <| rsv w 3 0 <| .ok .fenceSc
    | _ => .error .unassigned
  | 14 => rsv w 21 0 <| .ok .afence
  | 15 => rsv w 21 17 <| rsv w 11 0 <| .ok (.pref (bits 5 w 12))
  | _ => .error .unassigned

/-- The words of class 0x7, SYSTEM (R53). -/
def decodeSystem (w : Nat) : Except DecodeError Instr :=
  match fld w 27 22 with
  | 0 => rsv w 6 1 <| .ok (.spawn (bits 5 w 17) (bits 5 w 12) (bits 5 w 7) (fld w 0 0 == 1))
  | 1 => rsv w 21 0 <| .ok .quit
  | 2 => rsv w 0 0 <| .ok (.yield (bits 16 w 6) (bits 5 w 1))
  | 3 => rsv w 21 17 <| rsv w 11 0 <| .ok (.depsig (bits 5 w 12))
  | 4 => rsv w 21 17 <| rsv w 11 2 <| orElse (CancelLevel.ofCode? (fld w 1 0)) fun level => .ok (.cancel (bits 5 w 12) level)
  | 5 => rsv w 21 7 <| .ok (.trap (bits 7 w 0))
  | 6 => rsv w 21 0 <| .ok .tret
  | 7 => rsv w 6 0 <| orElse (CtlReg.ofCode? (fld w 16 7)) fun reg => .ok (.cget (bits 5 w 17) reg)
  | 8 => rsv w 6 0 <| orElse (CtlReg.ofCode? (fld w 16 7)) fun reg => .ok (.cset (bits 5 w 17) reg)
  | 9 => rsv w 21 17 <| rsv w 6 0 <| .ok (.inval (bits 5 w 12) (bits 5 w 7))
  | _ => .error .unassigned

/-- The words of class 0x8, VEC (R53). -/
def decodeVec (w : Nat) : Except DecodeError Instr :=
  match fld w 27 22 with
  | 0 => .ok (.vadd (ElemType.ofCode (fld w 21 18)) (bits 5 w 13) (bits 5 w 8) (bits 5 w 3) (bits 3 w 0))
  | 1 => .ok (.vsub (ElemType.ofCode (fld w 21 18)) (bits 5 w 13) (bits 5 w 8) (bits 5 w 3) (bits 3 w 0))
  | 2 => .ok (.vmul (ElemType.ofCode (fld w 21 18)) (bits 5 w 13) (bits 5 w 8) (bits 5 w 3) (bits 3 w 0))
  | 3 => .ok (.vfma (ElemType.ofCode (fld w 21 18)) (bits 5 w 13) (bits 5 w 8) (bits 5 w 3) (bits 3 w 0))
  | 4 => .ok (.vfms (ElemType.ofCode (fld w 21 18)) (bits 5 w 13) (bits 5 w 8) (bits 5 w 3) (bits 3 w 0))
  | 5 => .ok (.vfnma (ElemType.ofCode (fld w 21 18)) (bits 5 w 13) (bits 5 w 8) (bits 5 w 3) (bits 3 w 0))
  | 6 => .ok (.vmin (ElemType.ofCode (fld w 21 18)) (bits 5 w 13) (bits 5 w 8) (bits 5 w 3) (bits 3 w 0))
  | 7 => .ok (.vmax (ElemType.ofCode (fld w 21 18)) (bits 5 w 13) (bits 5 w 8) (bits 5 w 3) (bits 3 w 0))
  | 8 => rsv w 7 3 <| .ok (.vabs (ElemType.ofCode (fld w 21 18)) (bits 5 w 13) (bits 5 w 8) (bits 3 w 0))
  | 9 => rsv w 7 3 <| .ok (.vneg (ElemType.ofCode (fld w 21 18)) (bits 5 w 13) (bits 5 w 8) (bits 3 w 0))
  | 10 => rsv w 7 3 <| .ok (.vrcp (ElemType.ofCode (fld w 21 18)) (bits 5 w 13) (bits 5 w 8) (bits 3 w 0))
  | 11 => rsv w 7 3 <| .ok (.vrsqrt (ElemType.ofCode (fld w 21 18)) (bits 5 w 13) (bits 5 w 8) (bits 3 w 0))
  | 12 => rsv w 7 3 <| .ok (.vexp2 (ElemType.ofCode (fld w 21 18)) (bits 5 w 13) (bits 5 w 8) (bits 3 w 0))
  | 13 => rsv w 7 3 <| .ok (.vlog2 (ElemType.ofCode (fld w 21 18)) (bits 5 w 13) (bits 5 w 8) (bits 3 w 0))
  | 14 => rsv w 7 3 <| .ok (.vtanh (ElemType.ofCode (fld w 21 18)) (bits 5 w 13) (bits 5 w 8) (bits 3 w 0))
  | 15 => .ok (.vand (ElemType.ofCode (fld w 21 18)) (bits 5 w 13) (bits 5 w 8) (bits 5 w 3) (bits 3 w 0))
  | 16 => .ok (.vor (ElemType.ofCode (fld w 21 18)) (bits 5 w 13) (bits 5 w 8) (bits 5 w 3) (bits 3 w 0))
  | 17 => .ok (.vxor (ElemType.ofCode (fld w 21 18)) (bits 5 w 13) (bits 5 w 8) (bits 5 w 3) (bits 3 w 0))
  | 18 => rsv w 7 3 <| .ok (.vnot (ElemType.ofCode (fld w 21 18)) (bits 5 w 13) (bits 5 w 8) (bits 3 w 0))
  | 19 => .ok (.vshl (ElemType.ofCode (fld w 21 18)) (bits 5 w 13) (bits 5 w 8) (bits 5 w 3) (bits 3 w 0))
  | 20 => .ok (.vshr (ElemType.ofCode (fld w 21 18)) (bits 5 w 13) (bits 5 w 8) (bits 5 w 3) (bits 3 w 0))
  | 21 => .ok (.vsra (ElemType.ofCode (fld w 21 18)) (bits 5 w 13) (bits 5 w 8) (bits 5 w 3) (bits 3 w 0))
  | 22 => .ok (.vcmp (ElemType.ofCode (fld w 21 18)) (VcmpCond.ofCode (fld w 17 16)) (bits 3 w 13) (bits 5 w 8) (bits 5 w 3) (bits 3 w 0))
  | 23 => .ok (.vsel (ElemType.ofCode (fld w 21 18)) (bits 5 w 13) (bits 5 w 8) (bits 5 w 3) (bits 3 w 0))
  | 24 => rsv w 3 3 <| .ok (.vcvt (ElemType.ofCode (fld w 21 18)) (bits 5 w 13) (bits 5 w 8) (ElemType.ofCode (fld w 7 4)) (bits 3 w 0))
  | 25 => rsv w 3 3 <| .ok (.vwcvt (ElemType.ofCode (fld w 21 18)) (bits 5 w 13) (bits 5 w 8) (ElemType.ofCode (fld w 7 4)) (bits 3 w 0))
  | 26 => .ok (.vwmul (ElemType.ofCode (fld w 21 18)) (bits 5 w 13) (bits 5 w 8) (bits 5 w 3) (bits 3 w 0))
  | 27 => .ok (.vwadd (ElemType.ofCode (fld w 21 18)) (bits 5 w 13) (bits 5 w 8) (bits 5 w 3) (bits 3 w 0))
  | 28 => rsv w 7 3 <| .ok (.vnarrow (ElemType.ofCode (fld w 21 18)) (bits 5 w 13) (bits 5 w 8) (bits 3 w 0))
  | 29 => .ok (.vredsum (ElemType.ofCode (fld w 21 18)) (bits 5 w 13) (bits 5 w 8) (bits 5 w 3) (bits 3 w 0))
  | 30 => .ok (.vredmax (ElemType.ofCode (fld w 21 18)) (bits 5 w 13) (bits 5 w 8) (bits 5 w 3) (bits 3 w 0))
  | 31 => .ok (.vredmin (ElemType.ofCode (fld w 21 18)) (bits 5 w 13) (bits 5 w 8) (bits 5 w 3) (bits 3 w 0))
  | 32 => .ok (.vscan (ElemType.ofCode (fld w 21 18)) (bits 5 w 13) (bits 5 w 8) (bits 5 w 3) (bits 3 w 0))
  | 33 => .ok (.vxscan (ElemType.ofCode (fld w 21 18)) (bits 5 w 13) (bits 5 w 8) (bits 5 w 3) (bits 3 w 0))
  | 34 => .ok (.vclmul (ElemType.ofCode (fld w 21 18)) (bits 5 w 13) (bits 5 w 8) (bits 5 w 3) (bits 3 w 0))
  | 35 => .ok (.vperm (ElemType.ofCode (fld w 21 18)) (bits 5 w 13) (bits 5 w 8) (bits 5 w 3) (bits 3 w 0))
  | 36 => .ok (.vslide (ElemType.ofCode (fld w 21 18)) (bits 5 w 13) (bits 5 w 8) (bits 5 w 3) (bits 3 w 0))
  | 37 => rsv w 7 3 <| .ok (.vbcast (ElemType.ofCode (fld w 21 18)) (bits 5 w 13) (bits 5 w 8) (bits 3 w 0))
  | 38 => rsv w 12 3 <| .ok (.viota (ElemType.ofCode (fld w 21 18)) (bits 5 w 13) (bits 3 w 0))
  | 39 => rsv w 7 3 <| .ok (.vcompress (ElemType.ofCode (fld w 21 18)) (bits 5 w 13) (bits 5 w 8) (bits 3 w 0))
  | 40 => rsv w 7 3 <| .ok (.vexpand (ElemType.ofCode (fld w 21 18)) (bits 5 w 13) (bits 5 w 8) (bits 3 w 0))
  | 41 => rsv w 2 0 <| .ok (.vmovg (ElemType.ofCode (fld w 21 18)) (bits 5 w 13) (bits 5 w 8) (bits 5 w 3))
  | 42 =>
    match fld w 21 18 with
    | 0 => rsv w 7 0 <| kind w 12 11 <| .ok (.vmovxTov (bits 5 w 13) (bits 3 w 8))
    | 1 => rsv w 7 0 <| kind w 17 16 <| .ok (.vmovxTom (bits 3 w 13) (bits 5 w 8))
    | _ => .error .unassigned
  | 43 => onlyF32 w <| .ok (.vpmerge (bits 5 w 13) (bits 5 w 8) (bits 5 w 3) (bits 3 w 0))
  | 44 => onlyF32 w <| .ok (.vnoise (bits 5 w 13) (bits 5 w 8) (bits 5 w 3) (bits 3 w 0))
  | 45 => onlyF32 w <| .ok (.vamax (bits 5 w 13) (bits 5 w 8) (bits 5 w 3) (bits 3 w 0))
  | 46 => rsv w 21 18 <| rsv w 2 0 <| kind w 17 16 <| kind w 12 11 <| kind w 7 6 <| .ok (.kand (bits 3 w 13) (bits 3 w 8) (bits 3 w 3))
  | 47 => rsv w 21 18 <| rsv w 2 0 <| kind w 17 16 <| kind w 12 11 <| kind w 7 6 <| .ok (.kor (bits 3 w 13) (bits 3 w 8) (bits 3 w 3))
  | 48 => rsv w 21 18 <| rsv w 2 0 <| kind w 17 16 <| kind w 12 11 <| kind w 7 6 <| .ok (.kxor (bits 3 w 13) (bits 3 w 8) (bits 3 w 3))
  | 49 => rsv w 21 18 <| rsv w 7 0 <| kind w 17 16 <| kind w 12 11 <| .ok (.knot (bits 3 w 13) (bits 3 w 8))
  | 50 => rsv w 21 18 <| rsv w 7 0 <| kind w 12 11 <| .ok (.kpopc (bits 5 w 13) (bits 3 w 8))
  | 51 => rsv w 21 18 <| rsv w 7 0 <| kind w 12 11 <| .ok (.kfirst (bits 5 w 13) (bits 3 w 8))
  | 52 => .ok (.vaddSat (ElemType.ofCode (fld w 21 18)) (bits 5 w 13) (bits 5 w 8) (bits 5 w 3) (bits 3 w 0))
  | 53 => .ok (.vsubSat (ElemType.ofCode (fld w 21 18)) (bits 5 w 13) (bits 5 w 8) (bits 5 w 3) (bits 3 w 0))
  | 54 => .ok (.vmulSat (ElemType.ofCode (fld w 21 18)) (bits 5 w 13) (bits 5 w 8) (bits 5 w 3) (bits 3 w 0))
  | 55 => rsv w 7 3 <| .ok (.vnarrowSat (ElemType.ofCode (fld w 21 18)) (bits 5 w 13) (bits 5 w 8) (bits 3 w 0))
  | _ => .error .unassigned

/-- The words of class 0x9, VMEM (R53). -/
def decodeVMem (w : Nat) : Except DecodeError Instr :=
  match fld w 27 22 with
  | 0 => rsv w 7 3 <| .ok (.vld (ElemType.ofCode (fld w 21 18)) (bits 5 w 13) (bits 5 w 8) (bits 3 w 0))
  | 1 => rsv w 7 3 <| .ok (.vst (ElemType.ofCode (fld w 21 18)) (bits 5 w 13) (bits 5 w 8) (bits 3 w 0))
  | 2 => .ok (.vldg (ElemType.ofCode (fld w 21 18)) (bits 5 w 13) (bits 5 w 8) (bits 5 w 3) (bits 3 w 0))
  | 3 => .ok (.vstg (ElemType.ofCode (fld w 21 18)) (bits 5 w 13) (bits 5 w 8) (bits 5 w 3) (bits 3 w 0))
  | 4 => .ok (.vgather (ElemType.ofCode (fld w 21 18)) (bits 5 w 13) (bits 5 w 8) (bits 5 w 3) (bits 3 w 0))
  | 5 => .ok (.vscatter (ElemType.ofCode (fld w 21 18)) (bits 5 w 13) (bits 5 w 8) (bits 5 w 3) (bits 3 w 0))
  | 6 => rsv w 21 18 <| rsv w 7 0 <| .ok (.pld (bits 5 w 13) (bits 5 w 8))
  | 7 => rsv w 21 18 <| rsv w 7 0 <| .ok (.pst (bits 5 w 13) (bits 5 w 8))
  | 8 => rsv w 21 18 <| rsv w 7 0 <| .ok (.tstat (bits 5 w 13) (bits 5 w 8))
  | 9 => rsv w 21 13 <| rsv w 7 0 <| .ok (.tready (bits 5 w 8))
  | 10 => rsv w 21 13 <| rsv w 7 0 <| .ok (.tempty (bits 5 w 8))
  | 11 => rsv w 21 13 <| rsv w 2 0 <| .ok (.barinit (bits 5 w 8) (bits 5 w 3))
  | 12 => rsv w 21 13 <| rsv w 2 0 <| .ok (.barpost (bits 5 w 8) (bits 5 w 3))
  | 13 => rsv w 21 13 <| rsv w 7 0 <| .ok (.bararr (bits 5 w 8))
  | 14 => rsv w 21 13 <| rsv w 7 0 <| .ok (.bardrop (bits 5 w 8))
  | 15 => rsv w 21 13 <| rsv w 2 0 <| .ok (.barwait (bits 5 w 8) (bits 5 w 3))
  | _ => .error .unassigned

/-- The words of class 0xA, MATRIX (R53). -/
def decodeMatrix (w : Nat) : Except DecodeError Instr :=
  match fld w 27 22 with
  | 0 => rsv w 11 0 <| kind w 16 16 <| .ok (.oclaim (bits 5 w 17) (bits 4 w 12))
  | 1 => rsv w 21 17 <| rsv w 11 0 <| kind w 16 16 <| .ok (.orelease (bits 4 w 12))
  | 2 => rsv w 6 0 <| kind w 21 21 <| .ok (.oload (bits 4 w 17) (bits 5 w 12) (bits 5 w 7))
  | 3 => rsv w 21 17 <| rsv w 11 0 <| .ok (.mxset (bits 5 w 12))
  | 4 => rsv w 16 0 <| .ok (.mxget (bits 5 w 17))
  | 5 => rsv w 16 0 <| kind w 21 20 <| .ok (.mxzero (bits 3 w 17))
  | 6 => rsv w 6 0 <| kind w 21 20 <| kind w 16 16 <| kind w 11 11 <| .ok (.mxmul (bits 3 w 17) (bits 4 w 12) (bits 4 w 7))
  | 7 => rsv w 6 0 <| kind w 21 20 <| .ok (.mxloadc (bits 3 w 17) (bits 5 w 12) (bits 5 w 7))
  | 8 => rsv w 6 0 <| kind w 21 20 <| .ok (.mxstore (bits 3 w 17) (bits 5 w 12) (bits 5 w 7))
  | 9 => rsv w 21 17 <| rsv w 11 0 <| kind w 16 15 <| .ok (.mxwait (bits 3 w 12))
  | 10 => rsv w 21 0 <| .ok .mxdrain
  | _ => .error .unassigned

/-- The words of class 0xB, ENGINE (R53). -/
def decodeEngine (w : Nat) : Except DecodeError Instr :=
  match fld w 27 24 with
  | 0 => rsv w 12 0 <| .ok (.eset (bits 6 w 18) (bits 5 w 13))
  | 1 => rsv w 12 0 <| .ok (.eget (bits 6 w 18) (bits 5 w 13))
  | 2 =>
    match fld w 23 18 with
    | 0 => rsv w 7 1 <| .ok (.cpyMm (bits 5 w 13) (bits 5 w 8) (fld w 0 0 == 1))
    | 1 => rsv w 7 1 <| .ok (.cpyMt (bits 5 w 13) (bits 5 w 8) (fld w 0 0 == 1))
    | 2 => rsv w 7 1 <| .ok (.cpyTm (bits 5 w 13) (bits 5 w 8) (fld w 0 0 == 1))
    | _ => .error .unassigned
  | 3 => rsv w 23 18 <| rsv w 7 0 <| .ok (.qput (bits 5 w 13) (bits 5 w 8))
  | 4 =>
    match fld w 23 18 with
    | 0 => rsv w 12 4 <| orElse (RedOp.ofCode? (fld w 3 0)) fun op => .ok (.rwin (bits 5 w 13) op)
    | 1 => rsv w 12 0 <| .ok (.rclose (bits 5 w 13))
    | 2 => rsv w 7 4 <| orElse (RedOp.ofCode? (fld w 3 0)) fun op => .ok (.ramo (bits 5 w 13) (bits 5 w 8) op)
    | 3 => rsv w 7 0 <| .ok (.rwait (bits 5 w 13) (bits 5 w 8))
    | _ => .error .unassigned
  | _ => .error .unassigned

/-- The words of class 0xC, STATE (R53). -/
def decodeStateOps (w : Nat) : Except DecodeError Instr :=
  match fld w 27 22 with
  | 0 => rsv w 11 0 <| kind w 21 21 <| .ok (.hload (bits 4 w 17) (bits 5 w 12))
  | 1 => rsv w 11 0 <| kind w 21 21 <| .ok (.hstore (bits 4 w 17) (bits 5 w 12))
  | 2 => rsv w 6 0 <| kind w 16 16 <| .ok (.hquery (bits 5 w 17) (bits 4 w 12) (bits 5 w 7))
  | 3 => rsv w 6 3 <| kind w 16 16 <| .ok (.tld (bits 5 w 17) (bits 4 w 12) (bits 5 w 7) (bits 3 w 0))
  | 4 => rsv w 6 3 <| kind w 16 16 <| .ok (.tst (bits 5 w 17) (bits 4 w 12) (bits 5 w 7) (bits 3 w 0))
  | 5 => rsv w 6 0 <| kind w 21 21 <| .ok (.relayout (bits 4 w 17) (bits 5 w 12) (bits 5 w 7))
  | 6 => rsv w 21 17 <| rsv w 11 0 <| kind w 16 16 <| .ok (.rlwait (bits 4 w 12))
  | 8 => rsv w 11 0 <| .ok (.hopen (bits 5 w 17) (bits 5 w 12))
  | 9 => rsv w 21 17 <| rsv w 11 0 <| .ok (.henter (bits 5 w 12))
  | 10 => rsv w 21 0 <| .ok .hleave
  | 11 => rsv w 11 1 <| .ok (.hconfirm (bits 5 w 17) (bits 5 w 12) (fld w 0 0 == 1))
  | 12 => rsv w 11 0 <| .ok (.hrefute (bits 5 w 17) (bits 5 w 12))
  | 13 => rsv w 11 0 <| .ok (.hstat (bits 5 w 17) (bits 5 w 12))
  | 14 => rsv w 21 12 <| .ok (.copen (bits 12 w 0))
  | 15 => rsv w 21 0 <| .ok .cclose
  | 16 => rsv w 11 0 <| .ok (.screate (bits 5 w 17) (bits 5 w 12))
  | 17 => rsv w 6 0 <| .ok (.sfork (bits 5 w 17) (bits 5 w 12) (bits 5 w 7))
  | 18 => rsv w 11 0 <| .ok (.sdrop (bits 5 w 17) (bits 5 w 12))
  | 19 => rsv w 6 0 <| .ok (.sact (bits 5 w 17) (bits 5 w 12) (bits 5 w 7))
  | 20 => rsv w 11 0 <| .ok (.spop (bits 5 w 17) (bits 5 w 12))
  | 21 => rsv w 6 0 <| .ok (.shor (bits 5 w 17) (bits 5 w 12) (bits 5 w 7))
  | 22 => rsv w 21 17 <| rsv w 11 0 <| .ok (.sret (bits 5 w 12))
  | 23 => rsv w 6 0 <| .ok (.sjoin (bits 5 w 17) (bits 5 w 12) (bits 5 w 7))
  | 24 => rsv w 21 17 <| rsv w 11 0 <| .ok (.senter (bits 5 w 12))
  | 25 => rsv w 6 0 <| .ok (.smigr (bits 5 w 17) (bits 5 w 12) (bits 5 w 7))
  | 28 => rsv w 11 0 <| .ok (.accept (bits 5 w 17) (bits 5 w 12))
  | _ => .error .unassigned

/-- The words of class 0xD, FP (R53). -/
def decodeFp (w : Nat) : Except DecodeError Instr :=
  match fld w 27 22 with
  | 0 => rsv w 2 0 <| orElse (RndSel.ofCode? (fld w 5 3)) fun rnd => .ok (.fadd (bits 5 w 17) (bits 5 w 12) (bits 5 w 7) (Prec.ofCode (fld w 6 6)) rnd)
  | 1 => rsv w 2 0 <| orElse (RndSel.ofCode? (fld w 5 3)) fun rnd => .ok (.fsub (bits 5 w 17) (bits 5 w 12) (bits 5 w 7) (Prec.ofCode (fld w 6 6)) rnd)
  | 2 => rsv w 2 0 <| orElse (RndSel.ofCode? (fld w 5 3)) fun rnd => .ok (.fmul (bits 5 w 17) (bits 5 w 12) (bits 5 w 7) (Prec.ofCode (fld w 6 6)) rnd)
  | 3 => rsv w 2 0 <| orElse (RndSel.ofCode? (fld w 5 3)) fun rnd => .ok (.fdiv (bits 5 w 17) (bits 5 w 12) (bits 5 w 7) (Prec.ofCode (fld w 6 6)) rnd)
  | 4 => rsv w 11 7 <| rsv w 2 0 <| orElse (RndSel.ofCode? (fld w 5 3)) fun rnd => .ok (.fsqrt (bits 5 w 17) (bits 5 w 12) (Prec.ofCode (fld w 6 6)) rnd)
  | 5 => rsv w 2 0 <| orElse (RndSel.ofCode? (fld w 5 3)) fun rnd => .ok (.ffma (bits 5 w 17) (bits 5 w 12) (bits 5 w 7) (Prec.ofCode (fld w 6 6)) rnd)
  | 6 => rsv w 5 0 <| .ok (.fmin (bits 5 w 17) (bits 5 w 12) (bits 5 w 7) (Prec.ofCode (fld w 6 6)))
  | 7 => rsv w 5 0 <| .ok (.fmax (bits 5 w 17) (bits 5 w 12) (bits 5 w 7) (Prec.ofCode (fld w 6 6)))
  | 8 => rsv w 5 3 <| orElse (FcmpCond.ofCode? (fld w 2 0)) fun cond => .ok (.fcmp (bits 5 w 17) (bits 5 w 12) (bits 5 w 7) (Prec.ofCode (fld w 6 6)) cond)
  | 9 => rsv w 11 7 <| orElse (RndSel.ofCode? (fld w 5 3)) fun rnd => orElse (FcvtKind.ofCode? (fld w 2 0)) fun kind => .ok (.fcvt (bits 5 w 17) (bits 5 w 12) (Prec.ofCode (fld w 6 6)) rnd kind)
  | 10 => rsv w 11 7 <| rsv w 5 0 <| .ok (.fclass (bits 5 w 17) (bits 5 w 12) (Prec.ofCode (fld w 6 6)))
  | _ => .error .unassigned

/-- The words of class 0xE, PREFIX (R53). -/
def decodePrefix (w : Nat) : Except DecodeError Instr :=
  match fld w 27 24 with
  | 0 => rsv w 12 0 <| orElse (Stride.ofCode? (fld w 14 13)) fun stride => .ok (.rep (bits 6 w 18) (fld w 17 17 == 1) (fld w 16 16 == 1) (fld w 15 15 == 1) stride)
  | _ => .error .unassigned

/-- The fields of a word, before the rules on operands: class first, then the class's maps (R45, R53). -/
def decodeFields (w : Nat) : Except DecodeError Instr :=
  match fld w 31 28 with
  | 0x0 => decodeAluR w
  | 0x1 => decodeAluI w
  | 0x2 => decodeLoad w
  | 0x3 => decodeStore w
  | 0x4 => decodeSync w
  | 0x5 => decodeBranch w
  | 0x6 => decodeJump w
  | 0x7 => decodeSystem w
  | 0x8 => decodeVec w
  | 0x9 => decodeVMem w
  | 0xA => decodeMatrix w
  | 0xB => decodeEngine w
  | 0xC => decodeStateOps w
  | 0xD => decodeFp w
  | 0xE => decodePrefix w
  | _ => .error .notAWord

/-- The instruction of a 32-bit word (R50): the fields, then the rules on operands. -/
def decodeWord (w : Nat) : Except DecodeError Instr :=
  if fld w 31 0 = 0 then .error .notAWord else
  match decodeFields w with
  | .ok i =>
    match i.illFormed with
    | none => .ok i
    | some e => .error (.illFormed e)
  | .error e => .error e

/-- The instruction at the head of bytes, little-endian (R45), and the bytes after it. -/
def decode : List Byte → Except DecodeError (Instr × List Byte)
  | a :: b :: c :: d :: rest =>
    match decodeWord (a.toNat + 256 * (b.toNat + 256 * (c.toNat + 256 * d.toNat))) with
    | .ok i => .ok (i, rest)
    | .error e => .error e
  | _ => .error .short

/-- Format A (R47). -/
def fmtA (cls op d a b mod : Nat) : Nat := cls * 2 ^ 28 + op * 2 ^ 22 + d * 2 ^ 17 + a * 2 ^ 12 + b * 2 ^ 7 + mod
/-- Formats I and B (R47): the register fields and the 14-bit field lie alike. -/
def fmtI (cls op d a imm : Nat) : Nat := cls * 2 ^ 28 + op * 2 ^ 24 + d * 2 ^ 19 + a * 2 ^ 14 + imm
/-- Format J (R47). -/
def fmtJ (cls jop dj imm : Nat) : Nat := cls * 2 ^ 28 + jop * 2 ^ 26 + dj * 2 ^ 23 + imm
/-- Format V (R47). -/
def fmtV (cls op type vd va vb mask : Nat) : Nat :=
  cls * 2 ^ 28 + op * 2 ^ 22 + type * 2 ^ 18 + vd * 2 ^ 13 + va * 2 ^ 8 + vb * 2 ^ 3 + mask
/-- Format E (R47). -/
def fmtE (cls engine cmd ga gb flags : Nat) : Nat :=
  cls * 2 ^ 28 + engine * 2 ^ 24 + cmd * 2 ^ 18 + ga * 2 ^ 13 + gb * 2 ^ 8 + flags
/-- Format P (R47). -/
def fmtP (cls pop count sd sa sb stride : Nat) : Nat :=
  cls * 2 ^ 28 + pop * 2 ^ 24 + count * 2 ^ 18 + sd * 2 ^ 17 + sa * 2 ^ 16 + sb * 2 ^ 15 + stride * 2 ^ 13

/-- The word of an instruction, from the encoding tables of R47 and R53; none for an event, which has no word. -/
def encodeWord : Instr → Option Nat
  | .add d a b => some (fmtA 0x0 0x00 d.toNat a.toNat b.toNat 0)
  | .sub d a b => some (fmtA 0x0 0x01 d.toNat a.toNat b.toNat 0)
  | .mul d a b => some (fmtA 0x0 0x02 d.toNat a.toNat b.toNat 0)
  | .mulh d a b => some (fmtA 0x0 0x03 d.toNat a.toNat b.toNat 0)
  | .mulhn d a b => some (fmtA 0x0 0x04 d.toNat a.toNat b.toNat 0)
  | .div d a b => some (fmtA 0x0 0x05 d.toNat a.toNat b.toNat 0)
  | .divn d a b => some (fmtA 0x0 0x06 d.toNat a.toNat b.toNat 0)
  | .rem d a b => some (fmtA 0x0 0x07 d.toNat a.toNat b.toNat 0)
  | .remn d a b => some (fmtA 0x0 0x08 d.toNat a.toNat b.toNat 0)
  | .and d a b => some (fmtA 0x0 0x09 d.toNat a.toNat b.toNat 0)
  | .or d a b => some (fmtA 0x0 0x0A d.toNat a.toNat b.toNat 0)
  | .xor d a b => some (fmtA 0x0 0x0B d.toNat a.toNat b.toNat 0)
  | .andn d a b => some (fmtA 0x0 0x0C d.toNat a.toNat b.toNat 0)
  | .orn d a b => some (fmtA 0x0 0x0D d.toNat a.toNat b.toNat 0)
  | .sll d a b => some (fmtA 0x0 0x0E d.toNat a.toNat b.toNat 0)
  | .srl d a b => some (fmtA 0x0 0x0F d.toNat a.toNat b.toNat 0)
  | .sra d a b => some (fmtA 0x0 0x10 d.toNat a.toNat b.toNat 0)
  | .rol d a b => some (fmtA 0x0 0x11 d.toNat a.toNat b.toNat 0)
  | .ror d a b => some (fmtA 0x0 0x12 d.toNat a.toNat b.toNat 0)
  | .min d a b => some (fmtA 0x0 0x13 d.toNat a.toNat b.toNat 0)
  | .max d a b => some (fmtA 0x0 0x14 d.toNat a.toNat b.toNat 0)
  | .minn d a b => some (fmtA 0x0 0x15 d.toNat a.toNat b.toNat 0)
  | .maxn d a b => some (fmtA 0x0 0x16 d.toNat a.toNat b.toNat 0)
  | .slt d a b => some (fmtA 0x0 0x17 d.toNat a.toNat b.toNat 0)
  | .sltn d a b => some (fmtA 0x0 0x18 d.toNat a.toNat b.toNat 0)
  | .sel d a b c => some (fmtA 0x0 0x19 d.toNat a.toNat b.toNat (c.toNat * 4))
  | .clz d a => some (fmtA 0x0 0x1A d.toNat a.toNat 0 0)
  | .ctz d a => some (fmtA 0x0 0x1B d.toNat a.toNat 0 0)
  | .popc d a => some (fmtA 0x0 0x1C d.toNat a.toNat 0 0)
  | .brev d a => some (fmtA 0x0 0x1D d.toNat a.toNat 0 0)
  | .bfx d a b => some (fmtA 0x0 0x1E d.toNat a.toNat b.toNat 0)
  | .bfi d a b => some (fmtA 0x0 0x1F d.toNat a.toNat b.toNat 0)
  | .clmul d a b => some (fmtA 0x0 0x20 d.toNat a.toNat b.toNat 0)
  | .clmulh d a b => some (fmtA 0x0 0x21 d.toNat a.toNat b.toNat 0)
  | .addi d a imm => some (fmtI 0x1 0x00 d.toNat a.toNat imm.toNat)
  | .andi d a imm => some (fmtI 0x1 0x01 d.toNat a.toNat imm.toNat)
  | .ori d a imm => some (fmtI 0x1 0x02 d.toNat a.toNat imm.toNat)
  | .xori d a imm => some (fmtI 0x1 0x03 d.toNat a.toNat imm.toNat)
  | .slli d a sh => some (fmtI 0x1 0x04 d.toNat a.toNat sh.toNat)
  | .srli d a sh => some (fmtI 0x1 0x05 d.toNat a.toNat sh.toNat)
  | .srai d a sh => some (fmtI 0x1 0x06 d.toNat a.toNat sh.toNat)
  | .slti d a imm => some (fmtI 0x1 0x07 d.toNat a.toNat imm.toNat)
  | .lui j imm => some (fmtJ 0x1 0x02 j.toNat imm.toNat)
  | .addpc j imm => some (fmtJ 0x1 0x03 j.toNat imm.toNat)
  | .beq a b off => some (fmtI 0x5 0x00 a.toNat b.toNat off.toNat)
  | .bne a b off => some (fmtI 0x5 0x01 a.toNat b.toNat off.toNat)
  | .blt a b off => some (fmtI 0x5 0x02 a.toNat b.toNat off.toNat)
  | .bge a b off => some (fmtI 0x5 0x03 a.toNat b.toNat off.toNat)
  | .bltn a b off => some (fmtI 0x5 0x04 a.toNat b.toNat off.toNat)
  | .bgen a b off => some (fmtI 0x5 0x05 a.toNat b.toNat off.toNat)
  | .jal j imm => some (fmtJ 0x6 0x00 j.toNat imm.toNat)
  | .jalr d a imm => some (fmtI 0x6 0x04 d.toNat a.toNat imm.toNat)
  | .ldB d a imm => some (fmtI 0x2 0x00 d.toNat a.toNat imm.toNat)
  | .ldH d a imm => some (fmtI 0x2 0x01 d.toNat a.toNat imm.toNat)
  | .ldW d a imm => some (fmtI 0x2 0x02 d.toNat a.toNat imm.toNat)
  | .ldD d a imm => some (fmtI 0x2 0x03 d.toNat a.toNat imm.toNat)
  | .ldBn d a imm => some (fmtI 0x2 0x04 d.toNat a.toNat imm.toNat)
  | .ldHn d a imm => some (fmtI 0x2 0x05 d.toNat a.toNat imm.toNat)
  | .ldWn d a imm => some (fmtI 0x2 0x06 d.toNat a.toNat imm.toNat)
  | .ldacqW d a imm => some (fmtI 0x2 0x08 d.toNat a.toNat imm.toNat)
  | .ldacqD d a imm => some (fmtI 0x2 0x09 d.toNat a.toNat imm.toNat)
  | .ldntD d a imm => some (fmtI 0x2 0x0A d.toNat a.toNat imm.toNat)
  | .stB d a imm => some (fmtI 0x3 0x00 d.toNat a.toNat imm.toNat)
  | .stH d a imm => some (fmtI 0x3 0x01 d.toNat a.toNat imm.toNat)
  | .stW d a imm => some (fmtI 0x3 0x02 d.toNat a.toNat imm.toNat)
  | .stD d a imm => some (fmtI 0x3 0x03 d.toNat a.toNat imm.toNat)
  | .strelW d a imm => some (fmtI 0x3 0x04 d.toNat a.toNat imm.toNat)
  | .strelD d a imm => some (fmtI 0x3 0x05 d.toNat a.toNat imm.toNat)
  | .stntD d a imm => some (fmtI 0x3 0x06 d.toNat a.toNat imm.toNat)
  | .mstoreW d a imm => some (fmtI 0x3 0x07 d.toNat a.toNat imm.toNat)
  | .mstoreD d a imm => some (fmtI 0x3 0x08 d.toNat a.toNat imm.toNat)
  | .amoadd d a b width ord => some (fmtA 0x4 0x00 d.toNat a.toNat b.toNat (width.code * 64 + ord.code * 16))
  | .amoand d a b width ord => some (fmtA 0x4 0x01 d.toNat a.toNat b.toNat (width.code * 64 + ord.code * 16))
  | .amoor d a b width ord => some (fmtA 0x4 0x02 d.toNat a.toNat b.toNat (width.code * 64 + ord.code * 16))
  | .amoxor d a b width ord => some (fmtA 0x4 0x03 d.toNat a.toNat b.toNat (width.code * 64 + ord.code * 16))
  | .amomin d a b width ord => some (fmtA 0x4 0x04 d.toNat a.toNat b.toNat (width.code * 64 + ord.code * 16))
  | .amomax d a b width ord => some (fmtA 0x4 0x05 d.toNat a.toNat b.toNat (width.code * 64 + ord.code * 16))
  | .amominn d a b width ord => some (fmtA 0x4 0x06 d.toNat a.toNat b.toNat (width.code * 64 + ord.code * 16))
  | .amomaxn d a b width ord => some (fmtA 0x4 0x07 d.toNat a.toNat b.toNat (width.code * 64 + ord.code * 16))
  | .amoswap d a b width ord => some (fmtA 0x4 0x08 d.toNat a.toNat b.toNat (width.code * 64 + ord.code * 16))
  | .amocas d a b width ord => some (fmtA 0x4 0x09 d.toNat a.toNat b.toNat (width.code * 64 + ord.code * 16))
  | .lr d a width ord => some (fmtA 0x4 0x0A d.toNat a.toNat 0 (width.code * 64 + ord.code * 16))
  | .sc d a b width ord => some (fmtA 0x4 0x0B d.toNat a.toNat b.toNat (width.code * 64 + ord.code * 16))
  | .wrs d a b width => some (fmtA 0x4 0x0C d.toNat a.toNat b.toNat (width.code * 64))
  | .fenceAcq => some (fmtA 0x4 0x0D 0 0 0 16)
  | .fenceRel => some (fmtA 0x4 0x0D 0 0 0 32)
  | .fenceSc => some (fmtA 0x4 0x0D 0 0 0 48)
  | .afence => some (fmtA 0x4 0x0E 0 0 0 0)
  | .pref a => some (fmtA 0x4 0x0F 0 a.toNat 0 0)
  | .spawn d a b cell => some (fmtA 0x7 0x00 d.toNat a.toNat b.toNat cell.toNat)
  | .quit => some (fmtA 0x7 0x01 0 0 0 0)
  | .yield n gm => some (0x70800000 + n.toNat * 64 + gm.toNat * 2)
  | .depsig a => some (fmtA 0x7 0x03 0 a.toNat 0 0)
  | .cancel a level => some (fmtA 0x7 0x04 0 a.toNat 0 level.code)
  | .trap n => some (fmtA 0x7 0x05 0 0 0 n.toNat)
  | .tret => some (fmtA 0x7 0x06 0 0 0 0)
  | .cget d reg => some (0x71C00000 + d.toNat * 131072 + reg.code * 128)
  | .cgetFpFlags _ => none
  | .cset d reg => some (0x72000000 + d.toNat * 131072 + reg.code * 128)
  | .csetChanIn _ => none
  | .csetChanOut _ => none
  | .inval a b => some (fmtA 0x7 0x09 0 a.toNat b.toNat 0)
  | .vadd t d a b m => some (fmtV 0x8 0x00 t.code d.toNat a.toNat b.toNat m.toNat)
  | .vsub t d a b m => some (fmtV 0x8 0x01 t.code d.toNat a.toNat b.toNat m.toNat)
  | .vmul t d a b m => some (fmtV 0x8 0x02 t.code d.toNat a.toNat b.toNat m.toNat)
  | .vfma t d a b m => some (fmtV 0x8 0x03 t.code d.toNat a.toNat b.toNat m.toNat)
  | .vfms t d a b m => some (fmtV 0x8 0x04 t.code d.toNat a.toNat b.toNat m.toNat)
  | .vfnma t d a b m => some (fmtV 0x8 0x05 t.code d.toNat a.toNat b.toNat m.toNat)
  | .vmin t d a b m => some (fmtV 0x8 0x06 t.code d.toNat a.toNat b.toNat m.toNat)
  | .vmax t d a b m => some (fmtV 0x8 0x07 t.code d.toNat a.toNat b.toNat m.toNat)
  | .vabs t d a m => some (fmtV 0x8 0x08 t.code d.toNat a.toNat 0 m.toNat)
  | .vneg t d a m => some (fmtV 0x8 0x09 t.code d.toNat a.toNat 0 m.toNat)
  | .vrcp t d a m => some (fmtV 0x8 0x0A t.code d.toNat a.toNat 0 m.toNat)
  | .vrsqrt t d a m => some (fmtV 0x8 0x0B t.code d.toNat a.toNat 0 m.toNat)
  | .vexp2 t d a m => some (fmtV 0x8 0x0C t.code d.toNat a.toNat 0 m.toNat)
  | .vlog2 t d a m => some (fmtV 0x8 0x0D t.code d.toNat a.toNat 0 m.toNat)
  | .vtanh t d a m => some (fmtV 0x8 0x0E t.code d.toNat a.toNat 0 m.toNat)
  | .vand t d a b m => some (fmtV 0x8 0x0F t.code d.toNat a.toNat b.toNat m.toNat)
  | .vor t d a b m => some (fmtV 0x8 0x10 t.code d.toNat a.toNat b.toNat m.toNat)
  | .vxor t d a b m => some (fmtV 0x8 0x11 t.code d.toNat a.toNat b.toNat m.toNat)
  | .vnot t d a m => some (fmtV 0x8 0x12 t.code d.toNat a.toNat 0 m.toNat)
  | .vshl t d a b m => some (fmtV 0x8 0x13 t.code d.toNat a.toNat b.toNat m.toNat)
  | .vshr t d a b m => some (fmtV 0x8 0x14 t.code d.toNat a.toNat b.toNat m.toNat)
  | .vsra t d a b m => some (fmtV 0x8 0x15 t.code d.toNat a.toNat b.toNat m.toNat)
  | .vcmp t cond k a b m => some (fmtV 0x8 0x16 t.code (cond.code * 8 + k.toNat) a.toNat b.toNat m.toNat)
  | .vsel t d a b m => some (fmtV 0x8 0x17 t.code d.toNat a.toNat b.toNat m.toNat)
  | .vcvt t d a src m => some (fmtV 0x8 0x18 t.code d.toNat a.toNat (src.code * 2) m.toNat)
  | .vwcvt t d a src m => some (fmtV 0x8 0x19 t.code d.toNat a.toNat (src.code * 2) m.toNat)
  | .vwmul t d a b m => some (fmtV 0x8 0x1A t.code d.toNat a.toNat b.toNat m.toNat)
  | .vwadd t d a b m => some (fmtV 0x8 0x1B t.code d.toNat a.toNat b.toNat m.toNat)
  | .vnarrow t d a m => some (fmtV 0x8 0x1C t.code d.toNat a.toNat 0 m.toNat)
  | .vredsum t d a b m => some (fmtV 0x8 0x1D t.code d.toNat a.toNat b.toNat m.toNat)
  | .vredmax t d a b m => some (fmtV 0x8 0x1E t.code d.toNat a.toNat b.toNat m.toNat)
  | .vredmin t d a b m => some (fmtV 0x8 0x1F t.code d.toNat a.toNat b.toNat m.toNat)
  | .vscan t d a b m => some (fmtV 0x8 0x20 t.code d.toNat a.toNat b.toNat m.toNat)
  | .vxscan t d a b m => some (fmtV 0x8 0x21 t.code d.toNat a.toNat b.toNat m.toNat)
  | .vclmul t d a b m => some (fmtV 0x8 0x22 t.code d.toNat a.toNat b.toNat m.toNat)
  | .vperm t d a b m => some (fmtV 0x8 0x23 t.code d.toNat a.toNat b.toNat m.toNat)
  | .vslide t d a b m => some (fmtV 0x8 0x24 t.code d.toNat a.toNat b.toNat m.toNat)
  | .vbcast t d a m => some (fmtV 0x8 0x25 t.code d.toNat a.toNat 0 m.toNat)
  | .viota t d m => some (fmtV 0x8 0x26 t.code d.toNat 0 0 m.toNat)
  | .vcompress t d a m => some (fmtV 0x8 0x27 t.code d.toNat a.toNat 0 m.toNat)
  | .vexpand t d a m => some (fmtV 0x8 0x28 t.code d.toNat a.toNat 0 m.toNat)
  | .vmovg t d a b => some (fmtV 0x8 0x29 t.code d.toNat a.toNat b.toNat 0)
  | .vmovxTov d a => some (fmtV 0x8 0x2A 0 d.toNat a.toNat 0 0)
  | .vmovxTom d a => some (fmtV 0x8 0x2A 1 d.toNat a.toNat 0 0)
  | .vpmerge d a b m => some (fmtV 0x8 0x2B 12 d.toNat a.toNat b.toNat m.toNat)
  | .vnoise d a b m => some (fmtV 0x8 0x2C 12 d.toNat a.toNat b.toNat m.toNat)
  | .vamax d a b m => some (fmtV 0x8 0x2D 12 d.toNat a.toNat b.toNat m.toNat)
  | .kand d a b => some (fmtV 0x8 0x2E 0 d.toNat a.toNat b.toNat 0)
  | .kor d a b => some (fmtV 0x8 0x2F 0 d.toNat a.toNat b.toNat 0)
  | .kxor d a b => some (fmtV 0x8 0x30 0 d.toNat a.toNat b.toNat 0)
  | .knot d a => some (fmtV 0x8 0x31 0 d.toNat a.toNat 0 0)
  | .kpopc d a => some (fmtV 0x8 0x32 0 d.toNat a.toNat 0 0)
  | .kfirst d a => some (fmtV 0x8 0x33 0 d.toNat a.toNat 0 0)
  | .vaddSat t d a b m => some (fmtV 0x8 0x34 t.code d.toNat a.toNat b.toNat m.toNat)
  | .vsubSat t d a b m => some (fmtV 0x8 0x35 t.code d.toNat a.toNat b.toNat m.toNat)
  | .vmulSat t d a b m => some (fmtV 0x8 0x36 t.code d.toNat a.toNat b.toNat m.toNat)
  | .vnarrowSat t d a m => some (fmtV 0x8 0x37 t.code d.toNat a.toNat 0 m.toNat)
  | .vld t d a m => some (fmtV 0x9 0x00 t.code d.toNat a.toNat 0 m.toNat)
  | .vst t d a m => some (fmtV 0x9 0x01 t.code d.toNat a.toNat 0 m.toNat)
  | .vldg t d a b m => some (fmtV 0x9 0x02 t.code d.toNat a.toNat b.toNat m.toNat)
  | .vstg t d a b m => some (fmtV 0x9 0x03 t.code d.toNat a.toNat b.toNat m.toNat)
  | .vgather t d a b m => some (fmtV 0x9 0x04 t.code d.toNat a.toNat b.toNat m.toNat)
  | .vscatter t d a b m => some (fmtV 0x9 0x05 t.code d.toNat a.toNat b.toNat m.toNat)
  | .pld d a => some (fmtV 0x9 0x06 0 d.toNat a.toNat 0 0)
  | .pst d a => some (fmtV 0x9 0x07 0 d.toNat a.toNat 0 0)
  | .tstat d a => some (fmtV 0x9 0x08 0 d.toNat a.toNat 0 0)
  | .tready a => some (fmtV 0x9 0x09 0 0 a.toNat 0 0)
  | .tempty a => some (fmtV 0x9 0x0A 0 0 a.toNat 0 0)
  | .barinit a b => some (fmtV 0x9 0x0B 0 0 a.toNat b.toNat 0)
  | .barpost a b => some (fmtV 0x9 0x0C 0 0 a.toNat b.toNat 0)
  | .bararr a => some (fmtV 0x9 0x0D 0 0 a.toNat 0 0)
  | .bardrop a => some (fmtV 0x9 0x0E 0 0 a.toNat 0 0)
  | .barwait a b => some (fmtV 0x9 0x0F 0 0 a.toNat b.toNat 0)
  | .oclaim d a => some (fmtA 0xA 0x00 d.toNat a.toNat 0 0)
  | .orelease a => some (fmtA 0xA 0x01 0 a.toNat 0 0)
  | .oload d a b => some (fmtA 0xA 0x02 d.toNat a.toNat b.toNat 0)
  | .mxset a => some (fmtA 0xA 0x03 0 a.toNat 0 0)
  | .mxget d => some (fmtA 0xA 0x04 d.toNat 0 0 0)
  | .mxzero d => some (fmtA 0xA 0x05 d.toNat 0 0 0)
  | .mxmul d a b => some (fmtA 0xA 0x06 d.toNat a.toNat b.toNat 0)
  | .mxloadc d a b => some (fmtA 0xA 0x07 d.toNat a.toNat b.toNat 0)
  | .mxstore d a b => some (fmtA 0xA 0x08 d.toNat a.toNat b.toNat 0)
  | .mxwait a => some (fmtA 0xA 0x09 0 a.toNat 0 0)
  | .mxdrain => some (fmtA 0xA 0x0A 0 0 0 0)
  | .eset e a => some (fmtE 0xB 0x00 e.toNat a.toNat 0 0)
  | .eget e a => some (fmtE 0xB 0x01 e.toNat a.toNat 0 0)
  | .cpyMm a b bar => some (fmtE 0xB 0x02 0 a.toNat b.toNat bar.toNat)
  | .cpyMt a b bar => some (fmtE 0xB 0x02 1 a.toNat b.toNat bar.toNat)
  | .cpyTm a b bar => some (fmtE 0xB 0x02 2 a.toNat b.toNat bar.toNat)
  | .qput a b => some (fmtE 0xB 0x03 0 a.toNat b.toNat 0)
  | .rwin a op => some (fmtE 0xB 0x04 0 a.toNat 0 op.code)
  | .rclose a => some (fmtE 0xB 0x04 1 a.toNat 0 0)
  | .ramo a b op => some (fmtE 0xB 0x04 2 a.toNat b.toNat op.code)
  | .rwait a b => some (fmtE 0xB 0x04 3 a.toNat b.toNat 0)
  | .hload d a => some (fmtA 0xC 0x00 d.toNat a.toNat 0 0)
  | .hstore d a => some (fmtA 0xC 0x01 d.toNat a.toNat 0 0)
  | .hquery d a b => some (fmtA 0xC 0x02 d.toNat a.toNat b.toNat 0)
  | .tld d a b m => some (fmtA 0xC 0x03 d.toNat a.toNat b.toNat m.toNat)
  | .tst d a b m => some (fmtA 0xC 0x04 d.toNat a.toNat b.toNat m.toNat)
  | .relayout d a b => some (fmtA 0xC 0x05 d.toNat a.toNat b.toNat 0)
  | .rlwait a => some (fmtA 0xC 0x06 0 a.toNat 0 0)
  | .hopen d a => some (fmtA 0xC 0x08 d.toNat a.toNat 0 0)
  | .henter a => some (fmtA 0xC 0x09 0 a.toNat 0 0)
  | .hleave => some (fmtA 0xC 0x0A 0 0 0 0)
  | .hconfirm d a excl => some (fmtA 0xC 0x0B d.toNat a.toNat 0 excl.toNat)
  | .hrefute d a => some (fmtA 0xC 0x0C d.toNat a.toNat 0 0)
  | .hstat d a => some (fmtA 0xC 0x0D d.toNat a.toNat 0 0)
  | .copen off => some (0xC3800000 + off.toNat)
  | .cclose => some (fmtA 0xC 0x0F 0 0 0 0)
  | .screate d a => some (fmtA 0xC 0x10 d.toNat a.toNat 0 0)
  | .sfork d a b => some (fmtA 0xC 0x11 d.toNat a.toNat b.toNat 0)
  | .sdrop d a => some (fmtA 0xC 0x12 d.toNat a.toNat 0 0)
  | .sact d a b => some (fmtA 0xC 0x13 d.toNat a.toNat b.toNat 0)
  | .spop d a => some (fmtA 0xC 0x14 d.toNat a.toNat 0 0)
  | .shor d a b => some (fmtA 0xC 0x15 d.toNat a.toNat b.toNat 0)
  | .sret a => some (fmtA 0xC 0x16 0 a.toNat 0 0)
  | .sjoin d a b => some (fmtA 0xC 0x17 d.toNat a.toNat b.toNat 0)
  | .senter a => some (fmtA 0xC 0x18 0 a.toNat 0 0)
  | .smigr d a b => some (fmtA 0xC 0x19 d.toNat a.toNat b.toNat 0)
  | .accept d a => some (fmtA 0xC 0x1C d.toNat a.toNat 0 0)
  | .fadd d a b prec rnd => some (fmtA 0xD 0x00 d.toNat a.toNat b.toNat (prec.code * 64 + rnd.code * 8))
  | .fsub d a b prec rnd => some (fmtA 0xD 0x01 d.toNat a.toNat b.toNat (prec.code * 64 + rnd.code * 8))
  | .fmul d a b prec rnd => some (fmtA 0xD 0x02 d.toNat a.toNat b.toNat (prec.code * 64 + rnd.code * 8))
  | .fdiv d a b prec rnd => some (fmtA 0xD 0x03 d.toNat a.toNat b.toNat (prec.code * 64 + rnd.code * 8))
  | .fsqrt d a prec rnd => some (fmtA 0xD 0x04 d.toNat a.toNat 0 (prec.code * 64 + rnd.code * 8))
  | .ffma d a b prec rnd => some (fmtA 0xD 0x05 d.toNat a.toNat b.toNat (prec.code * 64 + rnd.code * 8))
  | .fmin d a b prec => some (fmtA 0xD 0x06 d.toNat a.toNat b.toNat (prec.code * 64))
  | .fmax d a b prec => some (fmtA 0xD 0x07 d.toNat a.toNat b.toNat (prec.code * 64))
  | .fcmp d a b prec cond => some (fmtA 0xD 0x08 d.toNat a.toNat b.toNat (prec.code * 64 + cond.code))
  | .fcvt d a prec rnd kind => some (fmtA 0xD 0x09 d.toNat a.toNat 0 (prec.code * 64 + rnd.code * 8 + kind.code))
  | .fclass d a prec => some (fmtA 0xD 0x0A d.toNat a.toNat 0 (prec.code * 64))
  | .rep count sd sa sb stride => some (fmtP 0xE 0x00 count.toNat sd.toNat sa.toNat sb.toNat stride.code)
  | .wrsTimeout => none
  | .l1Replacement => none
  | .homeEviction => none
  | .quitComplete => none
  | .invalHolder => none
  | .tlbWalk => none
  | .matrixBlockGrant => none
  | .matrixEntryComplete => none
  | .vectorLaneGrant => none
  | .vectorEntryComplete => none
  | .carterSector => none
  | .routerContribution => none
  | .routerHoldExpiry => none
  | .contributionArrive => none
  | .windowTimeout => none
  | .windowDelivery => none
  | .weaverUnit => none
  | .hypDiePrepare => none
  | .hypCommit => none
  | .hypApply => none
  | .hypSweep => none
  | .versionSpillwaitExpiry => none
  | .streamArrival => none
  | .streamBatchTimeout => none
  | .streamBatchPlace => none
  | .winnowerJoin => none
  | .pageReload => none
  | .strmSpillwaitExpiry => none
  | .unpark => none
  | .notifyStore => none
  | .factorPoll => none
  | .launchPacket => none
  | .launchAccept => none
  | .copyPacket => none
  | .waitPacket => none
  | .waitPacketComplete => none
  | .signalPacket => none
  | .barrierAndPacket => none
  | .barrierAndComplete => none
  | .cancelPacket => none
  | .replayBegin => none
  | .replayEnd => none
  | .restartAck => none
  | .reservedPacket => none
  | .queueRestart => none
  | .queueTableUpdate => none
  | .queueMap => none
  | .queueWaitTimeout => none
  | .queueUnmap => none
  | .factorWatchdog => none
  | .distributorChunk => none
  | .taskCreate => none
  | .depIndexRelease => none
  | .reissueFinish => none
  | .preemptRequest => none
  | .contextRestore => none
  | .dieFence => none
  | .fenceNotice => none
  | .packageLost => none
  | .packageTableRewrite => none
  | .fabricFlitArrival => none
  | .linkCrcRetry => none
  | .pauseFlit => none
  | .resumeFlit => none
  | .hostWrite => none
  | .hostRead => none
  | .assayerCompare => none
  | .assayerSkewTimeout => none
  | .quarantineSet => none
  | .injectionArm => none
  | .moduleReset => none
  | .bootStage => none
  | .firmwareUpdate => none
  | .svnRaise => none
  | .attestationRequest => none
  | .regionBitChange => none
  | .powerCapSet => none
  | .powerThrottle => none
  | .clockStepUp => none
  | .thermalThrottle => none
  | .thermalFence => none
  | .coolantFlowLoss => none
  | .thermalShutdown => none
  | .telemetrySample => none
  | .notAnInstruction => none
  | .fabricDieFailure => none
  | .powerLoss => none

/-- The four bytes of a word, lowest address first (R45). -/
def wordBytes (w : Nat) : List Byte :=
  [BitVec.ofNat 8 w, BitVec.ofNat 8 (w / 256), BitVec.ofNat 8 (w / 65536), BitVec.ofNat 8 (w / 16777216)]

/-- The bytes of an instruction. -/
def encode (i : Instr) : Option (List Byte) := (encodeWord i).map wordBytes

/-- The decoder read on a row of the opcode table: the bits above `nbits` are zero. -/
def decodeTableWord (nbits w : Nat) : Option Instr :=
  match decode (wordBytes (w % 2 ^ nbits)) with
  | .ok (i, _) => some i
  | .error _ => none

end Sys2Proof
end

