-- ==== Sys2Proof/Config.lean ====
section
/-!
DEFINITION. What one implementation fixes and the free values: values the spec leaves open have no body, so no proof
can see them.
-/

namespace Sys2Proof.Config

/-- A 64-bit value the spec leaves open, one for each use: the step applies it to the counter `free` of the state and
advances the counter (log entry 5). -/
opaque freeWord : Nat → BitVec 64

/-- The package serial number that an attestation report holds (R424). -/
opaque serialNumber : Nat

/-- The 32 bytes of a record of the hypothesis table that holds given contents (R308, log entry 59). -/
opaque hypRecord : BitVec 128 → BitVec 256

/-- The flits that a port's receive buffer of one virtual channel holds, and its headroom, in flits (R373). -/
opaque portBuffer : Nat
opaque portHeadroom : Nat

/-- Whether a die's page store of n MiB that keeps the records of m streams has no space for another record (R334, R335, R343; log entry 47). -/
opaque recordsFull : Nat → Nat → Bool

/-- The number of dies of a package (R14). -/
def dies : Nat := 4

/-- The cells of a die (R4). -/
def cellsPerDie : Nat := 128

/-- The scalar cores of a cell (R4). -/
def coresPerCell : Nat := 8

/-- The slots of a core (R3). -/
def slotsPerCore : Nat := 8

end Sys2Proof.Config
end

