-- ==== Sys2Proof/Machine/Table.lean ====
section
/-!
DEFINITION. Reading and writing the sparse tables, and bytes in them, little-endian (R5). One canonical form: keys
strictly rising, and no entry equal to the default.
-/

namespace Sys2Proof.Machine

/-- The value at a key; d where the table lists none. -/
def tblGet {α : Type} (d : α) : Tbl α → Nat → α
  | [], _ => d
  | (k, v) :: r, a => if a = k then v else tblGet d r a

/-- The table without a key. -/
def tblErase {α : Type} : Tbl α → Nat → Tbl α
  | [], _ => []
  | (k, w) :: r, a => if a = k then tblErase r a else (k, w) :: tblErase r a

/-- The table with an entry at its place in the order of the keys. -/
def tblPut {α : Type} : Tbl α → Nat → α → Tbl α
  | [], a, v => [(a, v)]
  | (k, w) :: r, a, v =>
    if a < k then (a, v) :: (k, w) :: r else if a = k then (a, v) :: r else (k, w) :: tblPut r a v

/-- The table with a value at a key; the default value removes the entry. -/
def tblSet {α : Type} [DecidableEq α] (d : α) (t : Tbl α) (a : Nat) (v : α) : Tbl α :=
  if v = d then tblErase t a else tblPut t a v

/-- The canonical form, the keys being above lo. -/
def tblWfFrom {α : Type} [DecidableEq α] (d : α) : Nat → Tbl α → Bool
  | _, [] => true
  | lo, (k, v) :: r => decide (lo ≤ k) && decide (v ≠ d) && tblWfFrom d (k + 1) r

/-- The canonical form of a table. -/
def tblWf {α : Type} [DecidableEq α] (d : α) (t : Tbl α) : Bool := tblWfFrom d 0 t

/-- The entries of a table from a key up. -/
def tblFrom {α : Type} : Tbl α → Nat → Tbl α
  | [], _ => []
  | (k, v) :: r, a => if k < a then tblFrom r a else (k, v) :: r

/-- The byte at a key of a table whose keys lie from there up. -/
def tblHead : Tbl Byte → Nat → Byte
  | [], _ => 0
  | (k, v) :: _, a => if k = a then v else 0

/-- n bytes from a key up, as a number, the lowest byte least significant. -/
def tblReadN (t : Tbl Byte) (a : Nat) : Nat → Nat
  | 0 => 0
  | n + 1 => (tblHead (tblFrom t a) a).toNat + 256 * tblReadN (tblFrom t a) (a + 1) n

/-- The n low bytes of a number put in front of a table whose keys lie from a up. -/
def tblPutN (t : Tbl Byte) (a : Nat) : Nat → Nat → Tbl Byte
  | 0, _ => t
  | n + 1, v =>
    if BitVec.ofNat 8 v = 0#8 then tblPutN (tblFrom t (a + 1)) (a + 1) n (v / 256)
    else (a, BitVec.ofNat 8 v) :: tblPutN (tblFrom t (a + 1)) (a + 1) n (v / 256)

/-- The n low bytes of a number written from a key up. -/
def tblWriteN : Tbl Byte → Nat → Nat → Nat → Tbl Byte
  | [], a, n, v => tblPutN [] a n v
  | (k, w) :: r, a, n, v => if k < a then (k, w) :: tblWriteN r a n v else tblPutN ((k, w) :: r) a n v

end Sys2Proof.Machine
end

