-- ==== Sys2Proof/Machine/State.lean ====
section
/-!
DEFINITION. The state of one package as plain data, everything the spec gives it, and its value at module reset.
Tables are sparse: a key not listed holds the table's default.
-/

namespace Sys2Proof.Machine

/-- Why a step stops with a fault. -/
inductive Fault where
  /-- `exec` was asked to run an instruction while no task occupies the slot that `cur` names: no instruction issues
  there (R59). `step` never does this. Safe: the hardware has no such issue. -/
  | noTask
  deriving DecidableEq, Repr

/-- Why a step is refused. -/
inductive Refusal where
  /-- The instruction has no meaning yet. Raised by the refused arms of `exec` only. Safe. -/
  | notModelled (mnemonic : String)
  deriving DecidableEq, Repr

/-- A v register or a vector message: 512 bytes (R198). -/
abbrev VVal := BitVec 4096
/-- A mask register (R199). -/
abbrev MVal := BitVec 1024
/-- A 64-byte line. -/
abbrev LineVal := BitVec 512

/-! ### Slots -/

/-- The four states of a slot (R59). -/
inductive SlotState where
  | free | ready | parked | ending
  deriving DecidableEq, Repr

/-- What a parked slot waits for (R61, R72). -/
inductive Wait where
  | none | channel | tile | wrs | barwait | answer | queue | carter | rwait | inval | drain | space | page | assayer
  deriving DecidableEq, Repr

/-- An entry of an inbound channel queue (R210, R212): reserved until its message lands. -/
structure Msg where
  vec : Bool
  sender : Nat
  landed : Bool
  data : VVal
  deriving DecidableEq, Repr

/-- CHAN.IN or CHAN.OUT; COUNT is derived (R210). -/
structure Chan where
  en : Bool
  pend : Bool
  vec : Bool
  peer : BitVec 13
  deriving DecidableEq, Repr

/-- A tensor handle (R266). -/
structure Handle where
  valid : Bool
  daddr : Word
  desc : BitVec 1024
  deriving DecidableEq, Repr

/-- An entry of the region stack (R310). -/
structure Region where
  id : Nat
  handler : Word
  nonrev : Bool
  deriving DecidableEq, Repr

/-- A reservation on a line, intact or broken by a write (R155). -/
structure Resv where
  line : Nat
  broken : Bool
  deriving DecidableEq, Repr

/-- A line of the write-combining buffer (R149): its physical line and virtual line, its bytes and which of them are
buffered. -/
structure WcLine where
  line : Nat
  va : Nat
  data : LineVal
  mask : BitVec 64
  deriving DecidableEq, Repr

/-- An entry of the barrier registration table (R129). -/
structure BarReg where
  off : Nat
  phase : Option Bool
  deriving DecidableEq, Repr

/-- A pending entry of a reduction window (R375, R382), with the fabric address it contributes to: waiting until it has a status. -/
structure RPend where
  addr : Word
  pa : Nat
  id : Nat
  status : Option Nat
  result : Word
  deriving DecidableEq, Repr

/-- What an engine fault concerns, which makes an instruction a delivery point for it (R402). -/
inductive Named where
  | tile (t : Nat)
  | barrier (off : Nat)
  | opSlot (o : Nat)
  | handle (daddr : Nat)
  | matrix
  | weaver
  deriving DecidableEq, Repr

/-- An engine fault kept for delivery (R400, R402). -/
structure EngFault where
  code : Nat
  val : Word
  names : List Named
  deriving DecidableEq, Repr

/-- The operation that a parked slot has handed to another unit (R61, R323, R354, R381). -/
inductive OpKind where
  | resolve | accept | cclose | smigr | rwin | rclose | qput | inval | vector | compare | wrs | spill
  deriving DecidableEq, Repr

/-- A pending operation: what it is, the unit's number for it, what the instruction keeps, and its answer. -/
structure Pending where
  kind : OpKind
  id : Nat
  keep : List Nat
  answer : Option Nat
  deriving DecidableEq, Repr

/-- A hardware thread slot: all that R59 to R90 and the owning chapters give it. A FREE slot is `Slot.empty`. -/
structure Slot where
  st : SlotState
  wait : Wait
  pc : Word
  g : Tbl Word
  v : Tbl VVal
  m : Tbl MVal
  h : Tbl Handle
  e : Tbl Word
  mxctl : Word
  stat : BitVec 8
  prio : BitVec 4
  launchRec : Word
  launch : Nat
  index : Nat
  stepTask : Bool
  part : Word
  yieldLeft : BitVec 16
  trapVec : Word
  trapCause : Word
  trapVal : Word
  trapPc : Word
  trapRep : BitVec 6
  rm : BitVec 2
  fflags : Flags
  hypId : Nat
  impl : Bool
  regions : List Region
  spillwait : BitVec 32
  strmCur : BitVec 20
  batchPos : BitVec 6
  members : List Nat
  chanIn : Chan
  chanOut : Chan
  inq : List Msg
  asid : BitVec 16
  world : Bool
  resv : Option Resv
  wc : List WcLine
  barReg : List BarReg
  rpend : Tbl (Option RPend)
  engFaults : List EngFault
  savedPriv : Bool
  sysTrap : Bool
  timer : Option Nat
  fullVal : Word
  fullRep : Option Nat
  repFrom : Nat
  tretRep : Bool
  pend : Option Pending
  pairHash : Word
  pairSeq : Nat
  partner : Option Nat
  deriving DecidableEq, Repr

/-- A channel register with nothing bound. -/
def Chan.off : Chan := ⟨false, false, false, 0⟩

/-- A handle that holds nothing (R266). -/
def Handle.empty : Handle := ⟨false, 0, 0⟩

/-- MXCTL at task creation (R243). -/
def mxctlReset : Word := 0xC0BB#64

/-- A FREE slot, and the values a slot's registers hold after module reset: zero where the spec gives no value (log
entry 7), MXCTL and HYP.SPILLWAIT as their tables say (R243, R311). -/
def Slot.empty : Slot :=
  { st := .free, wait := .none, pc := 0, g := [], v := [], m := [], h := [], e := [], mxctl := mxctlReset, stat := 0,
    prio := 0, launchRec := 0, launch := 0, index := 0, stepTask := false, part := 0, yieldLeft := 0, trapVec := 0,
    trapCause := 0, trapVal := 0, trapPc := 0, trapRep := 0, rm := 0, fflags := 0, hypId := 0, impl := false,
    regions := [], spillwait := 65536, strmCur := 0, batchPos := 0, members := [], chanIn := .off, chanOut := .off,
    inq := [], asid := 0, world := false, resv := none, wc := [], barReg := [], rpend := [], engFaults := [],
    savedPriv := false, sysTrap := false, timer := none, fullVal := 0, fullRep := none, repFrom := 0, tretRep := false, pend := none,
    pairHash := 0, pairSeq := 0, partner := none }

/-- Whether a line's check value holds (R143, R145): it does, a single-bit error waits to be corrected by the next read, the
check value mismatches, a word is uncorrectable, or the line is poisoned. -/
inductive LineCheck where
  | good | single | mismatch | ecc | poisoned
  deriving DecidableEq, Repr

/-! ### Cores and cells -/

/-- The states of a tile (R116). -/
inductive TileState where
  | empty | filling | ready | draining
  deriving DecidableEq, Repr

/-- A tile's entry: its state and its owner, 0 none, 1 a Carter, 2 the matrix unit (R123). -/
structure Tile where
  st : TileState
  owner : Nat
  deriving DecidableEq, Repr

/-- A place in memory an access was checked for: a fabric address with the virtual address it was reached by, or a byte of
the stream window of a stream, which its serial number tells from another that takes its id later (R133, R338). -/
inductive Place where
  | mem (pa va : Nat) (cached : Bool)
  | win (strm serial off : Nat)
  deriving DecidableEq, Repr

/-- A queue entry of the vector unit: the instruction with its stepped fields, and what its issue captured (R203): the rounding
mode, ASID, HYP.CUR.ID, the g operands, the popped message, and for each active element its bit, 8·i + the bit within its byte,
with its place. For `tld` and `tst` also the descriptor, the places of the E and μ bytes of each group, the elements' conversion
units that a write is admitted to (R273). `rep` is its repeat of a sequence, `dest` the slot in whose inbound queue it reserved an
entry, `held` whether its issue is held until it completes (R205). -/
structure VEntry where
  slot : Nat
  instr : Instr
  rm : BitVec 2
  asid : BitVec 16
  hyp : Nat
  gs : List Word
  msg : Option VVal
  places : List (Nat × Place)
  desc : BitVec 1024
  exps : List (Nat × Place)
  admits : List (Nat × Nat)
  rep : Option Nat
  dest : Option Nat
  held : Bool
  granted : Bool
  deriving DecidableEq, Repr

/-- A queue entry of the matrix unit: the instruction, what its issue captured, the block steps of `mxmul` or the lines of a PAIRED
`mxstore` done, and its number in the order of the queue (R241, R249, R254). -/
structure MEntry where
  slot : Nat
  instr : Instr
  mxctl : Word
  rm : BitVec 2
  asid : BitVec 16
  hyp : Nat
  ga : Word
  gb : Word
  places : List Place
  blocks : Nat
  order : Nat
  deriving DecidableEq, Repr

/-- A scalar core and its pool (R60, R111 to R131, R203, R241). Tiles are keyed by index, scratchpad by offset,
accumulator bytes by 32,768·c + offset. `poison` is
keyed by tile entry (R145). -/
structure Core where
  rot : BitVec 3
  part : Word
  tiles : Tbl Tile
  scratch : Tbl Byte
  acc : Tbl Byte
  poison : Tbl LineCheck
  vq : List VEntry
  mq : List MEntry
  mnext : Nat
  deriving DecidableEq, Repr

/-- A tile as R114 leaves it. -/
def Tile.empty : Tile := ⟨.empty, 0⟩

/-- A core after module reset: rotation pointer 7 (R60), pool zero and EMPTY (R114, R416). -/
def Core.reset : Core :=
  { rot := 7, part := 0, tiles := [], scratch := [], acc := [], poison := [], vq := [], mq := [], mnext := 0 }

/-- An operand slot (R239, R240): its holding core, READY or EMPTY, its 64 rows of 576 bytes, and whether a word of it
fails (R145, R256). -/
structure OpSlot where
  holder : Option Nat
  ready : Bool
  data : Tbl Byte
  check : LineCheck
  deriving DecidableEq, Repr

/-- A FREE operand slot. -/
def OpSlot.free : OpSlot := ⟨none, false, [], .good⟩

/-- An arbiter: the turn, the grants left of it, and the weight-0 core last served (R208, R251). -/
structure Arbiter where
  turn : BitVec 3
  left : Nat
  served : BitVec 3
  deriving DecidableEq, Repr

/-- A cell: its operand slots, its two arbiters, and the core bound to each lane group (R207, R208, R239, R251). -/
structure Cell where
  slots : Tbl OpSlot
  varb : Arbiter
  marb : Arbiter
  lanes : List Nat
  deriving DecidableEq, Repr

/-- A cell after module reset (R208, R251). -/
def Cell.reset : Cell := { slots := [], varb := ⟨7, 0, 7⟩, marb := ⟨7, 0, 7⟩, lanes := [] }

/-! ### Memory -/

/-- An L1 line of a cell (R133, R312): virtual line and ASID, the physical line it was filled from, its hypothesis tag, 0
for the architectural copy, its bytes, and the valid, dirty and owned masks. -/
structure L1Line where
  cell : Nat
  asid : BitVec 16
  va : Nat
  pa : Nat
  hyp : Nat
  data : LineVal
  valid : BitVec 64
  dirty : BitVec 64
  owned : BitVec 16
  check : LineCheck
  deriving DecidableEq, Repr

/-- A version-store entry of a line under a hypothesis (R311, R312). -/
structure Version where
  line : Nat
  hyp : Nat
  data : LineVal
  mask : BitVec 64
  check : LineCheck
  deriving DecidableEq, Repr

/-- An entry of a translation holder: cells are holders 0 to 511, dies 512 to 515 (R395). -/
structure TlbEntry where
  holder : Nat
  asid : BitVec 16
  vpage : Nat
  level : Nat
  pte : Word
  deriving DecidableEq, Repr

/-- A miss entry of a die (R395): its ASID and virtual address bits [55:16], and the cells whose misses have joined it. -/
structure Miss where
  die : Nat
  asid : BitVec 16
  vpage : Nat
  cells : List Nat
  deriving DecidableEq, Repr

/-- An entry of a die's walk cache (R395): the local address of the table that a level's walk reads for the addresses with a prefix. -/
structure WalkEntry where
  die : Nat
  asid : BitVec 16
  level : Nat
  path : Nat
  table : Nat
  deriving DecidableEq, Repr

/-- The memory system. `mem` is keyed by fabric address, `check` by line, `owner` by word, the value being the owning cell
plus 1, `region` by 2 MiB granule of fabric addresses; `misses` stand in the order in which they came. -/
structure MemSys where
  mem : List Host.Cell
  check : Tbl LineCheck
  l1 : List L1Line
  owner : Tbl Nat
  versions : List Version
  region : Tbl Bool
  tlb : List TlbEntry
  misses : List Miss
  walkCache : List WalkEntry
  elogHead : Tbl Nat
  elogLost : Tbl Nat
  elogCount : Tbl Nat
  deriving DecidableEq, Repr

def MemSys.reset : MemSys :=
  { mem := [], check := [], l1 := [], owner := [], versions := [], region := [], tlb := [], misses := [],
    walkCache := [], elogHead := [], elogLost := [], elogCount := [] }

/-! ### Hypotheses -/

/-- The states of a hypothesis (R308). -/
inductive HypState where
  | free | opened | confirmed | refuted
  deriving DecidableEq, Repr

/-- A record of the hypothesis table (R308, R322), with the dies whose sweep is still owed (R315, R316). -/
structure Hyp where
  st : HypState
  region : Bool
  parent : Nat
  depth : Nat
  asid : BitVec 16
  nonrev : Bool
  busy : Bool
  sweep : BitVec 4
  deriving DecidableEq, Repr

/-- A FREE record. -/
def Hyp.free : Hyp := ⟨.free, false, 0, 0, 0, false, false, 0⟩

/-- A request at the resolver (R323). -/
structure HypReq where
  id : Nat
  slot : Nat
  target : Nat
  confirm : Bool
  excl : Bool
  asid : BitVec 16
  deriving DecidableEq, Repr

/-- The phase of a resolution (R324). -/
inductive HypPhase where
  | prepare | apply
  deriving DecidableEq, Repr

/-- The resolution in progress: its request, its phase, the dies that have acknowledged it, the hypotheses it affects, and the lines with
a staged entry, whose homes hold every access to them (R324). -/
structure Resolution where
  req : HypReq
  phase : HypPhase
  acks : BitVec 4
  affected : List Nat
  staged : List Nat
  deriving DecidableEq, Repr

/-- The hypothesis mechanism. Ids never used yet come in ascending order from `next`; then freed ids in `freed`'s order
(R308, R320). `written` is what the resolver last stored to each record of the table in memory (R308). -/
structure HypSys where
  table : Tbl Hyp
  next : Nat
  freed : List Nat
  queue : List HypReq
  cur : Option Resolution
  written : Tbl Nat
  deriving DecidableEq, Repr

def HypSys.reset : HypSys := { table := [], next := 1, freed := [], queue := [], cur := none, written := [] }

/-! ### Engines -/

/-- The three forms of a copy (R300). -/
inductive CpyForm where
  | mm | mt | tm
  deriving DecidableEq, Repr

/-- The captured geometry of a copy (R299). -/
structure Geometry where
  run : Nat
  n : List Nat
  s : List Int
  t : List Int
  deriving DecidableEq, Repr

/-- A Carter command (R301 to R304): `tiles` are the tiles it fills or drains, `twin` the shadow's core of a pair (R412).
`slot` is none for a COPY packet, whose queue `queue` names by the QCB's fabric address, the packet's index and INTR. `serial` is the serial number of stream `strm` at issue, 0 for
none. `timer` is the end of a wait for a window page (R339), `faulted` says that
the command has faulted (R402). -/
structure CarterCmd where
  id : Nat
  die : Nat
  carter : Nat
  form : CpyForm
  geo : Geometry
  src : Nat
  dst : Nat
  bar : Option Nat
  signal : Nat
  slot : Option Nat
  core : Nat
  asid : BitVec 16
  sys : Bool
  world : Bool
  hyp : Nat
  strm : Nat
  serial : Nat
  launch : Nat
  done : Nat
  tiles : List Nat
  twin : Option Nat
  queue : Option (Nat × Nat × Nat)
  timer : Option Nat
  faulted : Bool
  deriving DecidableEq, Repr

/-- An active relayout (R271 to R276). `slot` is the task that issued it, none once it has quit; `taken` are the bytes of the claimed unit,
as the old storage held them when it was claimed. -/
structure Relayout where
  die : Nat
  daddr : Nat
  descPa : Nat
  slot : Option Nat
  launch : Nat
  asid : BitVec 16
  sys : Bool
  world : Bool
  old : BitVec 1024
  tag : BitVec 32
  dims : List Nat
  newBase : Nat
  bitmap : Nat
  units : Nat
  claimed : Option Nat
  taken : Nat
  done : Nat
  admitted : Tbl Nat
  suspended : Bool
  deriving DecidableEq, Repr

/-- Engines: Carter commands and relayouts, in order of issue. -/
structure EngSys where
  cmds : List CarterCmd
  relayouts : List Relayout
  nextCmd : Nat
  deriving DecidableEq, Repr

def EngSys.reset : EngSys := { cmds := [], relayouts := [], nextCmd := 0 }

/-! ### Launches -/

/-- A launch open on the package (R62 to R84, R286, R287). Addresses are virtual in `asid` where a packet names them and
fabric where the model keeps them translated. Indices below `handed` have gone to die distributors, `left` indices are still to
be created, `chunks` holds those a die has received, `reissue` those to be placed again, `readyq` those a ready queue holds. `tableDies`
are the live dies of the launch at its acceptance, over which its counters are spread (R79). -/
structure Launch where
  number : Nat
  order : Nat
  recAddr : Nat
  recVa : Word
  signal : Option Nat
  pc : Word
  args : Word
  part : Word
  budget : BitVec 16
  sx : Nat
  sy : Nat
  sz : Nat
  quota : Nat
  prio : BitVec 4
  vw : Nat
  mw : Nat
  keymode : Nat
  chmode : Nat
  world : Bool
  sys : Bool
  dies : BitVec 4
  dep : Bool
  paired : Bool
  reissuable : Bool
  asid : BitVec 16
  master : Nat
  acceptedDies : BitVec 4
  tableDies : BitVec 4
  acceptedMaster : Nat
  handed : Nat
  left : Nat
  chunks : Tbl (List Nat)
  reissue : List Nat
  counters : Tbl Nat
  keys : Tbl Nat
  readyq : Tbl (List Nat)
  place : Tbl Nat
  finished : List (Nat × Nat)
  queue : Option (Nat × Nat × Nat)
  faulted : Bool
  lost : Bool
  preempted : BitVec 4
  deriving DecidableEq, Repr

/-- The shared parts of a saved core (R131, R257, R406). -/
structure SavedCore where
  part : Word
  tiles : Tbl Tile
  scratch : Tbl Byte
  acc : Tbl Byte
  poison : Tbl LineCheck
  opSlots : List (Nat × OpSlot)
  deriving DecidableEq, Repr

/-- The contexts of a launch saved on a core: the core, the launch, its slots, the live masks, the Carter commands stopped with them,
and, once the core has no task left, the shared parts and the number that the contexts saved with them share, 0 before that (R304, R406,
R407). A saved slot's number is 2^15 times a number of its own, plus its TASK.ID. -/
structure SavedCtx where
  core : Nat
  launch : Nat
  slots : List (Nat × Slot)
  masks : BitVec 24
  cmds : List CarterCmd
  shared : Option SavedCore
  bundle : Nat
  deriving DecidableEq, Repr

/-- A finish that a master still owes: launch, index, implicit region, and whether it confirms (R68, R82). -/
structure Finish where
  launch : Nat
  index : Nat
  region : Nat
  confirm : Bool
  deriving DecidableEq, Repr

/-- Launches and saved contexts. `preempt` lists the pairs of launch number and die whose pre-emption is requested (R405),
`worst` the largest status of the ended children of an open record, by its fabric address (R74); `nextSaved` numbers saved slots and
saved cores. -/
structure LaunchSys where
  launches : List Launch
  accepted : Nat
  saved : List SavedCtx
  preempt : List (Nat × Nat)
  finishing : List Finish
  worst : Tbl Nat
  nextSaved : Nat
  deriving DecidableEq, Repr

def LaunchSys.reset : LaunchSys :=
  { launches := [], accepted := 0, saved := [], preempt := [], finishing := [], worst := [], nextSaved := 1 }

/-! ### Streams -/

/-- The states of a stream (R335). -/
inductive StrmState where
  | dead | idle | waiting | stepping
  deriving DecidableEq, Repr

/-- A stream record (R335). Streams are keyed by ASID·2^20 + id; `serial` is the model's own number of the stream, never used twice. -/
structure Stream where
  st : StrmState
  serial : Nat
  home : Nat
  launch : Nat
  stepPc : Word
  map : Nat
  ring : List LineVal
  horizon : BitVec 32
  ret : BitVec 32
  returned : Bool
  group : Option Nat
  deriving DecidableEq, Repr

/-- A stream id that names nothing. -/
def Stream.none : Stream := ⟨.dead, 0, 0, 0, 0, 0, [], 0, 0, false, .none⟩

/-- A page map: 64 page ids and a reference count (R335). -/
structure PageMap where
  pages : Tbl Nat
  refs : Nat
  deriving DecidableEq, Repr

/-- A state page (R334): its bytes, its reference count, its home die, whether it is spilled, whether an access waits for
its reload, and when it was last used. -/
structure Page where
  data : Tbl Byte
  refs : Nat
  home : Nat
  spilled : Bool
  wanted : Bool
  used : Nat
  deriving DecidableEq, Repr

def PageMap.empty : PageMap := ⟨[], 0⟩
def Page.none : Page := ⟨[], 0, 0, false, false, 0⟩

/-- A batch that waits for a core (R350). -/
structure Batch where
  die : Nat
  launch : Nat
  stepPc : Word
  members : List Nat
  deriving DecidableEq, Repr

/-- A join group at a Winnower (R352). -/
structure Group where
  die : Nat
  op : Nat
  members : List Nat
  resultPa : Nat
  deriving DecidableEq, Repr

/-- Streams. `waiting` lists the WAITING streams in the order they became so, with the cycle at which they did. -/
structure StrmSys where
  streams : Tbl Stream
  maps : Tbl PageMap
  pages : Tbl Page
  waiting : List (Nat × Nat)
  batches : List Batch
  groups : Tbl (Option Group)
  nextSerial : Nat
  deriving DecidableEq, Repr

def StrmSys.reset : StrmSys :=
  { streams := [], maps := [], pages := [], waiting := [], batches := [], groups := [], nextSerial := 1 }

/-! ### Windows and fabric -/

/-- A contribution to a reduction window (R378): `origins` are the contributing slots that its delivery retraces, with the number
of each contribution; `held` says that a router still holds it for a partner. -/
structure Contribution where
  pa : Nat
  op : RedOp
  gen : Word
  count : Nat
  value : Word
  origins : List (Nat × Nat)
  dies : List Nat
  held : Bool
  deriving DecidableEq, Repr

/-- An open window at its home (R378): two generations of values, counts and contributions, keyed by element;
`doomed` says that the next generation has ended, aborted, before the current one (R379, R385). -/
structure Window where
  base : Nat
  len : Nat
  expected : Nat
  timeout : Nat
  genPa : Nat
  op : RedOp
  gen : Word
  acc0 : Tbl (Option Word)
  acc1 : Tbl (Option Word)
  cnt0 : Tbl Nat
  cnt1 : Tbl Nat
  from0 : List Contribution
  from1 : List Contribution
  timer : Bool
  doomed : Bool
  deriving DecidableEq, Repr

/-- A delivery on its way to a contributing slot (R378, R383). -/
structure Delivery where
  slot : Nat
  id : Nat
  status : Nat
  result : Word
  deriving DecidableEq, Repr

/-- What a package number names (R369). -/
inductive PkgEntry where
  | absent
  | coords (x y z : Nat)
  | host (pkg port : Nat) (world : Bool)
  deriving DecidableEq, Repr

/-- What a flit says (R297, R371 to R373, R385, R417). -/
inductive FlitBody where
  | request (id pkg : Nat) (words : List Nat)
  | response (pkg : Nat) (words : List Nat)
  | contribution (pkg : Nat) (words : List Nat)
  | delivery (pkg : Nat) (words : List Nat)
  | interrupt (pkg vector qcb index : Nat)
  | notice (pkg : Nat) (die : Nat)
  | announce (pkg : Nat) (words : List Nat)
  | pause (channel : Nat)
  | resume (channel : Nat)
  deriving DecidableEq, Repr

/-- A flit that leaves the package (R19, R372, R373): what it says, the port and the virtual channel it travels on, the compute die by
which it enters the port's fabric die, and the line check value it carries where it answers with bytes of a line. -/
structure OutFlit where
  body : FlitBody
  port : Nat
  channel : Nat
  via : Nat
  check : Option (BitVec 32)
  deriving DecidableEq, Repr

/-- A fabric port (R372, R373): the virtual channels on which it may not send, those on which it has asked the other end to pause, and
the failed retries in a row. -/
structure Port where
  up : Bool
  paused : BitVec 8
  asked : BitVec 8
  retries : Nat
  deriving DecidableEq, Repr

def Port.down : Port := ⟨false, 0, 0, 0⟩

/-- Reduction windows, the package table, ports and what is on its way. `held` are flits that wait for a paused channel, each with the
port and channel by which it came, if it did; `downLinks` are the links of other packages known to be down, 8·package + port; `lost`
the fenced dies of other packages, 4·package + die. -/
structure WinSys where
  windows : Tbl (Option Window)
  flying : List Contribution
  deliveries : List Delivery
  packages : Tbl PkgEntry
  own : Nat
  place : Nat × Nat × Nat
  torus : Nat × Nat × Nat
  ports : Tbl Port
  out : List OutFlit
  held : List (OutFlit × Option (Nat × Nat))
  downLinks : List Nat
  lost : List Nat
  nextId : Nat
  fabricDies : BitVec 2
  deriving DecidableEq, Repr

def WinSys.reset : WinSys :=
  { windows := [], flying := [], deliveries := [], packages := [], own := 0, place := (0, 0, 0), torus := (1, 1, 1),
    ports := [], out := [], held := [], downLinks := [], lost := [], nextId := 1, fabricDies := 3 }

/-! ### Queues -/

/-- What blocks a Factor thread (R285). -/
inductive Blocked where
  | no
  | launch
  | waitLe (sig : Nat) (value : Int)
  | allZero (sigs : List Nat)
  | barrier
  deriving DecidableEq, Repr

/-- A replay in progress: its begin index, COUNT, STOP and the ITER word's address (R289). -/
structure Replay where
  start : Nat
  count : Nat
  stop : Nat
  iterWord : Nat
  iter : Nat
  deriving DecidableEq, Repr

/-- A queue of a die's queue table, as its thread and the scheduler hold it (R278 to R295). It is keyed by die·1024 +
entry. `qcb` is a fabric address; `notified` and `restart` are what stores to NOTIFY have left to act on (R431); `packet` is the
published packet that the thread has read at `next` (R283); `waitingSince` is when it last read a header, or became runnable. -/
structure Queue where
  qcb : Nat
  mapped : Bool
  runnable : Bool
  waitingSince : Nat
  next : Nat
  blocked : Blocked
  replay : Option Replay
  unmapping : Bool
  notified : Bool
  restart : Bool
  packet : Option Nat
  deriving DecidableEq, Repr

/-- The queues, and the packets in flight, each by the fabric address of its QCB and its index, whether or not a table still lists
the queue (R285, R297). -/
structure FacSys where
  queues : Tbl (Option Queue)
  inFlight : List (Nat × Nat)
  deriving DecidableEq, Repr

def FacSys.reset : FacSys := { queues := [], inFlight := [] }

/-! ### Platform -/

/-- A further firmware image that the first stage verifies: its security version, whether its signature verifies, its digest (R417). -/
structure Firmware where
  version : Nat
  signed : Bool
  digest : Nat
  deriving DecidableEq, Repr

/-- An image slot in flash: the first-stage image, and the further images (R417, R418). -/
structure Image where
  version : Nat
  present : Bool
  signed : Bool
  digest : Nat
  further : List Firmware
  deriving DecidableEq, Repr

/-- Tables whose addresses the boot information block gives (R419). -/
structure FwTables where
  asidTab : Nat
  hypTab : Nat
  sysHnd : Nat
  qtab : Tbl Nat
  elog : Tbl Nat
  inject : Tbl Nat
  versionMiB : Nat
  pageMiB : Nat
  spillMiB : Nat
  generation : Nat
  deriving DecidableEq, Repr

def FwTables.none : FwTables :=
  { asidTab := 0, hypTab := 0, sysHnd := 0, qtab := [], elog := [], inject := [], versionMiB := 0, pageMiB := 0,
    spillMiB := 0, generation := 0 }

/-- The packets of a PAIRED copy that an Assayer holds, in order: the number of the first, and H after each (R409 to R411). -/
structure PairPacket where
  slot : Nat
  seq : Nat
  hashes : List Word
  since : Nat
  deriving DecidableEq, Repr

/-- Module services (R413 to R428). Core, vector and matrix quarantine bits are keyed by core and by cell; `active` is the image slot
that runs, true for B, and `fresh` says that the other slot holds an update not tried yet; `raised` is the cycle at which a die's clock
last rose (R425). -/
structure Platform where
  clk : Tbl Nat
  live : BitVec 4
  quarCore : Tbl Bool
  quarVec : Tbl Bool
  quarMat : Tbl Bool
  stage : Nat
  recovery : Bool
  powered : Bool
  active : Bool
  fresh : Bool
  imageA : Image
  imageB : Image
  fusedSvn : Nat
  fw : FwTables
  otsIndex : Nat
  otsFuse : Nat
  otsPending : Bool
  otsNonce : Nat
  cap : Nat
  step16 : Tbl Nat
  raised : Tbl (Option Nat)
  temps : Tbl Nat
  coolantLost : Bool
  replies : List (Nat × List Nat)
  pairs : List PairPacket
  deriving DecidableEq, Repr

/-- An image slot that holds nothing. -/
def Image.none : Image := ⟨0, false, false, 0, []⟩

/-- Reset (R413, R416, R417): quarantine clear, boot not begun, clocks 0, arithmetic clock 16/16 of 1.9 GHz (a table that
lists nothing reads 16). What flash and fuses hold is not stated: log entry 7. -/
def Platform.reset : Platform :=
  { clk := [], live := 15, quarCore := [], quarVec := [], quarMat := [], stage := 0, recovery := false, powered := true,
    active := false, fresh := false, imageA := ⟨1, true, true, 0, []⟩, imageB := ⟨1, true, true, 0, []⟩, fusedSvn := 0, fw := .none,
    otsIndex := 0, otsFuse := 0, otsPending := false, otsNonce := 0, cap := 4200, step16 := [], raised := [], temps := [], coolantLost := false,
    replies := [], pairs := [] }

/-! ### The machine -/

/-- An event that comes next, with what selects it and what comes with it from outside (log entry 3). -/
structure Scheduled where
  event : Instr
  args : List Nat
  deriving DecidableEq, Repr

/-- The state of one package. `agenda`, `ev`, `cur`, `turn`, `early` and `free` are the model's own (log entries 3 to 5); `early` lists
the cores that have issued in this cycle before their turn (R240). -/
structure State where
  agenda : List Scheduled
  ev : List Nat
  cur : Nat
  turn : Nat
  early : List Nat
  free : Nat
  slots : Tbl Slot
  cores : Tbl Core
  cells : Tbl Cell
  ms : MemSys
  hyps : HypSys
  ls : LaunchSys
  ss : StrmSys
  es : EngSys
  ws : WinSys
  fs : FacSys
  pf : Platform
  deriving DecidableEq, Repr

/-- The machine right after module reset (R416). -/
def State.reset : State :=
  { agenda := [], ev := [], cur := 0, turn := 0, early := [], free := 0, slots := [], cores := [], cells := [], ms := .reset,
    hyps := .reset, ls := .reset, ss := .reset, es := .reset, ws := .reset, fs := .reset, pf := .reset }

end Sys2Proof.Machine
end

