-- ==== Sys2Proof/Machine/Base.lean ====
section
/-!
DEFINITION. Trap causes, the result type of an instruction's body, and access to the parts of the state by number.
-/

namespace Sys2Proof.Machine

/-- The causes an instruction raises (R399). -/
inductive Cause where
  | illegal | tretState | userTrap | sysCall
  | memRange | memAlign | memUnbacked | memReplica | memLost | fabUnreach
  | memIntegrity | worldAccess
  | transAsid | transNotmapped | transFormat | transPerm | transHyp | invalArg
  | tileRange | tileAlign | tileEmpty | tileState
  | barConfig | barArrive | barRegfull | barCorrupt | barOverflow
  | chanOff | chanType | chanBind
  | mxConfig | mxNotheld
  | cpyConfig | queueConfig | rwinConfig
  | tensorDesc | tensorHandle | tensorArg | tensorView | tensorBusy
  | hypId | hypState | hypKind | hypDepth | hypFull | hypAtomic | hypRemote | hypRelayout | versionFull | accArg
  | strmId | strmArg | strmWindow | strmHyp | strmFull
  | yieldOverrun | yieldMask
  | depUnderflow | depNotdep | depRange | spawnTarget | spawnReissue
  | redundancy | cancel | cancelObject | orphan
  deriving DecidableEq, Repr

/-- The 8-bit code of a cause (R399). -/
def Cause.code : Cause → Nat
  | .illegal => 0x01 | .tretState => 0x02 | .userTrap => 0x03 | .sysCall => 0x04
  | .memRange => 0x10 | .memAlign => 0x11 | .memUnbacked => 0x12 | .memReplica => 0x13 | .memLost => 0x14
  | .fabUnreach => 0x15 | .memIntegrity => 0x18 | .worldAccess => 0x19
  | .transAsid => 0x20 | .transNotmapped => 0x21 | .transFormat => 0x22 | .transPerm => 0x23 | .transHyp => 0x24
  | .invalArg => 0x25
  | .tileRange => 0x28 | .tileAlign => 0x29 | .tileEmpty => 0x2A | .tileState => 0x2B
  | .barConfig => 0x2C | .barArrive => 0x2D | .barRegfull => 0x2E | .barCorrupt => 0x2F | .barOverflow => 0x30
  | .chanOff => 0x34 | .chanType => 0x35 | .chanBind => 0x36
  | .mxConfig => 0x38 | .mxNotheld => 0x39
  | .cpyConfig => 0x3C | .queueConfig => 0x3D | .rwinConfig => 0x3E
  | .tensorDesc => 0x40 | .tensorHandle => 0x41 | .tensorArg => 0x42 | .tensorView => 0x43 | .tensorBusy => 0x44
  | .hypId => 0x48 | .hypState => 0x49 | .hypKind => 0x4A | .hypDepth => 0x4B | .hypFull => 0x4C | .hypAtomic => 0x4D
  | .hypRemote => 0x4E | .hypRelayout => 0x4F | .versionFull => 0x50 | .accArg => 0x51
  | .strmId => 0x54 | .strmArg => 0x55 | .strmWindow => 0x56 | .strmHyp => 0x57 | .strmFull => 0x58
  | .yieldOverrun => 0x5C | .yieldMask => 0x5D
  | .depUnderflow => 0x60 | .depNotdep => 0x61 | .depRange => 0x62 | .spawnTarget => 0x63 | .spawnReissue => 0x64
  | .redundancy => 0x68 | .cancel => 0x6C | .cancelObject => 0x6D | .orphan => 0x70

/-- The ECAUSE field of an engine fault for the code of a direct cause (R400); 0, MEM.INTEGRITY, for any other. -/
def ecauseOf (code : Nat) : Nat :=
  match code with
  | 0x12 => 1 | 0x14 => 2 | 0x15 => 3 | 0x19 => 4 | 0x20 => 5 | 0x21 => 6 | 0x22 => 7 | 0x23 => 8 | 0x24 => 9
  | 0x50 => 10 | 0x4E => 11 | 0x30 => 12 | 0x56 => 13 | 0x58 => 14 | 0x68 => 15
  | _ => 0

/-- The code of an engine fault for a command and the code of the direct cause (R400). -/
def engineCode (command code : Nat) : Nat := 0x80 + command * 16 + ecauseOf code

/-- The codes that go to the system handler, in their direct and engine forms (R403). -/
def isSystemCode (code : Nat) : Bool :=
  code == 0x04 || (0x20 ≤ code && code ≤ 0x24) || (0x80 ≤ code && 5 ≤ code % 16 && code % 16 ≤ 9)
/-- MEM.INTEGRITY, direct or from an engine (R330, R400). -/
def isIntegrityCode (code : Nat) : Bool := code == 0x18 || (0x80 ≤ code && code % 16 == 0)
/-- REDUNDANCY, direct or from an engine (R330, R400). -/
def isRedundancyCode (code : Nat) : Bool := code == 0x68 || (0x80 ≤ code && code % 16 == 15)

/-- How a body ends before its instruction is done: a trap, with TRAP.VAL where the spec states one, or a wait. -/
inductive Stop where
  | trap (code : Nat) (val : Option Word)
  | park (w : Wait)
  deriving DecidableEq, Repr

/-- The body of an instruction or event. The state at a stop keeps the effects that survive it (R10). -/
abbrev M (α : Type) := EStateM Stop State α

/-- RaiseTrap with the value the spec states (R10). -/
def raise {α : Type} (c : Cause) (val : Word) : M α := throw (.trap c.code (some val))
/-- RaiseTrap where the spec states no TRAP.VAL: the value is free (log entry 5). -/
def raiseFree {α : Type} (c : Cause) : M α := throw (.trap c.code none)
/-- The slot waits (R61). -/
def park {α : Type} (w : Wait) : M α := throw (.park w)
/-- RaiseTrap unless a check holds. -/
def check (ok : Bool) (c : Cause) (val : Word) : M Unit := if ok then pure () else raise c val
/-- RaiseTrap without a stated value unless a check holds. -/
def checkFree (ok : Bool) (c : Cause) : M Unit := if ok then pure () else raiseFree c
/-- Wait unless a condition holds. -/
def waitFor (ok : Bool) (w : Wait) : M Unit := if ok then pure () else park w
/-- Run a body on a list, in order. -/
def eachM {α : Type} (f : α → M Unit) : List α → M Unit
  | [] => pure ()
  | a :: r => do f a; eachM f r
/-- Results of a body on a list, in order. -/
def mapEach {α β : Type} (f : α → M β) : List α → M (List β)
  | [] => pure []
  | a :: r => do
    let b ← f a
    let bs ← mapEach f r
    pure (b :: bs)

/-- A list without its later repetitions. -/
def firsts (l : List Nat) : List Nat := l.foldl (fun m b => if m.contains b then m else m ++ [b]) []

/-- What a body gave: its value, or the stop it ended with, the state kept either way. -/
def attempt {α : Type} (x : M α) : M (Except Stop α) := fun s =>
  match x s with
  | .ok a s' => .ok (.ok a) s'
  | .error e s' => .ok (.error e) s'

/-- The state after a body, whatever it ended with. -/
def runM (x : M Unit) (s : State) : State :=
  match x s with
  | .ok _ s' => s'
  | .error _ s' => s'

/-- The body, or the state before it when it stops. -/
def orUndo (x : M Unit) : M Unit := fun s =>
  match x s with
  | .ok a s' => .ok a s'
  | .error _ _ => .ok () s

/-! ### Parts of the state by number -/

/-- The slot with a TASK.ID. -/
def State.slot (s : State) (t : Nat) : Slot := tblGet .empty s.slots t
/-- The state with a slot replaced. -/
def State.setSlot (s : State) (t : Nat) (x : Slot) : State := { s with slots := tblSet .empty s.slots t x }
/-- The core with a global number (R4). -/
def State.core (s : State) (c : Nat) : Core := tblGet .reset s.cores c
def State.setCore (s : State) (c : Nat) (x : Core) : State := { s with cores := tblSet .reset s.cores c x }
/-- The cell with a global number, die·128 + cell (R4). -/
def State.cell (s : State) (c : Nat) : Cell := tblGet .reset s.cells c
def State.setCell (s : State) (c : Nat) (x : Cell) : State := { s with cells := tblSet .reset s.cells c x }

/-- The core, cell and die of a TASK.ID, and the die-local slot number (R4, R90, R210). -/
def coreOf (t : Nat) : Nat := t / 8
def cellOf (t : Nat) : Nat := t / 64
def dieOf (t : Nat) : Nat := t / 8192
def localSlot (t : Nat) : Nat := t % 8192
/-- The slot of a die with a die-local number. -/
def peerOf (t : Nat) (p : BitVec 13) : Nat := 8192 * dieOf t + p.toNat

/-- The TASK.IDs of the occupied slots, ascending. -/
def State.tasks (s : State) : List Nat := (s.slots.filter fun x => x.2.st ≠ .free).map (·.1)
/-- The occupied slots of a core. -/
def State.tasksOn (s : State) (core : Nat) : List Nat := s.tasks.filter fun t => coreOf t = core

/-- Whether a die is live (R25). -/
def State.live (s : State) (d : Nat) : Bool := s.pf.live.getLsbD d
/-- The live dies, ascending. -/
def State.liveDies (s : State) : List Nat := (List.range 4).filter s.live
/-- The lowest-numbered live die; 0 when none is (R308, R417). -/
def State.firstDie (s : State) : Nat := (s.liveDies.head?).getD 0

/-- CLK.CYCLE of a die (R90). -/
def State.clock (s : State) (d : Nat) : Nat := tblGet 0 s.pf.clk d

/-- The slot whose instruction runs. -/
def curSlot : M Slot := do pure ((← get).slot (← get).cur)
/-- The TASK.ID of the slot whose instruction runs. -/
def curId : M Nat := do pure (← get).cur
/-- A change of the slot whose instruction runs. -/
def modSlot (f : Slot → Slot) : M Unit := modify fun s => s.setSlot s.cur (f (s.slot s.cur))
/-- A change of a slot. -/
def modSlotAt (t : Nat) (f : Slot → Slot) : M Unit := modify fun s => s.setSlot t (f (s.slot t))
/-- The core of the slot whose instruction runs. -/
def curCore : M Core := do pure ((← get).core (coreOf (← get).cur))
/-- A change of that core. -/
def modCore (f : Core → Core) : M Unit := modify fun s => s.setCore (coreOf s.cur) (f (s.core (coreOf s.cur)))
def modCoreAt (c : Nat) (f : Core → Core) : M Unit := modify fun s => s.setCore c (f (s.core c))
def modMs (f : MemSys → MemSys) : M Unit := modify fun s => { s with ms := f s.ms }
def modHyps (f : HypSys → HypSys) : M Unit := modify fun s => { s with hyps := f s.hyps }
def modLs (f : LaunchSys → LaunchSys) : M Unit := modify fun s => { s with ls := f s.ls }
def modSs (f : StrmSys → StrmSys) : M Unit := modify fun s => { s with ss := f s.ss }
def modEs (f : EngSys → EngSys) : M Unit := modify fun s => { s with es := f s.es }
def modWs (f : WinSys → WinSys) : M Unit := modify fun s => { s with ws := f s.ws }
def modFs (f : FacSys → FacSys) : M Unit := modify fun s => { s with fs := f s.fs }
def modPf (f : Platform → Platform) : M Unit := modify fun s => { s with pf := f s.pf }

/-- A value the spec leaves open: the free word at the counter, which advances (log entry 5). -/
def freshWord : M Word := fun s => .ok (Config.freeWord s.free) { s with free := s.free + 1 }

/-- An operand of the event that runs; 0 where the schedule gives none. -/
def evArg (i : Nat) : M Nat := do pure (((← get).ev[i]?).getD 0)
/-- The operands of the event from a position on. -/
def evRest (i : Nat) : M (List Nat) := do pure ((← get).ev.drop i)

/-! ### TASK.STAT (R90) -/

def Slot.priv (x : Slot) : Bool := x.stat.getLsbD 0
def Slot.oob (x : Slot) : Bool := x.stat.getLsbD 2
def Slot.intrap (x : Slot) : Bool := x.stat.getLsbD 4
def Slot.cancelled (x : Slot) : Bool := x.stat.getLsbD 5
def Slot.reissued (x : Slot) : Bool := x.stat.getLsbD 6
def Slot.shadow (x : Slot) : Bool := x.stat.getLsbD 7
/-- A bit of TASK.STAT set or cleared. -/
def setStatBit (st : BitVec 8) (i : Nat) (b : Bool) : BitVec 8 :=
  if b then st ||| (1#8 <<< i) else st &&& ~~~(1#8 <<< i)
def Slot.setStat (x : Slot) (i : Nat) (b : Bool) : Slot := { x with stat := setStatBit x.stat i b }

/-! ### Bit fields -/

/-- Bits hi to lo of a word. -/
def fieldOf (w : Word) (hi lo : Nat) : Nat := w.toNat / 2 ^ lo % 2 ^ (hi + 1 - lo)
/-- SExt of a field (R49). -/
def sext {n : Nat} (x : BitVec n) : Word := x.signExtend 64
/-- SInt and NInt (R93). -/
def sInt (w : Word) : Int := w.toInt
def nInt (w : Word) : Nat := w.toNat
/-- Wrap64. -/
def wrap64 (v : Int) : Word := BitVec.ofInt 64 v
/-- The word of −1. -/
def minusOne : Word := BitVec.allOnes 64

end Sys2Proof.Machine
end

