-- ==== Sys2Proof/Machine/HypTree.lean ====
section
/-!
DEFINITION. Reading the hypothesis tree (R308 to R310, R318): records, Eff, chains.
-/

namespace Sys2Proof.Machine

/-- The record of an id (R308). The root is always OPEN at depth 0. -/
def HypSys.get (h : HypSys) (k : Nat) : Hyp :=
  if k = 0 then { Hyp.free with st := .opened } else tblGet .free h.table k

/-- The hypotheses with a record replaced. -/
def HypSys.set (h : HypSys) (k : Nat) (r : Hyp) : HypSys := { h with table := tblSet .free h.table k r }

/-- Eff with a bound on the links followed; a chain of CONFIRMED records has at most 15, since each link lowers the depth
(R308, R309). -/
def effFrom (h : HypSys) : Nat → Nat → Nat
  | 0, k => k
  | n + 1, k => if (h.get k).st = .confirmed then effFrom h n (h.get k).parent else k

/-- Eff(k) (R309). -/
def HypSys.eff (h : HypSys) (k : Nat) : Nat := effFrom h 16 k

/-- The chain of an effective hypothesis below the root, nearest first (R309). -/
def chainFrom (h : HypSys) : Nat → Nat → List Nat
  | 0, _ => []
  | n + 1, k => if k = 0 then [] else k :: chainFrom h n (h.eff (h.get k).parent)

/-- The chain of k: Eff(k) and its ancestors short of the root (R309). -/
def HypSys.chain (h : HypSys) (k : Nat) : List Nat := chainFrom h 17 (h.eff k)

/-- Whether k is refuted-in-chain (R309). -/
def HypSys.refutedInChain (h : HypSys) (k : Nat) : Bool := (h.chain k).any fun j => (h.get j).st = .refuted

/-- Whether k is j or lies below it. -/
def HypSys.within (h : HypSys) (k j : Nat) : Bool := (h.chain k).contains j

/-- The ids in use, ascending. -/
def HypSys.ids (h : HypSys) : List Nat := h.table.map (·.1)

/-- The hypotheses at or below k. -/
def HypSys.subtree (h : HypSys) (k : Nat) : List Nat := h.ids.filter fun j => h.within j k

/-- The id that the next opening takes: never-used ids ascending, then freed ids in the order they were freed (R308, R320). -/
def HypSys.nextFree (h : HypSys) : Option Nat :=
  if h.next ≤ 16383 then some h.next else h.freed.head?

/-- The hypotheses without that id among the free ones. -/
def HypSys.take (h : HypSys) : HypSys :=
  if h.next ≤ 16383 then { h with next := h.next + 1 } else { h with freed := h.freed.drop 1 }

/-- The task's effective hypothesis. -/
def State.effOf (s : State) (x : Slot) : Nat := s.hyps.eff x.hypId

/-- The innermost region of a task. -/
def Slot.innermost (x : Slot) : Option Region := x.regions.head?

/-- The task is inside its own region (R318). -/
def State.inOwnRegion (s : State) (x : Slot) : Bool :=
  match x.innermost with
  | some r => s.effOf x = r.id
  | none => false

/-- The task is under a non-root PLAIN hypothesis in the sense of R318. -/
def State.underPlain (s : State) (x : Slot) : Bool := s.effOf x ≠ 0 && !s.inOwnRegion x

/-- The hypothesis check of instructions that are performed on architectural memory (R318, R331): HYP.ATOMIC under a PLAIN
hypothesis or the implicit region. -/
def hypAtomicCheck : M Unit := do
  let s ← get
  let x ← curSlot
  checkFree (!(s.underPlain x) && !x.impl) .hypAtomic

/-- The innermost region of the task becomes non-revocable, when it is inside its own region (R331). -/
def markNonrev : M Unit := do
  let s ← get
  let x ← curSlot
  if s.inOwnRegion x then
    match x.regions with
    | r :: rest => do
      modSlot fun x => { x with regions := { r with nonrev := true } :: rest }
      modHyps fun h => h.set r.id { h.get r.id with nonrev := true }
    | [] => pure ()
  else pure ()

end Sys2Proof.Machine
end

