-- ==== Sys2Proof/Machine/Translate.lean ====
section
/-!
DEFINITION. From a virtual address to a place: the walk, the leaf checks, worlds, backing and reachability (R15, R338,
R370, R388 to R395, R147).
-/

namespace Sys2Proof.Machine

/-- Why a check fails: the cause, and TRAP.VAL where the spec states one (log entry 5). -/
abbrev Failure := Cause × Option Word

/-- The kind of an access (R392). -/
inductive Acc where
  | read | write | fetch | rmw
  deriving DecidableEq, Repr

/-- The KIND code of a translation fault (R392). -/
def Acc.code : Acc → Nat
  | .read => 0 | .write => 1 | .fetch => 2 | .rmw => 3
def Acc.writes : Acc → Bool
  | .write | .rmw => true
  | _ => false

/-- Who makes an access: its die and cell, address space, privilege, world, HYP.CUR.ID, stream key, the serial number that
the stream must have, 0 for any, and the CONTEXT that the
error log names it by. -/
structure Agent where
  die : Nat
  cell : Nat
  asid : BitVec 16
  sys : Bool
  secure : Bool
  hyp : Nat
  strm : Nat
  serial : Nat
  ctx : Nat
  deriving DecidableEq, Repr

/-- CONTEXT of a consumer: a task, or an engine or nobody (R414). -/
def ctxOf (asid launch : Nat) (task : Option Nat) : Nat := 2 ^ 48 * asid + 2 ^ 32 * (launch % 65536) + task.getD 0x7FFF

/-- The key of a stream in its address space; 0 for none (R335). -/
def strmKey (asid : BitVec 16) (id : Nat) : Nat := if id = 0 then 0 else 2 ^ 20 * asid.toNat + id

/-- The agent that a task is. -/
def Slot.agent (x : Slot) (t : Nat) : Agent :=
  { die := dieOf t, cell := cellOf t, asid := x.asid, sys := x.priv, secure := x.world, hyp := x.hypId,
    strm := strmKey x.asid x.strmCur.toNat, serial := 0, ctx := ctxOf x.asid.toNat x.launch (some t) }

/-- The agent of the slot whose instruction runs. -/
def curAgent : M Agent := do pure ((← curSlot).agent (← curId))

/-- The fabric address of a local physical address of the package (R370). -/
def State.fabric (s : State) (local_ : Nat) : Nat := 2 ^ 40 * s.ws.own + local_
/-- The package, the local part, and the home die of a fabric address (R15, R370). -/
def pkgOf (pa : Nat) : Nat := pa / 2 ^ 40
def localOf (pa : Nat) : Nat := pa % 2 ^ 40
def homeOf (pa : Nat) : Nat := pa / 2 ^ 38 % 4

/-- Bytes of memory from a fabric address, as a number (R5). -/
def MemSys.read (m : MemSys) (pa n : Nat) : Nat := tblReadN m.mem pa n

/-- Whether an address lies in the stream window (R338). -/
def inWindow (va : Nat) : Bool := decide (0x00FFFFFFFFC00000 ≤ va) && decide (va < 2 ^ 56)

/-! ### The package (R11, R12, R15, R19) -/

/-- The HBM4E stack that a local physical address lies in: 4 KiB units take turns among the three of their home die (R15). -/
def stackOf (local_ : Nat) : Nat := 3 * (local_ / 2 ^ 38 % 4) + local_ % 2 ^ 38 / 4096 % 3
/-- The home die of stack HS(n) (R11). -/
def stackHome (n : Nat) : Nat := n / 3

/-- The fabric die that holds a port: FA, 0, holds +X, +Y and +Z, and FB, 1, the others (R11). -/
def fabricDieOf (port : Nat) : Nat := if port < 3 then 0 else 1
/-- The compute dies that a fabric die is attached to: FA to dies 0 and 1, FB to dies 2 and 3 (R11). -/
def attachedTo (f : Nat) : List Nat := if f = 0 then [0, 1] else [2, 3]

/-- The ring neighbours of a die, lower number first (R11). -/
def neighbours (d : Nat) : List Nat := if d = 0 || d = 3 then [1, 2] else [0, 3]

/-- The compute die through which traffic between a die and the fabric die of a port passes: the die itself, or its ring neighbour that
is attached there (R19). A fenced neighbour still carries it: log entry 55. -/
def gateDie (d port : Nat) : Nat :=
  if (attachedTo (fabricDieOf port)).contains d then d
  else ((neighbours d).find? fun k => (attachedTo (fabricDieOf port)).contains k).getD d

/-- The intermediate die on the way of a line between two dies that are not neighbours, and none between others: bit 6 of the local
physical address chooses it, but a fenced one gives way to the other (R12). With both fenced the choice stands: log entry 55. -/
def middleDie (live : Nat → Bool) (a b local_ : Nat) : Option Nat :=
  if a = b || (neighbours a).contains b then none
  else
    let (lower, higher) := ((neighbours a).headD 0, (neighbours a).getLastD 0)
    let (k, other) := if local_ / 64 % 2 = 0 then (lower, higher) else (higher, lower)
    some (if live k || !live other then k else other)

/-! ### Routes (R371, R374) -/

/-- A position of the torus. -/
abbrev Coords := Nat × Nat × Nat

/-- A coordinate along a dimension, 0 for x, 1 for y, 2 for z, and the position with it replaced. -/
def coordAt (c : Coords) (d : Nat) : Nat := if d = 0 then c.1 else if d = 1 then c.2.1 else c.2.2
def setCoord (c : Coords) (d p : Nat) : Coords := if d = 0 then (p, c.2.1, c.2.2) else if d = 1 then (c.1, p, c.2.2) else (c.1, c.2.1, p)

/-- The neighbour position one step along a dimension of a size. -/
def ringStep (size pos : Nat) (plus : Bool) : Nat :=
  if plus then (if pos + 1 = size then 0 else pos + 1) else (if pos = 0 then size - 1 else pos - 1)

/-- The port that leaves along dimension d in a direction: +X, +Y, +Z, −X, −Y, −Z are 0 to 5 (R419). -/
def portOf (d : Nat) (plus : Bool) : Nat := if plus then d else d + 3

/-- The package at torus coordinates, by the package table (R369). -/
def WinSys.atCoords (w : WinSys) (c : Coords) : Option Nat := (w.packages.find? fun e => e.2 = .coords c.1 c.2.1 c.2.2).map (·.1)

/-- Whether a port of a package carries a host adapter (R20, R371). -/
def WinSys.hostAt (w : WinSys) (pkg port : Nat) : Bool :=
  w.packages.any fun e => match e.2 with
    | .host p q _ => p = pkg && q = port
    | _ => false

/-- A link of a route: the position it leaves, its dimension and direction, and the channel of its class that a flit takes on it:
1 once the flit crosses the link between the last coordinate and 0 of the dimension, 0 before (R372; log entry 56). -/
structure Hop where
  at_ : Coords
  dim : Nat
  plus : Bool
  channel : Nat
  deriving DecidableEq, Repr

/-- The port that a hop leaves by, and the position it reaches. -/
def Hop.port (h : Hop) : Nat := portOf h.dim h.plus
def WinSys.size (w : WinSys) (d : Nat) : Nat := coordAt w.torus d
def WinSys.reaches (w : WinSys) (h : Hop) : Coords := setCoord h.at_ h.dim (ringStep (w.size h.dim) (coordAt h.at_ h.dim) h.plus)

/-- n hops in one direction along a dimension from a position; `crossed` tells whether the flit has crossed the wrap link. -/
def WinSys.hops (w : WinSys) (d : Nat) (plus : Bool) : Nat → Coords → Bool → List Hop
  | 0, _, _ => []
  | n + 1, c, crossed =>
    let p := coordAt c d
    let crossed := crossed || decide (p = if plus then w.size d - 1 else 0)
    ⟨c, d, plus, crossed.toNat⟩ :: w.hops d plus n (setCoord c d (ringStep (w.size d) p plus)) crossed

/-- Whether the link of a hop is missing: a port at one of its ends carries a host adapter (R20, R371). -/
def WinSys.missing (w : WinSys) (h : Hop) : Bool :=
  ((w.atCoords h.at_).any fun p => w.hostAt p h.port) ||
  ((w.atCoords (w.reaches h)).any fun p => w.hostAt p (portOf h.dim !h.plus))

/-- Whether a port is down: one of the own package where its link or its fabric die is (R25, R373), one of another package where it is
known to be. -/
def WinSys.portDown (w : WinSys) (pkg port : Nat) : Bool :=
  if pkg = w.own then !((tblGet .down w.ports port).up && w.fabricDies.getLsbD (fabricDieOf port)) else w.downLinks.contains (8 * pkg + port)

/-- Whether the link of a hop is down, at either end (R374). -/
def WinSys.down (w : WinSys) (h : Hop) : Bool :=
  ((w.atCoords h.at_).any fun p => w.portDown p h.port) ||
  ((w.atCoords (w.reaches h)).any fun p => w.portDown p (portOf h.dim !h.plus))

/-- The hops of a route in one dimension: the shorter way round, + when both are equally long, or the other way where that one would
cross a missing link; none where both would (R371). -/
def WinSys.leg (w : WinSys) (d : Nat) (c : Coords) (dst : Nat) : Option (List Hop) :=
  if coordAt c d = dst then some []
  else
    let n := (dst + w.size d - coordAt c d) % w.size d
    let up := w.hops d true n c false
    let dn := w.hops d false (w.size d - n) c false
    let first := if n ≤ w.size d - n then up else dn
    let other := if n ≤ w.size d - n then dn else up
    if !first.any w.missing then some first else if !other.any w.missing then some other else none

/-- The hops of a route, x first, then y, then z (R371). -/
def WinSys.route (w : WinSys) (src dst : Coords) : Option (List Hop) := do
  let x ← w.leg 0 src dst.1
  let y ← w.leg 1 (setCoord src 0 dst.1) dst.2.1
  let z ← w.leg 2 (setCoord (setCoord src 0 dst.1) 1 dst.2.1) dst.2.2
  pure (x ++ y ++ z)

/-- Where a package number stands in the torus: its own position, or that of the package a host adapter is attached to (R369, R371). -/
def WinSys.coordsOf (w : WinSys) (pkg : Nat) : Option Coords :=
  if pkg = w.own then some w.place
  else match tblGet .absent w.packages pkg with
    | .absent => none
    | .coords x y z => some (x, y, z)
    | .host p _ _ =>
      if p = w.own then some w.place
      else match tblGet .absent w.packages p with
        | .coords x y z => some (x, y, z)
        | _ => none

/-- The port by which a host adapter hangs on its package, if the number names one. -/
def WinSys.adapterPort (w : WinSys) (pkg : Nat) : Option (Nat × Nat) :=
  match tblGet .absent w.packages pkg with
  | .host p port _ => some (p, port)
  | _ => none

/-- Whether a package is reachable from the own one: a route exists, and no link of it is down (R370, R371, R374). -/
def WinSys.reachable (w : WinSys) (pkg : Nat) : Bool :=
  if pkg = w.own then true
  else match (w.coordsOf pkg).bind (w.route w.place) with
    | none => false
    | some hs => !hs.any w.down && !((w.adapterPort pkg).any fun a => w.portDown a.1 a.2)

/-- The port and channel by which a flit from one package leaves the own one for another (R19, R371, R372): the hop of its route that
leaves the own position, or the adapter's port. A flit whose route does not pass here takes the route from here. -/
def WinSys.leaves (w : WinSys) (src pkg : Nat) : Nat × Nat :=
  let hop (c : Option Coords) : Option Hop := do
    let hs ← w.route (← c) (← w.coordsOf pkg)
    hs.find? fun h => h.at_ = w.place
  match (hop (w.coordsOf src)).orElse fun _ => hop (some w.place) with
  | some h => (h.port, h.channel)
  | none => (((w.adapterPort pkg).map (·.2)).getD 0, 0)

/-- Whether a number names a host adapter (R20). -/
def WinSys.isHost (w : WinSys) (pkg : Nat) : Bool :=
  match tblGet .absent w.packages pkg with
  | .host _ _ _ => true
  | _ => false

/-! ### The walk (R388 to R393) -/

/-- TRAP.VAL of a translation fault (R392). -/
def transVal (level : Nat) (k : Acc) (va : Nat) : Word :=
  BitVec.ofNat 64 (2 ^ 61 * level + 2 ^ 59 * k.code + va % 2 ^ 56)

/-- A leaf found: its entry and the level it stands at. -/
structure Leaf where
  pte : Word
  level : Nat
  deriving DecidableEq, Repr

/-- The index of a level and the log2 of a leaf's page size there (R390). -/
def levelIndex (level va : Nat) : Nat :=
  match level with
  | 1 => va / 2 ^ 48 % 256
  | 2 => va / 2 ^ 39 % 512
  | 3 => va / 2 ^ 30 % 512
  | 4 => va / 2 ^ 21 % 512
  | _ => va / 2 ^ 16 % 32
def pageShift (level : Nat) : Nat :=
  match level with
  | 3 => 30
  | 4 => 21
  | _ => 16

/-- Why a table entry at a fabric address cannot be read: its home is fenced or it is unbacked (R15, R385). -/
def tableFault (s : State) (pa : Nat) : Option Failure :=
  if !s.live (homeOf pa) then some (.memLost, some (BitVec.ofNat 64 pa))
  else if 0x3000000000 ≤ pa % 2 ^ 38 then some (.memUnbacked, none)
  else none

/-- Where a level's table at local address t holds the entry of an address, and the entry (R390, R392). -/
def walkSlot (s : State) (va level t : Nat) : Nat := s.fabric (t + 8 * levelIndex level va)
def walkEntry (s : State) (va level t : Nat) : Word := BitVec.ofNat 64 (s.ms.read (walkSlot s va level t) 8)

/-- The local address of the next table, by a TABLE entry (R389). -/
def nextTable (e : Word) : Nat := 256 * fieldOf e 47 16

/-- A TABLE entry that a level may not hold (R392). -/
def badTable (level : Nat) (e : Word) : Bool :=
  level == 5 || fieldOf e 63 48 != 0 || fieldOf e 15 2 != 0 || (decide (level < 4) && nextTable e % 4096 != 0)

/-- The entry that a level reads: its leaf, or the next table's address (R392). -/
def walkLevel (s : State) (k : Acc) (va level t : Nat) : Except Failure (Leaf ⊕ Nat) :=
  match tableFault s (walkSlot s va level t) with
  | some f => .error f
  | none =>
    if !(walkEntry s va level t).getLsbD 0 then .error (.transNotmapped, some (transVal level k va))
    else if (walkEntry s va level t).getLsbD 1 then
      if level < 3 then .error (.transFormat, some (transVal level k va)) else .ok (.inl ⟨walkEntry s va level t, level⟩)
    else if badTable level (walkEntry s va level t) then .error (.transFormat, some (transVal level k va))
    else .ok (.inr (nextTable (walkEntry s va level t)))

/-- One level after another, the table at local address t first; n levels remain (R392). -/
def walkFrom (s : State) (k : Acc) (va : Nat) : Nat → Nat → Except Failure Leaf
  | 0, _ => .error (.transFormat, some (transVal 5 k va))
  | n + 1, t =>
    match walkLevel s k va (5 - n) t with
    | .error f => .error f
    | .ok (.inl l) => .ok l
    | .ok (.inr next) => walkFrom s k va n next

/-- The number of the prefix bits below a level's table: those of the index of the level above (R390). -/
def pathShift (level : Nat) : Nat :=
  match level with
  | 2 => 48
  | 3 => 39
  | 4 => 30
  | _ => 21

/-- The deepest table that a die's walk cache holds on the path of an address: its level and its local address (R395). -/
def walkStart (s : State) (die : Nat) (asid : BitVec 16) (va : Nat) : Option (Nat × Nat) :=
  [5, 4, 3, 2].findSome? fun level =>
    (s.ms.walkCache.find? fun e => e.die = die && e.asid = asid && e.level = level && e.path = va / 2 ^ pathShift level).map fun e =>
      (level, e.table)

/-- Walk (R392), by a walker of a die, which starts at the deepest table that its walk cache holds (R395). -/
def walk (s : State) (die : Nat) (asid : BitVec 16) (k : Acc) (va : Nat) : Except Failure Leaf :=
  match walkStart s die asid va with
  | some (level, t) => walkFrom s k va (6 - level) t
  | none =>
    let a : Word := BitVec.ofNat 64 (s.ms.read (s.fabric (s.pf.fw.asidTab + 8 * asid.toNat)) 8)
    if !a.getLsbD 0 then .error (.transAsid, some (transVal 0 k va))
    else walkFrom s k va 5 (2048 * fieldOf a 39 11)

/-- The entry that a cell's or a die's TLB holds for an address (R395). -/
def tlbLookup (s : State) (ag : Agent) (va : Nat) : Option Leaf :=
  (s.ms.tlb.find? fun e => (e.holder = ag.cell || e.holder = 512 + ag.die) && e.asid = ag.asid &&
    e.vpage = va / 2 ^ pageShift e.level).map fun e => ⟨e.pte, e.level⟩

/-- The miss entries that a die may have in use (R395). -/
def maxMisses : Nat := 4096

/-- A miss of a cell on a page: it joins the die's entry with its key, or takes one (R395); the answer is none where no entry is free. -/
def MemSys.takeMiss (m : MemSys) (die cell : Nat) (asid : BitVec 16) (vpage : Nat) : Option MemSys :=
  let key (x : Miss) : Bool := x.die = die && x.asid = asid && x.vpage = vpage
  if m.misses.any key then
    some { m with misses := m.misses.map fun x => if key x && !x.cells.contains cell then { x with cells := x.cells ++ [cell] } else x }
  else if maxMisses ≤ (m.misses.filter fun x => x.die = die).length then none
  else some { m with misses := m.misses ++ [⟨die, asid, vpage, [cell]⟩] }

/-- The number of bits set in RDIES. -/
def popCount4 (x : BitVec 4) : Nat := x[0].toNat + x[1].toNat + x[2].toNat + x[3].toNat

/-- CheckLeaf short of the world check (R392). -/
def leafFault (s : State) (ag : Agent) (k : Acc) (va : Nat) (l : Leaf) : Option Failure :=
  let e := l.pte
  let pkg := fieldOf e 63 48
  let frame := fieldOf e 47 24
  let rdies : BitVec 4 := BitVec.ofNat 4 (fieldOf e 23 20)
  let repl := e.getLsbD 8
  let v := transVal l.level k va
  if fieldOf e 19 10 ≠ 0 || (l.level = 4 && frame % 32 ≠ 0) || (l.level = 3 && frame % 2 ^ 14 ≠ 0) ||
     (repl && (popCount4 rdies < 2 || pkg ≠ s.ws.own)) || (!repl && rdies ≠ 0) ||
     (s.ws.isHost pkg && (e.getLsbD 7 || repl || e.getLsbD 9)) then some (.transFormat, some v)
  else if !ag.sys && !e.getLsbD 5 then some (.transPerm, some v)
  else if (match k with
    | .read => !e.getLsbD 2
    | .write => !e.getLsbD 3
    | .fetch => !e.getLsbD 4
    | .rmw => !e.getLsbD 2 || !e.getLsbD 3) then some (.transPerm, some v)
  else none

/-- The die of the nearest replica (R141). -/
def nearestReplica (rdies : BitVec 4) (d : Nat) : Nat :=
  ((d :: neighbours d ++ [3 - d]).find? fun k => rdies.getLsbD k).getD d

/-- What a translation gives: the fabric address by the nearest replica, whether the page is cacheable, its replica dies (none
unless replicated), and the leaf. -/
structure Trans where
  pa : Nat
  cached : Bool
  rdies : BitVec 4
  leaf : Leaf
  deriving DecidableEq, Repr

/-- The fabric address of an address by its leaf, on replica die d when the page is replicated (R391, R392). -/
def leafPa (l : Leaf) (va d : Nat) : Nat :=
  let off := va % 2 ^ pageShift l.level
  let base := 2 ^ 16 * fieldOf l.pte 47 24
  2 ^ 40 * fieldOf l.pte 63 48 + (if l.pte.getLsbD 8 then 2 ^ 38 * d + (base + off) % 2 ^ 38 else base + off)

/-- Whether a non-secure access meets a granule of the secure world, of whichever package (R394). -/
def worldFails (s : State) (secure : Bool) (pa : Nat) : Bool := !secure && tblGet false s.ms.region (pa / 2 ^ 21)

/-- Whether the home die of a fabric address is fenced, on the own package or, as a notice said, on another (R385). -/
def State.homeLost (s : State) (pa : Nat) : Bool :=
  if pkgOf pa = s.ws.own then !s.live (homeOf pa) else s.ws.lost.contains (pa / 2 ^ 38)

/-- Why a fabric address cannot be reached or is not backed (R15, R370, R374, R385). Dies of the own package always reach each other
(R12; log entry 55). -/
def placeFault (s : State) (secure : Bool) (pa : Nat) : Option Failure :=
  if !s.ws.reachable (pkgOf pa) then some (.fabUnreach, some (BitVec.ofNat 64 pa))
  else if s.ws.isHost (pkgOf pa) then none
  else if s.homeLost pa then some (.memLost, some (BitVec.ofNat 64 pa))
  else if worldFails s secure pa then some (.worldAccess, none)
  else if 0x3000000000 ≤ pa % 2 ^ 38 then some (.memUnbacked, none)
  else none

/-- Translate outside the stream window, with the checks that follow it (R147, R392, R394). -/
def translatePlain (s : State) (ag : Agent) (k : Acc) (va : Nat) : Except Failure Trans := do
  let l ← match tlbLookup s ag va with
    | some l => Except.ok l
    | none => walk s ag.die ag.asid k va
  match leafFault s ag k va l with
  | some f => .error f
  | none =>
    let worldBit := l.pte.getLsbD 6
    if !ag.secure && worldBit then .error (.worldAccess, none)
    else if k.writes && s.hyps.eff ag.hyp ≠ 0 && !l.pte.getLsbD 9 then .error (.transHyp, some (transVal l.level k va))
    else
      let pa := leafPa l va (nearestReplica (BitVec.ofNat 4 (fieldOf l.pte 23 20)) ag.die)
      match placeFault s (ag.secure && worldBit) pa with
      | some f => .error f
      | none =>
        .ok { pa := pa, cached := l.pte.getLsbD 7, leaf := l,
              rdies := if l.pte.getLsbD 8 then BitVec.ofNat 4 (fieldOf l.pte 23 20) else 0 }

/-- What an instruction may do in the stream window (R338). -/
inductive WinUse where
  | none | allowed
  deriving DecidableEq, Repr

/-- The access check of R147 with the window's cases of R338: the place and, outside the window, the translation. -/
def checkPlace (s : State) (ag : Agent) (use : WinUse) (va : Word) (size : Nat) (k : Acc) :
    Except Failure (Place × Option Trans) :=
  let a := va.toNat
  if 2 ^ 56 ≤ a then .error (.memRange, some va)
  else if a % size ≠ 0 then .error (.memAlign, some va)
  else if inWindow a then
    let m := tblGet .none s.ss.streams ag.strm
    if use = .none || ag.strm = 0 || m.st = .dead || (ag.serial ≠ 0 && ag.serial ≠ m.serial) then .error (.strmWindow, some va)
    else if k.writes && s.hyps.eff ag.hyp ≠ 0 then .error (.strmHyp, none)
    else .ok (.win ag.strm m.serial (a - 0x00FFFFFFFFC00000), none)
  else
    match translatePlain s ag k a with
    | .ok t => .ok (.mem t.pa a t.cached, some t)
    | .error f => .error f

/-- A pure check as a body: its fault is a trap. -/
def liftCheck {α : Type} (x : Except Failure α) : M α :=
  match x with
  | .ok a => pure a
  | .error (c, v) => throw (.trap c.code v)

/-- CheckAccess of an agent (R147). -/
def checkAccessBy (ag : Agent) (use : WinUse) (va : Word) (size : Nat) (k : Acc) : M (Place × Option Trans) := do
  liftCheck (checkPlace (← get) ag use va size k)

/-- CheckAccess of the task, for an access that may lie in the window (R147). -/
def checkAccess (va : Word) (size : Nat) (k : Acc) : M Place := do
  pure (← checkAccessBy (← curAgent) .allowed va size k).1

/-- CheckAccess of the task where the window raises STRM.WINDOW: the translation (R147, R338). -/
def checkMem (va : Word) (size : Nat) (k : Acc) : M Trans := do
  match ← checkAccessBy (← curAgent) .none va size k with
  | (_, some t) => pure t
  | (_, none) => raise .strmWindow va

end Sys2Proof.Machine
end

