-- ==== Sys2Proof/Machine/Flit.lean ====
section
/-!
DEFINITION. Flits that leave the package: their class, port and virtual channel, and flow control by pauses (R19, R371 to R373).
-/

namespace Sys2Proof.Machine

/-- The message class of a flit: requests 0, responses 1, reduction contributions 2, deliveries and fence notices 3 (R372); an interrupt
travels as a request and an announcement as a notice (log entry 56). -/
def FlitBody.cls : FlitBody → Nat
  | .request _ _ _ | .interrupt _ _ _ _ => 0
  | .response _ _ => 1
  | .contribution _ _ => 2
  | .delivery _ _ | .notice _ _ | .announce _ _ | .pause _ | .resume _ => 3

/-- The package that a flit is for; a pause or a resume is for the other end of its link. -/
def FlitBody.dest : FlitBody → Nat
  | .request _ p _ | .response p _ | .contribution p _ | .delivery p _ | .interrupt p _ _ _ | .notice p _ | .announce p _ => p
  | .pause c | .resume c => c

/-- Whether a port may not send on a virtual channel (R373). -/
def WinSys.pausedOn (w : WinSys) (port channel : Nat) : Bool := (tblGet .down w.ports port).paused.getLsbD channel

/-- A bit of a port's masks set or cleared. -/
def setBit8 (m : BitVec 8) (i : Nat) (b : Bool) : BitVec 8 := if b then m ||| (1#8 <<< i) else m &&& ~~~(1#8 <<< i)

/-- The flits in the receive buffer of a port's virtual channel: those that came by it and wait to go on (R373). -/
def WinSys.heldFrom (w : WinSys) (port channel : Nat) : Nat := (w.held.filter fun h => h.2 = some (port, channel)).length

/-- A control flit that leaves by a port, and the port's note of it (R373). -/
def WinSys.ask (w : WinSys) (port channel : Nat) (stop : Bool) : WinSys :=
  let x := tblGet .down w.ports port
  { w with ports := tblSet .down w.ports port { x with asked := setBit8 x.asked channel stop },
           out := w.out ++ [⟨if stop then .pause channel else .resume channel, port, channel, (attachedTo (fabricDieOf port)).headD 0, none⟩] }

/-- A receiver's flow control: it asks for a pause when the free space of its buffer falls below the headroom, and for the flits again
when the space rises above twice the headroom (R373). An empty buffer asks for no pause. -/
def WinSys.flow (w : WinSys) (port channel : Nat) : WinSys :=
  let asked := (tblGet .down w.ports port).asked.getLsbD channel
  let n := w.heldFrom port channel
  if !asked && n ≠ 0 && decide (Config.portBuffer < n + Config.portHeadroom) then w.ask port channel true
  else if asked && (n = 0 || decide (2 * Config.portHeadroom + n < Config.portBuffer)) then w.ask port channel false
  else w

/-- A flit of package `src` that leaves by way of compute die `die`: at once, or, on a virtual channel that is paused or has flits
waiting, after them (R19, R371 to R373). `came` is the port and channel by which it came, if it did. -/
def WinSys.send (w : WinSys) (src die : Nat) (came : Option (Nat × Nat)) (check : Option (BitVec 32)) (b : FlitBody) : WinSys :=
  let (port, ch) := w.leaves src b.dest
  let f : OutFlit := ⟨b, port, 2 * b.cls + ch, gateDie die port, check⟩
  if w.pausedOn port f.channel || w.held.any fun h => h.1.port = port && h.1.channel = f.channel then
    let w := { w with held := w.held ++ [(f, came)] }
    match came with
    | some (p, c) => w.flow p c
    | none => w
  else { w with out := w.out ++ [f] }

/-- A flit of the package itself sent. -/
def sendFlit (die : Nat) (b : FlitBody) : M Unit := modWs fun w => w.send w.own die none none b

/-- The flits that waited for a virtual channel of a port leave by it in order, and the receivers they came by have space again
(R373). -/
def WinSys.resume (w : WinSys) (port channel : Nat) : WinSys :=
  let go (h : OutFlit × Option (Nat × Nat)) : Bool := h.1.port = port && h.1.channel = channel
  let gone := w.held.filter go
  let w := { w with out := w.out ++ gone.map (·.1), held := w.held.filter fun h => !go h }
  gone.foldl (fun w h => match h.2 with
    | some (p, c) => w.flow p c
    | none => w) w

end Sys2Proof.Machine
end

