-- ==== Sys2Proof/Machine/Memory.lean ====
section
/-!
DEFINITION. Lines, homes, the L1 of a cell, write-combining buffers, versions, release and acquire, check values and the
error log (R133 to R151, R311 to R317, R414, R415). Log entries 9 and 10 say how caches and other packages are held.
-/

namespace Sys2Proof.Machine

/-! ### Bytes of a line -/

/-- n bytes of a line from an offset, as a number. -/
def lineBytes (x : LineVal) (off n : Nat) : Nat := x.toNat / 2 ^ (8 * off) % 2 ^ (8 * n)
/-- The line with a number's n low bytes at an offset and zeros elsewhere. -/
def lineOf (off n v : Nat) : LineVal := BitVec.ofNat 512 (v % 2 ^ (8 * n) * 2 ^ (8 * off))
/-- The byte mask of n bytes from an offset. -/
def byteMask (off n : Nat) : BitVec 64 := BitVec.ofNat 64 ((2 ^ n - 1) * 2 ^ off)
/-- Each bit of a mask repeated eight times. -/
def spreadBits : Nat → Nat → Nat
  | 0, _ => 0
  | n + 1, m => (if m % 2 = 1 then 255 else 0) + 256 * spreadBits n (m / 2)
/-- The bits of the bytes a mask selects. -/
def bitMask (m : BitVec 64) : LineVal := BitVec.ofNat 512 (spreadBits 64 m.toNat)
/-- The old line with the masked bytes of the new one. -/
def mergeLine (old new : LineVal) (m : BitVec 64) : LineVal := (old &&& ~~~(bitMask m)) ||| (new &&& bitMask m)
/-- The word mask of a byte mask: bit w set when a byte of word w is. -/
def touchedWords : Nat → Nat → Nat
  | 0, _ => 0
  | n + 1, m => (if m % 16 = 0 then 0 else 1) + 2 * touchedWords n (m / 16)
def wordsOf (m : BitVec 64) : BitVec 16 := BitVec.ofNat 16 (touchedWords 16 m.toNat)
/-- The bytes of the words of a word mask. -/
def spreadWords : Nat → Nat → Nat
  | 0, _ => 0
  | n + 1, m => (if m % 2 = 1 then 15 else 0) + 16 * spreadWords n (m / 2)
def bytesOfWords (w : BitVec 16) : BitVec 64 := BitVec.ofNat 64 (spreadWords 16 w.toNat)
/-- All 64 bytes. -/
def allBytes : BitVec 64 := BitVec.allOnes 64

/-- The masked bytes of a line written to memory, one after another. -/
def writeMasked (t : Tbl Byte) (a : Nat) : Nat → Nat → Nat → Tbl Byte
  | 0, _, _ => t
  | n + 1, v, m =>
    writeMasked (if m % 2 = 1 then tblSet 0 t a (BitVec.ofNat 8 v) else t) (a + 1) n (v / 256) (m / 2)

/-- The bytes of a line at its home (R134). -/
def MemSys.homeLine (m : MemSys) (line : Nat) : LineVal := BitVec.ofNat 512 (m.read line 64)
/-- The address of the line that holds an address. -/
def lineAddr (a : Nat) : Nat := 64 * (a / 64)

/-! ### CRC-32C (R142) -/

/-- Eight steps of the bit-reflected Castagnoli polynomial. -/
def crcBits : Nat → BitVec 32 → BitVec 32
  | 0, c => c
  | n + 1, c => crcBits n (if c.getLsbD 0 then (c >>> 1) ^^^ 0x82F63B78#32 else c >>> 1)
/-- The register after a list of bytes. -/
def crcFrom (c : BitVec 32) : List Byte → BitVec 32
  | [] => c
  | b :: r => crcFrom (crcBits 8 (c ^^^ b.setWidth 32)) r
/-- The check value of bytes in ascending order (R142). -/
def crc32c (bs : List Byte) : BitVec 32 := ~~~(crcFrom 0xFFFFFFFF#32 bs)
/-- The check value of the 64 bytes of a line (R142). -/
def crcLine (d : LineVal) : BitVec 32 := crc32c ((List.range 64).map fun k => BitVec.ofNat 8 (lineBytes d k 1))
/-- The check value that a line with these bytes carries (R142): the CRC of its bytes, or, where a merge met a mismatch or an
injection inverted it, that value XOR 0xFFFF_FFFF (R143, R415). A line is held as its bytes and its `LineCheck`, which say it. -/
def LineCheck.value (c : LineCheck) (d : LineVal) : BitVec 32 :=
  match c with
  | .mismatch | .poisoned => crcLine d ^^^ BitVec.allOnes 32
  | _ => crcLine d
/-- Whether a line verifies: its value is the CRC of its bytes, and no word of it is uncorrectable (R144, R145). -/
def LineCheck.verifies (c : LineCheck) (d : LineVal) : Bool := decide (c.value d = crcLine d) && decide (c ≠ .ecc)

/-! ### Performing a write at its home -/

/-- The words of one owner invalidated: its clean bytes of them leave its L1 (R138). -/
def dropOwned (l1 : List L1Line) (cell line : Nat) (w : BitVec 16) : List L1Line :=
  l1.map fun x =>
    if x.cell = cell ∧ x.pa = line ∧ x.hyp = 0 then
      { x with valid := x.valid &&& (x.dirty ||| ~~~(bytesOfWords w)), owned := x.owned &&& ~~~w }
    else x

/-- The owner records of n words from a word up: words of the mask are taken from every other cell and given to the new
owner, if there is one (R134, R138). -/
def settleOwners (m : MemSys) (line : Nat) (own : Option Nat) : Nat → Nat → BitVec 16 → MemSys
  | 0, _, _ => m
  | n + 1, i, w =>
    let m' :=
      if w.getLsbD i then
        let o := tblGet 0 m.owner (line + 4 * i)
        let mine := match own with
          | some c => o = c + 1
          | none => false
        let l1 := if o = 0 || mine then m.l1 else dropOwned m.l1 (o - 1) line (1#16 <<< i)
        { m with l1 := l1, owner := tblSet 0 m.owner (line + 4 * i) (match own with
          | some c => c + 1
          | none => 0) }
      else m
    settleOwners m' line own n (i + 1) w

/-- Every reservation on a line broken, but the exempt slot's own (R155). -/
def breakResv (slots : Tbl Slot) (line : Nat) (exempt : Option Nat) : Tbl Slot :=
  slots.map fun x =>
    match x.2.resv with
    | some r => if r.line = line ∧ some x.1 ≠ exempt then (x.1, { x.2 with resv := some ⟨line, true⟩ }) else x
    | none => x

/-- The address of the newest copy of the Factor's words in a QCB: the larger even SEQ, copy A on a tie (R280). -/
def MemSys.newestCopy (m : MemSys) (qcb : Nat) : Nat :=
  let a := m.read (qcb + 64) 8
  let b := m.read (qcb + 96) 8
  if b % 2 = 1 then qcb + 64 else if a % 2 = 1 then qcb + 96 else if a < b then qcb + 96 else qcb + 64

/-- STATUS of a queue: whether it is in ERROR (R280). -/
def MemSys.inError (m : MemSys) (qcb : Nat) : Bool := m.read (m.newestCopy qcb + 30) 1 = 1

/-- A queue's note of a store to its NOTIFY word, whose new value is at its home (R431); the flag asks for a restart while the
queue is in ERROR (R291). -/
def Queue.note (ms : MemSys) (line : Nat) (mask : BitVec 64) (q : Queue) : Queue :=
  if q.qcb = line ∧ mask &&& byteMask 16 8 ≠ 0 then
    { q with notified := true, restart := q.restart || (ms.read (line + 16) 8 / 2 ^ 63 = 1 && ms.inError line) }
  else q

/-- Bytes written at the home: memory, owner records, reservations, and the notes of NOTIFY words (R137, R155, R431). -/
def State.writeHome (s : State) (line : Nat) (data : LineVal) (mask : BitVec 64) (own exempt : Option Nat) : State :=
  let ms := { s.ms with mem := writeMasked s.ms.mem line 64 data.toNat mask.toNat }
  { s with ms := settleOwners ms line own 16 0 (wordsOf mask), slots := breakResv s.slots line exempt,
           fs := { s.fs with queues := s.fs.queues.map fun x => (x.1, x.2.map (Queue.note ms line mask)) } }

/-- n bytes of a number written within one line by a unit of the device. -/
def State.poke (s : State) (pa n v : Nat) : State :=
  s.writeHome (lineAddr pa) (lineOf (pa % 64) n v) (byteMask (pa % 64) n) none none

/-- Bytes of memory read at their home. -/
def State.peek (s : State) (pa n : Nat) : Nat := s.ms.read pa n
/-- The same as bodies. -/
def peek (pa n : Nat) : M Nat := do pure ((← get).peek pa n)
def poke (pa n v : Nat) : M Unit := modify fun s => s.poke pa n v

/-! ### Error log and injection (R414, R415) -/

/-- An entry appended to a die's ring; `ctx` is its CONTEXT and `syndrome` its SYNDROME. -/
def appendError (die array kind addr ctx syndrome : Nat) : M Unit := modify fun s =>
  let base := tblGet 0 s.pf.fw.elog die
  let head := tblGet 0 s.ms.elogHead die
  let count := tblGet 0 s.ms.elogCount die
  let lost := if count = 4096 then min (tblGet 0 s.ms.elogLost die + 1) 65535 else tblGet 0 s.ms.elogLost die
  let entry := lost + kind * 2 ^ 40 + syndrome % 2 ^ 8 * 2 ^ 48 + array * 2 ^ 56 + s.clock die * 2 ^ 64 + addr * 2 ^ 128 + ctx * 2 ^ 192
  let s := if base = 0 then s else s.poke (s.fabric (base + 32 * head)) 32 entry
  { s with ms := { s.ms with elogHead := tblSet 0 s.ms.elogHead die ((head + 1) % 4096),
                             elogLost := tblSet 0 s.ms.elogLost die lost,
                             elogCount := tblSet 0 s.ms.elogCount die (min (count + 1) 4096) } }

/-- An error logged: the syndrome that the code finds in an ECC word is not stated, and it is free (log entry 5); kinds 2 and 3 have
none. -/
def logError (die array kind addr : Nat) (ctx : Nat) : M Unit := do
  let syndrome ← if kind ≤ 1 then freshWord else pure 0
  appendError die array kind addr ctx syndrome.toNat

/-- CONTEXT of the task whose instruction runs. -/
def curCtx : M Nat := do
  let x ← curSlot
  pure (ctxOf x.asid.toNat x.launch (some (← curId)))

/-- Whether the doubleword of an address lies, in part, in n bytes from an address up. -/
def inWords (a n t : Nat) : Bool := decide (a / 8 ≤ t / 8) && decide (8 * (t / 8) < a + n)

/-- Whether the masked bytes of a line touch the doubleword of an address. -/
def inMasked (line : Nat) (mask : BitVec 64) (t : Nat) : Bool :=
  lineAddr t = line && mask.toNat / 2 ^ (t % 64 / 8 * 8) % 256 ≠ 0

/-- The first of n entries of an injection table, from entry i up, that is armed for an array and a word that is written (R415). -/
def findInjection (s : State) (base array : Nat) (written : Nat → Bool) : Nat → Nat → Option Nat
  | 0, _ => none
  | n + 1, i =>
    let a := s.fabric (base + 16 * i)
    if s.peek a 1 % 4 ≠ 0 && s.peek (a + 7) 1 = array && written (s.peek (a + 8) 8) then some i
    else findInjection s base array written n (i + 1)

/-- The error that an armed entry puts into a write of an array, the entry then disarmed (R415); `old` where none is. -/
def injected (die array : Nat) (written : Nat → Bool) (old : LineCheck) : M LineCheck := do
  let s ← get
  let base := tblGet 0 s.pf.fw.inject die
  if base = 0 then pure old
  else
    match findInjection s base array written 16 0 with
    | none => pure old
    | some i => do
      let a := s.fabric (base + 16 * i)
      let mode := s.peek a 1 % 4
      set (s.poke a 1 (s.peek a 1 / 4 * 4))
      pure (if mode = 1 || (mode = 2 && s.peek (a + 1) 1 = s.peek (a + 2) 1) then .single
            else if mode = 2 then .ecc else .mismatch)

/-- The error that armed entries put into a write of a line at its home: the state store's, then those of the HBM4E metadata (R415). -/
def injectedHome (die : Nat) (written : Nat → Bool) (old : LineCheck) : M LineCheck := do
  injected die 5 written (← injected die 1 written old)

/-- The check of a line after a merge of masked bytes (R143). -/
def mergedCheck (old : LineCheck) (mask : BitVec 64) : LineCheck :=
  if mask = allBytes then .good
  else match old with
    | .mismatch => .poisoned
    | .single => .good
    | c => c

/-- A merge of part of a line reads it first: a single-bit error is corrected and logged, for no consumer (R143, R145, R414). -/
def noteMerge (array line : Nat) (old : LineCheck) (mask : BitVec 64) : M Unit :=
  if old = .single ∧ mask ≠ allBytes then logError (homeOf line) array 0 line (ctxOf 0 0 none) else pure ()

/-- SOURCE of MEM.INTEGRITY (R144). -/
def LineCheck.source : LineCheck → Nat
  | .ecc => 1
  | .poisoned => 2
  | _ => 0

/-- The check of a line at its home. -/
def MemSys.checkOf (m : MemSys) (line : Nat) : LineCheck := tblGet .good m.check line

/-- A merge of bytes at the home of a line, with integrity (R143) and injection (R415); home
memory of a fenced die takes none (R25). -/
def homeMerge (line : Nat) (data : LineVal) (mask : BitVec 64) (own exempt : Option Nat) : M Unit := do
  let s ← get
  if mask = 0 || (pkgOf line = s.ws.own && !s.live (homeOf line)) then pure ()
  else
    let here := decide (pkgOf line = s.ws.own)
    set (s.writeHome line data mask (if here then own else none) exempt)
    if here then noteMerge 1 line (s.ms.checkOf line) mask else pure ()
    let c := mergedCheck (s.ms.checkOf line) mask
    let c ← if here then injectedHome (homeOf line) (inMasked line mask) c else pure c
    modMs fun m => { m with check := tblSet .good m.check line c }

/-- TRAP.VAL of MEM.INTEGRITY (R144). -/
def integrityVal (line : Nat) (c : LineCheck) : Word := BitVec.ofNat 64 (lineAddr line + c.source)

/-- Consumption of a line whose check is c by a consumer: a corrected error is logged, any other fails (R144, R145). -/
def consumeAs (ctx array line : Nat) (c : LineCheck) : M Unit := do
  match c with
  | .good => pure ()
  | .single => do
    logError (homeOf line) array 0 line ctx
    if array = 1 then modMs fun m => { m with check := tblSet .good m.check line .good } else pure ()
  | c => do
    logError (homeOf line) array (if c = .ecc then 1 else 2) line ctx
    raise .memIntegrity (integrityVal line c)

/-- Whether the home of a line holds every access to it: a resolution has staged an entry of it (R324). -/
def State.heldLine (s : State) (line : Nat) : Bool :=
  match s.hyps.cur with
  | some r => r.staged.contains line
  | none => false

/-- An access to a line waits while its home holds it (R324). -/
def awaitLine (line : Nat) : M Unit := do waitFor (!(← get).heldLine line) .answer

/-- Consumption of a line at its home, by a consumer and by the task. -/
def consumeHomeAs (ctx line : Nat) : M Unit := do
  awaitLine line
  consumeAs ctx 1 line ((← get).ms.checkOf line)
def consumeHome (line : Nat) : M Unit := do consumeHomeAs (← curCtx) line

/-! ### Versions (R311 to R317) -/

/-- The version of a line under a hypothesis. -/
def MemSys.version (m : MemSys) (line k : Nat) : Option Version := m.versions.find? fun v => v.line = line && v.hyp = k

/-- Whether a write under a tag is discarded: the tag is refuted, or has been and is FREE since (R315). -/
def HypSys.discards (h : HypSys) (k : Nat) : Bool := (h.get k).st = .free || h.refutedInChain k

/-- The version of a line under k written, or added (R312), with the line's check (R143); a write under a refuted tag is
discarded (R315). -/
def versionMerge (line k : Nat) (data : LineVal) (mask : BitVec 64) : M Unit := do
  let s ← get
  if s.hyps.discards k then pure ()
  else
    modMs fun m =>
      match m.version line k with
      | some _ => { m with versions := m.versions.map fun v =>
          if v.line = line ∧ v.hyp = k then
            { v with data := mergeLine v.data data mask, mask := v.mask ||| mask, check := mergedCheck v.check mask }
          else v }
      | none => { m with versions := m.versions ++ [⟨line, k, mergeLine 0 data mask, mask, .good⟩] }

/-- The entries a die's version store has in use. -/
def MemSys.versionsAt (m : MemSys) (own die : Nat) : Nat :=
  (m.versions.filter fun v => pkgOf v.line = own && homeOf v.line = die).length

/-- The state with a version entry for a line under k, reserved at its home; none where the die has no entry free (R317). -/
def State.withVersion (s : State) (line k : Nat) : Option State :=
  if (s.ms.version line k).isSome then some s
  else if s.ms.versionsAt s.ws.own (homeOf line) < 8192 * s.pf.fw.versionMiB then
    some { s with ms := { s.ms with versions := s.ms.versions ++ [⟨line, k, 0, 0, .good⟩] } }
  else none

/-- The slot waits for space up to HYP.SPILLWAIT cycles, then the cause is raised (R311, R317, R339). -/
def spaceWait (c : Cause) (val : Option Word) : M Unit := do
  let x ← curSlot
  let now := (← get).clock (dieOf (← curId))
  let w : Wait := if c = .strmFull then .page else .space
  if x.spillwait = 0 then throw (.trap c.code val)
  else match x.timer with
    | none => do
      modSlot fun x => { x with timer := some (now + x.spillwait.toNat), fullVal := val.getD 0, fullRep := none }
      park w
    | some t => if t ≤ now then throw (.trap c.code val) else park w

/-! ### The L1 of a cell (R133) -/

/-- Whether an L1 line is the one of a cell, an address space, a virtual line and a tag. -/
def L1Line.is (x : L1Line) (cell : Nat) (asid : BitVec 16) (va k : Nat) : Bool :=
  x.cell = cell && x.asid = asid && x.va = va && x.hyp = k

/-- The line held, if it is. -/
def MemSys.l1Find (m : MemSys) (cell : Nat) (asid : BitVec 16) (va k : Nat) : Option L1Line :=
  m.l1.find? fun x => x.is cell asid va k

/-- A line put last, in place of the one with its name if there is one: the lines stand in the order of their last use. -/
def MemSys.l1Put (m : MemSys) (y : L1Line) : MemSys :=
  { m with l1 := (m.l1.filter fun x => !x.is y.cell y.asid y.va y.hyp) ++ [y] }

/-- The lines without those that hold nothing. -/
def MemSys.l1Tidy (m : MemSys) : MemSys := { m with l1 := m.l1.filter fun x => x.valid ≠ 0 || x.owned ≠ 0 }

/-- The bytes of an L1 line that an acquire keeps and that a read of the home yields to: those dirty or owned (R139, R149). A
byte that is neither is not kept for a dirty neighbour's sake (R167). -/
def L1Line.kept (x : L1Line) : BitVec 64 := x.valid &&& (x.dirty ||| bytesOfWords x.owned)

/-- The architectural line as a cell's L1 holds it for a use of some of its bytes: filled from the home where one of them is
missing, every byte but those dirty or owned taken anew, so that no doubleword is made of two fills (R135, R162). The home's line
is consumed first, so a line that fails there enters no L1 (R10, R144; log entry 9). -/
def l1Fill (ctx cell : Nat) (asid : BitVec 16) (line va : Nat) (use : BitVec 64) : M L1Line := do
  match (← get).ms.l1Find cell asid va 0 with
  | some x =>
    if use &&& ~~~x.valid = 0 then pure x
    else do
      consumeHomeAs ctx line
      let y := { x with data := mergeLine ((← get).ms.homeLine line) x.data x.kept, valid := allBytes }
      modMs fun m => m.l1Put y
      pure y
  | none => do
    consumeHomeAs ctx line
    let y := ⟨cell, asid, va, line, 0, (← get).ms.homeLine line, allBytes, 0, 0, .good⟩
    modMs fun m => m.l1Put y
    pure y

/-- Consumption of an L1 line (R144); a single-bit error is written back corrected (R145). -/
def consumeL1As (ctx line : Nat) (x : L1Line) : M Unit := do
  consumeAs ctx 0 line x.check
  if x.check = .single then modMs fun m => m.l1Put { x with check := .good } else pure ()

/-- A check that travels with bytes from an L1 to the home or to a version (R142). -/
def carryCheck (line k : Nat) (c : LineCheck) : M Unit :=
  match c with
  | .good | .single => pure ()
  | c => modMs fun m =>
    if k = 0 then { m with check := tblSet .good m.check line c }
    else { m with versions := m.versions.map fun v => if v.line = line ∧ v.hyp = k then { v with check := c } else v }

/-- The dirty bytes of an L1 line performed at their home (R138, R140), a version's at the version store (R312). -/
def performLine (x : L1Line) (own : Option Nat) : M Unit :=
  if x.dirty = 0 then pure ()
  else do
    if x.hyp = 0 then homeMerge x.pa x.data x.dirty own none else versionMerge x.pa x.hyp x.data x.dirty
    carryCheck x.pa x.hyp x.check

/-- One line of a cell replaced: dirty bytes performed without ownership, owned words given up (R140). -/
def replaceLine (x : L1Line) : M Unit := do
  performLine x none
  modMs fun m => { m with
    l1 := m.l1.filter fun y => !(y.is x.cell x.asid x.va x.hyp)
    owner := m.owner.filter fun o => !(o.2 = x.cell + 1 && lineAddr o.1 = x.pa && x.hyp = 0 &&
      x.owned.getLsbD (o.1 % 64 / 4)) }

/-- The lines that a cell's L1 holds: 192 KiB of 64-byte lines (R13, R14). -/
def l1Lines : Nat := 3072

/-- The lines beyond what their cells' L1s hold, the oldest of each cell. -/
def MemSys.l1Beyond (m : MemSys) : List L1Line :=
  (firsts (m.l1.map (·.cell))).flatMap fun c =>
    let ls := m.l1.filter fun x => x.cell = c
    ls.take (ls.length - l1Lines)

/-- Every L1 within what it holds (R140), but for lines whose home holds every access to them (R324). -/
def State.trimmed (s : State) : State := runM (eachM replaceLine (s.ms.l1Beyond.filter fun x => !s.heldLine x.pa)) s

/-- Room for one more version of a line in an L1: where it holds four, the least recently used one is written back (R312). -/
def versionRoom (cell : Nat) (asid : BitVec 16) (va : Nat) : M Unit := do
  let held := (← get).ms.l1.filter fun x => x.cell = cell && x.asid = asid && x.va = va && x.hyp ≠ 0
  match held with
  | x :: _ => if 4 ≤ held.length then replaceLine x else pure ()
  | [] => pure ()

/-- Bytes stored into the L1 of a cell under a tag (R137, R312). -/
def l1Store (cell : Nat) (asid : BitVec 16) (line va k : Nat) (data : LineVal) (mask : BitVec 64) : M Unit := do
  let m := (← get).ms
  match m.l1Find cell asid va k with
  | some x => do
    noteMerge 0 line x.check mask
    let c ← injected (cell / 128) 0 (inMasked line mask) (mergedCheck x.check mask)
    modMs fun m => m.l1Put { x with data := mergeLine x.data data mask, valid := x.valid ||| mask,
                                    dirty := x.dirty ||| mask, check := c }
  | none => do
    if k = 0 then pure () else versionRoom cell asid va
    let c ← injected (cell / 128) 0 (inMasked line mask) .good
    modMs fun m => m.l1Put ⟨cell, asid, va, line, k, mergeLine 0 data mask, mask, mask, 0, c⟩

/-- The line of a cell after its dirty bytes were performed by a release: architectural words are owned for a line of the
package, with no byte that only the home may hold newer, and version bytes are not kept (R138, R167, R312). -/
def cleanLine (own : Nat) (x : L1Line) : L1Line :=
  if x.hyp = 0 then
    { x with dirty := 0, owned := if pkgOf x.pa = own then x.owned ||| wordsOf x.dirty else x.owned,
             valid := x.valid &&& (x.dirty ||| bytesOfWords x.owned ||| ~~~(bytesOfWords (wordsOf x.dirty))) }
  else { x with dirty := 0, valid := 0 }

/-- A buffered line performed at its home, the cell's L1 having written back and dropped the line (R149). -/
def performWc (cell : Nat) (w : WcLine) : M Unit := do
  let m := (← get).ms
  eachM (fun x => performLine x none) (m.l1.filter fun x => x.cell = cell && x.pa = w.line && x.hyp = 0)
  modMs fun m => { m with l1 := m.l1.filter fun x => !(x.cell = cell && x.pa = w.line && x.hyp = 0) }
  homeMerge w.line w.data w.mask none none

/-- FAB.UNREACH of a release, when a dirty line's home cannot be reached (R374). -/
def releaseFault (s : State) (cell : Nat) (wc : List WcLine) : Option Nat :=
  ((s.ms.l1.filter fun x => x.cell = cell && x.dirty ≠ 0 && !s.ws.reachable (pkgOf x.pa)).map (·.pa) ++
   (wc.filter fun w => !s.ws.reachable (pkgOf w.line)).map (·.line)).head?

/-- The effects of a release of a slot's cell, with the slot's buffer (R138). -/
def performAll (cell : Nat) (wc : List WcLine) : M Unit := do
  let m := (← get).ms
  let own := (← get).ws.own
  eachM (fun x => performLine x (some cell)) (m.l1.filter fun x => x.cell = cell && x.dirty ≠ 0)
  modMs fun m => MemSys.l1Tidy ({ m with l1 := m.l1.map fun (x : L1Line) => if x.cell = cell ∧ x.dirty ≠ 0 then cleanLine own x else x })
  eachM (performWc cell) wc

/-- Whether a release of a slot meets a line that its home holds (R324). -/
def State.releaseHeld (s : State) (cell : Nat) (wc : List WcLine) : Bool :=
  (s.ms.l1.any fun x => x.cell = cell && x.dirty ≠ 0 && s.heldLine x.pa) || wc.any fun w => s.heldLine w.line

/-- Release of a slot (R138). -/
def releaseOf (t : Nat) : M Unit := do
  let x := (← get).slot t
  waitFor (!(← get).releaseHeld (cellOf t) x.wc) .answer
  match releaseFault (← get) (cellOf t) x.wc with
  | some pa => raise .fabUnreach (BitVec.ofNat 64 pa)
  | none => do
    performAll (cellOf t) x.wc
    modSlotAt t fun x => { x with wc := [] }

/-- Release() of the task (R138). -/
def release : M Unit := do releaseOf (← curId)

/-- A line after an acquire: what is dirty or owned stays, and of a version its dirty bytes (R139, R312). -/
def acquireLine (x : L1Line) : L1Line :=
  if x.hyp = 0 then { x with valid := x.kept } else { x with valid := x.valid &&& x.dirty }

/-- Acquire of a cell (R139). -/
def acquireCell (cell : Nat) : M Unit :=
  modMs fun m => MemSys.l1Tidy ({ m with l1 := m.l1.map fun (x : L1Line) => if x.cell = cell then acquireLine x else x })

/-- Acquire() of the task (R139). -/
def acquire : M Unit := do acquireCell (cellOf (← curId))

/-- Every line of a cell dropped, and its owner records cleared (R158). -/
def dropCell (cell : Nat) : M Unit :=
  modMs fun m => { m with l1 := m.l1.filter fun x => x.cell ≠ cell, owner := m.owner.filter fun o => o.2 ≠ cell + 1 }

/-- Dirty bytes of a word that a cell holds merged at the home, and the word dropped (R153). -/
def dropWord (cell pa n : Nat) : M Unit := do
  let line := lineAddr pa
  let mask := byteMask (pa % 64) n
  awaitLine line
  let m := (← get).ms
  eachM (fun x => do
      homeMerge line x.data (x.dirty &&& mask) none none
      if x.dirty &&& mask = 0 then pure () else carryCheck line 0 x.check)
    (m.l1.filter fun x => x.cell = cell && x.pa = line && x.hyp = 0)
  modMs fun m => MemSys.l1Tidy ({ m with l1 := m.l1.map fun (x : L1Line) =>
    if x.cell = cell ∧ x.pa = line ∧ x.hyp = 0 then
      { x with valid := x.valid &&& ~~~mask, dirty := x.dirty &&& ~~~mask, owned := x.owned &&& ~~~(wordsOf mask) }
    else x })

/-- The task's buffered line that holds a byte of the word performed first (R149). -/
def flushWcWord (pa n : Nat) : M Unit := do
  let x ← curSlot
  let hit (w : WcLine) : Bool := w.line = lineAddr pa && w.mask &&& byteMask (pa % 64) n ≠ 0
  eachM (performWc (cellOf (← curId))) (x.wc.filter hit)
  modSlot fun x => { x with wc := x.wc.filter fun w => !hit w }

/-- Bytes that a newer store of the task takes out of its buffer (R149). -/
def unbuffer (t line : Nat) (mask : BitVec 64) : M Unit :=
  modSlotAt t fun x => { x with wc := (x.wc.map fun w =>
    if w.line = line then { w with mask := w.mask &&& ~~~mask } else w).filter fun w => w.mask ≠ 0 }

/-! ### Reads and writes of an agent -/

/-- The checks of the versions that supply bytes to a read, nearest first (R144, R313); what stays are the bytes that none holds. -/
def consumeVersions (ag : Agent) (line va : Nat) : List Nat → BitVec 64 → M (BitVec 64)
  | [], use => pure use
  | k :: r, use => do
    let m := (← get).ms
    let use ← match m.l1Find ag.cell ag.asid va k with
      | some x => do
        if use &&& (x.valid &&& x.dirty) = 0 then pure () else consumeL1As ag.ctx line x
        pure (use &&& ~~~(x.valid &&& x.dirty))
      | none => pure use
    let use ← match m.version line k with
      | some v => do
        if use &&& v.mask = 0 then pure () else consumeAs ag.ctx 1 line v.check
        pure (use &&& ~~~v.mask)
      | none => pure use
    consumeVersions ag line va r use

/-- An L1 line without its clean bytes: what a read of the home has shown newer does not stay behind it (R167). -/
def MemSys.l1Yield (m : MemSys) (cell : Nat) (asid : BitVec 16) (va : Nat) : MemSys :=
  MemSys.l1Tidy { m with l1 := m.l1.map fun (x : L1Line) => if x.is cell asid va 0 then { x with valid := x.kept } else x }

/-- The architectural line as an agent sees it, for some of its bytes: through the L1, or past it, where its dirty and owned
bytes come first (R139, R149). -/
def archLine (ag : Agent) (line va : Nat) (cached alloc : Bool) (use : BitVec 64) : M LineVal := do
  if cached && alloc then do
    let x ← l1Fill ag.ctx ag.cell ag.asid line va use
    consumeL1As ag.ctx line x
    pure x.data
  else
    let m := (← get).ms
    match if cached then m.l1Find ag.cell ag.asid va 0 else none with
    | some x => do
      if use &&& x.kept = 0 then pure () else consumeL1As ag.ctx line x
      if use &&& ~~~x.kept = 0 then pure () else consumeHomeAs ag.ctx line
      modMs fun m => m.l1Yield ag.cell ag.asid va
      pure (mergeLine (m.homeLine line) x.data x.kept)
    | none => do
      consumeHomeAs ag.ctx line
      pure (m.homeLine line)

/-- The versions that a cell's L1 holds of a chain, used now (R312). -/
def MemSys.l1Used (m : MemSys) (ag : Agent) (va : Nat) (ks : List Nat) : MemSys :=
  ks.foldl (fun m k => match m.l1Find ag.cell ag.asid va k with
    | some x => m.l1Put x
    | none => m) m

/-- A line with the bytes of the versions of a chain over it, the nearest on top (R313). -/
def overlay (m : MemSys) (ag : Agent) (line va : Nat) (ks : List Nat) (d : LineVal) : LineVal :=
  ks.reverse.foldl (fun d k =>
    let d := match m.version line k with
      | some v => mergeLine d v.data v.mask
      | none => d
    match m.l1Find ag.cell ag.asid va k with
    | some x => mergeLine d x.data (x.valid &&& x.dirty)
    | none => d) d

/-- A line as an agent sees it, for a use of some of its bytes (R139, R149, R313): the home or the L1, then the task's own buffer,
then the versions of its chain; only what supplies a used byte is consumed. `alloc` tells whether a miss allocates; `wc` is the
reader's buffer. -/
def viewLine (ag : Agent) (wc : List WcLine) (line va : Nat) (cached alloc : Bool) (use : BitVec 64) : M LineVal := do
  let s ← get
  let ks := if pkgOf line = s.ws.own then s.hyps.chain ag.hyp else []
  let buf := wc.filter fun w => w.line = line
  if ks.isEmpty then pure () else awaitLine line
  let rest ← consumeVersions ag line va ks use
  let rest := buf.foldl (fun r w => r &&& ~~~w.mask) rest
  let arch ← if rest = 0 then pure 0 else archLine ag line va cached alloc rest
  modMs fun m => m.l1Used ag va ks
  pure (overlay s.ms ag line va ks (buf.foldl (fun d w => mergeLine d w.data w.mask) arch))

/-- Whether a die performs stores under a hypothesis at the home: a resolution that affects it has been prepared there (R324). -/
def State.storesAtHome (s : State) (die k : Nat) : Bool :=
  match s.hyps.cur with
  | some r => r.phase = .prepare && r.acks.getLsbD die && r.affected.contains k
  | none => false

/-- Masked bytes of one line stored by an agent (R137, R149, R312); `t` is the task whose buffer gives them up. -/
def storeLine (ag : Agent) (t : Option Nat) (line va : Nat) (cached : Bool) (data : LineVal) (mask : BitVec 64) :
    M Unit := do
  let s ← get
  let k := s.hyps.eff ag.hyp
  if k = 0 then do
    match t with
    | some t => unbuffer t line mask
    | none => pure ()
    if cached then l1Store ag.cell ag.asid line va 0 data mask
    else do
      awaitLine line
      homeMerge line data mask none none
  else if s.hyps.discards k then pure ()
  else if cached && !s.storesAtHome ag.die k then l1Store ag.cell ag.asid line va k data mask
  else do
    awaitLine line
    versionMerge line k data mask

/-- n bytes read by an agent from an address on, line by line; the bytes do not run past the lines counted. -/
def readLines (ag : Agent) (wc : List WcLine) (cached alloc : Bool) : Nat → Nat → Nat → Nat → M Nat
  | 0, _, _, _ => pure 0
  | f + 1, pa, va, n =>
    if n = 0 then pure 0
    else do
      let k := min n (64 - pa % 64)
      let l ← viewLine ag wc (lineAddr pa) (lineAddr va) cached alloc (byteMask (pa % 64) k)
      let rest ← readLines ag wc cached alloc f (pa + k) (va + k) (n - k)
      pure (lineBytes l (pa % 64) k + 2 ^ (8 * k) * rest)

/-- n bytes of a number stored by an agent from an address on. -/
def storeLines (ag : Agent) (t : Option Nat) (cached : Bool) : Nat → Nat → Nat → Nat → Nat → M Unit
  | 0, _, _, _, _ => pure ()
  | f + 1, pa, va, n, v =>
    if n = 0 then pure ()
    else do
      let k := min n (64 - pa % 64)
      storeLine ag t (lineAddr pa) (lineAddr va) cached (lineOf (pa % 64) k v) (byteMask (pa % 64) k)
      storeLines ag t cached f (pa + k) (va + k) (n - k) (v / 2 ^ (8 * k))

/-- n bytes of a number performed at their homes, from an address on, by a unit that uses no cache. -/
def homeBytes : Nat → Nat → Nat → Nat → M Unit
  | 0, _, _, _ => pure ()
  | f + 1, pa, n, v =>
    if n = 0 then pure ()
    else do
      let k := min n (64 - pa % 64)
      homeMerge (lineAddr pa) (lineOf (pa % 64) k v) (byteMask (pa % 64) k) none none
      homeBytes f (pa + k) (n - k) (v / 2 ^ (8 * k))

end Sys2Proof.Machine
end

