-- ==== Sys2Proof/Machine/Window.lean ====
section
/-!
DEFINITION. State pages, page maps and accesses through the stream window (R334, R338 to R340), and reads and writes of a
place, wherever it lies.
-/

namespace Sys2Proof.Machine

/-- A stream, a map, a page by number. -/
def StrmSys.stream (x : StrmSys) (key : Nat) : Stream := tblGet .none x.streams key
def StrmSys.setStream (x : StrmSys) (key : Nat) (v : Stream) : StrmSys := { x with streams := tblSet .none x.streams key v }
def StrmSys.map (x : StrmSys) (i : Nat) : PageMap := tblGet .empty x.maps i
def StrmSys.setMap (x : StrmSys) (i : Nat) (v : PageMap) : StrmSys := { x with maps := tblSet .empty x.maps i v }
def StrmSys.page (x : StrmSys) (i : Nat) : Page := tblGet .none x.pages i
def StrmSys.setPage (x : StrmSys) (i : Nat) (v : Page) : StrmSys := { x with pages := tblSet .none x.pages i v }

/-- The lowest number from lo up that a table of rising keys does not list. -/
def lowestFree {α : Type} : Nat → Tbl α → Nat
  | lo, [] => lo
  | lo, (k, _) :: r => if k = lo then lowestFree (lo + 1) r else if k < lo then lowestFree lo r else lo

/-- The streams whose records a die's page store keeps (R335). -/
def StrmSys.recordsAt (x : StrmSys) (die : Nat) : Nat := (x.streams.filter fun e => e.2.home = die && e.2.st ≠ .dead).length

/-- Whether a die's page store has no space for another record (R343, R354); one that keeps no record has (log entry 47). -/
def State.recordsFull (s : State) (die : Nat) : Bool := s.ss.recordsAt die ≠ 0 && Config.recordsFull s.pf.fw.pageMiB (s.ss.recordsAt die)

/-- The pages of a die, resident or spilled. -/
def StrmSys.pagesOf (x : StrmSys) (die : Nat) (spilled : Bool) : List (Nat × Page) :=
  x.pages.filter fun p => p.2.home = die && p.2.spilled = spilled

/-- The resident page of a die that has not been used for the longest time (R334). -/
def StrmSys.oldest (x : StrmSys) (die : Nat) : Option Nat :=
  ((x.pagesOf die false).foldl (fun (b : Option (Nat × Nat)) p =>
    match b with
    | some (_, u) => if p.2.used < u then some (p.1, p.2.used) else b
    | none => some (p.1, p.2.used)) none).map (·.1)

/-- Room for one more resident page of a die, an old one spilled where the page store is full (R334). -/
def StrmSys.makeRoom (x : StrmSys) (pageMiB spillMiB die : Nat) : Option StrmSys :=
  if (x.pagesOf die false).length < pageMiB * 16 then some x
  else if (x.pagesOf die true).length < spillMiB * 16 then
    match x.oldest die with
    | some p => some (x.setPage p { x.page p with spilled := true })
    | none => none
  else none

/-- A fresh page with given bytes: its id, where one is free (R339). -/
def StrmSys.newPage (x : StrmSys) (pageMiB spillMiB die now : Nat) (data : Tbl Byte) : Option (Nat × StrmSys) :=
  match x.makeRoom pageMiB spillMiB die with
  | none => none
  | some x =>
    let id := lowestFree 1 x.pages
    if 2 ^ 24 ≤ id then none else some (id, x.setPage id ⟨data, 1, die, false, false, now⟩)

/-- One more reference to each page that a map names. -/
def StrmSys.retainAll (x : StrmSys) (m : PageMap) : StrmSys :=
  m.pages.foldl (fun x e => x.setPage e.2 { x.page e.2 with refs := (x.page e.2).refs + 1 }) x

/-- One reference to a page given up; the page is freed at none. -/
def StrmSys.releasePage (x : StrmSys) (p : Nat) : StrmSys :=
  if (x.page p).refs ≤ 1 then x.setPage p .none else x.setPage p { x.page p with refs := (x.page p).refs - 1 }

/-- One reference to a map given up; the map and the pages it alone names are freed at none (R345). -/
def StrmSys.releaseMap (x : StrmSys) (i : Nat) : StrmSys :=
  let m := x.map i
  if m.refs ≤ 1 then (m.pages.foldl (fun x e => x.releasePage e.2) x).setMap i .empty
  else x.setMap i { m with refs := m.refs - 1 }

/-- A fresh map id, and the map put there. -/
def StrmSys.newMap (x : StrmSys) (m : PageMap) : Nat × StrmSys :=
  let id := lowestFree 1 x.maps
  (id, x.setMap id m)

/-- The steps of R339 short of the write: entry e of a stream's map names a page of its own. -/
def StrmSys.ownPage (x : StrmSys) (pageMiB spillMiB now key e : Nat) : Option StrmSys :=
  let s := x.stream key
  let x :=
    if 1 < (x.map s.map).refs then
      let m := x.map s.map
      let y := (x.setMap s.map { m with refs := m.refs - 1 }).retainAll m
      let (id, y) := y.newMap { m with refs := 1 }
      y.setStream key { s with map := id }
    else x
  let mi := (x.stream key).map
  let p := tblGet 0 (x.map mi).pages e
  let put (q : Nat) (y : StrmSys) : StrmSys := y.setMap mi { y.map mi with pages := tblSet 0 (y.map mi).pages e q }
  if p = 0 then (x.newPage pageMiB spillMiB s.home now []).map fun r => put r.1 r.2
  else if 1 < (x.page p).refs then
    (x.newPage pageMiB spillMiB s.home now (x.page p).data).map fun r =>
      put r.1 (r.2.setPage p { r.2.page p with refs := (r.2.page p).refs - 1 })
  else some x

/-- A spilled page parks the access until it has been reloaded (R334). -/
def needResident (key e : Nat) : M Unit := do
  let x := (← get).ss
  let p := tblGet 0 (x.map (x.stream key).map).pages e
  if p ≠ 0 ∧ (x.page p).spilled then do
    modSs fun x => x.setPage p { x.page p with wanted := true }
    park .answer
  else if p ≠ 0 then do
    let now := (← get).clock (x.stream key).home
    modSs fun x => x.setPage p { x.page p with used := now }
  else pure ()

/-- The state with entry e of a stream naming a page of its own; none where there is no room for one (R339). -/
def State.withPage (s : State) (key e : Nat) : Option State :=
  (s.ss.ownPage s.pf.fw.pageMiB s.pf.fw.spillMiB (s.clock (s.ss.stream key).home) key e).map fun x => { s with ss := x }

/-- The map entries that n bytes at an offset touch. -/
def entriesOf (off n : Nat) : Nat := (off % 65536 + n + 65535) / 65536

/-- Each of n map entries from e up is resident for a load. -/
def residentEntries (key : Nat) : Nat → Nat → M Unit
  | _, 0 => pure ()
  | e, n + 1 => do
    needResident key e
    residentEntries key (e + 1) n

/-- n bytes at an offset of the window; null entries read as zeros (R338). -/
def StrmSys.readWin (x : StrmSys) (key : Nat) : Nat → Nat → Nat
  | _, 0 => 0
  | off, n + 1 =>
    let p := tblGet 0 (x.map (x.stream key).map).pages (off / 65536)
    (tblGet 0 (x.page p).data (off % 65536)).toNat + 256 * x.readWin key (off + 1) n

/-- n bytes of a number written at an offset of the window, into pages that are ready for it. -/
def StrmSys.writeWin (x : StrmSys) (key : Nat) : Nat → Nat → Nat → StrmSys
  | _, 0, _ => x
  | off, n + 1, v =>
    let p := tblGet 0 (x.map (x.stream key).map).pages (off / 65536)
    let g := x.page p
    StrmSys.writeWin (x.setPage p { g with data := tblSet 0 g.data (off % 65536) (BitVec.ofNat 8 v) }) key (off + 1) n
      (v / 256)

/-- Whether the stream that an access was checked for is no longer there: it is DEAD, or its id names another (R336, R338). -/
def StrmSys.gone (x : StrmSys) (key serial : Nat) : Bool := (x.stream key).st = .dead || (x.stream key).serial ≠ serial

/-- A load through the window (R338). -/
def windowLoad (key off n : Nat) : M Nat := do
  residentEntries key (off / 65536) (entriesOf off n)
  pure ((← get).ss.readWin key off n)

/-- Each of n map entries from e up owned for a store; where no room is left the store waits (R339). -/
def ownEntries (key : Nat) : Nat → Nat → M Unit
  | _, 0 => pure ()
  | e, n + 1 => do
    needResident key e
    match (← get).withPage key e with
    | some s => set s
    | none => park .space
    ownEntries key (e + 1) n

/-- A store through the window into pages of the stream's own (R339); a stream that is gone by then takes nothing (R338). -/
def windowStore (key serial off n v : Nat) : M Unit := do
  if (← get).ss.gone key serial then pure ()
  else do
    ownEntries key (off / 65536) (entriesOf off n)
    modSs fun x => x.writeWin key off n v

/-! ### Reads and writes of a place -/

/-- n bytes of a place, as an agent reads them (R148, R338). -/
def readPlace (ag : Agent) (wc : List WcLine) (alloc : Bool) (p : Place) (n : Nat) : M Nat :=
  match p with
  | .mem pa va cached => readLines ag wc cached alloc (n / 64 + 2) pa va n
  | .win key _ off => windowLoad key off n

/-- n bytes of a number stored into a place by an agent, at issue or when a queue entry executes (R137, R338, R339). -/
def storePlace (ag : Agent) (t : Option Nat) (p : Place) (n v : Nat) : M Unit :=
  match p with
  | .mem pa va cached => storeLines ag t cached (n / 64 + 2) pa va n v
  | .win key serial off => windowStore key serial off n v

/-- A read when a queue entry executes: a stream that is gone by then is STRM.WINDOW at the address (R338). -/
def readLate (ag : Agent) (wc : List WcLine) (p : Place) (n : Nat) : M Nat := do
  match p with
  | .win key serial off =>
    if (← get).ss.gone key serial then raise .strmWindow (BitVec.ofNat 64 (0x00FFFFFFFFC00000 + off))
    else windowLoad key off n
  | p => readPlace ag wc true p n

/-! ### What a store reserves before it issues (R10, R151, R236, R317, R339) -/

/-- The pages that bytes at a window offset touch, owned one after another; none where there is no room. -/
def State.withPages (key : Nat) : Nat → Nat → State → Option State
  | _, 0, s => some s
  | e, n + 1, s => (s.withPage key e).bind (State.withPages key (e + 1) n)

/-- The state with what a store of n bytes to a place needs: its line's version entry, or its pages. -/
def State.withRoom (s : State) (ag : Agent) (e : Place × Nat) : Except Failure State :=
  match e.1 with
  | .mem pa va _ =>
    let k := s.hyps.eff ag.hyp
    if k = 0 || s.hyps.discards k then .ok s
    else if pkgOf pa ≠ s.ws.own then .error (.hypRemote, none)
    else match s.withVersion (lineAddr pa) k with
      | some s => .ok s
      | none => .error (.versionFull, some (BitVec.ofNat 64 va))
  | .win key _ off =>
    match State.withPages key (off / 65536) (entriesOf off e.2) s with
    | some s => .ok s
    | none => .error (.strmFull, none)

/-- What the stores of an instruction need, in order: all of it, or the state unchanged and why. -/
def State.withRooms (ag : Agent) : List (Place × Nat) → State → Except Failure State
  | [], s => .ok s
  | e :: r, s => (s.withRoom ag e).bind (State.withRooms ag r)

/-- The pages that stores touch are resident, or the slot waits (R334). -/
def residentPlace (e : Place × Nat) : M Unit :=
  match e.1 with
  | .win key _ off => residentEntries key (off / 65536) (entriesOf off e.2)
  | .mem _ _ _ => pure ()

/-- What the stores of an instruction need is reserved, or nothing is: HYP.REMOTE is raised, and for want of room the slot waits
before VERSION.FULL or STRM.FULL (R10, R151, R236, R317, R339). -/
def reserveStores (ag : Agent) (ps : List (Place × Nat)) : M Unit := do
  eachM residentPlace ps
  match State.withRooms ag ps (← get) with
  | .ok s => set s
  | .error (c, val) => if c = .hypRemote then throw (.trap c.code val) else spaceWait c val

/-- The same for one place. -/
def reserveStore (ag : Agent) (p : Place) (n : Nat) : M Unit := reserveStores ag [(p, n)]

end Sys2Proof.Machine
end

