-- ==== Sys2Proof/Machine/Pool.lean ====
section
/-!
DEFINITION. The core pool: the partition word, scratchpad and accumulator bytes, tile states, byte barriers (R111 to R131).
-/

namespace Sys2Proof.Machine

/-! ### The partition word (R111, R112) -/

/-- v registers per slot. -/
def vCount (part : Word) : Nat := 8 * (fieldOf part 1 0 + 1)
/-- Accumulator tiles. -/
def accCount (part : Word) : Nat := fieldOf part 7 4
/-- Scratchpad tiles; 0 where the parts do not fit. -/
def nTiles (part : Word) : Nat := 94 - vCount part - 8 * accCount part
/-- Whether a tile lies in a discardable range. -/
def isDiscardable (part : Word) (t : Nat) : Bool :=
  (fieldOf part 23 16 ≤ t && t < fieldOf part 23 16 + fieldOf part 31 24) ||
  (fieldOf part 39 32 ≤ t && t < fieldOf part 39 32 + fieldOf part 47 40)
/-- A discardable range that fits (R112). -/
def rangeFits (first count n : Nat) : Bool := count = 0 || first + count ≤ n
/-- A valid partition word of a packet (R112). -/
def partOk (part : Word) : Bool :=
  accCount part ≤ 8 && 1 ≤ nTiles part && fieldOf part 63 48 = 0 && fieldOf part 15 8 = 0 && fieldOf part 3 2 = 0 &&
  rangeFits (fieldOf part 23 16) (fieldOf part 31 24) (nTiles part) &&
  rangeFits (fieldOf part 39 32) (fieldOf part 47 40) (nTiles part)
/-- PART as a task reads it: the packet's word with NTILES. -/
def partRead (part : Word) : Word := part ||| BitVec.ofNat 64 (nTiles part * 2 ^ 48)

/-! ### Tiles (R115 to R118) -/

/-- A tile's entry. -/
def Core.tile (c : Core) (t : Nat) : Tile := tblGet .empty c.tiles t
def Core.setTile (c : Core) (t : Nat) (x : Tile) : Core := { c with tiles := tblSet .empty c.tiles t x }
/-- A state's code (R123). -/
def TileState.code : TileState → Nat
  | .empty => 0 | .filling => 1 | .ready => 2 | .draining => 3
/-- An index names a tile of the partition (R115). -/
def tileIndexOk (part : Word) (t : Nat) : Bool := t < nTiles part || (0x80 ≤ t && t < 0x80 + accCount part)

/-- CheckIndex (R115). -/
def checkIndex (g : Word) : M Unit := do
  check (tileIndexOk (← curSlot).part g.toNat) .tileRange g

/-- The tile is not with an engine, or the slot parks (R61, R124). -/
def waitTile (t : Nat) : M Unit := do
  let st := ((← curCore).tile t).st
  waitFor (st ≠ .filling && st ≠ .draining) .tile

/-- WaitReady for an instruction that does not accept EMPTY (R117). -/
def waitReady (t : Nat) : M Unit := do
  waitTile t
  check (((← curCore).tile t).st = .ready) .tileEmpty (BitVec.ofNat 64 t)

/-- R118 at issue of a command that writes a tile: the tile is EMPTY, or the slot waits or traps. -/
def claimFill (t : Nat) : M Unit := do
  waitTile t
  checkFree (((← curCore).tile t).st = .empty) .tileState

/-- R118 at issue of a command that reads a tile out: the tile is READY. -/
def claimDrain (t : Nat) : M Unit := waitReady t

/-- A tile's entry written on a core. -/
def setTileAt (core t : Nat) (st : TileState) (owner : Nat) : M Unit :=
  modCoreAt core fun c => c.setTile t ⟨st, owner⟩

/-! ### Bytes -/

/-- n bytes of scratchpad, as a number. -/
def Core.scratchRead (c : Core) (off n : Nat) : Nat := tblReadN c.scratch off n
/-- n bytes of a number written to scratchpad. -/
def Core.scratchWrite (c : Core) (off n v : Nat) : Core := { c with scratch := tblWriteN c.scratch off n v }
/-- n bytes of accumulator tile t, as a number (R242). -/
def Core.accRead (c : Core) (t off n : Nat) : Nat := tblReadN c.acc (32768 * t + off) n
def Core.accWrite (c : Core) (t off n v : Nat) : Core := { c with acc := tblWriteN c.acc (32768 * t + off) n v }
/-- An accumulator tile all zero. -/
def Core.accZero (c : Core) (t : Nat) : Core := { c with acc := c.acc.filter fun b => b.1 / 32768 ≠ t }

/-- Scratchpad written by a unit, with the injection of R415. -/
def scratchStore (core off n v : Nat) : M Unit := do
  modCoreAt core fun c => c.scratchWrite off n v
  let p := ((← get).core core).poison
  let e ← injected (core / 1024) 2 (inWords (2 ^ 40 * core + off) n) (tblGet .good p (off / 4096))
  modCoreAt core fun c => { c with poison := tblSet .good c.poison (off / 4096) e }

/-- TRAP.VAL of MEM.INTEGRITY for a word of a core pool or of operand memory (R144, R145): SOURCE 1, reserved bits zero; such a word
has no fabric address, so LINE is free (log entry 5). -/
def poolVal : M Word := do pure (BitVec.ofNat 64 (fieldOf (← freshWord) 55 6 * 64 + 1))

/-- Consumption of scratchpad by a task: a corrected error is logged, another fails (R120, R145). -/
def consumeScratch (core off : Nat) : M Unit := do
  let e := tblGet .good ((← get).core core).poison (off / 4096)
  let addr := 2 ^ 40 * core + off
  match e with
  | .good => pure ()
  | .single => do
    logError (core / 1024) 2 0 addr (← curCtx)
    modCoreAt core fun c => { c with poison := tblSet .good c.poison (off / 4096) .good }
  | _ => do
    logError (core / 1024) 2 1 addr (← curCtx)
    raise .memIntegrity (← poolVal)

/-! ### Operand slots and matrix entries (R239, R241, R246) -/

/-- An operand slot of a cell. -/
def State.opSlot (s : State) (cell o : Nat) : OpSlot := tblGet .free (s.cell cell).slots o
/-- An operand slot of a cell replaced. -/
def State.setOpSlot (s : State) (cell o : Nat) (x : OpSlot) : State :=
  s.setCell cell { s.cell cell with slots := tblSet .free (s.cell cell).slots o x }
/-- A change of an operand slot of a cell. -/
def modOpSlot (cell o : Nat) (f : OpSlot → OpSlot) : M Unit := modify fun s => s.setOpSlot cell o (f (s.opSlot cell o))

/-- Numbers from a to b, none when b < a. -/
def upTo (a b : Nat) : List Nat := (List.range (b + 1 - a)).map fun k => a + k

/-- The tiles that an `oload` with its control word touches, ascending (R246). -/
def loadTiles (ga gb : Word) : List Nat :=
  let count := fieldOf gb 12 6
  let e := if gb.getLsbD 13 then upTo (ga.toNat / 4096) ((ga.toNat + (count - 1) * fieldOf gb 31 16 + 383) / 4096) else []
  let s := if gb.getLsbD 14 then upTo (fieldOf gb 50 32 / 4096) ((fieldOf gb 50 32 + 192 * count - 1) / 4096) else []
  e ++ s.filter fun t => !e.contains t

/-- The first byte of the span of an `oload` at or beyond an offset: of its elements, else of its sidebands (R115, R246;
DEDUCED, log entry 66). -/
def loadBeyond (ga gb : Word) (limit : Nat) : Option Nat :=
  let count := fieldOf gb 12 6
  let past (lo n : Nat) : Option Nat := if limit < lo + n then some (max lo limit) else none
  (if gb.getLsbD 13 then past ga.toNat ((count - 1) * fieldOf gb 31 16 + 384) else none).orElse fun _ =>
    if gb.getLsbD 14 then past (fieldOf gb 50 32) (192 * count) else none

/-- The tiles that a matrix entry names. -/
def MEntry.tiles (e : MEntry) : List Nat :=
  match e.instr with
  | .oload _ _ _ => loadTiles e.ga e.gb
  | .mxzero d | .mxmul d _ _ | .mxloadc d _ _ | .mxstore d _ _ => [0x80 + d.toNat]
  | _ => []
/-- The operand slots that a matrix entry names. -/
def MEntry.opSlots (e : MEntry) : List Nat :=
  match e.instr with
  | .oclaim _ a => [a.toNat]
  | .oload d _ _ => [d.toNat]
  | .mxmul _ a b => [a.toNat, b.toNat]
  | _ => []

/-- What an entry that is discarded unperformed leaves of its tiles: a fill EMPTY, a drain READY (R117; log entry 23). -/
def MEntry.release (core : Nat) (e : MEntry) : M Unit :=
  match e.instr with
  | .mxzero _ | .mxloadc _ _ _ => eachM (fun t => setTileAt core t .empty 0) e.tiles
  | .mxstore _ _ _ | .oload _ _ _ => eachM (fun t => setTileAt core t .ready 0) e.tiles
  | _ => pure ()

/-- The matrix entries of a task on a core discarded, those with a number above n. -/
def discardMx (core t n : Nat) : M Unit := do
  eachM (MEntry.release core) (((← get).core core).mq.filter fun e => e.slot = t && n < e.order)
  modCoreAt core fun c => { c with mq := c.mq.filter fun e => !(e.slot = t && n < e.order) }

/-! ### Byte barriers (R125 to R130) -/

/-- A byte barrier (R125). -/
structure Bar where
  pending : Int
  expected : Nat
  arrivals : Nat
  phase : Bool
  armed : Bool
  auto : Bool
  rsv : Nat
  deriving DecidableEq, Repr

/-- The barrier in 16 bytes. -/
def Bar.ofNat (w : Nat) : Bar :=
  { pending := (BitVec.ofNat 64 w).toInt, expected := w / 2 ^ 64 % 65536, arrivals := w / 2 ^ 80 % 65536,
    phase := w / 2 ^ 96 % 2 = 1, armed := w / 2 ^ 97 % 2 = 1, auto := w / 2 ^ 98 % 2 = 1, rsv := w / 2 ^ 99 % 2 ^ 29 }
/-- The 16 bytes of a barrier. -/
def Bar.toNat (b : Bar) : Nat :=
  (wrap64 b.pending).toNat + b.expected % 65536 * 2 ^ 64 + b.arrivals % 65536 * 2 ^ 80 + b.phase.toNat * 2 ^ 96 +
    b.armed.toNat * 2 ^ 97 + b.auto.toNat * 2 ^ 98 + b.rsv % 2 ^ 29 * 2 ^ 99
/-- CheckFlip (R126). -/
def Bar.flip (b : Bar) : Bar :=
  if b.armed && b.pending = 0 && b.arrivals = 0 then
    { b with phase := !b.phase, arrivals := b.expected, armed := b.auto }
  else b
/-- What BAR.CORRUPT reports (R125). -/
def Bar.corrupt (b : Bar) : Bool := b.rsv ≠ 0 || b.expected < b.arrivals

/-- Arrive (R130): none where ARRIVALS is 0. -/
def Bar.arrive (b : Bar) : Option Bar := if b.arrivals = 0 then none else some { b with arrivals := b.arrivals - 1 }
/-- ArriveAndDrop (R130) for an entry's recorded phase. -/
def Bar.arriveAndDrop (b : Bar) (entry : Option Bool) : Option Bar :=
  if b.expected = 0 then none
  else
    match if entry = some b.phase then some b else b.arrive with
    | none => none
    | some b => some { b with expected := b.expected - 1 }

/-- The barrier at an offset of a core. -/
def Core.bar (c : Core) (off : Nat) : Bar := .ofNat (c.scratchRead off 16)
/-- The barrier written, CheckFlip run (R126, R127). -/
def Core.setBar (c : Core) (off : Nat) (b : Bar) : Core := c.scratchWrite off 16 b.flip.toNat

/-- A delivery of bytes (R126): none where PENDING would pass −2^63 (R128). -/
def Bar.deliver (b : Bar) (n : Nat) : Option Bar :=
  if b.pending - n < -(2 ^ 63) then none else some { b with pending := b.pending - n }

end Sys2Proof.Machine
end

