-- ==== Sys2Proof/Machine/Resolve.lean ====
section
/-!
DEFINITION. What the resolver does to the hypothesis tree and to versions: opening, the commit of a confirm or a refute,
sweeps and the freeing of ids (R308 to R332). Log entries 11 and 12.
-/

namespace Sys2Proof.Machine

/-- A FREE id opened as a child of p (R320, R328, R332). -/
def hypOpen (region : Bool) (p : Nat) (asid : BitVec 16) : M (Option Nat) := do
  let h := (← get).hyps
  match h.nextFree with
  | none => pure none
  | some k => do
    modHyps fun h => h.take.set k ⟨.opened, region, p, (h.get p).depth + 1, asid, false, false, 0⟩
    pure (some k)

/-- The dirty version bytes that L1s hold under the given tags, performed at their homes (R324). -/
def performVersions (ks : List Nat) : M Unit := do
  eachM (fun (x : L1Line) => performLine x none) ((← get).ms.l1.filter fun x => x.hyp ≠ 0 && ks.contains x.hyp)
  modMs fun m => { m with l1 := m.l1.filter fun x => x.hyp = 0 || !ks.contains x.hyp }

/-- The dies that are live, as a mask. -/
def State.liveMask (s : State) : BitVec 4 := s.pf.live

/-- k and every hypothesis below it REFUTED at one commit; every live die owes a sweep (R315, R323). -/
def commitRefute (k : Nat) : M Unit := modify fun s =>
  let dead := s.hyps.subtree k
  { s with hyps := dead.foldl (fun h j =>
      let r := h.get j
      if r.st = .refuted then h else h.set j { r with st := .refuted, busy := false, sweep := s.liveMask }) s.hyps }

/-- The versions of k written into p, or into memory where p is the root, a failed check with its bytes (R142, R314). -/
def mergeVersions (k p : Nat) : M Unit := do
  let vs := (← get).ms.versions.filter fun v => v.hyp = k
  eachM (fun (v : Version) => do
    if p = 0 then homeMerge v.line v.data v.mask none none else versionMerge v.line p v.data v.mask
    carryCheck v.line p v.check) vs
  modMs fun m => { m with versions := m.versions.filter fun v => v.hyp ≠ k }

/-- The commit of a confirm of k into its parent, with `excl` for its siblings (R323, R324). -/
def commitConfirm (k : Nat) (excl : Bool) : M Unit := do
  performVersions [k]
  let h := (← get).hyps
  let r := h.get k
  let p := h.eff r.parent
  let children := h.ids.filter fun j => (h.get j).st = .opened && (h.get j).parent = k
  let below := h.ids.filter fun j => children.any fun c => h.within j c
  let siblings := h.ids.filter fun j =>
    j ≠ k && (h.get j).st = .opened && h.eff (h.get j).parent = p && (h.get j).asid = r.asid
  mergeVersions k p
  modHyps fun h =>
    let h := below.foldl (fun h j =>
      let q := h.get j
      h.set j { q with depth := q.depth - 1, parent := if children.contains j then p else q.parent }) h
    h.set k { h.get k with st := .confirmed, busy := false, parent := p, sweep := 0 }
  if excl then eachM commitRefute siblings else pure ()

/-- A die's sweep: its L1 lines and version entries under refuted tags are freed (R315). -/
def sweepDie (d : Nat) : M Unit := modify fun s =>
  let gone (k : Nat) : Bool := k ≠ 0 && (s.hyps.get k).st = .refuted
  { s with
    ms := { s.ms with l1 := s.ms.l1.filter fun x => !(x.cell / 128 = d && gone x.hyp),
                      versions := s.ms.versions.filter fun v => !(homeOf v.line = d && gone v.hyp) }
    hyps := { s.hyps with table := s.hyps.table.map fun r =>
      if r.2.st = .refuted then (r.1, { r.2 with sweep := r.2.sweep &&& ~~~(1#4 <<< d) }) else r } }

/-- The hypotheses that tasks name: HYP.CUR.ID and region stacks, of running and of saved slots (R316). -/
def State.taskHyps (s : State) : List Nat :=
  (s.slots.map (·.2) ++ s.ls.saved.flatMap fun c => c.slots.map (·.2)).flatMap fun x =>
    x.hypId :: x.regions.map (·.id)

/-- The hypotheses under which writes may still come: those of queued vector and matrix entries and of Carter commands. A die has not
finished its sweep for one of them (R315, R316; DEDUCED, log entry 28). -/
def State.writingHyps (s : State) : List Nat :=
  (s.cores.flatMap fun c => c.2.vq.map (·.hyp) ++ c.2.mq.map (·.hyp)) ++
  (s.es.cmds ++ s.ls.saved.flatMap (·.cmds)).map (·.hyp)

/-- Ids with the parents of the CONFIRMED ones, followed n links: a referenced CONFIRMED record holds its parent (R316). -/
def referenced (h : HypSys) : Nat → List Nat → List Nat
  | 0, l => l
  | n + 1, l =>
    referenced h n (l ++ ((l.filter fun k => (h.get k).st = .confirmed).map fun k => (h.get k).parent).filter fun k => !l.contains k)

/-- The reference count of a record (R308): the tasks, OPEN hypotheses and CONFIRMED records that name it. -/
def State.hypRefs (s : State) (k : Nat) : Nat :=
  (s.taskHyps.filter (· = k)).length +
  (s.hyps.ids.filter fun j => ((s.hyps.get j).st = .opened || (s.hyps.get j).st = .confirmed) && (s.hyps.get j).parent = k).length

/-- The ids that return to FREE, ascending (R316). A resolution that is under way keeps the records it affects, and a finish that the
master owes keeps its region (R82, R323). -/
def State.freeableHyps (s : State) : List Nat :=
  let h := s.hyps
  let openParents := (h.ids.filter fun k => (h.get k).st = .opened).map fun k => (h.get k).parent
  let refs := referenced h 16 (s.taskHyps ++ s.writingHyps ++ openParents)
  let pending := match h.cur with
    | some r => r.req.target :: r.affected
    | none => []
  h.ids.filter fun k =>
    ((h.get k).st = .confirmed || (h.get k).st = .refuted) && (h.get k).sweep = 0 && !refs.contains k &&
      !(s.ls.finishing.any fun f => f.region = k) && !pending.contains k

/-- An id freed: it joins the order of reuse, and a REFUTED record that names it as its parent names that one's parent instead, so that
its chain still leads to the nearest surviving ancestor (R316, R320, R326; DEDUCED, log entry 28). -/
def HypSys.release (h : HypSys) (k : Nat) : HypSys :=
  let p := (h.get k).parent
  { h with table := (tblErase h.table k).map fun r => if r.2.parent = k then (r.1, { r.2 with parent := p }) else r,
           freed := h.freed ++ [k] }

/-- Those ids freed, in ascending order (R316). -/
def collectHyps : M Unit := modify fun s => { s with hyps := s.freeableHyps.foldl HypSys.release s.hyps }

/-! ### The table in memory (R308) -/

/-- What a record of the table holds, in one number (R308): state, kind, parent, depth, ASID, non-revocable bit, reference count. -/
def State.recordHeld (s : State) (k : Nat) : Nat :=
  let r := s.hyps.get k
  (match r.st with
    | .free => 0
    | .opened => 1
    | .confirmed => 2
    | .refuted => 3) + 4 * r.region.toNat + 8 * r.nonrev.toNat + 16 * r.depth + 2 ^ 8 * r.asid.toNat + 2 ^ 24 * r.parent +
    2 ^ 40 * s.hypRefs k

/-- The resolver stores a record to the table's replica on every live die; how its 32 bytes hold the record is not stated (R308, R141;
DESIGN CHOICE, log entry 59). -/
def storeRecord (k : Nat) : M Unit := do
  let s ← get
  let v := s.recordHeld k
  eachM (fun d => homeBytes 2 (s.ws.own * 2 ^ 40 + d * 2 ^ 38 + s.pf.fw.hypTab % 2 ^ 38 + 32 * k) 32
    (Config.hypRecord (BitVec.ofNat 128 v)).toNat) s.liveDies
  modHyps fun h => { h with written := tblSet 0 h.written k v }

/-- The records that have changed since the resolver stored them stored again, once firmware has published the table (R308). -/
def storeTable : M Unit := do
  let s ← get
  if s.pf.fw.hypTab = 0 then pure ()
  else eachM storeRecord ((s.hyps.ids ++ s.hyps.written.map (·.1)).filter fun k => s.recordHeld k ≠ tblGet 0 s.hyps.written k)

/-! ### Regions (R326 to R330) -/

/-- The innermost region of a slot popped, HYP.CUR.ID being the surviving parent (R329, R330). -/
def popRegion (t : Nat) : M Unit := modify fun s =>
  let x := s.slot t
  match x.regions with
  | [] => s
  | r :: rest =>
    s.setSlot t { x with regions := rest, impl := x.impl && !rest.isEmpty, hypId := s.hyps.eff (s.hyps.get r.id).parent }

/-- The regions of a list that are OPEN refuted, innermost first (R68, R404). -/
def refuteList (rs : List Region) : M Unit :=
  eachM (fun (r : Region) => do
    if ((← get).hyps.get r.id).st = .opened then commitRefute r.id else pure ()) rs

/-- The open regions of a slot refuted; `keep` leaves the implicit region to the master (R82). -/
def refuteRegions (t : Nat) (keep : Bool) : M Unit := do
  let x := (← get).slot t
  refuteList (if keep && x.impl then x.regions.dropLast else x.regions)

/-- The outermost REFUTED hypothesis on the chain of k (R326). -/
def HypSys.outermostRefuted (h : HypSys) (k : Nat) : Option Nat :=
  ((h.chain k).reverse.filter fun j => (h.get j).st = .refuted).head?

/-- Delivery of ORPHAN to a slot (R326): regions at or below r popped, HYP.CUR.ID the surviving ancestor; r is the result. -/
def orphanMove (t r : Nat) : M Unit := modify fun s =>
  let x := s.slot t
  let rest := x.regions.filter fun e => !s.hyps.within e.id r
  s.setSlot t { x with regions := rest, impl := x.impl && !rest.isEmpty, hypId := s.hyps.eff (s.hyps.get r).parent }

/-- The orphan check of the task (R326, R327): the refuted hypothesis, or HYP.CUR.ID replaced by its Eff. -/
def orphanCheck (t : Nat) : M Unit := do
  let s ← get
  let x := s.slot t
  match s.hyps.outermostRefuted x.hypId with
  | some r => do
    orphanMove t r
    raise .orphan (BitVec.ofNat 64 r)
  | none => modSlotAt t fun x => { x with hypId := s.hyps.eff x.hypId }

end Sys2Proof.Machine
end

