-- ==== Sys2Proof/Machine/Records.lean ====
section
/-!
DEFINITION. Completion signals, launch, graph and job records, the completion of packets, and the end of streams
(R73 to R78, R285, R296, R297, R336, R345).
-/

namespace Sys2Proof.Machine

/-- n bytes of a number performed at their home by a unit of the device (R137). -/
def homeWrite (pa n v : Nat) : M Unit := homeBytes (n / 64 + 2) pa n v

/-- A signal less an amount, as one indivisible write at its home (R296). -/
def signalDown (pa : Nat) (delta : Int) : M Unit := do
  let old := (BitVec.ofNat 64 (← peek pa 8)).toInt
  homeWrite pa 8 (wrap64 (old - delta)).toNat

/-- A completion signal decremented by 1, if there is one. -/
def signalDone : Option Nat → M Unit
  | some pa => signalDown pa 1
  | none => pure ()

/-- A system address of an address space translated by a unit of the device; none where the walk fails. -/
def State.sysTranslate (s : State) (asid : BitVec 16) (va : Nat) (k : Acc) : Option Nat :=
  let ag : Agent := { die := 0, cell := 2 ^ 20, asid := asid, sys := true, secure := true, hyp := 0, strm := 0,
                      serial := 0, ctx := ctxOf asid.toNat 0 none }
  if 2 ^ 56 ≤ va || inWindow va then none
  else match translatePlain s ag k va with
    | .ok t => some t.pa
    | .error _ => none

/-! ### Records (R73) -/

def State.recOutstanding (s : State) (rec : Nat) : Int := (BitVec.ofNat 64 (s.peek rec 8)).toInt
def State.recStatus (s : State) (rec : Nat) : Nat := s.peek (rec + 8) 1
def State.recCancel (s : State) (rec : Nat) : Bool := s.peek (rec + 9) 1 % 2 = 1
def State.recLevel (s : State) (rec : Nat) : Nat := s.peek (rec + 10) 1 % 4
def State.recAsid (s : State) (rec : Nat) : BitVec 16 := BitVec.ofNat 16 (s.peek (rec + 12) 2)
/-- The parent's record, by its virtual address in the record's address space (log entry 19). -/
def State.recParent (s : State) (rec : Nat) : Option Nat :=
  let p := s.peek (rec + 16) 8
  if p = 0 then none else s.sysTranslate (s.recAsid rec) p .write

/-- CANCEL_REQ of a record or of one of n ancestors (R75). -/
def cancelledFrom (s : State) : Nat → Nat → Bool
  | 0, _ => false
  | n + 1, rec => s.recCancel rec || (match s.recParent rec with
    | some p => cancelledFrom s n p
    | none => false)
/-- Whether a record is cancelled: a launch, its graph, its job. -/
def State.recCancelled (s : State) (rec : Nat) : Bool := cancelledFrom s 3 rec

/-! ### Launches -/

/-- An open launch by number. -/
def State.launch? (s : State) (n : Nat) : Option Launch := s.ls.launches.find? fun l => l.number = n
/-- A change of an open launch. -/
def modLaunch (n : Nat) (f : Launch → Launch) : M Unit :=
  modLs fun x => { x with launches := x.launches.map fun l => if l.number = n then f l else l }
/-- Whether a launch is cancelled (R75). -/
def State.launchCancelled (s : State) (n : Nat) : Bool :=
  match s.launch? n with
  | some l => s.recCancelled l.recAddr
  | none => false
/-- The dies over which the indices of a DEP launch are spread, ascending (R79). -/
def Launch.dieList (l : Launch) : List Nat := (List.range 4).filter fun d => l.tableDies.getLsbD d
/-- The number of indices of a launch. -/
def Launch.count (l : Launch) : Nat := l.sx * l.sy * l.sz

/-! ### Packets (R285, R297) -/

/-- A fabric interrupt message for a packet of the queue with a QCB, whether or not a table still lists it (R297). -/
def packetInterrupt (qcb index : Nat) : M Unit := do
  let s ← get
  sendFlit (homeOf qcb) (.interrupt (s.peek (qcb + 56) 2) (s.peek (qcb + 60) 4) (qcb % 2 ^ 40) index)

/-- A packet of a queue completes: it is in flight no more, and it may interrupt. -/
def packetDone (qcb index intr : Nat) : M Unit := do
  modFs fun f => { f with inFlight := f.inFlight.erase (qcb, index) }
  if intr = 1 then packetInterrupt qcb index else pure ()

/-! ### The end of a record (R74) -/

/-- A record's completion actions: for a launch, its signal, its packet, its number and its DEP counters (R74, R79, R287). -/
def launchEnded (rec : Nat) : M Unit := do
  match (← get).ls.launches.find? fun l => l.recAddr = rec with
  | none => pure ()
  | some l => do
    modLs fun x => { x with launches := x.launches.filter fun m => m.number ≠ l.number,
                            preempt := x.preempt.filter fun p => p.1 ≠ l.number }
    signalDone l.signal
    match l.queue with
    | some (qcb, index, intr) => packetDone qcb index intr
    | none => pure ()

/-- The largest status of a record at its end (R74, R78). -/
def State.endStatus (s : State) (rec : Nat) : Nat :=
  let own := match s.ls.launches.find? fun l => l.recAddr = rec with
    | some l => if l.faulted then 4 else if l.lost then 3 else 1
    | none => 1
  max (max own (tblGet 0 s.ls.worst rec)) (if s.recCancelled rec then 2 else 1)

/-- The job of a non-REISSUABLE launch that ends LOST is cancelled (R78); what follows from CANCEL_REQ comes with the next
`applyCancel`. -/
def cancelJobOf (rec st : Nat) : M Unit := do
  let s ← get
  let lost := st = 3 && s.ls.launches.any fun l => l.recAddr = rec && !l.reissuable
  match if lost then (s.recParent rec).bind s.recParent else none with
  | some job =>
    if s.recStatus job = 0 && !s.recCancel job then homeWrite (job + 9) 1 (s.peek (job + 9) 1 / 2 * 2 + 1) else pure ()
  | none => pure ()

/-- OUTSTANDING of a record lowered by an amount, with the end of the record and its parents (R74); n bounds the levels. -/
def recDown : Nat → Nat → Int → M Unit
  | 0, _, _ => pure ()
  | n + 1, rec, amount => do
    let old := (← get).recOutstanding rec
    homeWrite rec 8 (wrap64 (old - amount)).toNat
    if 0 < old ∧ old - amount ≤ 0 ∧ (← get).recStatus rec = 0 then do
      let s ← get
      let st := s.endStatus rec
      homeWrite (rec + 8) 1 st
      modLs fun x => { x with worst := tblErase x.worst rec }
      let parent := s.recParent rec
      cancelJobOf rec st
      launchEnded rec
      match parent with
      | some p => do
        if (← get).recStatus p = 0 then modLs fun x => { x with worst := tblSet 0 x.worst p (max st (tblGet 0 x.worst p)) } else pure ()
        recDown n p 1
      | none => pure ()
    else pure ()

/-- OUTSTANDING of a launch lowered with release, if it is open. -/
def launchDown (number : Nat) (amount : Int) : M Unit := do
  match (← get).launch? number with
  | some l => recDown 4 l.recAddr amount
  | none => pure ()

/-- OUTSTANDING of a launch raised. -/
def launchUp (number : Nat) (amount : Int) : M Unit := do
  match (← get).launch? number with
  | some l => do
    let old := (← get).recOutstanding l.recAddr
    homeWrite l.recAddr 8 (wrap64 (old + amount)).toNat
  | none => pure ()

/-! ### The end of streams (R345) -/

/-- The join group that a stream belongs to: removed from its members. -/
def leaveGroup (key : Nat) : M Unit := modSs fun x =>
  match (x.stream key).group with
  | some g => { x with groups := match tblGet none x.groups g with
      | some grp => tblSet none x.groups g (some { grp with members := grp.members.filter fun m => m ≠ key })
      | none => x.groups }
  | none => x

/-- A batch member that is no longer the stream it was: its id stays in the low 20 bits (R345, R351). -/
def goneMember (key : Nat) (m : Nat) : Nat := if m = key then key + 2 ^ 40 else m

/-- The members of a slot's batch once a stream is DEAD: the end of the step skips it (R345). -/
def Slot.forget (key : Nat) (x : Slot) : Slot := { x with members := x.members.map (goneMember key) }

/-- sdrop of a stream that lives (R345): off the scheduler, its map given up, its launch's OUTSTANDING lowered. -/
def dropStream (key : Nat) : M Unit := do
  let st := (← get).ss.stream key
  if st.st = .dead then pure ()
  else do
    leaveGroup key
    modSs fun x =>
      let x := x.releaseMap st.map
      { x with streams := tblSet .none x.streams key .none, waiting := x.waiting.filter fun w => w.1 ≠ key,
               batches := (x.batches.map fun b => { b with members := b.members.filter fun m => m ≠ key }).filter
                 fun b => !b.members.isEmpty }
    if st.st = .stepping then modify fun s =>
      { s with slots := s.slots.map fun x => (x.1, x.2.forget key)
               ls := { s.ls with saved := s.ls.saved.map fun c =>
                 { c with slots := c.slots.map fun x => (x.1, x.2.forget key) } } }
    else pure ()
    launchDown st.launch 1

/-- Whether a task, running or saved, names a stream by STRM.CUR (R336). -/
def State.streamNamed (s : State) (key : Nat) : Bool :=
  (s.slots.any fun x => strmKey x.2.asid x.2.strmCur.toNat = key) ||
  s.ls.saved.any fun c => c.slots.any fun x => strmKey x.2.asid x.2.strmCur.toNat = key

/-- Whether a batch that waits takes a stream in (R350). -/
def Batch.takes (b : Batch) (m : Stream) : Bool :=
  b.die = m.home && b.launch = m.launch && b.stepPc = m.stepPc && b.members.length < 64

/-- Whether a stream belongs to the group of another: same die, owning launch and step PC (R350). -/
def Stream.mates (m n : Stream) : Bool := n.home = m.home && n.launch = m.launch && n.stepPc = m.stepPc

/-- The stream in the first batch that takes it in. -/
def joinBatch (key : Nat) (m : Stream) : List Batch → List Batch
  | [] => []
  | b :: r => if b.takes m then { b with members := b.members ++ [key] } :: r else b :: joinBatch key m r

/-- The WAITING streams of a stream's group, oldest first (R350). -/
def StrmSys.mates (x : StrmSys) (m : Stream) : List Nat :=
  (x.waiting.filter fun w => m.mates (x.stream w.1)).map (·.1)

/-- A batch formed of the oldest streams of a group, up to 64 (R350). -/
def StrmSys.formBatch (x : StrmSys) (m : Stream) : StrmSys :=
  let ks := (x.mates m).take 64
  { x with waiting := x.waiting.filter fun w => !ks.contains w.1,
           batches := x.batches ++ [⟨m.home, m.launch, m.stepPc, ks⟩] }

/-- A stream becomes WAITING: a waiting batch takes it in, or it waits in its group, which forms a batch at 64 (R350). -/
def becomeWaiting (key : Nat) (m : Stream) : M Unit := modify fun s =>
  let x := s.ss.setStream key { m with st := .waiting }
  let y :=
    if x.batches.any fun b => b.takes m then { x with batches := joinBatch key m x.batches }
    else
      let x := { x with waiting := x.waiting ++ [(key, s.clock m.home)] }
      if 64 ≤ (x.mates m).length then x.formBatch m else x
  { s with ss := y }

/-- The streams of a launch. -/
def State.streamsOf (s : State) (number : Nat) : List Nat :=
  (s.ss.streams.filter fun x => x.2.launch = number && x.2.st ≠ .dead).map (·.1)

end Sys2Proof.Machine
end

