-- ==== Sys2Proof/Machine/Tasks.lean ====
section
/-!
DEFINITION. The life of a task: which core accepts it, its creation, the end of its slot, and a fatal fault of its launch
(R62 to R65, R68, R113, R114, R211, R240, R332, R404).
-/

namespace Sys2Proof.Machine

/-- The tasks of a launch, ascending. -/
def State.tasksOf (s : State) (number : Nat) : List Nat :=
  (s.slots.filter fun x => x.2.st ≠ .free && x.2.launch = number).map (·.1)

/-- The priority of a launch on a die: the highest TASK.PRIO of its tasks that run there or are saved there, else the launch's (R62, R90,
R405; DEDUCED, log entry 68). -/
def State.prioOn (s : State) (die : Nat) (l : Launch) : Nat :=
  let running := ((s.tasksOf l.number).filter fun t => dieOf t = die).map fun t => (s.slot t).prio.toNat
  let kept := (s.ls.saved.filter fun c => c.launch = l.number && c.core / 1024 = die).flatMap fun c =>
    c.slots.map fun x => x.2.prio.toNat
  match running ++ kept with
  | [] => l.prio.toNat
  | p :: r => r.foldl max p

/-- Whether a die serves one launch before another: higher priority, then earlier acceptance (R62). -/
def State.before (s : State) (die : Nat) (a b : Launch) : Bool :=
  decide (s.prioOn die b < s.prioOn die a) || (s.prioOn die a = s.prioOn die b && decide (a.order < b.order))

/-- The launch of a list that a die serves first. -/
def State.firstServed (s : State) (die : Nat) : List Launch → Option Launch
  | [] => none
  | a :: r => some (match s.firstServed die r with
    | some b => if s.before die b a then b else a
    | none => a)

/-- The least number from a start up, within n steps, that a test accepts. -/
def findUp (p : Nat → Bool) : Nat → Nat → Option Nat
  | 0, _ => none
  | n + 1, i => if p i then some i else findUp p n (i + 1)

/-- A FREE slot of a core, the lowest (R63). -/
def State.freeSlotOn (s : State) (core : Nat) : Option Nat := findUp (fun t => (s.slot t).st = .free) 8 (8 * core)

/-- The tasks of a launch that count against the quota of a core: shadows do not (R65). -/
def State.quotaOn (s : State) (number core : Nat) : Nat :=
  ((s.tasksOn core).filter fun t => (s.slot t).launch = number && !(s.slot t).shadow).length

/-- Whether quarantine leaves a core only shadow roles (R413). -/
def State.quarantined (s : State) (core : Nat) : Bool :=
  tblGet false s.pf.quarCore core || tblGet false s.pf.quarVec (core / 8) || tblGet false s.pf.quarMat (core / 8)

/-- Whether a core accepts a task of a launch (R62, R113, R413). DESIGN CHOICE, log entry 58: while pre-emption of the launch is
requested on the die, none of its cores does. -/
def State.accepts (s : State) (l : Launch) (shadow : Bool) (core : Nat) : Bool :=
  s.live (core / 1024) && (s.freeSlotOn core).isSome &&
  (shadow || (s.quotaOn l.number core < l.quota && !s.quarantined core)) &&
  ((s.tasksOn core).all fun t =>
    let x := s.slot t
    x.part = partRead l.part && x.asid = l.asid && x.world = l.world) &&
  !(s.ls.preempt.contains (l.number, core / 1024))

/-- The core that the placement of R63 takes among n cores from a first one: the fewest tasks of the launch, ties to the
lowest number. -/
def State.chooseCore (s : State) (l : Launch) (first n : Nat) : Option Nat :=
  (List.range 8).findSome? fun k => findUp (fun c => s.quotaOn l.number c = k && s.accepts l false c) n first

/-- Mesh hops between the cells of two cores of one die (R409). -/
def meshHops (a b : Nat) : Nat :=
  let ca := a / 8 % 128
  let cb := b / 8 % 128
  (ca % 16 - cb % 16) + (cb % 16 - ca % 16) + ((ca / 16 - cb / 16) + (cb / 16 - ca / 16))

/-- A core for the shadow of a task on a core: two or more hops away, on the same die (R409). -/
def State.shadowCore (s : State) (l : Launch) (core : Nat) : Option Nat :=
  findUp (fun c => 2 ≤ meshHops core c && s.accepts l true c) 1024 (1024 * (core / 1024))

/-- The seed of g5: the task coordinate of index i (R64). -/
def Launch.coord (l : Launch) (i : Nat) : Word :=
  BitVec.ofNat 64 (i % l.sx + i / l.sx % l.sy * 2 ^ 16 + i / (l.sx * l.sy) * 2 ^ 32)

/-- The launch word, the seed of g7 (R64). -/
def Launch.word (l : Launch) : Word :=
  BitVec.ofNat 64 (l.dep.toNat + 2 * l.paired.toNat + 4 * l.reissuable.toNat + l.quota % 16 * 2 ^ 4 +
    l.prio.toNat * 2 ^ 8 + l.acceptedDies.toNat * 2 ^ 12 + l.acceptedMaster % 4 * 2 ^ 16 + l.number % 65536 * 2 ^ 32)

/-- TASK.STAT at creation (R90). -/
def statAtCreation (sys shadow reissued : Bool) : BitVec 8 :=
  setStatBit (setStatBit (setStatBit 0 0 sys) 7 shadow) 6 reissued

/-- A new task of a launch before its channels and its region (R64, R114). -/
def newTask (l : Launch) (pc : Word) (seeds : Tbl Word) (shadow reissued : Bool) (index : Nat) : Slot :=
  { Slot.empty with
    st := .ready, pc := pc, g := seeds, yieldLeft := l.budget, stat := statAtCreation l.sys shadow reissued,
    prio := l.prio, launchRec := l.recVa, launch := l.number, index := index, part := partRead l.part, asid := l.asid,
    world := l.world }

/-- Seed registers (R64). -/
def seedRegs (g4 g5 g6 g7 : Word) : Tbl Word := tblSet 0 (tblSet 0 (tblSet 0 (tblSet 0 [] 4 g4) 5 g5) 6 g6) 7 g7

/-- A task put into a slot: an empty core starts with its pool zero and its rotation at slot 0, and creation acquires
(R60, R64, R114). Entries reserved for messages on their way to the slot stay until they land (R214). -/
def placeTask (t : Nat) (x : Slot) : M Unit := do
  let s ← get
  if (s.tasksOn (coreOf t)).isEmpty then
    modCoreAt (coreOf t) fun c => { Core.reset with vq := c.vq, mq := c.mq, part := x.part }
  else pure ()
  modify fun s => s.setSlot t { x with inq := x.inq ++ (s.slot t).inq }
  acquireCell (cellOf t)

/-! ### Channel chains (R211) -/

/-- The TASK.ID that an index was placed in; `place` holds it plus 1. -/
def Launch.placed (l : Launch) (i : Nat) : Option Nat :=
  match tblGet 0 l.place i with
  | 0 => none
  | t + 1 => some t

/-- The channel register of an index at creation, for its neighbour: bound, pending until that is created, or off. -/
def chainReg (l : Launch) (kindVec : Bool) (peer : Option Nat) : Chan :=
  match peer with
  | none => .off
  | some j =>
    match l.placed j with
    | some t => ⟨true, false, kindVec, BitVec.ofNat 13 (localSlot t)⟩
    | none => ⟨true, true, kindVec, 0⟩

/-- The channel registers of a new task of a chain; a shadow's are its primary's (R65). -/
def chainBind (l : Launch) (i : Nat) (x : Slot) : Slot :=
  if l.chmode = 0 then x
  else
    { x with chanIn := chainReg l (l.chmode = 2) (if i = 0 then none else some (i - 1)),
             chanOut := chainReg l (l.chmode = 2) (if i + 1 < l.count then some (i + 1) else none) }

/-- PEER filled in with the slot of a new task. -/
def Chan.fill (t : Nat) (c : Chan) : Chan := if c.pend then { c with pend := false, peer := BitVec.ofNat 13 (localSlot t) } else c

/-- What a task of a chain learns when index i is created in slot t: its register for that index, which has waited for it, is filled in
(R211). -/
def Slot.hears (number i t : Nat) (y : Slot) : Slot :=
  if y.launch ≠ number then y
  else if y.index + 1 = i then { y with chanOut := y.chanOut.fill t }
  else if y.index = i + 1 then { y with chanIn := y.chanIn.fill t }
  else y

/-- The neighbours of a new task of a chain told of it, shadows and saved tasks too (R65, R211). -/
def tellNeighbours (l : Launch) (i t : Nat) : M Unit :=
  if l.chmode = 0 then pure ()
  else modify fun s =>
    { s with slots := s.slots.map fun x => (x.1, if x.2.st = .free then x.2 else x.2.hears l.number i t)
             ls := { s.ls with saved := s.ls.saved.map fun c =>
               { c with slots := c.slots.map fun x => (x.1, x.2.hears l.number i t) } } }

/-- The implicit region of a task of a REISSUABLE launch (R332); none where no id is FREE. -/
def withRegion (l : Launch) (x : Slot) : M (Option Slot) := do
  if l.reissuable then
    match ← hypOpen true 0 l.asid with
    | some k => pure (some { x with hypId := k, impl := true, regions := [⟨k, 0, false⟩] })
    | none => pure none
  else pure (some x)

/-- The task of index i created on a core, with its shadow when the launch is PAIRED (R63 to R65, R332, R409). The answer is
its TASK.ID, or none where a slot or an id is missing. -/
def createIndex (l : Launch) (i core : Nat) (reissued : Bool) : M (Option Nat) := do
  let s ← get
  match s.freeSlotOn core, (if l.paired then s.shadowCore l core else some core) with
  | some t, some sc => do
    let seeds := seedRegs (BitVec.ofNat 64 i) (l.coord i) l.args l.word
    match ← withRegion l (newTask l l.pc seeds false reissued i) with
    | none => pure none
    | some x => do
      placeTask t (chainBind l i x)
      tellNeighbours l i t
      modLaunch l.number fun l => { l with place := tblSet 0 l.place i (t + 1), left := l.left - 1,
                                           reissue := l.reissue.filter fun j => j ≠ i }
      if l.paired then do
        match (← get).freeSlotOn sc with
        | some u => do
          placeTask u (chainBind l i
            { newTask l l.pc seeds true reissued i with hypId := x.hypId, impl := x.impl, regions := x.regions, partner := some t })
          modSlotAt t fun x => { x with partner := some u }
        | none => pure ()
      else pure ()
      pure (some t)
  | _, _ => pure none

/-! ### The end of a slot -/

/-- The shared parts of a core as R131 and R257 save them: discardable tiles and accumulator tiles outside the live masks
are left out, and an operand slot that no mask names comes back EMPTY. -/
def savedShared (c : Core) (ops : Tbl OpSlot) (core : Nat) (masks : BitVec 24) : SavedCore :=
  { part := c.part
    tiles := c.tiles.filter fun t => if 0x80 ≤ t.1 then masks.getLsbD (t.1 - 0x80) else !isDiscardable c.part t.1
    scratch := c.scratch.filter fun b => !isDiscardable c.part (b.1 / 4096)
    acc := c.acc.filter fun b => masks.getLsbD (b.1 / 32768)
    poison := c.poison.filter fun t => if 0x80 ≤ t.1 then masks.getLsbD (t.1 - 0x80) else !isDiscardable c.part t.1
    opSlots := (ops.filter fun o => o.2.holder = some core).map fun o =>
      if masks.getLsbD (8 + o.1) then (o.1, { o.2 with ready := true })
      else (o.1, { OpSlot.free with holder := some core }) }

/-- Whether a context was saved on a core whose other tasks still run. -/
def SavedCtx.stillOn (c : SavedCtx) (core : Nat) : Bool := c.core = core && c.shared.isNone

/-- The shared parts join the contexts saved on a core, once its slots are FREE (R406). -/
def closeCore (core : Nat) : M Unit := modify fun s =>
  if (s.tasksOn core).isEmpty && s.ls.saved.any fun c => c.stillOn core then
    let masks := (s.ls.saved.filter fun c => c.stillOn core).foldl (fun m c => m ||| c.masks) 0#24
    let parts := savedShared (s.core core) (s.cell (core / 8)).slots core masks
    { s with ls := { s.ls with
        nextSaved := s.ls.nextSaved + 1
        saved := s.ls.saved.map fun c => if c.stillOn core then { c with shared := some parts, bundle := s.ls.nextSaved } else c } }
  else s

/-- What a core without tasks gives up: saved contexts take the shared parts (R406), and its operand slots become FREE
(R240). -/
def freeCoreParts (core : Nat) : M Unit := do
  closeCore core
  modify fun s =>
  if (s.tasksOn core).isEmpty then
    s.setCell (core / 8) { s.cell (core / 8) with
      slots := (s.cell (core / 8)).slots.filter fun o => o.2.holder ≠ some core }
  else s

/-- A request for pre-emption ends when the launch has no task left on the die (R405). -/
def endPreempt (number die : Nat) : M Unit := modify fun s =>
  if (s.tasksOf number).any fun t => dieOf t = die then s
  else { s with ls := { s.ls with preempt := s.ls.preempt.filter fun p => p ≠ (number, die) } }

/-- The slot becomes FREE (R59, R240). A relayout that it issued no longer has a task (R276), and entries reserved for messages on their
way to it stay until they land (R214). -/
def freeSlot (t : Nat) : M Unit := do
  let number := ((← get).slot t).launch
  modify fun s => s.setSlot t { Slot.empty with inq := (s.slot t).inq.filter fun m => !m.landed }
  modEs fun e => { e with relayouts := e.relayouts.map fun r => if r.slot = some t then { r with slot := none } else r }
  freeCoreParts (coreOf t)
  endPreempt number (dieOf t)

/-- The units of a relayout that writes are admitted to, counted up or down. -/
def Relayout.admits (asid : BitVec 16) (d : Int) (r : Relayout) (u : Nat × Nat) : Relayout :=
  if r.asid = asid ∧ r.daddr = u.1 then
    { r with admitted := tblSet 0 r.admitted u.2 ((((tblGet 0 r.admitted u.2 : Nat) : Int) + d).toNat) }
  else r

/-- The units that a store is admitted to, counted on their relayouts (R273). -/
def admitUnits (asid : BitVec 16) (us : List (Nat × Nat)) (d : Int) : M Unit :=
  modEs fun e => { e with relayouts := e.relayouts.map fun r => us.foldl (Relayout.admits asid d) r }

/-- The entries of a core's vector queue that a test selects dropped: their lane groups are free again, and no unit waits for
their writes (R207, R273). -/
def dropVq (core : Nat) (p : VEntry → Bool) : M Unit := do
  let s ← get
  let gone := (s.core core).vq.filter p
  eachM (fun (e : VEntry) => admitUnits e.asid e.admits (-1)) gone
  let lanes := (gone.filter (·.granted)).foldl (fun (l : List Nat) _ => l.erase core) (s.cell (core / 8)).lanes
  modify fun s => s.setCell (core / 8) { s.cell (core / 8) with lanes := lanes }
  modCoreAt core fun c => { c with vq := c.vq.filter fun e => !p e }

/-- The entries that a task reserved in inbound queues and has not filled given up. -/
def dropReserved (t : Nat) : M Unit := modify fun s =>
  let mine (n : Nat) : Bool := n = t || some n = (s.slot t).partner
  { s with slots := s.slots.map fun x =>
      if x.2.inq.isEmpty then x else (x.1, { x.2 with inq := x.2.inq.filter fun m => m.landed || !mine m.sender }) }

/-- The queue entries of a task dropped unperformed, and the entries it reserved in other inbound queues (R404). -/
def dropEntries (t : Nat) : M Unit := do
  dropVq (coreOf t) fun e => e.slot = t
  discardMx (coreOf t) t 0
  dropReserved t

/-- The Carter commands that a test selects stop: their tiles become EMPTY or READY (R303). -/
def stopCommands (p : CarterCmd → Bool) : M Unit := do
  eachM (fun (c : CarterCmd) => eachM (fun t => do
      let st : TileState := if c.form = .mt then .empty else .ready
      setTileAt c.core t st 0
      match c.twin with
      | some k => setTileAt k t st 0
      | none => pure ()) c.tiles) ((← get).es.cmds.filter p)
  modEs fun e => { e with cmds := e.cmds.filter fun c => !p c }

/-- A task of a faulted launch stops: its regions are refuted, its entries dropped, the stores of its buffer and its cell performed, its
slot freed, its count taken (R172, R404). -/
def stopTask (t : Nat) : M Unit := do
  let x := (← get).slot t
  refuteRegions t false
  dropEntries t
  performAll (cellOf t) x.wc
  modPf fun p => { p with pairs := p.pairs.filter fun q => q.slot ≠ t }
  freeSlot t
  if x.stepTask || x.shadow then pure () else launchDown x.launch 1

/-- The step task's members are no longer STEPPING when it is gone; a fatal fault drops them with the launch's streams. -/
def dropLaunchStreams (number : Nat) : M Unit := do eachM dropStream ((← get).streamsOf number)

/-- The uncreated indices of a launch subtracted in one decrement (R76, R404). -/
def dropUncreated (number : Nat) : M Unit := do
  match (← get).launch? number with
  | none => pure ()
  | some l => do
    modLaunch number fun l => { l with handed := l.count, left := 0, reissue := [], chunks := [], readyq := [] }
    if l.left = 0 then pure () else launchDown number l.left

/-- The saved contexts of a launch dropped: each slot's regions are refuted, and each slot is counted (R404). -/
def dropSaved (number : Nat) : M Unit := do
  let cs := (← get).ls.saved.filter fun c => c.launch = number
  modLs fun x => { x with saved := x.saved.filter fun c => c.launch ≠ number }
  eachM (fun (c : SavedCtx) => eachM (fun (e : Nat × Slot) => do
    refuteList e.2.regions
    if e.2.stepTask || e.2.shadow then pure () else launchDown number 1) c.slots) cs

/-- A fatal fault of a launch (R404). -/
def fatalFault (number : Nat) : M Unit := do
  modLaunch number fun l => { l with faulted := true }
  stopCommands fun c => c.launch = number && c.slot.isSome
  modEs fun e => { e with relayouts := e.relayouts.map fun r =>
    if r.launch = number then { r with suspended := true, claimed := none } else r }
  dropLaunchStreams number
  eachM stopTask ((← get).tasksOf number)
  dropSaved number
  dropUncreated number

/-! ### Saving a context (R406) -/

/-- A slot as its context keeps it: the reservation and the buffer are not part of it, nor entries reserved for messages that
have not landed, which stay with the slot (R214). -/
def Slot.saved (x : Slot) : Slot := { x with resv := none, wc := [], timer := none, wait := .none, st := .ready, pend := none,
                                             repFrom := 0, inq := x.inq.filter (·.landed) }

/-- The TASK.ID that a saved slot had. -/
def savedId (key : Nat) : Nat := key % 32768

/-- The number of the saved slot of the other copy of a pair, whose copies are saved at one `yield`, the shadow first (R405). -/
def copyKey (key : Nat) (x : Slot) : Option Nat :=
  x.partner.map fun u => if x.shadow then 32768 * (key / 32768 + 1) + u else 32768 * (key / 32768 - 1) + u

/-- A slot saved with its live mask, and freed (R304, R406). A release that fails leaves the slot as it was. -/
def saveSlot (t : Nat) (masks : BitVec 24) : M Unit := do
  releaseOf t
  let s ← get
  let x := s.slot t
  let core := coreOf t
  let key := 32768 * s.ls.nextSaved + t
  let cmds := (s.es.cmds.filter fun c => c.slot = some t).map fun c => { c with slot := some key }
  modEs fun e => { e with cmds := e.cmds.filter fun c => c.slot ≠ some t,
                          relayouts := e.relayouts.map fun r => if r.slot = some t then { r with slot := some key } else r }
  modLs fun l =>
    let l := { l with nextSaved := l.nextSaved + 1 }
    if l.saved.any fun c => c.stillOn core && c.launch = x.launch then
      { l with saved := l.saved.map fun c =>
          if c.stillOn core ∧ c.launch = x.launch then
            { c with slots := c.slots ++ [(key, x.saved)], masks := c.masks ||| masks, cmds := c.cmds ++ cmds }
          else c }
    else { l with saved := l.saved ++ [⟨core, x.launch, [(key, x.saved)], masks, cmds, none, 0⟩] }
  freeSlot t

/-- Whether pre-emption of a launch is requested on the die of a task (R405). -/
def State.preemptAsked (s : State) (t : Nat) : Bool := s.ls.preempt.contains ((s.slot t).launch, dieOf t)

end Sys2Proof.Machine
end

