-- ==== Sys2Proof/Machine/Operands.lean ====
section
/-!
DEFINITION. The operand forms: which registers an instruction reads and writes, reading and writing them, g31 and v31 as
channel registers, and the checks that depend on the word, the privilege and the partition alone (R48, R52, R91, R92,
R198 to R214).
-/

namespace Sys2Proof.Machine

/-- g registers read, the register after a pair's first included (R53, R91, R232, R267, R271). `bfi` reads its destination
too, but never pops for it (R96). -/
def gReads : Instr → List GReg
  | .add _ a b | .sub _ a b | .mul _ a b | .mulh _ a b | .mulhn _ a b | .div _ a b | .divn _ a b | .rem _ a b
  | .remn _ a b | .and _ a b | .or _ a b | .xor _ a b | .andn _ a b | .orn _ a b | .sll _ a b | .srl _ a b | .sra _ a b
  | .rol _ a b | .ror _ a b | .min _ a b | .max _ a b | .minn _ a b | .maxn _ a b | .slt _ a b | .sltn _ a b
  | .bfx _ a b | .bfi _ a b | .clmul _ a b | .clmulh _ a b | .beq a b _ | .bne a b _ | .blt a b _ | .bge a b _ | .bltn a b _
  | .bgen a b _ | .fadd _ a b _ _ | .fsub _ a b _ _ | .fmul _ a b _ _ | .fdiv _ a b _ _ | .fmin _ a b _ | .fmax _ a b _
  | .fcmp _ a b _ _ | .amoadd _ a b _ _ | .amoand _ a b _ _ | .amoor _ a b _ _ | .amoxor _ a b _ _ | .amomin _ a b _ _
  | .amomax _ a b _ _ | .amominn _ a b _ _ | .amomaxn _ a b _ _ | .amoswap _ a b _ _ | .sc _ a b _ _ | .wrs _ a b _
  | .spawn _ a b _ | .inval a b | .vldg _ _ a b _ | .vstg _ _ a b _ | .barinit a b | .barpost a b | .barwait a b
  | .oload _ a b | .mxloadc _ a b | .mxstore _ a b | .cpyMm a b _ | .cpyMt a b _ | .cpyTm a b _ | .qput a b
  | .ramo a b _ | .sfork _ a b | .sact _ a b | .shor _ a b | .sjoin _ a b | .smigr _ a b => [a, b]
  | .ffma d a b _ _ | .amocas d a b _ _ => [d, a, b]
  | .sel _ a b c => [a, b, c]
  | .clz _ a | .ctz _ a | .popc _ a | .brev _ a | .addi _ a _ | .andi _ a _ | .ori _ a _ | .xori _ a _ | .slli _ a _
  | .srli _ a _ | .srai _ a _ | .slti _ a _ | .jalr _ a _ | .ldB _ a _ | .ldH _ a _ | .ldW _ a _ | .ldD _ a _ | .ldBn _ a _
  | .ldHn _ a _ | .ldWn _ a _ | .ldacqW _ a _ | .ldacqD _ a _ | .ldntD _ a _ | .lr _ a _ _ | .pref a | .depsig a
  | .cancel a _ | .fsqrt _ a _ _ | .fcvt _ a _ _ _ | .fclass _ a _ | .vbcast _ _ a _ | .vld _ _ a _ | .vst _ _ a _
  | .vgather _ _ a _ _ | .vscatter _ _ a _ _ | .pld _ a | .pst _ a | .tstat _ a | .tready a | .tempty a | .bararr a
  | .bardrop a | .mxset a | .eset _ a | .rwin a _ | .rclose a | .hload _ a | .hstore _ a | .hopen _ a | .henter a
  | .hconfirm _ a _ | .hrefute _ a | .hstat _ a | .screate _ a | .sdrop _ a | .spop _ a | .sret a | .senter a
  | .accept _ a | .rwait a _ => [a]
  | .stB d a _ | .stH d a _ | .stW d a _ | .stD d a _ | .strelW d a _ | .strelD d a _ | .stntD d a _ | .mstoreW d a _
  | .mstoreD d a _ => [d, a]
  | .yield _ gm => [gm]
  | .cset d _ | .csetChanIn d | .csetChanOut d => [d]
  | .vscan _ _ _ b _ | .vxscan _ _ _ b _ | .vslide _ _ _ b _ | .vmovg _ _ _ b | .vamax _ _ b _ | .hquery _ _ b => [b]
  | .vnoise _ a b _ => [a, a + 1, b]
  | .tld _ _ b _ | .tst _ _ b _ => [b, b + 1]
  | .relayout _ a b => [a, a + 1, b]
  | _ => []

/-- g registers written (R53). -/
def gWrites : Instr → List GReg
  | .add d _ _ | .sub d _ _ | .mul d _ _ | .mulh d _ _ | .mulhn d _ _ | .div d _ _ | .divn d _ _ | .rem d _ _
  | .remn d _ _ | .and d _ _ | .or d _ _ | .xor d _ _ | .andn d _ _ | .orn d _ _ | .sll d _ _ | .srl d _ _ | .sra d _ _
  | .rol d _ _ | .ror d _ _ | .min d _ _ | .max d _ _ | .minn d _ _ | .maxn d _ _ | .slt d _ _ | .sltn d _ _
  | .bfx d _ _ | .bfi d _ _ | .clmul d _ _ | .clmulh d _ _ | .sel d _ _ _ | .clz d _ | .ctz d _ | .popc d _ | .brev d _
  | .addi d _ _ | .andi d _ _ | .ori d _ _ | .xori d _ _ | .slli d _ _ | .srli d _ _ | .srai d _ _ | .slti d _ _
  | .jalr d _ _ | .ldB d _ _ | .ldH d _ _ | .ldW d _ _ | .ldD d _ _ | .ldBn d _ _ | .ldHn d _ _ | .ldWn d _ _
  | .ldacqW d _ _ | .ldacqD d _ _ | .ldntD d _ _ | .amoadd d _ _ _ _ | .amoand d _ _ _ _ | .amoor d _ _ _ _
  | .amoxor d _ _ _ _ | .amomin d _ _ _ _ | .amomax d _ _ _ _ | .amominn d _ _ _ _ | .amomaxn d _ _ _ _
  | .amoswap d _ _ _ _ | .amocas d _ _ _ _ | .lr d _ _ _ | .sc d _ _ _ _ | .wrs d _ _ _ | .spawn d _ _ _ | .cget d _
  | .cgetFpFlags d | .vmovg _ d _ _ | .vamax d _ _ _ | .kpopc d _ | .kfirst d _ | .tstat d _ | .oclaim d _ | .mxget d
  | .hquery d _ _ | .hopen d _ | .hconfirm d _ _ | .hrefute d _ | .hstat d _ | .screate d _ | .sfork d _ _ | .sdrop d _
  | .sact d _ _ | .spop d _ | .shor d _ _ | .sjoin d _ _ | .smigr d _ _ | .accept d _ | .fadd d _ _ _ _ | .fsub d _ _ _ _
  | .fmul d _ _ _ _ | .fdiv d _ _ _ _ | .fsqrt d _ _ _ | .ffma d _ _ _ _ | .fmin d _ _ _ | .fmax d _ _ _
  | .fcmp d _ _ _ _ | .fcvt d _ _ _ _ | .fclass d _ _ => [d]
  | .lui j _ | .addpc j _ => [8#5 + j.setWidth 5]
  | .jal j _ => [j.setWidth 5]
  | .eget _ a => [a]
  | .rwait _ b => [b]
  | _ => []

/-- v registers read, a group's first register standing for the group (R216). -/
def vReads : Instr → List VReg
  | .vadd _ _ a b _ | .vsub _ _ a b _ | .vmul _ _ a b _ | .vmin _ _ a b _ | .vmax _ _ a b _ | .vand _ _ a b _
  | .vor _ _ a b _ | .vxor _ _ a b _ | .vshl _ _ a b _ | .vshr _ _ a b _ | .vsra _ _ a b _ | .vcmp _ _ _ a b _
  | .vsel _ _ a b _ | .vwmul _ _ a b _ | .vwadd _ _ a b _ | .vredsum _ _ a b _ | .vredmax _ _ a b _ | .vredmin _ _ a b _
  | .vclmul _ _ a b _ | .vperm _ _ a b _ | .vpmerge _ a b _ | .vaddSat _ _ a b _ | .vsubSat _ _ a b _
  | .vmulSat _ _ a b _ => [a, b]
  | .vfma _ d a b _ | .vfms _ d a b _ | .vfnma _ d a b _ => [d, a, b]
  | .vabs _ _ a _ | .vneg _ _ a _ | .vrcp _ _ a _ | .vrsqrt _ _ a _ | .vexp2 _ _ a _ | .vlog2 _ _ a _ | .vtanh _ _ a _
  | .vnot _ _ a _ | .vcvt _ _ a _ _ | .vwcvt _ _ a _ _ | .vnarrow _ _ a _ | .vnarrowSat _ _ a _ | .vscan _ _ a _ _
  | .vxscan _ _ a _ _ | .vslide _ _ a _ _ | .vcompress _ _ a _ | .vexpand _ _ a _ | .vmovg _ _ a _ | .vmovxTom _ a
  | .vamax _ a _ _ => [a]
  | .vnoise d _ _ _ => [d]
  | .vst _ d _ _ | .vstg _ d _ _ _ | .pst d _ | .tst d _ _ _ => [d]
  | .vgather _ _ _ b _ => [b]
  | .vscatter _ d _ b _ => [d, b]
  | _ => []

/-- v registers written, a group's first register standing for the group (R216). -/
def vWrites : Instr → List VReg
  | .vadd _ d _ _ _ | .vsub _ d _ _ _ | .vmul _ d _ _ _ | .vfma _ d _ _ _ | .vfms _ d _ _ _ | .vfnma _ d _ _ _
  | .vmin _ d _ _ _ | .vmax _ d _ _ _ | .vabs _ d _ _ | .vneg _ d _ _ | .vrcp _ d _ _ | .vrsqrt _ d _ _ | .vexp2 _ d _ _
  | .vlog2 _ d _ _ | .vtanh _ d _ _ | .vand _ d _ _ _ | .vor _ d _ _ _ | .vxor _ d _ _ _ | .vnot _ d _ _ | .vshl _ d _ _ _
  | .vshr _ d _ _ _ | .vsra _ d _ _ _ | .vsel _ d _ _ _ | .vcvt _ d _ _ _ | .vwcvt _ d _ _ _ | .vwmul _ d _ _ _
  | .vwadd _ d _ _ _ | .vnarrow _ d _ _ | .vredsum _ d _ _ _ | .vredmax _ d _ _ _ | .vredmin _ d _ _ _ | .vscan _ d _ _ _
  | .vxscan _ d _ _ _ | .vclmul _ d _ _ _ | .vperm _ d _ _ _ | .vslide _ d _ _ _ | .vbcast _ d _ _ | .viota _ d _
  | .vcompress _ d _ _ | .vexpand _ d _ _ | .vmovxTov d _ | .vpmerge d _ _ _ | .vnoise d _ _ _ | .vaddSat _ d _ _ _
  | .vsubSat _ d _ _ _ | .vmulSat _ d _ _ _ | .vnarrowSat _ d _ _ | .vld _ d _ _ | .vldg _ d _ _ _ | .vgather _ d _ _ _
  | .pld d _ | .tld d _ _ _ => [d]
  | _ => []

/-- The register groups of widening and narrowing instructions: first register and count (R202). -/
def vGroups : Instr → List (VReg × Nat)
  | .vwcvt t d _ src _ => [(d, t.width / src.width)]
  | .vwmul _ d _ _ _ | .vwadd _ d _ _ _ => [(d, 2)]
  | .vnarrow _ _ a _ | .vnarrowSat _ _ a _ => [(a, 2)]
  | _ => []

/-- m registers read and written, m0 left out. -/
def mReads : Instr → List MReg
  | .vsel _ _ _ _ m => [m]
  | .vmovxTov _ a | .knot _ a | .kpopc _ a | .kfirst _ a => [a]
  | .kand _ a b | .kor _ a b | .kxor _ a b => [a, b]
  | _ => []
def mWrites : Instr → List MReg
  | .vcmp _ _ k _ _ _ => [k]
  | .vmovxTom d _ | .kand d _ _ | .kor d _ _ | .kxor d _ _ | .knot d _ => [d]
  | _ => []

/-- The mask that governs an instruction with a MASK field (R199); m0 where it has none. -/
def govMask : Instr → MReg
  | .vadd _ _ _ _ m | .vsub _ _ _ _ m | .vmul _ _ _ _ m | .vfma _ _ _ _ m | .vfms _ _ _ _ m | .vfnma _ _ _ _ m
  | .vmin _ _ _ _ m | .vmax _ _ _ _ m | .vabs _ _ _ m | .vneg _ _ _ m | .vrcp _ _ _ m | .vrsqrt _ _ _ m
  | .vexp2 _ _ _ m | .vlog2 _ _ _ m | .vtanh _ _ _ m | .vand _ _ _ _ m | .vor _ _ _ _ m | .vxor _ _ _ _ m
  | .vnot _ _ _ m | .vshl _ _ _ _ m | .vshr _ _ _ _ m | .vsra _ _ _ _ m | .vcmp _ _ _ _ _ m | .vsel _ _ _ _ m
  | .vcvt _ _ _ _ m | .vwcvt _ _ _ _ m | .vwmul _ _ _ _ m | .vwadd _ _ _ _ m | .vnarrow _ _ _ m
  | .vredsum _ _ _ _ m | .vredmax _ _ _ _ m | .vredmin _ _ _ _ m | .vscan _ _ _ _ m | .vxscan _ _ _ _ m
  | .vclmul _ _ _ _ m | .vperm _ _ _ _ m | .vslide _ _ _ _ m | .vbcast _ _ _ m | .viota _ _ m
  | .vcompress _ _ _ m | .vexpand _ _ _ m | .vpmerge _ _ _ m | .vnoise _ _ _ m | .vamax _ _ _ m
  | .vaddSat _ _ _ _ m | .vsubSat _ _ _ _ m | .vmulSat _ _ _ _ m | .vnarrowSat _ _ _ m | .vld _ _ _ m
  | .vst _ _ _ m | .vldg _ _ _ _ m | .vstg _ _ _ _ m | .vgather _ _ _ _ m | .vscatter _ _ _ _ m | .tld _ _ _ m
  | .tst _ _ _ m => m
  | _ => 0

/-- The word of an instruction (R47); 0 for an event. -/
def wordOf (i : Instr) : Nat := (encodeWord i).getD 0
/-- LOAD, STORE and SYNC. -/
def isLss : Instr → Bool
  | .ldB _ _ _ | .ldH _ _ _ | .ldW _ _ _ | .ldD _ _ _ | .ldBn _ _ _ | .ldHn _ _ _ | .ldWn _ _ _ | .ldacqW _ _ _
  | .ldacqD _ _ _ | .ldntD _ _ _ | .stB _ _ _ | .stH _ _ _ | .stW _ _ _ | .stD _ _ _ | .strelW _ _ _
  | .strelD _ _ _ | .stntD _ _ _ | .mstoreW _ _ _ | .mstoreD _ _ _ | .amoadd _ _ _ _ _ | .amoand _ _ _ _ _
  | .amoor _ _ _ _ _ | .amoxor _ _ _ _ _ | .amomin _ _ _ _ _ | .amomax _ _ _ _ _ | .amominn _ _ _ _ _
  | .amomaxn _ _ _ _ _ | .amoswap _ _ _ _ _ | .amocas _ _ _ _ _ | .lr _ _ _ _ | .sc _ _ _ _ _ | .wrs _ _ _ _
  | .fenceAcq | .fenceRel | .fenceSc | .afence | .pref _ => true
  | _ => false
/-- The VMEM memory operations (R326). -/
def isVmemAccess : Instr → Bool
  | .vld _ _ _ _ | .vst _ _ _ _ | .vldg _ _ _ _ _ | .vstg _ _ _ _ _ | .vgather _ _ _ _ _ | .vscatter _ _ _ _ _ => true
  | _ => false
/-- `mxloadc` and `mxstore`. -/
def isMxMem : Instr → Bool
  | .mxloadc _ _ _ | .mxstore _ _ _ => true
  | _ => false
/-- The ENGINE instructions other than `eset` and `eget`. -/
def isEngineOp : Instr → Bool
  | .cpyMm _ _ _ | .cpyMt _ _ _ | .cpyTm _ _ _ | .qput _ _ | .rwin _ _ | .rclose _ | .ramo _ _ _ | .rwait _ _ => true
  | _ => false
/-- The STATE instructions. -/
def isStateOp : Instr → Bool
  | .hload _ _ | .hstore _ _ | .hquery _ _ _ | .tld _ _ _ _ | .tst _ _ _ _ | .relayout _ _ _ | .rlwait _
  | .hopen _ _ | .henter _ | .hleave | .hconfirm _ _ _ | .hrefute _ _ | .hstat _ _ | .copen _ | .cclose
  | .screate _ _ | .sfork _ _ _ | .sdrop _ _ | .sact _ _ _ | .spop _ _ | .shor _ _ _ | .sret _ | .sjoin _ _ _
  | .senter _ | .smigr _ _ _ | .accept _ _ => true
  | _ => false
/-- The points of the orphan check other than `yield` (R326). -/
def isOrphanPoint (i : Instr) : Bool := isLss i || isStateOp i || isVmemAccess i || isEngineOp i || isMxMem i

/-! ### Checks of the word, the privilege and the partition (R52) -/

/-- Control registers whose fields are SYS (R89). -/
def ctlSys : CtlReg → Bool
  | .taskPrio | .hypSpillwait | .asid => true
  | _ => false

/-- Whether a user task may not execute the instruction (R52). -/
def privilegeFails : Instr → Bool
  | .inval _ _ => true
  | .cset _ r => ctlSys r
  | _ => false

/-- A v register beyond the count, other than v31 (R52). -/
def vBeyond (count : Nat) (r : VReg) : Bool := r ≠ 31 && count ≤ r.toNat
/-- A group that reaches v31 or the count (R202). -/
def groupBeyond (count : Nat) (g : VReg × Nat) : Bool := min count 31 < g.1.toNat + g.2

/-- The ILLEGAL cases of R52 for one instruction. -/
def illegalFor (i : Instr) (part : Word) (priv : Bool) : Bool :=
  (!priv && privilegeFails i) || (vReads i ++ vWrites i).any (vBeyond (vCount part)) ||
  (vGroups i).any (groupBeyond (vCount part))

/-! ### Registers -/

/-- The head message of an inbound queue, once it has landed (R212). -/
def Slot.head (x : Slot) : Option Msg :=
  match x.inq.head? with
  | some m => if m.landed then some m else none
  | none => none

/-- A g register as a source: g0 is zero, g31 the head message (R91, R92). -/
def Slot.gval (x : Slot) (r : GReg) : Word :=
  if r = 0 then 0
  else if r = 31 then (match x.head with
    | some m => m.data.setWidth 64
    | none => 0)
  else tblGet 0 x.g r.toNat

/-- A g register written; g0 and g31 hold nothing (R91). -/
def Slot.setG (x : Slot) (r : GReg) (w : Word) : Slot :=
  if r = 0 ∨ r = 31 then x else { x with g := tblSet 0 x.g r.toNat w }

/-- A v register; v31 holds nothing and is given by its message. -/
def Slot.vval (x : Slot) (r : VReg) : VVal := if r = 31 then 0 else tblGet 0 x.v r.toNat
def Slot.setV (x : Slot) (r : VReg) (w : VVal) : Slot := if r = 31 then x else { x with v := tblSet 0 x.v r.toNat w }
/-- A mask register: m0 is all ones (R199). -/
def Slot.mval (x : Slot) (r : MReg) : MVal := if r = 0 then BitVec.allOnes 1024 else tblGet 0 x.m r.toNat
def Slot.setM (x : Slot) (r : MReg) (w : MVal) : Slot := if r = 0 then x else { x with m := tblSet 0 x.m r.toNat w }
/-- A tensor handle. -/
def Slot.hval (x : Slot) (r : HReg) : Handle := tblGet .empty x.h r.toNat
def Slot.setH (x : Slot) (r : HReg) (w : Handle) : Slot := { x with h := tblSet .empty x.h r.toNat w }
/-- An engine register (R298). -/
def Slot.eval_ (x : Slot) (n : Nat) : Word := tblGet 0 x.e n
/-- The bits that an engine register holds: RSTAT [63:8] are reserved (R8, R375). What is written to the reserved e12 to e15 and e21 to e23
stays, since `cpy` and `rwin` check it (R301, R381). -/
def engineMask (n : Nat) : Word := if n = 20 then 0xFF else BitVec.allOnes 64
def Slot.setE (x : Slot) (n : Nat) (w : Word) : Slot := { x with e := tblSet 0 x.e n (w &&& engineMask n) }

/-- A source register of the task. -/
def rd (r : GReg) : M Word := do pure ((← curSlot).gval r)

/-! ### Channels (R210 to R214) -/

/-- A channel register as it reads; COUNT is given (R210). -/
def Chan.word (c : Chan) (count : Nat) : Word :=
  BitVec.ofNat 64 (c.en.toNat * 2 ^ 31 + c.pend.toNat * 2 ^ 30 + c.vec.toNat * 2 ^ 24 + count * 2 ^ 16 +
    (if c.pend then 0 else c.peer.toNat))
/-- CHAN.IN and CHAN.OUT as they read. -/
def Slot.chanInWord (x : Slot) : Word := x.chanIn.word (x.inq.filter (·.landed)).length
def Slot.chanOutWord (x : Slot) : Word := x.chanOut.word 0

/-- The primary of a pair. -/
def primaryOf (t : Nat) (x : Slot) : Nat := if x.shadow then x.partner.getD t else t

/-- The slot at the other end of the task's outbound channel. -/
def outPeer (t : Nat) (x : Slot) : Nat := peerOf t x.chanOut.peer

/-- CheckChannel for a pop (R213). -/
def checkPop (vec : Bool) : M Unit := do
  let x ← curSlot
  check x.chanIn.en .chanOff x.chanInWord
  check (x.chanIn.vec = vec) .chanType x.chanInWord

/-- CheckChannel for a push (R213). -/
def checkPush (vec : Bool) : M Unit := do
  let t ← curId
  let x ← curSlot
  check x.chanOut.en .chanOff x.chanOutWord
  check (x.chanOut.vec = vec) .chanType x.chanOutWord
  let y := (← get).slot (outPeer t x)
  check (x.chanOut.pend || !y.chanIn.en || (y.chanIn.peer.toNat = localSlot (primaryOf t x) && y.chanIn.vec = vec)) .chanBind
    x.chanOutWord

/-- n messages are there to pop, or the slot parks (R92, R212). -/
def waitPops (n : Nat) : M Unit := do
  waitFor (n ≤ ((← curSlot).inq.takeWhile (·.landed)).length) .channel

/-- Where a message of slot t to slot p goes, sender and receiver: a copy of the receiver gets it too (R410). A pair sends from the slot
of its primary (R65). -/
def pairTargets (s : State) (t p : Nat) : List (Nat × Nat) :=
  let o := primaryOf t (s.slot t)
  (o, p) :: (match (s.slot p).partner with
    | some q => [(o, q)]
    | none => [])

/-- n entries are free to push into, or the slot parks (R212). -/
def waitPushes (n : Nat) : M Unit := do
  let t ← curId
  let x ← curSlot
  let s ← get
  waitFor (!x.chanOut.pend && (pairTargets s t (outPeer t x)).all fun e =>
    let y := s.slot e.2
    y.st ≠ .free && y.chanIn.en && decide (y.inq.length + n ≤ 4)) .channel

/-- Whether a message is kept when it lands (R214). -/
def Slot.keeps (y : Slot) (sender : Nat) (vec : Bool) : Bool :=
  y.st ≠ .free && y.chanIn.en && y.chanIn.vec = vec && !y.chanIn.pend && y.chanIn.peer.toNat = localSlot sender

/-- A message that lands at once, as a scalar push does (R212, R214). -/
def pushNow (vec : Bool) (data : VVal) : M Unit := do
  let t ← curId
  let p := outPeer t (← curSlot)
  eachM (fun (e : Nat × Nat) => modSlotAt e.2 fun y =>
    if y.keeps e.1 vec then { y with inq := y.inq ++ [⟨vec, e.1, true, data⟩] } else y) (pairTargets (← get) t p)

/-- Entries reserved for n messages that land later (R203, R209, R212). -/
def reservePushes (vec : Bool) (n : Nat) : M Unit := do
  let t ← curId
  let p := outPeer t (← curSlot)
  eachM (fun (e : Nat × Nat) => modSlotAt e.2 fun y => { y with inq := y.inq ++ List.replicate n ⟨vec, e.1, false, 0⟩ })
    (pairTargets (← get) t p)

/-- The first entry of a sender not yet landed: filled, or freed where the message is not kept (R214). -/
def landIn (sender : Nat) (keep : Bool) (data : VVal) : List Msg → List Msg
  | [] => []
  | m :: r =>
    if m.sender = sender && !m.landed then (if keep then { m with landed := true, data := data } :: r else r)
    else m :: landIn sender keep data r

/-- A reserved message of a task lands at a receiver (R212, R214). -/
def landAt (t p : Nat) (vec : Bool) (data : VVal) : M Unit := do
  eachM (fun (e : Nat × Nat) => modSlotAt e.2 fun y => { y with inq := landIn e.1 (y.keeps e.1 vec) data y.inq })
    (pairTargets (← get) t p)

/-- The last n entries of a sender that are not yet landed given up. -/
def unreserve (sender n : Nat) (l : List Msg) : List Msg :=
  let keep := (l.filter fun m => m.sender = sender && !m.landed).length - n
  (l.foldl (fun (a : List Msg × Nat) m =>
    if m.sender = sender && !m.landed then (if a.2 < keep then (a.1 ++ [m], a.2 + 1) else a) else (a.1 ++ [m], a.2)) ([], 0)).1

/-- Entries reserved and not filled, n of them, given up again (R10). -/
def unreservePushes (t n : Nat) : M Unit := do
  let p := outPeer t ((← get).slot t)
  eachM (fun (e : Nat × Nat) => modSlotAt e.2 fun y => { y with inq := unreserve e.1 n y.inq }) (pairTargets (← get) t p)

/-- Messages taken from the head of the inbound queue (R212). -/
def popMany (n : Nat) : M Unit := modSlot fun x => { x with inq := x.inq.drop n }
/-- The head message taken. -/
def popHead : M Unit := popMany 1

/-- A g register as the destination: g0 discards, g31 pushes (R91). -/
def wr (r : GReg) (w : Word) : M Unit :=
  if r = 31 then pushNow false (w.setWidth 4096) else modSlot fun x => x.setG r w

end Sys2Proof.Machine
end

