-- ==== Sys2Proof/Machine/Ops.lean ====
section
/-!
DEFINITION. Taking an exception and returning from one, the end of a task, and the frame that every instruction with a word
runs in: the checks before it issues, the budget, the channel, and what follows it (R59 to R72, R77, R85, R87, R92, R330,
R401 to R404, R409 to R411).
-/

namespace Sys2Proof.Machine

/-- What follows an instruction that has run: the next word, another address, or nothing, the body having settled the slot
itself. -/
inductive Flow where
  | seq
  | jump (pc : Word)
  | gone
  deriving DecidableEq, Repr

/-! ### Taking an exception (R85, R330, R403) -/

/-- The slot as it starts to quit (R68): the default handler of R85 and the instruction `quit` alike. -/
def Slot.toEnding (x : Slot) : Slot := { x with st := .ending, wait := .drain }

/-- The trap registers of a trap (R85). -/
def Slot.trapRegs (x : Slot) (code : Nat) (val pc : Word) (rep : Option Nat) : Slot :=
  { x with trapCause := BitVec.ofNat 64 code, trapVal := val, trapPc := pc,
           trapRep := match rep with
             | some k => BitVec.ofNat 6 k
             | none => x.trapRep }

/-- The slot goes on, no longer waiting for anything, and holds no reservation (R155). -/
def Slot.afterTrap (x : Slot) : Slot :=
  { x with st := .ready, wait := .none, timer := none, pend := none, repFrom := 0, tretRep := false, resv := none }

/-- An ordinary trap (R85): the trap registers are written, INTRAP is set, the pc is at TRAP.VEC. -/
def Slot.toHandler (x : Slot) (code : Nat) (val pc : Word) (rep : Option Nat) : Slot :=
  { ((x.afterTrap.trapRegs code val pc rep).setStat 4 true) with pc := x.trapVec }

/-- An instruction address as TRAP.VEC and TRAP.PC hold it: bits [55:2] (R90). -/
def addrBits (w : Word) : Word := BitVec.ofNat 64 (fieldOf w 55 2 * 4)

/-- A system-level trap (R403): the privilege is saved, PRIV and INTRAP are set, the pc is at the system handler, a multiple of 4 as
every instruction address (R45). -/
def Slot.toSystem (x : Slot) (code : Nat) (val pc : Word) (rep : Option Nat) (handler : Word) : Slot :=
  { (((x.afterTrap.trapRegs code val pc rep).setStat 4 true).setStat 0 true) with
    pc := addrBits handler, savedPriv := x.priv, sysTrap := true }

/-- The system handler of an address space; 0 for none (R403). -/
def State.sysHandler (s : State) (asid : BitVec 16) : Word :=
  if s.pf.fw.sysHnd = 0 then 0 else BitVec.ofNat 64 (s.peek (s.fabric (s.pf.fw.sysHnd + 8 * asid.toNat)) 8)

/-- The innermost region unwinds for a caught cause (R330). The implicit region's handler address is 0, a fatal fault of the
launch (R332). -/
def unwind (t code : Nat) (val pc : Word) : M Unit := do
  let x := (← get).slot t
  match x.regions with
  | [] => pure ()
  | r :: rest => do
    commitRefute r.id
    popRegion t
    if x.impl && rest.isEmpty then fatalFault x.launch
    else modSlotAt t fun y => { (y.afterTrap.trapRegs code val pc none) with pc := r.handler }

/-- Taking an exception in a slot: the one operation for every cause (R85, R330, R403). -/
def takeTrap (t code : Nat) (val : Option Word) (pc : Word) (rep : Option Nat) : M Unit := do
  let v ← match val with
    | some v => pure v
    | none => freshWord
  let s ← get
  let x := s.slot t
  let unhandled := x.intrap || x.trapVec = 0
  let revocable := match x.regions with
    | r :: _ => !r.nonrev
    | [] => false
  if isSystemCode code then
    let h := s.sysHandler x.asid
    if x.intrap || h = 0 then fatalFault x.launch
    else modSlotAt t fun y => y.toSystem code v pc rep h
  else if code = Cause.yieldOverrun.code then fatalFault x.launch
  else if code = Cause.cancel.code || code = Cause.orphan.code then
    modSlotAt t fun y => if unhandled then ((y.afterTrap.trapRegs code v pc rep).setStat 4 true).toEnding
      else y.toHandler code v pc rep
  else if (isIntegrityCode code || isRedundancyCode code || unhandled) && revocable then unwind t code v pc
  else if unhandled || (isRedundancyCode code && x.regions.isEmpty) then fatalFault x.launch
  else modSlotAt t fun y => y.toHandler code v pc rep

/-- Return from a trap (R87, R403): INTRAP is cleared, a system handler gives the saved privilege back, and the pc is
TRAP.PC; a P word there resumes at TRAP.REP (R56). -/
def returnFromTrap : M Flow := do
  let x ← curSlot
  checkFree x.intrap .tretState
  modSlot fun x =>
    let y := x.setStat 4 false
    if x.sysTrap then { y.setStat 0 x.savedPriv with sysTrap := false } else y
  pure (.jump x.trapPc)

/-! ### Engine faults (R402) -/

/-- An engine fault kept for a task, if its slot still holds one. -/
def addFault (t : Nat) (f : EngFault) : M Unit := modSlotAt t fun x =>
  if x.st = .free then x else { x with engFaults := x.engFaults ++ [f] }

/-- The oldest kept fault that a test accepts is taken from the slot and raised; TRAP.REP is 0 at its delivery (R402). -/
def deliverFault (t : Nat) (p : EngFault → Bool) : M Unit := do
  let x := (← get).slot t
  match x.engFaults.find? p with
  | none => pure ()
  | some f => do
    modSlotAt t fun x => { x with engFaults := x.engFaults.erase f, trapRep := 0 }
    throw (.trap f.code (some f.val))

/-! ### Waiting for queued work -/

/-- Whether a queued vector entry is a store to memory (R206, R270). -/
def isVStore : Instr → Bool
  | .vst _ _ _ _ | .vstg _ _ _ _ _ | .vscatter _ _ _ _ _ | .tst _ _ _ _ => true
  | _ => false

/-- The task has stores in the vector queue, or memory entries in the matrix queue (R206, R255). -/
def State.storesQueued (s : State) (t : Nat) : Bool :=
  ((s.core (coreOf t)).vq.any fun e => e.slot = t && isVStore e.instr) ||
  ((s.core (coreOf t)).mq.any fun e => e.slot = t && isMxMem e.instr)

/-- The hold of R206 and R255 on loads, stores, SYNC instructions and releases. -/
def holdStores : M Unit := do waitFor (!(← get).storesQueued (← curId)) .queue

/-- Every queued entry of a task has completed (R205, R254). -/
def State.queuesEmpty (s : State) (t : Nat) : Bool :=
  ((s.core (coreOf t)).vq.all fun e => e.slot ≠ t) && ((s.core (coreOf t)).mq.all fun e => e.slot ≠ t)

/-- Release() of an instruction: it holds for queued stores first (R138, R206, R255). -/
def releaseNow : M Unit := do
  holdStores
  release

/-! ### CANCEL (R77) -/

/-- Whether CANCEL is pending for a task. -/
def State.cancelPending (s : State) (t : Nat) : Bool :=
  !(s.slot t).cancelled && (s.launchCancelled (s.slot t).launch ||
    (match s.launch? (s.slot t).launch with
     | some l => l.lost
     | none => false))

/-- What delivery of CANCEL sets (R77). -/
def Slot.takeCancel (x : Slot) : Slot := { x.setStat 5 true with yieldLeft := 4096 }

/-- The waits in which CANCEL is delivered at once (R77). -/
def Wait.takesCancel : Wait → Bool
  | .channel | .wrs | .barwait | .rwait | .inval => true
  | _ => false

/-! ### Checks before an instruction issues (R401) -/

/-- An instruction that has already issued and waits for its entries or its answer. -/
def Slot.issued (x : Slot) : Bool := x.repFrom ≠ 0 || x.pend.isSome

/-- `tld` and `tst`, which hold as vector loads and stores do (R270). -/
def isTensorAccess : Instr → Bool
  | .tld _ _ _ _ | .tst _ _ _ _ => true
  | _ => false

/-- The STATE instructions that access memory as loads and stores do, other than `tld` and `tst` (R268, R344, R346 to R349, R353, R363). -/
def isStateMem : Instr → Bool
  | .hload _ _ | .hstore _ _ | .sact _ _ _ | .spop _ _ | .accept _ _ => true
  | _ => false

/-- The holds before an instruction issues (R206, R255, R270). An `hload` reads as `ld` does and an `hstore` writes as `st` does, and they
and the others of their kind hold as those do (R163; DEDUCED, log entry 60). -/
def issueHolds (i : Instr) : M Unit :=
  if isLss i || isStateMem i then holdStores
  else if isMxMem i then do
    let t ← curId
    waitFor (((← get).core (coreOf t)).vq.all fun e => e.slot ≠ t || !isVStore e.instr) .queue
  else if isVmemAccess i || isTensorAccess i then do
    let t ← curId
    waitFor ((((← get).core (coreOf t)).mq.all fun e => e.slot ≠ t || !isMxMem e.instr)) .queue
  else pure ()

/-- ILLEGAL by the word, the privilege or the partition (R51, R52). -/
def illegalCheck (i : Instr) : M Unit := do
  let x ← curSlot
  check (!(illegalFor i x.part x.priv)) .illegal (BitVec.ofNat 64 (wordOf i))

/-- What a body would wait for before it issues; the state stays as it is. -/
def wouldPark {α : Type} (x : M α) : M (Option Wait) := fun s =>
  match x s with
  | .error (.park w) s' => .ok (if (s'.slot s'.cur).issued then none else some w) s
  | _ => .ok none s

/-- The orphan check before an instruction issues (R326). A slot that is parked stays so until its condition clears, which `again`
shows; a `wrs` or `barwait` that waits has issued already (R61, R437). -/
def orphanPoint (i : Instr) (again : M Unit) : M Unit := do
  let x ← curSlot
  if !isOrphanPoint i || x.wait = .wrs || x.wait = .barwait then pure ()
  else if x.wait = .none || x.partner.isSome then orphanCheck (← curId)
  else
    match ← wouldPark again with
    | some w => park w
    | none => orphanCheck (← curId)

/-- The instructions at which CANCEL is never delivered (R333). -/
def takesNoCancel : Instr → Bool
  | .hopen _ _ | .henter _ | .hleave | .hconfirm _ _ _ | .hrefute _ _ | .hstat _ _ | .copen _ | .cclose => true
  | _ => false

/-- The packet of a task that an Assayer holds. -/
def State.pairPacket (s : State) (t : Nat) : Option PairPacket := s.pf.pairs.find? fun p => p.slot = t

/-- Whether the other copy of a pair waits where this one does: at the same instruction, in the same wait, or for its answer (R409). -/
def State.partnerWaits (s : State) (x : Slot) : Bool :=
  match x.partner with
  | some u => decide ((s.slot u).pc = x.pc) && (decide ((s.slot u).wait = x.wait) || decide ((s.slot u).wait = .assayer))
  | none => true

/-- Whether the task, which waits in an instruction, takes CANCEL there (R77). The copies of a pair take it together, at the same
instruction (R65; DEDUCED, log entry 61). -/
def State.cancelsHere (s : State) (t : Nat) (i : Instr) : Bool :=
  (s.slot t).wait.takesCancel && s.cancelPending t && !takesNoCancel i && s.partnerWaits (s.slot t)

/-- CANCEL delivered to a task that waits: the instruction is abandoned (R72, R77). `rep` is the repeat at which a sequence waits. -/
def cancelHere (t : Nat) (rep : Option Nat) : M Unit := do
  let s ← get
  let v ← freshWord
  match (s.slot t).partner, s.pairPacket t with
  | some u, none => do
    modSlotAt u Slot.takeCancel
    takeTrap u Cause.cancel.code (some v) (s.slot u).pc rep
  | _, _ => pure ()
  modSlotAt t Slot.takeCancel
  raise .cancel v

/-- The checks of R401 after ILLEGAL, the holds, and the budget check of R69, for a single instruction; `names` is what it
names (R402), `again` its waits and its body. An instruction that has issued passes them no more, but for CANCEL while it waits. -/
def issueChecks (i : Instr) (names : List Named) (again : M Unit) : M Unit := do
  let x ← curSlot
  let t ← curId
  let cancel := (← get).cancelsHere t i
  if i matches .yield _ _ then pure ()
  else if x.issued then
    if cancel then cancelHere t none else pure ()
  else do
    if cancel then
      if isOrphanPoint i && x.wait ≠ .wrs then orphanCheck t else pure ()
    else do
      issueHolds i
      orphanPoint i again
    deliverFault t fun f => f.names.any fun n => names.contains n
    if cancel then cancelHere t none else pure ()
    checkFree (1 ≤ (← curSlot).yieldLeft.toNat) .yieldOverrun

/-- g31 named as a source, and as the destination. -/
def pops31 (i : Instr) : Bool := (gReads i).contains 31
def pushes31 (i : Instr) : Bool := (gWrites i).contains 31
def popsV31 (i : Instr) : Bool := (vReads i).contains 31
def pushesV31 (i : Instr) : Bool := (vWrites i).contains 31

/-- CheckChannel and the parks of R92 and R212, before the body. -/
def channelWaits (i : Instr) : M Unit := do
  let x ← curSlot
  if x.repFrom ≠ 0 then pure ()
  else do
    if x.pend.isSome then pure ()
    else do
      if pops31 i then checkPop false else pure ()
      if popsV31 i then checkPop true else pure ()
      if pushes31 i then checkPush false else pure ()
      if pushesV31 i then checkPush true else pure ()
    if pops31 i || popsV31 i then waitPops 1 else pure ()
    if pushes31 i || pushesV31 i then waitPushes 1 else pure ()

/-! ### After an instruction -/

/-- The charge of a single instruction (R69). -/
def Slot.charge (x : Slot) : Slot := { x with yieldLeft := x.yieldLeft - 1 }

/-- `tret`, after which a P word may resume at TRAP.REP (R56). -/
def isTret : Instr → Bool
  | .tret => true
  | _ => false

/-- The slot as it goes on at an address: one unit of budget charged, READY, waiting for nothing (R60, R69). -/
def Slot.goOn (x : Slot) (pc : Word) (ret : Bool) : Slot :=
  { x.charge with pc := pc, st := .ready, wait := .none, timer := none, tretRep := ret }

/-- What follows a body that is done: the pop of g31 or v31 (R92), the pc, the charge. -/
def settle (i : Instr) (f : Flow) : M Unit := do
  match f with
  | .gone => pure ()
  | .seq => do
    if pops31 i || popsV31 i then popHead else pure ()
    modSlot fun x => x.goOn (x.pc + 4) false
  | .jump pc => do
    if pops31 i || popsV31 i then popHead else pure ()
    modSlot fun x => x.goOn pc (isTret i)

/-- A slot that waits (R61). It examines its instruction again as a cycle ends, and takes a pending CANCEL then (R77). -/
def parkSlot (t : Nat) (w : Wait) : M Unit := modSlotAt t fun x => { x with st := .parked, wait := w }

/-! ### Redundant execution (R409 to R411) -/

/-- Fold (R410). -/
def fold (h w : Word) : Word :=
  let z := h ^^^ (w * 0x9E3779B97F4A7C15#64)
  let z := (z ^^^ (z >>> 30)) * 0xBF58476D1CE4E5B9#64
  let z := (z ^^^ (z >>> 27)) * 0x94D049BB133111EB#64
  z ^^^ (z >>> 31)

/-- Whether an instruction makes an outbound packet (R409): loads, stores, atomics and waits, messages, engine commands, the instructions
of hypotheses, regions and streams, `accept`, `spawn`, `depsig`, `cancel`, `yield` and `quit`. The lines of `mxstore` are packets of their
own. -/
def isPacket (i : Instr) : Bool :=
  isVmemAccess i || isEngineOp i || pushes31 i || pushesV31 i ||
  (match i with
   | .fenceAcq | .fenceRel | .fenceSc | .afence | .pref _ => false
   | i => isLss i) ||
  (match i with
   | .relayout _ _ _ | .hopen _ _ | .henter _ | .hleave | .hconfirm _ _ _ | .hrefute _ _ | .hstat _ _
   | .copen _ | .cclose | .screate _ _ | .sfork _ _ _ | .sdrop _ _ | .sact _ _ _ | .spop _ _ | .shor _ _ _ | .sret _
   | .sjoin _ _ _ | .senter _ | .smigr _ _ _ | .accept _ _ | .spawn _ _ _ _ | .depsig _ | .cancel _ _ | .yield _ _
   | .quit | .tld _ _ _ _ | .tst _ _ _ _ | .hstore _ _ => true
   | _ => false)

/-- n doublewords of a number, lowest first. -/
def doublewords (n v : Nat) : List Word := (List.range n).map fun k => BitVec.ofNat 64 (v / 2 ^ (64 * k))

/-- The width of the elements of an instruction whose inactive elements send nothing. -/
def sendWidth : Instr → Option Nat
  | .vld t _ _ _ | .vst t _ _ _ | .vldg t _ _ _ _ | .vstg t _ _ _ _ | .vgather t _ _ _ _ | .vscatter t _ _ _ _ => some t.width
  | _ => none

/-- A register with its inactive elements zero. -/
def activeBits (w : Nat) (m : MVal) (v : VVal) : Nat :=
  ((List.range (4096 / w)).map fun i => if m.getLsbD i then v.toNat / 2 ^ (w * i) % 2 ^ w * 2 ^ (w * i) else 0).foldl (· + ·) 0

/-- What of a v register a packet sends. -/
def sentV (x : Slot) (i : Instr) (r : VReg) : Nat :=
  let v : VVal := if r = 31 then (match x.head with
    | some m => m.data
    | none => 0) else x.vval r
  match sendWidth i with
  | some w => activeBits w (x.mval (govMask i)) v
  | none => v.toNat

/-- The mask of a packet, over the elements that there are. -/
def sentMask (x : Slot) (i : Instr) : Nat :=
  let m := (x.mval (govMask i)).toNat
  match sendWidth i with
  | some w => m % 2 ^ (4096 / w)
  | none => m

/-- The engine registers of a packet (R299, R375). -/
def sentE : Instr → List Nat
  | .cpyMm _ _ _ | .cpyMt _ _ _ | .cpyTm _ _ _ => List.range 16
  | .rwin _ _ | .rclose _ | .ramo _ _ _ => [16, 17, 18, 19, 24, 25, 26, 27, 28, 29, 30, 31]
  | _ => []

/-- The tensor handle of a packet. -/
def sentH : Instr → List HReg
  | .tld _ a _ _ | .tst _ a _ _ => [a]
  | .relayout d _ _ | .hstore d _ => [d]
  | _ => []

/-- The doublewords of a packet (R410): its kind and size, as the instruction's word says them, what its addresses come from, then its data.
How the first doubleword packs them is not stated (DESIGN CHOICE, log entry 13). A `yield` does not send a message that it reads. -/
def packetWords (x : Slot) (i : Instr) : List Word :=
  [BitVec.ofNat 64 (wordOf i)] ++
  (((if i matches .yield _ _ then (gReads i).filter (· ≠ 31) else gReads i).map x.gval)) ++
  ((sentE i).map x.eval_) ++
  ((sentH i).flatMap fun r => (x.hval r).daddr :: doublewords 16 (x.hval r).desc.toNat) ++
  (if govMask i = 0 then [] else doublewords 16 (sentMask x i)) ++
  ((vReads i).flatMap fun r => doublewords 64 (sentV x i r))

/-- H after each of a list of packets (R410). -/
def hashesOf (h : Word) : List (List Word) → List Word
  | [] => []
  | p :: r => p.foldl fold h :: hashesOf (p.foldl fold h) r

/-- TRAP.VAL of REDUNDANCY: SKEW, and the sequence number of the failing packet (R411). -/
def redundancyVal (skew : Bool) (seq : Nat) : Word := BitVec.ofNat 64 (skew.toNat * 2 ^ 63 + seq % 2 ^ 32)

/-- A redundancy mismatch of a slot's pair logged (R414). Which array and which address the entry names is not stated, and both are free
(log entry 5). -/
def logRedundancy (t : Nat) : M Unit := do
  let array ← freshWord
  let addr ← freshWord
  logError (dieOf t) (array.toNat % 6) 3 (addr.toNat % 2 ^ 56) (ctxOf ((← get).slot t).asid.toNat ((← get).slot t).launch (some t))

/-- REDUNDANCY raised in both copies for a packet, their packets gone (R410, R411); `rep` is the repeat of a sequence. -/
def redundancyBoth (t u : Nat) (skew : Bool) (seq : Nat) (rep : Option Nat) : M Unit := do
  modPf fun p => { p with pairs := p.pairs.filter fun q => q.slot ≠ t && q.slot ≠ u }
  logRedundancy t
  eachM (fun k => do
    let x := (← get).slot k
    if x.st = .free then pure () else takeTrap k Cause.redundancy.code (some (redundancyVal skew seq)) x.pc rep) [t, u]

/-- The packets that the Assayer of a cell holds: of a pair, the first copy's (R411). -/
def State.assayerHolds (s : State) (cell : Nat) : Nat :=
  (s.pf.pairs.map fun p =>
    let x := s.slot p.slot
    let second := x.shadow && (match x.partner with
      | some u => (s.pairPacket u).isSome
      | none => false)
    if cellOf (primaryOf p.slot x) = cell && !second then p.hashes.length else 0).foldl (· + ·) 0

/-- The room for a copy's packets at its Assayer: a second copy finds its partner's there (R411). -/
def State.assayerRoom (s : State) (t : Nat) : Nat :=
  let x := s.slot t
  match x.partner.bind s.pairPacket with
  | some _ => 65536
  | none => 256 - s.assayerHolds (cellOf (primaryOf t x))

/-- A copy's packets go to the primary's Assayer, once they have room (R410, R411). -/
def sendPackets (t : Nat) (hs : List Word) : M Unit := do
  let s ← get
  modPf fun p => { p with pairs := p.pairs ++ [⟨t, (s.slot t).pairSeq, hs, s.clock (dieOf t)⟩] }

/-- The length of the longest common beginning of two lists. -/
def agreedOn : List Word → List Word → Nat
  | a :: r, b :: q => if a = b then 1 + agreedOn r q else 0
  | _, _ => 0

/-- What a copy does before its packets are performed, the packets of an instruction or of the repeats of a sequence: it waits for its
partner's, once its own queued `mxstore` lines have gone. The answer is the number of packets that agree, or none where there is nothing to
compare or all of them do. The primary acts for both. -/
def comparePackets (is : List Instr) : M (Option Nat) := do
  let t ← curId
  let x ← curSlot
  match x.partner with
  | none => pure none
  | some u =>
    if !(is.any isPacket) || x.issued then pure none
    else do
      waitFor (((← get).core (coreOf t)).mq.all fun e => e.slot ≠ t || !isMxMem e.instr) .queue
      if is.all fun i => (vReads i).isEmpty then pure () else waitFor ((← get).queuesEmpty t) .queue
      if ((← get).pairPacket t).isSome then pure ()
      else do
        let hs := hashesOf x.pairHash ((is.filter isPacket).map (packetWords x))
        waitFor (decide (hs.length ≤ (← get).assayerRoom t)) .assayer
        sendPackets t hs
      let s ← get
      match s.pairPacket t, s.pairPacket u with
      | some p, some q =>
        if p.seq ≠ q.seq || x.shadow then park .assayer
        else if p.hashes = q.hashes then pure none
        else pure (some (agreedOn p.hashes q.hashes))
      | _, _ => park .assayer

/-- The packet of a single instruction compared: a difference is REDUNDANCY in both copies, which the answer true reports. -/
def comparePacket (i : Instr) : M Bool := do
  match ← comparePackets [i] with
  | none => pure false
  | some _ => do
    let t ← curId
    redundancyBoth t ((← curSlot).partner.getD t) false (← curSlot).pairSeq none
    pure true

/-- The engine registers that a response writes (R375). -/
def answersE : Instr → List Nat
  | .rwin _ _ | .rclose _ | .rwait _ _ | .ramo _ _ _ => [20, 24, 25, 26, 27, 28, 29, 30, 31]
  | _ => []

/-- The registers of the primary that its response also gives to the shadow (R410). -/
def copyResponse (i : Instr) (x y : Slot) : Slot :=
  let y := (answersE i).foldl (fun y n => y.setE n (x.eval_ n)) y
  let y := (gWrites i).foldl (fun y r => y.setG r (x.gval r)) y
  let y := (vWrites i).foldl (fun y r => y.setV r (x.vval r)) y
  { y with h := x.h, hypId := x.hypId, impl := x.impl, regions := x.regions, strmCur := x.strmCur, batchPos := x.batchPos,
           yieldLeft := x.yieldLeft, pc := x.pc, fflags := x.fflags, rpend := x.rpend }

/-- H after the packets of a record, `old` before them, and the number of the packet that follows them. -/
def PairPacket.lastHash (p : PairPacket) (old : Word) : Word := (p.hashes.getLast?).getD old
def PairPacket.nextSeq (p : PairPacket) : Nat := p.seq + p.hashes.length

/-- A performed packet of a primary: both packets leave the Assayer, and the shadow goes on as the primary does, its message
taken where the instruction is done (R410). -/
def forwardPacket (i : Instr) (t : Nat) (done : Bool) : M Unit := do
  let s ← get
  let x := s.slot t
  match x.partner, s.pairPacket t with
  | some u, some p => do
    if x.shadow then pure ()
    else do
      modPf fun q => { q with pairs := q.pairs.filter fun r => r.slot ≠ t && r.slot ≠ u }
      let y := (← get).slot u
      if done && (pops31 i || popsV31 i) then modSlotAt u fun y => { y with inq := y.inq.drop 1 } else pure ()
      if y.st = .free then pure ()
      else modSlotAt u fun y =>
        { copyResponse i x y with
          pairHash := p.lastHash x.pairHash, pairSeq := p.nextSeq, st := if x.st = .ending then .ending else .ready,
          wait := if x.st = .ending then .drain else .none,
          stat := setStatBit x.stat 7 true, trapCause := x.trapCause, trapVal := x.trapVal, trapPc := x.trapPc,
          trapRep := x.trapRep }
      modSlotAt t fun x => { x with pairHash := p.lastHash x.pairHash, pairSeq := p.nextSeq }
  | _, _ => pure ()

/-! ### The frame of an instruction -/

/-- The channel of an instruction; `yield` reads g31 once no cause is pending (R71). -/
def channelFirst (i : Instr) : M Unit := if i matches .yield _ _ then pure () else channelWaits i

/-- A body with its checks: what runs when a slot issues an instruction (R401). -/
def framed (i : Instr) (names : State → Slot → List Named) (body : M Flow) : M Flow := do
  illegalCheck i
  issueChecks i (names (← get) (← curSlot)) (do
    channelFirst i
    let _ ← body)
  channelFirst i
  if ← comparePacket i then pure .gone else body

/-- The state after a framed body: settled, trapped or parked. -/
def conclude (i : Instr) (t : Nat) (pc : Word) (r : EStateM.Result Stop State Flow) : State :=
  match r with
  | .ok f s => runM (do settle i f; forwardPacket i t true) s
  | .error (.trap code val) s => runM (do takeTrap t code val pc none; forwardPacket i t false) s
  | .error (.park w) s => runM (parkSlot t w) s

/-- An instruction issued by the slot `cur`. -/
def issueNamed (i : Instr) (names : State → Slot → List Named) (body : M Flow) (s : State) :
    Host.Outcome State Fault Refusal :=
  if (s.slot s.cur).st = .free then .fault .noTask
  else .next (conclude i s.cur (s.slot s.cur).pc (framed i names body s))

/-- An instruction that names no tile, barrier, operand slot or handle. -/
def issue (i : Instr) (body : M Flow) (s : State) : Host.Outcome State Fault Refusal :=
  issueNamed i (fun _ _ => []) body s

/-- A body that goes on at the next word. -/
def thenNext (body : M Unit) : M Flow := do
  body
  pure .seq

/-- An event: what it does, or no change where it is not enabled (log entry 3). -/
def event (body : M Unit) (s : State) : Host.Outcome State Fault Refusal := .next (runM (orUndo body) s)

/-- An event stops here unless a condition holds. -/
def need (ok : Bool) : M Unit := waitFor ok .none

/-- A value an event needs. -/
def needSome {α : Type} (x : Option α) : M α :=
  match x with
  | some a => pure a
  | none => park .none

end Sys2Proof.Machine
end

