-- ==== Sys2Proof/Machine/Flags.lean ====
section
/-!
DEFINITION. FP.FLAGS and FP.MODE: how flags are collected and which rounding an instruction takes (R101 to R104). The
conditions that set each flag stand with the arithmetic in Numbers.lean.
-/

namespace Sys2Proof.Machine

/-- Flags ORed into FP.FLAGS of a slot (R102). -/
def orFlagsAt (t : Nat) (f : Flags) : M Unit := modSlotAt t fun x => { x with fflags := x.fflags ||| f }
/-- Flags ORed into FP.FLAGS of the task (R102). -/
def orFlags (f : Flags) : M Unit := modSlot fun x => { x with fflags := x.fflags ||| f }

end Sys2Proof.Machine
end

