-- ==== Sys2Proof/Machine/AluR.lean ====
section
/-!
DEFINITION. The ALU-R instructions (R93 to R96).
-/

namespace Sys2Proof.Machine

/-- 1 or 0. -/
def ofBool (b : Bool) : Word := if b then 1 else 0
/-- The shift amount, bits [5:0] (R94). -/
def shiftOf (b : Word) : Nat := b.toNat % 64
/-- Bits [127:64] of a product of integers. -/
def mulHigh (a b : Int) : Word := wrap64 (a * b / 2 ^ 64)
/-- Quotients and remainders (R95). -/
def divSigned (a b : Word) : Word :=
  if b = 0 then minusOne else if a.toInt = -(2 ^ 63) ∧ b.toInt = -1 then a else wrap64 (a.toInt.tdiv b.toInt)
def divUnsigned (a b : Word) : Word := if b = 0 then minusOne else BitVec.ofNat 64 (a.toNat / b.toNat)
def remSigned (a b : Word) : Word :=
  if b = 0 then a else if a.toInt = -(2 ^ 63) ∧ b.toInt = -1 then 0 else wrap64 (a.toInt.tmod b.toInt)
def remUnsigned (a b : Word) : Word := if b = 0 then a else BitVec.ofNat 64 (a.toNat % b.toNat)

/-- Bit counts of an n-bit number. -/
def leadingZeros : Nat → Nat → Nat
  | 0, _ => 0
  | n + 1, a => if a.testBit n then 0 else 1 + leadingZeros n a
def trailingZeros : Nat → Nat → Nat
  | 0, _ => 0
  | n + 1, a => if a % 2 = 1 then 0 else 1 + trailingZeros n (a / 2)
def onesOf : Nat → Nat → Nat
  | 0, _ => 0
  | n + 1, a => a % 2 + onesOf n (a / 2)
/-- The n low bits in reverse order, after the bits of r. -/
def reverseBits : Nat → Nat → Nat → Nat
  | 0, _, r => r
  | n + 1, a, r => reverseBits n (a / 2) (2 * r + a % 2)

/-- POS and the effective length L of a bit field (R96). -/
def fieldPos (b : Word) : Nat := b.toNat % 64
def fieldLen (b : Word) : Nat := min (min (fieldOf b 14 8) 64) (64 - fieldPos b)
def bitExtract (a b : Word) : Word := BitVec.ofNat 64 (a.toNat / 2 ^ fieldPos b % 2 ^ fieldLen b)
/-- bfi with the old destination d (R96). -/
def bitInsert (d a b : Word) : Word :=
  let k : Word := BitVec.ofNat 64 ((2 ^ fieldLen b - 1) * 2 ^ fieldPos b)
  (d &&& ~~~k) ||| ((a <<< fieldPos b) &&& k)

/-- An instruction of two sources. -/
def alu2 (i : Instr) (d a b : GReg) (f : Word → Word → Word) (s : State) : Host.Outcome State Fault Refusal :=
  issue i (thenNext do wr d (f (← rd a) (← rd b))) s
/-- An instruction of one source. -/
def alu1 (i : Instr) (d a : GReg) (f : Word → Word) (s : State) : Host.Outcome State Fault Refusal :=
  issue i (thenNext do wr d (f (← rd a))) s

/-- `add`: Wrap64(a + b) (R94). -/
def execAdd (d a b : GReg) (s : State) : Host.Outcome State Fault Refusal :=
  alu2 (.add d a b) d a b (fun a b => wrap64 (a.toInt + b.toInt)) s

/-- `sub`: Wrap64(a − b) (R94). -/
def execSub (d a b : GReg) (s : State) : Host.Outcome State Fault Refusal :=
  alu2 (.sub d a b) d a b (fun a b => wrap64 (a.toInt - b.toInt)) s

/-- `mul`: Wrap64(a · b) (R94). -/
def execMul (d a b : GReg) (s : State) : Host.Outcome State Fault Refusal :=
  alu2 (.mul d a b) d a b (fun a b => a * b) s

/-- `mulh`: bits [127:64] of the signed product (R94). -/
def execMulh (d a b : GReg) (s : State) : Host.Outcome State Fault Refusal :=
  alu2 (.mulh d a b) d a b (fun a b => mulHigh a.toInt b.toInt) s

/-- `mulhn`: bits [127:64] of the unsigned product (R94). -/
def execMulhn (d a b : GReg) (s : State) : Host.Outcome State Fault Refusal :=
  alu2 (.mulhn d a b) d a b (fun a b => mulHigh a.toNat b.toNat) s

/-- `div`: signed quotient (R95) (R94). -/
def execDiv (d a b : GReg) (s : State) : Host.Outcome State Fault Refusal :=
  alu2 (.div d a b) d a b (fun a b => divSigned a b) s

/-- `divn`: unsigned quotient (R95) (R94). -/
def execDivn (d a b : GReg) (s : State) : Host.Outcome State Fault Refusal :=
  alu2 (.divn d a b) d a b (fun a b => divUnsigned a b) s

/-- `rem`: signed remainder (R95) (R94). -/
def execRem (d a b : GReg) (s : State) : Host.Outcome State Fault Refusal :=
  alu2 (.rem d a b) d a b (fun a b => remSigned a b) s

/-- `remn`: unsigned remainder (R95) (R94). -/
def execRemn (d a b : GReg) (s : State) : Host.Outcome State Fault Refusal :=
  alu2 (.remn d a b) d a b (fun a b => remUnsigned a b) s

/-- `and`: bitwise AND (R94). -/
def execAnd (d a b : GReg) (s : State) : Host.Outcome State Fault Refusal :=
  alu2 (.and d a b) d a b (fun a b => a &&& b) s

/-- `or`: bitwise OR (R94). -/
def execOr (d a b : GReg) (s : State) : Host.Outcome State Fault Refusal :=
  alu2 (.or d a b) d a b (fun a b => a ||| b) s

/-- `xor`: bitwise XOR (R94). -/
def execXor (d a b : GReg) (s : State) : Host.Outcome State Fault Refusal :=
  alu2 (.xor d a b) d a b (fun a b => a ^^^ b) s

/-- `andn`: a AND NOT b (R94). -/
def execAndn (d a b : GReg) (s : State) : Host.Outcome State Fault Refusal :=
  alu2 (.andn d a b) d a b (fun a b => a &&& ~~~b) s

/-- `orn`: a OR NOT b (R94). -/
def execOrn (d a b : GReg) (s : State) : Host.Outcome State Fault Refusal :=
  alu2 (.orn d a b) d a b (fun a b => a ||| ~~~b) s

/-- `sll`: shift left (R94). -/
def execSll (d a b : GReg) (s : State) : Host.Outcome State Fault Refusal :=
  alu2 (.sll d a b) d a b (fun a b => a <<< shiftOf b) s

/-- `srl`: logical shift right (R94). -/
def execSrl (d a b : GReg) (s : State) : Host.Outcome State Fault Refusal :=
  alu2 (.srl d a b) d a b (fun a b => a >>> shiftOf b) s

/-- `sra`: arithmetic shift right (R94). -/
def execSra (d a b : GReg) (s : State) : Host.Outcome State Fault Refusal :=
  alu2 (.sra d a b) d a b (fun a b => a.sshiftRight (shiftOf b)) s

/-- `rol`: rotate left (R94). -/
def execRol (d a b : GReg) (s : State) : Host.Outcome State Fault Refusal :=
  alu2 (.rol d a b) d a b (fun a b => a.rotateLeft (shiftOf b)) s

/-- `ror`: rotate right (R94). -/
def execRor (d a b : GReg) (s : State) : Host.Outcome State Fault Refusal :=
  alu2 (.ror d a b) d a b (fun a b => a.rotateRight (shiftOf b)) s

/-- `min`: signed minimum (R94). -/
def execMin (d a b : GReg) (s : State) : Host.Outcome State Fault Refusal :=
  alu2 (.min d a b) d a b (fun a b => if a.toInt ≤ b.toInt then a else b) s

/-- `max`: signed maximum (R94). -/
def execMax (d a b : GReg) (s : State) : Host.Outcome State Fault Refusal :=
  alu2 (.max d a b) d a b (fun a b => if a.toInt ≤ b.toInt then b else a) s

/-- `minn`: unsigned minimum (R94). -/
def execMinn (d a b : GReg) (s : State) : Host.Outcome State Fault Refusal :=
  alu2 (.minn d a b) d a b (fun a b => if a.toNat ≤ b.toNat then a else b) s

/-- `maxn`: unsigned maximum (R94). -/
def execMaxn (d a b : GReg) (s : State) : Host.Outcome State Fault Refusal :=
  alu2 (.maxn d a b) d a b (fun a b => if a.toNat ≤ b.toNat then b else a) s

/-- `slt`: signed less-than (R94). -/
def execSlt (d a b : GReg) (s : State) : Host.Outcome State Fault Refusal :=
  alu2 (.slt d a b) d a b (fun a b => ofBool (decide (a.toInt < b.toInt))) s

/-- `sltn`: unsigned less-than (R94). -/
def execSltn (d a b : GReg) (s : State) : Host.Outcome State Fault Refusal :=
  alu2 (.sltn d a b) d a b (fun a b => ofBool (decide (a.toNat < b.toNat))) s

/-- `bfx`: bit-field extract (R96) (R94). -/
def execBfx (d a b : GReg) (s : State) : Host.Outcome State Fault Refusal :=
  alu2 (.bfx d a b) d a b (fun a b => bitExtract a b) s

/-- `clmul`: low half of the carry-less product (R94). -/
def execClmul (d a b : GReg) (s : State) : Host.Outcome State Fault Refusal :=
  alu2 (.clmul d a b) d a b (fun a b => BitVec.ofNat 64 (clmulNat a.toNat b.toNat 64)) s

/-- `clmulh`: high half of the carry-less product (R94). -/
def execClmulh (d a b : GReg) (s : State) : Host.Outcome State Fault Refusal :=
  alu2 (.clmulh d a b) d a b (fun a b => BitVec.ofNat 64 (clmulNat a.toNat b.toNat 64 / 2 ^ 64)) s

/-- `sel`: a if c is not zero, else b (R94). -/
def execSel (d a b c : GReg) (s : State) : Host.Outcome State Fault Refusal :=
  issue (.sel d a b c) (thenNext do
    let x ← rd a
    let y ← rd b
    wr d (if (← rd c) ≠ 0 then x else y)) s

/-- `bfi`: bit-field insert; the destination is read, as 0 where it names g31 (R96). -/
def execBfi (d a b : GReg) (s : State) : Host.Outcome State Fault Refusal :=
  issue (.bfi d a b) (thenNext do
    let old ← if d = 31 then pure 0 else rd d
    wr d (bitInsert old (← rd a) (← rd b))) s

/-- `clz`: number of leading zero bits (R94). -/
def execClz (d a : GReg) (s : State) : Host.Outcome State Fault Refusal :=
  alu1 (.clz d a) d a (fun a => BitVec.ofNat 64 (leadingZeros 64 a.toNat)) s

/-- `ctz`: number of trailing zero bits (R94). -/
def execCtz (d a : GReg) (s : State) : Host.Outcome State Fault Refusal :=
  alu1 (.ctz d a) d a (fun a => BitVec.ofNat 64 (trailingZeros 64 a.toNat)) s

/-- `popc`: number of one bits (R94). -/
def execPopc (d a : GReg) (s : State) : Host.Outcome State Fault Refusal :=
  alu1 (.popc d a) d a (fun a => BitVec.ofNat 64 (onesOf 64 a.toNat)) s

/-- `brev`: bits in reverse order (R94). -/
def execBrev (d a : GReg) (s : State) : Host.Outcome State Fault Refusal :=
  alu1 (.brev d a) d a (fun a => BitVec.ofNat 64 (reverseBits 64 a.toNat 0)) s

end Sys2Proof.Machine
end

