-- ==== Sys2Proof/Machine/AluI.lean ====
section
/-!
DEFINITION. The ALU-I instructions (R97), branches and jumps (R98, R99).
-/

namespace Sys2Proof.Machine

/-- The address of the instruction. -/
def curPc : M Word := do pure (← curSlot).pc

/-- lui and addpc shift their immediate by 14 (R49). -/
def upperImm (imm : BitVec 23) : Word := sext imm <<< 14

/-- `addi`: Wrap64(a + imm) with the sign-extended immediate (R97). -/
def execAddi (d a : GReg) (imm : BitVec 14) (s : State) : Host.Outcome State Fault Refusal :=
  alu1 (.addi d a imm) d a (fun a => wrap64 (a.toInt + (sext imm).toInt)) s

/-- `andi`: AND with the sign-extended immediate (R97). -/
def execAndi (d a : GReg) (imm : BitVec 14) (s : State) : Host.Outcome State Fault Refusal :=
  alu1 (.andi d a imm) d a (fun a => a &&& sext imm) s

/-- `ori`: OR with the sign-extended immediate (R97). -/
def execOri (d a : GReg) (imm : BitVec 14) (s : State) : Host.Outcome State Fault Refusal :=
  alu1 (.ori d a imm) d a (fun a => a ||| sext imm) s

/-- `xori`: XOR with the sign-extended immediate (R97). -/
def execXori (d a : GReg) (imm : BitVec 14) (s : State) : Host.Outcome State Fault Refusal :=
  alu1 (.xori d a imm) d a (fun a => a ^^^ sext imm) s

/-- `slti`: signed less-than with the sign-extended immediate (R97). -/
def execSlti (d a : GReg) (imm : BitVec 14) (s : State) : Host.Outcome State Fault Refusal :=
  alu1 (.slti d a imm) d a (fun a => ofBool (decide (a.toInt < (sext imm).toInt))) s

/-- `slli`: shift by the immediate (R97). -/
def execSlli (d a : GReg) (sh : BitVec 6) (s : State) : Host.Outcome State Fault Refusal :=
  alu1 (.slli d a sh) d a (fun a => a <<< sh.toNat) s

/-- `srli`: shift by the immediate (R97). -/
def execSrli (d a : GReg) (sh : BitVec 6) (s : State) : Host.Outcome State Fault Refusal :=
  alu1 (.srli d a sh) d a (fun a => a >>> sh.toNat) s

/-- `srai`: shift by the immediate (R97). -/
def execSrai (d a : GReg) (sh : BitVec 6) (s : State) : Host.Outcome State Fault Refusal :=
  alu1 (.srai d a sh) d a (fun a => a.sshiftRight sh.toNat) s

/-- `lui`: the immediate shifted left by 14, into g(8 + DJ) (R97). -/
def execLui (j : BitVec 3) (imm : BitVec 23) (s : State) : Host.Outcome State Fault Refusal :=
  issue (.lui j imm) (thenNext (wr (8#5 + j.setWidth 5) (upperImm imm))) s

/-- `addpc`: the pc plus the immediate shifted left by 14 (R97). -/
def execAddpc (j : BitVec 3) (imm : BitVec 23) (s : State) : Host.Outcome State Fault Refusal :=
  issue (.addpc j imm) (thenNext do wr (8#5 + j.setWidth 5) ((← curPc) + upperImm imm)) s

/-- CheckTarget (R99). -/
def checkTarget (t : Word) : M Unit := check (t.toNat < 2 ^ 56) .memRange t

/-- A word offset from the instruction (R49). -/
def wordOffset {n : Nat} (off : BitVec n) : Word := sext off <<< 2

/-- A branch: the target where the condition holds, else the next word (R98). -/
def branchIf (i : Instr) (a b : GReg) (off : BitVec 14) (f : Word → Word → Bool) (s : State) :
    Host.Outcome State Fault Refusal :=
  issue i (do
    if f (← rd a) (← rd b) then do
      let t := (← curPc) + wordOffset off
      checkTarget t
      pure (.jump t)
    else pure .seq) s

/-- `beq`: branch if equal (R98). -/
def execBeq (a b : GReg) (off : BitVec 14) (s : State) : Host.Outcome State Fault Refusal :=
  branchIf (.beq a b off) a b off (fun a b => a == b) s

/-- `bne`: branch if not equal (R98). -/
def execBne (a b : GReg) (off : BitVec 14) (s : State) : Host.Outcome State Fault Refusal :=
  branchIf (.bne a b off) a b off (fun a b => a != b) s

/-- `blt`: branch if signed less (R98). -/
def execBlt (a b : GReg) (off : BitVec 14) (s : State) : Host.Outcome State Fault Refusal :=
  branchIf (.blt a b off) a b off (fun a b => decide (a.toInt < b.toInt)) s

/-- `bge`: branch if signed not less (R98). -/
def execBge (a b : GReg) (off : BitVec 14) (s : State) : Host.Outcome State Fault Refusal :=
  branchIf (.bge a b off) a b off (fun a b => decide (b.toInt ≤ a.toInt)) s

/-- `bltn`: branch if unsigned less (R98). -/
def execBltn (a b : GReg) (off : BitVec 14) (s : State) : Host.Outcome State Fault Refusal :=
  branchIf (.bltn a b off) a b off (fun a b => decide (a.toNat < b.toNat)) s

/-- `bgen`: branch if unsigned not less (R98). -/
def execBgen (a b : GReg) (off : BitVec 14) (s : State) : Host.Outcome State Fault Refusal :=
  branchIf (.bgen a b off) a b off (fun a b => decide (b.toNat ≤ a.toNat)) s

/-- `jal`: jump relative to the pc, the link in g(DJ) (R99). -/
def execJal (j : BitVec 3) (imm : BitVec 23) (s : State) : Host.Outcome State Fault Refusal :=
  issue (.jal j imm) (do
    let pc ← curPc
    let t := pc + wordOffset imm
    checkTarget t
    wr (j.setWidth 5) (pc + 4)
    pure (.jump t)) s

/-- `jalr`: jump to a register plus an offset, bits [1:0] cleared (R99). -/
def execJalr (d a : GReg) (imm : BitVec 14) (s : State) : Host.Outcome State Fault Refusal :=
  issue (.jalr d a imm) (do
    let pc ← curPc
    let t := ((← rd a) + sext imm) &&& ~~~3#64
    checkTarget t
    wr d (pc + 4)
    pure (.jump t)) s

end Sys2Proof.Machine
end

