-- ==== Sys2Proof/Machine/MatNum.lean ====
section
/-!
DEFINITION. The arithmetic of the matrix unit: the control word, operand elements, block steps and the epilogue (R186 to R188,
R239, R243, R244, R249, R253).
-/

namespace Sys2Proof.Machine

/-- Bits hi to lo of MXCTL. -/
def ctlBits (c : Word) (hi lo : Nat) : Nat := c.toNat / 2 ^ lo % 2 ^ (hi + 1 - lo)
def ctlA (c : Word) : ElemType := .ofCode (ctlBits c 3 0)
def ctlB (c : Word) : ElemType := .ofCode (ctlBits c 7 4)
def ctlOut (c : Word) : ElemType := .ofCode (ctlBits c 15 12)
def ctlF64 (c : Word) : Bool := c.getLsbD 10
def ctlRelu (c : Word) : Bool := c.getLsbD 19

/-- The operand groups of R244: 0 f32, 1 the 16-bit floats, 2 the 8-bit ones, 3 sh4, 4 sh2, 5 and 6 the integers; none for a
code no group has. -/
def mxGroup : ElemType → Option Nat
  | .f32 => some 0
  | .f16 | .bf16 => some 1
  | .e4m3 | .e5m2 | .sh8 => some 2
  | .sh4 => some 3
  | .sh2 => some 4
  | .n8 | .s8 => some 5
  | .n4 | .s4 => some 6
  | _ => none

/-- Whether MXCTL selects integers. -/
def mxInt (c : Word) : Bool := mxGroup (ctlA c) = some 5 || mxGroup (ctlA c) = some 6

/-- A valid MXCTL (R244). -/
def mxctlOk (c : Word) : Bool :=
  ctlBits c 63 20 = 0 && !c.getLsbD 11 && ctlBits c 18 16 ≤ 4 &&
  (if ctlF64 c then ctlBits c 9 0 = 0 && ctlBits c 15 12 = 0 && ctlBits c 18 16 = 0
   else
     (mxGroup (ctlA c)).isSome && mxGroup (ctlA c) = mxGroup (ctlB c) &&
     (if mxInt c then ctlBits c 18 16 = 0 && [ElemType.s32, .s16, .s8, .n8].contains (ctlOut c)
      else ctlBits c 9 8 = 0 && [ElemType.f32, .f16, .bf16, .e4m3, .e5m2].contains (ctlOut c)))

/-! ### Operand rows (R239) -/

/-- The elements of a row of an operand slot, and its sideband. -/
structure OpRow where
  elems : Nat
  side : Nat

/-- A row of an operand slot. -/
def opRow (data : Tbl Byte) (r : Nat) : OpRow := ⟨tblReadN data (576 * r) 384, tblReadN data (576 * r + 384) 192⟩

/-- Element k of a row as a float or shared-exponent value (R177, R182, R249). -/
def OpRow.val (x : OpRow) (t : ElemType) (k : Nat) : FpVal :=
  let b := x.elems / 2 ^ (t.width * k) % 2 ^ t.width
  if t.isFloat then (fmtOf t).decode b
  else
    let g := k / 16
    shDecode t (x.side / 2 ^ (16 * g) % 256) (x.side / 2 ^ (16 * g + 8 + k % 16 / 2) % 2) b

/-- Element k of a row as an integer (R187, R249). -/
def OpRow.int (x : OpRow) (t : ElemType) (signed : Bool) (k : Nat) : Int :=
  let b := x.elems / 2 ^ (t.width * k) % 2 ^ t.width
  if signed then asSigned b t.width else b

/-- The element numbers of K-step st (R186). -/
def stepElems (t : ElemType) (st : Nat) : List Nat := (List.range (512 / t.width)).map fun k => st * (512 / t.width) + k

/-- The K-steps of one output element, n of them from step st (R186, R187, R249). -/
def kSteps (c : Word) (a b : OpRow) : Nat → Nat → Nat → Nat
  | 0, _, acc => acc
  | n + 1, st, acc =>
    let ks := stepElems (ctlA c) st
    let acc' :=
      if mxInt c then
        wrapN ((ks.map fun k => a.int (ctlA c) (c.getLsbD 8) k * b.int (ctlB c) (c.getLsbD 9) k).foldl (· + ·)
          (asSigned acc 32)) 32
      else stepSum acc (ks.map fun k => (mulVal (a.val (ctlA c) k) (b.val (ctlB c) k)).1)
    kSteps c a b n (st + 1) acc'

/-- One output element accumulated in FP64, n fused operations from k (R188). -/
def kSteps64 (a b : OpRow) : Nat → Nat → Nat → Nat
  | 0, _, acc => acc
  | n + 1, k, acc =>
    kSteps64 a b n (k + 1)
      (fmaBits .fp64 .rne false false (a.elems / 2 ^ (64 * k) % 2 ^ 64) (b.elems / 2 ^ (64 * k) % 2 ^ 64) acc).1

/-- One output element after `mxmul` (R249). -/
def mxElem (c : Word) (a b : OpRow) (acc : Nat) : Nat :=
  if ctlF64 c then kSteps64 a b 48 0 acc else kSteps c a b 6 0 acc

/-- The bytes of an accumulator element (R247). -/
def accBytes (c : Word) : Nat := if ctlF64 c then 8 else 4

/-! ### The epilogue (R253) -/

/-- The rounding of `mxstore` (R243). -/
def storeMode (c : Word) (rm : BitVec 2) : Rnd :=
  match ctlBits c 18 16 with
  | 1 => .rne
  | 2 => .rtz
  | 3 => .rup
  | 4 => .rdn
  | _ => .ofCode rm.toNat

/-- RELU on a float: negative values and −0 become +0, a NaN stays (R253). -/
def relu (f : FpFmt) (v : Nat) : Nat :=
  let x := f.decode v
  if !x.isNan && x.isNeg then 0 else v

/-- One accumulator element as `mxstore` writes it, and its flags: a conversion signals for a signalling NaN (R178, R253). -/
def epilogue (c : Word) (rm : BitVec 2) (v : Nat) : Nat × Flags :=
  if ctlF64 c then (if ctlRelu c then relu .fp64 v else v, 0)
  else if mxInt c then
    let i := asSigned v 32
    let i := if ctlRelu c && decide (i < 0) then 0 else i
    let o := ctlOut c
    (wrapN (clampInt o.isSigned o.width i) o.width, 0)
  else
    let v := if ctlRelu c then relu .f32 v else v
    if ctlOut c = .f32 then (v, 0) else convertBits .f32 (fmtOf (ctlOut c)) (storeMode c rm) v

/-- The bytes of a stored element (R252). -/
def outBytes (c : Word) : Nat := if ctlF64 c then 8 else (ctlOut c).width / 8

end Sys2Proof.Machine
end

