-- ==== Sys2Proof/Machine/Load.lean ====
section
/-!
DEFINITION. Scalar loads and stores (R146 to R151).
-/

namespace Sys2Proof.Machine

/-- The agent of a load or store of the task; a PAIRED task bypasses the L1 (R409). -/
def bypassed (x : Slot) (p : Place) : Place :=
  match p, x.partner with
  | .mem pa va _, some _ => .mem pa va false
  | p, _ => p

/-- The effective address of a displacement form (R148). -/
def dispAddr (a : GReg) (imm : BitVec 14) : M Word := do pure ((← rd a) + sext imm)

/-- Sign or zero extension of n bytes (R148). -/
def extend (signed : Bool) (n v : Nat) : Word :=
  if signed then BitVec.ofInt 64 (asSigned v (8 * n)) else BitVec.ofNat 64 (v % 2 ^ (8 * n))

/-- A load: checked, read, extended (R148). `alloc` is false where the home is read, and no line enters the L1 (R139, R149). -/
def loadBody (d a : GReg) (imm : BitVec 14) (n : Nat) (signed alloc : Bool) : M Unit := do
  let va ← dispAddr a imm
  let p := bypassed (← curSlot) (← checkAccess va n .read)
  let v ← readPlace (← curAgent) (← curSlot).wc alloc p n
  wr d (extend signed n v)

/-- A load instruction. -/
def loadInstr (i : Instr) (d a : GReg) (imm : BitVec 14) (n : Nat) (signed : Bool) (s : State) :
    Host.Outcome State Fault Refusal :=
  issue i (thenNext (loadBody d a imm n signed true)) s

/-- `ld.b`: sign-extended byte (R148). -/
def execLdB (d a : GReg) (imm : BitVec 14) (s : State) : Host.Outcome State Fault Refusal :=
  loadInstr (.ldB d a imm) d a imm 1 true s
/-- `ld.h`: sign-extended 2 bytes (R148). -/
def execLdH (d a : GReg) (imm : BitVec 14) (s : State) : Host.Outcome State Fault Refusal :=
  loadInstr (.ldH d a imm) d a imm 2 true s
/-- `ld.w`: sign-extended 4 bytes (R148). -/
def execLdW (d a : GReg) (imm : BitVec 14) (s : State) : Host.Outcome State Fault Refusal :=
  loadInstr (.ldW d a imm) d a imm 4 true s
/-- `ld.d`: 8 bytes (R148). -/
def execLdD (d a : GReg) (imm : BitVec 14) (s : State) : Host.Outcome State Fault Refusal :=
  loadInstr (.ldD d a imm) d a imm 8 true s
/-- `ld.bn`: zero-extended byte (R148). -/
def execLdBn (d a : GReg) (imm : BitVec 14) (s : State) : Host.Outcome State Fault Refusal :=
  loadInstr (.ldBn d a imm) d a imm 1 false s
/-- `ld.hn`: zero-extended 2 bytes (R148). -/
def execLdHn (d a : GReg) (imm : BitVec 14) (s : State) : Host.Outcome State Fault Refusal :=
  loadInstr (.ldHn d a imm) d a imm 2 false s
/-- `ld.wn`: zero-extended 4 bytes (R148). -/
def execLdWn (d a : GReg) (imm : BitVec 14) (s : State) : Host.Outcome State Fault Refusal :=
  loadInstr (.ldWn d a imm) d a imm 4 false s

/-- A load that acquires: the home, or the L1 where the word is dirty or owned, then the acquire (R139, R148). -/
def acquireLoad (i : Instr) (d a : GReg) (imm : BitVec 14) (n : Nat) (s : State) : Host.Outcome State Fault Refusal :=
  issue i (thenNext do
    loadBody d a imm n true false
    acquire) s

/-- `ldacq.w` (R148). -/
def execLdacqW (d a : GReg) (imm : BitVec 14) (s : State) : Host.Outcome State Fault Refusal :=
  acquireLoad (.ldacqW d a imm) d a imm 4 s
/-- `ldacq.d` (R148). -/
def execLdacqD (d a : GReg) (imm : BitVec 14) (s : State) : Host.Outcome State Fault Refusal :=
  acquireLoad (.ldacqD d a imm) d a imm 8 s

/-- `ldnt.d`: the task's buffer, the dirty or owned bytes of the L1, or the home, without allocating (R149). -/
def execLdntD (d a : GReg) (imm : BitVec 14) (s : State) : Host.Outcome State Fault Refusal :=
  issue (.ldntD d a imm) (thenNext (loadBody d a imm 8 true false)) s

/-! ### Stores -/

/-- A store: checked, reserved under a hypothesis, written (R137, R148, R151, R317). -/
def storeBody (d a : GReg) (imm : BitVec 14) (n : Nat) : M Unit := do
  let va ← dispAddr a imm
  let p := bypassed (← curSlot) (← checkAccess va n .write)
  let ag ← curAgent
  reserveStore ag p n
  storePlace ag (some (← curId)) p n ((← rd d).toNat % 2 ^ (8 * n))

/-- A plain store instruction. -/
def storeInstr (i : Instr) (d a : GReg) (imm : BitVec 14) (n : Nat) (s : State) : Host.Outcome State Fault Refusal :=
  issue i (thenNext (storeBody d a imm n)) s

/-- `st.b`: one byte into the L1 (R137, R148). -/
def execStB (d a : GReg) (imm : BitVec 14) (s : State) : Host.Outcome State Fault Refusal :=
  storeInstr (.stB d a imm) d a imm 1 s
/-- `st.h`: 2 bytes (R148). -/
def execStH (d a : GReg) (imm : BitVec 14) (s : State) : Host.Outcome State Fault Refusal :=
  storeInstr (.stH d a imm) d a imm 2 s
/-- `st.w`: 4 bytes (R148). -/
def execStW (d a : GReg) (imm : BitVec 14) (s : State) : Host.Outcome State Fault Refusal :=
  storeInstr (.stW d a imm) d a imm 4 s
/-- `st.d`: 8 bytes (R148). -/
def execStD (d a : GReg) (imm : BitVec 14) (s : State) : Host.Outcome State Fault Refusal :=
  storeInstr (.stD d a imm) d a imm 8 s

/-- Bytes of a releasing store performed at the home, the word of a home-package line owned by the cell and held by its L1
(R148). -/
def performAtHome (p : Place) (n v : Nat) : M Unit := do
  let ag ← curAgent
  let t ← curId
  match p with
  | .win _ _ _ => storePlace ag (some t) p n v
  | .mem pa va cached => do
    let s ← get
    let k := s.hyps.eff ag.hyp
    let line := lineAddr pa
    let mask := byteMask (pa % 64) n
    awaitLine line
    if k ≠ 0 then versionMerge line k (lineOf (pa % 64) n v) mask
    else do
      unbuffer t line mask
      homeMerge line (lineOf (pa % 64) n v) mask (if cached then some ag.cell else none) none
      if cached then
        l1Store ag.cell ag.asid line (lineAddr va) 0 (lineOf (pa % 64) n v) mask
        modMs fun m => match m.l1Find ag.cell ag.asid (lineAddr va) 0 with
          | some y => m.l1Put { y with dirty := y.dirty &&& ~~~mask,
                                       owned := if pkgOf line = s.ws.own then y.owned ||| wordsOf mask else y.owned }
          | none => m
      else pure ()

/-- A releasing store: the release first, then the bytes performed (R138, R148). -/
def strelInstr (i : Instr) (d a : GReg) (imm : BitVec 14) (n : Nat) (s : State) : Host.Outcome State Fault Refusal :=
  issue i (thenNext do
    let va ← dispAddr a imm
    releaseNow
    let p := bypassed (← curSlot) (← checkAccess va n .write)
    reserveStore (← curAgent) p n
    performAtHome p n ((← rd d).toNat % 2 ^ (8 * n))) s

/-- `strel.w` (R148). -/
def execStrelW (d a : GReg) (imm : BitVec 14) (s : State) : Host.Outcome State Fault Refusal :=
  strelInstr (.strelW d a imm) d a imm 4 s
/-- `strel.d` (R148). -/
def execStrelD (d a : GReg) (imm : BitVec 14) (s : State) : Host.Outcome State Fault Refusal :=
  strelInstr (.strelD d a imm) d a imm 8 s

/-- Bytes put into the write-combining buffer: merged, or a fifth line pushes the oldest out; a full line is performed
(R149). -/
def bufferStore (pa va n v : Nat) : M Unit := do
  let x ← curSlot
  let cell := cellOf (← curId)
  let line := lineAddr pa
  let mask := byteMask (pa % 64) n
  let data := lineOf (pa % 64) n v
  match x.wc.find? fun w => w.line = line with
  | some w => do
    let w' : WcLine := ⟨line, w.va, mergeLine w.data data mask, w.mask ||| mask⟩
    if w'.mask = allBytes then do
      awaitLine line
      modSlot fun x => { x with wc := x.wc.filter fun w => w.line ≠ line }
      performWc cell w'
    else modSlot fun x => { x with wc := x.wc.map fun w => if w.line = line then w' else w }
  | none => do
    match x.wc with
    | w :: rest =>
      if 4 ≤ x.wc.length then do
        awaitLine w.line
        performWc cell w
        modSlot fun x => { x with wc := rest }
      else pure ()
    | [] => pure ()
    modSlot fun x => { x with wc := x.wc ++ [⟨line, lineAddr va, data, mask⟩] }

/-- `stnt.d`: into the write-combining buffer at the root; as `st.d` on a page that is not cacheable, in the window, under a hypothesis
and in a PAIRED task (R133, R149, R151, R338). -/
def execStntD (d a : GReg) (imm : BitVec 14) (s : State) : Host.Outcome State Fault Refusal :=
  issue (.stntD d a imm) (thenNext do
    let va ← dispAddr a imm
    let x ← curSlot
    let p := bypassed x (← checkAccess va 8 .write)
    let ag ← curAgent
    reserveStore ag p 8
    let v := (← rd d).toNat
    match p with
    | .mem pa va cached =>
      if cached && (← get).hyps.eff ag.hyp = 0 && x.partner.isNone then bufferStore pa va 8 v
      else storePlace ag (some (← curId)) p 8 v
    | p => storePlace ag (some (← curId)) p 8 v) s

/-- HYP.ATOMIC where a version on the task's chain holds a byte of the word (R318). -/
def hypWordCheck (pa va n : Nat) : M Unit := do
  let s ← get
  let ag ← curAgent
  let mask := byteMask (pa % 64) n
  let held (k : Nat) : Bool :=
    (match s.ms.version (lineAddr pa) k with
     | some v => v.mask &&& mask ≠ 0
     | none => false) ||
    (match s.ms.l1Find ag.cell ag.asid (lineAddr va) k with
     | some x => x.dirty &&& mask ≠ 0
     | none => false)
  checkFree (!(s.hyps.chain ag.hyp).any held) .hypAtomic

/-- One replica of an mstore: the word leaves the cell's L1 and the buffer, and is performed at its home (R150). -/
def mstoreAt (pa n v : Nat) : M Unit := do
  let t ← curId
  unbuffer t (lineAddr pa) (byteMask (pa % 64) n)
  dropWord (cellOf t) pa n
  homeMerge (lineAddr pa) (lineOf (pa % 64) n v) (byteMask (pa % 64) n) none none

/-- The addresses of every replica, ascending by die; the one address where the page is not replicated (R141, R150). -/
def replicas (t : Trans) (va : Nat) : List Nat :=
  if t.rdies = 0 then [t.pa] else ((List.range 4).filter fun d => t.rdies.getLsbD d).map fun d => leafPa t.leaf va d

/-- A store to every replica (R150, R151, R331). -/
def mstoreInstr (i : Instr) (d a : GReg) (imm : BitVec 14) (n : Nat) (s : State) : Host.Outcome State Fault Refusal :=
  issue i (thenNext do
    let va ← dispAddr a imm
    let tr ← checkMem va n .write
    hypAtomicCheck
    eachM (fun pa => hypWordCheck pa va.toNat n) (replicas tr va.toNat)
    markNonrev
    let v := (← rd d).toNat % 2 ^ (8 * n)
    eachM (fun pa => mstoreAt pa n v) (replicas tr va.toNat)) s

/-- `mstore.w` (R150). -/
def execMstoreW (d a : GReg) (imm : BitVec 14) (s : State) : Host.Outcome State Fault Refusal :=
  mstoreInstr (.mstoreW d a imm) d a imm 4 s
/-- `mstore.d` (R150). -/
def execMstoreD (d a : GReg) (imm : BitVec 14) (s : State) : Host.Outcome State Fault Refusal :=
  mstoreInstr (.mstoreD d a imm) d a imm 8 s

end Sys2Proof.Machine
end

