-- ==== Sys2Proof/Machine/VecNum.lean ====
section
/-!
DEFINITION. Elements of a v register, and the operations of the vector unit as functions of the bits they read (R189, R190,
R198 to R202, R218 to R234).
-/

namespace Sys2Proof.Machine

/-! ### Elements (R198, R202) -/

/-- Element i of width w. -/
def elemOf (v : BitVec 4096) (w i : Nat) : Nat := v.toNat / 2 ^ (w * i) % 2 ^ w
/-- n elements of width w, from element i up, as a number. -/
def gather (w : Nat) (f : Nat → Nat) : Nat → Nat → Nat
  | 0, _ => 0
  | n + 1, i => f i % 2 ^ w + 2 ^ w * gather w f n (i + 1)
/-- A register of elements of width w. -/
def ofElems (w : Nat) (f : Nat → Nat) : BitVec 4096 := BitVec.ofNat 4096 (gather w f (4096 / w) 0)
/-- The number of elements of a type (R198). -/
def elemCount (t : ElemType) : Nat := 4096 / t.width
/-- Element i replaced in a number of elements of width w. -/
def putElem (v : BitVec 4096) (w i x : Nat) : BitVec 4096 :=
  BitVec.ofNat 4096 (v.toNat - elemOf v w i * 2 ^ (w * i) + x % 2 ^ w * 2 ^ (w * i))

/-- Flags of a function over n indices from i up, those that a test selects. -/
def flagsOver (act : Nat → Bool) (f : Nat → Nat × Flags) : Nat → Nat → Flags
  | 0, _ => 0
  | n + 1, i => (if act i then (f i).2 else 0) ||| flagsOver act f n (i + 1)

/-- The elements of a type computed one by one: an inactive element keeps its old value and raises no flag (R200). -/
def mapElems (t : ElemType) (act : Nat → Bool) (old : BitVec 4096) (f : Nat → Nat × Flags) : BitVec 4096 × Flags :=
  (ofElems t.width fun i => if act i then (f i).1 else elemOf old t.width i, flagsOver act f (elemCount t) 0)

/-- The registers of a group that F registers hold, of wide elements computed one by one (R202). -/
def mapWide (w factor n : Nat) (act : Nat → Bool) (old : Nat → BitVec 4096) (f : Nat → Nat × Flags) :
    List (BitVec 4096) × Flags :=
  ((List.range factor).map fun j => ofElems w fun p =>
      if act (p * factor + j) then (f (p * factor + j)).1 else elemOf (old j) w p,
   flagsOver act f n 0)

/-! ### Reductions and scans (R189, R190) -/

/-- One level of the tree: neighbours combined, an absent one passing the other (R189). -/
def pairUp (op : Nat → Nat → Nat × Flags) : List (Option Nat) → List (Option Nat) × Flags
  | some a :: some b :: r =>
    let c := op a b
    let l := pairUp op r
    (some c.1 :: l.1, c.2 ||| l.2)
  | a :: b :: r =>
    let l := pairUp op r
    ((match a with
      | some a => some a
      | none => b) :: l.1, l.2)
  | l => (l, 0)

/-- TreeReduce over 2^k elements; none where no element is active (R189). -/
def treeReduce (op : Nat → Nat → Nat × Flags) : Nat → List (Option Nat) → Option Nat × Flags
  | 0, l => (l.head?.join, 0)
  | k + 1, l =>
    let p := pairUp op l
    let r := treeReduce op k p.1
    (r.1, p.2 ||| r.2)

/-- One doubling step: each element with the one d places before it, all read before the step (R190). -/
def scanStep (op : Nat → Nat → Nat × Flags) : List (Option Nat) → List (Option Nat) → List (Option Nat) × Flags
  | some a :: p, some b :: r =>
    let c := op a b
    let l := scanStep op p r
    (some c.1 :: l.1, c.2 ||| l.2)
  | a :: p, b :: r =>
    let l := scanStep op p r
    ((match b with
      | some b => some b
      | none => a) :: l.1, l.2)
  | _, r => (r, 0)

/-- The doubling steps d, 2d, … of k rounds (R190). -/
def scanSteps (op : Nat → Nat → Nat × Flags) : Nat → Nat → List (Option Nat) → List (Option Nat) × Flags
  | 0, _, l => (l, 0)
  | k + 1, d, l =>
    let p := scanStep op (List.replicate d none ++ l) l
    let r := scanSteps op k (2 * d) p.1
    (r.1, p.2 ||| r.2)

/-- The elements of a register, those that are inactive absent. -/
def present (t : ElemType) (act : Nat → Bool) (a : BitVec 4096) : List (Option Nat) :=
  (List.range (elemCount t)).map fun i => if act i then some (elemOf a t.width i) else none

/-- A reduction in the type: the carry vB[0] with the tree of vA (R225). -/
def reduceElems (t : ElemType) (op : Nat → Nat → Nat × Flags) (act : Nat → Bool) (a b old : BitVec 4096) :
    BitVec 4096 × Flags :=
  let carry := elemOf b t.width 0
  match treeReduce op 10 (present t act a) with
  | (some x, fl) =>
    let r := op carry x
    (putElem old t.width 0 r.1, fl ||| r.2)
  | (none, _) => (putElem old t.width 0 carry, 0)

/-- The integer sum of `vredsum`: 32-bit carry and result, every sum wrapping (R225). -/
def reduceSumInt (t : ElemType) (act : Nat → Bool) (a b old : BitVec 4096) : BitVec 4096 :=
  let xs := (List.range (elemCount t)).map fun i => if act i then elemInt t (elemOf a t.width i) else 0
  putElem old 32 0 (wrapN (xs.foldl (· + ·) (elemOf b 32 0 : Int)) 32)

/-- `vredsum` (R225). -/
def redSum (t : ElemType) (mode : Rnd) (act : Nat → Bool) (a b old : BitVec 4096) : BitVec 4096 × Flags :=
  if t.isInt then (reduceSumInt t act a b old, 0) else reduceElems t (elemAdd t mode) act a b old

/-- The value at an index of a list of values that may be absent. -/
def presentAt (l : List (Option Nat)) (i : Nat) : Nat := ((l[i]?).join).getD 0

/-- Whether a value of a type is zero, of either sign. -/
def isZeroElem (t : ElemType) (c : Nat) : Bool := if t.isFloat then c % 2 ^ (t.width - 1) = 0 else c = 0

/-- `vscan` and `vxscan`: an inclusive prefix with the carry, which is applied where it is not zero (R226). DESIGN CHOICE, log entry 14: an
element that no step reaches passes through as it is, a NaN with its payload and without a flag. -/
def scanElems (t : ElemType) (op : Nat → Nat → Nat × Flags) (act : Nat → Bool) (a old : BitVec 4096) (carry : Nat) :
    BitVec 4096 × Flags :=
  let c := carry % 2 ^ t.width
  let p := scanSteps op 10 1 (present t act a)
  let r := mapElems t act old fun i => if isZeroElem t c then (presentAt p.1 i, 0) else op c (presentAt p.1 i)
  (r.1, p.2 ||| r.2)

/-! ### Moving elements (R228, R229) -/

/-- The source index of `vperm` (R228). -/
def permIndex (t : ElemType) (b i : Nat) : Nat := if t.width = 8 then b % 256 + 256 * (i / 256) else b % elemCount t

/-- The active indices of n, ascending. -/
def activeList (n : Nat) (act : Nat → Bool) : List Nat := (List.range n).filter act

/-- How many of the indices below i are active. -/
def activeBelow (act : Nat → Bool) (i : Nat) : Nat := (activeList i act).length

/-- `vcompress` (R229). -/
def compressElems (t : ElemType) (act : Nat → Bool) (a : BitVec 4096) : BitVec 4096 :=
  let l := activeList (elemCount t) act
  ofElems t.width fun i =>
    match l[i]? with
    | some j => elemOf a t.width j
    | none => 0

/-- `vexpand` (R229). -/
def expandElems (t : ElemType) (act : Nat → Bool) (a old : BitVec 4096) : BitVec 4096 :=
  (mapElems t act old fun i => (elemOf a t.width (activeBelow act i), 0)).1

/-- The f32 element that `vamax` chooses among n elements from i up: the best so far, ties to the lowest (R233). -/
def amaxFrom (act : Nat → Bool) (a : BitVec 4096) : Nat → Nat → Option (Nat × Nat) → Option (Nat × Nat)
  | 0, _, best => best
  | n + 1, i, best =>
    let x := elemOf a 32 i
    let v := FpFmt.f32.decode x
    let better : Bool := act i && !v.isNan && (match best with
      | none => true
      | some (_, y) => belowVal (FpFmt.f32.decode y) v)
    amaxFrom act a n (i + 1) (if better then some (i, x) else best)

/-- The result of `vamax` with a base (R233). -/
def amaxWord (act : Nat → Bool) (a : BitVec 4096) (base : Word) : Word :=
  match amaxFrom act a 128 0 none with
  | some (i, x) => BitVec.ofNat 64 (x * 2 ^ 32 + (base.toNat + i) % 2 ^ 32)
  | none => 0xFF800000FFFFFFFF#64

/-- One element of `vnoise` (R232). -/
def noiseElem (seed step base : Word) (i x : Nat) : Nat :=
  let v := FpFmt.f32.decode x
  if v.isNan then FpFmt.f32.nan
  else if v = .inf true then x
  else add32 x (noiseRef seed step (base + BitVec.ofNat 64 i))

/-- `vpmerge`: 64 pairs, mask bit 2j governing pair j (R231). -/
def pmergeElems (act : Nat → Bool) (a b old : BitVec 4096) : BitVec 4096 :=
  BitVec.ofNat 4096 (gather 64 (fun j =>
    if act (2 * j) then
      let r := mergePair (elemOf a 32 (2 * j)) (elemOf a 32 (2 * j + 1)) (elemOf b 32 (2 * j)) (elemOf b 32 (2 * j + 1))
      r.1 + 2 ^ 32 * r.2
    else elemOf old 64 j) 64 0)

/-- Set bits of a mask, and the lowest of them (R234). -/
def maskCount (m : BitVec 1024) : Nat := activeBelow (fun i => m.getLsbD i) 1024
def maskFirst (m : BitVec 1024) : Word :=
  match activeList 1024 fun i => m.getLsbD i with
  | i :: _ => BitVec.ofNat 64 i
  | [] => BitVec.allOnes 64

/-- `vcmp` on a mask of n elements: the condition where active, the old bit where not, zero from n up (R220). -/
def cmpMask (t : ElemType) (c : VcmpCond) (act : Nat → Bool) (a b : BitVec 4096) (old : BitVec 1024) : BitVec 1024 × Flags :=
  let f (i : Nat) : Nat × Flags :=
    let r := elemCmp t c (elemOf a t.width i) (elemOf b t.width i)
    (r.1.toNat, r.2)
  (BitVec.ofNat 1024 (gather 1 (fun i => if act i then (f i).1 else (old.getLsbD i).toNat) (elemCount t) 0),
   flagsOver act f (elemCount t) 0)

end Sys2Proof.Machine
end

