-- ==== Sys2Proof/Machine/Vec.lean ====
section
/-!
DEFINITION. The VEC instructions: what their issue captures and places in the vector queue, and what the entry computes when it
executes (R203 to R206, R216 to R234).
-/

namespace Sys2Proof.Machine

/-! ### Placing an entry (R203, R205) -/

/-- The vector instructions that hold their issue until their entries have completed (R205, R270). -/
def isHeldV : Instr → Bool
  | .kpopc _ _ | .kfirst _ _ | .vmovg _ _ _ _ | .vamax _ _ _ _ | .vld _ _ _ _ | .vldg _ _ _ _ _ | .vgather _ _ _ _ _
  | .pld _ _ | .tld _ _ _ _ => true
  | _ => false

/-- The data of the j-th message from the head of the inbound queue. -/
def Slot.msgAt (x : Slot) (j : Nat) : VVal :=
  match x.inq[j]? with
  | some m => m.data
  | none => 0

/-- A g operand of repeat j of a sequence that pops once per repeat (R209). -/
def Slot.gvalAt (x : Slot) (j : Nat) (r : GReg) : Word := if r = 31 then (x.msgAt j).setWidth 64 else x.gval r

/-- What the placing of an entry adds to what every entry captures. -/
structure VExtra where
  places : List (Nat × Place)
  desc : BitVec 1024
  exps : List (Nat × Place)
  admits : List (Nat × Nat)

/-- Nothing more. -/
def VExtra.none : VExtra := ⟨[], 0, [], []⟩

/-- One entry placed in the core's vector queue, once it has room (R61, R203): `j` is the message it takes, `rep` its repeat,
whose message and entry the sequence has (R209). -/
def placeEntry (i : Instr) (j : Nat) (rep : Option Nat) (more : VExtra) : M Unit := do
  let t ← curId
  waitFor (decide ((← curCore).vq.length < 16)) .queue
  let x ← curSlot
  let push := pushesV31 i || (isHeldV i && pushes31 i)
  modCore fun c => { c with vq := c.vq ++ [
    { slot := t, instr := i, rm := x.rm, asid := x.asid, hyp := x.hypId, gs := (gReads i).map (x.gvalAt j),
      msg := if popsV31 i then some (x.msgAt j) else none, places := more.places, desc := more.desc, exps := more.exps,
      admits := more.admits, rep := rep, dest := if push then some (outPeer t x) else none, held := isHeldV i,
      granted := false }] }
  if push && rep.isNone then reservePushes (pushesV31 i) 1 else pure ()

/-- No entry that holds the task is left. -/
def State.heldDone (s : State) (t : Nat) : Bool := (s.core (coreOf t)).vq.all fun e => e.slot ≠ t || !e.held

/-- The issue of one vector instruction: its entry placed; a held one then waits until it has completed (R203, R205). -/
def vecFlow (i : Instr) (place : M Unit) : M Flow := do
  if isHeldV i then do
    if (← curSlot).repFrom = 0 then do
      place
      modSlot fun x => { x with repFrom := 1 }
      park .queue
    else do
      waitFor ((← get).heldDone (← curId)) .queue
      modSlot fun x => { x with repFrom := 0 }
      pure .seq
  else do
    place
    pure .seq

/-- A VEC instruction. -/
def vecInstr (i : Instr) (s : State) : Host.Outcome State Fault Refusal :=
  issue i (vecFlow i (placeEntry i 0 none .none)) s

/-! ### What an entry computes -/

/-- What an entry reads: sources, old destinations, the captured mode, masks, and captured g operands. -/
structure VCtx where
  rv : VReg → VVal
  old : VReg → VVal
  mode : Rnd
  mask : MReg → MVal
  g : Nat → Word

/-- What an entry writes, and its flags. -/
structure VOut where
  vs : List (VReg × VVal)
  ms : List (MReg × MVal)
  gs : List (GReg × Word)
  fl : Flags

/-- Active(i) of a mask (R199). -/
def VCtx.act (c : VCtx) (m : MReg) (i : Nat) : Bool := (c.mask m).getLsbD i
/-- One v register written. -/
def outV (d : VReg) (r : BitVec 4096 × Flags) : VOut := ⟨[(d, r.1)], [], [], r.2⟩
def outPlain (d : VReg) (v : VVal) : VOut := ⟨[(d, v)], [], [], 0⟩
def outM (d : MReg) (r : MVal × Flags) : VOut := ⟨[], [(d, r.1)], [], r.2⟩
def outG (d : GReg) (w : Word) : VOut := ⟨[], [], [(d, w)], 0⟩
/-- A group of v registers written. -/
def outGroup (d : VReg) (r : List (BitVec 4096) × Flags) : VOut :=
  ⟨r.1.zipIdx.map fun x => (d + BitVec.ofNat 5 x.2, x.1), [], [], r.2⟩

/-- An elementwise operation of two sources. -/
def VCtx.bin (c : VCtx) (t : ElemType) (d a b : VReg) (m : MReg) (f : Nat → Nat → Nat × Flags) : VOut :=
  outV d (mapElems t (c.act m) (c.old d) fun i => f (elemOf (c.rv a) t.width i) (elemOf (c.rv b) t.width i))
/-- An elementwise operation of one source. -/
def VCtx.un (c : VCtx) (t : ElemType) (d a : VReg) (m : MReg) (f : Nat → Nat × Flags) : VOut :=
  outV d (mapElems t (c.act m) (c.old d) fun i => f (elemOf (c.rv a) t.width i))
/-- A fused multiply-add, whose third source is the destination, or the message where that is v31 (R218). -/
def VCtx.fma (c : VCtx) (t : ElemType) (d a b : VReg) (m : MReg) (negProd negAdd : Bool) : VOut :=
  outV d (mapElems t (c.act m) (c.rv d) fun i =>
    elemFma t c.mode negProd negAdd (elemOf (c.rv a) t.width i) (elemOf (c.rv b) t.width i) (elemOf (c.rv d) t.width i))
/-- A widening operation of two sources (R222). -/
def VCtx.wide (c : VCtx) (t : ElemType) (d a b : VReg) (m : MReg) (f : Nat → Nat → Nat × Flags) : VOut :=
  outGroup d (mapWide (2 * t.width) 2 (elemCount t) (c.act m) (fun j => c.old (d + BitVec.ofNat 5 j)) fun i =>
    f (elemOf (c.rv a) t.width i) (elemOf (c.rv b) t.width i))
/-- A narrowing operation of a register pair (R202, R223). -/
def VCtx.narrow (c : VCtx) (t : ElemType) (d a : VReg) (m : MReg) (sat : Bool) : VOut :=
  outV d (mapElems t (c.act m) (c.old d) fun i =>
    elemNarrow t sat c.mode (elemOf (c.rv (a + BitVec.ofNat 5 (i % 2))) (2 * t.width) (i / 2)))

/-- The result of a VEC instruction when its entry executes (R218 to R234). -/
def vecOut (c : VCtx) : Instr → VOut
  | .vadd t d a b m => c.bin t d a b m (elemAdd t c.mode)
  | .vsub t d a b m => c.bin t d a b m (elemSub t c.mode)
  | .vmul t d a b m => c.bin t d a b m (elemMul t c.mode)
  | .vfma t d a b m => c.fma t d a b m false false
  | .vfms t d a b m => c.fma t d a b m false true
  | .vfnma t d a b m => c.fma t d a b m true false
  | .vmin t d a b m => c.bin t d a b m (elemMinMax t false)
  | .vmax t d a b m => c.bin t d a b m (elemMinMax t true)
  | .vabs t d a m => c.un t d a m (elemAbs t)
  | .vneg t d a m => c.un t d a m (elemNeg t)
  | .vrcp t d a m => c.un t d a m (elemSpecial .rcp t c.mode)
  | .vrsqrt t d a m => c.un t d a m (elemSpecial .rsqrt t c.mode)
  | .vexp2 t d a m => c.un t d a m (elemSpecial .exp2 t c.mode)
  | .vlog2 t d a m => c.un t d a m (elemSpecial .log2 t c.mode)
  | .vtanh t d a m => c.un t d a m (elemSpecial .tanh t c.mode)
  | .vand t d a b m => c.bin t d a b m fun x y => (x &&& y, 0)
  | .vor t d a b m => c.bin t d a b m fun x y => (x ||| y, 0)
  | .vxor t d a b m => c.bin t d a b m fun x y => (x ^^^ y, 0)
  | .vnot t d a m => c.un t d a m fun x => (2 ^ t.width - 1 - x, 0)
  | .vshl t d a b m => c.bin t d a b m (elemShl t)
  | .vshr t d a b m => c.bin t d a b m (elemShr t)
  | .vsra t d a b m => c.bin t d a b m (elemSra t)
  | .vcmp t cond k a b m => outM k (cmpMask t cond (c.act m) (c.rv a) (c.rv b) (c.mask k))
  | .vsel t d a b m => outPlain d (ofElems t.width fun i =>
      if c.act m i then elemOf (c.rv a) t.width i else elemOf (c.rv b) t.width i)
  | .vcvt t d a src m => c.un t d a m (elemConvert src t c.mode)
  | .vwcvt t d a src m => outGroup d (mapWide t.width (t.width / src.width) (elemCount src) (c.act m)
      (fun j => c.old (d + BitVec.ofNat 5 j)) fun i => elemConvert src t c.mode (elemOf (c.rv a) src.width i))
  | .vwmul t d a b m => c.wide t d a b m (elemWideMul t c.mode)
  | .vwadd t d a b m => c.wide t d a b m (elemWideAdd t c.mode)
  | .vnarrow t d a m => c.narrow t d a m false
  | .vredsum t d a b m => outV d (redSum t c.mode (c.act m) (c.rv a) (c.rv b) (c.old d))
  | .vredmax t d a b m => outV d (reduceElems t (elemMinMax t true) (c.act m) (c.rv a) (c.rv b) (c.old d))
  | .vredmin t d a b m => outV d (reduceElems t (elemMinMax t false) (c.act m) (c.rv a) (c.rv b) (c.old d))
  | .vscan t d a _ m => outV d (scanElems t (elemAdd t c.mode) (c.act m) (c.rv a) (c.old d) (c.g 0).toNat)
  | .vxscan t d a _ m => outV d (scanElems t (fun x y => (x ^^^ y, 0)) (c.act m) (c.rv a) (c.old d) (c.g 0).toNat)
  | .vclmul t d a b m => c.bin t d a b m fun x y => (clmulNat x y t.width, 0)
  | .vperm t d a b m => outV d (mapElems t (c.act m) (c.old d) fun i =>
      (elemOf (c.rv a) t.width (permIndex t (elemOf (c.rv b) t.width i) i), 0))
  | .vslide t d a _ m => outV d (mapElems t (c.act m) (c.old d) fun i =>
      let j := (i : Int) + (c.g 0).toInt
      (if 0 ≤ j ∧ j < elemCount t then elemOf (c.rv a) t.width j.toNat else 0, 0))
  | .vbcast t d _ m => outV d (mapElems t (c.act m) (c.old d) fun _ => ((c.g 0).toNat, 0))
  | .viota t d m => outV d (mapElems t (c.act m) (c.old d) fun i => (activeBelow (c.act m) i, 0))
  | .vcompress t d a m => outPlain d (compressElems t (c.act m) (c.rv a))
  | .vexpand t d a m => outPlain d (expandElems t (c.act m) (c.rv a) (c.old d))
  | .vmovg t d a _ => outG d (BitVec.ofInt 64 (elemInt t (elemOf (c.rv a) t.width ((c.g 0).toNat % elemCount t))))
  | .vmovxTov d a => outPlain d ((c.mask a).setWidth 4096)
  | .vmovxTom d a => outM d ((c.rv a).setWidth 1024, 0)
  | .vpmerge d a b m => outPlain d (pmergeElems (c.act m) (c.rv a) (c.rv b) (c.old d))
  | .vnoise d _ _ m => outV d (mapElems .f32 (c.act m) (c.rv d) fun i =>
      (noiseElem (c.g 0) (c.g 1) (c.g 2) i (elemOf (c.rv d) 32 i), 0))
  | .vamax d a _ m => outG d (amaxWord (c.act m) (c.rv a) (c.g 0))
  | .kand d a b => outM d (c.mask a &&& c.mask b, 0)
  | .kor d a b => outM d (c.mask a ||| c.mask b, 0)
  | .kxor d a b => outM d (c.mask a ^^^ c.mask b, 0)
  | .knot d a => outM d (~~~(c.mask a), 0)
  | .kpopc d a => outG d (BitVec.ofNat 64 (maskCount (c.mask a)))
  | .kfirst d a => outG d (maskFirst (c.mask a))
  | .vaddSat t d a b m => c.bin t d a b m fun x y => satElem t (elemInt t x + elemInt t y)
  | .vsubSat t d a b m => c.bin t d a b m fun x y => satElem t (elemInt t x - elemInt t y)
  | .vmulSat t d a b m => c.bin t d a b m fun x y => satElem t (elemInt t x * elemInt t y)
  | .vnarrowSat t d a m => c.narrow t d a m true
  | _ => ⟨[], [], [], 0⟩

/-- What an entry reads from its slot when it executes; `fill` is what v31 holds as a destination of which only some elements
are written (log entry 20). -/
def VEntry.ctx (e : VEntry) (x : Slot) (fill : VVal) : VCtx :=
  { rv := fun r => if r = 31 then e.msg.getD 0 else x.vval r
    old := fun r => if r = 31 then fill else x.vval r
    mode := .ofCode e.rm.toNat
    mask := x.mval
    g := fun k => (e.gs[k]?).getD 0 }

/-- 64 free words as a v register (log entries 5 and 20). -/
def freshFrom : Nat → M Nat
  | 0 => pure 0
  | n + 1 => do
    let w ← freshWord
    let r ← freshFrom n
    pure (w.toNat + 2 ^ 64 * r)
/-- What v31 holds as the destination of an entry: free where the entry pushes, 0 where it does not name v31. -/
def fillFor (e : VEntry) : M VVal := do
  if pushesV31 e.instr then do
    let n ← freshFrom 64
    pure (BitVec.ofNat 4096 n)
  else pure 0

/-- The results of an entry written to its slot: registers, flags, and the message it pushes, which lands (R203, R212). -/
def writeOut (e : VEntry) (o : VOut) : M Unit := do
  eachM (fun (r : VReg × VVal) =>
    if r.1 = 31 then
      match e.dest with
      | some p => landAt e.slot p true r.2
      | none => pure ()
    else modSlotAt e.slot fun x => x.setV r.1 r.2) o.vs
  eachM (fun (r : MReg × MVal) => modSlotAt e.slot fun x => x.setM r.1 r.2) o.ms
  eachM (fun (r : GReg × Word) =>
    if r.1 = 31 then
      match e.dest with
      | some p => landAt e.slot p false (r.2.setWidth 4096)
      | none => pure ()
    else modSlotAt e.slot fun x => x.setG r.1 r.2) o.gs
  orFlagsAt e.slot o.fl

/-- A VEC entry executes. -/
def runVec (e : VEntry) : M Unit := do
  let fill ← fillFor e
  let x := (← get).slot e.slot
  writeOut e (vecOut (e.ctx x fill) e.instr)

/-! ### The instructions -/

/-- `vadd`: sums (R218). -/
def execVadd (t : ElemType) (d a b : VReg) (m : MReg) (s : State) : Host.Outcome State Fault Refusal := vecInstr (.vadd t d a b m) s
/-- `vsub`: differences (R218). -/
def execVsub (t : ElemType) (d a b : VReg) (m : MReg) (s : State) : Host.Outcome State Fault Refusal := vecInstr (.vsub t d a b m) s
/-- `vmul`: products (R218). -/
def execVmul (t : ElemType) (d a b : VReg) (m : MReg) (s : State) : Host.Outcome State Fault Refusal := vecInstr (.vmul t d a b m) s
/-- `vfma`: a·b + d with one rounding (R218). -/
def execVfma (t : ElemType) (d a b : VReg) (m : MReg) (s : State) : Host.Outcome State Fault Refusal := vecInstr (.vfma t d a b m) s
/-- `vfms`: a·b − d with one rounding (R218). -/
def execVfms (t : ElemType) (d a b : VReg) (m : MReg) (s : State) : Host.Outcome State Fault Refusal := vecInstr (.vfms t d a b m) s
/-- `vfnma`: d − a·b with one rounding (R218). -/
def execVfnma (t : ElemType) (d a b : VReg) (m : MReg) (s : State) : Host.Outcome State Fault Refusal := vecInstr (.vfnma t d a b m) s
/-- `vmin`: smaller elements (R218). -/
def execVmin (t : ElemType) (d a b : VReg) (m : MReg) (s : State) : Host.Outcome State Fault Refusal := vecInstr (.vmin t d a b m) s
/-- `vmax`: larger elements (R218). -/
def execVmax (t : ElemType) (d a b : VReg) (m : MReg) (s : State) : Host.Outcome State Fault Refusal := vecInstr (.vmax t d a b m) s
/-- `vabs`: absolute values (R218). -/
def execVabs (t : ElemType) (d a : VReg) (m : MReg) (s : State) : Host.Outcome State Fault Refusal := vecInstr (.vabs t d a m) s
/-- `vneg`: negations (R218). -/
def execVneg (t : ElemType) (d a : VReg) (m : MReg) (s : State) : Host.Outcome State Fault Refusal := vecInstr (.vneg t d a m) s
/-- `vrcp`: reciprocals (R194, R224). -/
def execVrcp (t : ElemType) (d a : VReg) (m : MReg) (s : State) : Host.Outcome State Fault Refusal := vecInstr (.vrcp t d a m) s
/-- `vrsqrt`: reciprocal square roots (R195, R224). -/
def execVrsqrt (t : ElemType) (d a : VReg) (m : MReg) (s : State) : Host.Outcome State Fault Refusal := vecInstr (.vrsqrt t d a m) s
/-- `vexp2`: base-2 exponentials (R192, R224). -/
def execVexp2 (t : ElemType) (d a : VReg) (m : MReg) (s : State) : Host.Outcome State Fault Refusal := vecInstr (.vexp2 t d a m) s
/-- `vlog2`: base-2 logarithms (R193, R224). -/
def execVlog2 (t : ElemType) (d a : VReg) (m : MReg) (s : State) : Host.Outcome State Fault Refusal := vecInstr (.vlog2 t d a m) s
/-- `vtanh`: hyperbolic tangents (R196, R224). -/
def execVtanh (t : ElemType) (d a : VReg) (m : MReg) (s : State) : Host.Outcome State Fault Refusal := vecInstr (.vtanh t d a m) s
/-- `vand`: bitwise AND (R218). -/
def execVand (t : ElemType) (d a b : VReg) (m : MReg) (s : State) : Host.Outcome State Fault Refusal := vecInstr (.vand t d a b m) s
/-- `vor`: bitwise OR (R218). -/
def execVor (t : ElemType) (d a b : VReg) (m : MReg) (s : State) : Host.Outcome State Fault Refusal := vecInstr (.vor t d a b m) s
/-- `vxor`: bitwise XOR (R218). -/
def execVxor (t : ElemType) (d a b : VReg) (m : MReg) (s : State) : Host.Outcome State Fault Refusal := vecInstr (.vxor t d a b m) s
/-- `vnot`: bitwise NOT (R218). -/
def execVnot (t : ElemType) (d a : VReg) (m : MReg) (s : State) : Host.Outcome State Fault Refusal := vecInstr (.vnot t d a m) s
/-- `vshl`: left shifts (R218). -/
def execVshl (t : ElemType) (d a b : VReg) (m : MReg) (s : State) : Host.Outcome State Fault Refusal := vecInstr (.vshl t d a b m) s
/-- `vshr`: logical right shifts (R218). -/
def execVshr (t : ElemType) (d a b : VReg) (m : MReg) (s : State) : Host.Outcome State Fault Refusal := vecInstr (.vshr t d a b m) s
/-- `vsra`: arithmetic right shifts (R218). -/
def execVsra (t : ElemType) (d a b : VReg) (m : MReg) (s : State) : Host.Outcome State Fault Refusal := vecInstr (.vsra t d a b m) s
/-- `vcmp`: a comparison into a mask (R220). -/
def execVcmp (t : ElemType) (cond : VcmpCond) (k : MReg) (a b : VReg) (m : MReg) (s : State) : Host.Outcome State Fault Refusal := vecInstr (.vcmp t cond k a b m) s
/-- `vsel`: selection by the mask (R220). -/
def execVsel (t : ElemType) (d a b : VReg) (m : MReg) (s : State) : Host.Outcome State Fault Refusal := vecInstr (.vsel t d a b m) s
/-- `vcvt`: conversion at one width (R221). -/
def execVcvt (t : ElemType) (d a : VReg) (src : ElemType) (m : MReg) (s : State) : Host.Outcome State Fault Refusal := vecInstr (.vcvt t d a src m) s
/-- `vwcvt`: conversion to a wider type (R222). -/
def execVwcvt (t : ElemType) (d a : VReg) (src : ElemType) (m : MReg) (s : State) : Host.Outcome State Fault Refusal := vecInstr (.vwcvt t d a src m) s
/-- `vwmul`: widening products (R222). -/
def execVwmul (t : ElemType) (d a b : VReg) (m : MReg) (s : State) : Host.Outcome State Fault Refusal := vecInstr (.vwmul t d a b m) s
/-- `vwadd`: widening sums (R222). -/
def execVwadd (t : ElemType) (d a b : VReg) (m : MReg) (s : State) : Host.Outcome State Fault Refusal := vecInstr (.vwadd t d a b m) s
/-- `vnarrow`: narrowing (R223). -/
def execVnarrow (t : ElemType) (d a : VReg) (m : MReg) (s : State) : Host.Outcome State Fault Refusal := vecInstr (.vnarrow t d a m) s
/-- `vredsum`: a sum with carry (R225). -/
def execVredsum (t : ElemType) (d a b : VReg) (m : MReg) (s : State) : Host.Outcome State Fault Refusal := vecInstr (.vredsum t d a b m) s
/-- `vredmax`: a maximum with carry (R225). -/
def execVredmax (t : ElemType) (d a b : VReg) (m : MReg) (s : State) : Host.Outcome State Fault Refusal := vecInstr (.vredmax t d a b m) s
/-- `vredmin`: a minimum with carry (R225). -/
def execVredmin (t : ElemType) (d a b : VReg) (m : MReg) (s : State) : Host.Outcome State Fault Refusal := vecInstr (.vredmin t d a b m) s
/-- `vscan`: prefix sums (R226). -/
def execVscan (t : ElemType) (d a : VReg) (b : GReg) (m : MReg) (s : State) : Host.Outcome State Fault Refusal := vecInstr (.vscan t d a b m) s
/-- `vxscan`: prefix XOR (R226). -/
def execVxscan (t : ElemType) (d a : VReg) (b : GReg) (m : MReg) (s : State) : Host.Outcome State Fault Refusal := vecInstr (.vxscan t d a b m) s
/-- `vclmul`: carry-less products (R227). -/
def execVclmul (t : ElemType) (d a b : VReg) (m : MReg) (s : State) : Host.Outcome State Fault Refusal := vecInstr (.vclmul t d a b m) s
/-- `vperm`: a permutation (R228). -/
def execVperm (t : ElemType) (d a b : VReg) (m : MReg) (s : State) : Host.Outcome State Fault Refusal := vecInstr (.vperm t d a b m) s
/-- `vslide`: a slide (R228). -/
def execVslide (t : ElemType) (d a : VReg) (b : GReg) (m : MReg) (s : State) : Host.Outcome State Fault Refusal := vecInstr (.vslide t d a b m) s
/-- `vbcast`: a broadcast (R228). -/
def execVbcast (t : ElemType) (d : VReg) (a : GReg) (m : MReg) (s : State) : Host.Outcome State Fault Refusal := vecInstr (.vbcast t d a m) s
/-- `viota`: active counts (R228). -/
def execViota (t : ElemType) (d : VReg) (m : MReg) (s : State) : Host.Outcome State Fault Refusal := vecInstr (.viota t d m) s
/-- `vcompress`: packing of the active elements (R229). -/
def execVcompress (t : ElemType) (d a : VReg) (m : MReg) (s : State) : Host.Outcome State Fault Refusal := vecInstr (.vcompress t d a m) s
/-- `vexpand`: spreading to the active elements (R229). -/
def execVexpand (t : ElemType) (d a : VReg) (m : MReg) (s : State) : Host.Outcome State Fault Refusal := vecInstr (.vexpand t d a m) s
/-- `vmovg`: one element to a g register (R230). -/
def execVmovg (t : ElemType) (d : GReg) (a : VReg) (b : GReg) (s : State) : Host.Outcome State Fault Refusal := vecInstr (.vmovg t d a b) s
/-- `vmovx_tov`: a mask to a v register (R230). -/
def execVmovxTov (d : VReg) (a : MReg) (s : State) : Host.Outcome State Fault Refusal := vecInstr (.vmovxTov d a) s
/-- `vmovx_tom`: a v register to a mask (R230). -/
def execVmovxTom (d : MReg) (a : VReg) (s : State) : Host.Outcome State Fault Refusal := vecInstr (.vmovxTom d a) s
/-- `vpmerge`: merging of softmax pairs (R231). -/
def execVpmerge (d a b : VReg) (m : MReg) (s : State) : Host.Outcome State Fault Refusal := vecInstr (.vpmerge d a b m) s
/-- `vnoise`: Gumbel noise added (R232). -/
def execVnoise (d : VReg) (a b : GReg) (m : MReg) (s : State) : Host.Outcome State Fault Refusal := vecInstr (.vnoise d a b m) s
/-- `vamax`: the largest active element with its index (R233). -/
def execVamax (d : GReg) (a : VReg) (b : GReg) (m : MReg) (s : State) : Host.Outcome State Fault Refusal := vecInstr (.vamax d a b m) s
/-- `kand`: AND of masks (R234). -/
def execKand (d a b : MReg) (s : State) : Host.Outcome State Fault Refusal := vecInstr (.kand d a b) s
/-- `kor`: OR of masks (R234). -/
def execKor (d a b : MReg) (s : State) : Host.Outcome State Fault Refusal := vecInstr (.kor d a b) s
/-- `kxor`: XOR of masks (R234). -/
def execKxor (d a b : MReg) (s : State) : Host.Outcome State Fault Refusal := vecInstr (.kxor d a b) s
/-- `knot`: NOT of a mask (R234). -/
def execKnot (d a : MReg) (s : State) : Host.Outcome State Fault Refusal := vecInstr (.knot d a) s
/-- `kpopc`: the number of set bits (R234). -/
def execKpopc (d : GReg) (a : MReg) (s : State) : Host.Outcome State Fault Refusal := vecInstr (.kpopc d a) s
/-- `kfirst`: the lowest set bit (R234). -/
def execKfirst (d : GReg) (a : MReg) (s : State) : Host.Outcome State Fault Refusal := vecInstr (.kfirst d a) s
/-- `vadd_sat`: saturating sums (R219). -/
def execVaddSat (t : ElemType) (d a b : VReg) (m : MReg) (s : State) : Host.Outcome State Fault Refusal := vecInstr (.vaddSat t d a b m) s
/-- `vsub_sat`: saturating differences (R219). -/
def execVsubSat (t : ElemType) (d a b : VReg) (m : MReg) (s : State) : Host.Outcome State Fault Refusal := vecInstr (.vsubSat t d a b m) s
/-- `vmul_sat`: saturating products (R219). -/
def execVmulSat (t : ElemType) (d a b : VReg) (m : MReg) (s : State) : Host.Outcome State Fault Refusal := vecInstr (.vmulSat t d a b m) s
/-- `vnarrow_sat`: saturating narrowing (R223). -/
def execVnarrowSat (t : ElemType) (d a : VReg) (m : MReg) (s : State) : Host.Outcome State Fault Refusal := vecInstr (.vnarrowSat t d a m) s

end Sys2Proof.Machine
end

