-- ==== Sys2Proof/Machine/VMem.lean ====
section
/-!
DEFINITION. The VMEM instructions: vector memory, scratchpad, tiles and byte barriers (R121 to R130, R203, R206, R235 to
R237).
-/

namespace Sys2Proof.Machine

/-! ### Which registers an entry writes -/

/-- The v registers of a group that an instruction names by its first (R202). -/
def groupRest (i : Instr) : List VReg :=
  (vGroups i).flatMap fun g => (List.range (g.2 - 1)).map fun k => g.1 + BitVec.ofNat 5 (k + 1)
/-- All v registers read and written, v31 among them. -/
def vAllReads (i : Instr) : List VReg :=
  vReads i ++ (match i with
    | .vnarrow _ _ _ _ | .vnarrowSat _ _ _ _ => groupRest i
    | _ => [])
def vAllWrites (i : Instr) : List VReg :=
  vWrites i ++ (match i with
    | .vnarrow _ _ _ _ | .vnarrowSat _ _ _ _ => []
    | i => groupRest i)

/-- The offset register of a gather or scatter is not written by an earlier entry of the task (R206); no more is the mask
that selects the elements to check (log entry 21). -/
def holdSources (i : Instr) (offsets : Option VReg) : M Unit := do
  let t ← curId
  let clash (e : VEntry) : Bool :=
    e.slot = t && ((match offsets with
      | some b => (vAllWrites e.instr).contains b
      | none => false) || (govMask i ≠ 0 && (mWrites e.instr).contains (govMask i)))
  waitFor ((← curCore).vq.all fun e => !clash e) .queue

/-! ### Places of elements (R236) -/

/-- A place moved by the distance of two addresses of one page. -/
def Place.moved (p : Place) (va va' : Nat) : Place :=
  match p with
  | .mem pa v c => .mem (pa + va' - va) (v + va' - va) c
  | .win k serial off => .win k serial (off + va' - va)

/-- The place of an address, taken from an earlier address of the same 64 KiB page where there is one: its checks come out
alike. -/
def elemPlace (size : Nat) (k : Acc) (last : Option (Nat × Place)) (va : Word) : M Place := do
  match last with
  | some (a, p) =>
    if a / 65536 = va.toNat / 65536 ∧ va.toNat % size = 0 then pure (p.moved a va.toNat)
    else checkAccess va size k
  | none => checkAccess va size k

/-- CheckAccess of each element in turn; the first that fails traps (R236). -/
def placeElems (size : Nat) (k : Acc) : Option (Nat × Place) → List (Nat × Word) → M (List (Nat × Place))
  | _, [] => pure []
  | last, (i, va) :: r => do
    let p ← elemPlace size k last va
    let ps ← placeElems size k (some (va.toNat, p)) r
    pure ((i, bypassed (← curSlot) p) :: ps)

/-- What every store of a list of places needs before it issues (R151, R317, R339). -/
def reserveAll (size : Nat) (ps : List (Nat × Place)) : M Unit := do
  reserveStores (← curAgent) (ps.map fun e => (e.2, size))

/-- The active elements of a type, ascending. -/
def curActive (i : Instr) (n : Nat) : M (List Nat) := do
  let m := (← curSlot).mval (govMask i)
  pure (activeList n fun k => m.getLsbD k)

/-- The address of element i of a vector access with base a (R236). -/
def vecAddr (size : Nat) (a : Word) (stride : Option Word) (offs : Option VVal) (i : Nat) : Word :=
  match stride, offs with
  | some st, _ => wrap64 ((a.toNat : Int) + st.toInt * i)
  | none, some o => wrap64 ((a.toNat : Int) + (size * elemOf o (8 * size) i : Nat))
  | none, none => wrap64 ((a.toNat : Int) + (size * i : Nat))

/-- A vector access of repeat k placed in the queue, its message being the j-th (R203, R236). -/
def placeAccess (i : Instr) (t : ElemType) (a : GReg) (stride : Option GReg) (offs : Option VReg) (store : Bool)
    (k j : Nat) (rep : Option Nat) : M Unit := do
  holdSources i offs
  let x ← curSlot
  let size := t.width / 8
  let base := x.gvalAt j a + BitVec.ofNat 64 (512 * k)
  let st := stride.map (x.gvalAt j)
  let os := offs.map fun b => if b = 31 then x.msgAt j else x.vval b
  let act ← curActive i (elemCount t)
  let ps ← placeElems size (if store then .write else .read) none
    (act.map fun n => (8 * n, vecAddr size base st os n))
  if store then reserveAll size ps else pure ()
  placeEntry i j rep { VExtra.none with places := ps }

/-- A vector memory instruction outside a sequence. -/
def accessInstr (i : Instr) (t : ElemType) (a : GReg) (stride : Option GReg) (offs : Option VReg) (store : Bool) (s : State) :
    Host.Outcome State Fault Refusal :=
  issue i (vecFlow i (placeAccess i t a stride offs store 0 0 none)) s

/-- `vld`: a contiguous load (R236). -/
def execVld (t : ElemType) (d : VReg) (a : GReg) (m : MReg) (s : State) : Host.Outcome State Fault Refusal :=
  accessInstr (.vld t d a m) t a none none false s
/-- `vst`: a contiguous store (R236). -/
def execVst (t : ElemType) (d : VReg) (a : GReg) (m : MReg) (s : State) : Host.Outcome State Fault Refusal :=
  accessInstr (.vst t d a m) t a none none true s
/-- `vldg`: a strided load (R236). -/
def execVldg (t : ElemType) (d : VReg) (a b : GReg) (m : MReg) (s : State) : Host.Outcome State Fault Refusal :=
  accessInstr (.vldg t d a b m) t a (some b) none false s
/-- `vstg`: a strided store (R236). -/
def execVstg (t : ElemType) (d : VReg) (a b : GReg) (m : MReg) (s : State) : Host.Outcome State Fault Refusal :=
  accessInstr (.vstg t d a b m) t a (some b) none true s
/-- `vgather`: an indexed load (R236). -/
def execVgather (t : ElemType) (d : VReg) (a : GReg) (b : VReg) (m : MReg) (s : State) :
    Host.Outcome State Fault Refusal :=
  accessInstr (.vgather t d a b m) t a none (some b) false s
/-- `vscatter`: an indexed store (R236). -/
def execVscatter (t : ElemType) (d : VReg) (a : GReg) (b : VReg) (m : MReg) (s : State) :
    Host.Outcome State Fault Refusal :=
  accessInstr (.vscatter t d a b m) t a none (some b) true s

/-! ### pld and pst (R122) -/

/-- The scratchpad offset of repeat k (R122). -/
def padOffset (a : Word) (k : Nat) : Nat := a.toNat + 512 * k

/-- The checks of R122 on an offset, and WaitReady of its tile. -/
def checkPad (off : Nat) : M Unit := do
  check (off % 512 = 0) .tileAlign (BitVec.ofNat 64 off)
  check (off < 4096 * nTiles (← curSlot).part) .tileRange (BitVec.ofNat 64 off)
  waitReady (off / 4096)

/-- A `pld` or `pst` of repeat k placed in the queue (R122, R203). -/
def placePad (i : Instr) (a : GReg) (k j : Nat) (rep : Option Nat) : M Unit := do
  checkPad (padOffset ((← curSlot).gvalAt j a) k)
  placeEntry i j rep .none

/-- The tile that a `pld` or `pst` names. -/
def padNames (a : GReg) (_ : State) (x : Slot) : List Named := [.tile ((x.gval a).toNat / 4096)]

/-- `pld`: 512 bytes of scratchpad into a v register (R122). -/
def execPld (d : VReg) (a : GReg) (s : State) : Host.Outcome State Fault Refusal :=
  issueNamed (.pld d a) (padNames a) (vecFlow (.pld d a) (placePad (.pld d a) a 0 0 none)) s
/-- `pst`: a v register into 512 bytes of scratchpad (R122). -/
def execPst (d : VReg) (a : GReg) (s : State) : Host.Outcome State Fault Refusal :=
  issueNamed (.pst d a) (padNames a) (vecFlow (.pst d a) (placePad (.pst d a) a 0 0 none)) s

/-! ### Tiles (R123, R124) -/

/-- The tile that a queue entry names. -/
def VEntry.tile (e : VEntry) : Option Nat :=
  match e.instr with
  | .pld _ _ | .pst _ _ => some (padOffset ((e.gs[0]?).getD 0) (e.rep.getD 0) / 4096)
  | _ => none

/-- The hold while the core's queue holds an entry that names the tile (R206). -/
def holdTile (t : Nat) : M Unit := do
  waitFor ((← curCore).vq.all fun e => e.tile ≠ some t) .queue

/-- An engine command that names a tile, and the tile instructions, hold while an entry of either queue of the core names it (R206, R255). -/
def holdEngineTile (t : Nat) : M Unit := do
  holdTile t
  waitFor ((← curCore).mq.all fun e => !e.tiles.contains t) .queue

/-- The tile that a g register's value indexes. -/
def tileNames (a : GReg) (_ : State) (x : Slot) : List Named := [.tile (x.gval a).toNat]

/-- `tstat`: the tile's entry, without waiting (R123). -/
def execTstat (d a : GReg) (s : State) : Host.Outcome State Fault Refusal :=
  issueNamed (.tstat d a) (tileNames a) (thenNext do
    let g ← rd a
    checkIndex g
    holdEngineTile g.toNat
    let e := (← curCore).tile g.toNat
    wr d (BitVec.ofNat 64 (e.st.code + (isDiscardable (← curSlot).part g.toNat).toNat * 4 + e.owner * 256))) s

/-- The tile of g[A] with no engine on it, and its state (R124). -/
def claimTile (a : GReg) : M (Nat × TileState) := do
  let g ← rd a
  checkIndex g
  holdEngineTile g.toNat
  waitTile g.toNat
  pure (g.toNat, ((← curCore).tile g.toNat).st)

/-- `tready`: an EMPTY tile becomes READY (R124). -/
def execTready (a : GReg) (s : State) : Host.Outcome State Fault Refusal :=
  issueNamed (.tready a) (tileNames a) (thenNext do
    let (t, st) ← claimTile a
    if st = .empty then setTileAt (coreOf (← curId)) t .ready 0 else pure ()) s
/-- `tempty`: a READY tile becomes EMPTY (R124). -/
def execTempty (a : GReg) (s : State) : Host.Outcome State Fault Refusal :=
  issueNamed (.tempty a) (tileNames a) (thenNext do
    let (t, st) ← claimTile a
    if st = .ready then setTileAt (coreOf (← curId)) t .empty 0 else pure ()) s

/-! ### Byte barriers (R125 to R130) -/

/-- The barrier at an offset, checked by R125. -/
def checkBarAt (g : Word) : M (Nat × Bar) := do
  let off := g.toNat
  checkFree (off % 16 = 0) .tileAlign
  check (off < 4096 * nTiles (← curSlot).part) .tileRange g
  holdTile (off / 4096)
  waitReady (off / 4096)
  consumeScratch (coreOf (← curId)) off
  let b := (← curCore).bar off
  check (!b.corrupt) .barCorrupt g
  pure (off, b)

/-- The barrier at g[A]. -/
def checkBar (a : GReg) : M (Nat × Bar) := do checkBarAt (← rd a)

/-- A barrier instruction names its barrier and its tile. -/
def barNames (a : GReg) (_ : State) (x : Slot) : List Named :=
  [.barrier (x.gval a).toNat, .tile ((x.gval a).toNat / 4096)]

/-- The phase that a slot recorded at its last arrival at a barrier (R129). -/
def Slot.barPhase (x : Slot) (off : Nat) : Option Bool :=
  match x.barReg.find? fun r => r.off = off with
  | some r => r.phase
  | none => none

/-- Register (R129): BAR.REGFULL where the table has no room for a new entry. -/
def checkRegister (off : Nat) : M Unit := do
  let r := (← curSlot).barReg
  checkFree (r.any (fun e => e.off = off) || r.length < 4) .barRegfull

/-- The entry of a barrier, added where there is none, with a phase. -/
def Slot.register (x : Slot) (off : Nat) (phase : Option Bool) : Slot :=
  if x.barReg.any fun e => e.off = off then
    { x with barReg := x.barReg.map fun e => if e.off = off then ⟨off, phase⟩ else e }
  else { x with barReg := x.barReg ++ [⟨off, phase⟩] }

/-- The barrier written, CheckFlip run. -/
def putBar (off : Nat) (b : Bar) : M Unit := modCore fun c => c.setBar off b

/-- `barinit`: every field set, and the task registered (R130). -/
def execBarinit (a b : GReg) (s : State) : Host.Outcome State Fault Refusal :=
  issueNamed (.barinit a b) (barNames a) (thenNext do
    let (off, _) ← checkBar a
    let w ← rd b
    checkFree (fieldOf w 63 17 = 0) .barConfig
    checkRegister off
    modSlot fun x => x.register off (x.barPhase off)
    putBar off ⟨0, fieldOf w 15 0, fieldOf w 15 0, false, w.getLsbD 16, w.getLsbD 16, 0⟩) s

/-- `barpost`: bytes added and the phase armed (R130). -/
def execBarpost (a b : GReg) (s : State) : Host.Outcome State Fault Refusal :=
  issueNamed (.barpost a b) (barNames a) (thenNext do
    let (off, bar) ← checkBar a
    let w ← rd b
    checkFree (decide (bar.pending + w.toNat ≤ 2 ^ 63 - 1)) .barOverflow
    putBar off { bar with pending := bar.pending + w.toNat, armed := true }) s

/-- What an arrival at a barrier is after (R164, R165): the task's stores of its queues have executed and its buffered ones are
performed, so that a task of the core that goes on from `barwait` reads them in its cell's L1 or at their home. The L1 is the
cell's, and engines drop what they overwrite there (`engineStore`), so `barwait` itself acquires nothing (R139; log entry 57). -/
def beforeArrival : M Unit := do
  holdStores
  let wc := (← curSlot).wc
  let s ← get
  waitFor (!wc.any fun w => s.heldLine w.line) .answer
  eachM (performWc (cellOf (← curId))) wc
  modSlot fun x => { x with wc := [] }

/-- `bararr`: the task registered, and one arrival counted (R130). -/
def execBararr (a : GReg) (s : State) : Host.Outcome State Fault Refusal :=
  issueNamed (.bararr a) (barNames a) (thenNext do
    let (off, bar) ← checkBar a
    checkRegister off
    match bar.arrive with
    | none => raiseFree .barArrive
    | some b => do
      beforeArrival
      modSlot fun x => x.register off (some bar.phase)
      putBar off b) s

/-- `bardrop`: an arrival where none is recorded for the phase, one fewer expected, the registration ended (R130). -/
def execBardrop (a : GReg) (s : State) : Host.Outcome State Fault Refusal :=
  issueNamed (.bardrop a) (barNames a) (thenNext do
    let (off, bar) ← checkBar a
    match bar.arriveAndDrop ((← curSlot).barPhase off) with
    | none => raiseFree .barArrive
    | some b => do
      beforeArrival
      modSlot fun x => { x with barReg := x.barReg.filter fun e => e.off ≠ off }
      putBar off b) s

/-- `barwait`: parked while the phase equals bit 0 of g[B] (R130). -/
def execBarwait (a b : GReg) (s : State) : Host.Outcome State Fault Refusal :=
  issueNamed (.barwait a b) (barNames a) (thenNext do
    let (_, bar) ← checkBar a
    waitFor (bar.phase ≠ (← rd b).getLsbD 0) .barwait) s

end Sys2Proof.Machine
end

