-- ==== Sys2Proof/Machine/Matrix.lean ====
section
/-!
DEFINITION. The MATRIX instructions: operand slots, accumulator tiles, MXCTL, and what their issue places in the matrix queue
(R239 to R255).
-/

namespace Sys2Proof.Machine

/-! ### Placing an entry (R241) -/

/-- One entry placed in the core's matrix queue, once it has room (R61, R241). -/
def placeMx (i : Instr) (ga gb : Word) (places : List Place) : M Unit := do
  let t ← curId
  let x ← curSlot
  modCore fun c => { c with
    mnext := c.mnext + 1
    mq := c.mq ++ [{ slot := t, instr := i, mxctl := x.mxctl, rm := x.rm, asid := x.asid, hyp := x.hypId, ga := ga, gb := gb,
                     places := places, blocks := 0, order := c.mnext + 1 }] }

/-- The queue has room, or the slot parks (R61). -/
def mxRoom : M Unit := do waitFor (decide ((← curCore).mq.length < 8)) .queue

/-- A c operand lies below ACC (R247). -/
def checkAcc (c : CReg) : M Unit := do
  check (c.toNat < accCount (← curSlot).part) .tileRange (BitVec.ofNat 64 (0x80 + c.toNat))

/-- The operand slot is held by the core (R245 to R249). -/
def checkHeld (o : OReg) : M Unit := do
  let t ← curId
  check (((← get).opSlot (cellOf t) o.toNat).holder = some (coreOf t)) .mxNotheld (BitVec.ofNat 64 o.toNat)

/-- The tile of an accumulator, and an operand slot, as a fault names them (R256, R402). -/
def accName (c : CReg) : Named := .tile (0x80 + c.toNat)
def opName (o : OReg) : Named := .opSlot o.toNat

/-! ### Operand slots (R245, R246) -/

/-- `oclaim`: the operand slot claimed for the core, and zeroed in queue order (R245). -/
def execOclaim (d : GReg) (a : OReg) (s : State) : Host.Outcome State Fault Refusal :=
  issueNamed (.oclaim d a) (fun _ _ => [opName a]) (thenNext do
    let t ← curId
    match ((← get).opSlot (cellOf t) a.toNat).holder with
    | some c => wr d (if c = coreOf t then 1 else 2)
    | none => do
      mxRoom
      modOpSlot (cellOf t) a.toNat fun o => { o with holder := some (coreOf t), ready := false }
      placeMx (.oclaim d a) 0 0 []
      wr d 0) s

/-- `orelease`: the operand slot FREE, once no queued entry of the core names it (R245). -/
def execOrelease (a : OReg) (s : State) : Host.Outcome State Fault Refusal :=
  issueNamed (.orelease a) (fun _ _ => [opName a]) (thenNext do
    checkHeld a
    waitFor ((← curCore).mq.all fun e => !e.opSlots.contains a.toNat) .queue
    modOpSlot (cellOf (← curId)) a.toNat fun _ => .free) s

/-- The load control of `oload` is one that R246 allows. -/
def loadControlOk (c : Word) : Bool :=
  fieldOf c 63 51 = 0 && !c.getLsbD 15 && fieldOf c 12 6 ≠ 0 && fieldOf c 5 0 + fieldOf c 12 6 ≤ 64 &&
  (c.getLsbD 13 || c.getLsbD 14) && fieldOf c 31 16 % 64 = 0 && fieldOf c 50 32 % 64 = 0

/-- The tiles that an `oload` names. -/
def oloadNames (d : OReg) (a b : GReg) (_ : State) (x : Slot) : List Named :=
  opName d :: (loadTiles (x.gval a) (x.gval b)).map .tile

/-- `oload`: rows from scratchpad into an operand slot (R246). -/
def execOload (d : OReg) (a b : GReg) (s : State) : Host.Outcome State Fault Refusal :=
  issueNamed (.oload d a b) (oloadNames d a b) (thenNext do
    checkHeld d
    let ga ← rd a
    let c ← rd b
    check (loadControlOk c) .mxConfig c
    check (!(c.getLsbD 13) || ga.toNat % 64 = 0) .tileAlign ga
    let ts := loadTiles ga c
    let part := (← curSlot).part
    match loadBeyond ga c (4096 * nTiles part) with
    | some off => raise .tileRange (BitVec.ofNat 64 off)
    | none => pure ()
    eachM holdEngineTile ts
    eachM claimDrain ts
    mxRoom
    let t ← curId
    eachM (fun k => setTileAt (coreOf t) k .draining 2) ts
    modOpSlot (cellOf t) d.toNat fun o => { o with ready := true }
    placeMx (.oload d a b) ga c []) s

/-! ### MXCTL (R244) -/

/-- `mxset`: MXCTL written where the value is valid (R244). -/
def execMxset (a : GReg) (s : State) : Host.Outcome State Fault Refusal :=
  issue (.mxset a) (thenNext do
    let g ← rd a
    check (mxctlOk g) .mxConfig g
    modSlot fun x => { x with mxctl := g }) s

/-- `mxget`: MXCTL read (R244). -/
def execMxget (d : GReg) (s : State) : Host.Outcome State Fault Refusal :=
  issue (.mxget d) (thenNext do wr d (← curSlot).mxctl) s

/-! ### Accumulator tiles (R247, R248, R252) -/

/-- `mxzero`: an EMPTY tile to be zeroed (R248). -/
def execMxzero (d : CReg) (s : State) : Host.Outcome State Fault Refusal :=
  issueNamed (.mxzero d) (fun _ _ => [accName d]) (thenNext do
    checkAcc d
    holdEngineTile (0x80 + d.toNat)
    claimFill (0x80 + d.toNat)
    mxRoom
    setTileAt (coreOf (← curId)) (0x80 + d.toNat) .filling 2
    placeMx (.mxzero d) 0 0 []) s

/-- The addresses of the lines of 64 rows of n lines each, a stride apart (R248, R252). -/
def rowLines (a stride : Word) (n : Nat) : List (Nat × Word) :=
  (List.range 64).flatMap fun (i : Nat) =>
    (List.range n).map fun (l : Nat) => (0, wrap64 ((a.toNat : Int) + stride.toInt * (i : Int)) + BitVec.ofNat 64 (64 * l))

/-- The alignment of `mxloadc` and `mxstore` (R248, R252). For `mxstore` TRAP.VAL is the misaligned operand too (DEDUCED, log entry 5). -/
def checkRows (a stride : Word) : M Unit := do
  check (a.toNat % 64 = 0) .memAlign a
  check (stride.toNat % 64 = 0) .memAlign stride

/-- `mxloadc`: an EMPTY tile to be loaded from memory (R248). -/
def execMxloadc (d : CReg) (a b : GReg) (s : State) : Host.Outcome State Fault Refusal :=
  issueNamed (.mxloadc d a b) (fun _ _ => [accName d]) (thenNext do
    let ga ← rd a
    let gb ← rd b
    checkAcc d
    holdEngineTile (0x80 + d.toNat)
    claimFill (0x80 + d.toNat)
    checkRows ga gb
    let ps ← placeElems 64 .read none (rowLines ga gb (accBytes (← curSlot).mxctl))
    mxRoom
    setTileAt (coreOf (← curId)) (0x80 + d.toNat) .filling 2
    placeMx (.mxloadc d a b) ga gb (ps.map (·.2))) s

/-- The issue of one `mxmul` (R249). -/
def mxmulIssue (d : CReg) (a b : OReg) : M Unit := do
  let t ← curId
  checkAcc d
  checkHeld a
  checkHeld b
  waitReady (0x80 + d.toNat)
  eachM (fun o : OReg => do
    check ((← get).opSlot (cellOf t) o.toNat).ready .tileEmpty (BitVec.ofNat 64 (0x100 + o.toNat))) [a, b]
  mxRoom
  placeMx (.mxmul d a b) 0 0 []

/-- `mxmul`: a product to be added into an accumulator tile (R249). -/
def execMxmul (d : CReg) (a b : OReg) (s : State) : Host.Outcome State Fault Refusal :=
  issueNamed (.mxmul d a b) (fun _ _ => [accName d, opName a, opName b]) (thenNext (mxmulIssue d a b)) s

/-- `mxstore`: a READY tile to be converted and stored (R252). -/
def execMxstore (d : CReg) (a b : GReg) (s : State) : Host.Outcome State Fault Refusal :=
  issueNamed (.mxstore d a b) (fun _ _ => [accName d]) (thenNext do
    let ga ← rd a
    let gb ← rd b
    checkAcc d
    holdEngineTile (0x80 + d.toNat)
    claimDrain (0x80 + d.toNat)
    checkRows ga gb
    let ps ← placeElems 64 .write none (rowLines ga gb (outBytes (← curSlot).mxctl))
    reserveAll 64 ps
    mxRoom
    setTileAt (coreOf (← curId)) (0x80 + d.toNat) .draining 2
    placeMx (.mxstore d a b) ga gb (ps.map (·.2))) s

/-! ### Waiting (R254) -/

/-- The number of the last entry of the core's queue that names a tile. -/
def Core.lastNaming (c : Core) (t : Nat) : Nat :=
  (c.mq.filter fun e => e.tiles.contains t).foldl (fun m e => max m e.order) 0

/-- `mxwait`: held until every earlier entry that names the tile has completed; then a pending matrix fault (R254). -/
def execMxwait (a : CReg) (s : State) : Host.Outcome State Fault Refusal :=
  issueNamed (.mxwait a) (fun _ _ => [.matrix, accName a]) (thenNext do
    checkAcc a
    let c ← curCore
    match (← curSlot).pend with
    | none => do
      let n := c.lastNaming (0x80 + a.toNat)
      modSlot fun x => { x with pend := some ⟨.vector, n, [], none⟩ }
    | some _ => pure ()
    let n := match (← curSlot).pend with
      | some p => p.id
      | none => 0
    waitFor (c.mq.all fun e => n < e.order) .queue
    modSlot fun x => { x with pend := none }
    deliverFault (← curId) fun f => f.names.contains .matrix) s

/-- `mxdrain`: held until every matrix entry of the task has completed; then a pending matrix fault (R254). -/
def execMxdrain (s : State) : Host.Outcome State Fault Refusal :=
  issueNamed .mxdrain (fun _ _ => [.matrix]) (thenNext do
    let t ← curId
    waitFor ((← curCore).mq.all fun e => e.slot ≠ t) .queue
    deliverFault t fun f => f.names.contains .matrix) s

end Sys2Proof.Machine
end

