-- ==== Sys2Proof/Machine/Seq.lean ====
section
/-!
DEFINITION. Sequences of the REP prefix: stepped fields, the repeats, and what a slot keeps of a sequence that has issued (R54 to R56,
R209).
-/

namespace Sys2Proof.Machine

/-! ### Stepped fields (R54, R55) -/

/-- A register field of a repeatable instruction: its number, the largest of its kind, and whether it names a v register. -/
structure StepField where
  num : Nat
  last : Nat
  vec : Bool
  deriving DecidableEq, Repr

def vField (r : VReg) : Option StepField := some ⟨r.toNat, 31, true⟩
def gField (r : GReg) : Option StepField := some ⟨r.toNat, 31, false⟩

/-- The fields D, A, B that a repeatable instruction uses as register numbers; none where it is not repeatable (R54). A
coordinate register may not reach 31 (R267). -/
def repFields : Instr → Option (Option StepField × Option StepField × Option StepField)
  | .vadd _ d a b _ | .vsub _ d a b _ | .vmul _ d a b _ | .vfma _ d a b _ | .vfms _ d a b _ | .vfnma _ d a b _
  | .vmin _ d a b _ | .vmax _ d a b _ | .vand _ d a b _ | .vor _ d a b _ | .vxor _ d a b _ | .vshl _ d a b _
  | .vshr _ d a b _ | .vsra _ d a b _ | .vsel _ d a b _ | .vwmul _ d a b _ | .vwadd _ d a b _ | .vredsum _ d a b _
  | .vredmax _ d a b _ | .vredmin _ d a b _ | .vaddSat _ d a b _ | .vsubSat _ d a b _ | .vmulSat _ d a b _ =>
    some (vField d, vField a, vField b)
  | .vabs _ d a _ | .vneg _ d a _ | .vrcp _ d a _ | .vrsqrt _ d a _ | .vexp2 _ d a _ | .vlog2 _ d a _ | .vtanh _ d a _
  | .vnot _ d a _ | .vcvt _ d a _ _ | .vwcvt _ d a _ _ | .vnarrow _ d a _ | .vnarrowSat _ d a _ =>
    some (vField d, vField a, none)
  | .vcmp _ _ _ a b _ => some (none, vField a, vField b)
  | .vld _ d a _ | .vst _ d a _ | .pld d a | .pst d a => some (vField d, gField a, none)
  | .mxmul d a b => some (some ⟨d.toNat, 7, false⟩, some ⟨a.toNat, 15, false⟩, some ⟨b.toNat, 15, false⟩)
  | .tld d a b _ | .tst d a b _ => some (vField d, some ⟨a.toNat, 15, false⟩, some ⟨b.toNat, 30, false⟩)
  | _ => none

/-- A register number moved. -/
def up {w : Nat} (r : BitVec w) (n : Nat) : BitVec w := r + BitVec.ofNat w n

/-- A repeatable instruction with its fields D, A, B moved by x, y, z (R55). -/
def steppedBy (x y z : Nat) : Instr → Instr
  | .vadd t d a b m => .vadd t (up d x) (up a y) (up b z) m
  | .vsub t d a b m => .vsub t (up d x) (up a y) (up b z) m
  | .vmul t d a b m => .vmul t (up d x) (up a y) (up b z) m
  | .vfma t d a b m => .vfma t (up d x) (up a y) (up b z) m
  | .vfms t d a b m => .vfms t (up d x) (up a y) (up b z) m
  | .vfnma t d a b m => .vfnma t (up d x) (up a y) (up b z) m
  | .vmin t d a b m => .vmin t (up d x) (up a y) (up b z) m
  | .vmax t d a b m => .vmax t (up d x) (up a y) (up b z) m
  | .vand t d a b m => .vand t (up d x) (up a y) (up b z) m
  | .vor t d a b m => .vor t (up d x) (up a y) (up b z) m
  | .vxor t d a b m => .vxor t (up d x) (up a y) (up b z) m
  | .vshl t d a b m => .vshl t (up d x) (up a y) (up b z) m
  | .vshr t d a b m => .vshr t (up d x) (up a y) (up b z) m
  | .vsra t d a b m => .vsra t (up d x) (up a y) (up b z) m
  | .vsel t d a b m => .vsel t (up d x) (up a y) (up b z) m
  | .vwmul t d a b m => .vwmul t (up d x) (up a y) (up b z) m
  | .vwadd t d a b m => .vwadd t (up d x) (up a y) (up b z) m
  | .vredsum t d a b m => .vredsum t (up d x) (up a y) (up b z) m
  | .vredmax t d a b m => .vredmax t (up d x) (up a y) (up b z) m
  | .vredmin t d a b m => .vredmin t (up d x) (up a y) (up b z) m
  | .vaddSat t d a b m => .vaddSat t (up d x) (up a y) (up b z) m
  | .vsubSat t d a b m => .vsubSat t (up d x) (up a y) (up b z) m
  | .vmulSat t d a b m => .vmulSat t (up d x) (up a y) (up b z) m
  | .vabs t d a m => .vabs t (up d x) (up a y) m
  | .vneg t d a m => .vneg t (up d x) (up a y) m
  | .vrcp t d a m => .vrcp t (up d x) (up a y) m
  | .vrsqrt t d a m => .vrsqrt t (up d x) (up a y) m
  | .vexp2 t d a m => .vexp2 t (up d x) (up a y) m
  | .vlog2 t d a m => .vlog2 t (up d x) (up a y) m
  | .vtanh t d a m => .vtanh t (up d x) (up a y) m
  | .vnot t d a m => .vnot t (up d x) (up a y) m
  | .vcvt t d a src m => .vcvt t (up d x) (up a y) src m
  | .vwcvt t d a src m => .vwcvt t (up d x) (up a y) src m
  | .vnarrow t d a m => .vnarrow t (up d x) (up a y) m
  | .vnarrowSat t d a m => .vnarrowSat t (up d x) (up a y) m
  | .vcmp t c k a b m => .vcmp t c k (up a y) (up b z) m
  | .vld t d a m => .vld t (up d x) (up a y) m
  | .vst t d a m => .vst t (up d x) (up a y) m
  | .pld d a => .pld (up d x) (up a y)
  | .pst d a => .pst (up d x) (up a y)
  | .mxmul d a b => .mxmul (up d x) (up a y) (up b z)
  | .tld d a b m => .tld (up d x) (up a y) (up b z) m
  | .tst d a b m => .tst (up d x) (up a y) (up b z) m
  | i => i

/-- A sequence: the repeat count, what each field steps by, and the partner. -/
structure Seq_ where
  n : Nat
  x : Nat
  y : Nat
  z : Nat
  partner : Instr
  deriving DecidableEq, Repr

/-- The sequence of a P word and its partner. -/
def seqOf (count : BitVec 6) (sd sa sb : Bool) (stride : Stride) (i : Instr) : Seq_ :=
  ⟨count.toNat + 1, if sd then stride.step else 0, if sa then stride.step else 0, if sb then stride.step else 0, i⟩

/-- The instruction of repeat k (R55). -/
def Seq_.at (q : Seq_) (k : Nat) : Instr := steppedBy (k * q.x) (k * q.y) (k * q.z) q.partner

/-- The instructions of the repeats from k on. -/
def Seq_.from (q : Seq_) (k : Nat) : List Instr := ((List.range q.n).drop k).map q.at

/-- Whether an instruction pops a message, pushes one, or names v31 or g31 at all. -/
def pops (i : Instr) : Bool := pops31 i || popsV31 i
def pushes (i : Instr) : Bool := pushes31 i || pushesV31 i
def names31 (i : Instr) : Bool := pops i || pushes i

/-- The messages that the repeats from k to below m pop, and those that they push. -/
def Seq_.popped (q : Seq_) (k m : Nat) : Nat := (((List.range m).drop k).filter fun j => pops (q.at j)).length
def Seq_.pushed (q : Seq_) (k m : Nat) : Nat := (((List.range m).drop k).filter fun j => pushes (q.at j)).length

/-! ### A sequence that has issued (R56, R209) -/

/-- What the slot keeps of a sequence that has issued: the sequence, the repeat it began at, the repeat it ends before, which an Assayer
may set (R410), and the messages it took. -/
structure Running where
  seq : Seq_
  start : Nat
  limit : Nat
  taken : List Nat

/-- The sequence that a slot runs: its partner's word, the P word and the rest stand in the slot's pending operation. -/
def Slot.running (x : Slot) : Option Running :=
  match x.pend with
  | some ⟨.vector, w, p :: k0 :: limit :: taken, _⟩ =>
    match decode (wordBytes p), decode (wordBytes w) with
    | .ok (.rep count sd sa sb stride, _), .ok (i, _) => some ⟨seqOf count sd sa sb stride i, k0, limit, taken⟩
    | _, _ => none
  | _ => none

/-- The messages of the repeats from k0 on taken, and entries reserved for their pushes, all at once (R209). -/
def Seq_.take (q : Seq_) (k0 : Nat) : M (List Nat) := do
  let n := q.popped k0 q.n
  let ms := ((← curSlot).inq.take n).map fun m => m.data.toNat
  popMany n
  reservePushes ((q.from k0).any pushesV31) (q.pushed k0 q.n)
  pure ms

/-- The messages and the entries of the repeats from k on given back (R10, R203). -/
def Running.giveBack (r : Running) (t k : Nat) : M Unit := do
  let vec := (r.seq.from r.start).any popsV31
  modSlotAt t fun x =>
    let back := (r.taken.drop (r.seq.popped r.start k)).map fun d => (⟨vec, peerOf t x.chanIn.peer, true, BitVec.ofNat 4096 d⟩ : Msg)
    { x with inq := back ++ x.inq }
  unreservePushes t (r.seq.pushed k r.seq.n)

/-- What a copy's shadow receives of the repeats below m: their registers, and the messages taken; the packets of no later repeat but the
one that traps have been sent (R410). -/
def Running.forward (r : Running) (t m : Nat) : M Unit := do
  let s ← get
  let x := s.slot t
  match x.partner, s.pairPacket t with
  | some u, some _ =>
    if x.shadow then pure ()
    else do
      modSlotAt u fun y =>
        let y := ((((List.range m).drop r.start).map r.seq.at).flatMap vWrites).foldl (fun y d => y.setV d (x.vval d)) y
        { y with inq := y.inq.drop (r.seq.popped r.start m) }
      modPf fun p => { p with pairs := p.pairs.map fun c =>
        if c.slot = t then { c with hashes := c.hashes.take (m + 1 - r.start) } else c }
  | _, _ => pure ()

end Sys2Proof.Machine
end

