-- ==== Sys2Proof/Machine/Layout.lean ====
section
/-!
DEFINITION. Tensor descriptors: fields, validity, sizes, and where an element lives (R260 to R265).
-/

namespace Sys2Proof.Machine

/-- A descriptor (R260). -/
abbrev Desc := BitVec 1024

/-- Bits hi to lo of a descriptor. -/
def Desc.at (d : Desc) (hi lo : Nat) : Nat := d.toNat / 2 ^ lo % 2 ^ (hi + 1 - lo)
def Desc.base (d : Desc) : Nat := Desc.at d 63 0
def Desc.tag (d : Desc) : Nat := Desc.at d 95 64
def Desc.ndim (d : Desc) : Nat := Desc.at d 103 96
def Desc.pend (d : Desc) : Bool := d.getLsbD 104
def Desc.dims (d : Desc) : List Nat := (List.range 5).map fun k => Desc.at d (32 * k + 159) (32 * k + 128)
def Desc.pad (d : Desc) : Nat := Desc.at d 383 320
def Desc.nbase (d : Desc) : Nat := Desc.at d 447 384
def Desc.ntag (d : Desc) : Nat := Desc.at d 479 448
def Desc.bitmap (d : Desc) : Nat := Desc.at d 575 512

/-- The view fields (R260). -/
structure View where
  fr : Nat
  fs : Nat
  strh : Nat
  strw : Nat
  dilh : Nat
  dilw : Nat
  padh : Nat
  padw : Nat
  oh : Nat
  ow : Nat
def Desc.view (d : Desc) : View :=
  { fr := Desc.at d 591 576, fs := Desc.at d 607 592, strh := Desc.at d 615 608, strw := Desc.at d 623 616,
    dilh := Desc.at d 631 624, dilw := Desc.at d 639 632, padh := Desc.at d 655 640, padw := Desc.at d 671 656,
    oh := Desc.at d 687 672, ow := Desc.at d 703 688 }

/-! ### Tags (R261, R262) -/

def tagKind (t : Nat) : Nat := t % 16
def tagType (t : Nat) : ElemType := .ofCode (t / 16)
def tagLbr (t : Nat) : Nat := t / 2 ^ 8 % 256
def tagLbc (t : Nat) : Nat := t / 2 ^ 16 % 256
def tagParam (t : Nat) : Nat := t / 2 ^ 24 % 256

/-- The type of a tensor's elements in a v register (R269). -/
def regType (t : ElemType) : ElemType := if t.le12 then t else .bf16

/-- A tag is valid for a number of dimensions (R262). -/
def tagOk (t ndim : Nat) : Bool :=
  let ty := tagType t
  let k := tagKind t
  let block := 2 ^ (tagLbr t + tagLbc t) * ty.width
  k ≤ 5 && (ty.le12 == (k ≠ 4)) && (k ≠ 5 || ndim = 4) &&
  (if k = 2 ∨ k = 3 then tagLbr t ≤ 16 && tagLbc t ≤ 16 && 512 ≤ block && block ≤ 524288
   else tagLbr t = 0 && tagLbc t = 0) &&
  (if k = 3 then 1 ≤ tagParam t && tagParam t ≤ 3 && 128 * 2 ^ tagParam t ≤ 2 ^ tagLbc t * ty.width else tagParam t = 0)

/-- The sizes fit the number of dimensions (R262). -/
def dimsOk (ndim : Nat) (dims : List Nat) : Bool :=
  1 ≤ ndim && ndim ≤ 5 && dims.zipIdx.all fun d => if d.2 < ndim then 1 ≤ d.1 && d.1 ≤ 65536 else d.1 = 1

/-- The view fields are valid in kind 5 and zero otherwise (R260, R262). -/
def viewOk (d : Desc) : Bool :=
  if tagKind (Desc.tag d) = 5 then
    let v := Desc.view d
    1 ≤ v.fr && 1 ≤ v.fs && 1 ≤ v.strh && 1 ≤ v.strw && 1 ≤ v.dilh && 1 ≤ v.dilw && 1 ≤ v.oh && 1 ≤ v.ow
  else Desc.at d 703 576 = 0

/-- A valid descriptor (R262). -/
def descOk (d : Desc) : Bool :=
  Desc.at d 1023 704 = 0 && Desc.at d 511 480 = 0 && Desc.at d 319 288 = 0 && Desc.at d 127 105 = 0 && Desc.base d < 2 ^ 56 &&
  Desc.base d % 64 = 0 && dimsOk (Desc.ndim d) (Desc.dims d) && tagOk (Desc.tag d) (Desc.ndim d) && viewOk d &&
  (if Desc.pend d then tagOk (Desc.ntag d) (Desc.ndim d) else Desc.nbase d = 0 && Desc.ntag d = 0 && Desc.bitmap d = 0)

/-! ### Sizes (R263) -/

/-- A number rounded up to a multiple. -/
def roundUp (n m : Nat) : Nat := (n + m - 1) / m * m
/-- A size of a list of five. -/
def dimOf (dims : List Nat) (k : Nat) : Nat := (dims[k]?).getD 1
/-- D2·D3·D4. -/
def planes (dims : List Nat) : Nat := dimOf dims 2 * dimOf dims 3 * dimOf dims 4
/-- The bytes of the element plane of kind 4. -/
def elemPlane (t : Nat) (dims : List Nat) : Nat :=
  roundUp (roundUp (dimOf dims 0) 16 * dimOf dims 1 * planes dims * (tagType t).width / 8) 4096
/-- Size(tag, dims); for kind 5 the bytes that its source occupies (R263). -/
def sizeOf_ (t : Nat) (dims : List Nat) : Nat :=
  let d0 := dimOf dims 0
  let d1 := dimOf dims 1
  let w := (tagType t).width
  roundUp (match tagKind t with
    | 2 | 3 => roundUp d0 (2 ^ tagLbc t) * roundUp d1 (2 ^ tagLbr t) * planes dims * w / 8
    | 4 => elemPlane t dims + 2 * (roundUp d0 16 / 16 * d1 * planes dims)
    | 5 => (d0 * d1 * dimOf dims 2 * dimOf dims 3 * w + 7) / 8
    | _ => (d0 * d1 * planes dims * w + 7) / 8) 64

/-! ### Places (R264, R265) -/

/-- Where an element lives: its bit, counted from BASE; in kind 4 also the first exponent byte of its group; and whether the
view reported a row beyond its source. -/
structure ElemLoc where
  bit : Option Nat
  exp : Option Nat
  oob : Bool

/-- No place: PAD is read. -/
def ElemLoc.pad : ElemLoc := ⟨none, none, false⟩

/-- The byte offset within a block after the swizzle of kind 3 (R264). -/
def swizzle (t o : Nat) : Nat :=
  let rb := 2 ^ tagLbc t * (tagType t).width / 8
  let r := o / rb
  let b := o % rb
  r * rb + 16 * (b / 16 ^^^ r % 2 ^ tagParam t) + b % 16

/-- Loc (R264) for the kinds 0 to 4. `rows` are the columns that count as inside: D0, or its multiple of 16 for a write to a
kind 4 tensor (R269). -/
def locOf (t : Nat) (dims : List Nat) (inside : Nat) (c : List Nat) : ElemLoc :=
  let w := (tagType t).width
  let d0 := dimOf dims 0
  let d1 := dimOf dims 1
  let c0 := c.getD 0 0
  let c1 := c.getD 1 0
  let plane := c.getD 2 0 + dimOf dims 2 * (c.getD 3 0 + dimOf dims 3 * c.getD 4 0)
  if inside ≤ c0 || (c.zipIdx.drop 1).any (fun x => dimOf dims x.2 ≤ x.1) then .pad
  else match tagKind t with
    | 0 => ⟨some ((c0 + d0 * (c1 + d1 * plane)) * w), none, false⟩
    | 1 => ⟨some ((c1 + d1 * (c0 + d0 * plane)) * w), none, false⟩
    | 4 =>
      let p0 := roundUp d0 16
      ⟨some ((c0 + p0 * (c1 + d1 * plane)) * w),
       some (elemPlane t dims + 2 * ((plane * d1 + c1) * (p0 / 16) + c0 / 16)), false⟩
    | k =>
      let br := 2 ^ tagLbr t
      let bc := 2 ^ tagLbc t
      let block := (plane * (roundUp d1 br / br) + c1 / br) * (roundUp d0 bc / bc) + c0 / bc
      let within := c1 % br * bc + c0 % bc
      if k = 3 then
        ⟨some (block * br * bc * w + swizzle t (within * w / 8) * 8 + within * w % 8), none, false⟩
      else ⟨some ((block * br * bc + within) * w), none, false⟩

/-- ViewLoc (R265) of a column and a row. -/
def viewLoc (d : Desc) (k p c4 : Nat) : ElemLoc :=
  let v := Desc.view d
  let dims := Desc.dims d
  let c := dimOf dims 0
  let w := dimOf dims 1
  let h := dimOf dims 2
  if v.fr * v.fs * c ≤ k || c4 ≠ 0 then .pad
  else
    let n := p / (v.oh * v.ow)
    let oy := p % (v.oh * v.ow) / v.ow
    let ox := p % v.ow
    if dimOf dims 3 ≤ n then ⟨none, none, true⟩
    else
      let ch := k % c
      let fx := k / c % v.fs
      let fy := k / (c * v.fs)
      let iy : Int := (oy * v.strh : Nat) - (v.padh : Int) + (fy * v.dilh : Nat)
      let ix : Int := (ox * v.strw : Nat) - (v.padw : Int) + (fx * v.dilw : Nat)
      if iy < 0 ∨ (h : Int) ≤ iy ∨ ix < 0 ∨ (w : Int) ≤ ix then .pad
      else ⟨some ((ch + c * (ix.toNat + w * (iy.toNat + h * n))) * (tagType (Desc.tag d)).width), none, false⟩

/-- The coordinates (k, p) of a view from the coordinates of an access (R265). -/
def viewCol (c : List Nat) : Nat := c.getD 0 0 + 65536 * c.getD 3 0
def viewRow (c : List Nat) : Nat := c.getD 1 0 + 65536 * c.getD 2 0

/-- The element at coordinates by a descriptor; `wide` lets a write reach the padding of a kind 4 row (R269). -/
def elemLoc (d : Desc) (wide : Bool) (c : List Nat) : ElemLoc :=
  if tagKind (Desc.tag d) = 5 then viewLoc d (viewCol c) (viewRow c) (c.getD 4 0)
  else
    let d0 := dimOf (Desc.dims d) 0
    locOf (Desc.tag d) (Desc.dims d) (if wide then roundUp d0 16 else d0) c

/-- The sizes of the matrix that a view presents, or the descriptor's own (R271). -/
def newDims (d : Desc) : List Nat :=
  if tagKind (Desc.tag d) = 5 then
    let v := Desc.view d
    [v.fr * v.fs * dimOf (Desc.dims d) 0, dimOf (Desc.dims d) 3 * v.oh * v.ow, 1, 1, 1]
  else Desc.dims d

/-- The coordinates in the new layout of an access to the old one (R271, R273). -/
def newCoords (d : Desc) (c : List Nat) : List Nat :=
  if tagKind (Desc.tag d) = 5 then [viewCol c, viewRow c, 0, 0, 0] else c

end Sys2Proof.Machine
end

