-- ==== Sys2Proof/Machine/Tensor.lean ====
section
/-!
DEFINITION. Tensor handles, `tld` and `tst`, and the start and end of a relayout (R266 to R276).
-/

namespace Sys2Proof.Machine

/-- CheckHandle (R266). -/
def checkHandle (n : HReg) : M Handle := do
  let h := (← curSlot).hval n
  check h.valid .tensorHandle (BitVec.ofNat 64 n.toNat)
  pure h

/-- A handle names its descriptor's address (R276, R402). -/
def handleNames (n : HReg) (_ : State) (x : Slot) : List Named :=
  if (x.hval n).valid then [.handle (x.hval n).daddr.toNat] else []

/-- The addresses of the doublewords of a descriptor. -/
def descWords (va : Word) : List (Nat × Word) := (List.range 16).map fun k => (k, va + BitVec.ofNat 64 (8 * k))

/-- The places of the doublewords of a descriptor, outside the stream window (R338). -/
def descPlaces (va : Word) (k : Acc) : M (List Place) :=
  mapEach (fun w => do pure (bypassed (← curSlot) (.mem (← checkMem w 8 k).pa w.toNat (← checkMem w 8 k).cached)))
    ((descWords va).map (·.2))

/-- The doublewords of a list of places, lowest first, as a number. -/
def readWords (alloc : Bool) : List Place → M Nat
  | [] => pure 0
  | p :: r => do
    let v ← readPlace (← curAgent) (← curSlot).wc alloc p 8
    let rest ← readWords alloc r
    pure (v + 2 ^ 64 * rest)

/-- The handle that `hload` makes of an address (R268). -/
def loadHandle (va : Word) : M Handle := do
  check (va.toNat % 128 = 0) .memAlign va
  let d : Desc := BitVec.ofNat 1024 (← readWords true (← descPlaces va .read))
  check (descOk d) .tensorDesc va
  pure ⟨true, va, d⟩

/-- `hload`: a descriptor into a handle (R268). -/
def execHload (d : HReg) (a : GReg) (s : State) : Host.Outcome State Fault Refusal :=
  issueNamed (.hload d a) (handleNames d) (thenNext do
    let h ← loadHandle (← rd a)
    modSlot fun x => x.setH d h) s

/-- The active relayout of a descriptor of an address space. -/
def State.relayoutOf (s : State) (asid : BitVec 16) (daddr : Nat) : Option Relayout :=
  s.es.relayouts.find? fun r => r.asid = asid && r.daddr = daddr

/-- The doublewords of a number stored at a list of places. -/
def storeWords (ag : Agent) (t : Nat) : List Place → Nat → M Unit
  | [], _ => pure ()
  | p :: r, v => do
    storePlace ag (some t) p 8 (v % 2 ^ 64)
    storeWords ag t r (v / 2 ^ 64)

/-- `hstore`: the handle's descriptor to memory (R268). -/
def execHstore (d : HReg) (a : GReg) (s : State) : Host.Outcome State Fault Refusal :=
  issueNamed (.hstore d a) (handleNames d) (thenNext do
    let h ← checkHandle d
    let va ← rd a
    check (va.toNat % 128 = 0) .memAlign va
    let s ← get
    let asid := (← curSlot).asid
    checkFree ((s.relayoutOf asid h.daddr.toNat).isNone && (s.relayoutOf asid va.toNat).isNone) .tensorBusy
    let ps ← descPlaces va .write
    let ag ← curAgent
    reserveStores ag (ps.map fun p => (p, 8))
    storeWords ag (← curId) ps h.desc.toNat
    modSlot fun x => x.setH d { h with daddr := va }) s

/-- A field of a handle by its selector; Size of a view has no stated value (R268; log entry 22). -/
def hqueryField (h : Handle) (sel : Nat) : M (Option Word) := do
  let d : Desc := h.desc
  let w (n : Nat) : M (Option Word) := pure (some (BitVec.ofNat 64 n))
  match sel with
  | 0 => w (Desc.base d)
  | 1 => w (Desc.tag d)
  | 2 => w (Desc.ndim d)
  | 3 => w (dimOf (Desc.dims d) 0)
  | 4 => w (dimOf (Desc.dims d) 1)
  | 5 => w (dimOf (Desc.dims d) 2)
  | 6 => w (dimOf (Desc.dims d) 3)
  | 7 => w (dimOf (Desc.dims d) 4)
  | 8 => w (Desc.pad d)
  | 9 => w (Desc.nbase d)
  | 10 => w (Desc.ntag d)
  | 11 => w (Desc.bitmap d)
  | 12 => w (Desc.pend d).toNat
  | 13 => pure (some h.daddr)
  | 14 => if tagKind (Desc.tag d) = 5 then do pure (some (← freshWord)) else w (sizeOf_ (Desc.tag d) (Desc.dims d))
  | 15 => w (Desc.at d 639 576)
  | 16 => w (Desc.at d 703 640)
  | _ => pure none

/-- `hquery`: a field of a handle's descriptor (R268). -/
def execHquery (d : GReg) (a : HReg) (b : GReg) (s : State) : Host.Outcome State Fault Refusal :=
  issueNamed (.hquery d a b) (handleNames a) (thenNext do
    let h ← checkHandle a
    let g ← rd b
    match ← hqueryField h g.toNat with
    | some w => wr d w
    | none => raise .tensorArg g) s

/-! ### tld and tst (R269, R270, R273) -/

/-- The coordinates of element n of a vector: c0 moved by n, then the others (R267, R269). -/
def coordsOf (lo hi : Word) (n : Nat) : List Nat :=
  [fieldOf lo 15 0 + n, fieldOf lo 31 16, fieldOf lo 47 32, fieldOf lo 63 48, fieldOf hi 15 0]

/-- Where an access finds a byte while a relayout is active (R273): its new byte address and the state of its unit. -/
inductive Redirect where
  | old (unit : Option Nat)
  | new (addr : Nat)
  | wait
  deriving DecidableEq, Repr

/-- The state of the unit of a byte of the new storage. -/
def Relayout.at (r : Relayout) (byte : Nat) : Redirect :=
  let u := byte / 4096
  if u < r.done then .new (r.newBase + byte) else if r.claimed = some u then .wait else .old (some u)

/-- The virtual address of a byte after the redirect, the admitted unit, and whether a relayout is active. -/
def redirect (r : Option Relayout) (oldAddr newByte : Nat) : M (Nat × List (Nat × Nat) × Bool) := do
  match r with
  | none => pure (oldAddr, [], false)
  | some r =>
    match r.at newByte with
    | .new a => pure (a, [], true)
    | .old u => pure (oldAddr, (u.toList).map fun k => (r.daddr, k), true)
    | .wait => park .answer

/-- A place at the home, for an access under an active relayout. -/
def Place.athome (p : Place) (home : Bool) : Place :=
  match p with
  | .mem pa va c => .mem pa va (c && !home)
  | p => p

/-- What the elements of an access come to: places by bit, exponent places, admitted units, and whether a view reported OOB. -/
structure TensorAcc where
  places : List (Nat × Place)
  exps : List (Nat × Place)
  admits : List (Nat × Nat)
  oob : Bool

def TensorAcc.none : TensorAcc := ⟨[], [], [], false⟩

/-- One element of an access: Loc, Redirect, CheckAccess (R269). `key` names it in the entry; `size` its bytes. -/
def tensorElem (h : Handle) (r : Option Relayout) (store : Bool) (size key : Nat) (c : List Nat) (acc : TensorAcc) :
    M TensorAcc := do
  let d : Desc := h.desc
  let wide := store && tagKind (Desc.tag d) = 4
  let l := elemLoc d wide c
  match l.bit with
  | none => pure { acc with oob := acc.oob || l.oob }
  | some b => do
    let n : ElemLoc := match r with
      | some r => locOf r.tag.toNat r.dims (if wide then roundUp (dimOf r.dims 0) 16 else dimOf r.dims 0) (newCoords d c)
      | none => .pad
    let (a, adm, home) ← redirect r (Desc.base d + b / 8) (n.bit.getD 0 / 8)
    let k : Acc := if store then .write else .read
    let p := (bypassed (← curSlot) (← checkAccess (BitVec.ofNat 64 a) size k)).athome home
    let bit := (if home && adm.isEmpty then n.bit.getD 0 else b) % 8
    match l.exp with
    | none => pure { acc with places := acc.places ++ [(8 * key + bit, p)], admits := acc.admits ++ adm }
    | some e => do
      let (ea, eadm, ehome) ← redirect r (Desc.base d + e) (n.exp.getD 0)
      let ep := (bypassed (← curSlot) (← checkAccess (BitVec.ofNat 64 ea) 2 k)).athome ehome
      pure { acc with places := acc.places ++ [(8 * key + bit, p)], exps := acc.exps ++ [(key, ep)],
                      admits := acc.admits ++ adm ++ eadm }

/-- The elements of an access in turn. -/
def tensorElems (h : Handle) (r : Option Relayout) (store : Bool) (size : Nat) (lo hi : Word) (first : Nat) :
    List Nat → TensorAcc → M TensorAcc
  | [], acc => pure acc
  | i :: rest, acc => do
    let acc ← tensorElem h r store size i (coordsOf lo hi (first + i)) acc
    tensorElems h r store size lo hi first rest acc

/-- The groups of 16 of a kind 4 store: each wholly active or wholly inactive (R269); none where one is mixed. -/
def wholeGroups (act : Nat → Bool) : Nat → Nat → Option (List Nat)
  | 0, _ => some []
  | n + 1, g =>
    let k := ((List.range 16).filter fun j => act (16 * g + j)).length
    if k = 0 then wholeGroups act n (g + 1)
    else if k = 16 then (wholeGroups act n (g + 1)).map fun l => 16 * g :: l
    else none

/-- Consecutive duplicates of admitted units dropped. -/
def dedupUnits (l : List (Nat × Nat)) : List (Nat × Nat) := l.foldl (fun m u => if m.contains u then m else m ++ [u]) []

/-- A `tld` or `tst` of repeat k placed in the queue (R269, R270, R273). -/
def placeTensor (i : Instr) (a : HReg) (b : GReg) (store : Bool) (k j : Nat) (rep : Option Nat) : M Unit := do
  holdSources i none
  let x ← curSlot
  let h ← checkHandle a
  let d : Desc := h.desc
  let ty := tagType (Desc.tag d)
  let n := elemCount (regType ty)
  let lo := x.gvalAt j b
  let hi := x.gvalAt j (b + 1)
  let m := x.mval (govMask i)
  let act (q : Nat) : Bool := m.getLsbD q
  let r := (← get).relayoutOf x.asid h.daddr.toNat
  let size := max 1 (ty.width / 8)
  let idx ←
    if store then do
      checkFree (tagKind (Desc.tag d) ≠ 5 || (activeList n act).isEmpty) .tensorView
      waitFor (r.isNone || x.hypId = 0) .answer
      if tagKind (Desc.tag d) = 4 then
        match wholeGroups act (n / 16) 0 with
        | some gs => do
          checkFree ((fieldOf lo 15 0 + n * k) % 16 = 0) .tensorArg
          pure gs
        | none => raiseFree .tensorArg
      else pure (activeList n act)
    else pure (activeList n act)
  let size := if store && tagKind (Desc.tag d) = 4 then 2 * ty.width else size
  let acc ← tensorElems h r store size lo hi (n * k) idx .none
  if store then
    reserveStores (← curAgent) ((acc.places.map fun e => (e.2, size)) ++ acc.exps.map fun e => (e.2, 2))
  else pure ()
  let adm := dedupUnits acc.admits
  placeEntry i j rep { places := acc.places, desc := h.desc, exps := acc.exps, admits := if store then adm else [] }
  if store then admitUnits x.asid adm 1 else pure ()
  if acc.oob then modSlot fun x => x.setStat 2 true else pure ()

/-- `tld`: a vector of elements along dimension 0 (R269). -/
def execTld (d : VReg) (a : HReg) (b : GReg) (m : MReg) (s : State) : Host.Outcome State Fault Refusal :=
  issueNamed (.tld d a b m) (handleNames a) (vecFlow (.tld d a b m) (placeTensor (.tld d a b m) a b false 0 0 none)) s
/-- `tst`: a vector stored along dimension 0 (R269). -/
def execTst (d : VReg) (a : HReg) (b : GReg) (m : MReg) (s : State) : Host.Outcome State Fault Refusal :=
  issueNamed (.tst d a b m) (handleNames a) (vecFlow (.tst d a b m) (placeTensor (.tst d a b m) a b true 0 0 none)) s

/-! ### relayout and rlwait (R271, R275) -/

/-- Two ranges of bytes have a byte in common. -/
def overlaps (a n b m : Nat) : Bool := a < b + m && b < a + n

/-- The arguments of a relayout hold (R271). -/
def relayoutOk (d : Desc) (g : Word) (base bitmap : Nat) : Bool :=
  let t := fieldOf g 31 0
  let old := Desc.tag d
  let dims := newDims d
  let size := sizeOf_ t dims
  let bytes := ((size + 4095) / 4096 + 7) / 8
  let oldSize := sizeOf_ old (Desc.dims d)
  fieldOf g 63 32 = 0 && tagType t = tagType old && tagOk t (if tagKind old = 5 then 2 else Desc.ndim d) && tagKind t ≠ 5 &&
  (tagKind old ≠ 5 || tagKind t = 0 || tagKind t = 2 || tagKind t = 3) && base % 4096 = 0 && bitmap % 8 = 0 &&
  !(overlaps base size bitmap bytes) && !(overlaps base size (Desc.base d) oldSize) &&
  !(overlaps bitmap bytes (Desc.base d) oldSize) && dims.all fun n => n ≤ 65536

/-- CheckAccess of a range: one line of each 64 KiB page that it reaches, the rest of the page checking alike. -/
def checkRange : Nat → Nat → M Unit
  | 0, _ => pure ()
  | n + 1, va => do
    let _ ← checkMem (BitVec.ofNat 64 va) 8 .write
    checkRange n (65536 * (va / 65536 + 1))

/-- The pages that n bytes from an address reach. -/
def pagesOf (va n : Nat) : Nat := if n = 0 then 0 else (va + n - 1) / 65536 + 1 - va / 65536

/-- The descriptor of a die's home memory. -/
def homeDesc (pa : Nat) : M Desc := do pure (BitVec.ofNat 1024 (← peek pa 128))

/-- `relayout`: a conversion handed to the die's Weaver (R271). DESIGN CHOICE, log entry 65: the descriptor is checked as a write of its 128
bytes, and its lines are consumed, after the release and the wait. -/
def execRelayout (d : HReg) (a b : GReg) (s : State) : Host.Outcome State Fault Refusal :=
  issueNamed (.relayout d a b) (handleNames d) (thenNext do
    let h ← checkHandle d
    let x ← curSlot
    let t ← curId
    let old : Desc := h.desc
    checkFree (x.hypId = 0) .hypRelayout
    let g ← rd b
    let base := (x.gval a).toNat
    let bitmap := (x.gval (a + 1)).toNat
    checkFree (relayoutOk old g base bitmap) .tensorArg
    let dims := newDims old
    let size := sizeOf_ (fieldOf g 31 0) dims
    let units := (size + 4095) / 4096
    checkRange (pagesOf base size) base
    checkRange (pagesOf bitmap ((units + 7) / 8)) bitmap
    releaseNow
    let rs := (← get).es.relayouts
    waitFor (decide ((rs.filter fun r => r.die = dieOf t).length < 16) && decide (rs.length < 64)) .answer
    let tr ← checkMem h.daddr 128 .write
    consumeHome (lineAddr tr.pa)
    consumeHome (lineAddr tr.pa + 64)
    checkFree (!(Desc.pend (← homeDesc tr.pa))) .tensorBusy
    homeWrite (tr.pa + 13) 1 1
    homeWrite (tr.pa + 48) 8 base
    homeWrite (tr.pa + 56) 4 (fieldOf g 31 0)
    homeWrite (tr.pa + 64) 8 bitmap
    modEs fun e => { e with relayouts := e.relayouts ++ [
      { die := dieOf t, daddr := h.daddr.toNat, descPa := tr.pa, slot := t, launch := x.launch, asid := x.asid,
        sys := x.priv, world := x.world, old := h.desc, tag := g.setWidth 32, dims := dims, newBase := base,
        bitmap := bitmap, units := units, claimed := none, taken := 0, done := 0, admitted := [], suspended := false }] }
    let now ← homeDesc tr.pa
    modSlot fun x => x.setH d { h with desc := now }) s

/-- The relayouts of a descriptor resumed (R275). -/
def resumeRelayout (asid : BitVec 16) (daddr : Nat) : M Unit :=
  modEs fun e => { e with relayouts := e.relayouts.map fun r =>
    if r.asid = asid ∧ r.daddr = daddr then { r with suspended := false } else r }

/-- `rlwait` names its handle, and takes Weaver faults (R275, R402). -/
def rlwaitNames (a : HReg) (s : State) (x : Slot) : List Named := .weaver :: handleNames a s x

/-- `rlwait`: a suspended relayout of the descriptor resumed once, then parked until none is active, then an acquire and a reload (R275). -/
def execRlwait (a : HReg) (s : State) : Host.Outcome State Fault Refusal :=
  issueNamed (.rlwait a) (rlwaitNames a) (thenNext do
    let h ← checkHandle a
    let x ← curSlot
    if x.wait = .answer then pure () else resumeRelayout x.asid h.daddr.toNat
    waitFor ((← get).relayoutOf x.asid h.daddr.toNat).isNone .answer
    acquire
    let h' ← loadHandle h.daddr
    modSlot fun x => x.setH a h') s

end Sys2Proof.Machine
end

