-- ==== Sys2Proof/Machine/VecDone.lean ====
section
/-!
DEFINITION. The vector queue at work: the arbiter that the lane groups and the dot units share, the grant of a lane group, and
what an entry does when it completes (R203 to R208, R236, R251, R269, R273).
-/

namespace Sys2Proof.Machine

/-! ### The arbiter (R208, R251) -/

/-- The next core after one, ascending mod 8, whose weight is above 0; the same core where none has one. -/
def nextTurn (weight : Nat → Nat) (turn : BitVec 3) : BitVec 3 :=
  (((List.range 8).map fun k => turn + BitVec.ofNat 3 (k + 1)).find? fun c => 0 < weight c.toNat).getD turn

/-- The grant loop of n steps. -/
def grantLoop (weight : Nat → Nat) (ready : Nat → Bool) : Nat → Arbiter → Option Nat × Arbiter
  | 0, a => (none, a)
  | n + 1, a =>
    if 0 < weight a.turn.toNat ∧ 0 < a.left ∧ ready a.turn.toNat then
      (some a.turn.toNat, { a with left := a.left - 1 })
    else
      let t := nextTurn weight a.turn
      grantLoop weight ready n { a with turn := t, left := weight t.toNat }

/-- The arbiter acts once: the core within the cell that is granted, if one is (R208). -/
def arbitrate (weight : Nat → Nat) (ready : Nat → Bool) (a : Arbiter) : Option Nat × Arbiter :=
  match grantLoop weight ready 9 a with
  | (some c, b) => (some c, b)
  | (none, b) =>
    match ((List.range 8).map fun k => b.served + BitVec.ofNat 3 (k + 1)).find?
        fun c => weight c.toNat = 0 && ready c.toNat with
    | some c => (some c.toNat, { b with served := c })
    | none => (none, b)

/-- A weight of a core: the largest among the launches with tasks on it, 0 where it holds no task (R208, R251). -/
def State.weight (s : State) (pick : Launch → Nat) (core : Nat) : Nat :=
  ((s.tasksOn core).filterMap fun t => (s.launch? (s.slot t).launch).map pick).foldl max 0

/-! ### Grants (R207) -/

/-- The v and m registers that an entry reads and writes, m registers counted from 32; v31 is no register (R91). -/
def VEntry.reads (e : VEntry) : List Nat :=
  ((vAllReads e.instr).filter (· ≠ 31)).map (·.toNat) ++ (govMask e.instr :: mReads e.instr).map fun m => 32 + m.toNat
def VEntry.writes (e : VEntry) : List Nat :=
  ((vAllWrites e.instr).filter (· ≠ 31)).map (·.toNat) ++ (mWrites e.instr).map fun m => 32 + m.toNat

/-- An entry in a lane group stands in the way of a head (R207). -/
def VEntry.blocks (e head : VEntry) : Bool :=
  e.slot = head.slot &&
  ((e.writes.any fun r => head.reads.contains r || head.writes.contains r) || e.reads.any fun r => head.writes.contains r)

/-- The head of a core's queue: its first entry without a lane group. -/
def Core.vHead (c : Core) : Option VEntry := c.vq.find? fun e => !e.granted

/-- The head is grantable (R207). -/
def Core.vGrantable (c : Core) : Bool :=
  match c.vHead with
  | none => false
  | some h => c.vq.all fun e => !e.granted || !e.blocks h

/-- The first entry without a lane group given one. -/
def grantFirst : List VEntry → List VEntry
  | [] => []
  | e :: r => if e.granted then e :: grantFirst r else { e with granted := true } :: r

/-- VECTOR_LANE_GRANT: a free lane group goes to the head that the arbiter chooses; where it grants none, its moves of the turn stand
(R207, R208). -/
def execVectorLaneGrant (s : State) : Host.Outcome State Fault Refusal :=
  event (do
    let n ← evArg 0
    let s ← get
    let cell := s.cell n
    need (decide (n < 512) && decide (cell.lanes.length < 4))
    let (got, a) := arbitrate (fun k => s.weight Launch.vw (8 * n + k)) (fun k => (s.core (8 * n + k)).vGrantable) cell.varb
    match got with
    | none => modify fun s => s.setCell n { cell with varb := a }
    | some k => do
      modify fun s => s.setCell n { cell with varb := a, lanes := cell.lanes ++ [8 * n + k] }
      modCoreAt (8 * n + k) fun c => { c with vq := grantFirst c.vq }) s

/-! ### Loads and stores (R148, R236, R338) -/

/-- The agent that an entry is: its task, in the address space and under the hypothesis captured at issue (R203, R389). -/
def VEntry.agent (e : VEntry) (s : State) : Agent := { (s.slot e.slot).agent e.slot with asid := e.asid, hyp := e.hyp }

/-- Window pages of the places made ready before anything is read or written (R334, R338). -/
def readyPlaces (store : Bool) (n : Nat) (ps : List (Nat × Place)) : M Unit := eachM (fun (e : Nat × Place) =>
  match e.2 with
  | .mem _ _ _ => pure ()
  | .win key serial off => do
    if (← get).ss.gone key serial then pure ()
    else if store then ownEntries key (off / 65536) (entriesOf off n)
    else residentEntries key (off / 65536) (entriesOf off n)) ps

/-- n bytes of each place, keyed by element. -/
def readAll (ag : Agent) (wc : List WcLine) (n : Nat) : List (Nat × Place) → M (List (Nat × Nat))
  | [] => pure []
  | (k, p) :: r => do
    let v ← readLate ag wc p n
    let vs ← readAll ag wc n r
    pure ((k, v) :: vs)

/-- The value listed at a key. -/
def valueAt (l : List (Nat × Nat)) (k : Nat) : Option Nat := (l.find? fun x => x.1 = k).map (·.2)

/-- A vector load: the active elements from their places, the others kept (R200, R236). -/
def runLoad (e : VEntry) (t : ElemType) (d : VReg) : M Unit := do
  let s ← get
  readyPlaces false (t.width / 8) e.places
  let vs ← readAll (e.agent s) (s.slot e.slot).wc (t.width / 8) e.places
  let old ← if d = 31 then fillFor e else pure ((s.slot e.slot).vval d)
  writeOut e (outPlain d (ofElems t.width fun i => (valueAt vs (8 * i)).getD (elemOf old t.width i)))

/-- The source of a store: the message, or the register. -/
def VEntry.source (e : VEntry) (s : State) (d : VReg) : VVal := if d = 31 then e.msg.getD 0 else (s.slot e.slot).vval d

/-- A vector store: the active elements to their places, ascending (R236). -/
def runStore (e : VEntry) (t : ElemType) (d : VReg) : M Unit := do
  let s ← get
  readyPlaces true (t.width / 8) e.places
  eachM (fun (p : Nat × Place) =>
    storePlace (e.agent s) (some e.slot) p.2 (t.width / 8) (elemOf (e.source s d) t.width (p.1 / 8))) e.places

/-- The scratchpad offset of a `pld` or `pst` entry (R122). -/
def VEntry.pad (e : VEntry) : Nat := padOffset ((e.gs[0]?).getD 0) (e.rep.getD 0)

/-- `pld`: 512 bytes, their check consumed (R122, R145). -/
def runPld (e : VEntry) (d : VReg) : M Unit := do
  consumeScratch (coreOf e.slot) e.pad
  writeOut e (outPlain d (BitVec.ofNat 4096 (((← get).core (coreOf e.slot)).scratchRead e.pad 512)))
/-- `pst`: 512 bytes (R122). -/
def runPst (e : VEntry) (d : VReg) : M Unit := do
  scratchStore (coreOf e.slot) e.pad 512 (e.source (← get) d).toNat

/-! ### tld and tst (R264, R269, R273) -/

/-- The first coordinate of element 0 of an entry. -/
def VEntry.c0 (e : VEntry) (n : Nat) : Nat := fieldOf ((e.gs[0]?).getD 0) 15 0 + n * e.rep.getD 0

/-- A tensor element of `tld` from its bytes: its type's bits, or the bf16 value of a shared-exponent element (R182, R185). -/
def loadElem (e : VEntry) (ty : ElemType) (n i bit bytes : Nat) (ex : Option Nat) : Nat :=
  let b := bytes / 2 ^ bit % 2 ^ ty.width
  if ty.le12 then b
  else
    let x := ex.getD 0
    (roundToFormat .bf16 .rne (shDecode ty (x % 256) (x / 2 ^ (8 + (e.c0 n + i) % 16 / 2) % 2) b)).1

/-- The bytes of an element of type ty in memory, one at least. -/
def elemBytes (ty : ElemType) : Nat := max 1 (ty.width / 8)

/-- `tld`: the active elements from their places, PAD where an element has none (R269). -/
def runTld (e : VEntry) (d : VReg) : M Unit := do
  let s ← get
  let dd : Desc := e.desc
  let ty := tagType (Desc.tag dd)
  let rt := regType ty
  let n := elemCount rt
  readyPlaces false (elemBytes ty) e.places
  readyPlaces false 2 e.exps
  let vs ← readAll (e.agent s) (s.slot e.slot).wc (elemBytes ty) e.places
  let xs ← readAll (e.agent s) (s.slot e.slot).wc 2 e.exps
  let old ← if d = 31 then fillFor e else pure ((s.slot e.slot).vval d)
  let m := (s.slot e.slot).mval (govMask e.instr)
  let at_ (i : Nat) : Nat :=
    match vs.find? fun v => v.1 / 8 = i with
    | some v => loadElem e ty n i (v.1 % 8) v.2 (valueAt xs i)
    | none => Desc.pad dd % 2 ^ rt.width
  writeOut e (outPlain d (ofElems rt.width fun i => if m.getLsbD i then at_ i else elemOf old rt.width i))

/-- An element narrower than a byte written into its byte; where the byte cannot be read, what stands beside the element is
free. -/
def storeBits (e : VEntry) (ag : Agent) (wc : List WcLine) (p : Place) (w bit v : Nat) : M Unit := do
  let old ← match ← attempt (readPlace ag wc false p 1) with
    | .ok b => pure b
    | .error (.trap _ _) => do pure ((← freshWord).toNat % 256)
    | .error e => throw e
  storePlace ag (some e.slot) p 1 (old - old / 2 ^ bit % 2 ^ w * 2 ^ bit + v * 2 ^ bit)

/-- A group of 16 bf16 values of a kind 4 store encoded; those beyond D0 count as +0 (R184, R269). -/
def storeGroup (e : VEntry) (src : VVal) (ty : ElemType) (n g : Nat) : Nat × Nat × List Nat × Flags :=
  let d0 := dimOf (Desc.dims (e.desc : Desc)) 0
  shEncode ty ((List.range 16).map fun j =>
    if e.c0 n + g + j < d0 then FpFmt.bf16.decode (elemOf src 16 (g + j)) else .fin false 0 0)

/-- `tst`: the active elements to their places, ascending; a kind 4 group with its E and μ bytes (R269). -/
def runTst (e : VEntry) (d : VReg) : M Unit := do
  let s ← get
  let dd : Desc := e.desc
  let ty := tagType (Desc.tag dd)
  let n := elemCount (regType ty)
  let ag := e.agent s
  let src := e.source s d
  if ty.le12 then do
    readyPlaces true (elemBytes ty) e.places
    eachM (fun (p : Nat × Place) =>
      let v := elemOf src ty.width (p.1 / 8)
      if ty.width < 8 then storeBits e ag (s.slot e.slot).wc p.2 ty.width (p.1 % 8) v
      else storePlace ag (some e.slot) p.2 (ty.width / 8) v) e.places
  else do
    readyPlaces true (2 * ty.width) e.places
    readyPlaces true 2 e.exps
    eachM (fun (p : Nat × Place) => do
      let r := storeGroup e src ty n (p.1 / 8)
      storePlace ag (some e.slot) p.2 (2 * ty.width) (packDigits ty.width r.2.2.1)
      orFlagsAt e.slot r.2.2.2) e.places
    eachM (fun (p : Nat × Place) => do
      let r := storeGroup e src ty n p.1
      storePlace ag (some e.slot) p.2 2 (r.1 + 256 * r.2.1)) e.exps

/-- What an entry does when it completes. -/
def runEntry (e : VEntry) : M Unit :=
  match e.instr with
  | .vld t d _ _ => runLoad e t d
  | .vldg t d _ _ _ => runLoad e t d
  | .vgather t d _ _ _ => runLoad e t d
  | .vst t d _ _ => runStore e t d
  | .vstg t d _ _ _ => runStore e t d
  | .vscatter t d _ _ _ => runStore e t d
  | .pld d _ => runPld e d
  | .pst d _ => runPst e d
  | .tld d _ _ _ => runTld e d
  | .tst d _ _ _ => runTst e d
  | _ => runVec e

/-! ### Completion (R204, R205) -/

/-- The first entry of a core's queue leaves it, and its lane group is free. -/
def leaveVq (core : Nat) (e : VEntry) : M Unit := do
  modCoreAt core fun c => { c with vq := c.vq.drop 1 }
  modify fun s => s.setCell (core / 8) { s.cell (core / 8) with lanes := (s.cell (core / 8)).lanes.erase core }
  admitUnits e.asid e.admits (-1)

/-- The charge of a repeat of a held sequence, as it completes (R69). -/
def settleRepeat (e : VEntry) : M Unit := if e.held && e.rep.isSome then modSlotAt e.slot Slot.charge else pure ()

/-- A held entry that traps: it and the later repeats leave the queue, what they took is given back, and the trap is precise (R56, R203,
R205). -/
def failEntry (core : Nat) (e : VEntry) (code : Nat) (val : Option Word) : M Unit := do
  dropVq core fun f => f.slot = e.slot && f.held
  match ((← get).slot e.slot).running, e.rep with
  | some r, some k => do
    r.giveBack e.slot k
    r.forward e.slot k
  | _, _ => match e.dest with
    | some _ => unreservePushes e.slot 1
    | none => pure ()
  takeTrap e.slot code val ((← get).slot e.slot).pc e.rep
  forwardPacket e.instr e.slot false

/-- The first entry of a core's queue completes, waits for a page, or traps. -/
def completeEntry (core : Nat) (e : VEntry) : M Unit := do
  modify fun s => { s with cur := e.slot }
  match ← attempt (runEntry e) with
  | .ok _ => do
    leaveVq core e
    settleRepeat e
  | .error (.park _) => pure ()
  | .error (.trap code val) => failEntry core e code val

/-- VECTOR_ENTRY_COMPLETE: a core's first entry, once it has a lane group, completes (R204). -/
def execVectorEntryComplete (s : State) : Host.Outcome State Fault Refusal :=
  event (do
    let core ← evArg 0
    let e ← needSome ((← get).core core).vq.head?
    need e.granted
    completeEntry core e) s

end Sys2Proof.Machine
end

