-- ==== Sys2Proof/Machine/MatDone.lean ====
section
/-!
DEFINITION. The matrix queue at work: block steps granted to `mxmul`, what each entry does when it completes, and the engine
faults of entries that fail (R239 to R258, R410).
-/

namespace Sys2Proof.Machine

/-! ### Failure (R256) -/

/-- The command number of an entry in an engine fault's code (R400). -/
def mxCommand : Instr → Nat
  | .oload _ _ _ => 3
  | .mxloadc _ _ _ => 4
  | .mxstore _ _ _ => 6
  | _ => 5

/-- The task of an entry gets an engine fault that names the entry's tiles and operand slots; a failed word of the pool or of operand memory
has SOURCE 1 (R144, R145, R256). -/
def mxFault (e : MEntry) (code : Nat) (val : Option Word) : M Unit := do
  let v ← match val with
    | some v => pure v
    | none => if isIntegrityCode code then poolVal else freshWord
  addFault e.slot ⟨engineCode (mxCommand e.instr) code, v,
    .matrix :: (e.tiles.map .tile ++ e.opSlots.map .opSlot)⟩

/-- An accumulator tile EMPTY and zeroed. -/
def wipeAcc (core c : Nat) : M Unit := do
  modCoreAt core fun k => k.accZero c
  modCoreAt core fun k => { k with poison := tblSet .good k.poison (0x80 + c) .good }
  setTileAt core (0x80 + c) .empty 0

/-- A held operand slot EMPTY and zeroed. -/
def wipeOp (cell o : Nat) : M Unit := modOpSlot cell o fun x => { x with ready := false, data := [], check := .good }

/-- The entry that fails: its fault, its destination, its sources, and the later entries of its task (R256). `bad` are the
operand slots that hold a failed word, `code` the code of the direct cause. -/
def failMx (core : Nat) (e : MEntry) (code : Nat) (val : Option Word) (bad : List Nat) : M Unit := do
  mxFault e code val
  eachM (wipeOp (core / 8)) bad
  match e.instr with
  | .mxmul d _ _ | .mxzero d | .mxloadc d _ _ => wipeAcc core d.toNat
  | .oload d _ _ => do
    wipeOp (core / 8) d.toNat
    eachM (fun t => setTileAt core t .empty 0) e.tiles
  | .mxstore d _ _ => setTileAt core (0x80 + d.toNat) .empty 0
  | _ => pure ()
  modCoreAt core fun c => { c with mq := c.mq.drop 1 }
  discardMx core e.slot e.order

/-- A check value of pool or operand memory that a read finds: corrected errors are logged, others fail (R145, R414). -/
def mxRead (core array addr : Nat) (c : LineCheck) : M Bool := do
  match c with
  | .good => pure true
  | .single => do
    logError (core / 1024) array 0 addr (← curCtx)
    pure true
  | _ => do
    logError (core / 1024) array 1 addr (← curCtx)
    pure false

/-- The check of an accumulator tile consumed; a corrected error is gone. -/
def readAccCheck (core c : Nat) : M Bool := do
  let k := tblGet .good ((← get).core core).poison (0x80 + c)
  let ok ← mxRead core 2 (2 ^ 40 * core + 0x80 * 4096 + 32768 * c) k
  if ok then modCoreAt core fun x => { x with poison := tblSet .good x.poison (0x80 + c) .good } else pure ()
  pure ok
/-- The check of an operand slot consumed. -/
def readOpCheck (core o : Nat) : M Bool := do
  let x := (← get).opSlot (core / 8) o
  let ok ← mxRead core 3 (2 ^ 40 * core + 36864 * o) x.check
  if ok then modOpSlot (core / 8) o fun x => { x with check := .good } else pure ()
  pure ok

/-- Accumulator bytes written, with the injection of R415. -/
def accStore (core c off n v : Nat) : M Unit := do
  modCoreAt core fun k => k.accWrite c off n v
  let p := ((← get).core core).poison
  let e ← injected (core / 1024) 2 (inWords (2 ^ 40 * core + 0x80 * 4096 + 32768 * c + off) n)
    (tblGet .good p (0x80 + c))
  modCoreAt core fun k => { k with poison := tblSet .good k.poison (0x80 + c) e }

/-! ### Block steps (R249 to R251) -/

/-- The head of a core's queue is an `mxmul` with block steps left (R251). -/
def Core.mGrantable (c : Core) : Bool :=
  match c.mq with
  | e :: _ => (match e.instr with
    | .mxmul _ _ _ => true
    | _ => false) && e.blocks < 16
  | [] => false

/-- The 16 rows of a block of an operand slot, with their numbers (R249). -/
def blockRows (data : Tbl Byte) (b : Nat) : List (Nat × OpRow) :=
  (List.range 16).map fun i => (16 * b + i, opRow data (16 * b + i))

/-- One element of the accumulator tile: row i of A times row j of B added (R249). -/
def mulElem (core : Nat) (e : MEntry) (d : Nat) (x y : Nat × OpRow) : M Unit := do
  let n := accBytes e.mxctl
  let off := n * (64 * x.1 + y.1)
  accStore core d off n (mxElem e.mxctl x.2 y.2 (((← get).core core).accRead d off n))

/-- One block step of `mxmul` (R249). -/
def runBlock (core : Nat) (e : MEntry) (d a b : Nat) : M Unit := do
  let s ← get
  let rb := blockRows (s.opSlot (core / 8) b).data (e.blocks % 4)
  eachM (fun x => eachM (mulElem core e d x) rb) (blockRows (s.opSlot (core / 8) a).data (e.blocks / 4))

/-- The first entry of a core's matrix queue with one more block step done. -/
def bumpBlock : List MEntry → List MEntry
  | [] => []
  | e :: r => { e with blocks := e.blocks + 1 } :: r

/-- A block step of the head of a core's queue, or its failure. -/
def stepBlock (core : Nat) (e : MEntry) : M Unit := do
  modify fun s => { s with cur := e.slot }
  match e.instr with
  | .mxmul d a b => do
    let okA ← readOpCheck core a.toNat
    let okB ← if a = b then pure okA else readOpCheck core b.toNat
    let okC ← readAccCheck core d.toNat
    if okA && okB && okC then do
      runBlock core e d.toNat a.toNat b.toNat
      modCoreAt core fun c => { c with mq := bumpBlock c.mq }
    else failMx core e Cause.memIntegrity.code none ((if okA then [] else [a.toNat]) ++ if okB || a = b then [] else [b.toNat])
  | _ => pure ()

/-- MATRIX_BLOCK_GRANT: the dot units run one block step of the head that the arbiter chooses; where it grants none, its moves of the turn
stand (R251). -/
def execMatrixBlockGrant (s : State) : Host.Outcome State Fault Refusal :=
  event (do
    let n ← evArg 0
    need (decide (n < 512))
    let s ← get
    let cell := s.cell n
    let (got, a) := arbitrate (fun k => s.weight Launch.mw (8 * n + k)) (fun k => (s.core (8 * n + k)).mGrantable) cell.marb
    modify fun s => s.setCell n { cell with marb := a }
    match got.bind fun k => (s.core (8 * n + k)).mq.head?.map fun e => (k, e) with
    | none => pure ()
    | some (k, e) => stepBlock (8 * n + k) e) s

/-! ### Completion (R241 to R253) -/

/-- The head leaves its queue. -/
def leaveMq (core : Nat) : M Unit := modCoreAt core fun c => { c with mq := c.mq.drop 1 }

/-- One row of an `oload` (R246): elements, sideband. -/
def loadRow (core o : Nat) (ga c : Word) (r : Nat) : M Unit := do
  let k := (← get).core core
  let row := 576 * (fieldOf c 5 0 + r)
  let put (off n v : Nat) : M Unit := do
    modOpSlot (core / 8) o fun x => { x with data := tblWriteN x.data (row + off) n v }
    let ch ← injected (core / 1024) 3 (inWords (2 ^ 40 * core + 36864 * o + row + off) n) ((← get).opSlot (core / 8) o).check
    modOpSlot (core / 8) o fun x => { x with check := ch }
  if c.getLsbD 13 then put 0 384 (k.scratchRead (ga.toNat + r * fieldOf c 31 16) 384) else pure ()
  if c.getLsbD 14 then put 384 192 (k.scratchRead (fieldOf c 50 32 + 192 * r) 192) else pure ()

/-- An `oload` completes: the checks of its tiles, its rows, its tiles EMPTY (R246). -/
def runOload (core : Nat) (e : MEntry) (o : Nat) : M Unit := do
  let oks ← mapEach (fun t => do
    let ok ← mxRead core 2 (2 ^ 40 * core + 4096 * t) (tblGet .good ((← get).core core).poison t)
    if ok then modCoreAt core fun x => { x with poison := tblSet .good x.poison t .good } else pure ()
    pure ok) e.tiles
  if oks.all id then do
    eachM (loadRow core o e.ga e.gb) (List.range (fieldOf e.gb 12 6))
    eachM (fun t => setTileAt core t .empty 0) e.tiles
    leaveMq core
  else failMx core e Cause.memIntegrity.code none []

/-- The task that an entry is, under its captured hypothesis. -/
def MEntry.agent (e : MEntry) (s : State) : Agent := { (s.slot e.slot).agent e.slot with asid := e.asid, hyp := e.hyp }

/-- The lines of an accumulator loaded, the k-th at byte 64·k of the rows in turn (R247, R248). -/
def loadAccLines (core : Nat) (e : MEntry) (d : Nat) : Nat → List Place → M Unit
  | _, [] => pure ()
  | k, p :: r => do
    let s ← get
    let v ← readLate (e.agent s) (s.slot e.slot).wc p 64
    accStore core d (64 * k) 64 v
    loadAccLines core e d (k + 1) r

/-- A body that reads memory: done, waiting, or failed with the value of its trap. -/
def tryMx (core : Nat) (e : MEntry) (body : M Unit) (done : M Unit) : M Unit := do
  match ← attempt body with
  | .ok _ => done
  | .error (.park _) => pure ()
  | .error (.trap code val) => failMx core e code val []

/-- One line of an `mxstore`: its bytes, and the flags of its elements (R252, R253). -/
def storeLineOf (s : State) (core : Nat) (e : MEntry) (d k : Nat) : Nat × Flags :=
  let n := accBytes e.mxctl
  let w := outBytes e.mxctl
  let per := 64 / w
  let rs := (List.range per).map fun j => epilogue e.mxctl e.rm ((s.core core).accRead d (n * (per * k + j)) n)
  (packDigits (8 * w) (rs.map (·.1)), rs.foldl (fun f r => f ||| r.2) 0)

/-- The flags of the lines of an `mxstore` from k up, n of them, which its completion ORs in (R253). -/
def storeFlags (s : State) (core : Nat) (e : MEntry) (d k n : Nat) : Flags :=
  (List.range n).foldl (fun f j => f ||| (storeLineOf s core e d (k + j)).2) 0

/-- The lines of an `mxstore` written, the higher row last (R252). -/
def storeAccLines (core : Nat) (e : MEntry) (d : Nat) : Nat → List Place → M Unit
  | _, [] => pure ()
  | k, p :: r => do
    let s ← get
    storePlace (e.agent s) (some e.slot) p 64 (storeLineOf s core e d k).1
    storeAccLines core e d (k + 1) r

/-- An `mxstore` done with the lines before k: its flags, its tile EMPTY, the entry gone (R252, R253). -/
def closeStore (core : Nat) (e : MEntry) (d k : Nat) : M Unit := do
  orFlagsAt e.slot (storeFlags (← get) core e d 0 k)
  setTileAt core (0x80 + d) .empty 0
  leaveMq core

/-! ### The lines of a PAIRED `mxstore` (R258, R409 to R411) -/

/-- The doublewords of a line's packet: its address and its data (R410; DESIGN CHOICE of the first doubleword, log entry 13). -/
def linePacket (p : Place) (v : Nat) : List Word :=
  BitVec.ofNat 64 (match p with
    | .mem _ va _ => va
    | .win _ _ off => off) :: doublewords 8 v

/-- The packets of the lines of an `mxstore` that have not been compared. -/
def linePackets (s : State) (core : Nat) (e : MEntry) (d : Nat) : List (List Word) :=
  (e.places.zipIdx.drop e.blocks).map fun p => linePacket p.1 (storeLineOf s core e d p.2).1

/-- The head of a core's queue with n more lines compared. -/
def moreLines (core n : Nat) : M Unit := modCoreAt core fun c => { c with mq := match c.mq with
  | e :: r => { e with blocks := e.blocks + n } :: r
  | [] => [] }

/-- The `mxstore` at the head of a slot's queue. -/
def headStore (s : State) (t : Nat) : Option (MEntry × Nat) :=
  match (s.core (coreOf t)).mq with
  | e :: _ => if e.slot = t then match e.instr with
    | .mxstore d _ _ => some (e, d.toNat)
    | _ => none
    else none
  | [] => none

/-- A copy's lines go to the Assayer, as many as it has room for, once none of them waits there (R411). -/
def sendLines (t : Nat) (e : MEntry) (d : Nat) : M Unit := do
  let s ← get
  if (s.pairPacket t).isSome then pure ()
  else do
    let hs := (hashesOf (s.slot t).pairHash (linePackets s (coreOf t) e d)).take (s.assayerRoom t)
    waitFor (!hs.isEmpty) .assayer
    sendPackets t hs

/-- The packets of a copy without the first n of them. -/
def PairPacket.past (q : PairPacket) (n : Nat) : Option PairPacket :=
  if q.hashes.length ≤ n then none else some { q with seq := q.seq + n, hashes := q.hashes.drop n }

/-- A copy's packets with the first n of them gone. -/
def takePackets (t n : Nat) : M Unit := do
  match (← get).pairPacket t with
  | none => pure ()
  | some p => do
    modSlotAt t fun x => { x with pairHash := ((p.hashes.take n).getLast?).getD x.pairHash, pairSeq := x.pairSeq + n }
    modPf fun f => { f with pairs := f.pairs.filterMap fun q => if q.slot ≠ t then some q else q.past n }

/-- The Assayer has lines of both copies, of primary t and shadow u: those that agree are performed once; the first that does not is
REDUNDANCY in both (R410). -/
def performLines (t u : Nat) (e f : MEntry) (d d2 : Nat) (p q : PairPacket) : M Unit := do
  let n := agreedOn p.hashes q.hashes
  readyPlaces true 64 ((e.places.drop e.blocks).take n |>.map fun p => (0, p))
  storeAccLines (coreOf t) e d e.blocks ((e.places.drop e.blocks).take n)
  moreLines (coreOf t) n
  moreLines (coreOf u) n
  takePackets t n
  takePackets u n
  let k := e.blocks + n
  if n < min p.hashes.length q.hashes.length then do
    closeStore (coreOf t) e d k
    closeStore (coreOf u) f d2 k
    redundancyBoth t u false (p.seq + n) none
  else if k < e.places.length then pure ()
  else do
    closeStore (coreOf t) e d k
    closeStore (coreOf u) f d2 k

/-- An `mxstore` of a copy at the head of its queue: its lines sent, and those of both copies compared (R258, R410). -/
def pairStore (t u : Nat) (e : MEntry) (d : Nat) : M Unit := do
  let x := (← get).slot t
  sendLines t e d
  let s ← get
  let (a, b) := if x.shadow then (u, t) else (t, u)
  match s.pairPacket a, s.pairPacket b, headStore s a, headStore s b with
  | some p, some q, some (e, d), some (f, d2) =>
    if p.seq ≠ q.seq then pure ()
    else match ← attempt (performLines a b e f d d2 p q) with
      | .ok _ => pure ()
      | .error (.park _) => pure ()
      | .error (.trap code val) => failMx (coreOf a) e code val []
  | _, _, _, _ => pure ()

/-- An `mxstore` at the head of its queue (R252, R253): in a PAIRED launch the copies' lines are compared, and performed once (R258,
R410). -/
def runMxstore (core : Nat) (e : MEntry) (d : Nat) : M Unit := do
  if !(← readAccCheck core d) then failMx core e Cause.memIntegrity.code none []
  else match ((← get).slot e.slot).partner with
    | none => tryMx core e (do
        readyPlaces true 64 (e.places.map fun p => (0, p))
        storeAccLines core e d 0 e.places) (closeStore core e d e.places.length)
    | some u => pairStore e.slot u e d

/-- The first entry of a core's matrix queue completes (R241). -/
def completeMx (core : Nat) (e : MEntry) : M Unit := do
  modify fun s => { s with cur := e.slot }
  match e.instr with
  | .oclaim _ a => do
    modOpSlot (core / 8) a.toNat fun x => { x with data := [], check := .good }
    leaveMq core
  | .oload d _ _ => runOload core e d.toNat
  | .mxzero d => do
    modCoreAt core fun c => c.accZero d.toNat
    modCoreAt core fun c => { c with poison := tblSet .good c.poison (0x80 + d.toNat) .good }
    setTileAt core (0x80 + d.toNat) .ready 0
    leaveMq core
  | .mxloadc d _ _ => tryMx core e (do
      readyPlaces false 64 (e.places.map fun p => (0, p))
      loadAccLines core e d.toNat 0 e.places) (do
      setTileAt core (0x80 + d.toNat) .ready 0
      leaveMq core)
  | .mxmul _ _ _ => do
    need (decide (16 ≤ e.blocks))
    leaveMq core
  | .mxstore d _ _ => runMxstore core e d.toNat
  | _ => leaveMq core

/-- MATRIX_ENTRY_COMPLETE: a core's first entry completes, an `mxmul` once its block steps are done (R241, R249). -/
def execMatrixEntryComplete (s : State) : Host.Outcome State Fault Refusal :=
  event (do
    let core ← evArg 0
    let e ← needSome ((← get).core core).mq.head?
    completeMx core e) s

end Sys2Proof.Machine
end

