-- ==== Sys2Proof/Machine/Sync.lean ====
section
/-!
DEFINITION. Atomics, reservations, `wrs`, fences and prefetch (R152 to R159).
-/

namespace Sys2Proof.Machine

/-- A condition on an ordering. -/
def relIf (o : AmoOrd) : M Unit := if o.releases then releaseNow else pure ()
def acqIf (o : AmoOrd) : M Unit := if o.acquires then acquire else pure ()

/-- The place of an atomic, a reservation or a wait, replicated pages refused (R141). -/
def atomicPlace (a : GReg) (n : Nat) (k : Acc) : M Trans := do
  let va ← rd a
  let tr ← checkMem va n k
  check (tr.rdies = 0) .memReplica va
  pure tr

/-- HypothesisRules() of an atomic, made after every other check; the region is marked where the access is performed
(R154, R318, R331). -/
def atomicRules (pa va n : Nat) : M Unit := do
  hypAtomicCheck
  hypWordCheck pa va n

/-- The word goes to its home: the task's buffered line is performed and the cell's L1 merges and drops the word
(R149, R153). -/
def wordToHome (pa n : Nat) : M Unit := do
  awaitLine (lineAddr pa)
  flushWcWord pa n
  dropWord (cellOf (← curId)) pa n

/-- An atomic read-modify-write at the home (R153): `op` gives the new word, or none where nothing is written. -/
def amoInstr (i : Instr) (d a b : GReg) (wd : AmoWidth) (o : AmoOrd) (op : Nat → Nat → Nat → Option Nat) (s : State) :
    Host.Outcome State Fault Refusal :=
  issue i (thenNext do
    relIf o
    let n := wd.bytes
    let tr ← atomicPlace a n .rmw
    let va := (← rd a).toNat
    consumeHome (lineAddr tr.pa)
    atomicRules tr.pa va n
    wordToHome tr.pa n
    consumeHome (lineAddr tr.pa)
    let m ← peek tr.pa n
    let x := (← rd b).toNat % 2 ^ (8 * n)
    let e := (← rd d).toNat % 2 ^ (8 * n)
    markNonrev
    match op m x e with
    | some v => homeMerge (lineAddr tr.pa) (lineOf (tr.pa % 64) n v) (byteMask (tr.pa % 64) n) none none
    | none => pure ()
    acqIf o
    wr d (extend true n m)) s

/-- The bits of a width. -/
def amoBits (wd : AmoWidth) : Nat := 8 * wd.bytes

/-- `amoadd`: Wrap(m + b) (R153). -/
def execAmoadd (d a b : GReg) (width : AmoWidth) (ord : AmoOrd) (s : State) : Host.Outcome State Fault Refusal :=
  amoInstr (.amoadd d a b width ord) d a b width ord (fun m x _ => some ((m + x) % 2 ^ amoBits width)) s

/-- `amoand`: AND (R153). -/
def execAmoand (d a b : GReg) (width : AmoWidth) (ord : AmoOrd) (s : State) : Host.Outcome State Fault Refusal :=
  amoInstr (.amoand d a b width ord) d a b width ord (fun m x _ => some (m &&& x)) s

/-- `amoor`: OR (R153). -/
def execAmoor (d a b : GReg) (width : AmoWidth) (ord : AmoOrd) (s : State) : Host.Outcome State Fault Refusal :=
  amoInstr (.amoor d a b width ord) d a b width ord (fun m x _ => some (m ||| x)) s

/-- `amoxor`: XOR (R153). -/
def execAmoxor (d a b : GReg) (width : AmoWidth) (ord : AmoOrd) (s : State) : Host.Outcome State Fault Refusal :=
  amoInstr (.amoxor d a b width ord) d a b width ord (fun m x _ => some (m ^^^ x)) s

/-- `amomin`: signed smaller (R153). -/
def execAmomin (d a b : GReg) (width : AmoWidth) (ord : AmoOrd) (s : State) : Host.Outcome State Fault Refusal :=
  amoInstr (.amomin d a b width ord) d a b width ord (fun m x _ => some (if asSigned m (amoBits width) ≤ asSigned x (amoBits width) then m else x)) s

/-- `amomax`: signed larger (R153). -/
def execAmomax (d a b : GReg) (width : AmoWidth) (ord : AmoOrd) (s : State) : Host.Outcome State Fault Refusal :=
  amoInstr (.amomax d a b width ord) d a b width ord (fun m x _ => some (if asSigned m (amoBits width) ≤ asSigned x (amoBits width) then x else m)) s

/-- `amominn`: unsigned smaller (R153). -/
def execAmominn (d a b : GReg) (width : AmoWidth) (ord : AmoOrd) (s : State) : Host.Outcome State Fault Refusal :=
  amoInstr (.amominn d a b width ord) d a b width ord (fun m x _ => some (Nat.min m x)) s

/-- `amomaxn`: unsigned larger (R153). -/
def execAmomaxn (d a b : GReg) (width : AmoWidth) (ord : AmoOrd) (s : State) : Host.Outcome State Fault Refusal :=
  amoInstr (.amomaxn d a b width ord) d a b width ord (fun m x _ => some (Nat.max m x)) s

/-- `amoswap`: exchange (R153). -/
def execAmoswap (d a b : GReg) (width : AmoWidth) (ord : AmoOrd) (s : State) : Host.Outcome State Fault Refusal :=
  amoInstr (.amoswap d a b width ord) d a b width ord (fun _ x _ => some x) s

/-- `amocas`: compare with the old g[D] and exchange (R153). -/
def execAmocas (d a b : GReg) (width : AmoWidth) (ord : AmoOrd) (s : State) : Host.Outcome State Fault Refusal :=
  amoInstr (.amocas d a b width ord) d a b width ord (fun m x e => if m = e then some x else none) s

/-- Whether a reservation on a line has an entry at its home: one on another package is born lost beyond the 4,096 that a die holds for
other packages' slots (R154); this package counts its own (log entry 10). -/
def State.mayReserve (s : State) (line : Nat) : Bool :=
  pkgOf line = s.ws.own || decide ((s.slots.filter fun x => match x.2.resv with
    | some r => r.line / 2 ^ 38 = line / 2 ^ 38
    | none => false).length < 4096)

/-- `lr`: the word from its home, and a reservation on its line that replaces any other (R155). -/
def execLr (d a : GReg) (width : AmoWidth) (ord : AmoOrd) (s : State) : Host.Outcome State Fault Refusal :=
  issue (.lr d a width ord) (thenNext do
    relIf ord
    let n := width.bytes
    let tr ← atomicPlace a n .rmw
    let va := (← rd a).toNat
    consumeHome (lineAddr tr.pa)
    atomicRules tr.pa va n
    wordToHome tr.pa n
    consumeHome (lineAddr tr.pa)
    markNonrev
    modSlot fun x => { x with resv := none }
    let held := (← get).mayReserve (lineAddr tr.pa)
    modSlot fun x => { x with resv := if held then some ⟨lineAddr tr.pa, false⟩ else none }
    acqIf ord
    wr d (extend true n (← peek tr.pa n))) s

/-- The store of `sc` by the slot's reservation: the status 0 where it stands, 1 where a write broke it, 2 where there is none on
the line (R155). -/
def scStore (pa n v : Nat) (resv : Option Resv) : M Word := do
  let t ← curId
  match resv with
  | some r =>
    if r.line ≠ lineAddr pa then pure 2
    else if r.broken then pure 1
    else do
      homeMerge (lineAddr pa) (lineOf (pa % 64) n v) (byteMask (pa % 64) n) none (some t)
      pure 0
  | none => pure 2

/-- `sc`: the store where the reservation stands; the status says how it was lost (R155). -/
def execSc (d a b : GReg) (width : AmoWidth) (ord : AmoOrd) (s : State) : Host.Outcome State Fault Refusal :=
  issue (.sc d a b width ord) (thenNext do
    relIf ord
    let n := width.bytes
    let tr ← atomicPlace a n .rmw
    let va := (← rd a).toNat
    atomicRules tr.pa va n
    wordToHome tr.pa n
    markNonrev
    let status ← scStore tr.pa n (← rd b).toNat (← curSlot).resv
    modSlot fun x => { x with resv := none }
    acqIf ord
    wr d status) s

/-- The end of a `wrs`: its reservation and its timeout are gone, and g[D] says why (R156). -/
def wrsDone (d : GReg) (status : Word) : M Unit := do
  modSlot fun x => { x with resv := none, timer := none }
  wr d status

/-- `wrs`: waits until its reservation is broken by a write or the timeout has passed (R156). -/
def execWrs (d a b : GReg) (width : AmoWidth) (s : State) : Host.Outcome State Fault Refusal :=
  issue (.wrs d a b width) (thenNext do
    let tr ← atomicPlace a width.bytes .read
    let line := lineAddr tr.pa
    let x ← curSlot
    let now := (← get).clock (dieOf (← curId))
    let limit := (← rd b).toNat
    let stands := x.resv.filter fun r => r.line = line
    match x.timer with
    | some t =>
      match stands with
      | some r => if r.broken then wrsDone d 0 else if t ≤ now then wrsDone d 1 else park .wrs
      | none => wrsDone d 2
    | none =>
      if (stands.getD ⟨line, false⟩).broken then wrsDone d 0
      else if stands.isNone && !(← get).mayReserve line then wrsDone d 2
      else if limit = 0 then wrsDone d 1
      else do
        modSlot fun x => { x with resv := some ⟨line, false⟩, timer := some (now + limit) }
        park .wrs) s

/-- `fence.acq`: an acquire (R157). -/
def execFenceAcq (s : State) : Host.Outcome State Fault Refusal := issue .fenceAcq (thenNext acquire) s
/-- `fence.rel`: a release (R157). -/
def execFenceRel (s : State) : Host.Outcome State Fault Refusal := issue .fenceRel (thenNext releaseNow) s
/-- `fence.sc`: a release, its place in the one order of steps, an acquire (R157, R169). -/
def execFenceSc (s : State) : Host.Outcome State Fault Refusal :=
  issue .fenceSc (thenNext do
    releaseNow
    acquire) s
/-- `afence`: a release, then every line of the cell's L1 dropped (R158). -/
def execAfence (s : State) : Host.Outcome State Fault Refusal :=
  issue .afence (thenNext do
    releaseNow
    dropCell (cellOf (← curId))) s

/-- `pref`: the line fetched into the L1 as not owned; a prefetch that would fault is dropped (R159). -/
def execPref (a : GReg) (s : State) : Host.Outcome State Fault Refusal :=
  issue (.pref a) (thenNext do
    let va ← rd a
    let ag ← curAgent
    match checkPlace (← get) ag .allowed va 1 .read with
    | .ok (.mem pa v cached, _) =>
      let c := (← get).ms.checkOf (lineAddr pa)
      if cached && (← curSlot).partner.isNone && (c = .good || c = .single) then do
        let _ ← l1Fill ag.ctx ag.cell ag.asid (lineAddr pa) (lineAddr v) allBytes
      else pure ()
    | _ => pure ()) s

end Sys2Proof.Machine
end

