-- ==== Sys2Proof/Machine/System.lean ====
section
/-!
DEFINITION. The SYSTEM instructions: spawn, quit, yield, depsig, cancel, trap, tret, cget, cset, inval (R66 to R90, R214,
R396).
-/

namespace Sys2Proof.Machine

/-! ### spawn (R67) -/

/-- A task that `spawn` creates: g4 to g7 of the spawner, no chain place, no region (R67). -/
def spawnedTask (l : Launch) (pc : Word) (seeds : Tbl Word) (shadow : Bool) : Slot := newTask l pc seeds shadow false 0

/-- The task created on a core, with a shadow when the launch is PAIRED; the answer is its TASK.ID. -/
def createSpawned (l : Launch) (core : Nat) (pc : Word) (seeds : Tbl Word) : M (Option Nat) := do
  let s ← get
  match s.freeSlotOn core, (if l.paired then s.shadowCore l core else some core) with
  | some t, some sc => do
    releaseNow
    launchUp l.number 1
    placeTask t (spawnedTask l pc seeds false)
    if l.paired then
      match (← get).freeSlotOn sc with
      | some u => do
        placeTask u { spawnedTask l pc seeds true with partner := some t }
        modSlotAt t fun x => { x with partner := some u }
      | none => pure ()
    else pure ()
    pure (some t)
  | _, _ => pure none

/-- `spawn`: a new task of the launch on a core, or on the core that a cell's placement chooses (R67). -/
def execSpawn (d a b : GReg) (cell : Bool) (s : State) : Host.Outcome State Fault Refusal :=
  issue (.spawn d a b cell) (thenNext do
    let target := (← rd a).toNat
    let pc ← rd b
    let x ← curSlot
    let s ← get
    let die := if cell then target / 128 else target / 1024
    let dies : BitVec 4 := match s.launch? x.launch with
      | some l => l.acceptedDies
      | none => 0
    checkFree (target ≤ (if cell then 511 else 4095) && pc.toNat % 4 = 0 && dies.getLsbD die) .spawnTarget
    match s.launch? x.launch with
    | none => wr d minusOne
    | some l => do
      checkFree (!l.reissuable) .spawnReissue
      let core := if cell then s.chooseCore l (target * 8) 8
        else if s.accepts l false target then some target else none
      if s.recCancelled l.recAddr then wr d minusOne
      else
        match core with
        | none => wr d minusOne
        | some c =>
          match ← createSpawned l c pc (seedRegs (x.gval 4) (x.gval 5) (x.gval 6) (x.gval 7)) with
          | some t => wr d (BitVec.ofNat 64 t)
          | none => wr d minusOne) s

/-! ### quit (R68) -/

/-- `quit`: the slot is ENDING until its queued work has drained; quitComplete then ends it (R68). -/
def execQuit (s : State) : Host.Outcome State Fault Refusal :=
  issue .quit (do
    modSlot Slot.toEnding
    pure .gone) s

/-- The queued work of a task has drained (R68, R276). -/
def State.drainedOf (s : State) (t : Nat) : Bool :=
  s.queuesEmpty t && (s.es.cmds.all fun c => c.slot ≠ some t) &&
  (s.es.relayouts.all fun r => r.slot ≠ some t || r.suspended)

/-- ArriveAndDrop at every barrier of the registration table; one that would trap is left unchanged (R130). -/
def dropBarriers (t : Nat) : M Unit := modify fun s =>
  (s.slot t).barReg.foldl (fun s e =>
    let c := s.core (coreOf t)
    match (c.bar e.off).arriveAndDrop e.phase with
    | some b => s.setCore (coreOf t) (c.setBar e.off b)
    | none => s) s

/-- The members of a step batch after the task's quit (R350, R434). -/
def endMember (key : Nat) : M Unit := do
  let s ← get
  let m := s.ss.stream key
  if m.st ≠ .stepping then pure ()
  else do
    let h := m.horizon - (if m.horizon = 0 then 0 else 1)
    if s.launchCancelled m.launch then do
      modSs fun x => x.setStream key { m with horizon := h, st := .idle }
      dropStream key
    else if h = 0 then modSs fun x => x.setStream key { m with horizon := 0, returned := true, st := .idle }
    else becomeWaiting key { m with horizon := h }

/-- The end of a drained task (R68): the barriers, the channel, the regions, the release, the count, the slot. -/
def finishQuit (t : Nat) : M Unit := do
  dropBarriers t
  modSlotAt t fun x => { x with inq := x.inq.filter fun m => !m.landed }
  let x := (← get).slot t
  refuteRegions t true
  releaseOf t
  let number := x.launch
  let reissuable := match (← get).launch? number with
    | some l => l.reissuable
    | none => false
  freeSlot t
  if x.shadow then pure ()
  else if x.stepTask then eachM endMember x.members
  else if reissuable then
    modLs fun l => { l with finishing := l.finishing ++
      [⟨number, x.index, match x.regions.getLast? with
        | some r => if x.impl then r.id else 0
        | none => 0, !x.cancelled⟩] }
  else launchDown number 1

/-- A drained ENDING slot completes its quit. A pending engine fault is delivered first, and stops the quit before its barrier drops; a
release that fails is a trap at the quit, which has then changed nothing (R10, R68, R374, R402). -/
def completeQuit (t : Nat) : M Unit := fun s =>
  if (s.slot t).st = .ending && s.drainedOf t then
    match deliverFault t (fun _ => true) s with
    | .error (.trap code val) s' => (takeTrap t code val (s.slot t).pc none) s'
    | _ =>
      match finishQuit t s with
      | .ok _ s' => .ok () s'
      | .error (.trap code val) _ => (takeTrap t code val (s.slot t).pc none) s
      | .error (.park _) _ => .ok () s
  else .error (.park .none) s

/-! ### yield (R71) -/

/-- A deadline, capped at 4,096 after CANCEL (R77). -/
def Slot.deadline (x : Slot) (n : BitVec 16) : BitVec 16 := if x.cancelled && 4096 < n.toNat then 4096 else n

/-- `yield`: a pending cause is delivered, before g[M] is read, or the budget is reset and the context saved where pre-emption is asked
(R71); a pair is saved together (R405, R411). -/
def execYield (n : BitVec 16) (gm : GReg) (s : State) : Host.Outcome State Fault Refusal :=
  issue (.yield n gm) (do
    let t ← curId
    waitFor ((← get).queuesEmpty t) .queue
    let s ← get
    let x ← curSlot
    let refuted := s.hyps.outermostRefuted x.hypId
    if refuted.isSome || !x.engFaults.isEmpty || s.cancelPending t then do
      modSlot fun x => { x with yieldLeft := x.deadline n }
      orphanCheck t
      deliverFault t fun _ => true
      modSlot Slot.takeCancel
      raiseFree .cancel
    else do
      orphanCheck t
      channelWaits (.yield n gm)
      let m ← rd gm
      checkFree (fieldOf m 63 24 = 0) .yieldMask
      let save := s.preemptAsked t
      if save then do
        releaseOf t
        match x.partner with
        | some u => releaseOf u
        | none => pure ()
      else pure ()
      modSlot fun x => { x with yieldLeft := x.deadline n, pc := x.pc + 4, tretRep := false, st := .ready, wait := .none }
      if gm = 31 then popHead else pure ()
      if save then do
        forwardPacket (.yield n gm) t true
        match x.partner with
        | some u => saveSlot u (m.setWidth 24)
        | none => pure ()
        saveSlot t (m.setWidth 24)
      else pure ()
      pure .gone) s

/-! ### depsig and cancel -/

/-- An index whose counter reached 0 enters its die's ready queue, once (R79 to R81). -/
def enterReady (l : Launch) (i : Nat) : M Unit :=
  let dies := l.dieList
  let die := (dies[i % dies.length]?).getD 0
  modLaunch l.number fun l => { l with readyq := tblSet [] l.readyq die (tblGet [] l.readyq die ++ [i]) }

/-- `depsig`: one decrement of the counter of an index of the launch (R81). HYP.ATOMIC is raised only when the other checks have passed, that
of the counter among them (R331; DEDUCED, log entry 62). -/
def execDepsig (a : GReg) (s : State) : Host.Outcome State Fault Refusal :=
  issue (.depsig a) (thenNext do
    let g ← rd a
    let i := g.toNat
    let x ← curSlot
    let l? := (← get).launch? x.launch
    let dep := match l? with
      | some l => l.dep
      | none => false
    let count := match l? with
      | some l => l.count
      | none => 0
    checkFree dep .depNotdep
    checkFree (i < count) .depRange
    match l? with
    | none => pure ()
    | some l =>
      let c := tblGet 0 l.counters i
      let cancelled := (← get).recCancelled l.recAddr
      match ← attempt hypAtomicCheck with
      | .ok _ => pure ()
      | .error e => do
        check (cancelled || c ≠ 0) .depUnderflow g
        throw e
      if cancelled then pure ()
      else do
        releaseNow
        check (c ≠ 0) .depUnderflow g
        markNonrev
        modLaunch l.number fun l => { l with counters := tblSet 0 l.counters i (c - 1) }
        if c = 1 then enterReady l i else pure ()) s

/-- What follows from CANCEL_REQ: the uncreated indices of every cancelled launch go, and its streams that no step runs
(R76, R336). -/
def applyCancel : M Unit := do
  let s ← get
  eachM (fun (l : Launch) => do
    dropUncreated l.number
    eachM (fun k => do
      if ((← get).ss.stream k).st = .stepping then pure () else dropStream k) ((← get).streamsOf l.number))
    (s.ls.launches.filter fun l => l.lost || s.recCancelled l.recAddr)

/-- CANCEL_REQ set in an OPEN record (R75, R76). -/
def requestCancel (rec : Nat) : M Unit := do
  let s ← get
  if s.recStatus rec = 0 ∧ !s.recCancel rec then do
    homeWrite (rec + 9) 1 (s.peek (rec + 9) 1 / 2 * 2 + 1)
    applyCancel
  else pure ()

/-- `cancel`: CANCEL_REQ of the record at g[A], whose level and address space must match (R75). The word that it touches is the doubleword
that holds CANCEL_REQ (R318). -/
def execCancel (a : GReg) (level : CancelLevel) (s : State) : Host.Outcome State Fault Refusal :=
  issue (.cancel a level) (thenNext do
    let va ← rd a
    check (va.toNat % 64 = 0) .memAlign va
    let tr ← checkMem va 8 .write
    consumeHome (lineAddr tr.pa)
    let s ← get
    checkFree (s.recLevel tr.pa = level.code && s.recAsid tr.pa = (← curSlot).asid) .cancelObject
    hypAtomicCheck
    hypWordCheck (tr.pa + 8) (va.toNat + 8) 8
    releaseNow
    markNonrev
    requestCancel tr.pa) s

/-! ### trap and tret -/

/-- `trap`: USER.TRAP or SYS.CALL, with TRAP.PC at the next word (R86). -/
def execTrap (n : BitVec 7) (s : State) : Host.Outcome State Fault Refusal :=
  issue (.trap n) (do
    let x ← curSlot
    let c : Cause := if n.toNat < 64 then .userTrap else .sysCall
    takeTrap (← curId) c.code (some (n.setWidth 64)) (x.pc + 4) none
    pure .gone) s

/-- `tret`: return from a trap (R87). -/
def execTret (s : State) : Host.Outcome State Fault Refusal := issue .tret returnFromTrap s

/-! ### Control registers (R88 to R90) -/

/-- HYP.CUR as it reads (R310). NONREV bit k is level k, the outermost being level 0. -/
def Slot.hypCurWord (x : Slot) : Word :=
  let nonrev := x.regions.reverse.zipIdx.foldl (fun m (r, k) => if r.nonrev then m + 2 ^ k else m) 0
  BitVec.ofNat 64 (x.hypId + x.regions.length * 2 ^ 16 + x.impl.toNat * 2 ^ 19 + nonrev * 2 ^ 20)

/-- STRM.CUR as it reads (R337). -/
def Slot.strmCurWord (x : Slot) : Word :=
  BitVec.ofNat 64 (x.strmCur.toNat + x.members.length * 2 ^ 32 + x.batchPos.toNat * 2 ^ 40)

/-- The value of a control register (R89, R90). -/
def ctlValue (s : State) (t : Nat) : CtlReg → Word
  | .taskId => BitVec.ofNat 64 t
  | .taskStat => (s.slot t).stat.setWidth 64
  | .taskPrio => (s.slot t).prio.setWidth 64
  | .taskLaunch => (s.slot t).launchRec
  | .part => (s.slot t).part
  | .yieldLeft => (s.slot t).yieldLeft.setWidth 64
  | .trapVec => (s.slot t).trapVec
  | .trapCause => (s.slot t).trapCause
  | .trapVal => (s.slot t).trapVal
  | .trapPc => (s.slot t).trapPc
  | .trapRep => (s.slot t).trapRep.setWidth 64
  | .fpMode => (s.slot t).rm.setWidth 64
  | .fpFlags => (s.slot t).fflags.setWidth 64
  | .hypCur => (s.slot t).hypCurWord
  | .hypSpillwait => (s.slot t).spillwait.setWidth 64
  | .strmCur => (s.slot t).strmCurWord
  | .chanIn => (s.slot t).chanInWord
  | .chanOut => (s.slot t).chanOutWord
  | .asid => (s.slot t).asid.setWidth 64
  | .world => if (s.slot t).world then 1 else 0
  | .clkCycle => BitVec.ofNat 64 (s.clock (dieOf t))

/-- A control register written: RO and reserved fields ignore the write, W1C bits are cleared by ones (R7, R8, R90). -/
def Slot.setCtl (x : Slot) (r : CtlReg) (w : Word) : Slot :=
  match r with
  | .taskStat => { x with stat := x.stat &&& ~~~(w.setWidth 8 &&& 0x0C#8) }
  | .taskPrio => { x with prio := w.setWidth 4 }
  | .trapVec => { x with trapVec := addrBits w }
  | .trapCause => { x with trapCause := (w.setWidth 8).setWidth 64 }
  | .trapVal => { x with trapVal := w }
  | .trapPc => { x with trapPc := addrBits w }
  | .trapRep => { x with trapRep := w.setWidth 6 }
  | .fpMode => { x with rm := w.setWidth 2 }
  | .fpFlags => { x with fflags := w.setWidth 5 }
  | .hypSpillwait => { x with spillwait := w.setWidth 32 }
  | .asid => { x with asid := w.setWidth 16 }
  | .taskId | .taskLaunch | .part | .yieldLeft | .hypCur | .strmCur | .chanIn | .chanOut | .world | .clkCycle => x

/-- `cget`: a control register read (R88); FP.FLAGS waits for the task's queued operations (R205). -/
def cgetBody (d : GReg) (r : CtlReg) : M Unit := do
  let t ← curId
  if r = .fpFlags then waitFor ((← get).queuesEmpty t) .queue else pure ()
  wr d (ctlValue (← get) t r)

/-- `cget` (R88). -/
def execCget (d : GReg) (reg : CtlReg) (s : State) : Host.Outcome State Fault Refusal :=
  issue (.cget d reg) (thenNext (cgetBody d reg)) s
/-- `cget` of FP.FLAGS: waits until every queued operation of the task has completed (R205). -/
def execCgetFpFlags (d : GReg) (s : State) : Host.Outcome State Fault Refusal :=
  issue (.cgetFpFlags d) (thenNext (cgetBody d .fpFlags)) s

/-- A channel register rebound by a word: EN, KIND and PEER are taken, PEND ends (R210, R211). -/
def rebound (w : Word) : Chan := ⟨w.getLsbD 31, false, w.getLsbD 24, w.setWidth 13⟩

/-- CHAN.IN written: the messages held are discarded, the one that g31 takes among them, and those still on their way keep their entries until
they land (R92, R214). DESIGN CHOICE, log entry 63: TRAP.VAL of CHAN.BIND for KIND 2 or 3 is the register's value before. -/
def csetChanInBody (d : GReg) : M Flow := do
  let w ← rd d
  check (fieldOf w 25 25 = 0) .chanBind (← curSlot).chanInWord
  modSlot fun x => { x with chanIn := rebound w, inq := x.inq.filter fun m => !m.landed }
  modSlot fun x => x.goOn (x.pc + 4) false
  pure .gone

/-- CHAN.OUT written (R211, R214); TRAP.VAL of CHAN.BIND as for CHAN.IN. -/
def csetChanOutBody (d : GReg) : M Unit := do
  let w ← rd d
  check (fieldOf w 25 25 = 0) .chanBind (← curSlot).chanOutWord
  modSlot fun x => { x with chanOut := rebound w }

/-- `cset`: a control register written (R88). -/
def execCset (d : GReg) (reg : CtlReg) (s : State) : Host.Outcome State Fault Refusal :=
  issue (.cset d reg) (match reg with
    | .chanIn => csetChanInBody d
    | .chanOut => thenNext (csetChanOutBody d)
    | r => thenNext do
      let w ← rd d
      modSlot fun x => x.setCtl r w) s
/-- `cset CHAN.IN` (R214). -/
def execCsetChanIn (d : GReg) (s : State) : Host.Outcome State Fault Refusal :=
  issue (.csetChanIn d) (csetChanInBody d) s
/-- `cset CHAN.OUT` (R211). -/
def execCsetChanOut (d : GReg) (s : State) : Host.Outcome State Fault Refusal :=
  issue (.csetChanOut d) (thenNext (csetChanOutBody d)) s

/-! ### inval (R396, R397) -/

/-- Whether an address space and a range are meant by an invalidation: ALL, ASID, first byte, bytes. -/
def invalHits (all : Bool) (asid : Nat) (lo n : Nat) (x : BitVec 16) (va size : Nat) : Bool :=
  (all || x.toNat = asid) && va < lo + n && lo < va + size

/-- Whether a place lies in a range that an invalidation meets. -/
def Place.hitBy (hit : BitVec 16 → Nat → Nat → Bool) (asid : BitVec 16) (p : Place) : Bool :=
  match p with
  | .mem _ va _ => hit asid va 64
  | .win _ _ _ => false

/-- Accesses of a cell that were translated in the range and are still to be performed: queue entries (R203, R241). -/
def State.inFlightOn (s : State) (cell : Nat) (hit : BitVec 16 → Nat → Nat → Bool) : Bool :=
  (List.range 8).any fun k =>
    let c := s.core (8 * cell + k)
    (c.vq.any fun e => (e.places ++ e.exps).any fun p => p.2.hitBy hit e.asid) ||
    c.mq.any fun e => e.places.any fun p => p.hitBy hit e.asid

/-- The holders that have something to drop or to complete, and every live die's own (R395, R396). -/
def State.invalHolders (s : State) (hit : BitVec 16 → Nat → Nat → Bool) : List Nat :=
  ((List.range 512).filter fun c => s.live (c / 128) && (s.inFlightOn c hit ||
     (s.ms.l1.any fun x => x.cell = c && hit x.asid x.va 64) ||
     (s.ms.tlb.any fun e => e.holder = c && hit e.asid (e.vpage * 2 ^ pageShift e.level) (2 ^ pageShift e.level)) ||
     (s.slots.any fun x => cellOf x.1 = c && x.2.wc.any fun w => hit x.2.asid w.va 64))) ++
  s.liveDies.map (512 + ·)

/-- One holder takes an invalidation (R396): translations of overlapping pages go, and of a die's walk cache the entries on a path into the
range; the L1 and the buffers merge what they hold of the range and drop it. -/
def holderDrops (h : Nat) (hit : BitVec 16 → Nat → Nat → Bool) : M Unit := do
  let s ← get
  waitFor (!s.ms.l1.any fun x => x.cell = h && hit x.asid x.va 64 && s.heldLine x.pa) .inval
  eachM replaceLine (s.ms.l1.filter fun x => x.cell = h && hit x.asid x.va 64)
  eachM (fun (x : Nat × Slot) => do
    eachM (performWc h) (x.2.wc.filter fun w => hit x.2.asid w.va 64)
    modSlotAt x.1 fun y => { y with wc := y.wc.filter fun w => !hit y.asid w.va 64 }) (s.slots.filter fun x => cellOf x.1 = h)
  modMs fun m =>
    let tlb := m.tlb.filter fun e =>
      !(e.holder = h && hit e.asid (e.vpage * 2 ^ pageShift e.level) (2 ^ pageShift e.level))
    let walks := m.walkCache.filter fun e =>
      !(512 + e.die = h && hit e.asid (e.path * 2 ^ pathShift e.level) (2 ^ pathShift e.level))
    { m with tlb := tlb, walkCache := walks }

/-- The test of an invalidation kept by a parked `inval`: ALL, ASID, first byte, bytes, then the holders awaited. -/
def keptHit : List Nat → BitVec 16 → Nat → Nat → Bool
  | all :: asid :: lo :: n :: _, x, va, size => invalHits (all = 1) asid lo n x va size
  | _, _, _, _ => false

/-- `inval`: the release, then the invalidation to every holder, the slot parked until each has acknowledged (R396). -/
def execInval (a b : GReg) (s : State) : Host.Outcome State Fault Refusal :=
  issue (.inval a b) (thenNext do
    let x ← curSlot
    match x.pend with
    | some p => do
      let s ← get
      waitFor ((p.keep.drop 4).all fun h => !s.live (if h < 512 then h / 128 else h - 512)) .inval
      modSlot fun x => { x with pend := none }
    | none => do
      let start ← rd a
      let c ← rd b
      let n := fieldOf c 39 0 * 2 ^ 16
      check (start.toNat < 2 ^ 56 && start.toNat % 2 ^ 16 = 0 && fieldOf c 46 40 = 0 && start.toNat + n ≤ 2 ^ 56)
        .invalArg start
      releaseNow
      if n = 0 then pure ()
      else do
        let kept := [(c.getLsbD 47).toNat, fieldOf c 63 48, start.toNat, n]
        let hs := (← get).invalHolders (keptHit kept)
        modSlot fun x => { x with pend := some ⟨.inval, 0, kept ++ hs, none⟩ }
        park .inval) s

end Sys2Proof.Machine
end

