-- ==== Sys2Proof/Machine/Engine.lean ====
section
/-!
DEFINITION. Engine registers, `cpy` and the Carters, and `qput` (R280, R281, R298 to R307, R412).
-/

namespace Sys2Proof.Machine

/-! ### Engine registers (R298) -/

/-- `eset`: an engine register written (R298). -/
def execEset (e : BitVec 6) (a : GReg) (s : State) : Host.Outcome State Fault Refusal :=
  issue (.eset e a) (thenNext do
    let w ← rd a
    modSlot fun x => x.setE e.toNat w) s
/-- `eget`: an engine register read (R298). -/
def execEget (e : BitVec 6) (a : GReg) (s : State) : Host.Outcome State Fault Refusal :=
  issue (.eget e a) (thenNext do wr a ((← curSlot).eval_ e.toNat)) s

/-! ### Geometry (R299, R302) -/

/-- The geometry that the engine registers hold (R299). -/
def Slot.geometry (x : Slot) : Geometry :=
  { run := (x.eval_ 0).toNat
    n := [1, 2, 3].map fun k => max 1 (x.eval_ k).toNat
    s := [4, 5, 6].map fun k => (x.eval_ k).toInt
    t := [7, 8, 9].map fun k => (x.eval_ k).toInt }

/-- The first engine register that makes a geometry invalid (R301). -/
def Slot.badGeometry (x : Slot) : Option Nat :=
  ((List.range 4 ++ [12, 13, 14, 15]).find? fun k =>
    let w := (x.eval_ k).toNat
    if k = 0 then w = 0 || 2 ^ 32 < w else if k ≤ 3 then 65536 < w else w ≠ 0)

/-- An entry of a list of numbers. -/
def nth (l : List Nat) (k : Nat) : Nat := (l[k]?).getD 1
def nthInt (l : List Int) (k : Nat) : Int := (l[k]?).getD 0

/-- The offsets of the runs, source and destination, ascending in (i3, i2, i1) (R299). -/
def Geometry.runs (g : Geometry) : List (Int × Int) :=
  (List.range (nth g.n 2)).flatMap fun (i3 : Nat) => (List.range (nth g.n 1)).flatMap fun (i2 : Nat) =>
    (List.range (nth g.n 0)).map fun (i1 : Nat) =>
      ((i1 : Int) * nthInt g.s 0 + (i2 : Int) * nthInt g.s 1 + (i3 : Int) * nthInt g.s 2,
       (i1 : Int) * nthInt g.t 0 + (i2 : Int) * nthInt g.t 1 + (i3 : Int) * nthInt g.t 2)

/-- The lowest and the highest offset that a list of strides reaches, the run's last byte included (R301). -/
def extent (g : Geometry) (st : List Int) : Int × Int :=
  let far (k : Nat) : Int := ((nth g.n k : Nat) - 1 : Int) * nthInt st k
  (min 0 (far 0) + min 0 (far 1) + min 0 (far 2),
   max 0 (far 0) + max 0 (far 1) + max 0 (far 2) + ((g.run : Nat) : Int) - 1)

/-- The 4 KiB blocks that n bytes from an address meet, ascending. -/
def blocksOf (a n : Nat) : List Nat := if n = 0 then [] else upTo (a / 4096) ((a + n - 1) / 4096)

/-- The blocks of 4 KiB that a side of a copy meets, in the order that its runs reach them. -/
def Geometry.blocks (g : Geometry) (base : Nat) (dstSide : Bool) : List Nat :=
  firsts (g.runs.flatMap fun r => blocksOf ((base : Int) + if dstSide then r.2 else r.1).toNat g.run)

/-- The parts of runs whose destination lies in a block: source address, destination address, bytes (R302). -/
def Geometry.parts (g : Geometry) (src dst block : Nat) : List (Nat × Nat × Nat) :=
  g.runs.filterMap fun r =>
    let d := ((dst : Int) + r.2).toNat
    let a := ((src : Int) + r.1).toNat
    let lo := max d (4096 * block)
    let hi := min (d + g.run) (4096 * block + 4096)
    if lo < hi then some (a + (lo - d), lo, hi - lo) else none

/-! ### cpy (R300, R301) -/

/-- The tiles on the scratchpad side of a copy, ascending. -/
def copyTiles (form : CpyForm) (g : Geometry) (src dst n : Nat) : List Nat :=
  match form with
  | .mm => []
  | .mt => (List.range n).filter fun t => (g.blocks dst true).contains t
  | .tm => (List.range n).filter fun t => (g.blocks src false).contains t

/-- What a `cpy` names: its tiles, and its barrier with the barrier's tile (R402). -/
def cpyNames (form : CpyForm) (a b : GReg) (bar : Bool) (_ : State) (x : Slot) : List Named :=
  (if x.badGeometry.isSome then []
   else (copyTiles form x.geometry (x.gval a).toNat (x.gval b).toNat (nTiles x.part)).map .tile) ++
  (if bar then [.barrier (x.eval_ 10).toNat, .tile ((x.eval_ 10).toNat / 4096)] else [])

/-- The scratchpad side of a copy: every offset within the scratchpad, every tile claimed (R118, R301). TILE.RANGE gives the lowest
offset where it is negative, else the highest (R115; DEDUCED, log entry 66). -/
def claimTiles (form : CpyForm) (g : Geometry) (src dst : Nat) : M (List Nat) := do
  let n := nTiles (← curSlot).part
  let (base, e) := match form with
    | .mt => (dst, extent g g.t)
    | _ => (src, extent g g.s)
  if form = .mm then pure ()
  else do
    check (decide (0 ≤ (base : Int) + e.1)) .tileRange (wrap64 ((base : Int) + e.1))
    check (decide ((base : Int) + e.2 < ((4096 * n : Nat) : Int))) .tileRange (wrap64 ((base : Int) + e.2))
  let ts := copyTiles form g src dst n
  eachM (fun t => do
    holdEngineTile t
    if form = .mt then claimFill t else claimDrain t) ts
  pure ts

/-- The extent check of a memory side (R301). -/
def checkExtent (base : Nat) (e : Int × Int) : M Unit := do
  if (base : Int) + e.1 < 0 then raise .memRange (wrap64 ((base : Int) + e.1))
  else if (2 : Int) ^ 56 ≤ (base : Int) + e.2 then raise .memRange (wrap64 ((base : Int) + e.2))
  else pure ()

/-- CheckAccess on the first byte of a side; in the stream window the command meets the stream itself (R301, R338). -/
def checkFirst (va : Word) (k : Acc) : M (Option Place) := do
  if inWindow va.toNat then pure none
  else do
    let p ← checkAccess va 1 k
    pure (some p)

/-- The checks of the memory sides of a copy, the source's first: STRM.HYP gives the first address in the window, HYP.REMOTE follows it
(R301). -/
def checkSides (form : CpyForm) (g : Geometry) (src dst : Word) : M Unit := do
  if form = .tm then pure ()
  else do
    checkExtent src.toNat (extent g g.s)
    let _ ← checkFirst src .read
  if form = .mt then pure ()
  else do
    let ed := extent g g.t
    checkExtent dst.toNat ed
    let p ← checkFirst dst .write
    let s ← get
    let k := s.hyps.eff (← curSlot).hypId
    let lo := ((dst.toNat : Int) + ed.1).toNat
    let hi := ((dst.toNat : Int) + ed.2).toNat
    check (k = 0 || hi < 0x00FFFFFFFFC00000) .strmHyp (BitVec.ofNat 64 (max lo 0x00FFFFFFFFC00000))
    match p with
    | some (.mem pa _ _) => checkFree (k = 0 || pkgOf pa = s.ws.own) .hypRemote
    | _ => pure ()

/-- The commands of a Carter, in its issue order. -/
def State.carterCmds (s : State) (die carter : Nat) : List CarterCmd :=
  s.es.cmds.filter fun c => c.die = die && c.carter = carter

/-- The Carter of a die that takes the next command: the fewest commands, ties to the lowest number; none where each holds 4
(R18, R301). -/
def State.freeCarter (s : State) (die : Nat) : Option Nat :=
  (List.range 4).findSome? fun n => findUp (fun c => (s.carterCmds die c).length = n) 16 0

/-- A command enqueued, with the next number. -/
def enqueueCmd (c : CarterCmd) : M Unit :=
  modEs fun e => { e with cmds := e.cmds ++ [{ c with id := e.nextCmd }], nextCmd := e.nextCmd + 1 }

/-- The issue of a `cpy` (R301). -/
def cpyIssue (form : CpyForm) (a b : GReg) (bar : Bool) : M Unit := do
  releaseNow
  let x ← curSlot
  let t ← curId
  let src ← rd a
  let dst ← rd b
  match x.badGeometry with
  | some k => raise .cpyConfig (BitVec.ofNat 64 k)
  | none => pure ()
  let g := x.geometry
  if bar then do
    let _ ← checkBarAt (x.eval_ 10)
    holdEngineTile ((x.eval_ 10).toNat / 4096)
  else pure ()
  let ts ← claimTiles form g src.toNat dst.toNat
  checkSides form g src dst
  match (← get).freeCarter (dieOf t) with
  | none => park .carter
  | some c => do
    let st : TileState := if form = .mt then .filling else .draining
    let twin := x.partner.map coreOf
    eachM (fun k => do
      setTileAt (coreOf t) k st 1
      match twin with
      | some u => setTileAt u k st 1
      | none => pure ()) ts
    enqueueCmd
      { id := 0, die := dieOf t, carter := c, form := form, geo := g, src := src.toNat, dst := dst.toNat,
        bar := if bar then some (x.eval_ 10).toNat else none, signal := (x.eval_ 11).toNat, slot := some t, core := coreOf t,
        asid := x.asid, sys := x.priv, world := x.world, hyp := x.hypId, strm := strmKey x.asid x.strmCur.toNat,
        serial := ((← get).ss.stream (strmKey x.asid x.strmCur.toNat)).serial, launch := x.launch, done := 0, tiles := ts, twin := twin, queue := none, timer := none, faulted := false }

/-- `cpy.mm`: memory to memory (R300). -/
def execCpyMm (a b : GReg) (bar : Bool) (s : State) : Host.Outcome State Fault Refusal :=
  issueNamed (.cpyMm a b bar) (cpyNames .mm a b bar) (thenNext (cpyIssue .mm a b bar)) s
/-- `cpy.mt`: memory to scratchpad (R300). -/
def execCpyMt (a b : GReg) (bar : Bool) (s : State) : Host.Outcome State Fault Refusal :=
  issueNamed (.cpyMt a b bar) (cpyNames .mt a b bar) (thenNext (cpyIssue .mt a b bar)) s
/-- `cpy.tm`: scratchpad to memory (R300). -/
def execCpyTm (a b : GReg) (bar : Bool) (s : State) : Host.Outcome State Fault Refusal :=
  issueNamed (.cpyTm a b bar) (cpyNames .tm a b bar) (thenNext (cpyIssue .tm a b bar)) s

/-! ### A Carter at work (R302 to R305, R412) -/

/-- The agent that a command is: it uses no L1. -/
def CarterCmd.agent (c : CarterCmd) : Agent :=
  { die := c.die, cell := 2 ^ 20, asid := c.asid, sys := c.sys, secure := c.world, hyp := c.hyp, strm := c.strm,
    serial := c.serial, ctx := ctxOf c.asid.toNat c.launch none }

/-- Bytes put into an engine's buffer, which an injection may corrupt, and taken out of it again (R144, R145, R415). -/
def throughBuffer (ag : Agent) (p : Place) (n : Nat) : M Unit := do
  match p with
  | .mem pa _ _ => consumeAs ag.ctx 4 (lineAddr pa) (← injected ag.die 4 (inWords pa n) .good)
  | .win _ _ _ => pure ()

/-- n bytes of a side of a copy in memory, checked piece by piece, a piece lying in one line; f bounds the pieces. -/
def engineRead (ag : Agent) : Nat → Nat → Nat → M Nat
  | 0, _, _ => pure 0
  | f + 1, va, n =>
    if n = 0 then pure 0
    else do
      let k := min n (64 - va % 64)
      let (p, _) ← checkAccessBy ag .allowed (BitVec.ofNat 64 va) 1 .read
      let v ← readPlace ag [] false (p.athome true) k
      throughBuffer ag p k
      let r ← engineRead ag f (va + k) (n - k)
      pure (v + 2 ^ (8 * k) * r)

/-- Room for a store of an engine: a version entry, or a window page; none left is VERSION.FULL, and true for a page that
must wait (R317, R339). -/
def engineRoom (ag : Agent) (p : Place) (n : Nat) : M Bool := do
  let s ← get
  match p with
  | .mem pa va _ =>
    let k := s.hyps.eff ag.hyp
    if k = 0 || s.hyps.discards k then pure true
    else if pkgOf pa ≠ s.ws.own then raiseFree .hypRemote
    else match s.withVersion (lineAddr pa) k with
      | some s => do
        set s
        pure true
      | none => raise .versionFull (BitVec.ofNat 64 va)
  | .win key _ off => do
    residentEntries key (off / 65536) (entriesOf off n)
    match ← attempt (ownEntries key (off / 65536) (entriesOf off n)) with
    | .ok _ => pure true
    | .error _ => pure false

/-- The places of n bytes that an engine stores to, with room for each; none where a window page must wait. -/
def enginePlaces (ag : Agent) : Nat → Nat → Nat → M (Option (List (Place × Nat)))
  | 0, _, _ => pure (some [])
  | f + 1, va, n =>
    if n = 0 then pure (some [])
    else do
      let k := min n (64 - va % 64)
      let (p, _) ← checkAccessBy ag .allowed (BitVec.ofNat 64 va) 1 .write
      if ← engineRoom ag p k then do
        match ← enginePlaces ag f (va + k) (n - k) with
        | some r => pure (some ((p.athome true, k) :: r))
        | none => pure none
      else pure none

/-- The clean bytes that a cell holds of a line dropped. -/
def dropClean (cell line : Nat) : M Unit := modMs fun m => MemSys.l1Tidy { m with l1 := m.l1.map fun (x : L1Line) =>
  if x.cell = cell ∧ x.pa = line ∧ x.hyp = 0 then { x with valid := x.kept } else x }

/-- A number stored at a list of places, the lowest bytes first. A clean copy of what is overwritten does not stay in a cell that is given,
whose tasks may learn of the copy by its barrier or its tiles (R164, R165). -/
def engineStore (ag : Agent) (cell : Option Nat) : List (Place × Nat) → Nat → M Unit
  | [], _ => pure ()
  | (p, k) :: r, v => do
    storePlace ag none p k (v % 2 ^ (8 * k))
    match p, cell with
    | .mem pa _ _, some c => dropClean c (lineAddr pa)
    | _, _ => pure ()
    engineStore ag cell r (v / 2 ^ (8 * k))

/-- The bytes of a part of a sector at its source. -/
def CarterCmd.readPart (c : CarterCmd) (core : Nat) (p : Nat × Nat × Nat) : M Nat := do
  match c.form with
  | .tm => do
    let e := tblGet .good ((← get).core core).poison (p.1 / 4096)
    let b ← injected c.die 4 (inWords (2 ^ 40 * core + p.1) p.2.2) .good
    let ok ← mxRead core 2 (2 ^ 40 * core + p.1) e
    if ok && (← mxRead core 4 (2 ^ 40 * core + p.1) b) then pure (((← get).core core).scratchRead p.1 p.2.2)
    else raise .memIntegrity (← poolVal)
  | _ => engineRead c.agent (p.2.2 / 64 + 2) p.1 p.2.2

/-- The bytes of a part of a sector written at its destination; false where it must wait. -/
def CarterCmd.writePart (c : CarterCmd) (p : Nat × Nat × Nat) (v : Nat) : M Bool := do
  match c.form with
  | .mt => do
    scratchStore c.core p.2.1 p.2.2 v
    match c.twin with
    | some u => scratchStore u p.2.1 p.2.2 v
    | none => pure ()
    pure true
  | _ => do
    match ← enginePlaces c.agent (p.2.2 / 64 + 2) p.2.1 p.2.2 with
    | some ps => do
      engineStore c.agent (c.slot.map fun _ => c.core / 8) ps v
      pure true
    | none => pure false

/-- The bytes of every part of a sector; for `cpy.tm` of a pair both copies must agree (R412). SKEW is 0: the
bytes differ; which packet SEQ counts is not stated, and it is free (R400, R411; log entry 5). -/
def CarterCmd.readSector (c : CarterCmd) (parts : List (Nat × Nat × Nat)) : M (List Nat) := do
  let vs ← mapEach (c.readPart c.core) parts
  match c.form, c.twin with
  | .tm, some u => do
    let ws ← mapEach (c.readPart u) parts
    check (vs = ws) .redundancy (redundancyVal false (← freshWord).toNat)
  | _, _ => pure ()
  pure vs

/-- The parts written one after another; false where one must wait. -/
def CarterCmd.writeSector (c : CarterCmd) : List ((Nat × Nat × Nat) × Nat) → M Bool
  | [] => pure true
  | (p, v) :: r => do
    if ← c.writePart p v then c.writeSector r else pure false

/-- A delivery of bytes to the barrier of a command on a core; one that would overflow is not applied (R126 to R128). -/
def deliverTo (core off n : Nat) : M Unit := do
  match (((← get).core core).bar off).deliver n with
  | some b => modCoreAt core fun k => k.setBar off b
  | none => raiseFree .barOverflow

/-- The sectors of a command, as blocks of destination addresses (R302). -/
def CarterCmd.sectors (c : CarterCmd) : List Nat := c.geo.blocks c.dst true

/-- The COMMAND field of a form (R400). -/
def CpyForm.command : CpyForm → Nat
  | .mm => 0 | .mt => 1 | .tm => 2

/-- A command replaced by its next state. -/
def putCmd (c : CarterCmd) : M Unit := modEs fun e => { e with cmds := e.cmds.map fun d => if d.id = c.id then c else d }
/-- A command gone from its Carter. -/
def dropCmd (id : Nat) : M Unit := modEs fun e => { e with cmds := e.cmds.filter fun d => d.id ≠ id }

/-- The tiles of a command given a state on both copies' cores. -/
def CarterCmd.setTiles (c : CarterCmd) (st : TileState) : M Unit := eachM (fun t => do
  setTileAt c.core t st 0
  match c.twin with
  | some u => setTileAt u t st 0
  | none => pure ()) c.tiles

/-- The engine fault of a command, once, against its task and the task's copy (R402, R412); an overflow
names the barrier and its tile only (R128). -/
def CarterCmd.fault (c : CarterCmd) (code : Nat) (val : Option Word) : M Unit := do
  let v ← match val with
    | some v => pure v
    | none => freshWord
  let f : EngFault := ⟨engineCode c.form.command code, v,
    (if code = Cause.barOverflow.code then [] else c.tiles.map .tile) ++ (match c.bar with
      | some b => [.barrier b, .tile (b / 4096)]
      | none => [])⟩
  match c.slot with
  | some t => do
    if c.faulted then pure ()
    else do
      addFault t f
      match ((← get).slot t).partner with
      | some u => addFault u f
      | none => pure ()
  | none => pure ()

/-- The signal of a command decremented: a doubleword at its virtual address, reached as the command reaches memory (R296,
R302). -/
def CarterCmd.signalDone (c : CarterCmd) : M Unit := do
  if c.signal = 0 then pure ()
  else do
    match ← checkAccessBy { c.agent with hyp := 0 } .none (BitVec.ofNat 64 (c.signal % 2 ^ 56)) 1 .rmw with
    | (.mem pa _ _, _) => do
      consumeHomeAs c.agent.ctx (lineAddr pa)
      signalDown pa 1
    | (.win _ _ _, _) => pure ()

/-- A command stopped at a sector (R303): its tiles, its fault; `bad` is what a COPY packet's failure does to its queue. -/
def CarterCmd.stop (c : CarterCmd) (code : Nat) (val : Option Word) (bad : Nat → Nat → M Unit) : M Unit := do
  c.setTiles (if c.form = .mt then .empty else .ready)
  c.fault code val
  dropCmd c.id
  match c.queue with
  | some (qcb, index, _) => bad qcb index
  | none => pure ()

/-- A command finished (R302): its tiles, its signal, its entry. -/
def CarterCmd.finish (c : CarterCmd) (bad : Nat → Nat → M Unit) : M Unit := do
  match ← attempt c.signalDone with
  | .ok _ => do
    c.setTiles (if c.form = .mt then .ready else .empty)
    dropCmd c.id
    match c.queue with
    | some (qcb, index, intr) => packetDone qcb index intr
    | none => pure ()
  | .error (.trap code val) => c.stop code val bad
  | .error (.park _) => pure ()

/-- The deliveries of a sector of n bytes (R302, R412); an overflow is a fault that does not stop the command (R128). -/
def CarterCmd.deliver (c : CarterCmd) (n : Nat) : M CarterCmd := do
  match c.bar with
  | none => pure c
  | some off => do
    let r ← attempt (deliverTo c.core off n)
    let q ← match c.twin with
      | some u => attempt (deliverTo u off n)
      | none => pure (.ok ())
    match (match r with
      | .ok _ => q
      | e => e) with
    | .error (.trap code val) => do
      c.fault code val
      pure { c with faulted := true }
    | _ => pure c

/-- A sector without room for its window pages waits up to HYP.SPILLWAIT cycles, then the command stops with STRM.FULL
(R339). -/
def CarterCmd.waitRoom (c : CarterCmd) (bad : Nat → Nat → M Unit) : M Unit := do
  let s ← get
  let now := s.clock c.die
  let wait := match c.slot with
    | some t => (s.slot t).spillwait.toNat
    | none => 0
  match c.timer with
  | none => if wait = 0 then c.stop Cause.strmFull.code none bad else putCmd { c with timer := some (now + wait) }
  | some t => if t ≤ now then c.stop Cause.strmFull.code none bad else pure ()

/-- One sector of a command, and its end where it was the last (R302, R303). -/
def CarterCmd.run (c : CarterCmd) (bad : Nat → Nat → M Unit) : M Unit := do
  let bs := c.sectors
  match bs[c.done]? with
  | none => c.finish bad
  | some b =>
    let parts := c.geo.parts c.src c.dst b
    match ← attempt (do c.writeSector (parts.zip (← c.readSector parts))) with
    | .error (.trap code val) => c.stop code val bad
    | .error (.park _) => pure ()
    | .ok false => c.waitRoom bad
    | .ok true => do
      let c ← c.deliver (parts.foldl (fun n p => n + p.2.2) 0)
      let c := { c with done := c.done + 1, timer := none }
      putCmd c
      if bs.length ≤ c.done then c.finish bad else pure ()

/-! ### qput (R280, R281, R306) -/

/-- READ_INDEX of the newest copy. -/
def State.readIndex (s : State) (qcb : Nat) : Nat := s.peek (s.ms.newestCopy qcb + 8) 8

/-- The index w of a ring of 2^l entries is free (R281). -/
def State.indexFree (s : State) (qcb l w : Nat) : Bool := w < s.readIndex qcb + 2 ^ l

/-- A number stored within one line at its home, as the task's stores of `mstore` are. -/
def storeHome (pa n v : Nat) : M Unit := mstoreAt pa n v

/-- The packet written once its index is free: body, header, NOTIFY; the claim has made the task's release (R306). -/
def qputWrite (p l w qcb entry : Nat) : M Unit := do
  storeHome (entry + 8) 56 (p / 2 ^ 64)
  let header := p % 2 ^ 64
  storeHome entry 8 (header - header / 256 % 2 * 256 + w / 2 ^ l % 2 * 256)
  storeHome (qcb + 16) 8 ((w + 1) % 2 ^ 63)

/-- The access checks of the ring, one for each 64 KiB page (R306). -/
def checkRing (ring l : Nat) : M Unit := checkRange (pagesOf ring (2 ^ l * 64)) ring

/-- The claim of an index: the packet, L, the index, the QCB and the entry, kept until the index is free (R306). -/
def qputClaim (a b : GReg) : M (List Nat) := do
  let ga ← rd a
  let gb ← rd b
  check (ga.toNat % 128 = 0) .memAlign ga
  check (gb.toNat % 64 = 0) .memAlign gb
  let x ← curSlot
  let ag ← curAgent
  let rt ← checkMem ga 128 .read
  let l := (← readPlace ag x.wc true (bypassed x (.mem (rt.pa + 48) (ga.toNat + 48) rt.cached)) 1) % 32
  checkFree (4 ≤ l && l ≤ 16) .queueConfig
  let pt ← checkMem gb 64 .read
  let p ← readPlace ag x.wc true (bypassed x (.mem pt.pa gb.toNat pt.cached)) 64
  let qt ← checkMem ga 128 .write
  let ring ← readPlace ag x.wc true (bypassed x (.mem (rt.pa + 40) (ga.toNat + 40) rt.cached)) 8
  checkRing ring l
  releaseNow
  wordToHome qt.pa 8
  consumeHome (lineAddr qt.pa)
  let w ← peek qt.pa 8
  let et ← checkMem (BitVec.ofNat 64 (ring + w % 2 ^ l * 64)) 64 .write
  hypAtomicCheck
  hypWordCheck qt.pa ga.toNat 8
  hypWordCheck (qt.pa + 16) (ga.toNat + 16) 8
  hypWordCheck et.pa (ring + w % 2 ^ l * 64) 64
  markNonrev
  homeMerge (lineAddr qt.pa) (lineOf (qt.pa % 64) 8 (w + 1)) (byteMask (qt.pa % 64) 8) none none
  pure [p, l, w, qt.pa, et.pa]

/-- `qput`: a packet published into a queue (R306). -/
def execQput (a b : GReg) (s : State) : Host.Outcome State Fault Refusal :=
  issue (.qput a b) (thenNext do
    match (← curSlot).pend with
    | none => do
      let kept ← qputClaim a b
      modSlot fun x => { x with pend := some ⟨.qput, 0, kept, none⟩ }
    | some _ => pure ()
    match ((← curSlot).pend.map (·.keep)).getD [] with
    | [p, l, w, qcb, entry] => do
      waitFor ((← get).indexFree qcb l w) .space
      qputWrite p l w qcb entry
    | _ => pure ()
    modSlot fun x => { x with pend := none }) s

end Sys2Proof.Machine
end

