-- ==== Sys2Proof/Machine/Start.lean ====
section
/-!
DEFINITION. What firmware publishes at boot stage 7, and the placing of a program from outside the machine (R388 to R391,
R417, R419; log entries 2 and 6).
-/

namespace Sys2Proof.Machine

/-- The base of a die's firmware granule (R419). -/
def fwBase (d : Nat) : Nat := 2 ^ 38 * d

/-- The MiB of state store of a die (R13, R14). -/
def storeMiB : Nat := 256

/-- A table with one entry for each die. -/
def perDie (f : Nat → Nat) : Tbl Nat := (List.range 4).foldl (fun t d => tblSet 0 t d (f d)) []

/-- The addresses that firmware publishes on the lowest-numbered live die (R419); log entry 6 names them. -/
def FwTables.published (d : Nat) : FwTables :=
  { asidTab := fwBase d + 0x80000, hypTab := fwBase d + 0x180000, sysHnd := fwBase d + 0x100000,
    qtab := perDie fun k => fwBase k + 0x20000, elog := perDie fun k => fwBase k + 0x30000,
    inject := perDie fun k => fwBase k + 0x60000, versionMiB := 32, pageMiB := 96, spillMiB := 64, generation := 1 }

/-- The boot information block of 160 bytes, its lowest byte at offset 0 (R419). -/
def bootBlock (s : State) : Nat :=
  let f := s.pf.fw
  let w := s.ws
  let quad (t : Tbl Nat) : Nat := tblGet 0 t 0 + tblGet 0 t 1 * 2 ^ 64 + tblGet 0 t 2 * 2 ^ 128 + tblGet 0 t 3 * 2 ^ 192
  let up := (List.range 6).foldl (fun m p => if (tblGet .down w.ports p).up then m + 2 ^ p else m) 0
  s.pf.live.toNat + 2 ^ 16 + f.generation % 2 ^ 32 * 2 ^ 32 +
  (w.own + w.place.1 * 2 ^ 16 + w.place.2.1 * 2 ^ 24 + w.place.2.2 * 2 ^ 32) * 2 ^ 64 +
  ((w.torus.1 - 1) + (w.torus.2.1 - 1) * 2 ^ 8 + (w.torus.2.2 - 1) * 2 ^ 16 + up * 2 ^ 24) * 2 ^ 128 +
  f.asidTab * 2 ^ 192 + f.hypTab * 2 ^ 256 + f.sysHnd * 2 ^ 320 + quad f.qtab * 2 ^ 384 + quad f.elog * 2 ^ 640 +
  quad f.inject * 2 ^ 896 + (f.versionMiB + f.pageMiB * 2 ^ 16 + f.spillMiB * 2 ^ 32) * 2 ^ 1152 +
  ((if s.pf.active then s.pf.imageB.version else s.pf.imageA.version) + s.pf.fusedSvn * 2 ^ 32) * 2 ^ 1216

/-- The generation that the next write of the block carries. -/
def FwTables.next (f : FwTables) : FwTables := { f with generation := f.generation + 1 }

/-- The block written on the lowest-numbered live die (R419, R420). -/
def writeBlock : M Unit := do
  let s ← get
  homeBytes 8 (s.fabric (fwBase s.firstDie)) 160 (bootBlock s)

/-! ### A program from outside (log entry 2) -/

/-- The virtual and local physical address at which the placed program starts, and its launch record's. -/
def startPc : Nat := 0x20000000
def startRec : Nat := 0x30000000

/-- A leaf that maps a 1 GiB page for every access of every task (R391). -/
def openLeaf : Nat := 0x2BF

/-- The launch that the placed program runs under. -/
def startLaunch : Launch :=
  { number := 1, order := 0, recAddr := startRec, recVa := BitVec.ofNat 64 startRec, signal := none,
    pc := BitVec.ofNat 64 startPc, args := 0, part := 0x41, budget := 65535, sx := 1, sy := 1, sz := 1, quota := 8, prio := 0,
    vw := 0, mw := 0, keymode := 0, chmode := 0, world := false, sys := true, dies := 15, tableDies := 15, dep := false, paired := false,
    reissuable := false, asid := 0, master := 0, acceptedDies := 15, acceptedMaster := 0, handed := 1, left := 0, chunks := [],
    reissue := [], counters := [], keys := [], readyq := [], place := [(0, 1)], finished := [], queue := none,
    faulted := false, lost := false, preempted := 0 }

/-- The task of the placed program, as R64 creates it. -/
def startTask : Slot :=
  { Slot.empty with
    st := .ready, pc := BitVec.ofNat 64 startPc, yieldLeft := 65535, stat := 1, launchRec := BitVec.ofNat 64 startRec,
    launch := 1, part := 0x002E000000000041#64, g := [(7, 0x000000010000F080#64)] }

/-- Tables that map the first GiB of address space 0 on itself, and the record of the launch. -/
def startMemory (s : State) : State :=
  let s := { s with pf := { s.pf with fw := .published 0, stage := 8, live := 15, powered := true } }
  let a := s.pf.fw.asidTab
  let s := s.poke (s.fabric a) 8 (0x10000000 + 1)
  let s := s.poke (s.fabric 0x10000000) 8 (0x10001000 / 256 * 2 ^ 16 + 1)
  let s := s.poke (s.fabric 0x10001000) 8 (0x10002000 / 256 * 2 ^ 16 + 1)
  let s := s.poke (s.fabric 0x10002000) 8 (s.ws.own * 2 ^ 48 + openLeaf)
  s.poke (s.fabric startRec) 8 1

/-- The state with the program's launch and its one task placed on core 0, slot 0, which the next step runs. -/
def startProgram (s : State) : State :=
  let s := startMemory s
  let s := { s with agenda := [], turn := 0, ls := { s.ls with launches := startLaunch :: s.ls.launches.filter fun l => l.number ≠ 1, accepted := s.ls.accepted + 1 } }
  (s.setCore 0 { Core.reset with part := startTask.part }).setSlot 0 startTask

end Sys2Proof.Machine
end

