-- ==== Sys2Proof/Machine/Fetch.lean ====
section
/-!
DEFINITION. Which slot issues next, fetching a word, and what the core keeps of an issue (R51, R57, R58, R60, R99).
-/

namespace Sys2Proof.Machine

/-- The core whose turn it is: the first with a READY slot, from `turn` up, that has not issued in this cycle already (log entry 4). -/
def State.nextCore (s : State) : Option Nat :=
  if s.pf.powered then
    (s.slots.find? fun x => x.2.st = .ready && decide (s.turn ≤ coreOf x.1) && !s.early.contains (coreOf x.1)).map fun x => coreOf x.1
  else none

/-- The eight slots in the order that a core with rotation pointer p examines them (R60). -/
def rotated (p : Nat) : List Nat := (List.range 8).map fun k => (p + 1 + k) % 8

/-- The slot from which a core issues next (R60). -/
def State.chosenOn (s : State) (c : Nat) : Option Nat :=
  ((rotated (s.core c).rot.toNat).map fun k => 8 * c + k).find? fun t => (s.slot t).st = .ready

/-- Where an instruction address lies (R57, R99, R338): its place for a fetch. -/
def fetchPlace (va : Nat) : M Nat := do
  if va = 2 ^ 56 then raise .memRange (BitVec.ofNat 64 va)
  else
    match ← checkAccessBy (← curAgent) .none (BitVec.ofNat 64 va) 4 .fetch with
    | (_, some t) => pure t.pa
    | (_, none) => raise .strmWindow (BitVec.ofNat 64 va)

/-- FetchWord, integrity-checked at the home (R51, R57, R58). -/
def fetchWord (va : Nat) : M Nat := do
  let pa ← fetchPlace va
  consumeHome (lineAddr pa)
  peek pa 4

/-- TRAP.PC of a fetch that fails: the fall-through past the last word reports that word (R99). -/
def fetchTrapPc (pc : Word) : Word := if pc = 0x0100000000000000#64 then pc - 4 else pc

/-- What a slot fetches: the instruction, or the word that is none, or the state after the trap of the fetch. -/
inductive Fetched where
  | instr (i : Instr) (s : State)
  | bad (w : Nat) (s : State)
  | trapped (s : State)

/-- The fetch of slot t (R51). -/
def fetchAt (t : Nat) (s : State) : Fetched :=
  let s := { s with cur := t }
  let pc := (s.slot t).pc
  match fetchWord pc.toNat s with
  | .ok w s' =>
    match decode (wordBytes w) with
    | .ok (i, _) => .instr i s'
    | .error _ => .bad w s'
  | .error (.trap code val) s' => .trapped (runM (takeTrap t code val (fetchTrapPc pc) none) s')
  | .error (.park w) s' => .trapped (runM (parkSlot t w) s')

/-- Whether a core's next instruction passes a test. -/
def State.nextIs (s : State) (p : Instr → Bool) (c : Nat) : Bool :=
  match s.chosenOn c with
  | some t => (match fetchAt t s with
    | .instr i _ => p i
    | _ => false)
  | none => false

/-- The cores of the cell of a core, after it, that have a READY slot and have not issued in this cycle. -/
def State.laterInCell (s : State) (c : Nat) : List Nat :=
  firsts ((s.slots.filter fun x => x.2.st = .ready && decide (c < coreOf x.1) && coreOf x.1 / 8 = c / 8 &&
    !s.early.contains (coreOf x.1)).map fun x => coreOf x.1)

def isOclaim : Instr → Bool
  | .oclaim _ _ => true
  | _ => false
def isOrelease : Instr → Bool
  | .orelease _ => true
  | _ => false

/-- The core that issues instead of one: of the releases and claims of a cell's operand slots in one cycle the releases come first (R240). -/
def State.ahead (s : State) (c : Nat) : Option Nat :=
  match s.laterInCell c with
  | [] => none
  | l => if s.nextIs isOclaim c then l.find? (s.nextIs isOrelease) else none

/-- The slot from which the next instruction issues (R60, R240). -/
def State.chosen (s : State) : Option Nat :=
  match s.nextCore with
  | some c => s.chosenOn ((s.ahead c).getD c)
  | none => none

/-- After an issue by slot t: unless it parked, it is the core's p, and the next core has its turn (R60); a core that issued ahead of another is
noted instead (R240). -/
def issued (t : Nat) (ahead : Bool) (s : State) : State :=
  if (s.slot t).st = .parked then s
  else
    let s := s.setCore (coreOf t) { s.core (coreOf t) with rot := BitVec.ofNat 3 t }
    if ahead then { s with early := coreOf t :: s.early } else { s with turn := coreOf t + 1 }

/-- The physical address of the word that slot t fetches next, if it can. -/
def fetchHome (t : Nat) (s : State) : Option Nat :=
  match fetchPlace (s.slot t).pc.toNat { s with cur := t } with
  | .ok pa _ => some pa
  | .error _ _ => none

/-- The state with a word of n bits where the next step fetches, and where no slot would fetch, with the program of log
entry 2 placed first; the line it lies in is made whole. -/
def placeWord (w : Nat) (s : State) : State :=
  let put (pa : Nat) (s : State) : State := s.poke pa 4 (w % 2 ^ 32)
  let s := { s with agenda := [] }
  match s.chosen with
  | some t =>
    match fetchHome t s with
    | some pa => put pa { s with ms := { s.ms with check := tblSet .good s.ms.check (lineAddr pa) .good } }
    | none => put (s.fabric startPc) (startProgram s)
  | none => put (s.fabric startPc) (startProgram s)

end Sys2Proof.Machine
end

