-- ==== Sys2Proof/Machine/Reduce.lean ====
section
/-!
DEFINITION. Reduction windows: `rwin`, `rclose`, `ramo`, `rwait`, and what the home of a window does (R357, R375 to R386).
-/

namespace Sys2Proof.Machine

/-! ### Status codes and merging (R357, R375, R376) -/

def rDone : Nat := 0
def rFull : Nat := 1
def rOverlap : Nat := 2
def rNoWin : Nat := 3
def rAborted : Nat := 4
def rStale : Nat := 5
def rAhead : Nat := 6
def rNone : Nat := 7

/-- Before (R357): q ranks ahead of p. -/
def amaxBefore (q p : Word) : Bool :=
  let qv := FpFmt.f32.decode (q.toNat / 2 ^ 32)
  let pv := FpFmt.f32.decode (p.toNat / 2 ^ 32)
  let qi := q.toNat % 2 ^ 32
  let pi := p.toNat % 2 ^ 32
  if pv.isNan && !qv.isNan then true
  else if qv.isNan then pv.isNan && decide (qi < pi)
  else if belowVal pv qv then true
  else q.toNat / 2 ^ 32 = p.toNat / 2 ^ 32 && decide (qi < pi)

/-- The merge of two contributions (R357, R376). -/
def redMerge (op : RedOp) (a b : Word) : Word :=
  match op with
  | .iadd => a + b
  | .fadd32 => BitVec.ofNat 64 (addBits .f32 .rne (a.toNat % 2 ^ 32) (b.toNat % 2 ^ 32)).1
  | .fadd64 => BitVec.ofNat 64 (addBits .fp64 .rne a.toNat b.toNat).1
  | .and => a &&& b
  | .or => a ||| b
  | .xor => a ^^^ b
  | .imin => if a.toInt ≤ b.toInt then a else b
  | .imax => if a.toInt ≤ b.toInt then b else a
  | .fmin => BitVec.ofNat 64 (minMaxBits .f32 false (a.toNat % 2 ^ 32) (b.toNat % 2 ^ 32)).1
  | .fmax => BitVec.ofNat 64 (minMaxBits .f32 true (a.toNat % 2 ^ 32) (b.toNat % 2 ^ 32)).1
  | .amax => if amaxBefore b a then b else a

/-- A value merged into an element that may hold none yet; an `.amax` element starts at its own value (R357). -/
def redInto (op : RedOp) (old : Option Word) (v : Word) : Word :=
  match old, op with
  | some a, op => redMerge op a v
  | none, .amax => redMerge .amax 0xFF800000FFFFFFFF#64 v
  | none, _ => v

/-! ### The home of a window (R378, R379) -/

/-- A window of the package by its index. -/
def State.window (s : State) (i : Nat) : Option Window := tblGet none s.ws.windows i
/-- A window replaced, or closed. -/
def putWindow (i : Nat) (w : Option Window) : M Unit := modWs fun x => { x with windows := tblSet none x.windows i w }

/-- Every origin of a contribution gets a delivery (R378). -/
def deliverRed (c : Contribution) (status : Nat) (result : Word) : M Unit :=
  modWs fun x => { x with deliveries := x.deliveries ++ c.origins.map fun o => ⟨o.1, o.2, status, result⟩ }

/-- The generation word of a window written with release. -/
def writeGen (w : Window) (abort : Bool) (ended : Word) : M Unit :=
  homeWrite w.genPa 8 (ended.toNat % 2 ^ 63 + abort.toNat * 2 ^ 63)

/-- The next generation becomes current (R378). -/
def Window.next (w : Window) : Window :=
  { w with gen := w.gen + 1, acc0 := w.acc1, cnt0 := w.cnt1, from0 := w.from1, acc1 := [], cnt1 := [], from1 := [],
           timer := !w.from1.isEmpty, doomed := false }

/-- The current generation of a window has ended: the next is current, or, where that has ended already, the one after it (R378, R385). -/
def endGen (i : Nat) (w : Window) : M Unit := do
  if w.doomed then do
    writeGen w.next true (w.next.gen + 1)
    putWindow i (some w.next.next)
  else putWindow i (some w.next)

/-- Abort (R379). -/
def abortGen (i : Nat) (w : Window) : M Unit := do
  writeGen w true (w.gen + 1)
  eachM (fun c => deliverRed c rAborted 0) w.from0
  endGen i w

/-- Abort of the next generation, which is in progress already (R385): what it holds is discarded, and its word is written when its turn
comes (log entry 67). -/
def abortNext (i : Nat) (w : Window) : M Unit := do
  eachM (fun c => deliverRed c rAborted 0) w.from1
  putWindow i (some { w with acc1 := [], cnt1 := [], from1 := [], doomed := true })

/-- The elements of a window. -/
def Window.elems (w : Window) : List Nat := List.range (w.len / 8)

/-- Complete (R378). -/
def completeGen (i : Nat) (w : Window) : M Unit := do
  eachM (fun e => homeWrite (w.base + 8 * e) 8 ((tblGet none w.acc0 e).getD 0).toNat) w.elems
  writeGen w false (w.gen + 1)
  eachM (fun (c : Contribution) => deliverRed c rDone ((tblGet none w.acc0 ((c.pa - w.base) / 8)).getD 0)) w.from0
  endGen i w

/-- A contribution counted into the current generation, or the next (R378). -/
def Window.add (w : Window) (now : Bool) (e : Nat) (c : Contribution) : Window :=
  if now then
    { w with acc0 := tblSet none w.acc0 e (some (redInto w.op (tblGet none w.acc0 e) c.value)),
             cnt0 := tblSet 0 w.cnt0 e (tblGet 0 w.cnt0 e + c.count), from0 := w.from0 ++ [c], timer := true }
  else
    { w with acc1 := tblSet none w.acc1 e (some (redInto w.op (tblGet none w.acc1 e) c.value)),
             cnt1 := tblSet 0 w.cnt1 e (tblGet 0 w.cnt1 e + c.count), from1 := w.from1 ++ [c] }

/-- Arrive (R378). -/
def arriveRed (c : Contribution) : M Unit := do
  let s ← get
  let hit := s.ws.windows.find? fun x => match x.2 with
    | some w => decide (w.base ≤ c.pa) && decide (c.pa < w.base + w.len) && w.op = c.op
    | none => false
  match hit with
  | some (i, some w) => do
    if c.gen.toNat < w.gen.toNat then deliverRed c rStale 0
    else if w.gen.toNat + 1 < c.gen.toNat then deliverRed c rAhead 0
    else if c.gen ≠ w.gen && w.doomed then deliverRed c rStale 0
    else do
      let e := (c.pa - w.base) / 8
      let w := w.add (c.gen = w.gen) e c
      putWindow i (some w)
      if w.expected < tblGet 0 w.cnt0 e then abortGen i w
      else if w.elems.all fun e => tblGet 0 w.cnt0 e = w.expected then completeGen i w
      else pure ()
  | _ => deliverRed c rNoWin 0

/-- A window closed: its current generation is aborted where it holds a contribution (R379, R381). -/
def closeWindow (i : Nat) (w : Window) : M Unit := do
  if w.from0.isEmpty then pure () else abortGen i w
  putWindow i none

/-- A window opened at its home, or why not: the status (R381). -/
def openWindow (base len expected timeout genPa : Nat) (op : RedOp) : M Nat := do
  let s ← get
  let overlap := s.ws.windows.any fun x => match x.2 with
    | some w => overlaps base len w.base w.len
    | none => false
  match findUp (fun i => (s.window i).isNone) 256 0 with
  | none => pure rFull
  | some i =>
    if overlap then pure rOverlap
    else do
      putWindow i (some { base := base, len := len, expected := expected, timeout := timeout, genPa := genPa, op := op,
                          gen := 0, acc0 := [], acc1 := [], cnt0 := [], cnt1 := [], from0 := [], from1 := [],
                          timer := false, doomed := false })
      homeWrite genPa 8 0
      pure rDone

/-- A window closed by its base at its home: the status (R381). -/
def closeAt (base : Nat) : M Nat := do
  match (← get).ws.windows.find? fun x => match x.2 with
    | some w => w.base = base
    | none => false with
  | some (i, some w) => do
    closeWindow i w
    pure rDone
  | _ => pure rNoWin

/-! ### The instructions (R381 to R383) -/

/-- RSTAT written. -/
def setRstat (st : Nat) : M Unit := modSlot fun x => x.setE 20 (BitVec.ofNat 64 st)

/-- HypCheck (R381). -/
def windowHypCheck : M Unit := hypAtomicCheck

/-- The page of a translation, as its first address and size. -/
def Trans.page (t : Trans) (va : Nat) : Nat × Nat := (va / 2 ^ pageShift t.leaf.level, t.leaf.level)

/-- An answer that is a fault of the fabric: its code above 2^64 (R374). -/
def faultAnswer (c : Cause) : Nat := 2 ^ 64 + c.code

/-- A question to another package: asked once, then waited for; the answer may be a fault of the fabric. What is asked about is the address
in the second of the words (R371, R381). -/
def askPackage (k : OpKind) (pkg : Nat) (words : List Nat) : M Nat := do
  match (← curSlot).pend with
  | none => do
    let id := (← get).ws.nextId
    modWs fun w => { w with nextId := w.nextId + 1 }
    sendFlit (dieOf (← curId)) (.request id pkg words)
    modSlot fun x => { x with pend := some ⟨k, id, [(words[1]?).getD 0], none⟩ }
    park .answer
  | some p =>
    match p.answer with
    | none => park .answer
    | some a => do
      modSlot fun x => { x with pend := none }
      pure a

/-- A question to the home of a window in another package; an answer that is a fault of the fabric is raised for the address asked about
(R374, R381). -/
def askRemote (k : OpKind) (pkg : Nat) (words : List Nat) : M Nat := do
  let at_ := ((← curSlot).pend.bind fun p => p.keep[0]?).getD 0
  let a ← askPackage k pkg words
  if a < 2 ^ 64 then pure a else throw (.trap (a - 2 ^ 64) (some (BitVec.ofNat 64 at_)))

/-- The checks of `rwin` (R381): base, length, expected count, timeout, and the generation word, as fabric addresses. -/
def rwinChecks (a : GReg) : M (Nat × Nat × Nat × Nat × Nat) := do
  let b ← rd a
  let x ← curSlot
  let len := (x.eval_ 16).toNat
  let expd := (x.eval_ 17).toNat
  let tmo := (x.eval_ 18).toNat
  let gw := x.eval_ 19
  checkFree (b.toNat % 64 = 0 && decide (8 ≤ len) && decide (len ≤ 65536) && len % 8 = 0 && decide (1 ≤ expd) &&
    decide (expd ≤ 65535) && decide (1 ≤ tmo) && decide (tmo ≤ 10000000) && x.eval_ 21 = 0 && x.eval_ 22 = 0 &&
    x.eval_ 23 = 0 && gw.toNat % 8 = 0 && !(decide (b.toNat ≤ gw.toNat) && decide (gw.toNat < b.toNat + len))) .rwinConfig
  let t ← checkMem b 64 .write
  let lines := ((List.range ((len + 63) / 64)).drop 1).map fun k => b.toNat + 64 * k
  let ts ← mapEach (fun va => checkMem (BitVec.ofNat 64 va) 64 .write) lines
  let tg ← checkMem gw 8 .write
  checkFree (((lines.zip ts).all fun l => l.2.page l.1 = t.page b.toNat && pkgOf l.2.pa = pkgOf t.pa) && pkgOf tg.pa = pkgOf t.pa &&
    t.rdies = 0 && tg.rdies = 0) .rwinConfig
  windowHypCheck
  pure (t.pa, len, expd, tmo, tg.pa)

/-- `rwin`: a window opened (R381). -/
def execRwin (a : GReg) (op : RedOp) (s : State) : Host.Outcome State Fault Refusal :=
  issue (.rwin a op) (thenNext do
    match (← curSlot).pend with
    | some _ => setRstat (← askRemote .rwin 0 [])
    | none => do
      let (pa, len, expd, tmo, gpa) ← rwinChecks a
      releaseNow
      markNonrev
      if pkgOf pa = (← get).ws.own then setRstat (← openWindow pa len expd tmo gpa op)
      else setRstat (← askRemote .rwin (pkgOf pa) [1, pa, len, expd, tmo, gpa, op.code, (← curSlot).world.toNat])) s

/-- `rclose`: a window closed (R381). -/
def execRclose (a : GReg) (s : State) : Host.Outcome State Fault Refusal :=
  issue (.rclose a) (thenNext do
    match (← curSlot).pend with
    | some _ => setRstat (← askRemote .rclose 0 [])
    | none => do
      let t ← checkMem (← rd a) 1 .write
      windowHypCheck
      releaseNow
      if pkgOf t.pa = (← get).ws.own then setRstat (← closeAt t.pa)
      else setRstat (← askRemote .rclose (pkgOf t.pa) [2, t.pa])) s

/-- The slot's number in the fabric, which a delivery comes back to: package and TASK.ID. -/
def fabricSlot (own t : Nat) : Nat := 2 ^ 15 * own + t

/-- Whether a flit of a class for a package must wait for its virtual channel (R373). -/
def WinSys.mustWait (w : WinSys) (pkg cls : Nat) : Bool :=
  pkg ≠ w.own && w.pausedOn (w.leaves w.own pkg).1 (2 * cls + (w.leaves w.own pkg).2)

/-- `ramo`: a contribution sent, once flow control lets it (R373, R382). -/
def execRamo (a b : GReg) (op : RedOp) (s : State) : Host.Outcome State Fault Refusal :=
  issue (.ramo a b op) (thenNext do
    let g ← rd a
    let k := g.toNat % 8
    let va := g - BitVec.ofNat 64 k
    let t ← checkMem va 8 .write
    check (t.rdies = 0) .memReplica va
    windowHypCheck
    releaseNow
    waitFor (!(← get).ws.mustWait (pkgOf t.pa) 2) .answer
    markNonrev
    let me ← curId
    let s ← get
    let id := s.ws.nextId
    let v ← rd b
    modWs fun w => { w with nextId := w.nextId + 1, flying := w.flying ++
      [{ pa := t.pa, op := op, gen := (s.slot me).eval_ (24 + k), count := 1, value := v,
         origins := [(fabricSlot s.ws.own me, id)], dies := [s.ws.own * 4 + dieOf me], held := true }] }
    modSlot fun x => { x with rpend := tblSet none x.rpend k (some ⟨va, t.pa, id, none, 0⟩) }) s

/-- `rwait`: a delivery collected (R383). -/
def execRwait (a b : GReg) (s : State) : Host.Outcome State Fault Refusal :=
  issue (.rwait a b) (thenNext do
    let g ← rd a
    let k := g.toNat % 8
    let va := g - BitVec.ofNat 64 k
    match tblGet none (← curSlot).rpend k with
    | none => setRstat rNone
    | some p =>
      if p.addr ≠ va then setRstat rNone
      else match p.status with
        | none => park .rwait
        | some st => do
          setRstat st
          if st = rDone then do
            wr b p.result
            acquire
          else pure ()
          if st = rDone ∨ st = rAborted then
            modSlot fun x => x.setE (24 + k) (x.eval_ (24 + k) + 1)
          else pure ()
          modSlot fun x => { x with rpend := tblSet none x.rpend k none }) s

end Sys2Proof.Machine
end

