-- ==== Sys2Proof/Machine/Hypo.lean ====
section
/-!
DEFINITION. The hypothesis and region instructions, and the resolver's phases (R308 to R332). Log entry 11 says which answers the
resolver gives at once.
-/

namespace Sys2Proof.Machine

/-! ### Opening, entering and reading (R320 to R322) -/

/-- A failure of `hopen` (R320). -/
def hopenFailure (full : Bool) : Word := if full then 0x8100000000000000#64 else 0x8200000000000000#64

/-- The parent that `hopen` names, checked (R320). -/
def hopenParent (g : Word) : M Nat := do
  let x ← curSlot
  let h := (← get).hyps
  let p := if g = minusOne then x.hypId else g.toNat
  check (p ≤ 16383) .hypId g
  if p = 0 then pure 0
  else do
    check ((h.get p).st ≠ .free && (h.get p).asid = x.asid) .hypState (BitVec.ofNat 64 p)
    checkFree (!h.refutedInChain (h.eff p)) .hypState
    pure (h.eff p)

/-- `hopen`: a PLAIN child opened (R320). -/
def execHopen (d a : GReg) (s : State) : Host.Outcome State Fault Refusal :=
  issue (.hopen d a) (thenNext do
    let p ← hopenParent (← rd a)
    if ((← get).hyps.get p).depth = 15 then wr d (hopenFailure false)
    else
      match ← hypOpen false p (← curSlot).asid with
      | some k => wr d (BitVec.ofNat 64 k)
      | none => wr d (hopenFailure true)) s

/-- The innermost region of a slot's stack, if it has one. -/
def Slot.top (x : Slot) : Option Nat := x.regions.head?.map (·.id)

/-- `henter`: HYP.CUR.ID moved (R321). -/
def execHenter (a : GReg) (s : State) : Host.Outcome State Fault Refusal :=
  issue (.henter a) (thenNext do
    let k := (← rd a).toNat
    let x ← curSlot
    let h := (← get).hyps
    checkFree (k ≤ 16383) .hypId
    checkFree (k = 0 || ((h.get k).st = .opened && (h.get k).asid = x.asid && !h.refutedInChain k)) .hypState
    checkFree (match x.top with
      | some r => h.within k r
      | none => true) .hypState
    modSlot fun x => { x with hypId := k }) s

/-- `hleave`: HYP.CUR.ID to the parent (R321). -/
def execHleave (s : State) : Host.Outcome State Fault Refusal :=
  issue .hleave (thenNext do
    let x ← curSlot
    let h := (← get).hyps
    let k := h.eff x.hypId
    checkFree (k ≠ 0 && x.top ≠ some k) .hypState
    modSlot fun x => { x with hypId := h.eff (h.get k).parent }) s

/-- A state's code (R322). -/
def HypState.code : HypState → Nat
  | .free => 0 | .opened => 1 | .confirmed => 2 | .refuted => 3

/-- A record as `hstat` gives it (R322). -/
def hypWord (h : HypSys) (asid : BitVec 16) (k : Nat) : Word :=
  let r := h.get k
  if k = 0 then 1
  else if r.st = .free || r.asid ≠ asid then 0
  else BitVec.ofNat 64 (r.st.code + r.region.toNat * 4 + (r.region && r.nonrev).toNat * 8 + r.depth % 16 * 16 +
    r.busy.toNat * 256 + r.parent % 16384 * 2 ^ 16)

/-- `hstat`: a record read (R322). -/
def execHstat (d a : GReg) (s : State) : Host.Outcome State Fault Refusal :=
  issue (.hstat d a) (thenNext do
    let g ← rd a
    let x ← curSlot
    let k := if g = minusOne then x.hypId else g.toNat
    checkFree (k ≤ 16383) .hypId
    wr d (hypWord (← get).hyps x.asid k)) s

/-! ### Requests to the resolver (R323) -/

/-- A request handed to the resolver; the slot waits for its answer and keeps what it needs then (R323). -/
def askResolver (kind : OpKind) (k : Nat) (confirm excl : Bool) (keep : List Nat) : M Unit := do
  let t ← curId
  let x ← curSlot
  let id := (← get).ws.nextId
  modWs fun w => { w with nextId := w.nextId + 1 }
  modHyps fun h => { h with queue := h.queue ++ [⟨id, t, k, confirm, excl, x.asid⟩] }
  modSlot fun x => { x with pend := some ⟨kind, id, keep, none⟩ }
  park .answer

/-- The hypothesis lies outside the subtree of the task's innermost region (R331). -/
def outsideRegion (k : Nat) : M Bool := do
  let x ← curSlot
  let h := (← get).hyps
  match x.top with
  | some r => pure (!h.within k r)
  | none => pure false

/-- A resolution has ended for the task. Where it took effect, the cell's L1 drops what the commit may have made stale: the task's next
instruction happens after the commit (R324). -/
def endResolution (st : Nat) : M Unit := do
  modSlot fun x => { x with pend := none }
  if st = 0 then acquire else pure ()

/-- `hconfirm` and `hrefute` (R323, R331). -/
def resolveInstr (i : Instr) (d a : GReg) (confirm excl : Bool) (s : State) : Host.Outcome State Fault Refusal :=
  issue i (thenNext do
    match (← curSlot).pend with
    | none => do
      let k := (← rd a).toNat
      checkFree (k ≠ 0 && decide (k ≤ 16383)) .hypId
      checkFree (!(confirm && ((← get).hyps.get k).region)) .hypKind
      let out ← outsideRegion k
      checkFree (!(out && (← curSlot).impl)) .hypAtomic
      releaseNow
      if out then markNonrev else pure ()
      askResolver .resolve k confirm excl []
    | some p =>
      match p.answer with
      | none => park .answer
      | some st => do
        endResolution st
        wr d (BitVec.ofNat 64 st)) s

/-- `hconfirm`: a hypothesis confirmed (R323). -/
def execHconfirm (d a : GReg) (excl : Bool) (s : State) : Host.Outcome State Fault Refusal :=
  resolveInstr (.hconfirm d a excl) d a true excl s
/-- `hrefute`: a hypothesis refuted (R323). -/
def execHrefute (d a : GReg) (s : State) : Host.Outcome State Fault Refusal :=
  resolveInstr (.hrefute d a) d a false false s

/-! ### Regions (R328, R329) -/

/-- `copen`: a containment region opened (R328). -/
def execCopen (imm : BitVec 12) (s : State) : Host.Outcome State Fault Refusal :=
  issue (.copen imm) (thenNext do
    let x ← curSlot
    let h := (← get).hyps
    let p := h.eff x.hypId
    checkFree (decide (x.regions.length < 4) && (h.get p).depth ≠ 15) .hypDepth
    match ← hypOpen true p x.asid with
    | none => raiseFree .hypFull
    | some k => modSlot fun x =>
        { x with regions := ⟨k, x.pc + (sext imm <<< 2), false⟩ :: x.regions, hypId := k }) s

/-- The pop of `cclose`: a non-revocable region marks the one around it (R329). -/
def closeRegion : M Unit := do
  let t ← curId
  let popped := match (← curSlot).regions.head? with
    | some r => r.nonrev
    | none => false
  popRegion t
  if popped then
    match (← curSlot).regions with
    | r :: rest => do
      modSlot fun x => { x with regions := { r with nonrev := true } :: rest }
      modHyps fun h => h.set r.id { h.get r.id with nonrev := true }
    | [] => pure ()
  else pure ()

/-- `cclose`: the innermost region confirmed, once the task's work has completed (R329). -/
def execCclose (s : State) : Host.Outcome State Fault Refusal :=
  issue .cclose (thenNext do
    let t ← curId
    let x ← curSlot
    match x.pend with
    | none => do
      checkFree (!x.regions.isEmpty && !(x.regions.length = 1 && x.impl)) .hypState
      checkFree (x.top = some ((← get).hyps.eff x.hypId)) .hypState
      waitFor ((← get).drainedOf t) .drain
      deliverFault t fun _ => true
      releaseNow
      askResolver .cclose ((x.top).getD 0) true false []
    | some p =>
      match p.answer with
      | none => park .answer
      | some 0 => do
        endResolution 0
        closeRegion
      | some _ => do
        modSlot fun x => { x with pend := none }
        park .answer) s

/-! ### The resolver (R323, R324, R325) -/

/-- The answer to a slot's pending operation, found by its number. -/
def answerTo (slot id a : Nat) : M Unit := modSlotAt slot fun x =>
  match x.pend with
  | some p => if p.id = id then { x with pend := some { p with answer := some a } } else x
  | none => x

/-- The status of a request that needs no resolution (R323). -/
def HypReq.settled (r : HypReq) (h : HypSys) : Option Nat :=
  let k := h.get r.target
  if k.st = .free || k.asid ≠ r.asid then some 3
  else if k.st = .confirmed then some 1
  else if h.refutedInChain r.target then some 2
  else none

/-- The hypotheses that a request affects (R323, R324). -/
def HypReq.affected (r : HypReq) (h : HypSys) : List Nat :=
  let p := h.eff (h.get r.target).parent
  if r.confirm then
    r.target :: (if r.excl then (h.ids.filter fun j => j ≠ r.target && (h.get j).st = .opened &&
      h.eff (h.get j).parent = p && (h.get j).asid = r.asid).flatMap h.subtree else [])
  else h.subtree r.target

/-- The resolver takes requests until one needs a resolution (R323); n bounds them. -/
def takeRequests : Nat → M Unit
  | 0 => pure ()
  | n + 1 => do
    let h := (← get).hyps
    match h.cur, h.queue with
    | none, r :: rest =>
      match r.settled h with
      | some st => do
        modHyps fun h => { h with queue := rest }
        answerTo r.slot r.id st
        takeRequests n
      | none => modHyps fun h =>
          let h := h.set r.target { h.get r.target with busy := true }
          { h with queue := rest, cur := some ⟨r, .prepare, 0, r.affected h, []⟩ }
    | _, _ => pure ()

/-- Whether every live die has acknowledged. -/
def State.allAcked (s : State) (acks : BitVec 4) : Bool := s.liveDies.all fun d => acks.getLsbD d

/-- The lines of a die that hold an entry under one of the hypotheses (R324). -/
def State.stagedLines (s : State) (d : Nat) (ks : List Nat) : List Nat :=
  firsts ((s.ms.versions.filter fun v => homeOf v.line = d && ks.contains v.hyp).map (·.line))

/-- HYP_DIE_PREPARE: the resolver takes the next request if it is idle; the die performs the dirty version bytes that its L1s
hold of the affected hypotheses, stages the entries at its home, and acknowledges (R324). -/
def execHypDiePrepare (s : State) : Host.Outcome State Fault Refusal :=
  event (do
    let d ← evArg 0
    need ((← get).live d)
    let q := (← get).hyps
    need (q.cur.isSome || !q.queue.isEmpty)
    takeRequests q.queue.length
    match (← get).hyps.cur with
    | none => pure ()
    | some r => do
      need (r.phase = .prepare && (!r.acks.getLsbD d || q.cur.isNone))
      eachM (fun (x : L1Line) => performLine x none) ((← get).ms.l1.filter fun x =>
        x.cell / 128 = d && x.hyp ≠ 0 && r.affected.contains x.hyp)
      modMs fun m => { m with l1 := m.l1.filter fun x => !(x.cell / 128 = d && x.hyp ≠ 0 && r.affected.contains x.hyp) }
      let lines := (← get).stagedLines d r.affected
      modHyps fun h => { h with cur := some { r with acks := r.acks ||| (1#4 <<< d), staged := r.staged ++ lines } }) s

/-- BUSY of a record (R322). -/
def HypSys.busyBit (h : HypSys) (k : Nat) (b : Bool) : HypSys := h.set k { h.get k with busy := b }

/-- HYP_COMMIT: once every live die has acknowledged, the new states are written and take effect; a target that an atomic resolution
has settled meanwhile is answered as it stands (R323, R324; log entry 12). -/
def execHypCommit (s : State) : Host.Outcome State Fault Refusal :=
  event (do
    let r ← needSome (← get).hyps.cur
    need (r.phase = .prepare && (← get).allAcked r.acks)
    match r.req.settled (← get).hyps with
    | some st => do
      modHyps fun h => { h.busyBit r.req.target false with cur := none }
      answerTo r.req.slot r.req.id st
    | none => do
      if r.req.confirm then commitConfirm r.req.target r.req.excl else commitRefute r.req.target
      modHyps fun h => { h.busyBit r.req.target true with cur := some { r with phase := .apply, acks := 0 } }) s

/-- HYP_APPLY: a die applies the outcome to its staged lines, whose accesses go on, and acknowledges; the last one ends the resolution, and
the requester goes on (R323, R324). -/
def execHypApply (s : State) : Host.Outcome State Fault Refusal :=
  event (do
    let d ← evArg 0
    need ((← get).live d)
    let r ← needSome (← get).hyps.cur
    need (r.phase = .apply && !r.acks.getLsbD d)
    let acks := r.acks ||| (1#4 <<< d)
    if (← get).allAcked acks then do
      modHyps fun h => { h.busyBit r.req.target false with cur := none }
      answerTo r.req.slot r.req.id 0
    else modHyps fun h => { h with cur := some { r with acks := acks, staged := r.staged.filter fun l => homeOf l ≠ d } }) s

/-- HYP_SWEEP: a die frees its cache and version entries under refuted hypotheses (R315). -/
def execHypSweep (s : State) : Host.Outcome State Fault Refusal :=
  event (do
    let d ← evArg 0
    need ((← get).hyps.table.any fun r => r.2.st = .refuted && r.2.sweep.getLsbD d)
    sweepDie d) s

end Sys2Proof.Machine
end

