-- ==== Sys2Proof/Machine/Verify.lean ====
section
/-!
DEFINITION. `accept`: drafted rows verified, the best branch confirmed (R362 to R366).
-/

namespace Sys2Proof.Machine

/-- The accept descriptor (R362). -/
structure AccDesc where
  w : BitVec 512

/-- Bits hi to lo of the descriptor. -/
def AccDesc.at (d : AccDesc) (hi lo : Nat) : Nat := d.w.toNat / 2 ^ lo % 2 ^ (hi + 1 - lo)
def AccDesc.vocab (d : AccDesc) : Nat := d.at 31 0
def AccDesc.branches (d : AccDesc) : Nat := d.at 34 32 + 1
def AccDesc.len (d : AccDesc) : Nat := d.at 45 40
def AccDesc.draft (d : AccDesc) : Nat := d.at 127 64
def AccDesc.sample (d : AccDesc) : Nat := d.at 191 128
def AccDesc.hyp (d : AccDesc) (b : Nat) : Nat := d.at (16 * b + 207) (16 * b + 192)

/-- The descriptor is one that R363 accepts, its hypotheses apart. -/
def AccDesc.ok (d : AccDesc) : Bool :=
  d.at 511 320 = 0 && d.at 63 46 = 0 && d.at 39 35 = 0 && d.len ≠ 0 && d.vocab ≠ 0 && d.draft % 256 = 0 && d.sample % 256 = 0 &&
  (List.range 8).all fun b => b < d.branches || d.hyp b = 0

/-- The branches of a descriptor. -/
def AccDesc.list (d : AccDesc) : List Nat := List.range d.branches

/-- The checks of the branch hypotheses (R363). -/
def checkBranches (d : AccDesc) : M Unit := do
  let x ← curSlot
  let h := (← get).hyps
  eachM (fun b => do
    let k := d.hyp b
    check (k ≠ 0 && decide (k ≤ 16383)) .hypId (BitVec.ofNat 64 k)
    checkFree ((h.get k).st = .opened && (h.get k).asid = x.asid) .hypState
    checkFree (!(h.get k).region) .hypKind) d.list
  checkFree (d.list.all fun b => h.eff (h.get (d.hyp b)).parent = h.eff (h.get (d.hyp 0)).parent) .hypState

/-- The place of a row, checked; a row lies in one page (R147, R363). -/
def rowPlace (base b : Nat) : M Place := do
  let va := BitVec.ofNat 64 (base + 256 * b)
  let t ← checkMem va 64 .read
  pure (bypassed (← curSlot) (.mem t.pa va.toNat t.cached))

/-- The first n tokens of a row's number, as a list. -/
def tokensOf (v : Nat) (n : Nat) : List Nat := (List.range n).map fun i => v / 2 ^ (32 * i) % 2 ^ 32

/-- The number of leading positions at which a branch's tokens agree and are real (R363). -/
def agreeing (vocab : Nat) : List Nat → List Nat → Nat
  | a :: d, b :: s => if a < vocab ∧ a = b then 1 + agreeing vocab d s else 0
  | _, _ => 0

/-- What the rows of a branch come to: positions accepted, and whether the first mismatch is a bad token (R363). -/
def branchResult (vocab len : Nat) (ds ss : List Nat) : Nat × Bool :=
  let a := agreeing vocab ds ss
  (a, decide (a < len) && decide (vocab ≤ (ds[a]?).getD 0))

/-- The best of the branches: the most positions, ties to the lowest (R363). -/
def bestBranch : Nat → List (Nat × Bool) → Nat × Nat → Nat × Nat
  | _, [], best => best
  | b, r :: rs, best => bestBranch (b + 1) rs (if best.2 < r.1 then (b, r.1) else best)

/-- The result word short of RSTAT (R364). -/
def acceptWord (len w a : Nat) (rs : List (Nat × Bool)) : Nat :=
  let bad := rs.zipIdx.foldl (fun m r => if r.1.2 then m + 2 ^ r.2 else m) 0
  a + (if a = len then 255 else a) * 2 ^ 8 + w * 2 ^ 16 + bad / 2 ^ w % 2 * 2 ^ 19 + bad * 2 ^ 24

/-- The rows read under their hypotheses, and the branch chosen: the branch and the word (R363, R364). -/
def readBranches (d : AccDesc) (places : List (Place × Place)) : M (Nat × Nat) := do
  let ag ← curAgent
  let x ← curSlot
  let rs ← mapEach (fun (e : (Place × Place) × Nat) => do
    let g := { ag with hyp := d.hyp e.2 }
    let dv ← readPlace g x.wc true e.1.1 (4 * d.len)
    let sv ← readPlace g x.wc true e.1.2 (4 * d.len)
    pure (branchResult d.vocab d.len (tokensOf dv d.len) (tokensOf sv d.len))) places.zipIdx
  let (w, a) := match rs with
    | r :: rest => bestBranch 1 rest (0, r.1)
    | [] => (0, 0)
  pure (w, acceptWord d.len w a rs)

/-- The checks and the reads of `accept`, then the request for its exclusive confirm (R363). -/
def acceptIssue (a : GReg) : M Unit := do
  let g ← rd a
  check (g.toNat % 64 = 0) .memAlign g
  let t ← checkMem g 64 .read
  let x ← curSlot
  let d : AccDesc := ⟨BitVec.ofNat 512 (← readPlace (← curAgent) x.wc true (bypassed x (.mem t.pa g.toNat t.cached)) 64)⟩
  check d.ok .accArg g
  checkBranches d
  let places ← mapEach (fun b => do pure (← rowPlace d.draft b, ← rowPlace d.sample b)) d.list
  let out ← outsideRegion (d.hyp 0)
  checkFree (!(out && x.impl)) .hypAtomic
  releaseNow
  let (w, word) ← readBranches d places
  if out then markNonrev else pure ()
  askResolver .accept (d.hyp w) true true [word]

/-- `accept`: the best branch confirmed exclusively (R363). -/
def execAccept (d a : GReg) (s : State) : Host.Outcome State Fault Refusal :=
  issue (.accept d a) (thenNext do
    match (← curSlot).pend with
    | none => acceptIssue a
    | some p =>
      match p.answer with
      | none => park .answer
      | some st => do
        endResolution st
        wr d (BitVec.ofNat 64 ((p.keep[0]?).getD 0 + st * 2 ^ 34))) s

end Sys2Proof.Machine
end

