-- ==== Sys2Proof/Machine/Stream.lean ====
section
/-!
DEFINITION. Streams: creation, forks, actions, horizons, joins, migration, and what the Stationer, the stream scheduler and
the Winnower do (R334 to R356).
-/

namespace Sys2Proof.Machine

/-! ### Naming a stream (R335, R336, R342) -/

/-- A stream id operand outside 1 to 1,048,575, with 0 allowed where the instruction says so (R342). -/
def checkStrmId (g : Word) (zero : Bool) : M Unit := check (g.toNat < 2 ^ 20 && (zero || g ≠ 0)) .strmId g

/-- The key of a stream id of the task's address space. -/
def ownStrm (id : Nat) : M Nat := do pure (strmKey (← curSlot).asid id)

/-- The stream that an operand names; 0 names the current stream, and STRM.WINDOW follows when there is none (R346, R348). -/
def namedStrm (g : Word) : M Nat := do
  checkStrmId g true
  if g = 0 then do
    let cur := (← curSlot).strmCur.toNat
    checkFree (cur ≠ 0) .strmWindow
    ownStrm cur
  else ownStrm g.toNat

/-- The current stream, alive (R347, R349). -/
def currentStrm : M Nat := do
  let cur := (← curSlot).strmCur.toNat
  let key ← ownStrm cur
  checkFree (cur ≠ 0 && ((← get).ss.stream key).st ≠ .dead) .strmWindow
  pure key

/-- The hypothesis rules of a stream instruction, after every other check (R342). -/
def strmRules : M Unit := do
  hypAtomicCheck
  markNonrev

/-- Failure statuses (R342). -/
def strmFullStatus : Word := 0x8100000000000000#64
def strmStateStatus : Word := 0x8200000000000000#64
def strmAbortStatus : Word := 0x8300000000000000#64

/-- Whether an id of an address space is free: DEAD, and no task's STRM.CUR (R336). -/
def State.strmFree (s : State) (asid : BitVec 16) (id : Nat) : Bool :=
  (s.ss.stream (strmKey asid id)).st = .dead && !s.streamNamed (strmKey asid id)

/-- The lowest free run of n ids (R343, R344). -/
def State.strmRun (s : State) (asid : BitVec 16) (n : Nat) : Option Nat :=
  findUp (fun i => (List.range n).all fun c => s.strmFree asid (i + c)) (2 ^ 20 - n) 1

/-- Streams of a cancelled launch are dropped when they are not STEPPING (R336). -/
def dropIfCancelled (number : Nat) (keys : List Nat) : M Unit := do
  if (← get).launchCancelled number then eachM dropStream keys else pure ()

/-! ### Creating, forking and dropping (R343 to R345) -/

/-- A fresh IDLE stream of a map (R343, R344). -/
def Stream.fresh (serial home launch : Nat) (stepPc : Word) (map : Nat) : Stream :=
  { st := .idle, serial := serial, home := home, launch := launch, stepPc := stepPc, map := map, ring := [], horizon := 0, ret := 0,
    returned := false, group := .none }

/-- A fresh stream under a key, with the next serial number. -/
def StrmSys.create (x : StrmSys) (key home launch : Nat) (stepPc : Word) (map : Nat) : StrmSys :=
  { x.setStream key (Stream.fresh x.nextSerial home launch stepPc map) with nextSerial := x.nextSerial + 1 }

/-- `screate`: an IDLE stream; FULL where no id is free or the die has no space for the record (R343). -/
def execScreate (d a : GReg) (s : State) : Host.Outcome State Fault Refusal :=
  issue (.screate d a) (thenNext do
    let g ← rd a
    check (fieldOf g 1 0 = 0 && fieldOf g 63 56 = 0) .strmArg g
    strmRules
    let x ← curSlot
    let die := dieOf (← curId)
    let s ← get
    match if s.recordsFull die then none else s.strmRun x.asid 1 with
    | none => wr d strmFullStatus
    | some id => do
      let key := strmKey x.asid id
      modSs fun y =>
        let (m, y) := y.newMap ⟨[], 1⟩
        y.create key die x.launch g m
      launchUp x.launch 1
      dropIfCancelled x.launch [key]
      wr d (BitVec.ofNat 64 id)) s

/-- `sfork`: children that share the parent's map (R344). -/
def execSfork (d a b : GReg) (s : State) : Host.Outcome State Fault Refusal :=
  issue (.sfork d a b) (thenNext do
    let g ← rd a
    let n := (← rd b).toNat
    checkStrmId g false
    checkFree (1 ≤ n && n ≤ 16) .strmArg
    strmRules
    let x ← curSlot
    let p := (← get).ss.stream (strmKey x.asid g.toNat)
    if p.st = .dead then wr d strmStateStatus
    else
      match (← get).strmRun x.asid n with
      | none => wr d strmFullStatus
      | some k => do
        let keys := (List.range n).map fun c => strmKey x.asid (k + c)
        modSs fun y =>
          let y := keys.foldl (fun y key => y.create key p.home x.launch p.stepPc p.map) y
          y.setMap p.map { y.map p.map with refs := (y.map p.map).refs + n }
        launchUp x.launch n
        dropIfCancelled x.launch keys
        wr d (BitVec.ofNat 64 k)) s

/-- `sdrop`: the end of a stream; its decrement of OUTSTANDING is a release of the task (R74, R164, R345). -/
def execSdrop (d a : GReg) (s : State) : Host.Outcome State Fault Refusal :=
  issue (.sdrop d a) (thenNext do
    let g ← rd a
    checkStrmId g false
    strmRules
    let key ← ownStrm g.toNat
    if ((← get).ss.stream key).st = .dead then wr d 1
    else do
      releaseNow
      dropStream key
      wr d 0) s

/-! ### Actions and horizons (R346 to R349) -/

/-- `sact`: a record onto the tail of an action queue (R346). -/
def execSact (d a b : GReg) (s : State) : Host.Outcome State Fault Refusal :=
  issue (.sact d a b) (thenNext do
    let key ← namedStrm (← rd a)
    let va ← rd b
    let t ← checkMem va 64 .read
    let x ← curSlot
    let r ← readPlace (← curAgent) x.wc true (bypassed x (.mem t.pa va.toNat t.cached)) 64
    strmRules
    let m := (← get).ss.stream key
    if m.st = .dead then wr d strmStateStatus
    else if 16 ≤ m.ring.length then wr d strmFullStatus
    else do
      modSs fun y => y.setStream key { m with ring := m.ring ++ [BitVec.ofNat 512 r] }
      wr d (BitVec.ofNat 64 (m.ring.length + 1))) s

/-- `spop`: the head record of the current stream stored at g[A] (R347). -/
def execSpop (d a : GReg) (s : State) : Host.Outcome State Fault Refusal :=
  issue (.spop d a) (thenNext do
    let key ← currentStrm
    let va ← rd a
    let t ← checkMem va 64 .write
    hypAtomicCheck
    match ((← get).ss.stream key).ring with
    | [] => do
      markNonrev
      wr d minusOne
    | r :: rest => do
      let ag ← curAgent
      let p := bypassed (← curSlot) (.mem t.pa va.toNat t.cached)
      reserveStore ag p 64
      markNonrev
      storePlace ag (some (← curId)) p 64 r.toNat
      modSs fun y => y.setStream key { y.stream key with ring := rest }
      wr d (BitVec.ofNat 64 rest.length)) s

/-- A WAITING stream leaves the scheduler. -/
def StrmSys.unschedule (x : StrmSys) (key : Nat) : StrmSys :=
  { x with waiting := x.waiting.filter fun w => w.1 ≠ key,
           batches := (x.batches.map fun b => { b with members := b.members.filter fun m => m ≠ key }).filter
             fun b => !b.members.isEmpty }

/-- The table of R348: what a horizon does to a stream that lives. -/
def setHorizon (key : Nat) (h : BitVec 32) : M Unit := do
  let m := (← get).ss.stream key
  let m' := { m with horizon := h }
  match m.st, decide (h = 0) with
  | .idle, false => becomeWaiting key { m' with returned := false }
  | .waiting, true => modSs fun y => (y.unschedule key).setStream key { m' with st := .idle }
  | _, _ => modSs fun y => y.setStream key m'

/-- `shor`: a stream's horizon (R348). -/
def execShor (d a b : GReg) (s : State) : Host.Outcome State Fault Refusal :=
  issue (.shor d a b) (thenNext do
    let key ← namedStrm (← rd a)
    let h ← rd b
    checkFree (fieldOf h 63 32 = 0) .strmArg
    strmRules
    let m := (← get).ss.stream key
    if m.st = .dead then wr d strmStateStatus
    else do
      setHorizon key (h.setWidth 32)
      wr d (m.horizon.setWidth 64)) s

/-- `sret`: the return slot of the current stream (R349). -/
def execSret (a : GReg) (s : State) : Host.Outcome State Fault Refusal :=
  issue (.sret a) (thenNext do
    let v ← rd a
    let key ← currentStrm
    strmRules
    modSs fun y => y.setStream key { y.stream key with ret := v.setWidth 32 }) s

/-- `senter`: STRM.CUR from a selector (R351). -/
def execSenter (a : GReg) (s : State) : Host.Outcome State Fault Refusal :=
  issue (.senter a) (thenNext do
    let g ← rd a
    let x ← curSlot
    if g.getLsbD 63 && fieldOf g 62 6 = 0 then
      match x.members[fieldOf g 5 0]? with
      | some k => modSlot fun x => { x with strmCur := BitVec.ofNat 20 k, batchPos := g.setWidth 6 }
      | none => raiseFree .strmId
    else do
      checkFree (g.toNat < 2 ^ 20) .strmId
      if g = 0 then modSlot fun x => { x with strmCur := 0 }
      else do
        checkFree (((← get).ss.stream (strmKey x.asid g.toNat)).st ≠ .dead) .strmWindow
        modSlot fun x => { x with strmCur := g.setWidth 20 }) s

/-! ### Joins (R352, R353) -/

/-- The groups of a die's Winnower. -/
def StrmSys.groupsAt (x : StrmSys) (die : Nat) : Nat :=
  (x.groups.filter fun g => match g.2 with
    | some q => q.die = die
    | none => false).length

/-- `sjoin`: a join group formed (R352). -/
def execSjoin (d a b : GReg) (s : State) : Host.Outcome State Fault Refusal :=
  issue (.sjoin d a b) (thenNext do
    let g ← rd a
    let op := fieldOf g 29 28
    let n := fieldOf g 26 20
    let first := fieldOf g 19 0
    checkFree (fieldOf g 63 30 = 0 && !g.getLsbD 27 && op ≠ 3 && decide (1 ≤ n) && decide (n ≤ 64) &&
      decide (first + n - 1 ≤ 1048575)) .strmArg
    let va ← rd b
    check (va.toNat % 8 = 0) .memAlign va
    let t ← checkMem va 8 .write
    strmRules
    let x ← curSlot
    let keys := (List.range n).map fun c => strmKey x.asid (first + c)
    let y := (← get).ss
    let home := (y.stream (strmKey x.asid first)).home
    if keys.any fun k => (y.stream k).st = .dead || (y.stream k).group.isSome || (y.stream k).home ≠ home then
      wr d strmStateStatus
    else if 1024 ≤ y.groupsAt home then wr d strmFullStatus
    else do
      let id := lowestFree 0 y.groups
      modSs fun y =>
        let y := keys.foldl (fun y k => y.setStream k { y.stream k with group := some id }) y
        { y with groups := tblSet none y.groups id (some ⟨home, op, keys, t.pa⟩) }
      wr d 0) s

/-- The better of two returns of a group, of the ids that rise: NaNs are never chosen, and ties go to the first (R353). -/
def betterReturn (wantMax : Bool) (best : Option (Nat × BitVec 32)) (m : Nat × BitVec 32) : Option (Nat × BitVec 32) :=
  let v := FpFmt.f32.decode m.2.toNat
  if v.isNan then best
  else match best with
    | none => some m
    | some b =>
      let w := FpFmt.f32.decode b.2.toNat
      if (if wantMax then belowVal w v else belowVal v w) then some m else some b

/-- The sum of the returns in ascending id order, each step Rne32, a NaN as its canonical pattern (R353). -/
def sumReturns : List (BitVec 32) → Nat
  | [] => 0
  | r :: rest =>
    let v := rest.foldl (fun a b => (addBits .f32 .rne a b.toNat).1) r.toNat
    if (FpFmt.f32.decode v).isNan then 0x7FC00000 else v

/-- The result of a group: the winner's key where it has one, the value, the id (R353). -/
def joinResult (op : Nat) (ms : List (Nat × BitVec 32)) : Option Nat × Nat × Nat :=
  match ms with
  | [] => (none, 0xFF800000, 0xFFFFFFFF)
  | m :: _ =>
    if op = 2 then (none, sumReturns (ms.map (·.2)), 0xFFFFFFFF)
    else match ms.foldl (betterReturn (op = 0)) none with
      | some b => (some b.1, b.2.toNat, b.1 % 2 ^ 20)
      | none => (some m.1, 0x7FC00000, m.1 % 2 ^ 20)

/-- WINNOWER_JOIN: a group whose members have all returned is reduced (R353). -/
def execWinnowerJoin (s : State) : Host.Outcome State Fault Refusal :=
  event (do
    let id ← evArg 0
    let y := (← get).ss
    let g ← needSome (tblGet none y.groups id)
    need (g.members.all fun k => (y.stream k).returned)
    let (win, value, rid) := joinResult g.op (g.members.map fun k => (k, (y.stream k).ret))
    let left := match win with
      | some w => g.members.filter fun k => k ≠ w
      | none => []
    eachM dropStream left
    modSs fun y =>
      let y := (g.members.filter fun k => !left.contains k).foldl (fun y k =>
        y.setStream k { y.stream k with group := none, st := .idle }) y
      { y with groups := tblSet none y.groups id none }
    homeWrite g.resultPa 8 (value * 2 ^ 32 + rid)) s

/-! ### Migration (R354) -/

/-- What a transfer carries of a stream, after the receive record's address. -/
def StrmSys.snapshot (y : StrmSys) (key : Nat) : List Nat :=
  let m := y.stream key
  [m.stepPc.toNat, m.horizon.toNat, m.ret.toNat, m.returned.toNat, m.ring.length] ++ m.ring.map (·.toNat) ++
    (y.map m.map).pages.flatMap fun e => [e.1, tblReadN (y.page e.2).data 0 65536]

/-- `smigr`: a stream moved to another package; the slot waits for the whole transfer, which the fabric may
abort (R354). -/
def execSmigr (d a b : GReg) (s : State) : Host.Outcome State Fault Refusal :=
  issue (.smigr d a b) (thenNext do
    let g ← rd a
    let key ← ownStrm g.toNat
    let finish (v : Nat) : M Unit := do
      if v < 2 ^ 63 then dropStream key else pure ()
      wr d (if 2 ^ 64 ≤ v then strmAbortStatus else BitVec.ofNat 64 v)
    match (← curSlot).pend with
    | some _ => finish (← askPackage .smigr 0 [])
    | none => do
      checkStrmId g false
      let r ← rd b
      checkFree (r.toNat % 64 = 0 && fieldOf r 55 40 ≠ (← get).ws.own) .strmArg
      check (r.toNat < 2 ^ 56) .memRange r
      check (!inWindow r.toNat) .strmWindow r
      check ((← get).ws.reachable (pkgOf r.toNat)) .fabUnreach r
      strmRules
      let y := (← get).ss
      let m := y.stream key
      if m.st ≠ .idle ∨ m.group.isSome then wr d strmStateStatus
      else do
        releaseNow
        finish (← askPackage .smigr (pkgOf r.toNat) ([7, r.toNat] ++ y.snapshot key))) s

/-- Pages that arrive with a stream, each put into a map; none where there is no room. -/
def takePages (pageMiB spillMiB die now : Nat) : List Nat → PageMap → StrmSys → Option (PageMap × StrmSys)
  | e :: data :: rest, m, y =>
    match y.newPage pageMiB spillMiB die now (tblWriteN [] 0 65536 data) with
    | some (p, y) => takePages pageMiB spillMiB die now rest { m with pages := tblSet 0 m.pages e p } y
    | none => none
  | _, m, y => some (m, y)

/-- The stream of a transfer created at the target, with its map and pages (R354). -/
def arrivedStream (s : State) (l : Launch) (die : Nat) (w : List Nat) : Option (Nat × StrmSys) :=
  let at_ (i : Nat) : Nat := (w[i]?).getD 0
  let n := at_ 4
  match if s.recordsFull die then none else s.strmRun l.asid 1, takePages s.pf.fw.pageMiB s.pf.fw.spillMiB die (s.clock die) (w.drop (5 + n)) ⟨[], 1⟩ s.ss with
  | some id, some (m, y) =>
    let (mi, y) := y.newMap m
    let y := y.create (strmKey l.asid id) die l.number (BitVec.ofNat 64 (at_ 0)) mi
    some (id, y.setStream (strmKey l.asid id)
      { y.stream (strmKey l.asid id) with
        horizon := BitVec.ofNat 32 (at_ 1), ret := BitVec.ofNat 32 (at_ 2), returned := at_ 3 = 1,
        ring := ((w.drop 5).take n).map (BitVec.ofNat 512) })
  | _, _ => none

/-- STREAM_ARRIVAL: a stream arrives from a package, with the number of its request, the receive record, and what
`StrmSys.snapshot` carries; the answer goes back (R354). -/
def execStreamArrival (s : State) : Host.Outcome State Fault Refusal :=
  event (do
    let src ← evArg 0
    let req ← evArg 1
    let rec_ ← evArg 2
    let w ← evRest 3
    let s ← get
    need (pkgOf rec_ = s.ws.own && rec_ % 64 = 0 && s.live (homeOf rec_))
    let die := homeOf rec_
    let answer (v : Nat) : M Unit := sendFlit die (.response src [req, v])
    match s.ls.launches.find? fun l => l.recAddr = s.peek rec_ 8 with
    | none => answer strmFullStatus.toNat
    | some l =>
      match arrivedStream s l die w with
      | none => answer strmFullStatus.toNat
      | some (id, y) => do
        modSs fun _ => y
        launchUp l.number 1
        homeWrite (rec_ + 16) 4 id
        homeWrite (rec_ + 8) 8 ((s.peek (rec_ + 8) 8 + 1) % 2 ^ 64)
        dropIfCancelled l.number [strmKey l.asid id]
        answer id) s

/-! ### The scheduler and the page store (R334, R339, R350) -/

/-- The oldest WAITING stream of a die whose group has waited 2,048 cycles (R350). -/
def State.overdue (s : State) (die : Nat) : Option Nat :=
  (s.ss.waiting.find? fun w => (s.ss.stream w.1).home = die && decide (w.2 + 2048 ≤ s.clock die)).map (·.1)

/-- STREAM_BATCH_TIMEOUT: a batch forms of the group of a die's stream that has waited 2,048 cycles (R350). -/
def execStreamBatchTimeout (s : State) : Host.Outcome State Fault Refusal :=
  event (do
    let die ← evArg 0
    let key ← needSome ((← get).overdue die)
    modSs fun y => y.formBatch (y.stream key)) s

/-- A step task of a batch (R350). -/
def stepSlot (l : Launch) (b : Batch) (shadow : Bool) : Slot :=
  { newTask l b.stepPc (seedRegs (BitVec.ofNat 64 b.members.length) 0 l.args l.word) shadow false 0 with
    stepTask := true, strmCur := BitVec.ofNat 20 ((b.members.head?).getD 0), members := b.members }

/-- The slots that a batch's step task takes: its own, and its shadow's in a PAIRED launch. -/
def State.stepSlots (s : State) (b : Batch) : Option (Launch × Nat × Option Nat) :=
  match s.launch? b.launch with
  | none => none
  | some l =>
    match s.chooseCore l (1024 * b.die) 1024 with
    | none => none
    | some c =>
      match s.freeSlotOn c with
      | none => none
      | some t =>
        if l.paired then
          match (s.shadowCore l c).bind s.freeSlotOn with
          | some u => some (l, t, some u)
          | none => none
        else some (l, t, none)

/-- A spilled page put back, an old page spilled where the store is full (R334). -/
def StrmSys.reload (x : StrmSys) (pageMiB spillMiB now p : Nat) : Option StrmSys :=
  let g := x.page p
  ((x.setPage p .none).makeRoom pageMiB spillMiB g.home).map fun x =>
    x.setPage p { g with spilled := false, wanted := false, used := now }

/-- PAGE_RELOAD: a spilled page that an access waits for is reloaded (R334). -/
def execPageReload (s : State) : Host.Outcome State Fault Refusal :=
  event (do
    let p ← evArg 0
    let s ← get
    need ((s.ss.page p).spilled && (s.ss.page p).wanted)
    let y ← needSome (s.ss.reload s.pf.fw.pageMiB s.pf.fw.spillMiB (s.clock (s.ss.page p).home) p)
    modSs fun _ => y) s

/-- A slot whose wait for space has run out raises a cause at its instruction (R317, R339). -/
def spillExpiry (w : Wait) (c : Cause) (stated : Bool) : M Unit := do
  let t ← evArg 0
  let x := (← get).slot t
  need ((x.st = .parked || x.st = .ready) && x.wait = w)
  let limit ← needSome x.timer
  need (limit ≤ (← get).clock (dieOf t))
  takeTrap t c.code (if stated then some x.fullVal else none) x.pc x.fullRep
  forwardPacket .quit t false

/-- STRM_SPILLWAIT_EXPIRY: STRM.FULL at a store that waited HYP.SPILLWAIT cycles for a page (R339). -/
def execStrmSpillwaitExpiry (s : State) : Host.Outcome State Fault Refusal := event (spillExpiry .page .strmFull false) s

/-- VERSION_SPILLWAIT_EXPIRY: VERSION.FULL at a store that waited HYP.SPILLWAIT cycles for an entry (R317). -/
def execVersionSpillwaitExpiry (s : State) : Host.Outcome State Fault Refusal :=
  event (spillExpiry .space .versionFull true) s

end Sys2Proof.Machine
end

