-- ==== Sys2Proof/Machine/Rep.lean ====
section
/-!
DEFINITION. The REP prefix: a P word and its partner as one instruction of N repeats (R51, R54 to R56, R69, R202, R209, R267).
-/

namespace Sys2Proof.Machine

/-! ### The checks of a pair (R51, R55) -/

/-- A step bit for a field that is no register number (R54). -/
def stepBitBad (f : Option StepField) (step : Nat) : Bool := f.isNone && step ≠ 0
/-- A stepped field that leaves its range, or a stepped v field that reaches v31, in the last repeat (R55). -/
def stepLeaves (f : Option StepField) (n step : Nat) : Bool :=
  match f with
  | some f => step ≠ 0 && (let m := f.num + (n - 1) * step
                           decide (f.last < m) || (f.vec && m = 31))
  | none => false

/-- A stepped accumulator of `mxmul` that reaches PART.ACC in the last repeat (R55, R259). -/
def Seq_.accLeaves (q : Seq_) (part : Word) : Bool :=
  match q.partner with
  | .mxmul d _ _ => q.x ≠ 0 && decide (accCount part ≤ d.toNat + (q.n - 1) * q.x)
  | _ => false

/-- The checks of R55, R52, R202, R209, R259 and R267 on a sequence whose partner is repeatable. -/
def Seq_.fails (q : Seq_) (f : Option StepField × Option StepField × Option StepField) (part : Word) (priv : Bool) : Bool :=
  stepLeaves f.1 q.n q.x || stepLeaves f.2.1 q.n q.y || stepLeaves f.2.2 q.n q.z ||
  q.accLeaves part || illegalFor q.partner part priv || illegalFor (q.at (q.n - 1)) part priv ||
  (decide (4 < q.n) && (names31 q.partner || names31 (q.at (q.n - 1))))

/-- A trap of a sequence writes TRAP.REP too (R56, R85). -/
def withRep {α : Type} (k : Nat) (b : M α) : M α := do
  match ← attempt b with
  | .ok a => pure a
  | .error (.trap code val) => do
    modSlot fun x => { x with trapRep := BitVec.ofNat 6 k }
    throw (.trap code val)
  | .error e => throw e

/-- The pair checked in the order of R51; `p` is the P word, `w` the partner's. -/
def checkPair (p w : Nat) (seq : Instr → Seq_) : M Seq_ := do
  let x ← curSlot
  match decode (wordBytes w) with
  | .error _ => raise .illegal (BitVec.ofNat 64 w)
  | .ok (i, _) =>
    match repFields i with
    | none => raise .illegal (BitVec.ofNat 64 w)
    | some f => do
      let q := seq i
      check (!(stepBitBad f.1 q.x || stepBitBad f.2.1 q.y || stepBitBad f.2.2 q.z)) .illegal (BitVec.ofNat 64 p)
      check (!q.fails f x.part x.priv) .illegal (BitVec.ofNat 64 p)
      pure q

/-! ### Issue (R56, R69, R209) -/

/-- What a repeat names that an engine fault may concern (R402). -/
def repNames (x : Slot) (k : Nat) : Instr → List Named
  | .pld _ a | .pst _ a => [.tile (padOffset (x.gval a) k / 4096)]
  | .mxmul d a b => [accName d, opName a, opName b]
  | .tld _ a _ _ | .tst _ a _ _ => [.handle (x.hval a).daddr.toNat]
  | _ => []

/-- The slots of the receiver's inbound queue, and its own messages, that the repeats from k on need (R209). -/
def Seq_.channels (q : Seq_) (k : Nat) : M Unit := do
  let is := q.from k
  if is.any pops31 then checkPop false else pure ()
  if is.any popsV31 then checkPop true else pure ()
  if is.any pushes31 then checkPush false else pure ()
  if is.any pushesV31 then checkPush true else pure ()
  if is.any pops then waitPops (is.filter pops).length else pure ()
  let n := (is.filter fun i => pushes31 i || pushesV31 i).length
  if n = 0 then pure () else waitPushes n

/-- What comes before the first repeat: the holds, the causes of R401, the budget, the channels, the partner of a pair. CANCEL, pending
while the slot waits, comes in its place among the causes (R77, R401). The answer is the repeat before which the copies of a pair come to
differ. -/
def Seq_.start (q : Seq_) (k : Nat) : M (Option Nat) := do
  let t ← curId
  let cancel := (← get).cancelsHere t q.partner
  withRep k do
    if cancel then
      if isOrphanPoint q.partner then orphanCheck t else pure ()
    else do
      issueHolds q.partner
      orphanPoint q.partner (q.channels k)
  let x ← curSlot
  deliverFault t fun f => f.names.any fun n => (((List.range q.n).drop k).flatMap fun j => repNames x j (q.at j)).contains n
  withRep k do
    if cancel then cancelHere t (some k) else pure ()
    checkFree (q.n - k ≤ (← curSlot).yieldLeft.toNat) .yieldOverrun
    q.channels k
  pure ((← comparePackets (q.from k)).map (k + ·))

/-- Repeat k placed; its message is the j-th of the slot's. -/
def placeRepeat (k j : Nat) (i : Instr) : M Unit :=
  match i with
  | .mxmul d a b => mxmulIssue d a b
  | .vld t _ a _ => placeAccess i t a none none false k j (some k)
  | .vst t _ a _ => placeAccess i t a none none true k j (some k)
  | .pld _ a | .pst _ a => placePad i a k j (some k)
  | .tld _ a b _ => placeTensor i a b false k j (some k)
  | .tst _ a b _ => placeTensor i a b true k j (some k)
  | i => placeEntry i j (some k) .none

/-- A body run with the messages that a sequence took at the head of the slot's. -/
def withTaken {α : Type} (taken : List Nat) (b : M α) : M (Except Stop α) := do
  modSlot fun x => { x with inq := taken.map (fun d => (⟨true, 0, true, BitVec.ofNat 4096 d⟩ : Msg)) ++ x.inq }
  let r ← attempt b
  popMany taken.length
  pure r

/-- Repeat k of a sequence placed, and charged when it is done with its issue. A trap of a repeat comes after the earlier ones have
completed, and gives back what the repeats from it on have taken (R56, R203, R205). -/
def Running.repeat_ (r : Running) (k : Nat) : M Unit := do
  let t ← curId
  let q := r.seq
  match ← withTaken r.taken (placeRepeat k (q.popped r.start k) (q.at k)) with
  | .ok _ => if isHeldV q.partner then pure () else modSlot Slot.charge
  | .error (.park w) => do
    modSlot fun x => { x with fullRep := some k, repFrom := if k = r.start then 0 else k + 1 }
    park w
  | .error (.trap code val) => do
    if isHeldV q.partner && !(← get).heldDone t then do
      modSlot fun x => { x with repFrom := k + 1 }
      park .queue
    else do
      r.giveBack t k
      r.forward t k
      modSlot fun x => { x with trapRep := BitVec.ofNat 6 k }
      throw (.trap code val)

/-- The repeats from k on, n at most. -/
def Running.run (r : Running) : Nat → Nat → M Unit
  | 0, _ => pure ()
  | n + 1, k => do
    if r.limit ≤ k then pure ()
    else do
      r.repeat_ k
      r.run n (k + 1)

/-- The end of a sequence: the pc past the pair. Where the copies of a pair differ, REDUNDANCY at that repeat (R410). -/
def Running.finish (r : Running) : M Unit := do
  let t ← curId
  let x ← curSlot
  if r.limit < r.seq.n then do
    r.giveBack t r.limit
    r.forward t r.limit
    match x.partner with
    | some u => redundancyBoth t u false (x.pairSeq + (r.limit - r.start)) (some r.limit)
    | none => pure ()
  else do
    r.forward t r.seq.n
    modSlot fun x => { x with pc := x.pc + 8, st := .ready, wait := .none, timer := none, tretRep := false, repFrom := 0, pend := none }

/-- A sequence from repeat k on. -/
def Running.go (r : Running) (k : Nat) : M Flow := do
  r.run r.seq.n k
  if isHeldV r.seq.partner && !(← get).heldDone (← curId) then do
    modSlot fun x => { x with repFrom := r.limit + 1 }
    park .queue
  else do
    r.finish
    pure .gone

/-- A sequence that begins at repeat k0. Where its first repeat must wait, it has not issued: it gives back what it took, and issues again
from its P word. -/
def Seq_.begin (q : Seq_) (p k0 w : Nat) : M Flow := do
  let limit := (← q.start k0).getD (max q.n k0)
  let taken ← q.take k0
  let r : Running := ⟨q, k0, limit, taken⟩
  modSlot fun x => { x with pend := some ⟨.vector, w, p :: k0 :: limit :: taken, none⟩ }
  match ← attempt (r.go k0) with
  | .ok f => pure f
  | .error (.park w) => do
    if (← curSlot).repFrom = 0 then do
      r.giveBack (← curId) k0
      modSlot fun x => { x with pend := none }
    else pure ()
    park w
  | .error e => throw e

/-- The body of a P word. A trap of the pair's fetch or of its words has TRAP.REP 0 (R56; DEDUCED for the words, log entry 49). -/
def repBody (p : Nat) (seq : Instr → Seq_) : M Flow := do
  let x ← curSlot
  match x.running, x.repFrom with
  | some r, k + 1 => r.go k
  | _, _ => do
    let w ← withRep 0 (fetchWord (x.pc + 4).toNat)
    let q ← withRep 0 (do
      check (p / 2 ^ 18 % 64 ≠ 0) .illegal (BitVec.ofNat 64 p)
      checkPair p w seq)
    q.begin p (if x.tretRep then x.trapRep.toNat else 0) w

/-- `rep`: the partner's repeats as one instruction (R54 to R56). -/
def execRep (count : BitVec 6) (sd sa sb : Bool) (stride : Stride) (s : State) : Host.Outcome State Fault Refusal :=
  let i : Instr := .rep count sd sa sb stride
  if (s.slot s.cur).st = .free then .fault .noTask
  else .next (conclude i s.cur (s.slot s.cur).pc (repBody (wordOf i) (seqOf count sd sa sb stride) s))

end Sys2Proof.Machine
end

