-- ==== Sys2Proof/Machine/Factor.lean ====
section
/-!
DEFINITION. Queues: the words of a QCB, commits and errors, mapping, and the packets other than LAUNCH (R278 to R297, R429 to
R431).
-/

namespace Sys2Proof.Machine

/-! ### A queue and its QCB (R279, R280) -/

/-- A registered queue, by die·1024 + entry. -/
def State.queue (s : State) (key : Nat) : Option Queue := tblGet none s.fs.queues key
/-- A queue replaced, or unregistered. -/
def putQueue (key : Nat) (q : Option Queue) : M Unit := modFs fun f => { f with queues := tblSet none f.queues key q }
/-- A change of a registered queue. -/
def modQueue (key : Nat) (f : Queue → Queue) : M Unit := do putQueue key (((← get).queue key).map f)

/-- The die that serves a queue. -/
def queueDie (key : Nat) : Nat := key / 1024

def State.qWrite (s : State) (qcb : Nat) : Nat := s.peek qcb 8
def State.qRestart (s : State) (qcb : Nat) : Nat := s.peek (qcb + 24) 8
def State.qErrsig (s : State) (qcb : Nat) : Nat := s.peek (qcb + 32) 8
def State.qRing (s : State) (qcb : Nat) : Nat := s.peek (qcb + 40) 8
def State.qLog2 (s : State) (qcb : Nat) : Nat := s.peek (qcb + 48) 1 % 32
def State.qDie (s : State) (qcb : Nat) : Nat := s.peek (qcb + 49) 1 % 4
def State.qWorld (s : State) (qcb : Nat) : Bool := s.peek (qcb + 49) 1 / 4 % 2 = 1
def State.qSys (s : State) (qcb : Nat) : Bool := s.peek (qcb + 49) 1 / 8 % 2 = 1
def State.qPrio (s : State) (qcb : Nat) : Nat := s.peek (qcb + 49) 1 / 16
def State.qAsid (s : State) (qcb : Nat) : BitVec 16 := BitVec.ofNat 16 (s.peek (qcb + 50) 2)

/-- The Factor's words of the newest copy (R280). -/
structure QWords where
  readIndex : Nat
  errIndex : Nat
  iter : Nat
  off : Nat
  error : Bool
  reason : Nat
  deriving DecidableEq, Repr

def State.qWords (s : State) (qcb : Nat) : QWords :=
  let c := s.ms.newestCopy qcb
  { readIndex := s.peek (c + 8) 8, errIndex := s.peek (c + 16) 8, iter := s.peek (c + 24) 4, off := s.peek (c + 28) 2,
    error := s.peek (c + 30) 1 = 1, reason := s.peek (c + 31) 1 }

/-- The fourth doubleword of a copy. -/
def QWords.status (w : QWords) : Nat :=
  w.iter % 2 ^ 32 + w.off % 2 ^ 16 * 2 ^ 32 + w.error.toNat * 2 ^ 48 + w.reason * 2 ^ 56

/-- CommitUpdate (R280): the words of the other copy, the packet's action, then its SEQ with release. The checks of the action
have been made. -/
def commit (qcb : Nat) (w : QWords) (action : M Unit) : M Unit := do
  let s ← get
  let c := s.ms.newestCopy qcb
  let o := if c = qcb + 64 then qcb + 96 else qcb + 64
  let n := s.peek c 8
  homeWrite o 8 ((n + 1) % 2 ^ 64)
  homeWrite (o + 24) 8 w.status
  homeWrite (o + 16) 8 w.errIndex
  homeWrite (o + 8) 8 w.readIndex
  action
  homeWrite o 8 ((n + 2) % 2 ^ 64)

/-! ### Accesses of a thread (R278) -/

/-- The agent that a queue's thread is: the queue's ASID, privilege and world. -/
def State.qAgent (s : State) (key qcb : Nat) : Agent :=
  { die := queueDie key, cell := 2 ^ 20, asid := s.qAsid qcb, sys := s.qSys qcb, secure := s.qWorld qcb, hyp := 0, strm := 0,
    serial := 0, ctx := ctxOf (s.qAsid qcb).toNat 0 none }

/-- The fabric address of an access of a thread; a window address is a fault. -/
def qPlace (key qcb va n : Nat) (k : Acc) : M Nat := do
  let ag := (← get).qAgent key qcb
  match ← checkAccessBy ag .none (BitVec.ofNat 64 va) n k with
  | (_, some t) => pure t.pa
  | (_, none) => raiseFree .strmWindow

/-- A word that a thread reads, integrity-checked. -/
def qRead (key qcb va n : Nat) : M Nat := do
  let pa ← qPlace key qcb va n .read
  consumeHomeAs ((← get).qAgent key qcb).ctx (lineAddr pa)
  peek pa n

/-- A signal that a thread will change: its place and its old value checked. -/
def qSignal (key qcb va : Nat) : M Nat := do
  let pa ← qPlace key qcb va 8 .rmw
  consumeHomeAs ((← get).qAgent key qcb).ctx (lineAddr pa)
  pure pa

/-- The same for a signal that 0 leaves out. -/
def qSignalOpt (key qcb va : Nat) : M (Option Nat) := do
  if va = 0 then pure none else pure (some (← qSignal key qcb va))

/-- The ring entry of an index as 512 bits, in local memory of the package (R278, R281). -/
def qEntry (key qcb index : Nat) : M Nat := do
  let s ← get
  let va := s.qRing qcb + index % 2 ^ s.qLog2 qcb * 64
  let pa ← qPlace key qcb va 64 .read
  checkFree (pkgOf pa = s.ws.own) .fabUnreach
  consumeHomeAs (s.qAgent key qcb).ctx (lineAddr pa)
  peek pa 64

/-- The QCB's own lines, integrity-checked; a lost home is a fault. -/
def qcbCheck (key qcb : Nat) : M Unit := do
  let s ← get
  checkFree (s.live (homeOf qcb)) .memLost
  consumeHomeAs (s.qAgent key qcb).ctx qcb
  consumeHomeAs (s.qAgent key qcb).ctx (qcb + 64)

/-! ### Errors (R290) -/

/-- ERRSIG decremented by a thread of a die, if it names a signal that can be reached (R290). -/
def errsigDown (key qcb : Nat) : M Unit := do
  let va := (← get).qErrsig qcb
  if va = 0 then pure ()
  else do
    match ← attempt (qSignal key qcb va) with
    | .ok pa => signalDown pa 1
    | .error (.trap _ _) => pure ()
    | .error e => throw e

/-- The words of a queue in ERROR at an index, for a reason, then ERRSIG (R290). -/
def commitError (qcb index reason : Nat) : M Unit := do
  let s ← get
  commit qcb { s.qWords qcb with error := true, reason := reason, errIndex := index } (pure ())
  errsigDown (1024 * s.qDie qcb) qcb

/-- A registered queue in ERROR: its thread stops consuming (R290). -/
def queueError (key index reason : Nat) : M Unit := do
  match (← get).queue key with
  | none => pure ()
  | some q => do
    commitError q.qcb index reason
    modQueue key fun q => { q with packet := none, blocked := .no }

/-- A thread's work; a fault on an access is ERROR with REASON 3 at the index (R278). -/
def guardFault (key index : Nat) (x : M Unit) : M Unit := do
  match ← attempt x with
  | .ok _ => pure ()
  | .error (.trap _ _) => queueError key index 3
  | .error e => throw e

/-! ### The thread's position (R283, R289, R292) -/

/-- Whether an entry is published at an index (R283). -/
def publishedAt (p l index : Nat) : Bool := p % 256 ≠ 0 && p / 256 % 2 = index / 2 ^ l % 2

/-- The thread reads the entry at its position: it takes a published packet up, sleeps, or finds a stretch that is too long (R282, R283,
R289). -/
def lookNext (key : Nat) : M Unit := do
  let s ← get
  match s.queue key with
  | none => pure ()
  | some q => do
    let now := s.clock (queueDie key)
    let l := s.qLog2 q.qcb
    let long : Bool := match q.replay with
      | some r => r.start + 2 ^ l ≤ q.next
      | none => false
    modQueue key fun q => { q with waitingSince := now }
    if !q.mapped || (s.qWords q.qcb).error || q.blocked ≠ .no then pure ()
    else if long then queueError key q.next 4
    else guardFault key q.next do
      qcbCheck key q.qcb
      let p ← qEntry key q.qcb q.next
      modQueue key fun q => { q with packet := if publishedAt p l q.next then some p else none }

/-- A doubleword of a packet. -/
def dword (p k : Nat) : Nat := p / 2 ^ (64 * k) % 2 ^ 64

/-- The replay that a REPLAY-BEGIN packet starts. -/
def replayOf (start p iter : Nat) : Replay :=
  { start := start, count := dword p 1 % 2 ^ 32, stop := dword p 2, iterWord := dword p 3, iter := iter }

/-- A thread takes up a queue at the newest copy: at READ_INDEX, or inside the replay that REPLAY_OFF records (R292). -/
def resumeThread (key : Nat) : M Unit := do
  let s ← get
  match s.queue key with
  | none => pure ()
  | some q => do
    let w := s.qWords q.qcb
    modQueue key fun q => { q with next := w.readIndex, replay := none, blocked := .no, packet := none }
    if w.off = 0 || w.error then pure ()
    else guardFault key w.readIndex do
      let p ← qEntry key q.qcb w.readIndex
      modQueue key fun q => { q with next := w.readIndex + w.off, replay := some (replayOf w.readIndex p w.iter) }
    lookNext key

/-! ### Consuming a packet -/

/-- Whether a packet of the queue with a QCB is in flight (R285). -/
def State.flying (s : State) (qcb : Nat) : Bool := s.fs.inFlight.any fun e => e.1 = qcb

/-- A queue whose thread has read a published packet and may start it: one that sets BARRIER waits for what is in flight (R285). -/
def State.readyPacket (s : State) (key : Nat) : Option (Queue × Nat) :=
  match s.queue key with
  | none => none
  | some q =>
    match q.packet with
    | none => none
    | some p =>
      if q.mapped && q.blocked = .no && !q.unmapping && !(s.qWords q.qcb).error && (p / 1024 % 2 = 0 || !s.flying q.qcb) then
        some (q, p)
      else none

/-- The queue and the packet of an event for a packet type. -/
def takePacket (key type : Nat) : M (Queue × Nat) := do
  let (q, p) ← needSome ((← get).readyPacket key)
  need (p % 256 = type)
  pure (q, p)

/-- The words after the packet at the position has been consumed (R280, R289). -/
def Queue.advance (q : Queue) (w : QWords) : QWords :=
  match q.replay with
  | none => { w with readIndex := q.next + 1, off := 0 }
  | some r => { w with off := q.next + 1 - r.start }

/-- A packet consumed: the words with the action, the thread on to the next index (R280, R292). -/
def consumePacket (key : Nat) (q : Queue) (action : M Unit) : M Unit := do
  commit q.qcb (q.advance ((← get).qWords q.qcb)) action
  modQueue key fun q => { q with next := q.next + 1, blocked := .no, packet := none }

/-- A packet that is complete when it is consumed: its interrupt, then the next header (R285, R297). -/
def finishPacket (key : Nat) (q : Queue) (p : Nat) : M Unit := do
  if p / 512 % 2 = 1 then packetInterrupt q.qcb q.next else pure ()
  lookNext key

/-- A packet stays in flight until `packetDone`. -/
def startPacket (key : Nat) (q : Queue) : M Unit := do
  modFs fun f => { f with inFlight := f.inFlight ++ [(q.qcb, q.next)] }
  lookNext key

/-- A packet's body: malformed is REASON 2, a fault REASON 3; what it answers is performed (R280, R285, R288). -/
def runPacket (key : Nat) (q : Queue) (malformed : Bool) (body : M Unit) : M Unit := do
  if malformed then queueError key q.next 2 else guardFault key q.next body

/-- RSV bits of the header that every type has, and of the ARG of types that define none (R284). -/
def headerBad (p : Nat) : Bool := p / 2 ^ 11 % 32 ≠ 0
def argBad (p : Nat) : Bool := p / 2 ^ 16 % 2 ^ 48 ≠ 0
/-- A reserved doubleword. -/
def reservedFrom (p k : Nat) : Bool := p / 2 ^ (64 * k) ≠ 0

/-! ### Packets (R285, R288, R289) -/

/-- SIGNAL_PACKET: the signal less DELTA (R288). -/
def execSignalPacket (s : State) : Host.Outcome State Fault Refusal :=
  event (do
    let key ← evArg 0
    let (q, p) ← takePacket key 0x04
    runPacket key q (headerBad p || argBad p || reservedFrom p 3 || dword p 1 % 8 ≠ 0) do
      let pa ← qSignal key q.qcb (dword p 1)
      consumePacket key q (signalDown pa (BitVec.ofNat 64 (dword p 2)).toInt)
      finishPacket key q p) s

/-- CANCEL_PACKET: as `cancel` on a record (R75, R288). -/
def execCancelPacket (s : State) : Host.Outcome State Fault Refusal :=
  event (do
    let key ← evArg 0
    let (q, p) ← takePacket key 0x06
    let level := p / 2 ^ 16 % 4
    runPacket key q (headerBad p || p / 2 ^ 18 % 2 ^ 46 ≠ 0 || level = 3 || reservedFrom p 2 || dword p 1 % 64 ≠ 0) do
      let pa ← qPlace key q.qcb (dword p 1) 8 .write
      let s ← get
      consumeHomeAs (s.qAgent key q.qcb).ctx (lineAddr pa)
      if s.recLevel pa = level ∧ s.recAsid pa = s.qAsid q.qcb then do
        consumePacket key q (requestCancel pa)
        finishPacket key q p
      else queueError key q.next 2) s

/-- RESTART_ACK: its signal less 1, ERR_INDEX and REASON cleared (R288). -/
def execRestartAck (s : State) : Host.Outcome State Fault Refusal :=
  event (do
    let key ← evArg 0
    let (q, p) ← takePacket key 0x09
    runPacket key q (headerBad p || argBad p || reservedFrom p 2 || dword p 1 % 8 ≠ 0) do
      let sig ← qSignalOpt key q.qcb (dword p 1)
      let w := { (← get).qWords q.qcb with errIndex := 0, reason := 0 }
      commit q.qcb (q.advance w) (signalDone sig)
      modQueue key fun q => { q with next := q.next + 1, packet := none }
      finishPacket key q p) s

/-- REPLAY_BEGIN: ITER 0 stored with release, the replay begun; READ_INDEX stays (R289). -/
def execReplayBegin (s : State) : Host.Outcome State Fault Refusal :=
  event (do
    let key ← evArg 0
    let (q, p) ← takePacket key 0x07
    let bad := headerBad p || argBad p || reservedFrom p 4 || dword p 1 / 2 ^ 32 ≠ 0 || dword p 2 % 8 ≠ 0 || dword p 3 % 8 ≠ 0
    if !bad && q.replay.isSome then queueError key q.next 4
    else runPacket key q bad do
      if dword p 2 = 0 then pure ()
      else do
        let _ ← qRead key q.qcb (dword p 2) 8
        pure ()
      let iw ← if dword p 3 = 0 then pure none else do pure (some (← qPlace key q.qcb (dword p 3) 8 .write))
      let w := (← get).qWords q.qcb
      commit q.qcb { w with readIndex := q.next, off := 1, iter := 0 } (match iw with
        | some pa => homeWrite pa 8 0
        | none => pure ())
      modQueue key fun q => { q with next := q.next + 1, packet := none, replay := some (replayOf q.next p 0) }
      finishPacket key q p) s

/-- REPLAY_END: ITER advances, and the replay ends or runs again (R289). -/
def execReplayEnd (s : State) : Host.Outcome State Fault Refusal :=
  event (do
    let key ← evArg 0
    let (q, p) ← takePacket key 0x08
    let bad := headerBad p || argBad p || reservedFrom p 1
    match bad, q.replay with
    | false, none => queueError key q.next 4
    | false, some r => runPacket key q false do
        let iter := (r.iter + 1) % 2 ^ 32
        let stop ← if r.stop = 0 then pure 1 else do
          pure (BitVec.ofNat 64 (← qRead key q.qcb r.stop 8)).toInt
        let iw ← if r.iterWord = 0 then pure none else do pure (some (← qPlace key q.qcb r.iterWord 8 .write))
        let w := (← get).qWords q.qcb
        if (r.count ≠ 0 ∧ iter = r.count) ∨ stop ≤ 0 then do
          commit q.qcb { w with readIndex := q.next + 1, off := 0, iter := iter } (pure ())
          modQueue key fun q => { q with next := q.next + 1, packet := none, replay := none }
        else do
          commit q.qcb { w with off := 1, iter := iter } (match iw with
            | some pa => homeWrite pa 8 iter
            | none => pure ())
          modQueue key fun q => { q with next := r.start + 1, packet := none, replay := some { r with iter := iter } }
        finishPacket key q p
    | true, _ => queueError key q.next 2) s

/-- RESERVED_PACKET: a reserved type is ERROR with REASON 1 (R285). -/
def execReservedPacket (s : State) : Host.Outcome State Fault Refusal :=
  event (do
    let key ← evArg 0
    let (q, p) ← needSome ((← get).readyPacket key)
    need (0x0A ≤ p % 256)
    queueError key q.next 1) s

/-- WAIT_PACKET: the thread blocks on its signal (R285). -/
def execWaitPacket (s : State) : Host.Outcome State Fault Refusal :=
  event (do
    let key ← evArg 0
    let (q, p) ← takePacket key 0x03
    runPacket key q (headerBad p || argBad p || reservedFrom p 3 || dword p 1 % 8 ≠ 0) do
      let _ ← qRead key q.qcb (dword p 1) 8
      modQueue key fun q =>
        { q with blocked := .waitLe (dword p 1) (BitVec.ofNat 64 (dword p 2)).toInt }) s

/-- Whether the condition of a blocked thread holds; a fault holds it too, for the thread to meet. -/
def State.unblocked (s : State) (key : Nat) (q : Queue) : Bool :=
  let value (va : Nat) : Option Int := match qRead key q.qcb va 8 s with
    | .ok v _ => some (BitVec.ofNat 64 v).toInt
    | .error _ _ => none
  match q.blocked with
  | .waitLe sig v => (match value sig with
      | some x => decide (x ≤ v)
      | none => true)
  | .allZero sigs => sigs.any (fun g => (value g).isNone) || sigs.all fun g => match value g with
      | some x => decide (x ≤ 0)
      | none => true
  | _ => false

/-- A queue blocked on its condition, with the packet that the thread has read. -/
def blockedPacket (key : Nat) (barrier : Bool) : M (Queue × Nat) := do
  let s ← get
  let q ← needSome (s.queue key)
  need (q.mapped && (match q.blocked with
    | .waitLe _ _ => !barrier
    | .allZero _ => barrier
    | _ => false) && s.unblocked key q)
  pure (q, ← needSome q.packet)

/-- WAIT_PACKET_COMPLETE: the signal is at VALUE or below (R285). -/
def execWaitPacketComplete (s : State) : Host.Outcome State Fault Refusal :=
  event (do
    let key ← evArg 0
    let (q, p) ← blockedPacket key false
    guardFault key q.next do
      match q.blocked with
      | .waitLe sig _ => do
        let _ ← qRead key q.qcb sig 8
        consumePacket key q (pure ())
        finishPacket key q p
      | _ => pure ()) s

/-- The dependency signals of a BARRIER-AND packet: every one that is not 0 (R288). -/
def depSignals (p : Nat) : List Nat := ([1, 2, 3, 4, 5].map (dword p)).filter (· ≠ 0)

/-- BARRIER_AND_PACKET: the thread blocks on its dependency signals (R285). -/
def execBarrierAndPacket (s : State) : Host.Outcome State Fault Refusal :=
  event (do
    let key ← evArg 0
    let (q, p) ← takePacket key 0x05
    runPacket key q (headerBad p || argBad p || dword p 6 ≠ 0 || dword p 7 % 8 ≠ 0 ||
        (depSignals p).any fun g => g % 8 ≠ 0) do
      let _ ← mapEach (fun g => qRead key q.qcb g 8) (depSignals p)
      let _ ← qSignalOpt key q.qcb (dword p 7)
      modQueue key fun q => { q with blocked := .allZero (depSignals p) }) s

/-- BARRIER_AND_COMPLETE: every named signal is at 0 or below; the completion signal less 1 (R285). -/
def execBarrierAndComplete (s : State) : Host.Outcome State Fault Refusal :=
  event (do
    let key ← evArg 0
    let (q, p) ← blockedPacket key true
    guardFault key q.next do
      let _ ← mapEach (fun g => qRead key q.qcb g 8) (depSignals p)
      let sig ← qSignalOpt key q.qcb (dword p 7)
      consumePacket key q (signalDone sig)
      finishPacket key q p) s

/-- The geometry of a COPY packet (R288). -/
def copyGeometry (p : Nat) : Geometry :=
  { run := dword p 3 % 2 ^ 32, n := [dword p 3 / 2 ^ 32 % 2 ^ 16 + 1, 1, 1],
    s := [(BitVec.ofNat 64 (dword p 4)).toInt, 0, 0], t := [(BitVec.ofNat 64 (dword p 5)).toInt, 0, 0] }

/-- A side of a copy reaches outside [0, 2^56), which is REASON 2 (R301). -/
def outsideExtent (base : Nat) (e : Int × Int) : Bool := decide ((base : Int) + e.1 < 0) || decide ((2 : Int) ^ 56 ≤ (base : Int) + e.2)

/-- A COPY packet that is malformed, its geometry included (R288, R301). -/
def copyBad (p : Nat) : Bool :=
  let g := copyGeometry p
  headerBad p || argBad p || dword p 3 / 2 ^ 48 ≠ 0 || dword p 3 % 2 ^ 32 = 0 || dword p 6 ≠ 0 || dword p 7 % 8 ≠ 0 ||
    outsideExtent (dword p 1) (extent g g.s) || outsideExtent (dword p 2) (extent g g.t)

/-- The accesses of a copy's two sides and its signal, as the thread checks them (R278, R301). -/
def copyChecks (key : Nat) (q : Queue) (p : Nat) : M Unit := do
  let _ ← qPlace key q.qcb (dword p 1) 1 .read
  let _ ← qPlace key q.qcb (dword p 2) 1 .write
  let _ ← qSignalOpt key q.qcb (dword p 7)

/-- COPY_PACKET: a `cpy.mm` of the queue when a Carter takes it (R285, R288). -/
def execCopyPacket (s : State) : Host.Outcome State Fault Refusal :=
  event (do
    let key ← evArg 0
    let (q, p) ← takePacket key 0x02
    let s ← get
    runPacket key q (copyBad p) do
      copyChecks key q p
      let c ← needSome (s.freeCarter (queueDie key))
      consumePacket key q (enqueueCmd
        { id := 0, die := queueDie key, carter := c, form := .mm, geo := copyGeometry p, src := dword p 1, dst := dword p 2,
          bar := none, signal := dword p 7, slot := none, core := 0, asid := s.qAsid q.qcb, sys := s.qSys q.qcb,
          world := s.qWorld q.qcb, hyp := 0, strm := 0, serial := 0, launch := 0, done := 0, tiles := [], twin := none,
          queue := some (q.qcb, q.next, p / 512 % 2), timer := none, faulted := false })
      startPacket key q) s

/-- A COPY packet whose command fails: it is in flight no more, and its queue goes into ERROR with REASON 3 (R303). -/
def copyFailed (qcb index : Nat) : M Unit := do
  packetDone qcb index 0
  match (← get).fs.queues.find? fun e => e.2.any fun q => q.qcb = qcb with
  | some (key, _) => queueError key index 3
  | none => commitError qcb index 3

/-- CARTER_SECTOR: the first command of a Carter takes one sector; what fails a COPY puts its queue into ERROR with REASON 3
(R302, R303). -/
def execCarterSector (s : State) : Host.Outcome State Fault Refusal :=
  event (do
    let id ← evArg 0
    let c ← needSome ((← get).es.cmds.find? fun c => c.id = id)
    need (((← get).carterCmds c.die c.carter).head? = some c && (← get).live c.die)
    c.run copyFailed) s

/-! ### Restart, watchdog (R291, R292) -/

/-- QUEUE_RESTART: the restart that a flag-set store asked for (R291, R431). -/
def execQueueRestart (s : State) : Host.Outcome State Fault Refusal :=
  event (do
    let key ← evArg 0
    let s ← get
    let q ← needSome (s.queue key)
    need (q.mapped && q.restart)
    modQueue key fun q => { q with restart := false }
    let w := s.qWords q.qcb
    if !w.error then lookNext key
    else guardFault key w.errIndex do
      qcbCheck key q.qcb
      let r := s.qRestart q.qcb
      if w.readIndex ≤ r ∧ r ≤ s.qWrite q.qcb then do
        commit q.qcb { w with readIndex := r, error := false, off := 0 } (pure ())
        modQueue key fun q => { q with next := r, replay := none, blocked := .no, packet := none }
        lookNext key
      else do
        commit q.qcb { w with reason := 5 } (pure ())
        errsigDown key q.qcb) s

/-- FACTOR_WATCHDOG: a thread reset by the firmware watchdog resumes from the newest copy (R292). -/
def execFactorWatchdog (s : State) : Host.Outcome State Fault Refusal :=
  event (do
    let key ← evArg 0
    let q ← needSome ((← get).queue key)
    need q.mapped
    resumeThread key) s

/-! ### The table and the mapping (R293 to R295) -/

/-- The QCB of a valid entry of a die's queue table, as a fabric address (R293). -/
def State.tableQcb (s : State) (key : Nat) : Option Nat :=
  let base := tblGet 0 s.pf.fw.qtab (queueDie key)
  let e : Word := BitVec.ofNat 64 (s.peek (s.fabric (base + 8 * (key % 1024))) 8)
  let qcb := s.fabric (128 * fieldOf e 39 7)
  if base ≠ 0 && e.getLsbD 0 && fieldOf e 55 40 = 0 && s.qDie qcb = queueDie key && decide (4 ≤ s.qLog2 qcb) &&
    decide (s.qLog2 qcb ≤ 16) then some qcb else none

/-- Work pending: an index not consumed, or a replay (R294). -/
def State.pendingWork (s : State) (qcb : Nat) : Bool :=
  let w := s.qWords qcb
  !w.error && (decide (w.readIndex < s.qWrite qcb) || w.off ≠ 0)

/-- A queue as it is registered. -/
def State.newQueue (s : State) (key qcb : Nat) : Queue :=
  { qcb := qcb, mapped := false, runnable := s.pendingWork qcb, waitingSince := s.clock (queueDie key),
    next := (s.qWords qcb).readIndex, blocked := .no, replay := none, unmapping := false, notified := false,
    restart := false, packet := none }

/-- Unmap (R295): the thread lets go; a queue whose entry is no longer valid is unregistered. -/
def unmapQueue (key : Nat) : M Unit := do
  let s ← get
  match s.queue key with
  | none => pure ()
  | some q =>
    if s.tableQcb key = some q.qcb then
      putQueue key (some { q with mapped := false, unmapping := false, packet := none, replay := none, blocked := .no,
                                  runnable := s.pendingWork q.qcb || q.notified || q.restart,
                                  waitingSince := s.clock (queueDie key) })
    else putQueue key none

/-- QUEUE_TABLE_UPDATE: a store to an entry is taken up; a mapped queue that is no longer valid is unmapped at its next packet
boundary (R293). -/
def execQueueTableUpdate (s : State) : Host.Outcome State Fault Refusal :=
  event (do
    let key ← evArg 0
    let s ← get
    need (key < 4096 && s.live (queueDie key))
    match s.queue key, s.tableQcb key with
    | none, some qcb => putQueue key (some (s.newQueue key qcb))
    | some q, e =>
      if e = some q.qcb then pure ()
      else if q.mapped then modQueue key fun q => { q with unmapping := true }
      else putQueue key none
    | none, none => pure ()) s

/-- The registered queues of a die. -/
def State.queuesOf (s : State) (die : Nat) : List (Nat × Queue) :=
  s.fs.queues.filterMap fun e => if queueDie e.1 = die then e.2.map fun q => (e.1, q) else none

/-- Whether a queue is runnable: work pending while ACTIVE, or a notify store since it was last checked (R294). -/
def State.runnable (s : State) (q : Queue) : Bool := q.runnable || s.pendingWork q.qcb

/-- The runnable queues of a die without a thread, and its mapped ones. -/
def State.runnableQueues (s : State) (die : Nat) : List (Nat × Queue) :=
  (s.queuesOf die).filter fun e => s.runnable e.2 && !e.2.mapped
def State.mappedQueues (s : State) (die : Nat) : List (Nat × Queue) := (s.queuesOf die).filter fun e => e.2.mapped
/-- Whether every thread of a die serves a queue (R16). -/
def State.threadsFull (s : State) (die : Nat) : Bool := 32 ≤ (s.mappedQueues die).length

/-- Whether a queue is mapped before another: higher PRIO, then longer waiting (R294). -/
def State.mapsBefore (s : State) (a b : Nat × Queue) : Bool :=
  let pa := s.qPrio a.2.qcb
  let pb := s.qPrio b.2.qcb
  decide (pb < pa) || (pa = pb && decide (a.2.waitingSince < b.2.waitingSince))

/-- The queue of a list that comes first. -/
def State.firstToMap (s : State) : List (Nat × Queue) → Option (Nat × Queue)
  | [] => none
  | a :: r => match s.firstToMap r with
    | some b => some (if s.mapsBefore b a then b else a)
    | none => some a

/-- QUEUE_MAP: the runnable queue that comes first takes a free thread of a die (R294). -/
def execQueueMap (s : State) : Host.Outcome State Fault Refusal :=
  event (do
    let die ← evArg 0
    let s ← get
    need (s.live die && !s.threadsFull die)
    let (key, _) ← needSome (s.firstToMap (s.runnableQueues die))
    modQueue key fun q => { q with mapped := true, runnable := false, unmapping := false }
    resumeThread key) s

/-- Whether a queue is unmapped for another (R294): for a higher PRIO, or because it has no work. -/
def State.unmapsFor (s : State) (key : Nat) (q : Queue) : Bool :=
  let die := queueDie key
  s.threadsFull die && (s.runnableQueues die).any fun r =>
    decide (s.qPrio q.qcb < s.qPrio r.2.qcb) || (!s.pendingWork q.qcb && !q.notified && !q.restart)

/-- A packet boundary, or a wait that ends at once (R294): all but the wait for an acceptance. -/
def Queue.atBoundary (q : Queue) : Bool := q.mapped && q.blocked ≠ .launch

/-- QUEUE_UNMAP: a queue unmapped at a packet boundary, or at once while it waits (R294, R295). -/
def execQueueUnmap (s : State) : Host.Outcome State Fault Refusal :=
  event (do
    let key ← evArg 0
    let s ← get
    let q ← needSome (s.queue key)
    need (q.atBoundary && (q.unmapping || s.unmapsFor key q))
    unmapQueue key) s

/-- Sixteenths of 1.9 GHz at which a die's arithmetic runs; 16 after reset (R425). -/
def Platform.clock16 (p : Platform) (d : Nat) : Nat := tblGet 16 p.step16 d

/-- One millisecond in cycles of a die's arithmetic clock as it runs (R24). -/
def State.msCycles (s : State) (die : Nat) : Nat := 1900000 * s.pf.clock16 die / 16

/-- The mapped queue that gives way to one of equal PRIO that has waited 1 ms. -/
def State.waitVictim (s : State) (key : Nat) (q : Queue) : Option Nat :=
  let die := queueDie key
  if s.runnable q && !q.mapped && s.threadsFull die && decide (q.waitingSince + s.msCycles die ≤ s.clock die) then
    ((s.mappedQueues die).find? fun m => s.qPrio m.2.qcb = s.qPrio q.qcb && !m.2.unmapping).map (·.1)
  else none

/-- QUEUE_WAIT_TIMEOUT: a runnable queue has waited 1 ms behind a mapped one of equal PRIO, which is to be unmapped (R294). -/
def execQueueWaitTimeout (s : State) : Host.Outcome State Fault Refusal :=
  event (do
    let key ← evArg 0
    let s ← get
    let q ← needSome (s.queue key)
    let v ← needSome (s.waitVictim key q)
    modQueue v fun q => { q with unmapping := true }) s

/-! ### Notify and poll (R282, R431) -/

/-- NOTIFY_STORE: a store to NOTIFY wakes the thread, or marks the queue runnable (R282, R295, R431). -/
def execNotifyStore (s : State) : Host.Outcome State Fault Refusal :=
  event (do
    let key ← evArg 0
    let s ← get
    let q ← needSome (s.queue key)
    need q.notified
    if q.mapped then do
      modQueue key fun q => { q with notified := false }
      if q.packet.isSome then pure () else lookNext key
    else modQueue key fun q => { q with notified := false, runnable := true,
                                        waitingSince := if q.runnable then q.waitingSince else s.clock (queueDie key) }) s

/-- FACTOR_POLL: a mapped thread reads its next header again after 65,536 cycles (R282). -/
def execFactorPoll (s : State) : Host.Outcome State Fault Refusal :=
  event (do
    let key ← evArg 0
    let s ← get
    let q ← needSome (s.queue key)
    need (q.mapped && q.packet.isNone && q.blocked = .no && decide (q.waitingSince + 65536 ≤ s.clock (queueDie key)))
    lookNext key) s

end Sys2Proof.Machine
end

