-- ==== Sys2Proof/Machine/Launches.lean ====
section
/-!
DEFINITION. Launches: the LAUNCH packet, the distributors, ready queues, finishes, pre-emption and resumption, and the events of a
slot that waits (R61 to R84, R156, R286, R287, R405 to R408, R432, R433).
-/

namespace Sys2Proof.Machine

/-! ### The LAUNCH packet (R286, R287) -/

/-- Bits hi to lo of a packet. -/
def pbits (p hi lo : Nat) : Nat := p / 2 ^ lo % 2 ^ (hi + 1 - lo)

def launchRecord (p : Nat) : Nat := pbits p 383 320
def launchGraph (p : Nat) : Nat := pbits p 447 384
def launchSignal (p : Nat) : Nat := pbits p 511 448
def launchDies (p : Nat) : BitVec 4 := BitVec.ofNat 4 (pbits p 30 27)
def launchCount (p : Nat) : Nat := (pbits p 143 128 + 1) * (pbits p 159 144 + 1) * (pbits p 175 160 + 1)
def launchDep (p : Nat) : Bool := pbits p 16 16 = 1

/-- A malformed LAUNCH packet (R284, R287). -/
def launchMalformed (p : Nat) : Bool :=
  headerBad p || pbits p 63 60 ≠ 0 || pbits p 191 176 ≠ 0 || launchRecord p % 64 ≠ 0 || launchGraph p % 64 ≠ 0 ||
  launchSignal p % 8 ≠ 0

/-- The number of dies of a set. -/
def dieCount (m : BitVec 4) : Nat := ((List.range 4).filter fun d => m.getLsbD d).length

/-- The counters of an index range that the k-th of n dies holds (R79). -/
def shareOf (count n k : Nat) : Nat := if n = 0 then 0 else (count + n - 1 - k) / n

/-- What ends a launch at once with FAULTED (R79, R112, R211, R287); its counters are spread over those of its dies that are live. -/
def launchFails (p : Nat) (secure : Bool) (live : BitVec 4) : Bool :=
  let pc := pbits p 127 64
  let quota := pbits p 22 19
  let n := dieCount (launchDies p)
  pc % 4 ≠ 0 || decide (2 ^ 56 ≤ pc) || quota = 0 || decide (8 < quota) || n = 0 || (pbits p 31 31 = 1 && !secure) ||
  pbits p 35 34 = 3 || !partOk (BitVec.ofNat 64 (pbits p 319 256)) || pbits p 33 32 = 3 || (pbits p 33 32 ≠ 0 && decide (1 < n)) ||
  (launchDep p && decide (65536 < shareOf (launchCount p) (dieCount (launchDies p &&& live)) 0))

/-- The counters of a die's ready table in use: a launch keeps its own until its record ends (R79). -/
def State.tableUsed (s : State) (die : Nat) : Nat :=
  (s.ls.launches.map fun l =>
    match if l.dep then l.dieList.findIdx? (· = die) else none with
    | some k => shareOf l.count l.dieList.length k
    | none => 0).foldl (· + ·) 0

/-- Each die's ready table has room for a launch (R79). -/
def State.tableRoom (s : State) (p : Nat) : Bool :=
  let ds := (List.range 4).filter fun d => (launchDies p &&& s.pf.live).getLsbD d
  !launchDep p || ds.zipIdx.all fun d => decide (s.tableUsed d.1 + shareOf (launchCount p) ds.length d.2 ≤ 65536)

/-- A launch number that no open launch holds, from a free start (R287; log entry 16). -/
def State.freeNumber (s : State) (start : Nat) : Option Nat :=
  (findUp (fun i => (s.launch? (i % 65536)).isNone) 65536 (start % 65536)).map (· % 65536)

/-- What the Factor reaches for a launch: the record, the signal, the counters and the keys (R79, R80, R287, R432). -/
structure LaunchPlaces where
  record : Nat
  signal : Option Nat
  counters : List Nat
  keys : List Nat
  deriving DecidableEq, Repr

/-- The accesses for a launch, each of which may fault (R287). -/
def launchPlaces (key : Nat) (q : Queue) (p : Nat) : M LaunchPlaces := do
  let rec_ ← qPlace key q.qcb (launchRecord p) 64 .write
  if launchGraph p = 0 then pure ()
  else do
    let _ ← qPlace key q.qcb (launchGraph p) 64 .write
  let sig ← qSignalOpt key q.qcb (launchSignal p)
  let n := launchCount p
  if launchDep p && !launchFails p ((← get).qWorld q.qcb) (← get).pf.live then do
    let cs ← mapEach (fun i => qRead key q.qcb (launchRecord p + 64 + 4 * i) 4) (List.range n)
    let ks ← if pbits p 35 34 = 2 then
        mapEach (fun i => qRead key q.qcb (launchRecord p + 64 + 4 * n + 4 * i) 4) (List.range n)
      else pure []
    pure ⟨rec_, sig, cs, ks⟩
  else pure ⟨rec_, sig, [], []⟩

/-- LAUNCH_PACKET: a published LAUNCH packet taken and checked; the thread blocks until it is accepted (R285 to R287). -/
def execLaunchPacket (s : State) : Host.Outcome State Fault Refusal :=
  event (do
    let key ← evArg 0
    let (q, p) ← takePacket key 0x01
    runPacket key q (launchMalformed p) do
      let _ ← launchPlaces key q p
      modQueue key fun q => { q with blocked := .launch }) s

/-- A table that lists the numbers of a list at its positions. -/
def tableOf (l : List Nat) : Tbl Nat := l.zipIdx.foldl (fun t e => tblSet 0 t e.2 e.1) []

/-- The launch that a packet describes (R286). -/
def launchOf (s : State) (q : Queue) (p number : Nat) (w : LaunchPlaces) : Launch :=
  let dies := launchDies p &&& s.pf.live
  let master := ((List.range 4).find? fun d => dies.getLsbD d).getD 0
  { number := number, order := s.ls.accepted, recAddr := w.record, recVa := BitVec.ofNat 64 (launchRecord p), signal := w.signal,
    pc := BitVec.ofNat 64 (pbits p 127 64), args := BitVec.ofNat 64 (pbits p 255 192),
    part := BitVec.ofNat 64 (pbits p 319 256), budget := BitVec.ofNat 16 (pbits p 59 44), sx := pbits p 143 128 + 1,
    sy := pbits p 159 144 + 1, sz := pbits p 175 160 + 1, quota := pbits p 22 19, prio := BitVec.ofNat 4 (pbits p 26 23),
    vw := pbits p 39 36, mw := pbits p 43 40, keymode := pbits p 35 34, chmode := pbits p 33 32, world := pbits p 31 31 = 1,
    sys := s.qSys q.qcb, dies := dies, dep := launchDep p, paired := pbits p 17 17 = 1, reissuable := pbits p 18 18 = 1,
    asid := s.qAsid q.qcb, master := master, acceptedDies := launchDies p, tableDies := dies, acceptedMaster := master, handed := 0,
    left := launchCount p, chunks := [], reissue := [], counters := tableOf w.counters, keys := tableOf w.keys, readyq := [],
    place := [], finished := [], queue := some (q.qcb, q.next, p / 512 % 2), faulted := false, lost := false, preempted := 0 }

/-- The launch record as the Factor writes it (R73). -/
def recordOf (l : Launch) (graph : Nat) : Nat := l.count + l.asid.toNat * 2 ^ 96 + graph * 2 ^ 128

/-- What follows an acceptance: a launch that fails, has no live die, or is cancelled ends at once; the ready indices of a DEP launch
enter their queues (R76, R79, R80, R84, R287). -/
def afterAccept (l : Launch) (fails : Bool) : M Unit := do
  if fails then do
    modLaunch l.number fun l => { l with faulted := true }
    dropUncreated l.number
  else if l.dies = 0 then do
    modLaunch l.number fun l => { l with lost := true }
    dropUncreated l.number
  else if (← get).recCancelled l.recAddr then dropUncreated l.number
  else if l.dep then eachM (fun i => if tblGet 0 l.counters i = 0 then enterReady l i else pure ()) (List.range l.count)
  else pure ()

/-- LAUNCH_ACCEPT: a launch accepted once a number and room are there (R79, R287). -/
def execLaunchAccept (s : State) : Host.Outcome State Fault Refusal :=
  event (do
    let key ← evArg 0
    let q ← needSome ((← get).queue key)
    need (q.mapped && q.blocked = .launch)
    guardFault key q.next do
      let p ← needSome q.packet
      let fails := launchFails p ((← get).qWorld q.qcb) (← get).pf.live
      need (fails || (← get).tableRoom p)
      let start := (← freshWord).toNat
      let number ← match (← get).freeNumber start with
        | some n => pure n
        | none => if fails then pure 65536 else park .none
      let w ← launchPlaces key q p
      let l := launchOf (← get) q p number w
      consumePacket key q do
        homeWrite w.record 64 (recordOf l (launchGraph p))
        modLs fun x => { x with launches := x.launches ++ [l], accepted := x.accepted + 1 }
      startPacket key q
      afterAccept l fails) s

/-! ### Distributors (R62, R63, R79, R80, R433) -/

/-- A core of a die that a launch's next task goes to, with all that its creation needs. -/
def State.nextCoreFor (s : State) (l : Launch) (die : Nat) : Option Nat :=
  match s.chooseCore l (1024 * die) 1024 with
  | none => none
  | some c =>
    if (!l.paired || (s.shadowCore l c).isSome) && (!l.reissuable || s.hyps.nextFree.isSome) then some c else none

/-- Whether tasks of a launch may still be created. -/
def State.creates (s : State) (l : Launch) : Bool := !l.faulted && !l.lost && !s.recCancelled l.recAddr

/-- The key of an index (R80). -/
def Launch.key (l : Launch) (i : Nat) : Nat :=
  match l.keymode with
  | 0 => i
  | 1 => i % l.sx + i / l.sx % l.sy + i / (l.sx * l.sy)
  | _ => tblGet 0 l.keys i

/-- The index of a list with the lowest key, then the lowest number (R80). -/
def Launch.lowest (l : Launch) : List Nat → Option Nat
  | [] => none
  | i :: r => match l.lowest r with
    | some j => some (if l.key j < l.key i ∨ (l.key j = l.key i ∧ j < i) then j else i)
    | none => some i

/-- The smallest number of a list. -/
def smallest : List Nat → Option Nat
  | [] => none
  | i :: r => some (match smallest r with
    | some j => min i j
    | none => i)

/-- The next index of a launch that a die has to create; the answer true says that it is placed again (R63, R80, R83). DESIGN CHOICE, log
entry 58: any die of the set creates an index placed again, the lowest first, before those of its chunk. -/
def Launch.nextIndex (l : Launch) (die : Nat) : Option (Nat × Bool) :=
  if !l.dies.getLsbD die then none
  else if l.dep then (l.lowest (tblGet [] l.readyq die)).map fun i => (i, false)
  else match smallest l.reissue with
    | some i => some (i, true)
    | none => (tblGet [] l.chunks die).head?.map fun i => (i, false)

/-! ### Resumption: where a saved context goes (R62, R113, R214, R257, R407) -/

/-- Whether a slot has a channel register enabled, so that it returns to its own place (R214). -/
def Slot.chained (x : Slot) : Bool := x.chanIn.en || x.chanOut.en

/-- Whether a context goes back to its own core: the core still holds the shared parts, or a context that was saved with them has such a
slot (R214, R407). -/
def State.homed (s : State) (c : SavedCtx) : Bool :=
  c.shared.isNone || s.ls.saved.any fun d => d.bundle = c.bundle && d.slots.any fun e => e.2.chained

/-- The contexts of a list, the first of each core. -/
def firstPerCore : List SavedCtx → List SavedCtx
  | [] => []
  | c :: r => c :: (firstPerCore r).filter fun d => d.core ≠ c.core

/-- The saved contexts that resume with one: where the launch saved a channel or a pair on the die, all that it saved there, for such a
launch resumes only as a whole (R65, R214). -/
def State.resumesWith (s : State) (c : SavedCtx) : List SavedCtx :=
  let mates := s.ls.saved.filter fun d => d.launch = c.launch && d.core / 1024 = c.core / 1024
  if mates.any fun d => d.slots.any fun e => e.2.chained || e.2.partner.isSome then firstPerCore (c :: mates.filter fun d => d ≠ c)
  else [c]

/-- The operand slots that come back with a context (R257). -/
def SavedCtx.operands (c : SavedCtx) : List Nat := ((c.shared.map (·.opSlots)).getD []).map (·.1)

/-- A core that may take a saved context (R62, R113, R257, R407): a die of the launch, on which no pre-emption of it is requested (log entry
58); with the shared parts an empty core whose cell has the operand slots FREE, without them the core itself, whose tasks have the ASID,
the world and the partition of the context's. -/
def State.takesContext (s : State) (c : SavedCtx) (core : Nat) : Bool :=
  s.live (core / 1024) && (!s.quarantined core || c.slots.all fun e => e.2.shadow) && (!s.homed c || core = c.core) &&
  (match s.launch? c.launch with
   | some l => l.dies.getLsbD (core / 1024) && !s.ls.preempt.contains (l.number, core / 1024) &&
       decide (s.quotaOn l.number core + (c.slots.filter fun e => !e.2.shadow).length ≤ l.quota)
   | none => false) &&
  match c.shared with
  | some _ => (s.tasksOn core).isEmpty && c.operands.all fun o => ((tblGet .free (s.cell (core / 8)).slots o).holder).isNone
  | none => (s.tasksOn core).all fun t => c.slots.all fun e =>
      (s.slot t).part = e.2.part && (s.slot t).asid = e.2.asid && (s.slot t).world = e.2.world

/-- Whether two contexts hold the two copies of a pair. -/
def SavedCtx.pairs (c d : SavedCtx) : Bool :=
  c.slots.any fun e => d.slots.any fun f => copyKey e.1 e.2 = some f.1

/-- Whether two contexts may resume on two cores: not on one core, the copies of a pair apart on one die (R409), and no operand slot twice
in one cell (R257). -/
def SavedCtx.apart (c d : SavedCtx) (a b : Nat) : Bool :=
  a ≠ b && (!c.pairs d || (a / 1024 = b / 1024 && decide (2 ≤ meshHops a b))) &&
  (a / 8 ≠ b / 8 || c.operands.all fun o => !d.operands.contains o)

/-- The cores on which contexts resume: each on its own where that takes it, or else on the lowest of its die, or else on the lowest (R407;
DESIGN CHOICE, log entry 51). -/
def State.planFor (s : State) (taken : List (SavedCtx × Nat)) : List SavedCtx → Option (List Nat)
  | [] => some []
  | c :: r =>
    let ok (k : Nat) : Bool := s.takesContext c k && taken.all fun d => d.1.apart c d.2 k
    let die := c.core / 1024
    match (if ok c.core then some c.core else if s.homed c then none else (findUp ok 1024 (1024 * die)).or (findUp ok 4096 0)) with
    | none => none
    | some k => (s.planFor (taken ++ [(c, k)]) r).map (k :: ·)

/-- The cores on which a context and those that resume with it can resume. -/
def State.restorePlan (s : State) (c : SavedCtx) : Option (List Nat) := s.planFor [] (s.resumesWith c)

/-! ### Which launch is served (R62, R63, R405) -/

/-- The contexts of a launch saved on a die. -/
def State.savedOn (s : State) (number die : Nat) : List SavedCtx :=
  s.ls.saved.filter fun c => c.launch = number && c.core / 1024 = die

/-- Whether a launch has an index for a die to create, or may still receive one. -/
def State.hasIndex (s : State) (die : Nat) (l : Launch) : Bool :=
  s.creates l && ((l.nextIndex die).isSome || (!l.dep && l.dies.getLsbD die && decide (l.handed < l.count)))

/-- The launches that wait for slots on a die: with indices to create, or with saved contexts (R62, R405). -/
def State.waitingOn (s : State) (die : Nat) : List Launch :=
  s.ls.launches.filter fun l => s.hasIndex die l || !(s.savedOn l.number die).isEmpty

/-- Whether a launch has a saved context on a die that can resume. -/
def State.resumable (s : State) (die : Nat) (l : Launch) : Bool := (s.savedOn l.number die).any fun c => (s.restorePlan c).isSome

/-- Whether a die can create an index of a launch. -/
def State.creatable (s : State) (die : Nat) (l : Launch) : Bool :=
  s.creates l && (l.nextIndex die).isSome && (s.nextCoreFor l die).isSome

/-- The oldest batch of a launch that a die can place as a step task (R350). -/
def State.batchOf (s : State) (die : Nat) (l : Launch) : Option Batch :=
  s.ss.batches.find? fun b => b.die = die && b.launch = l.number && (s.stepSlots b).isSome

/-- The launch that a die serves next: it has an index to create and a core that accepts it, a batch that can be placed, or a context that
can resume (R62, R350). -/
def State.servedNext (s : State) (die : Nat) : Option Launch :=
  s.firstServed die (s.ls.launches.filter fun l => s.creatable die l || (s.batchOf die l).isSome || s.resumable die l)

/-- The launch that a die serves next by creating an index: its saved contexts come first (log entry 58). -/
def State.serves (s : State) (die : Nat) : Option Launch :=
  match s.servedNext die with
  | some l => if s.creatable die l && !s.resumable die l then some l else none
  | none => none

/-- The batch that a die places next (R62, R350). -/
def State.placeable (s : State) (die : Nat) : Option Batch := (s.servedNext die).bind (s.batchOf die)

/-- STREAM_BATCH_PLACE: a batch of a die placed as a step task; its members are STEPPING (R350). -/
def execStreamBatchPlace (s : State) : Host.Outcome State Fault Refusal :=
  event (do
    let die ← evArg 0
    let b ← needSome ((← get).placeable die)
    let (l, t, u) ← needSome ((← get).stepSlots b)
    placeTask t { stepSlot l b false with partner := u }
    match u with
    | some u => placeTask u { stepSlot l b true with partner := some t }
    | none => pure ()
    modSs fun y =>
      let y := b.members.foldl (fun y k => y.setStream k { y.stream k with st := .stepping }) y
      { y with batches := y.batches.erase b }) s

/-- DISTRIBUTOR_CHUNK: a die with a core that accepts a task of a launch receives its next 64 indices (R63). DESIGN CHOICE, log entry 58: it
receives them once its last ones are used up. -/
def execDistributorChunk (s : State) : Host.Outcome State Fault Refusal :=
  event (do
    let number ← evArg 0
    let die ← evArg 1
    let s ← get
    let l ← needSome (s.launch? number)
    need (s.creates l && !l.dep && l.dies.getLsbD die && s.live die && decide (l.handed < l.count) &&
      (tblGet [] l.chunks die).isEmpty && (s.nextCoreFor l die).isSome)
    let n := min 64 (l.count - l.handed)
    modLaunch number fun l => { l with handed := l.handed + n,
                                       chunks := tblSet [] l.chunks die ((List.range n).map fun k => l.handed + k) }) s

/-- The next index of a die's next launch created (R63, R80). -/
def createNext (die : Nat) (dep : Bool) : M Unit := do
  let s ← get
  need (s.live die)
  let l ← needSome (s.serves die)
  need (l.dep = dep)
  let (i, again) ← needSome (l.nextIndex die)
  let core ← needSome (s.nextCoreFor l die)
  let _ ← needSome (← createIndex l i core again)
  modLaunch l.number fun l =>
    { l with chunks := tblSet [] l.chunks die ((tblGet [] l.chunks die).erase i),
             readyq := tblSet [] l.readyq die ((tblGet [] l.readyq die).erase i) }

/-- TASK_CREATE: a die creates the next task of the launch it serves first (R63). -/
def execTaskCreate (s : State) : Host.Outcome State Fault Refusal :=
  event (do createNext (← evArg 0) false) s

/-- DEP_INDEX_RELEASE: a die's ready queue releases its lowest key to a slot (R80, R433). -/
def execDepIndexRelease (s : State) : Host.Outcome State Fault Refusal :=
  event (do createNext (← evArg 0) true) s

/-! ### Finishing (R68, R82) -/

/-- The deputy of a launch: the next live die of its set after the master; the master alone is its own (R82). -/
def Launch.deputy (l : Launch) : Nat :=
  ((List.range 4).find? fun d => l.dies.getLsbD d && decide (l.master < d)).getD l.master

/-- The implicit region confirmed or refuted at once, applied on every die (R82; log entry 12). -/
def settleRegion (f : Finish) : M Unit := do
  if f.region = 0 ∨ ((← get).hyps.get f.region).st ≠ .opened then pure ()
  else if f.confirm && !(← get).hyps.refutedInChain f.region then commitConfirm f.region false
  else commitRefute f.region

/-- REISSUE_FINISH: the finish record of the oldest finish, its region, then OUTSTANDING (R82). -/
def execReissueFinish (s : State) : Host.Outcome State Fault Refusal :=
  event (do
    let s ← get
    let f ← needSome s.ls.finishing.head?
    need s.hyps.cur.isNone
    modLs fun x => { x with finishing := x.finishing.drop 1 }
    modLaunch f.launch fun l => { l with finished := l.finished ++ [(f.index, l.deputy)] }
    settleRegion f
    launchDown f.launch 1) s

/-- QUIT_COMPLETE: an ENDING slot whose work has drained (R68). -/
def execQuitComplete (s : State) : Host.Outcome State Fault Refusal :=
  event (do completeQuit (← evArg 0)) s

/-! ### Slots that wait (R61, R156) -/

/-- UNPARK: a parked slot issues its instruction again (R61). -/
def execUnpark (s : State) : Host.Outcome State Fault Refusal :=
  event (do
    let t ← evArg 0
    need (((← get).slot t).st = .parked)
    modSlotAt t fun x => { x with st := .ready }) s

/-- What a `wrs` whose timeout has passed does (R156). -/
def wrsTimedOut (i : Instr) (d : GReg) : M Flow := thenNext do
  channelWaits i
  modSlot fun x => { x with resv := none, timer := none }
  wr d 1

/-- WRS_TIMEOUT: the timeout of a parked `wrs` expires, and it returns 1 (R156). -/
def execWrsTimeout (s : State) : Host.Outcome State Fault Refusal :=
  event (do
    let t ← evArg 0
    let x := (← get).slot t
    need ((x.st = .parked || x.st = .ready) && x.wait = .wrs && (match x.resv with
      | some r => !r.broken
      | none => false))
    let limit ← needSome x.timer
    need (limit ≤ (← get).clock (dieOf t))
    match fetchAt t (← get) with
    | .instr i s' =>
      match i with
      | .wrs d _ _ _ => set (conclude i t x.pc (wrsTimedOut i d s'))
      | _ => park .none
    | _ => park .none) s

/-! ### Pre-emption (R72, R405, R406) -/

/-- The waits in which a task is saved in place (R72). -/
def Wait.savedInPlace : Wait → Bool
  | .wrs | .barwait | .channel | .rwait | .inval | .carter => true
  | _ => false

/-- The tasks on a die that are saved in place for a request: both copies of a pair are saved at a `yield` only (R405). -/
def State.saveable (s : State) (die : Nat) : List Nat :=
  s.tasks.filter fun t =>
    let x := s.slot t
    dieOf t = die && s.preemptAsked t && (x.st = .parked || x.st = .ready) && x.wait.savedInPlace && x.partner.isNone &&
      s.queuesEmpty t

/-- Whether a launch that waits on a die lacks slots there: the quota lets a core take a task more, and none accepts it, or no context of it
can resume (R62, R405). -/
def State.lacksSlots (s : State) (die : Nat) (l : Launch) : Bool :=
  (s.hasIndex die l && (s.nextCoreFor l die).isNone &&
    (List.range 1024).any fun k => decide (s.quotaOn l.number (1024 * die + k) < l.quota) && !s.quarantined (1024 * die + k)) ||
  (!(s.savedOn l.number die).isEmpty && !s.resumable die l)

/-- The running launch of a die that gives way to a waiting one: the lowest PRIO, the last accepted among equals (R405). -/
def State.preemptVictim (s : State) (die : Nat) : Option Launch :=
  let needy := (s.waitingOn die).filter (s.lacksSlots die)
  let running := s.ls.launches.filter fun l => (s.tasksOf l.number).any (fun t => dieOf t = die) &&
    needy.any fun w => decide (s.prioOn die l < s.prioOn die w)
  running.foldl (fun (b : Option Launch) l =>
    match b with
    | some k => if s.before die k l then some l else b
    | none => some l) none

/-- PREEMPT_REQUEST: on a die, pre-emption is asked of the launch chosen, and its tasks in the waits of R72 are saved in place (R405,
R406). -/
def execPreemptRequest (s : State) : Host.Outcome State Fault Refusal :=
  event (do
    let die ← evArg 0
    let s ← get
    let v := s.preemptVictim die
    let fresh := match v with
      | some l => !s.ls.preempt.contains (l.number, die)
      | none => false
    need (fresh || !(s.saveable die).isEmpty)
    match fresh, v with
    | true, some l => modLs fun x => { x with preempt := x.preempt ++ [(l.number, die)] }
    | _, _ => pure ()
    eachM (fun t => orUndo (saveSlot t 0)) ((← get).saveable die)) s

/-! ### Resumption (R131, R214, R257, R407) -/

/-- The shared parts written on a core (R131, R257); an operand slot comes back held by it. -/
def restoreShared (core : Nat) (m : SavedCore) : M Unit := do
  let n := nTiles m.part
  let ready := (List.range n).filter fun t => isDiscardable m.part t
  let tiles := ready.foldl (fun t k => tblSet .empty t k ⟨.ready, 0⟩) m.tiles
  modCoreAt core fun c => { Core.reset with vq := c.vq, mq := c.mq, part := m.part, tiles := tiles, scratch := m.scratch, acc := m.acc,
                                            poison := m.poison }
  modify fun s =>
    let cell := s.cell (core / 8)
    s.setCell (core / 8) { cell with slots := m.opSlots.foldl (fun t o => tblSet .free t o.1 { o.2 with holder := some core }) cell.slots }

/-- The contexts saved with the shared parts that a core now has resume there (R131). -/
def followCore (bundle core : Nat) : M Unit := modLs fun x =>
  { x with saved := x.saved.map fun d => if d.bundle = bundle then { d with core := core, shared := none, bundle := 0 } else d }

/-- The slot that a saved slot takes on a core: its own number there if that is FREE, or else, with no channel, the lowest FREE one (R214). -/
def State.seatFor (s : State) (core : Nat) (e : Nat × Slot) : Option Nat :=
  let own := 8 * core + savedId e.1 % 8
  if (s.slot own).st = .free then some own else if e.2.chained then none else s.freeSlotOn core

/-- A saved slot put back: entries reserved in its place stay (R214), a relayout that it issued is its own again (R276), and the launch knows
where its index runs. The answer is the TASK.ID. -/
def restoreSlot (core launch : Nat) (discarded : Bool) (e : Nat × Slot) : M Nat := do
  let t ← needSome ((← get).seatFor core e)
  modify fun s => s.setSlot t { (if discarded then e.2.setStat 3 true else e.2) with inq := e.2.inq ++ (s.slot t).inq }
  modEs fun x => { x with relayouts := x.relayouts.map fun r => if r.slot = some e.1 then { r with slot := some t } else r }
  if e.2.stepTask || e.2.shadow then pure ()
  else modLaunch launch fun l => { l with place := tblSet 0 l.place e.2.index (t + 1) }
  pure t

/-- The slots of a context put back, those whose own number is FREE first; the answer lists each with its TASK.ID. -/
def restoreSlots (core : Nat) (c : SavedCtx) (discarded : Bool) : M (List (Nat × Nat)) := do
  let s ← get
  let own (e : Nat × Slot) : Bool := (s.slot (8 * core + savedId e.1 % 8)).st = .free
  mapEach (fun e => do pure (e.1, ← restoreSlot core c.launch discarded e)) (c.slots.filter own ++ c.slots.filter fun e => !own e)

/-- One saved context put back on a core, with its shared parts if the core has not taken them yet; the cell acquires, as at a creation
(R131, R137, R407). -/
def restoreCtx (core : Nat) (c : SavedCtx) : M (List (Nat × Nat)) := do
  need ((← get).takesContext c core)
  let discarded ← match c.shared with
    | some m => do
      restoreShared core m
      followCore c.bundle core
      pure ((List.range (nTiles m.part)).any fun t => isDiscardable m.part t)
    | none => pure false
  acquireCell (cellOf (8 * core))
  restoreSlots core c discarded

/-- The place in a list of moves. -/
def movedTo (moves : List (Nat × Nat)) (key : Nat) : Option Nat := (moves.find? fun m => m.1 = key).map (·.2)

/-- A stopped command restarted for its task on a Carter of the die (R304); a pair's names the core of the other copy. -/
def restartCmd (twin : Option Nat) (t : Nat) (c : CarterCmd) : M Unit := do
  let k ← needSome ((← get).freeCarter (dieOf t))
  modEs fun e => { e with cmds := e.cmds ++ [{ c with die := dieOf t, carter := k, slot := some t, core := coreOf t,
                                                      twin := c.twin.bind fun _ => twin, timer := none }] }

/-- What a restored slot takes up again: its place in a pair, and its commands. -/
def rejoin (moves : List (Nat × Nat)) (cmds : List CarterCmd) (e : Nat × Slot) : M Unit := do
  let t ← needSome (movedTo moves e.1)
  let partner ← match copyKey e.1 e.2 with
    | some k => do pure (some (← needSome (movedTo moves k)))
    | none => pure none
  modSlotAt t fun x => { x with partner := partner }
  eachM (restartCmd (partner.map coreOf) t) (cmds.filter fun c => c.slot = some e.1)

/-- The contexts of a list put back on cores, one after another. -/
def restoreAll : List (SavedCtx × Nat) → M (List (Nat × Nat))
  | [] => pure []
  | (c, k) :: r => do
    let m ← restoreCtx k c
    pure (m ++ (← restoreAll r))

/-- CONTEXT_RESTORE: a saved context, by its place in the list, and those that resume with it, on the cores that follow, unless a launch served
before it waits there (R62, R405, R407). -/
def execContextRestore (s : State) : Host.Outcome State Fault Refusal :=
  event (do
    let n ← evArg 0
    let s ← get
    let c ← needSome s.ls.saved[n]?
    let l ← needSome (s.launch? c.launch)
    let plan := (s.resumesWith c).zip (s.ev.drop 1)
    need (plan.length = (s.resumesWith c).length && plan.all fun a => plan.all fun b => a.1 = b.1 || a.1.apart b.1 a.2 b.2)
    need (plan.all fun e => (s.waitingOn (e.2 / 1024)).all fun w => !s.before (e.2 / 1024) w l)
    let moves ← restoreAll plan
    modLs fun x => { x with saved := x.saved.filter fun d => !(plan.flatMap fun e => e.1.slots).any fun e => d.slots.contains e }
    eachM (rejoin moves (plan.flatMap fun e => e.1.cmds)) (plan.flatMap fun e => e.1.slots)) s

end Sys2Proof.Machine
end

