-- ==== Sys2Proof/Machine/MemEvents.lean ====
section
/-!
DEFINITION. Events of the memory system: replacement, eviction, invalidation, walks, and the Weaver's units (R134, R140, R272 to
R276, R395 to R397).
-/

namespace Sys2Proof.Machine

/-! ### Caches (R134, R140) -/

/-- L1_REPLACEMENT: a line of an L1 is replaced; cell, ASID, virtual line and tag name it (R140). -/
def execL1Replacement (s : State) : Host.Outcome State Fault Refusal :=
  event (do
    let cell ← evArg 0
    let asid ← evArg 1
    let va ← evArg 2
    let k ← evArg 3
    let x ← needSome ((← get).ms.l1Find cell (BitVec.ofNat 16 asid) va k)
    need (!(← get).heldLine x.pa)
    replaceLine x) s

/-- HOME_EVICTION: a home line of the package leaves the state store; its owned words are invalidated first (R134). -/
def execHomeEviction (s : State) : Host.Outcome State Fault Refusal :=
  event (do
    let line := lineAddr (← evArg 0)
    need (pkgOf line = (← get).ws.own && (← get).live (homeOf line))
    modMs fun m => (settleOwners m line none 16 0 (BitVec.allOnes 16)).l1Tidy) s

/-! ### Invalidation (R396, R397) -/

/-- INVAL_HOLDER: a holder takes the invalidation of a parked `inval`, and acknowledges once no access that it translated is in
flight (R396, R397). -/
def execInvalHolder (s : State) : Host.Outcome State Fault Refusal :=
  event (do
    let t ← evArg 0
    let h ← evArg 1
    let p ← needSome ((← get).slot t).pend
    need (p.kind = .inval && (p.keep.drop 4).contains h)
    holderDrops h (keptHit p.keep)
    let s ← get
    if h < 512 && s.inFlightOn h (keptHit p.keep) then pure ()
    else modSlotAt t fun x => { x with pend := some { p with keep := p.keep.take 4 ++ (p.keep.drop 4).erase h } }) s

/-! ### Walks (R395) -/

/-- An entry put into a holder that has room for n; where it is full the entry at a place among the holder's goes. -/
def tlbInsert (m : MemSys) (e : TlbEntry) (n victim : Nat) : MemSys :=
  let mine := m.tlb.filter fun x => x.holder = e.holder
  let same (x : TlbEntry) : Bool := x.holder = e.holder && x.asid = e.asid && x.vpage = e.vpage && x.level = e.level
  let out : Option TlbEntry := if mine.length < n || mine.any same then none else mine[victim % mine.length]?
  { m with tlb := (m.tlb.filter fun x => !same x && some x ≠ out) ++ [e] }

/-- The tables that n levels of a walk pass through below the one at local address t: their levels and local addresses (R392). -/
def tablesFrom (s : State) (va : Nat) : Nat → Nat → List (Nat × Nat)
  | 0, _ => []
  | n + 1, t =>
    match walkLevel s .read va (5 - n) t with
    | .ok (.inr next) => (6 - n, next) :: tablesFrom s va n next
    | _ => []

/-- The walk cache of a die with the tables that a walk has passed through. -/
def MemSys.keepPath (m : MemSys) (die : Nat) (asid : BitVec 16) (va : Nat) (ts : List (Nat × Nat)) : MemSys :=
  ts.foldl (fun m t =>
    let e : WalkEntry := ⟨die, asid, t.1, va / 2 ^ pathShift t.1, t.2⟩
    if m.walkCache.contains e then m else { m with walkCache := m.walkCache ++ [e] }) m

/-- A miss of a cell that neither TLB answers joins the miss entry of its page, or takes one; with no entry free it waits outside them
(R395). -/
def missOf (cell : Nat) (asid : BitVec 16) (va : Nat) : M Unit := do
  let s ← get
  need (cell < 512 && s.live (cell / 128) && decide (va < 2 ^ 56) && s.ms.tlb.all fun e =>
    !((e.holder = cell || e.holder = 512 + cell / 128) && e.asid = asid && e.vpage = va / 2 ^ pageShift e.level))
  let m ← needSome (s.ms.takeMiss (cell / 128) cell asid (va / 2 ^ 16))
  modMs fun _ => m

/-- A walker of a die takes the oldest miss entry. A leaf enters the die's TLB and those of the cells that wait, and answers every miss
within its page; a walk that faults answers the entry's misses with the fault, and nothing is kept (R395). `victims` are the places of the
entries that make room, the die's first. -/
def walkMiss (die : Nat) (victims : List Nat) : M Unit := do
  let s ← get
  let x ← needSome (s.ms.misses.find? fun x => x.die = die)
  let va := 2 ^ 16 * x.vpage
  match walk s die x.asid .read va with
  | .error _ => modMs fun m => { m with misses := m.misses.erase x }
  | .ok l => do
    let in_ (y : Miss) : Bool := y.die = die && y.asid = x.asid && 2 ^ 16 * y.vpage / 2 ^ pageShift l.level = va / 2 ^ pageShift l.level
    let cells := firsts ((s.ms.misses.filter in_).flatMap (·.cells))
    let e : TlbEntry := ⟨512 + die, x.asid, va / 2 ^ pageShift l.level, l.level, l.pte⟩
    let a : Word := BitVec.ofNat 64 (s.ms.read (s.fabric (s.pf.fw.asidTab + 8 * x.asid.toNat)) 8)
    let ts := match walkStart s die x.asid va with
      | some (level, t) => tablesFrom s va (6 - level) t
      | none => tablesFrom s va 5 (2048 * fieldOf a 39 11)
    modMs fun m =>
      let m := tlbInsert m e 8192 ((victims[0]?).getD 0)
      let m := cells.zipIdx.foldl (fun m c => tlbInsert m { e with holder := c.1 } 128 ((victims[c.2 + 1]?).getD 0)) m
      { m.keepPath die x.asid va ts with misses := m.misses.filter fun y => !in_ y }

/-- TLB_WALK: a miss of a cell, by the operands 0, the cell, the ASID and the address; or a walk for the oldest miss of a die, by the
operands 1, the die and the places of the entries that make room (R395; log entry 18). -/
def execTlbWalk (s : State) : Host.Outcome State Fault Refusal :=
  event (do
    if (← evArg 0) = 0 then missOf (← evArg 1) (BitVec.ofNat 16 (← evArg 2)) (← evArg 3)
    else walkMiss (← evArg 1) (← evRest 2)) s

/-! ### The Weaver (R272 to R276) -/

/-- The agent that a relayout is. -/
def Relayout.agent (r : Relayout) : Agent :=
  { die := r.die, cell := 2 ^ 20, asid := r.asid, sys := r.sys, secure := r.world, hyp := 0, strm := 0,
    serial := 0, ctx := ctxOf r.asid.toNat r.launch none }

/-- A relayout replaced by its next state. -/
def putRelayout (r : Relayout) : M Unit := modEs fun e => { e with relayouts := e.relayouts.map fun q =>
  if q.asid = r.asid ∧ q.daddr = r.daddr then r else q }

/-- Every tuple of coordinates within five sizes. -/
def coordsIn (dims : List Nat) : List (List Nat) :=
  (List.range (dimOf dims 4)).flatMap fun c4 => (List.range (dimOf dims 3)).flatMap fun c3 =>
    (List.range (dimOf dims 2)).flatMap fun c2 => (List.range (dimOf dims 1)).flatMap fun c1 =>
      (List.range (dimOf dims 0)).map fun c0 => [c0, c1, c2, c3, c4]

/-- The coordinates of the old tensor for coordinates of the new one (R271). -/
def oldCoords (old : Desc) (c : List Nat) : List Nat :=
  if tagKind (Desc.tag old) = 5 then
    let k := (c.getD 0 0)
    let p := (c.getD 1 0)
    [k % 65536, p % 65536, p / 65536, k / 65536, 0]
  else c

/-- The bytes of unit u before its elements: PAD in every position of an element's width, from the storage's first byte on (R272). -/
def unitFill (r : Relayout) (u : Nat) : Nat :=
  let w := (tagType r.tag.toNat).width
  let p := Desc.pad r.old % 2 ^ w
  (List.range (32768 / w + 2)).foldl (fun n k => n + p * 2 ^ (k * w)) 0 / 2 ^ (32768 * u % w) % 2 ^ 32768

/-- w bits of a number put at a bit. -/
def putBits (n at_ w v : Nat) : Nat :=
  n - n / 2 ^ at_ % 2 ^ w * 2 ^ at_ + v % 2 ^ w * 2 ^ at_

/-- One element of the new layout, where it lies in unit u, put into the unit's bits from the old storage (R272). -/
def convertElem (r : Relayout) (u : Nat) (c : List Nat) (acc : Nat) : M Nat := do
  let w := (tagType r.tag.toNat).width
  let new := locOf r.tag.toNat r.dims (dimOf r.dims 0) c
  let old := elemLoc r.old false (oldCoords r.old c)
  let base := Desc.base r.old
  let acc ← match new.bit with
    | some b =>
      if b / 32768 = u then do
        let v ← match old.bit with
          | some o => do
            let n ← engineRead r.agent 3 (base + o / 8) ((o % 8 + w + 7) / 8)
            pure (n / 2 ^ (o % 8))
          | none => pure (Desc.pad r.old)
        pure (putBits acc (b % 32768) w v)
      else pure acc
    | none => pure acc
  match new.exp, old.exp with
  | some e, some o =>
    if e / 4096 = u ∧ (c.getD 0 0) % 16 = 0 then do
      pure (putBits acc (e % 4096 * 8) 16 (← engineRead r.agent 3 (base + o) 2))
    else pure acc
  | _, _ => pure acc

/-- The elements of the new layout in turn. -/
def convertElems (r : Relayout) (u : Nat) : List (List Nat) → Nat → M Nat
  | [], acc => pure acc
  | c :: rest, acc => do convertElems r u rest (← convertElem r u c acc)

/-- n bytes of a number written by the Weaver from an address on, each piece checked first (R272). -/
def weaverWrite (ag : Agent) (va n v : Nat) : M Unit := do
  match ← enginePlaces ag (n / 64 + 2) va n with
  | some ps => engineStore ag none ps v
  | none => park .space

/-- The bitmap bit of a unit set, or, before unit 0, the whole bitmap zero (R271, R272). -/
def setUnitBit (r : Relayout) (u : Nat) : M Unit := do
  let a := r.bitmap + u / 8
  let old ← engineRead r.agent 2 a 1
  weaverWrite r.agent a 1 (putBits old (u % 8) 1 1)
def clearBitmap (r : Relayout) : M Unit := weaverWrite r.agent r.bitmap ((r.units + 7) / 8) 0

/-- The bytes of unit u as the old storage gives them when it is claimed: what is stored there later is not carried over (R272). -/
def takeUnit (r : Relayout) (u : Nat) : M Nat := do
  if u = 0 then clearBitmap r else pure ()
  convertElems r u (coordsIn r.dims) (unitFill r u)

/-- A claimed unit written, and its bit set, at their homes (R272). -/
def writeUnit (r : Relayout) (u : Nat) : M Unit := do
  weaverWrite r.agent (r.newBase + 4096 * u) (min 4096 (sizeOf_ r.tag.toNat r.dims - 4096 * u)) r.taken
  setUnitBit r u

/-- The descriptor as completion leaves it (R274). -/
def finishedDesc (r : Relayout) (now : Desc) : Desc :=
  let view := tagKind (Desc.tag r.old) = 5
  let n := now.toNat
  let n := putBits n 0 64 r.newBase
  let n := putBits n 64 32 r.tag.toNat
  let n := if view then putBits n 96 8 2 else n
  let n := putBits n 104 1 0
  let n := (List.range 5).foldl (fun n k => putBits n (32 * k + 128) 32 (dimOf r.dims k)) n
  let n := putBits (putBits (putBits n 384 64 0) 448 32 0) 512 64 0
  BitVec.ofNat 1024 (if view then putBits n 576 128 0 else n)

/-- The end of a relayout (R274); the descriptor's address is translated anew, since no translation outlives its unit (R395, R397). -/
def completeRelayout (r : Relayout) : M Unit := do
  let now ← engineRead r.agent 3 r.daddr 128
  weaverWrite r.agent r.daddr 128 (finishedDesc r (BitVec.ofNat 1024 now)).toNat
  modEs fun e => { e with relayouts := e.relayouts.filter fun q => !(q.asid = r.asid && q.daddr = r.daddr) }

/-- A fault added to a task by its TASK.ID, or by its saved slot's number (R276, R406). -/
def addFaultAny (t : Nat) (f : EngFault) : M Unit := do
  if t < 32768 then addFault t f
  else modLs fun x => { x with saved := x.saved.map fun c =>
    { c with slots := c.slots.map fun e => if e.1 = t then (e.1, { e.2 with engFaults := e.2.engFaults ++ [f] }) else e } }

/-- The other copy of a pair, by the same numbers (R409). -/
def State.copyOf (s : State) (t : Nat) : Option Nat :=
  if t < 32768 then (s.slot t).partner
  else ((s.ls.saved.flatMap (·.slots)).find? fun e => e.1 = t).bind fun e => copyKey e.1 e.2

/-- A fault of the Weaver suspends the relayout at its unit (R276). -/
def suspendRelayout (r : Relayout) (code : Nat) (val : Option Word) : M Unit := do
  let v ← match val with
    | some v => pure v
    | none => freshWord
  putRelayout { r with suspended := true, claimed := none }
  let f : EngFault := ⟨engineCode 7 code, v, [.handle r.daddr, .weaver]⟩
  match r.slot with
  | some t => do
    addFaultAny t f
    match (← get).copyOf t with
    | some u => addFaultAny u f
    | none => pure ()
  | none => pure ()

/-- The relayout that the Weaver of a die serves (R18). DESIGN CHOICE, log entry 64: of several, the first issued that is not suspended, to
its end. -/
def State.weaving (s : State) (die : Nat) : Option Relayout :=
  s.es.relayouts.find? fun r => r.die = die && !r.suspended

/-- Whether the Weaver of a die can go on: it has a claimed unit, or every write admitted to the next unit has been performed. -/
def Relayout.canGo (r : Relayout) : Bool := r.claimed.isSome || tblGet 0 r.admitted r.done = 0

/-- WEAVER_UNIT: the Weaver of a die claims the next unit of the relayout it serves, or converts and marks the unit it has claimed,
the last one ending the relayout (R272 to R276). -/
def execWeaverUnit (s : State) : Host.Outcome State Fault Refusal :=
  event (do
    let die ← evArg 0
    let s ← get
    need (s.live die)
    let r ← needSome (s.weaving die)
    need r.canGo
    let run (x : M Unit) (next : M Unit) : M Unit := do
      match ← attempt (x) with
      | .ok _ => next
      | .error (.trap code val) => suspendRelayout r code val
      | .error e => throw e
    match r.claimed with
    | none =>
      if r.units ≤ r.done then run (completeRelayout r) (pure ())
      else do
        match ← attempt (takeUnit r r.done) with
        | .ok v => putRelayout { r with claimed := some r.done, taken := v }
        | .error (.trap code val) => suspendRelayout r code val
        | .error e => throw e
    | some u => run (writeUnit r u) (do
        putRelayout { r with claimed := none, taken := 0, done := u + 1 }
        if r.units ≤ u + 1 then run (completeRelayout r) (pure ()) else pure ())) s

end Sys2Proof.Machine
end

