-- ==== Sys2Proof/Machine/Fabric.lean ====
section
/-!
DEFINITION. Events of the scale-up fabric: contributions and deliveries on their way, flits that arrive, links, hosts, and notices of what
is lost (R20 to R22, R142, R144, R369 to R386). Log entries 3 and 10 say what an arriving flit carries as operands.
-/

namespace Sys2Proof.Machine

/-! ### Pending entries (R378, R383, R385) -/

/-- A change of every pending window entry, of running and of saved slots (R383). -/
def mapRpend (f : RPend → RPend) : M Unit := modify fun s =>
  let on (e : Nat × Slot) : Nat × Slot := (e.1, { e.2 with rpend := e.2.rpend.map fun r => (r.1, r.2.map f) })
  { s with slots := s.slots.map on
           ls := { s.ls with saved := s.ls.saved.map fun c => { c with slots := c.slots.map on } } }

/-- A delivery taken by the pending entry that waits for it; the delivery of a replaced entry is dropped (R382, R383). -/
def RPend.take (id status : Nat) (result : Word) (p : RPend) : RPend :=
  if p.id = id ∧ p.status = none then { p with status := some status, result := result } else p

/-- A pending entry that waits for a place that is lost becomes ABORTED (R385, R386). -/
def RPend.lose (gone : Nat → Bool) (p : RPend) : RPend :=
  if p.status = none ∧ gone p.pa then { p with status := some rAborted, result := 0 } else p

/-- What is lost at a set of places: pending entries become ABORTED, contributions on their way there go (R385, R386). -/
def losePlaces (gone : Nat → Bool) : M Unit := do
  mapRpend (RPend.lose gone)
  modWs fun w => { w with flying := w.flying.filter fun c => !gone c.pa }

/-- WINDOW_DELIVERY: a delivery on its way, by its place in the list, reaches its slot, or leaves for its package (R383). -/
def execWindowDelivery (s : State) : Host.Outcome State Fault Refusal :=
  event (do
    let i ← evArg 0
    let d ← needSome (← get).ws.deliveries[i]?
    modWs fun w => { w with deliveries := w.deliveries.eraseIdx i }
    let pkg := d.slot / 2 ^ 15
    if pkg = (← get).ws.own then mapRpend (RPend.take d.id d.status d.result)
    else sendFlit (← get).firstDie (.delivery pkg [d.slot, d.id, d.status, d.result.toNat])) s

/-! ### Routers (R377, R378) -/

/-- The triples of a list: die of the package set, slot of the fabric, number of the contribution. -/
def triples : List Nat → List (Nat × Nat × Nat)
  | a :: b :: c :: r => (a, b, c) :: triples r
  | _ => []

/-- A contribution that arrives from another package: address, operation, generation, count, value, then its origins. -/
def contributionOf (w : List Nat) : Option Contribution :=
  match w with
  | pa :: op :: gen :: count :: value :: rest =>
    (RedOp.ofCode? op).map fun o =>
      { pa := pa, op := o, gen := BitVec.ofNat 64 gen, count := count, value := BitVec.ofNat 64 value,
        origins := (triples rest).map fun t => (t.2.1, t.2.2), dies := (triples rest).map (·.1), held := true }
  | _ => none

/-- What a contribution carries to the next package. -/
def Contribution.words (c : Contribution) : List Nat :=
  [c.pa, c.op.code, c.gen.toNat, c.count, c.value.toNat] ++
    (c.dies.zip c.origins).flatMap fun e => [e.1, e.2.1, e.2.2]

/-- Two contributions merged (R378). -/
def Contribution.merge (a b : Contribution) : Contribution :=
  { a with value := redMerge a.op a.value b.value, count := a.count + b.count, origins := a.origins ++ b.origins,
           dies := a.dies ++ b.dies }

/-- Whether two contributions have the same window, element, operation and generation. -/
def Contribution.matches (a b : Contribution) : Bool := a.pa = b.pa && a.op = b.op && a.gen = b.gen

/-- ROUTER_CONTRIBUTION: operand 0 is 0 where the router merges two contributions that it holds, by their places, and 1 where one
arrives from another package (R378). -/
def execRouterContribution (s : State) : Host.Outcome State Fault Refusal :=
  event (do
    if (← evArg 0) = 0 then do
      let i ← evArg 1
      let j ← evArg 2
      let fl := (← get).ws.flying
      let a ← needSome fl[i]?
      let b ← needSome fl[j]?
      need (i ≠ j && a.held && b.held && a.matches b)
      modWs fun w => { w with flying := (w.flying.set i (a.merge b)).eraseIdx j }
    else do
      need ((← get).pf.stage = 8)
      let c ← needSome (contributionOf (← evRest 1))
      modWs fun w => { w with flying := w.flying ++ [c] }) s

/-- ROUTER_HOLD_EXPIRY: a router forwards a contribution that it held (R378). -/
def execRouterHoldExpiry (s : State) : Host.Outcome State Fault Refusal :=
  event (do
    let i ← evArg 0
    let c ← needSome (← get).ws.flying[i]?
    need c.held
    modWs fun w => { w with flying := w.flying.set i { c with held := false } }) s

/-- CONTRIBUTION_ARRIVE: a contribution that no router holds reaches the home of its window, or leaves for it (R378). -/
def execContributionArrive (s : State) : Host.Outcome State Fault Refusal :=
  event (do
    let i ← evArg 0
    let c ← needSome (← get).ws.flying[i]?
    need (!c.held)
    modWs fun w => { w with flying := w.flying.eraseIdx i }
    if pkgOf c.pa = (← get).ws.own then arriveRed c
    else sendFlit ((c.dies.headD 0) % 4) (.contribution (pkgOf c.pa) c.words)) s

/-- WINDOW_TIMEOUT: the timer of a window's generation expires (R379; log entry 4). -/
def execWindowTimeout (s : State) : Host.Outcome State Fault Refusal :=
  event (do
    let i ← evArg 0
    let w ← needSome ((← get).window i)
    need w.timer
    abortGen i w) s

/-! ### Notices (R385, R386) -/

/-- The generations in progress of a window that a die contributed to end aborted (R379, R385). -/
def abortFor (die i : Nat) : M Unit := do
  match (← get).window i with
  | none => pure ()
  | some w => do
    let (a, b) := (w.from0.any fun c => c.dies.contains die, w.from1.any fun c => c.dies.contains die)
    if a then abortGen i w else pure ()
    if b then do
      match (← get).window i with
      | some w => if a then abortGen i w else abortNext i w
      | none => pure ()
    else pure ()

/-- What a home and a contributor do on the notice of a fenced die, numbered over all packages (R385). -/
def noticeFence (die : Nat) : M Unit := do
  losePlaces fun pa => pa / 2 ^ 38 = die
  eachM (abortFor die) ((← get).ws.windows.map (·.1))

/-- FENCE_NOTICE: the notice names a package and its die, whose memory is lost until firmware writes the package's entry again (R385; log
entry 67). -/
def execFenceNotice (s : State) : Host.Outcome State Fault Refusal :=
  event (do
    let pkg ← evArg 0
    let die ← evArg 1
    need (pkg ≠ (← get).ws.own && die < 4)
    modWs fun w => { w with lost := (w.lost.filter (· ≠ pkg * 4 + die)) ++ [pkg * 4 + die] }
    noticeFence (pkg * 4 + die)) s

/-- An answer given to the slot whose pending operation has a number (R371). -/
def answerById (id a : Nat) : M Unit := modify fun s =>
  let on (x : Slot) : Slot := match x.pend with
    | some p => if p.id = id ∧ p.answer = none then { x with pend := some { p with answer := some a } } else x
    | none => x
  { s with slots := s.slots.map fun e => (e.1, on e.2) }

/-- The numbers of the requests that slots have at a package. -/
def State.asked (s : State) (pkg : Nat) : List Nat :=
  s.slots.filterMap fun e => match e.2.pend with
    | some p => if (p.kind = .rwin || p.kind = .rclose || p.kind = .smigr) && pkgOf ((p.keep[0]?).getD 0) = pkg then some p.id else none
    | none => none

/-- PACKAGE_LOST: a package is marked absent, its memory is lost, what it owed is ABORTED, and requests to it are answered with
FAB.UNREACH (R374, R386). -/
def execPackageLost (s : State) : Host.Outcome State Fault Refusal :=
  event (do
    let pkg ← evArg 0
    need (pkg ≠ (← get).ws.own)
    eachM (fun id => answerById id (faultAnswer .fabUnreach)) ((← get).asked pkg)
    losePlaces fun pa => pkgOf pa = pkg
    modWs fun w => { w with packages := tblSet .absent w.packages pkg .absent }
    modMs fun m => { m with mem := m.mem.filter fun c => pkgOf c.1 ≠ pkg, check := m.check.filter fun c => pkgOf c.1 ≠ pkg }) s

/-- An entry of the package table from four numbers: the package, 1 for coordinates or 2 for a host adapter, and what it maps to
(R369): x, y and z in eight bits each, or a package, and a port of 0 to 5 with the world bit 3 above it (R394; log entry 10). Its dies are no
longer lost (R385). -/
def tableEntry (w : WinSys) (pkg kind a b : Nat) : WinSys :=
  let e : PkgEntry := match kind with
    | 1 => .coords (a % 256) (a / 256 % 256) (a / 65536 % 256)
    | 2 => .host (a % 65536) (b % 8 % 6) (b / 8 % 2 = 1)
    | _ => .absent
  { w with packages := tblSet .absent w.packages (pkg % 65536) e, lost := w.lost.filter fun d => d / 4 ≠ pkg % 65536 }

/-- Entries of the package table written one after another. -/
def tableEntries : WinSys → List Nat → WinSys
  | w, p :: k :: a :: b :: r => tableEntries (tableEntry w p k a b) r
  | w, _ => w

/-- PACKAGE_TABLE_REWRITE: firmware writes entries of the package table (R374, R386). -/
def execPackageTableRewrite (s : State) : Host.Outcome State Fault Refusal :=
  event (do
    let w ← evRest 0
    modWs fun x => tableEntries x w) s

/-! ### Links (R373) -/

/-- A change of a port that is up. -/
def modPort (p : Nat) (f : Port → Port) : M Unit := do
  let x := tblGet .down (← get).ws.ports p
  need (p < 6 && x.up)
  modWs fun w => { w with ports := tblSet .down w.ports p (f x) }

/-- LINK_CRC_RETRY: a port's flit arrives damaged and is asked for again; operand 1 says that the retry succeeded. Eight failed
retries in a row take the link down (R373). Operand 2 is 0, or 1 more than the number of another package whose link has gone down so
(R374; log entry 10). -/
def execLinkCrcRetry (s : State) : Host.Outcome State Fault Refusal :=
  event (do
    let p ← evArg 0
    let good ← evArg 1
    match ← evArg 2 with
    | 0 => modPort p fun x =>
      if good = 1 then { x with retries := 0 } else if 7 ≤ x.retries then .down else { x with retries := x.retries + 1 }
    | k + 1 => do
      need (p < 6 && k ≠ (← get).ws.own)
      modWs fun w => { w with downLinks := (w.downLinks.filter (· ≠ 8 * k + p)) ++ (if good = 1 then [] else [8 * k + p]) }) s

/-- PAUSE_FLIT: a sender stops on a virtual channel of a port (R373). -/
def execPauseFlit (s : State) : Host.Outcome State Fault Refusal :=
  event (do
    let p ← evArg 0
    let c ← evArg 1
    need (c < 8)
    modPort p fun x => { x with paused := setBit8 x.paused c true }) s

/-- RESUME_FLIT: the sender goes on, the flits that waited first (R373). -/
def execResumeFlit (s : State) : Host.Outcome State Fault Refusal :=
  event (do
    let p ← evArg 0
    let c ← evArg 1
    need (c < 8)
    modPort p fun x => { x with paused := setBit8 x.paused c false }
    modWs fun w => w.resume p c) s

/-! ### Memory reached from outside (R22, R142, R144, R394) -/

/-- Why an access from outside to n bytes of the package fails; they lie in one line. -/
def State.outsideFault (s : State) (secure : Bool) (pa : Nat) : Option Cause :=
  if pkgOf pa ≠ s.ws.own then some .fabUnreach else (placeFault s secure pa).map (·.1)

/-- The bytes of an access from outside lie in one line. -/
def inLine (pa n : Nat) : Bool := decide (1 ≤ n) && decide (pa % 64 + n ≤ 64)

/-- Bytes as a number, the first lowest. -/
def numberOf : List Nat → Nat
  | [] => 0
  | b :: r => b % 256 + 256 * numberOf r

/-- Bytes written from outside: they receive their check value at ingress and are performed (R22, R142); the answer is 0 or the fault. -/
def outsideWrite (secure : Bool) (pa : Nat) (bytes : List Nat) : M Nat := do
  match (← get).outsideFault secure pa with
  | some c => pure (faultAnswer c)
  | none => do
    awaitLine (lineAddr pa)
    homeWrite pa bytes.length (numberOf bytes)
    pure 0

/-- Bytes read from outside, checked at exit: the fault, or none and the bytes as a number (R22, R144). -/
def outsideRead (secure : Bool) (pa n : Nat) : M (Nat × Nat) := do
  match (← get).outsideFault secure pa with
  | some c => pure (faultAnswer c, 0)
  | none => do
    match ← attempt (consumeHomeAs (ctxOf 0 0 none) (lineAddr pa)) with
    | .ok _ => pure (0, ← peek pa n)
    | .error (.trap _ _) => pure (faultAnswer .memIntegrity, 0)
    | .error e => throw e

/-- The operation of an atomic from outside by its number, in the order of R152's table, on w bits: what is written, if anything. -/
def amoByCode (code w m x e : Nat) : Option Nat :=
  match code with
  | 0 => some ((m + x) % 2 ^ w)
  | 1 => some (m &&& x)
  | 2 => some (m ||| x)
  | 3 => some (m ^^^ x)
  | 4 => some (if asSigned m w ≤ asSigned x w then m else x)
  | 5 => some (if asSigned m w ≤ asSigned x w then x else m)
  | 6 => some (Nat.min m x)
  | 7 => some (Nat.max m x)
  | 8 => some x
  | _ => if m = e then some x else none

/-- An atomic from outside, indivisible at the home: the fault, or none and the old value. -/
def outsideAmo (secure : Bool) (pa n code x e : Nat) : M (Nat × Nat) := do
  let (f, m) ← outsideRead secure pa n
  if f ≠ 0 then pure (f, m)
  else do
    match amoByCode code (8 * n) m (x % 2 ^ (8 * n)) (e % 2 ^ (8 * n)) with
    | some v => homeWrite pa n v
    | none => pure ()
    pure (0, m)

/-- The world of a host adapter (R394). -/
def WinSys.hostWorld (w : WinSys) (pkg : Nat) : Bool :=
  match tblGet .absent w.packages pkg with
  | .host _ _ b => b
  | _ => false

/-- A reply to a package. -/
def replyTo (pkg : Nat) (words : List Nat) : M Unit := do sendFlit (← get).firstDie (.response pkg words)

/-- The check value that travels with a line of the package (R142, R144). -/
def State.lineValue (s : State) (pa : Nat) : BitVec 32 := (s.ms.checkOf (lineAddr pa)).value (s.ms.homeLine (lineAddr pa))

/-- A reply with bytes of a line of the package, and the line's check value (R142, R373). -/
def replyLine (pkg pa : Nat) (words : List Nat) : M Unit := modify fun s =>
  { s with ws := s.ws.send s.ws.own (homeOf pa) none (some (s.lineValue pa)) (.response pkg words) }

/-- A read answered: with the bytes and their line's check value, or with the fault (R22, R142, R144). -/
def answerRead (pkg pa id : Nat) (r : Nat × Nat) : M Unit :=
  if r.1 = 0 then replyLine pkg pa [id, 0, r.2] else replyTo pkg [id, r.1, 0]

/-- HOST_WRITE: a host's bytes within one line; a write that fails changes nothing (R21, R22). -/
def execHostWrite (s : State) : Host.Outcome State Fault Refusal :=
  event (do
    let host ← evArg 0
    let pa ← evArg 1
    let bytes ← evRest 2
    let s ← get
    need (s.pf.stage = 8 && s.ws.isHost host && inLine pa bytes.length)
    let _ ← outsideWrite (s.ws.hostWorld host) pa bytes
    pure ()) s

/-- HOST_READ: a host's read within one line, answered with the data or an error (R22). -/
def execHostRead (s : State) : Host.Outcome State Fault Refusal :=
  event (do
    let host ← evArg 0
    let req ← evArg 1
    let pa ← evArg 2
    let n ← evArg 3
    let s ← get
    need (s.pf.stage = 8 && s.ws.isHost host && inLine pa n)
    answerRead host pa req (← outsideRead (s.ws.hostWorld host) pa n)) s

/-- Why a window of another package's task may not be opened, by the first of its places that fails (R381, R394). -/
def State.windowFault (s : State) (secure : Bool) (ps : List Nat) : Option Cause := ps.findSome? (s.outsideFault secure)

/-- A flit consumed at the package: 0 an answer, 1 and 2 a window opened and closed, a window's world its last
word, 3 a delivery, 4, 5 and 6 a read, a write and an
atomic of a peer, 9 the announcement of a package, with its coordinates (R417). -/
def consumeFlit (src kind : Nat) (w : List Nat) : M Unit := do
  let a (i : Nat) : Nat := (w[i]?).getD 0
  match kind with
  | 0 => answerById (a 0) (a 1)
  | 1 =>
    match (← get).windowFault (a 7 = 1) [a 1, a 1 + a 2 - 1, a 5], RedOp.ofCode? (a 6) with
    | some c, _ => replyTo src [a 0, faultAnswer c]
    | none, some op => do replyTo src [a 0, ← openWindow (a 1) (a 2) (a 3) (a 4) (a 5) op]
    | none, none => park .none
  | 2 => replyTo src [a 0, ← closeAt (a 1)]
  | 3 => mapRpend (RPend.take (a 1) (a 2) (BitVec.ofNat 64 (a 3)))
  | 4 => do
    need (inLine (a 2) (a 3))
    answerRead src (a 2) (a 0) (← outsideRead (a 1 = 1) (a 2) (a 3))
  | 5 => do
    need (inLine (a 2) (w.drop 3).length)
    replyTo src [a 0, ← outsideWrite (a 1 = 1) (a 2) (w.drop 3)]
  | 6 => do
    need ((a 3 = 4 || a 3 = 8) && a 2 % a 3 = 0)
    answerRead src (a 2) (a 0) (← outsideAmo (a 1 = 1) (a 2) (a 3) (a 4) (a 5) (a 6))
  | 9 => modWs fun x => tableEntry x src 1 (a 0 % 256 + a 1 % 256 * 256 + a 2 % 256 * 65536) 0
  | _ => park .none

/-- A flit that goes on to its package, of the class it came with (R372). -/
def forwardBody (dest kind : Nat) (w : List Nat) : FlitBody :=
  match kind with
  | 0 => .response dest w
  | 3 => .delivery dest w
  | 8 => .contribution dest w
  | 9 => .announce dest w
  | k => .request ((w[0]?).getD 0) dest (k :: w)

/-- FABRIC_FLIT_ARRIVAL: a flit for a package, from a package, of a kind, by a port and a virtual channel. One for another package goes on,
after the receiver's buffer where its way is paused, or is answered with FAB.UNREACH where its route meets a link that is down
(R371 to R374). -/
def execFabricFlitArrival (s : State) : Host.Outcome State Fault Refusal :=
  event (do
    let dest ← evArg 0
    let src ← evArg 1
    let kind ← evArg 2
    let port ← evArg 3
    let channel ← evArg 4
    let w ← evRest 5
    let s ← get
    need (s.pf.stage = 8)
    if dest = s.ws.own then consumeFlit src kind w
    else if s.ws.reachable dest then
      modWs fun x => x.send src ((attachedTo (fabricDieOf port)).headD 0) (some (port, channel)) none (forwardBody dest kind w)
    else replyTo src [(w[0]?).getD 0, faultAnswer .fabUnreach]) s

end Sys2Proof.Machine
end

