-- ==== Sys2Proof/Machine/Fence.lean ====
section
/-!
DEFINITION. The fence of a die (R25, R83, R84, R325, R355, R385, R408, R420). Log entry 24 says what the fence leaves as it was.
-/

namespace Sys2Proof.Machine

/-- A mask of dies without one. -/
def withoutDie (m : BitVec 4) (d : Nat) : BitVec 4 := m &&& ~~~(1#4 <<< d)

/-! ### Tasks and launches (R83, R84, R408) -/

/-- The slots lost with a die: those that run there and those saved there. -/
def State.lostSlots (s : State) (d : Nat) : List Slot :=
  ((s.slots.filter fun e => dieOf e.1 = d).map (·.2)) ++
    (s.ls.saved.filter fun c => c.core / 1024 = d).flatMap fun c => c.slots.map (·.2)

/-- Finishes not yet recorded of tasks that ran on a die (R83). -/
def State.lostFinishes (s : State) (d : Nat) : List Finish :=
  s.ls.finishing.filter fun f => match s.launch? f.launch with
    | some l => (match l.placed f.index with
      | some t => dieOf t = d
      | none => false)
    | none => false

/-- The indices of a launch whose tasks are lost with a die. -/
def State.lostIndices (s : State) (d number : Nat) : List Nat :=
  ((s.lostSlots d).filter fun x => x.launch = number && !x.stepTask && !x.shadow).map (·.index) ++
    ((s.lostFinishes d).filter fun f => f.launch = number).map (·.index)

/-- The streams homed on a die (R355). -/
def State.streamsHomed (s : State) (d : Nat) : List Nat :=
  (s.ss.streams.filter fun e => e.2.home = d && e.2.st ≠ .dead).map (·.1)

/-- Whether a launch goes on after the fence of one of its dies (R84, R355). -/
def State.launchSurvives (s : State) (d : Nat) (l : Launch) : Bool :=
  l.reissuable && !l.dep && withoutDie l.dies d ≠ 0 &&
    !((s.streamsHomed d).any fun k => (s.ss.stream k).launch = l.number)

/-- A launch that lost a die: the master elected again, its indices placed again or the launch LOST (R83, R84). -/
def Launch.afterFence (l : Launch) (d : Nat) (lost : List Nat) (survives : Bool) : Launch :=
  let dies := withoutDie l.dies d
  let handed := tblGet [] l.chunks d
  let l := { l with dies := dies
                    master := if l.master = d then ((List.range 4).find? fun k => dies.getLsbD k).getD l.master else l.master
                    chunks := tblSet [] l.chunks d []
                    place := lost.foldl (fun t i => tblSet 0 t i 0) l.place }
  if survives then
    { l with reissue := l.reissue ++ lost ++ handed, left := l.left + lost.length }
  else { l with lost := true }

/-- The regions of lost tasks refuted: none of their stores is visible (R83). -/
def refuteLost (xs : List Slot) (fs : List Finish) : M Unit :=
  eachM (fun k => do if k ≠ 0 ∧ ((← get).hyps.get k).st = .opened then commitRefute k else pure ())
    ((xs.flatMap fun x => x.regions.map (·.id)) ++ fs.map (·.region))

/-- Whether the fence of a die concerns a launch: the die is one of its set, or it owns a stream homed there (R84, R355). -/
def State.concerns (s : State) (d : Nat) (l : Launch) : Bool :=
  l.dies.getLsbD d || (s.streamsHomed d).any fun k => (s.ss.stream k).launch = l.number

/-- Launches that the fence of a die concerns: marked, and what ends with it counted (R74, R83, R84, R355). -/
def fenceLaunches (d : Nat) : M Unit := do
  let s ← get
  let mine := s.ls.launches.filter (s.concerns d)
  modLs fun x => { x with
    launches := x.launches.map fun l =>
      if s.concerns d l then l.afterFence d (s.lostIndices d l.number) (s.launchSurvives d l) else l
    finishing := x.finishing.filter fun f => !(s.lostFinishes d).contains f
    preempt := x.preempt.filter fun p => p.2 ≠ d
    saved := x.saved.filter fun c => c.core / 1024 ≠ d }
  eachM (fun (l : Launch) =>
    if s.launchSurvives d l then pure ()
    else do
      dropUncreated l.number
      let n := (s.lostIndices d l.number).length
      if n = 0 then pure () else launchDown l.number n) mine

/-! ### The die's own parts (R25) -/

/-- Slots, cores and cells of a die at their reset values, its L1s, owners, versions and translations gone. -/
def clearDie (d : Nat) : M Unit := do
  let s ← get
  eachM (fun (c : Nat × Core) => eachM (fun (e : VEntry) => admitUnits e.asid e.admits (-1)) c.2.vq)
    (s.cores.filter fun c => c.1 / 1024 = d)
  modify fun s => { s with
    slots := s.slots.filter fun e => dieOf e.1 ≠ d
    cores := s.cores.filter fun e => e.1 / 1024 ≠ d
    cells := s.cells.filter fun e => e.1 / 128 ≠ d
    es := { s.es with cmds := s.es.cmds.filter fun c => c.die ≠ d }
    fs := { s.fs with queues := s.fs.queues.filter fun e => queueDie e.1 ≠ d }
    early := s.early.filter fun k => k / 1024 ≠ d
    pf := { s.pf with pairs := s.pf.pairs.filter fun p => dieOf p.slot ≠ d } }
  modMs fun m => { m with
    l1 := m.l1.filter fun x => x.cell / 128 ≠ d
    owner := m.owner.filter fun o => (o.2 - 1) / 128 ≠ d && homeOf o.1 ≠ d
    versions := m.versions.filter fun v => homeOf v.line ≠ d
    tlb := m.tlb.filter fun e => e.holder / 128 ≠ d && e.holder ≠ 512 + d
    misses := m.misses.filter fun e => e.die ≠ d
    walkCache := m.walkCache.filter fun e => e.die ≠ d }

/-- The streams, groups, batches and pages of a die (R355). -/
def fenceStreams (d : Nat) : M Unit := do
  eachM dropStream ((← get).streamsHomed d)
  modSs fun x => { x with
    streams := x.streams.map fun e => (e.1, match e.2.group with
      | some g => (match tblGet none x.groups g with
        | some grp => if grp.die = d then { e.2 with group := none } else e.2
        | none => e.2)
      | none => e.2)
    groups := x.groups.filter fun e => match e.2 with
      | some grp => grp.die ≠ d
      | none => false
    batches := x.batches.filter fun b => b.die ≠ d
    pages := x.pages.filter fun e => e.2.home ≠ d }

/-- The sweeps and acknowledgements that a die owed; a resolution not committed starts again (R316, R325). -/
def fenceResolver (d : Nat) : M Unit := do
  modHyps fun h =>
    let h : HypSys := { h with table := h.table.map fun e => (e.1, { e.2 with sweep := withoutDie e.2.sweep d }) }
    match h.cur with
    | some r =>
      if r.phase = .prepare then
        { h.set r.req.target { h.get r.req.target with busy := false } with cur := none, queue := r.req :: h.queue }
      else h
    | none => h
  match (← get).hyps.cur with
  | some r =>
    if (← get).allAcked r.acks then do
      modHyps fun h => { h with cur := none }
      answerTo r.req.slot r.req.id 0
    else pure ()
  | none => pure ()

/-- A window homed on a die that is fenced: what is in progress ends ABORTED, its generation word is written where its home lives, and it is
lost (R379, R385). -/
def loseWindow (i : Nat) (w : Window) : M Unit := do
  eachM (fun c => deliverRed c rAborted 0) (w.from0 ++ w.from1)
  if !w.from0.isEmpty && (← get).live (homeOf w.genPa) then writeGen w true (w.gen + 1) else pure ()
  putWindow i none

/-- Whether a package of the table gets a fence notice: every other one, by coordinates. -/
def PkgEntry.noticed : PkgEntry → Bool
  | .coords _ _ _ => true
  | _ => false

/-- Windows homed on a die are lost, and the notice goes to the package itself and to every other one (R379, R385). -/
def fenceWindows (d : Nat) : M Unit := do
  let s ← get
  let own := s.ws.own
  eachM (fun (e : Nat × Option Window) => match e.2 with
    | some w => if homeOf w.base = d then loseWindow e.1 w else pure ()
    | none => pure ()) s.ws.windows
  eachM (fun (e : Nat × PkgEntry) => if e.1 ≠ own && e.2.noticed then sendFlit s.firstDie (.notice e.1 d) else pure ()) s.ws.packages
  noticeFence (own * 4 + d)

/-! ### The boot information block (R420) -/

/-- n bytes of memory copied from one table's place to another's. -/
def moveTable (m : Tbl Byte) (src dst n : Nat) : Tbl Byte :=
  (m.filter fun c => decide (src ≤ c.1) && decide (c.1 < src + n)).foldl (fun t c => tblSet 0 t (c.1 - src + dst) c.2) m

/-- The tables of the lowest-numbered live die as the firmware keeps them on the next one (R420; log entry 6). -/
def moveTables (d : Nat) : M Unit := modify fun s =>
  let f := s.pf.fw
  let g := { FwTables.published d with generation := f.generation, versionMiB := f.versionMiB, pageMiB := f.pageMiB,
                                       spillMiB := f.spillMiB }
  let m := moveTable s.ms.mem (s.fabric f.asidTab) (s.fabric g.asidTab) 0x80000
  let m := moveTable m (s.fabric f.sysHnd) (s.fabric g.sysHnd) 0x80000
  { s with ms := { s.ms with mem := m }, pf := { s.pf with fw := g } }

/-- The block written again after a fence; where its die is the one fenced, on the next die, with an interrupt to every host
adapter (R420). -/
def rewriteBlock (first : Nat) : M Unit := do
  let s ← get
  if s.pf.stage < 7 || s.liveDies.isEmpty then pure ()
  else do
    if s.firstDie = first then pure () else moveTables s.firstDie
    modPf fun p => { p with fw := p.fw.next }
    writeBlock
    if s.firstDie = first then pure ()
    else eachM (fun (e : Nat × PkgEntry) => if s.ws.isHost e.1 then sendFlit s.firstDie (.interrupt e.1 0 0 0) else pure ()) s.ws.packages

/-! ### The fence -/

/-- A die is fenced (R25, R385). -/
def fenceDie (d : Nat) : M Unit := do
  let s ← get
  let first := s.firstDie
  modPf fun p => { p with live := withoutDie p.live d }
  fenceLaunches d
  fenceStreams d
  refuteLost (s.lostSlots d) (s.lostFinishes d)
  clearDie d
  fenceResolver d
  fenceWindows d
  rewriteBlock first
  modPf fun p => if p.live = 0 then { p with recovery := true } else p

/-- DIE_FENCE: a live die is fenced (R25, R385). -/
def execDieFence (s : State) : Host.Outcome State Fault Refusal :=
  event (do
    let d ← evArg 0
    need (d < 4 && (← get).live d)
    fenceDie d) s

/-- FABRIC_DIE_FAILURE: a fabric die fails and takes its three ports out of service (R25). -/
def execFabricDieFailure (s : State) : Host.Outcome State Fault Refusal :=
  event (do
    let f ← evArg 0
    need (f < 2)
    modWs fun w => { w with fabricDies := w.fabricDies &&& ~~~(1#2 <<< f)
                            ports := w.ports.filter fun p => p.1 / 3 ≠ f }) s

end Sys2Proof.Machine
end

