-- ==== Sys2Proof/Machine/Fp.lean ====
section
/-!
DEFINITION. Scalar floating point (R100 to R109).
-/

namespace Sys2Proof.Machine

/-- The format of a precision. -/
def precFmt : Prec → FpFmt
  | .s => .f32
  | .d => .fp64
/-- The bits of a source (R100). -/
def srcBits (p : Prec) (w : Word) : Nat :=
  match p with
  | .s => w.toNat % 2 ^ 32
  | .d => w.toNat
/-- The rounding of an instruction (R103). -/
def rndOf (sel : RndSel) (rm : BitVec 2) : Rnd :=
  match sel with
  | .dyn => .ofCode rm.toNat
  | .rne => .rne
  | .rtz => .rtz
  | .rup => .rup
  | .rdn => .rdn
/-- The rounding that an instruction of the task takes. -/
def curRnd (sel : RndSel) : M Rnd := do pure (rndOf sel (← curSlot).rm)
/-- A result with its flags: the flags are collected, the register written (R102). -/
def wrFp (d : GReg) (r : Nat × Flags) : M Unit := do
  orFlags r.2
  wr d (BitVec.ofNat 64 r.1)

/-- An arithmetic instruction of two sources. -/
def fp2 (i : Instr) (d a b : GReg) (p : Prec) (sel : RndSel) (f : FpFmt → Rnd → Nat → Nat → Nat × Flags) (s : State) :
    Host.Outcome State Fault Refusal :=
  issue i (thenNext do wrFp d (f (precFmt p) (← curRnd sel) (srcBits p (← rd a)) (srcBits p (← rd b)))) s

/-- `fadd`: the sum, rounded once (R103, R105). -/
def execFadd (d a b : GReg) (prec : Prec) (rnd : RndSel) (s : State) : Host.Outcome State Fault Refusal :=
  fp2 (.fadd d a b prec rnd) d a b prec rnd addBits s

/-- `fsub`: the difference, rounded once (R103, R105). -/
def execFsub (d a b : GReg) (prec : Prec) (rnd : RndSel) (s : State) : Host.Outcome State Fault Refusal :=
  fp2 (.fsub d a b prec rnd) d a b prec rnd subBits s

/-- `fmul`: the product, rounded once (R103, R105). -/
def execFmul (d a b : GReg) (prec : Prec) (rnd : RndSel) (s : State) : Host.Outcome State Fault Refusal :=
  fp2 (.fmul d a b prec rnd) d a b prec rnd mulBits s

/-- `fdiv`: the quotient, rounded once (R103, R105). -/
def execFdiv (d a b : GReg) (prec : Prec) (rnd : RndSel) (s : State) : Host.Outcome State Fault Refusal :=
  fp2 (.fdiv d a b prec rnd) d a b prec rnd divBits s

/-- `fsqrt`: the square root, rounded once (R103, R105). -/
def execFsqrt (d a : GReg) (prec : Prec) (rnd : RndSel) (s : State) : Host.Outcome State Fault Refusal :=
  issue (.fsqrt d a prec rnd) (thenNext do wrFp d (sqrtBits (precFmt prec) (← curRnd rnd) (srcBits prec (← rd a)))) s

/-- `ffma`: g[A] · g[B] + g[D] with one rounding (R105). -/
def execFfma (d a b : GReg) (prec : Prec) (rnd : RndSel) (s : State) : Host.Outcome State Fault Refusal :=
  issue (.ffma d a b prec rnd) (thenNext do
    wrFp d (fmaBits (precFmt prec) (← curRnd rnd) false false (srcBits prec (← rd a)) (srcBits prec (← rd b))
      (srcBits prec (← rd d)))) s

/-- `fmin`: the smaller operand (R106). -/
def execFmin (d a b : GReg) (prec : Prec) (s : State) : Host.Outcome State Fault Refusal :=
  fp2 (.fmin d a b prec) d a b prec .dyn (fun f _ x y => minMaxBits f false x y) s

/-- `fmax`: the larger operand (R106). -/
def execFmax (d a b : GReg) (prec : Prec) (s : State) : Host.Outcome State Fault Refusal :=
  fp2 (.fmax d a b prec) d a b prec .dyn (fun f _ x y => minMaxBits f true x y) s

/-- A comparison and its flags (R107). -/
def fcmpBits (f : FpFmt) (c : FcmpCond) (x y : Nat) : Nat × Flags :=
  let a := f.decode x
  let b := f.decode y
  let nan := a.isNan || b.isNan
  let sig := a.isSig || b.isSig
  match c with
  | .eq => ((eqVal a b).toNat, nvIf sig)
  | .lt => ((!nan && ltVal a b).toNat, nvIf nan)
  | .le => ((!nan && (ltVal a b || eqVal a b)).toNat, nvIf nan)
  | .un => (nan.toNat, nvIf sig)

/-- `fcmp`: 1 where the condition holds (R107). -/
def execFcmp (d a b : GReg) (prec : Prec) (cond : FcmpCond) (s : State) : Host.Outcome State Fault Refusal :=
  fp2 (.fcmp d a b prec cond) d a b prec .dyn (fun f _ x y => fcmpBits f cond x y) s

/-- The other precision. -/
def otherPrec : Prec → Prec
  | .s => .d
  | .d => .s

/-- A conversion and its flags (R109). -/
def fcvtBits (p : Prec) (k : FcvtKind) (mode : Rnd) (w : Word) : Nat × Flags :=
  match k with
  | .tof => convertBits (precFmt (otherPrec p)) (precFmt p) mode (srcBits (otherPrec p) w)
  | .tos =>
    let r := toIntVal mode (-(2 ^ 63)) (2 ^ 63 - 1) ((precFmt p).decode (srcBits p w))
    ((wrap64 r.1).toNat, r.2)
  | .ton =>
    let r := toIntVal mode 0 (2 ^ 64 - 1) ((precFmt p).decode (srcBits p w))
    ((wrap64 r.1).toNat, r.2)
  | .froms => ofIntBits (precFmt p) mode w.toInt
  | .fromn => ofIntBits (precFmt p) mode w.toNat

/-- `fcvt`: conversion between formats and integers (R109). -/
def execFcvt (d a : GReg) (prec : Prec) (rnd : RndSel) (kind : FcvtKind) (s : State) :
    Host.Outcome State Fault Refusal :=
  issue (.fcvt d a prec rnd kind) (thenNext do wrFp d (fcvtBits prec kind (← curRnd rnd) (← rd a))) s

/-- `fclass`: the class of the source as one bit of ten (R108). -/
def execFclass (d a : GReg) (prec : Prec) (s : State) : Host.Outcome State Fault Refusal :=
  issue (.fclass d a prec) (thenNext do wr d (BitVec.ofNat 64 (2 ^ classBit (precFmt prec) (srcBits prec (← rd a))))) s

end Sys2Proof.Machine
end

