-- ==== Sys2Proof/Machine/Platform.lean ====
section
/-!
DEFINITION. Module services: reset, boot, firmware, attestation, worlds, power, heat, telemetry, quarantine and injection, the
Assayer's events, and the word that is no instruction (R51, R410 to R428).
-/

namespace Sys2Proof.Machine

/-! ### A word that is no instruction (R51, R401) -/

/-- NOT_AN_INSTRUCTION: ILLEGAL at the word that the fetch found (R51). -/
def execNotAnInstruction (s : State) : Host.Outcome State Fault Refusal :=
  if (s.slot s.cur).st = .free then .fault .noTask
  else .next (runM (takeTrap s.cur Cause.illegal.code (some (BitVec.ofNat 64 ((s.ev[0]?).getD 0))) (s.slot s.cur).pc none) s)

/-! ### The Assayer (R410, R411) -/

/-- The first packet whose H differs between the copies, by sequence number (R411). -/
def PairPacket.firstDiff (p q : PairPacket) : Nat :=
  p.seq + ((p.hashes.zip q.hashes).findIdx? fun h => h.1 ≠ h.2).getD (min p.hashes.length q.hashes.length)

/-- ASSAYER_COMPARE: the Assayer has the packets of both copies of a pair: the primary goes on, or REDUNDANCY is raised in
both (R410). -/
def execAssayerCompare (s : State) : Host.Outcome State Fault Refusal :=
  event (do
    let t ← evArg 0
    let s ← get
    let u ← needSome (s.slot t).partner
    let p ← needSome (s.pairPacket t)
    let q ← needSome (s.pairPacket u)
    need (p.seq = q.seq)
    if p.hashes = q.hashes then do
      let k := primaryOf t (s.slot t)
      need ((s.slot k).st = .parked && (s.slot k).wait = .assayer)
      modSlotAt k fun x => { x with st := .ready }
    else redundancyBoth t u false (PairPacket.firstDiff p q) none) s

/-- Whether a packet waits for a partner that is 4,096 cycles late (R411). -/
def State.skewed (s : State) (p : PairPacket) : Bool :=
  decide (p.since + 4096 ≤ s.clock (dieOf p.slot)) &&
  match (s.slot p.slot).partner with
  | some u => (match s.pairPacket u with
    | some q => decide (q.seq < p.seq)
    | none => true)
  | none => false

/-- ASSAYER_SKEW_TIMEOUT: REDUNDANCY in both copies (R411). -/
def execAssayerSkewTimeout (s : State) : Host.Outcome State Fault Refusal :=
  event (do
    let t ← evArg 0
    let p ← needSome ((← get).pairPacket t)
    need ((← get).skewed p)
    let u ← needSome ((← get).slot t).partner
    redundancyBoth t u true p.seq none) s

/-! ### Quarantine and injection (R413, R415) -/

/-- A quarantine bit set: 0 a core, 1 a vector unit, 2 a matrix unit, by number (R413). -/
def quarantine (kind i : Nat) (p : Platform) : Platform :=
  match kind with
  | 0 => { p with quarCore := tblSet false p.quarCore i true }
  | 1 => { p with quarVec := tblSet false p.quarVec i true }
  | _ => { p with quarMat := tblSet false p.quarMat i true }

/-- QUARANTINE_SET: firmware sets a bit (R413). -/
def execQuarantineSet (s : State) : Host.Outcome State Fault Refusal :=
  event (do
    let kind ← evArg 0
    let i ← evArg 1
    need (kind < 3 && decide (i < if kind = 0 then 4096 else 512))
    modPf (quarantine kind i)) s

/-- INJECTION_ARM: an entry of a die's injection table is written, as 16 bytes (R415). -/
def execInjectionArm (s : State) : Host.Outcome State Fault Refusal :=
  event (do
    let d ← evArg 0
    let i ← evArg 1
    let v ← evArg 2
    let s ← get
    let base := tblGet 0 s.pf.fw.inject d
    need (base ≠ 0 && i < 16 && s.live d)
    homeWrite (s.fabric (base + 16 * i)) 16 v) s

/-! ### Reset and boot (R416 to R418) -/

/-- A reply of the management port: 1 telemetry, 2 a report, 3 EXHAUSTED, 4 the boot stage that fails. -/
def portReply (kind : Nat) (w : List Nat) : M Unit := modPf fun p => { p with replies := p.replies ++ [(kind, w)] }

/-- The module enters recovery, and the management port reports the stage that failed (R417). -/
def enterRecovery : M Unit := do
  modPf fun p => { p with recovery := true }
  portReply 4 [(← get).pf.stage]

/-- The module after its reset: what flash, fuses and sensors hold stays, and the counter of free values goes on (R416). -/
def moduleReset (s : State) : State :=
  { State.reset with
    agenda := s.agenda, ev := s.ev, free := s.free
    pf := { Platform.reset with
      active := s.pf.active, fresh := s.pf.fresh, imageA := s.pf.imageA, imageB := s.pf.imageB, fusedSvn := s.pf.fusedSvn,
      otsIndex := s.pf.otsIndex, otsFuse := s.pf.otsFuse, temps := s.pf.temps } }

/-- MODULE_RESET (R416). -/
def execModuleReset (s : State) : Host.Outcome State Fault Refusal := event (modify moduleReset) s

/-- An image slot; true for B. -/
def Platform.image (p : Platform) (b : Bool) : Image := if b then p.imageB else p.imageA

/-- Whether every image of a slot meets a security version (R417, R418). -/
def Image.meets (i : Image) (v : Nat) : Bool := decide (v ≤ i.version) && i.further.all fun f => decide (v ≤ f.version)

/-- Whether a slot verifies: its first-stage image at stage 1, and at stage 2 every further image too, with each version at least the fused
minimum (R417). -/
def Platform.verifies (p : Platform) (two b : Bool) : Bool :=
  (p.image b).present && (p.image b).signed && (!two || ((p.image b).further.all (·.signed) && (p.image b).meets p.fusedSvn))

/-- The slot that a stage chooses: the one tried first, or the other, or none (R417, R418). -/
def Platform.choose (p : Platform) (two first : Bool) : Option Bool :=
  if p.verifies two first then some first else if p.verifies two (!first) then some (!first) else none

/-- Stages 1 and 2: an image that verifies, or recovery. -/
def bootImage (two : Bool) : M Unit := do
  let p := (← get).pf
  let first := if two then p.active else (p.active != p.fresh)
  match p.choose two first with
  | some b => modPf fun p => { p with active := b, fresh := false }
  | none => enterRecovery

/-- Dies that fail stage 4 or 5 are fenced; with no die left the module enters recovery (R417). -/
def bootDies (ds : List Nat) : M Unit := do
  modPf fun p => { p with live := ds.foldl withoutDie p.live }
  if (← get).pf.live = 0 then enterRecovery else pure ()

/-- Units that fail the self-test are quarantined: kind·2^16 + number (R417). -/
def bootUnits (us : List Nat) : M Unit := modPf fun p => us.foldl (fun p u => quarantine (u / 2 ^ 16) (u % 2 ^ 16) p) p

/-- Stage 6: number, coordinates, sizes, the ports that train, and the package table (R369, R417). -/
def bootFabric (w : List Nat) : M Unit := do
  let a (i : Nat) : Nat := (w[i]?).getD 0
  let (xs, ys, zs) := (max 1 (a 4), max 1 (a 5), max 1 (a 6))
  need (xs ≤ 256 && ys ≤ 256 && zs ≤ 256 && xs * ys * zs ≤ 65536 && a 1 < xs && a 2 < ys && a 3 < zs && a 0 < 65536)
  modWs fun x =>
    let ports := (List.range 6).foldl (fun t p =>
      if a 7 / 2 ^ p % 2 = 1 && x.fabricDies.getLsbD (p / 3) then tblSet .down t p { Port.down with up := true } else t) []
    let x := { x with own := a 0, place := (a 1, a 2, a 3), torus := (xs, ys, zs), ports := ports }
    tableEntries x (w.drop 8)

/-- The carve-outs that system software has set, in MiB: version store, page store, spill area; the defaults where it set none (R314, R334,
R419). The first two lie in the state store. -/
def FwTables.carved (f : FwTables) : List Nat → Option FwTables
  | [] => some f
  | [v, p, sp] => if v + p ≤ storeMiB && sp < 2 ^ 32 then some { f with versionMiB := v, pageMiB := p, spillMiB := sp } else .none
  | _ => .none

/-- Stage 7: the tables and the boot information block; every region bit is 0. What is found instead of carve-outs is a failure (R417, R419,
R421). -/
def bootTables (w : List Nat) : M Unit := do
  let s ← get
  match (FwTables.published s.firstDie).carved w with
  | some f => do
    modify fun s => { s with pf := { s.pf with fw := f }, ms := { s.ms with region := [] } }
    writeBlock
  | none => enterRecovery

/-- Stage 8: the package announces itself, with its coordinates, to every other package of the table (R417). -/
def bootAnnounce : M Unit := do
  let s ← get
  let (x, y, z) := s.ws.place
  eachM (fun (e : Nat × PkgEntry) =>
    if e.1 ≠ s.ws.own && e.2.noticed then sendFlit s.firstDie (.announce e.1 [x, y, z]) else pure ()) s.ws.packages

/-- BOOT_STAGE: the next stage runs; its number, then what the stage finds (R417). -/
def execBootStage (s : State) : Host.Outcome State Fault Refusal :=
  event (do
    let n ← evArg 0
    let w ← evRest 1
    let p := (← get).pf
    need (n = p.stage + 1 && n ≤ 8 && !p.recovery)
    modPf fun p => { p with stage := n }
    match n with
    | 1 => bootImage false
    | 2 => bootImage true
    | 3 => bootUnits w
    | 4 | 5 => bootDies w
    | 6 => bootFabric w
    | 7 => bootTables w
    | _ => bootAnnounce) s

/-- Further images from three numbers each: version, whether the signature verifies, digest. -/
def furtherOf : List Nat → List Firmware
  | v :: ok :: d :: r => ⟨v, ok = 1, d⟩ :: furtherOf r
  | _ => []

/-- FIRMWARE_UPDATE: a slot's images are written to the inactive slot, the first-stage one first, each as its version, whether its signature
verifies, and its digest (R418). -/
def execFirmwareUpdate (s : State) : Host.Outcome State Fault Refusal :=
  event (do
    let v ← evArg 0
    let ok ← evArg 1
    let d ← evArg 2
    let i : Image := ⟨v, true, ok = 1, d, furtherOf (← evRest 3)⟩
    modPf fun p => if p.active then { p with imageA := i, fresh := true } else { p with imageB := i, fresh := true }) s

/-- SVN_RAISE: the fused minimum rises to a version that both slots meet (R418). -/
def execSvnRaise (s : State) : Host.Outcome State Fault Refusal :=
  event (do
    let v ← evArg 0
    let p := (← get).pf
    need (decide (p.fusedSvn < v) && p.imageA.meets v && p.imageB.meets v && p.imageA.present && p.imageB.present)
    modPf fun p => { p with fusedSvn := v }) s

/-! ### Attestation (R423, R424) -/

/-- The contents of a report short of its signature (R424). -/
def reportOf (p : Platform) : List Nat :=
  Config.serialNumber :: (p.image p.active).digest :: (p.image p.active).further.map (·.digest) ++
    [(p.image p.active).version, p.fusedSvn, p.otsNonce, p.otsIndex - 1] ++ p.quarCore.map (·.1) ++ p.quarVec.map (fun e => 2 ^ 16 + e.1) ++ p.quarMat.map fun e => 2 * 2 ^ 16 + e.1

/-- ATTESTATION_REQUEST: a nonce advances the one-time index, in fuses at a multiple of 1,024; without operands the report of the
request in hand is released. With every index used the answer is EXHAUSTED (R423, R424). -/
def execAttestationRequest (s : State) : Host.Outcome State Fault Refusal :=
  event (do
    let w ← evRest 0
    let p := (← get).pf
    match w with
    | [] => do
      need p.otsPending
      portReply 2 (reportOf p)
      modPf fun p => { p with otsPending := false }
    | nonce :: _ => do
      need (!p.otsPending)
      if 2 ^ 20 ≤ p.otsIndex then portReply 3 []
      else modPf fun p =>
        let i := p.otsIndex + 1
        { p with otsIndex := i, otsFuse := if i % 1024 = 0 then i / 1024 else p.otsFuse, otsPending := true,
                 otsNonce := nonce % 2 ^ 256 }) s

/-- POWER_LOSS: the module loses power; a one-time index that was advanced and not released is skipped (R423). -/
def execPowerLoss (s : State) : Host.Outcome State Fault Refusal :=
  event (modPf fun p => { p with powered := false, otsPending := false }) s

/-! ### Worlds (R421) -/

/-- Every byte of a granule of home memory zero, its check values remade and its reservations broken. -/
def zeroGranule (lo : Nat) : M Unit := modify fun s =>
  let inside (a : Nat) : Bool := decide (lo ≤ a) && decide (a < lo + 2 ^ 21)
  { s with
    ms := { s.ms with mem := s.ms.mem.filter fun c => !inside c.1, check := s.ms.check.filter fun c => !inside c.1 }
    slots := s.slots.map fun e => match e.2.resv with
      | some r => if inside r.line then (e.1, { e.2 with resv := some ⟨r.line, true⟩ }) else e
      | none => e }

/-- REGION_BIT_CHANGE: secure firmware changes the world of a granule: every L1 gives its lines up, a granule that leaves the secure
world is zeroed, then the bit changes (R421). Operand 2 is 0, or 1 more than the number of another package whose firmware has changed
a bit of its own (R394; log entry 10). -/
def execRegionBitChange (s : State) : Host.Outcome State Fault Refusal :=
  event (do
    let g ← evArg 0
    let bit ← evArg 1
    let other ← evArg 2
    let s ← get
    let pkg := if other = 0 then s.ws.own else other - 1
    need (g < 524288 && pkg < 65536 && (if pkg = s.ws.own then s.live (g / 2 ^ 17) else true))
    let lo := 2 ^ 40 * pkg + 2 ^ 21 * g
    eachM replaceLine (s.ms.l1.filter fun x => decide (lo ≤ x.pa) && decide (x.pa < lo + 2 ^ 21))
    if bit ≠ 1 && tblGet false s.ms.region (lo / 2 ^ 21) then zeroGranule lo else pure ()
    modMs fun m => { m with region := tblSet false m.region (lo / 2 ^ 21) (bit = 1) }) s

/-! ### Power and heat (R425, R427) -/

/-- POWER_CAP_SET: from 2,000 W to 4,200 W in steps of 50 W (R425). -/
def execPowerCapSet (s : State) : Host.Outcome State Fault Refusal :=
  event (do
    let w ← evArg 0
    need (2000 ≤ w && w ≤ 4200 && w % 50 = 0)
    modPf fun p => { p with cap := w }) s

/-- A die's arithmetic clock one step lower, not below 0.95 GHz (R425). -/
def stepDown (d : Nat) : M Unit := modPf fun p => { p with step16 := tblSet 16 p.step16 d (max 8 (p.clock16 d - 1)) }

/-- POWER_THROTTLE: firmware lowers a die's arithmetic clock (R425). -/
def execPowerThrottle (s : State) : Host.Outcome State Fault Refusal :=
  event (do
    let d ← evArg 0
    need (d < 4 && (← get).live d)
    stepDown d) s

/-- Whether a millisecond has passed since a die's clock last rose (R425). -/
def State.mayRise (s : State) (d : Nat) : Bool :=
  match tblGet none s.pf.raised d with
  | some t => decide (t + s.msCycles d ≤ s.clock d)
  | none => true

/-- CLOCK_STEP_UP: the clock rises one step, at most once in a millisecond (R425). -/
def execClockStepUp (s : State) : Host.Outcome State Fault Refusal :=
  event (do
    let d ← evArg 0
    let s ← get
    need (d < 4 && s.live d && s.mayRise d)
    modPf fun p => { p with step16 := tblSet 16 p.step16 d (min 16 (p.clock16 d + 1)),
                            raised := tblSet none p.raised d (some (s.clock d)) }) s

/-- The hottest sensor of a die as it is read, in °C. -/
def setTemp (d t : Nat) : M Unit := modPf fun p => { p with temps := tblSet 0 p.temps d t }

/-- THERMAL_THROTTLE: at 95 °C a die lowers its arithmetic clock (R427). -/
def execThermalThrottle (s : State) : Host.Outcome State Fault Refusal :=
  event (do
    let d ← evArg 0
    let t ← evArg 1
    need (d < 4 && (← get).live d && 95 ≤ t)
    setTemp d t
    stepDown d) s

/-- COOLANT_FLOW_LOSS: the management port reports lost coolant flow (R427). -/
def execCoolantFlowLoss (s : State) : Host.Outcome State Fault Refusal :=
  event (modPf fun p => { p with coolantLost := true }) s

/-- THERMAL_FENCE: at 105 °C, or on lost coolant flow, firmware fences the die (R427). -/
def execThermalFence (s : State) : Host.Outcome State Fault Refusal :=
  event (do
    let d ← evArg 0
    let t ← evArg 1
    let s ← get
    need (d < 4 && s.live d && (105 ≤ t || s.pf.coolantLost))
    setTemp d t
    fenceDie d) s

/-- THERMAL_SHUTDOWN: at 115 °C on any die the package powers down (R427). -/
def execThermalShutdown (s : State) : Host.Outcome State Fault Refusal :=
  event (do
    let d ← evArg 0
    let t ← evArg 1
    need (d < 4 && 115 ≤ t)
    setTemp d t
    modPf fun p => { p with powered := false, otsPending := false }) s

/-! ### Telemetry (R428) -/

/-- The entries of a kind in a die's error log ring (R414). -/
def State.errorCount (s : State) (d kind : Nat) : Nat :=
  let base := tblGet 0 s.pf.fw.elog d
  if base = 0 then 0
  else ((List.range (tblGet 0 s.ms.elogCount d)).filter fun i => s.peek (s.fabric (base + 32 * i) + 5) 1 = kind).length

/-- TELEMETRY_SAMPLE: clocks, sensor temperatures and error counts of the dies; the operands are the powers, the other temperatures
and the flow as the port measures them (R428). -/
def execTelemetrySample (s : State) : Host.Outcome State Fault Refusal :=
  event (do
    let w ← evRest 0
    let s ← get
    portReply 1 ((List.range 4).map s.pf.clock16 ++ ((List.range 4).map fun d => tblGet 0 s.pf.temps d) ++
      ((List.range 4).flatMap fun d => (List.range 4).map fun k => s.errorCount d k) ++ w)) s

end Sys2Proof.Machine
end

