-- ==== Sys2Proof/Machine/Dispatch.lean ====
section
/-!
DEFINITION. The dispatch of every row of the opcode table to its meaning.
-/

namespace Sys2Proof.Machine

def exec (i : Instr) (s : State) : Host.Outcome State Fault Refusal :=
  match i with
  | .add d a b => Sys2Proof.Machine.execAdd d a b s
  | .sub d a b => Sys2Proof.Machine.execSub d a b s
  | .mul d a b => Sys2Proof.Machine.execMul d a b s
  | .mulh d a b => Sys2Proof.Machine.execMulh d a b s
  | .mulhn d a b => Sys2Proof.Machine.execMulhn d a b s
  | .div d a b => Sys2Proof.Machine.execDiv d a b s
  | .divn d a b => Sys2Proof.Machine.execDivn d a b s
  | .rem d a b => Sys2Proof.Machine.execRem d a b s
  | .remn d a b => Sys2Proof.Machine.execRemn d a b s
  | .and d a b => Sys2Proof.Machine.execAnd d a b s
  | .or d a b => Sys2Proof.Machine.execOr d a b s
  | .xor d a b => Sys2Proof.Machine.execXor d a b s
  | .andn d a b => Sys2Proof.Machine.execAndn d a b s
  | .orn d a b => Sys2Proof.Machine.execOrn d a b s
  | .sll d a b => Sys2Proof.Machine.execSll d a b s
  | .srl d a b => Sys2Proof.Machine.execSrl d a b s
  | .sra d a b => Sys2Proof.Machine.execSra d a b s
  | .rol d a b => Sys2Proof.Machine.execRol d a b s
  | .ror d a b => Sys2Proof.Machine.execRor d a b s
  | .min d a b => Sys2Proof.Machine.execMin d a b s
  | .max d a b => Sys2Proof.Machine.execMax d a b s
  | .minn d a b => Sys2Proof.Machine.execMinn d a b s
  | .maxn d a b => Sys2Proof.Machine.execMaxn d a b s
  | .slt d a b => Sys2Proof.Machine.execSlt d a b s
  | .sltn d a b => Sys2Proof.Machine.execSltn d a b s
  | .sel d a b c => Sys2Proof.Machine.execSel d a b c s
  | .clz d a => Sys2Proof.Machine.execClz d a s
  | .ctz d a => Sys2Proof.Machine.execCtz d a s
  | .popc d a => Sys2Proof.Machine.execPopc d a s
  | .brev d a => Sys2Proof.Machine.execBrev d a s
  | .bfx d a b => Sys2Proof.Machine.execBfx d a b s
  | .bfi d a b => Sys2Proof.Machine.execBfi d a b s
  | .clmul d a b => Sys2Proof.Machine.execClmul d a b s
  | .clmulh d a b => Sys2Proof.Machine.execClmulh d a b s
  | .addi d a imm => Sys2Proof.Machine.execAddi d a imm s
  | .andi d a imm => Sys2Proof.Machine.execAndi d a imm s
  | .ori d a imm => Sys2Proof.Machine.execOri d a imm s
  | .xori d a imm => Sys2Proof.Machine.execXori d a imm s
  | .slli d a sh => Sys2Proof.Machine.execSlli d a sh s
  | .srli d a sh => Sys2Proof.Machine.execSrli d a sh s
  | .srai d a sh => Sys2Proof.Machine.execSrai d a sh s
  | .slti d a imm => Sys2Proof.Machine.execSlti d a imm s
  | .lui j imm => Sys2Proof.Machine.execLui j imm s
  | .addpc j imm => Sys2Proof.Machine.execAddpc j imm s
  | .beq a b off => Sys2Proof.Machine.execBeq a b off s
  | .bne a b off => Sys2Proof.Machine.execBne a b off s
  | .blt a b off => Sys2Proof.Machine.execBlt a b off s
  | .bge a b off => Sys2Proof.Machine.execBge a b off s
  | .bltn a b off => Sys2Proof.Machine.execBltn a b off s
  | .bgen a b off => Sys2Proof.Machine.execBgen a b off s
  | .jal j imm => Sys2Proof.Machine.execJal j imm s
  | .jalr d a imm => Sys2Proof.Machine.execJalr d a imm s
  | .ldB d a imm => Sys2Proof.Machine.execLdB d a imm s
  | .ldH d a imm => Sys2Proof.Machine.execLdH d a imm s
  | .ldW d a imm => Sys2Proof.Machine.execLdW d a imm s
  | .ldD d a imm => Sys2Proof.Machine.execLdD d a imm s
  | .ldBn d a imm => Sys2Proof.Machine.execLdBn d a imm s
  | .ldHn d a imm => Sys2Proof.Machine.execLdHn d a imm s
  | .ldWn d a imm => Sys2Proof.Machine.execLdWn d a imm s
  | .ldacqW d a imm => Sys2Proof.Machine.execLdacqW d a imm s
  | .ldacqD d a imm => Sys2Proof.Machine.execLdacqD d a imm s
  | .ldntD d a imm => Sys2Proof.Machine.execLdntD d a imm s
  | .stB d a imm => Sys2Proof.Machine.execStB d a imm s
  | .stH d a imm => Sys2Proof.Machine.execStH d a imm s
  | .stW d a imm => Sys2Proof.Machine.execStW d a imm s
  | .stD d a imm => Sys2Proof.Machine.execStD d a imm s
  | .strelW d a imm => Sys2Proof.Machine.execStrelW d a imm s
  | .strelD d a imm => Sys2Proof.Machine.execStrelD d a imm s
  | .stntD d a imm => Sys2Proof.Machine.execStntD d a imm s
  | .mstoreW d a imm => Sys2Proof.Machine.execMstoreW d a imm s
  | .mstoreD d a imm => Sys2Proof.Machine.execMstoreD d a imm s
  | .amoadd d a b width ord => Sys2Proof.Machine.execAmoadd d a b width ord s
  | .amoand d a b width ord => Sys2Proof.Machine.execAmoand d a b width ord s
  | .amoor d a b width ord => Sys2Proof.Machine.execAmoor d a b width ord s
  | .amoxor d a b width ord => Sys2Proof.Machine.execAmoxor d a b width ord s
  | .amomin d a b width ord => Sys2Proof.Machine.execAmomin d a b width ord s
  | .amomax d a b width ord => Sys2Proof.Machine.execAmomax d a b width ord s
  | .amominn d a b width ord => Sys2Proof.Machine.execAmominn d a b width ord s
  | .amomaxn d a b width ord => Sys2Proof.Machine.execAmomaxn d a b width ord s
  | .amoswap d a b width ord => Sys2Proof.Machine.execAmoswap d a b width ord s
  | .amocas d a b width ord => Sys2Proof.Machine.execAmocas d a b width ord s
  | .lr d a width ord => Sys2Proof.Machine.execLr d a width ord s
  | .sc d a b width ord => Sys2Proof.Machine.execSc d a b width ord s
  | .wrs d a b width => Sys2Proof.Machine.execWrs d a b width s
  | .fenceAcq => Sys2Proof.Machine.execFenceAcq s
  | .fenceRel => Sys2Proof.Machine.execFenceRel s
  | .fenceSc => Sys2Proof.Machine.execFenceSc s
  | .afence => Sys2Proof.Machine.execAfence s
  | .pref a => Sys2Proof.Machine.execPref a s
  | .spawn d a b cell => Sys2Proof.Machine.execSpawn d a b cell s
  | .quit => Sys2Proof.Machine.execQuit s
  | .yield n gm => Sys2Proof.Machine.execYield n gm s
  | .depsig a => Sys2Proof.Machine.execDepsig a s
  | .cancel a level => Sys2Proof.Machine.execCancel a level s
  | .trap n => Sys2Proof.Machine.execTrap n s
  | .tret => Sys2Proof.Machine.execTret s
  | .cget d reg => Sys2Proof.Machine.execCget d reg s
  | .cgetFpFlags d => Sys2Proof.Machine.execCgetFpFlags d s
  | .cset d reg => Sys2Proof.Machine.execCset d reg s
  | .csetChanIn d => Sys2Proof.Machine.execCsetChanIn d s
  | .csetChanOut d => Sys2Proof.Machine.execCsetChanOut d s
  | .inval a b => Sys2Proof.Machine.execInval a b s
  | .vadd t d a b m => Sys2Proof.Machine.execVadd t d a b m s
  | .vsub t d a b m => Sys2Proof.Machine.execVsub t d a b m s
  | .vmul t d a b m => Sys2Proof.Machine.execVmul t d a b m s
  | .vfma t d a b m => Sys2Proof.Machine.execVfma t d a b m s
  | .vfms t d a b m => Sys2Proof.Machine.execVfms t d a b m s
  | .vfnma t d a b m => Sys2Proof.Machine.execVfnma t d a b m s
  | .vmin t d a b m => Sys2Proof.Machine.execVmin t d a b m s
  | .vmax t d a b m => Sys2Proof.Machine.execVmax t d a b m s
  | .vabs t d a m => Sys2Proof.Machine.execVabs t d a m s
  | .vneg t d a m => Sys2Proof.Machine.execVneg t d a m s
  | .vrcp t d a m => Sys2Proof.Machine.execVrcp t d a m s
  | .vrsqrt t d a m => Sys2Proof.Machine.execVrsqrt t d a m s
  | .vexp2 t d a m => Sys2Proof.Machine.execVexp2 t d a m s
  | .vlog2 t d a m => Sys2Proof.Machine.execVlog2 t d a m s
  | .vtanh t d a m => Sys2Proof.Machine.execVtanh t d a m s
  | .vand t d a b m => Sys2Proof.Machine.execVand t d a b m s
  | .vor t d a b m => Sys2Proof.Machine.execVor t d a b m s
  | .vxor t d a b m => Sys2Proof.Machine.execVxor t d a b m s
  | .vnot t d a m => Sys2Proof.Machine.execVnot t d a m s
  | .vshl t d a b m => Sys2Proof.Machine.execVshl t d a b m s
  | .vshr t d a b m => Sys2Proof.Machine.execVshr t d a b m s
  | .vsra t d a b m => Sys2Proof.Machine.execVsra t d a b m s
  | .vcmp t cond k a b m => Sys2Proof.Machine.execVcmp t cond k a b m s
  | .vsel t d a b m => Sys2Proof.Machine.execVsel t d a b m s
  | .vcvt t d a src m => Sys2Proof.Machine.execVcvt t d a src m s
  | .vwcvt t d a src m => Sys2Proof.Machine.execVwcvt t d a src m s
  | .vwmul t d a b m => Sys2Proof.Machine.execVwmul t d a b m s
  | .vwadd t d a b m => Sys2Proof.Machine.execVwadd t d a b m s
  | .vnarrow t d a m => Sys2Proof.Machine.execVnarrow t d a m s
  | .vredsum t d a b m => Sys2Proof.Machine.execVredsum t d a b m s
  | .vredmax t d a b m => Sys2Proof.Machine.execVredmax t d a b m s
  | .vredmin t d a b m => Sys2Proof.Machine.execVredmin t d a b m s
  | .vscan t d a b m => Sys2Proof.Machine.execVscan t d a b m s
  | .vxscan t d a b m => Sys2Proof.Machine.execVxscan t d a b m s
  | .vclmul t d a b m => Sys2Proof.Machine.execVclmul t d a b m s
  | .vperm t d a b m => Sys2Proof.Machine.execVperm t d a b m s
  | .vslide t d a b m => Sys2Proof.Machine.execVslide t d a b m s
  | .vbcast t d a m => Sys2Proof.Machine.execVbcast t d a m s
  | .viota t d m => Sys2Proof.Machine.execViota t d m s
  | .vcompress t d a m => Sys2Proof.Machine.execVcompress t d a m s
  | .vexpand t d a m => Sys2Proof.Machine.execVexpand t d a m s
  | .vmovg t d a b => Sys2Proof.Machine.execVmovg t d a b s
  | .vmovxTov d a => Sys2Proof.Machine.execVmovxTov d a s
  | .vmovxTom d a => Sys2Proof.Machine.execVmovxTom d a s
  | .vpmerge d a b m => Sys2Proof.Machine.execVpmerge d a b m s
  | .vnoise d a b m => Sys2Proof.Machine.execVnoise d a b m s
  | .vamax d a b m => Sys2Proof.Machine.execVamax d a b m s
  | .kand d a b => Sys2Proof.Machine.execKand d a b s
  | .kor d a b => Sys2Proof.Machine.execKor d a b s
  | .kxor d a b => Sys2Proof.Machine.execKxor d a b s
  | .knot d a => Sys2Proof.Machine.execKnot d a s
  | .kpopc d a => Sys2Proof.Machine.execKpopc d a s
  | .kfirst d a => Sys2Proof.Machine.execKfirst d a s
  | .vaddSat t d a b m => Sys2Proof.Machine.execVaddSat t d a b m s
  | .vsubSat t d a b m => Sys2Proof.Machine.execVsubSat t d a b m s
  | .vmulSat t d a b m => Sys2Proof.Machine.execVmulSat t d a b m s
  | .vnarrowSat t d a m => Sys2Proof.Machine.execVnarrowSat t d a m s
  | .vld t d a m => Sys2Proof.Machine.execVld t d a m s
  | .vst t d a m => Sys2Proof.Machine.execVst t d a m s
  | .vldg t d a b m => Sys2Proof.Machine.execVldg t d a b m s
  | .vstg t d a b m => Sys2Proof.Machine.execVstg t d a b m s
  | .vgather t d a b m => Sys2Proof.Machine.execVgather t d a b m s
  | .vscatter t d a b m => Sys2Proof.Machine.execVscatter t d a b m s
  | .pld d a => Sys2Proof.Machine.execPld d a s
  | .pst d a => Sys2Proof.Machine.execPst d a s
  | .tstat d a => Sys2Proof.Machine.execTstat d a s
  | .tready a => Sys2Proof.Machine.execTready a s
  | .tempty a => Sys2Proof.Machine.execTempty a s
  | .barinit a b => Sys2Proof.Machine.execBarinit a b s
  | .barpost a b => Sys2Proof.Machine.execBarpost a b s
  | .bararr a => Sys2Proof.Machine.execBararr a s
  | .bardrop a => Sys2Proof.Machine.execBardrop a s
  | .barwait a b => Sys2Proof.Machine.execBarwait a b s
  | .oclaim d a => Sys2Proof.Machine.execOclaim d a s
  | .orelease a => Sys2Proof.Machine.execOrelease a s
  | .oload d a b => Sys2Proof.Machine.execOload d a b s
  | .mxset a => Sys2Proof.Machine.execMxset a s
  | .mxget d => Sys2Proof.Machine.execMxget d s
  | .mxzero d => Sys2Proof.Machine.execMxzero d s
  | .mxmul d a b => Sys2Proof.Machine.execMxmul d a b s
  | .mxloadc d a b => Sys2Proof.Machine.execMxloadc d a b s
  | .mxstore d a b => Sys2Proof.Machine.execMxstore d a b s
  | .mxwait a => Sys2Proof.Machine.execMxwait a s
  | .mxdrain => Sys2Proof.Machine.execMxdrain s
  | .eset e a => Sys2Proof.Machine.execEset e a s
  | .eget e a => Sys2Proof.Machine.execEget e a s
  | .cpyMm a b bar => Sys2Proof.Machine.execCpyMm a b bar s
  | .cpyMt a b bar => Sys2Proof.Machine.execCpyMt a b bar s
  | .cpyTm a b bar => Sys2Proof.Machine.execCpyTm a b bar s
  | .qput a b => Sys2Proof.Machine.execQput a b s
  | .rwin a op => Sys2Proof.Machine.execRwin a op s
  | .rclose a => Sys2Proof.Machine.execRclose a s
  | .ramo a b op => Sys2Proof.Machine.execRamo a b op s
  | .rwait a b => Sys2Proof.Machine.execRwait a b s
  | .hload d a => Sys2Proof.Machine.execHload d a s
  | .hstore d a => Sys2Proof.Machine.execHstore d a s
  | .hquery d a b => Sys2Proof.Machine.execHquery d a b s
  | .tld d a b m => Sys2Proof.Machine.execTld d a b m s
  | .tst d a b m => Sys2Proof.Machine.execTst d a b m s
  | .relayout d a b => Sys2Proof.Machine.execRelayout d a b s
  | .rlwait a => Sys2Proof.Machine.execRlwait a s
  | .hopen d a => Sys2Proof.Machine.execHopen d a s
  | .henter a => Sys2Proof.Machine.execHenter a s
  | .hleave => Sys2Proof.Machine.execHleave s
  | .hconfirm d a excl => Sys2Proof.Machine.execHconfirm d a excl s
  | .hrefute d a => Sys2Proof.Machine.execHrefute d a s
  | .hstat d a => Sys2Proof.Machine.execHstat d a s
  | .copen off => Sys2Proof.Machine.execCopen off s
  | .cclose => Sys2Proof.Machine.execCclose s
  | .screate d a => Sys2Proof.Machine.execScreate d a s
  | .sfork d a b => Sys2Proof.Machine.execSfork d a b s
  | .sdrop d a => Sys2Proof.Machine.execSdrop d a s
  | .sact d a b => Sys2Proof.Machine.execSact d a b s
  | .spop d a => Sys2Proof.Machine.execSpop d a s
  | .shor d a b => Sys2Proof.Machine.execShor d a b s
  | .sret a => Sys2Proof.Machine.execSret a s
  | .sjoin d a b => Sys2Proof.Machine.execSjoin d a b s
  | .senter a => Sys2Proof.Machine.execSenter a s
  | .smigr d a b => Sys2Proof.Machine.execSmigr d a b s
  | .accept d a => Sys2Proof.Machine.execAccept d a s
  | .fadd d a b prec rnd => Sys2Proof.Machine.execFadd d a b prec rnd s
  | .fsub d a b prec rnd => Sys2Proof.Machine.execFsub d a b prec rnd s
  | .fmul d a b prec rnd => Sys2Proof.Machine.execFmul d a b prec rnd s
  | .fdiv d a b prec rnd => Sys2Proof.Machine.execFdiv d a b prec rnd s
  | .fsqrt d a prec rnd => Sys2Proof.Machine.execFsqrt d a prec rnd s
  | .ffma d a b prec rnd => Sys2Proof.Machine.execFfma d a b prec rnd s
  | .fmin d a b prec => Sys2Proof.Machine.execFmin d a b prec s
  | .fmax d a b prec => Sys2Proof.Machine.execFmax d a b prec s
  | .fcmp d a b prec cond => Sys2Proof.Machine.execFcmp d a b prec cond s
  | .fcvt d a prec rnd kind => Sys2Proof.Machine.execFcvt d a prec rnd kind s
  | .fclass d a prec => Sys2Proof.Machine.execFclass d a prec s
  | .rep count sd sa sb stride => Sys2Proof.Machine.execRep count sd sa sb stride s
  | .wrsTimeout => Sys2Proof.Machine.execWrsTimeout s
  | .l1Replacement => Sys2Proof.Machine.execL1Replacement s
  | .homeEviction => Sys2Proof.Machine.execHomeEviction s
  | .quitComplete => Sys2Proof.Machine.execQuitComplete s
  | .invalHolder => Sys2Proof.Machine.execInvalHolder s
  | .tlbWalk => Sys2Proof.Machine.execTlbWalk s
  | .matrixBlockGrant => Sys2Proof.Machine.execMatrixBlockGrant s
  | .matrixEntryComplete => Sys2Proof.Machine.execMatrixEntryComplete s
  | .vectorLaneGrant => Sys2Proof.Machine.execVectorLaneGrant s
  | .vectorEntryComplete => Sys2Proof.Machine.execVectorEntryComplete s
  | .carterSector => Sys2Proof.Machine.execCarterSector s
  | .routerContribution => Sys2Proof.Machine.execRouterContribution s
  | .routerHoldExpiry => Sys2Proof.Machine.execRouterHoldExpiry s
  | .contributionArrive => Sys2Proof.Machine.execContributionArrive s
  | .windowTimeout => Sys2Proof.Machine.execWindowTimeout s
  | .windowDelivery => Sys2Proof.Machine.execWindowDelivery s
  | .weaverUnit => Sys2Proof.Machine.execWeaverUnit s
  | .hypDiePrepare => Sys2Proof.Machine.execHypDiePrepare s
  | .hypCommit => Sys2Proof.Machine.execHypCommit s
  | .hypApply => Sys2Proof.Machine.execHypApply s
  | .hypSweep => Sys2Proof.Machine.execHypSweep s
  | .versionSpillwaitExpiry => Sys2Proof.Machine.execVersionSpillwaitExpiry s
  | .streamArrival => Sys2Proof.Machine.execStreamArrival s
  | .streamBatchTimeout => Sys2Proof.Machine.execStreamBatchTimeout s
  | .streamBatchPlace => Sys2Proof.Machine.execStreamBatchPlace s
  | .winnowerJoin => Sys2Proof.Machine.execWinnowerJoin s
  | .pageReload => Sys2Proof.Machine.execPageReload s
  | .strmSpillwaitExpiry => Sys2Proof.Machine.execStrmSpillwaitExpiry s
  | .unpark => Sys2Proof.Machine.execUnpark s
  | .notifyStore => Sys2Proof.Machine.execNotifyStore s
  | .factorPoll => Sys2Proof.Machine.execFactorPoll s
  | .launchPacket => Sys2Proof.Machine.execLaunchPacket s
  | .launchAccept => Sys2Proof.Machine.execLaunchAccept s
  | .copyPacket => Sys2Proof.Machine.execCopyPacket s
  | .waitPacket => Sys2Proof.Machine.execWaitPacket s
  | .waitPacketComplete => Sys2Proof.Machine.execWaitPacketComplete s
  | .signalPacket => Sys2Proof.Machine.execSignalPacket s
  | .barrierAndPacket => Sys2Proof.Machine.execBarrierAndPacket s
  | .barrierAndComplete => Sys2Proof.Machine.execBarrierAndComplete s
  | .cancelPacket => Sys2Proof.Machine.execCancelPacket s
  | .replayBegin => Sys2Proof.Machine.execReplayBegin s
  | .replayEnd => Sys2Proof.Machine.execReplayEnd s
  | .restartAck => Sys2Proof.Machine.execRestartAck s
  | .reservedPacket => Sys2Proof.Machine.execReservedPacket s
  | .queueRestart => Sys2Proof.Machine.execQueueRestart s
  | .queueTableUpdate => Sys2Proof.Machine.execQueueTableUpdate s
  | .queueMap => Sys2Proof.Machine.execQueueMap s
  | .queueWaitTimeout => Sys2Proof.Machine.execQueueWaitTimeout s
  | .queueUnmap => Sys2Proof.Machine.execQueueUnmap s
  | .factorWatchdog => Sys2Proof.Machine.execFactorWatchdog s
  | .distributorChunk => Sys2Proof.Machine.execDistributorChunk s
  | .taskCreate => Sys2Proof.Machine.execTaskCreate s
  | .depIndexRelease => Sys2Proof.Machine.execDepIndexRelease s
  | .reissueFinish => Sys2Proof.Machine.execReissueFinish s
  | .preemptRequest => Sys2Proof.Machine.execPreemptRequest s
  | .contextRestore => Sys2Proof.Machine.execContextRestore s
  | .dieFence => Sys2Proof.Machine.execDieFence s
  | .fenceNotice => Sys2Proof.Machine.execFenceNotice s
  | .packageLost => Sys2Proof.Machine.execPackageLost s
  | .packageTableRewrite => Sys2Proof.Machine.execPackageTableRewrite s
  | .fabricFlitArrival => Sys2Proof.Machine.execFabricFlitArrival s
  | .linkCrcRetry => Sys2Proof.Machine.execLinkCrcRetry s
  | .pauseFlit => Sys2Proof.Machine.execPauseFlit s
  | .resumeFlit => Sys2Proof.Machine.execResumeFlit s
  | .hostWrite => Sys2Proof.Machine.execHostWrite s
  | .hostRead => Sys2Proof.Machine.execHostRead s
  | .assayerCompare => Sys2Proof.Machine.execAssayerCompare s
  | .assayerSkewTimeout => Sys2Proof.Machine.execAssayerSkewTimeout s
  | .quarantineSet => Sys2Proof.Machine.execQuarantineSet s
  | .injectionArm => Sys2Proof.Machine.execInjectionArm s
  | .moduleReset => Sys2Proof.Machine.execModuleReset s
  | .bootStage => Sys2Proof.Machine.execBootStage s
  | .firmwareUpdate => Sys2Proof.Machine.execFirmwareUpdate s
  | .svnRaise => Sys2Proof.Machine.execSvnRaise s
  | .attestationRequest => Sys2Proof.Machine.execAttestationRequest s
  | .regionBitChange => Sys2Proof.Machine.execRegionBitChange s
  | .powerCapSet => Sys2Proof.Machine.execPowerCapSet s
  | .powerThrottle => Sys2Proof.Machine.execPowerThrottle s
  | .clockStepUp => Sys2Proof.Machine.execClockStepUp s
  | .thermalThrottle => Sys2Proof.Machine.execThermalThrottle s
  | .thermalFence => Sys2Proof.Machine.execThermalFence s
  | .coolantFlowLoss => Sys2Proof.Machine.execCoolantFlowLoss s
  | .thermalShutdown => Sys2Proof.Machine.execThermalShutdown s
  | .telemetrySample => Sys2Proof.Machine.execTelemetrySample s
  | .notAnInstruction => Sys2Proof.Machine.execNotAnInstruction s
  | .fabricDieFailure => Sys2Proof.Machine.execFabricDieFailure s
  | .powerLoss => Sys2Proof.Machine.execPowerLoss s

end Sys2Proof.Machine
end

