-- ==== Sys2Proof/Machine/Tick.lean ====
section
/-!
DEFINITION. The end of a cycle and the events that come of themselves (log entry 4).
-/

namespace Sys2Proof.Machine

/-- What follows of itself at the end of a cycle: hypotheses that nothing names return to FREE (R316), the resolver stores the records that
have changed (R308), and launches that are cancelled or LOST give up what is left to create and the streams that no step runs (R76, R84, R336). -/
def settleCycle (s : State) : State :=
  let s := runM storeTable (runM collectHyps s)
  let ending (l : Launch) : Bool := (l.lost || s.recCancelled l.recAddr) &&
    (l.left ≠ 0 || (s.streamsOf l.number).any fun k => (s.ss.stream k).st ≠ .stepping)
  if s.ls.launches.any ending then runM applyCancel s else s

/-- A cycle passes: the clock of each live die advances, and each parked slot examines its condition again (R61, R90). -/
def endCycle (s : State) : State :=
  if s.pf.powered then
    settleCycle { s with
      turn := 0
      early := []
      pf := { s.pf with clk := s.liveDies.foldl (fun c d => tblSet 0 c d (tblGet 0 c d + 1)) s.pf.clk }
      slots := s.slots.map fun x => if x.2.st = .parked then (x.1, { x.2 with st := .ready }) else x }
  else s

/-! ### What the units have ready -/

/-- An event, where a condition holds. -/
def onlyIf (ok : Bool) (i : Instr) (args : List Nat) : List Scheduled := if ok then [⟨i, args⟩] else []

/-- A time limit that has passed on a die. -/
def State.due (s : State) (t : Nat) (x : Slot) : Bool :=
  match x.timer with
  | some k => decide (k ≤ s.clock (dieOf t))
  | none => false

/-- The events of slot t. -/
def State.slotEvents (s : State) (t : Nat) (x : Slot) : List Scheduled :=
  onlyIf (x.st = .ending && s.drainedOf t) .quitComplete [t] ++
  onlyIf (x.wait = .wrs && s.due t x) .wrsTimeout [t] ++
  onlyIf (x.wait = .page && s.due t x) .strmSpillwaitExpiry [t] ++
  onlyIf (x.wait = .space && s.due t x) .versionSpillwaitExpiry [t] ++
  match x.pend with
  | some p => if p.kind = .inval then (p.keep.drop 4).map fun h => ⟨.invalHolder, [t, h]⟩ else []
  | none => []

/-- The events of a core and its queues. -/
def State.coreEvents (s : State) (n : Nat) (c : Core) : List Scheduled :=
  onlyIf (c.vGrantable && decide ((s.cell (n / 8)).lanes.length < 4)) .vectorLaneGrant [n / 8] ++
  onlyIf (match c.vq.head? with
    | some e => e.granted
    | none => false) .vectorEntryComplete [n] ++
  onlyIf c.mGrantable .matrixBlockGrant [n / 8] ++
  onlyIf (!c.mq.isEmpty && !c.mGrantable) .matrixEntryComplete [n]

/-- The events of the Carters and Weavers. -/
def State.engineEvents (s : State) : List Scheduled :=
  (s.es.cmds.flatMap fun c =>
    onlyIf ((s.carterCmds c.die c.carter).head? = some c && s.live c.die) .carterSector [c.id]) ++
  s.liveDies.flatMap fun d => onlyIf (match s.weaving d with
    | some r => r.canGo
    | none => false) .weaverUnit [d]

/-- The merges that a router has for contribution i of those it holds. -/
def mergesOf (l : List Contribution) (i : Nat) (a : Contribution) : List Scheduled :=
  l.zipIdx.flatMap fun b => onlyIf (i < b.2 && a.held && b.1.held && a.matches b.1) .routerContribution [0, i, b.2]

/-- The events of routers and windows. -/
def State.windowEvents (s : State) : List Scheduled :=
  (s.ws.flying.zipIdx.flatMap fun c =>
    ⟨if c.1.held then .routerHoldExpiry else .contributionArrive, [c.2]⟩ :: mergesOf s.ws.flying c.2 c.1) ++
  (List.range s.ws.deliveries.length).map fun i => ⟨.windowDelivery, [i]⟩

/-- The events of the resolver and of the sweeps. -/
def State.hypEvents (s : State) : List Scheduled :=
  (match s.hyps.cur with
   | none => onlyIf (!s.hyps.queue.isEmpty) .hypDiePrepare [s.firstDie]
   | some r =>
     let owing := s.liveDies.filter fun d => !r.acks.getLsbD d
     if r.phase = .apply then owing.map fun d => ⟨.hypApply, [d]⟩
     else if s.allAcked r.acks then [⟨.hypCommit, []⟩] else owing.map fun d => ⟨.hypDiePrepare, [d]⟩) ++
  (List.range 4).flatMap fun d =>
    onlyIf (s.hyps.table.any fun r => r.2.st = .refuted && r.2.sweep.getLsbD d) .hypSweep [d]

/-- The events of streams. -/
def State.streamEvents (s : State) : List Scheduled :=
  (s.liveDies.flatMap fun d =>
    onlyIf (s.overdue d).isSome .streamBatchTimeout [d] ++ onlyIf (s.placeable d).isSome .streamBatchPlace [d]) ++
  (s.ss.groups.flatMap fun e => onlyIf (match e.2 with
    | some g => g.members.all fun k => (s.ss.stream k).returned
    | none => false) .winnowerJoin [e.1]) ++
  s.ss.pages.flatMap fun p => onlyIf (p.2.spilled && p.2.wanted) .pageReload [p.1]

/-- The event of a packet type (R285). -/
def packetEvent : Nat → Instr
  | 1 => .launchPacket | 2 => .copyPacket | 3 => .waitPacket | 4 => .signalPacket | 5 => .barrierAndPacket | 6 => .cancelPacket
  | 7 => .replayBegin | 8 => .replayEnd | 9 => .restartAck
  | _ => .reservedPacket

/-- The events of a queue. -/
def State.queueEvents (s : State) (key : Nat) (q : Queue) : List Scheduled :=
  onlyIf q.notified .notifyStore [key] ++
  onlyIf (q.mapped && q.restart) .queueRestart [key] ++
  onlyIf (q.mapped && q.packet.isNone && q.blocked = .no && decide (q.waitingSince + 65536 ≤ s.clock (queueDie key))) .factorPoll [key] ++
  (match s.readyPacket key with
   | some (_, p) => [⟨packetEvent (p % 256), [key]⟩]
   | none => []) ++
  (match q.blocked with
   | .launch => onlyIf q.mapped .launchAccept [key]
   | .waitLe _ _ => onlyIf (q.mapped && s.unblocked key q) .waitPacketComplete [key]
   | .allZero _ => onlyIf (q.mapped && s.unblocked key q) .barrierAndComplete [key]
   | _ => []) ++
  onlyIf (q.atBoundary && (q.unmapping || s.unmapsFor key q)) .queueUnmap [key] ++
  onlyIf (s.waitVictim key q).isSome .queueWaitTimeout [key] ++
  onlyIf (!q.unmapping && s.tableQcb key ≠ some q.qcb) .queueTableUpdate [key]

/-- Entries of a die's queue table that memory lists and no queue is registered for (R293). -/
def State.newEntries (s : State) (d : Nat) : List Nat :=
  let base := s.fabric (tblGet 0 s.pf.fw.qtab d)
  firsts ((s.ms.mem.filter fun c => decide (base ≤ c.1) && decide (c.1 < base + 8192)).map fun c => 1024 * d + (c.1 - base) / 8)

/-- The events of the Factors. -/
def State.factorEvents (s : State) : List Scheduled :=
  (s.fs.queues.flatMap fun e => match e.2 with
    | some q => s.queueEvents e.1 q
    | none => []) ++
  s.liveDies.flatMap fun d =>
    onlyIf (!s.threadsFull d && !(s.runnableQueues d).isEmpty) .queueMap [d] ++
    (s.newEntries d).flatMap fun k => onlyIf ((s.queue k).isNone && (s.tableQcb k).isSome) .queueTableUpdate [k]

/-- The events of distributors, of finishes, and of pre-emption. -/
def State.launchEvents (s : State) : List Scheduled :=
  (s.liveDies.flatMap fun d =>
    (s.ls.launches.flatMap fun l =>
      onlyIf (s.creates l && !l.dep && l.dies.getLsbD d && decide (l.handed < l.count) && (tblGet [] l.chunks d).isEmpty &&
        (s.nextCoreFor l d).isSome) .distributorChunk [l.number, d]) ++
    (match s.serves d with
     | some l => [⟨if l.dep then .depIndexRelease else .taskCreate, [d]⟩]
     | none => []) ++
    onlyIf (!(s.saveable d).isEmpty || (match s.preemptVictim d with
      | some l => !s.ls.preempt.contains (l.number, d)
      | none => false)) .preemptRequest [d]) ++
  onlyIf (!s.ls.finishing.isEmpty && s.hyps.cur.isNone) .reissueFinish [] ++
  s.ls.saved.zipIdx.flatMap fun c => match s.restorePlan c.1 with
    | some cores => [⟨.contextRestore, c.2 :: cores⟩]
    | none => []

/-- What the boot ROM and the firmware find at a stage where the agenda gives nothing else: no failure, package 0 alone, no port (log
entry 2). -/
def bootFindings (n : Nat) : List Nat := if n = 6 then [0, 0, 0, 0, 1, 1, 1, 0] else []

/-- The home lines that a die's state store holds beside its carve-outs, in lines of 64 bytes (R13, R14, R134). -/
def State.storeLines (s : State) (d : Nat) : Nat :=
  if s.live d then (storeMiB - s.pf.fw.versionMiB - s.pf.fw.pageMiB) * 2 ^ 14 else 0

/-- The lines of a die with an owner record, which a state store holds (R134). -/
def State.ownedLines (s : State) (d : Nat) : List Nat :=
  firsts ((s.ms.owner.filter fun o => pkgOf o.1 = s.ws.own && homeOf o.1 = d).map fun o => lineAddr o.1)

/-- The events of the Assayers, of attestation, of walkers and full state stores, and of boot. -/
def State.moduleEvents (s : State) : List Scheduled :=
  (s.pf.pairs.flatMap fun p => onlyIf (s.skewed p) .assayerSkewTimeout [p.slot]) ++
  onlyIf s.pf.otsPending .attestationRequest [] ++
  (s.liveDies.flatMap fun d =>
    onlyIf (s.ms.misses.any fun x => x.die = d) .tlbWalk [1, d] ++
    (match if s.storeLines d < (s.ownedLines d).length then (s.ownedLines d).head? else none with
     | some line => [⟨.homeEviction, [line]⟩]
     | none => [])) ++
  onlyIf (s.pf.stage < 8 && !s.pf.recovery) .bootStage ((s.pf.stage + 1) :: bootFindings (s.pf.stage + 1))

/-- The events that the machine's own units have ready (log entry 4). -/
def State.enabledEvents (s : State) : List Scheduled :=
  if s.pf.powered then
    (s.slots.flatMap fun e => s.slotEvents e.1 e.2) ++ (s.cores.flatMap fun e => s.coreEvents e.1 e.2) ++ s.engineEvents ++
    s.windowEvents ++ s.hypEvents ++ s.streamEvents ++ s.factorEvents ++ s.launchEvents ++ s.moduleEvents
  else []

/-- The one of them that comes next: the clock of the first live die turns among them. -/
def State.nextEvent (s : State) : Option Scheduled :=
  let es := s.enabledEvents
  es[s.clock s.firstDie % es.length]?

/-- The slot of a table row that names a case of an instruction: the first operand. -/
def rowSlot (s : State) : State := { s with cur := (s.ev[0]?).getD 0 }

/-- Whether an event can come while the module has no power: a reset, which powers it on (R416). -/
def withoutPower : Instr → Bool
  | .moduleReset => true
  | _ => false

/-- A scheduled event, run by `run`. A row that has a word comes only from memory; the three rows that name a case of an
instruction run in the slot that the first operand names, if it is READY (log entry 3). -/
def runScheduled (run : Instr → State → Host.Outcome State Fault Refusal) (e : Scheduled) (s : State) :
    Host.Outcome State Fault Refusal :=
  let s := { s with ev := e.args }
  if !s.pf.powered && !withoutPower e.event then .next s
  else
  match encodeWord e.event, e.event with
  | some _, _ => .next s
  | none, .cgetFpFlags _ | none, .csetChanIn _ | none, .csetChanOut _ | none, .notAnInstruction =>
    if ((rowSlot s).slot (rowSlot s).cur).st = .ready then run e.event (rowSlot s) else .next s
  | none, i => run i s

end Sys2Proof.Machine
end

