-- ==== Sys2Proof/Machine/Step.lean ====
section
/-!
DEFINITION. One step of the machine (log entries 2 to 4): an event that comes next, an instruction that a slot issues, or the
end of a cycle.
-/

namespace Sys2Proof.Machine

/-- The outcome with a change of its next state. -/
def thenState (f : State → State) (o : Host.Outcome State Fault Refusal) : Host.Outcome State Fault Refusal :=
  match o with
  | .next s => .next (f s)
  | o => o

/-- Slot t fetches, and what it fetches runs (R51, R60). -/
def issueSlot (t : Nat) (s : State) : Host.Outcome State Fault Refusal :=
  let ahead := decide (s.nextCore ≠ some (coreOf t))
  match fetchAt t s with
  | .instr i s' => thenState (issued t ahead) (exec i s')
  | .bad w s' => thenState (issued t ahead) (exec .notAnInstruction { s' with ev := [w] })
  | .trapped s' => .next (issued t ahead s')

/-- What comes next: an event that has been set, an instruction, or the end of a cycle and an event that comes of itself. -/
def advance (s : State) : Host.Outcome State Fault Refusal :=
  match s.agenda with
  | e :: rest => runScheduled exec e { s with agenda := rest }
  | [] =>
    match s.chosen with
    | some t => issueSlot t s
    | none =>
      match (endCycle s).nextEvent with
      | some e => runScheduled exec e (endCycle s)
      | none => .next (endCycle s)

/-- One step of the machine; an L1 that has taken in more lines than it holds writes the oldest back (R13, R140). -/
def step (s : State) : Host.Outcome State Fault Refusal := thenState State.trimmed (advance s)

/-- The state with an instruction placed where `step` fetches next (log entry 2). -/
def State.withFetchWord (s : State) (nbits w : Nat) : State := placeWord (w % 2 ^ nbits) s

end Sys2Proof.Machine
end

