-- ==== Sys2Proof/Safety.lean ====
section
/-!
DEFINITION. The terms of the claims: when an instruction executes normally, what a normal end leaves, and what every state of a
run holds.
-/

namespace Sys2Proof.Machine

/-- The canonical form of memory: addresses strictly rising, no entry equal to what an unlisted address reads as, 0. -/
def Memory.wf (m : List Host.Cell) : Bool := tblWf 0 m

/-- A byte of memory at its home, by fabric address. -/
def State.byteAt (s : State) (a : Nat) : Byte := tblGet 0 s.ms.mem a

/-! ### When an instruction executes normally -/

/-- The slot whose instruction runs. -/
abbrev State.me (s : State) : Slot := s.slot s.cur

/-- A scalar or a vector message is there to pop (R92, R212, R213). -/
def State.canPop (s : State) (vec : Bool) : Bool :=
  s.me.chanIn.en && (s.me.chanIn.vec == vec) && (s.me.inq.head?.any fun m => m.landed)

/-- The outbound channel takes a message (R212, R213). -/
def State.canPush (s : State) (vec : Bool) : Bool :=
  let x := s.me
  let y := s.slot (outPeer s.cur x)
  x.chanOut.en && (x.chanOut.vec == vec) && !x.chanOut.pend && (y.chanIn.peer.toNat == localSlot (primaryOf s.cur x)) &&
  (y.chanIn.vec == vec) && (pairTargets s s.cur (outPeer s.cur x)).all fun e =>
    (s.slot e.2).st != .free && (s.slot e.2).chanIn.en && decide ((s.slot e.2).inq.length < 4)

/-- What the slot must be for an instruction to issue at once and run alone: occupied and not waiting, not one of a pair, budget
left, no engine fault kept, no ancestor hypothesis refuted (R52, R59, R69, R326, R401, R402). -/
def State.clear (s : State) : Bool :=
  let x := s.me
  x.st != .free && (x.wait == .none) && !x.issued && x.partner.isNone && decide (1 ≤ x.yieldLeft.toNat) &&
  x.engFaults.isEmpty && (s.hyps.outermostRefuted x.hypId).isNone

/-- The instructions outside LOAD, STORE and SYNC that make a release (R138). -/
def mayRelease : Instr → Bool
  | .spawn _ _ _ _ | .depsig _ | .cancel _ _ | .inval _ _ | .relayout _ _ _ | .hconfirm _ _ _ | .hrefute _ _ | .cclose | .accept _ _
  | .rwin _ _ | .rclose _ | .ramo _ _ _ | .cpyMm _ _ _ | .cpyMt _ _ _ | .cpyTm _ _ _ | .qput _ _ | .sdrop _ _ | .smigr _ _ _ => true
  | _ => false

/-- The task's queued entries that touch memory hold the instruction back (R206, R255, R270). -/
def State.heldBack (s : State) (i : Instr) : Bool :=
  if isMxMem i then (s.core (coreOf s.cur)).vq.any fun e => e.slot = s.cur && isVStore e.instr
  else if isVmemAccess i || isTensorAccess i then (s.core (coreOf s.cur)).mq.any fun e => e.slot = s.cur && isMxMem e.instr
  else (isLss i || isStateMem i || mayRelease i) && s.storesQueued s.cur

/-- An instruction executes normally: the slot is clear, no queued entry holds the instruction back, it is legal for the task, and the channels
it names are ready. -/
def State.runs (s : State) (i : Instr) : Bool :=
  s.clear && !s.heldBack i && !illegalFor i s.me.part s.me.priv &&
  (!pops31 i || s.canPop false) && (!popsV31 i || s.canPop true) &&
  (!pushes31 i || s.canPush false) && (!pushesV31 i || s.canPush true)

/-! ### What a normal end leaves -/

/-- The slot whose instruction runs, changed. -/
abbrev State.setMe (s : State) (x : Slot) : State := s.setSlot s.cur x

/-- The state in which an instruction acts: at a point of the orphan check HYP.CUR.ID has become effective (R326). -/
def State.entered (s : State) (i : Instr) : State :=
  if isOrphanPoint i then s.setMe { s.me with hypId := s.hyps.eff s.me.hypId } else s

/-- A message landed at the receiver of the outbound channel, and at its pair (R212, R410). -/
def State.pushed (s : State) (vec : Bool) (data : VVal) : State :=
  (pairTargets s s.cur (outPeer s.cur s.me)).foldl (fun u e =>
    u.setSlot e.2 (if (u.slot e.2).keeps e.1 vec then { u.slot e.2 with inq := (u.slot e.2).inq ++ [⟨vec, e.1, true, data⟩] }
      else u.slot e.2)) s

/-- A word written to a g register: g0 discards it, g31 sends it (R91, R92). -/
def State.put (s : State) (d : GReg) (w : Word) : State :=
  if d = 31 then s.pushed false (w.setWidth 4096) else s.setMe (s.me.setG d w)

/-- Flags collected (R102). -/
def State.withFlags (s : State) (f : Flags) : State := s.setMe { s.me with fflags := s.me.fflags ||| f }

/-- The message taken that an instruction popped (R92). -/
def State.popped (s : State) (i : Instr) : State :=
  if pops31 i || popsV31 i then s.setMe { s.me with inq := s.me.inq.drop 1 } else s

/-- The end of an instruction that goes on at an address: its message taken, one unit of budget charged, READY (R60, R69, R92). -/
def State.goesTo (s : State) (i : Instr) (pc : Word) : State :=
  (s.popped i).setMe ((s.popped i).me.goOn pc (isTret i))

/-- The end of an instruction that goes on at the next word. -/
def State.done (s : State) (i : Instr) : State := s.goesTo i (s.me.pc + 4)

/-- An ordinary trap of the slot reaches its handler: INTRAP is clear and TRAP.VEC is set (R85). -/
def State.hasHandler (s : State) : Bool := !s.me.intrap && s.me.trapVec != 0

/-- An ordinary trap taken at the instruction itself: what R85 saves, INTRAP, and the pc at TRAP.VEC. -/
def State.trapped (s : State) (c : Cause) (val : Word) : State := s.setMe (s.me.toHandler c.code val s.me.pc none)

/-! ### Shapes of results -/

/-- An instruction of one source gives g[D] a function of it, and goes on at the next word. -/
def Computes1 (mk : GReg → GReg → Instr) (f : Word → Word) : Prop :=
  ∀ (d a : GReg) (s : State), s.runs (mk d a) = true →
    exec (mk d a) s = .next ((s.put d (f (s.me.gval a))).done (mk d a))

/-- An instruction of two sources gives g[D] a function of them, and goes on at the next word. -/
def Computes2 (mk : GReg → GReg → GReg → Instr) (f : Word → Word → Word) : Prop :=
  ∀ (d a b : GReg) (s : State), s.runs (mk d a b) = true →
    exec (mk d a b) s = .next ((s.put d (f (s.me.gval a) (s.me.gval b))).done (mk d a b))

/-- A floating-point instruction of two sources: the flags are collected, the result written (R102). -/
def ComputesFp2 (mk : GReg → GReg → GReg → Instr) (f : Rnd → Word → Word → Nat × Flags) (sel : RndSel) : Prop :=
  ∀ (d a b : GReg) (s : State), s.runs (mk d a b) = true →
    exec (mk d a b) s = .next (((s.withFlags (f (rndOf sel s.me.rm) (s.me.gval a) (s.me.gval b)).2).put d
      (BitVec.ofNat 64 (f (rndOf sel s.me.rm) (s.me.gval a) (s.me.gval b)).1)).done (mk d a b))

/-- The same with one source. -/
def ComputesFp1 (mk : GReg → GReg → Instr) (f : Rnd → Word → Nat × Flags) (sel : RndSel) : Prop :=
  ∀ (d a : GReg) (s : State), s.runs (mk d a) = true →
    exec (mk d a) s = .next (((s.withFlags (f (rndOf sel s.me.rm) (s.me.gval a)).2).put d
      (BitVec.ofNat 64 (f (rndOf sel s.me.rm) (s.me.gval a)).1)).done (mk d a))

/-- The value of a finite number of a format. -/
def FpVal.value : FpVal → Rat
  | .fin n m e => (if n then -1 else 1) * (m : Rat) * (2 : Rat) ^ e
  | _ => 0

/-- A finite number. -/
def FpVal.isFin : FpVal → Bool
  | .fin _ _ _ => true
  | _ => false

/-- The order of the numbers that are no NaN, the infinities at its ends, +0 and −0 alike (R106, R107). -/
def FpVal.less : FpVal → FpVal → Prop
  | .nan _, _ => False
  | _, .nan _ => False
  | .inf n, .inf k => n = true ∧ k = false
  | .inf n, .fin _ _ _ => n = true
  | .fin _ _ _, .inf k => k = false
  | x, y => x.value < y.value

/-- w is the value v rounded in a mode, as far as a number u tells: RNE none nearer, RTZ none between v and w towards zero, RUP and RDN
the next one up and down (R103). -/
def roundsTo (mode : Rnd) (v w u : Rat) : Prop :=
  match mode with
  | .rne => (w - v) * (w - v) ≤ (u - v) * (u - v)
  | .rtz => (0 ≤ v → 0 ≤ w ∧ w ≤ v ∧ (u ≤ v → u ≤ w)) ∧ (v ≤ 0 → v ≤ w ∧ w ≤ 0 ∧ (v ≤ u → w ≤ u))
  | .rup => v ≤ w ∧ (v ≤ u → w ≤ u)
  | .rdn => w ≤ v ∧ (u ≤ v → u ≤ w)

/-- The amount of a shift or a rotate: bits [5:0] (R94). -/
def low6 (b : Word) : Nat := b.toNat % 64

/-- The carry-less product: over every set bit j of b, a shifted left by j, all XORed into 128 bits (R94). -/
def carryless (a b : Word) : BitVec 128 :=
  (List.range 64).foldl (fun r j => if b.getLsbD j then r ^^^ (a.setWidth 128 <<< j) else r) 0

/-- A branch of two sources: taken to a target in the address space where its condition holds, else the next word. -/
def Branches (mk : GReg → GReg → BitVec 14 → Instr) (cond : Word → Word → Prop) : Prop :=
  ∀ (a b : GReg) (off : BitVec 14) (s : State), s.runs (mk a b off) = true →
    (cond (s.me.gval a) (s.me.gval b) → (s.me.pc + off.signExtend 64 * 4).toNat < 2 ^ 56 →
      exec (mk a b off) s = .next (s.goesTo (mk a b off) (s.me.pc + off.signExtend 64 * 4))) ∧
    (¬ cond (s.me.gval a) (s.me.gval b) → exec (mk a b off) s = .next (s.done (mk a b off)))

/-! ### Memory -/

/-- The check of an access that the task makes (R147). -/
def State.access (s : State) (use : WinUse) (va : Word) (n : Nat) (k : Acc) : Except Failure (Place × Option Trans) :=
  checkPlace s (s.me.agent s.cur) use va n k

/-- The line that the cell's L1 holds for the task at an address under a tag. -/
def State.l1Of (s : State) (va k : Nat) : Option L1Line := s.ms.l1Find (cellOf s.cur) s.me.asid (lineAddr va) k

/-- A read of the line of an address meets nothing that stops it: its home does not hold it for a resolution (R324), and no check of it
fails, at its home, in the cell's L1 or in a version (R143, R144). -/
def State.sound (s : State) (pa va : Nat) : Bool :=
  decide (s.ms.checkOf (lineAddr pa) = .good) && !s.heldLine (lineAddr pa) &&
  (s.ms.l1.all fun x => x.check = .good || !(x.cell = cellOf s.cur && x.va = lineAddr va)) &&
  (s.ms.versions.all fun v => v.check = .good || !(v.line = lineAddr pa))

/-- A merge into the line of an address waits for nothing and has no corrected error to log, at its home or in the cell's L1 (R143,
R145, R324). -/
def State.merges (s : State) (pa va : Nat) : Prop :=
  s.heldLine (lineAddr pa) = false ∧ s.ms.checkOf (lineAddr pa) ≠ .single ∧
  ∀ x ∈ s.ms.l1, x.cell = cellOf s.cur → x.va = lineAddr va → x.check ≠ .single

/-- The task is at the root (R309). -/
def State.atRoot (s : State) : Prop := s.hyps.eff s.me.hypId = 0

/-- The task is in no region, its own or implicit (R318, R331). -/
def State.noRegion (s : State) : Prop := s.me.regions = [] ∧ s.me.impl = false

/-- No error is armed against a write (R415). -/
def State.noInjection (s : State) : Prop := ∀ d, tblGet 0 s.pf.fw.inject d = 0

/-- The home of an address takes writes: it is not memory of a fenced die (R25). -/
def State.homeLives (s : State) (pa : Nat) : Prop := pkgOf pa = s.ws.own → s.live (homeOf pa) = true

/-- The cell's L1 holds nothing dirty and no line of an address, and the task has nothing buffered (R138, R149, R153). -/
def State.quiet (s : State) (pa : Nat) : Prop :=
  s.me.wc = [] ∧ ∀ x ∈ s.ms.l1, x.cell = cellOf s.cur → x.dirty = 0 ∧ x.pa ≠ lineAddr pa

/-- The hypotheses whose versions of a line the task sees, nearest first: none for another package's line (R313). -/
def State.seenChain (s : State) (pa : Nat) : List Nat :=
  if pkgOf (lineAddr pa) = s.ws.own then s.hyps.chain s.me.hypId else []

/-- The bytes of a use that no version of the chain supplies, of the cell's L1 or of the home (R313). -/
def State.noVersion (s : State) (pa va : Nat) (use : BitVec 64) : BitVec 64 :=
  (s.seenChain pa).foldl (fun u k =>
    let u := match s.l1Of va k with
      | some x => u &&& ~~~(x.valid &&& x.dirty)
      | none => u
    match s.ms.version (lineAddr pa) k with
    | some v => u &&& ~~~v.mask
    | none => u) use

/-- The architectural line as the cell has it for a use of some of its bytes: with `alloc` the L1's own bytes where it holds them all,
else the home's under those that the L1 holds dirty or owned (R139, R149, R162). -/
def State.archSeen (s : State) (pa va : Nat) (cached alloc : Bool) (use : BitVec 64) : LineVal :=
  match if cached then s.l1Of va 0 else none with
  | some x => if alloc && use &&& ~~~x.valid = 0 then x.data else mergeLine (s.ms.homeLine (lineAddr pa)) x.data x.kept
  | none => s.ms.homeLine (lineAddr pa)

/-- A line as the task sees it for a use of some of its bytes (R139, R149, R313): the architectural line, where a byte of it is used,
over it the task's buffer, over that the versions of its chain. -/
def State.lineSeen (s : State) (pa va : Nat) (cached alloc : Bool) (use : BitVec 64) : LineVal :=
  let buf := s.me.wc.filter fun w => w.line = lineAddr pa
  let rest := buf.foldl (fun r w => r &&& ~~~w.mask) (s.noVersion pa va use)
  let arch := if rest = 0 then 0 else s.archSeen pa va cached alloc rest
  (s.seenChain pa).reverse.foldl (fun l k =>
    let l := match s.ms.version (lineAddr pa) k with
      | some v => mergeLine l v.data v.mask
      | none => l
    match s.l1Of va k with
    | some x => mergeLine l x.data (x.valid &&& x.dirty)
    | none => l) (buf.foldl (fun l w => mergeLine l w.data w.mask) arch)

/-- The n low bytes of a number, sign- or zero-extended (R148). -/
def loaded (signed : Bool) (n v : Nat) : Word :=
  if signed then (BitVec.ofNat (8 * n) v).signExtend 64 else (BitVec.ofNat (8 * n) v).setWidth 64

/-- Only the memory system, write-combining buffers, reservations and notes of NOTIFY words differ. -/
def MemoryOnly (s t : State) : Prop :=
  t = { s with ms := t.ms, slots := t.slots, fs := t.fs } ∧
  ∀ k, t.slot k = { s.slot k with wc := (t.slot k).wc, resv := (t.slot k).resv }

/-- Memory at its homes is the same. -/
def SameMemory (s t : State) : Prop := ∀ a, t.byteAt a = s.byteAt a

/-- Memory at its homes is the same but for n bytes from an address, which hold a number's (R5). -/
def Wrote (s t : State) (pa n v : Nat) : Prop :=
  ∀ a, t.byteAt a = if pa ≤ a ∧ a < pa + n then BitVec.ofNat 8 (v / 256 ^ (a - pa)) else s.byteAt a

/-- A load of n bytes: g[D] is what the task sees, extended; beside it only lines of the L1 change, which a load may fetch and an
acquire drops (R135, R139, R148, R149). -/
def LoadsAs (mk : GReg → GReg → BitVec 14 → Instr) (n : Nat) (signed alloc : Bool) : Prop :=
  ∀ (d a : GReg) (imm : BitVec 14) (s : State) (pa va : Nat) (cached : Bool) (tr : Option Trans),
    s.runs (mk d a imm) = true →
    (s.entered (mk d a imm)).access .allowed (s.me.gval a + imm.signExtend 64) n .read = .ok (.mem pa va cached, tr) →
    (s.entered (mk d a imm)).sound pa va = true →
    ∃ l1, exec (mk d a imm) s = .next (({ s.entered (mk d a imm) with ms := { s.ms with l1 := l1 } }.put d (loaded signed n
      (lineBytes ((s.entered (mk d a imm)).lineSeen pa va cached alloc (byteMask (pa % 64) n)) (pa % 64) n))).done (mk d a imm))

/-- A plain store at the root: into the cell's L1 where the page is cacheable, and then no home changes; else at the home
(R133, R137, R148). -/
def StoresAs (mk : GReg → GReg → BitVec 14 → Instr) (n : Nat) : Prop :=
  ∀ (d a : GReg) (imm : BitVec 14) (s : State) (pa va : Nat) (cached : Bool) (tr : Option Trans),
    s.runs (mk d a imm) = true →
    (s.entered (mk d a imm)).access .allowed (s.me.gval a + imm.signExtend 64) n .write = .ok (.mem pa va cached, tr) →
    s.atRoot → s.noInjection → s.homeLives pa → s.merges pa va →
    ∃ u, MemoryOnly (s.entered (mk d a imm)) u ∧ exec (mk d a imm) s = .next (u.done (mk d a imm)) ∧
      (cached = false → Wrote s u pa n (s.me.gval d).toNat) ∧
      (cached = true → SameMemory s u ∧ ∃ x, u.l1Of va 0 = some x ∧
        x.data = mergeLine (((s.l1Of va 0).map (·.data)).getD 0) (lineOf (pa % 64) n (s.me.gval d).toNat) (byteMask (pa % 64) n) ∧
        x.dirty = (((s.l1Of va 0).map (·.dirty)).getD 0) ||| byteMask (pa % 64) n ∧
        x.valid = (((s.l1Of va 0).map (·.valid)).getD 0) ||| byteMask (pa % 64) n)

/-- An atomic of two sources: the word at its home is read, combined and written in one step, and g[D] is what it held,
sign-extended (R153). -/
def AmoAs (mk : GReg → GReg → GReg → AmoWidth → AmoOrd → Instr) (op : AmoWidth → Nat → Nat → Nat) : Prop :=
  ∀ (d a b : GReg) (wd : AmoWidth) (o : AmoOrd) (s : State) (p : Place) (tr : Trans),
    s.runs (mk d a b wd o) = true →
    (s.entered (mk d a b wd o)).access .none (s.me.gval a) wd.bytes .rmw = .ok (p, some tr) → tr.rdies = 0 →
    s.atRoot → s.noRegion → s.noInjection → s.homeLives tr.pa → s.quiet tr.pa → s.ms.checkOf (lineAddr tr.pa) = .good →
    s.heldLine (lineAddr tr.pa) = false →
    ∃ u, MemoryOnly (s.entered (mk d a b wd o)) u ∧
      Wrote s u tr.pa wd.bytes (op wd (s.peek tr.pa wd.bytes) ((s.me.gval b).toNat % 2 ^ (8 * wd.bytes))) ∧
      exec (mk d a b wd o) s = .next ((u.put d (loaded true wd.bytes (s.peek tr.pa wd.bytes))).done (mk d a b wd o))

/-! ### The vector queue -/

/-- The VEC instructions that go on once their entry stands in the vector queue (R203, R205). -/
def isQueuedVec : Instr → Bool
  | .vadd _ _ _ _ _ | .vsub _ _ _ _ _ | .vmul _ _ _ _ _ | .vfma _ _ _ _ _ | .vfms _ _ _ _ _ | .vfnma _ _ _ _ _
  | .vmin _ _ _ _ _ | .vmax _ _ _ _ _ | .vabs _ _ _ _ | .vneg _ _ _ _ | .vrcp _ _ _ _ | .vrsqrt _ _ _ _ | .vexp2 _ _ _ _
  | .vlog2 _ _ _ _ | .vtanh _ _ _ _ | .vand _ _ _ _ _ | .vor _ _ _ _ _ | .vxor _ _ _ _ _ | .vnot _ _ _ _ | .vshl _ _ _ _ _
  | .vshr _ _ _ _ _ | .vsra _ _ _ _ _ | .vcmp _ _ _ _ _ _ | .vsel _ _ _ _ _ | .vcvt _ _ _ _ _ | .vwcvt _ _ _ _ _
  | .vwmul _ _ _ _ _ | .vwadd _ _ _ _ _ | .vnarrow _ _ _ _ | .vredsum _ _ _ _ _ | .vredmax _ _ _ _ _ | .vredmin _ _ _ _ _
  | .vscan _ _ _ _ _ | .vxscan _ _ _ _ _ | .vclmul _ _ _ _ _ | .vperm _ _ _ _ _ | .vslide _ _ _ _ _ | .vbcast _ _ _ _
  | .viota _ _ _ | .vcompress _ _ _ _ | .vexpand _ _ _ _ | .vmovxTov _ _ | .vmovxTom _ _ | .vpmerge _ _ _ _ | .vnoise _ _ _ _
  | .kand _ _ _ | .kor _ _ _ | .kxor _ _ _ | .knot _ _ | .vaddSat _ _ _ _ _ | .vsubSat _ _ _ _ _ | .vmulSat _ _ _ _ _
  | .vnarrowSat _ _ _ _ => true
  | _ => false

/-- The VEC instructions on registers alone whose issue is held until their entry has completed (R205). -/
def isHeldVec : Instr → Bool
  | .vmovg _ _ _ _ | .vamax _ _ _ _ | .kpopc _ _ | .kfirst _ _ => true
  | _ => false

/-- An entry reserved at the receiver of the outbound channel, and at its pair, for a message that lands later (R203, R212). -/
def State.reserved (s : State) (vec : Bool) : State :=
  (pairTargets s s.cur (outPeer s.cur s.me)).foldl (fun u e =>
    u.setSlot e.2 { u.slot e.2 with inq := (u.slot e.2).inq ++ [⟨vec, e.1, false, 0⟩] }) s

/-- The core of the slot whose instruction runs. -/
abbrev State.here (s : State) : Core := s.core (coreOf s.cur)

/-- One more entry at the end of the core's vector queue. -/
def State.enqueued (s : State) (e : VEntry) : State := s.setCore (coreOf s.cur) { s.here with vq := s.here.vq ++ [e] }

/-- What the issue of a vector instruction captures of its task: the rounding mode, the hypothesis, its g operands and the
message it takes (R203). -/
def State.vEntry (s : State) (i : Instr) (push held : Bool) (more : VExtra) : VEntry :=
  { slot := s.cur, instr := i, rm := s.me.rm, asid := s.me.asid, hyp := s.me.hypId, gs := (gReads i).map s.me.gval,
    msg := if popsV31 i then s.me.head.map (·.data) else none, places := more.places, desc := more.desc,
    exps := more.exps, admits := more.admits, rep := none,
    dest := if push then some (outPeer s.cur s.me) else none, held := held, granted := false }

/-- The state once a vector instruction that goes on has placed its entry. -/
def State.queued (s : State) (i : Instr) (more : VExtra) : State :=
  let t := s.enqueued (s.vEntry i (pushesV31 i) false more)
  if pushesV31 i then t.reserved true else t

/-- The state once a held vector instruction has placed its entry: the slot waits until it has completed (R205). -/
def State.heldBy (s : State) (i : Instr) (more : VExtra) : State :=
  let push := pushesV31 i || pushes31 i
  let t := s.enqueued (s.vEntry i push true more)
  let u := if push then t.reserved (pushesV31 i) else t
  u.setMe { u.me with repFrom := 1, st := .parked, wait := .queue }

/-- A held vector instruction of the slot has issued and its entries have completed. -/
def State.returns (s : State) (i : Instr) : Bool :=
  s.me.st != .free && (s.me.wait == .queue) && (s.me.repFrom == 1) && s.me.partner.isNone &&
  !illegalFor i s.me.part s.me.priv && s.heldDone s.cur

/-- No entry of the task in the vector queue writes the mask of a vector access, or its offset register (R206; the mask: log entry
21). -/
def State.keeps (s : State) (i : Instr) (offsets : Option VReg) : Prop :=
  ∀ e ∈ s.here.vq, e.slot = s.cur → (∀ b, offsets = some b → (vAllWrites e.instr).contains b = false) ∧
    (govMask i ≠ 0 → (mWrites e.instr).contains (govMask i) = false)

/-- An entry captures places, and no more than every entry does. -/
abbrev atPlaces (ps : List (Nat × Place)) : VExtra := ⟨ps, 0, [], []⟩

/-- A held vector instruction: its issue places its entry, and it goes on when the entry has completed (R203, R205). -/
def HeldAs (i : Instr) (more : VExtra) (ok : State → Prop) : Prop := ∀ s : State,
  (s.runs i = true → s.here.vq.length < 16 → ok (s.entered i) →
    exec i s = .next ((s.entered i).heldBy i more)) ∧
  (s.returns i = true → exec i s = .next ((s.setMe { s.me with repFrom := 0 }).done i))

/-- A vector instruction that goes on at once: its entry stands in the queue (R203, R205). -/
def QueuesAs (i : Instr) (more : VExtra) (ok : State → Prop) : Prop := ∀ s : State,
  s.runs i = true → s.here.vq.length < 16 → ok (s.entered i) → exec i s = .next (((s.entered i).queued i more).done i)

/-- Every active element of a vector access passes its check, and these are its places, keyed by 8 times the element (R236). -/
def State.places (s : State) (i : Instr) (t : ElemType) (k : Acc) (addr : Nat → Word) (ps : List (Nat × Place)) : Prop :=
  placeElems (t.width / 8) k none
    ((activeList (elemCount t) fun n => (s.me.mval (govMask i)).getLsbD n).map fun n => (8 * n, addr n)) s = .ok ps s

/-- A doubleword's value a multiple of 512 within the partition's scratchpad, its tile READY: an offset of `pld` and `pst`
(R122). -/
def State.padOk (s : State) (off : Nat) : Prop :=
  off % 512 = 0 ∧ off < 4096 * nTiles s.me.part ∧ (s.here.tile (off / 4096)).st = .ready

/-! ### The matrix unit -/

/-- One more entry at the end of the core's matrix queue, numbered after the last; it captures MXCTL, the rounding mode and the
hypothesis of its task (R241, R249, R252). -/
def State.mxPlaced (s : State) (i : Instr) (ga gb : Word) (places : List Place) : State :=
  s.setCore (coreOf s.cur) { s.here with
    mnext := s.here.mnext + 1
    mq := s.here.mq ++ [{ slot := s.cur, instr := i, mxctl := s.me.mxctl, rm := s.me.rm, asid := s.me.asid, hyp := s.me.hypId, ga := ga, gb := gb,
                          places := places, blocks := 0, order := s.here.mnext + 1 }] }

/-- A tile of the core given a state and an owner (R116). -/
def State.withTile (s : State) (t : Nat) (st : TileState) (owner : Nat) : State :=
  s.setCore (coreOf s.cur) { s.here with tiles := tblSet .empty s.here.tiles t ⟨st, owner⟩ }

/-- No queued entry of the core names a tile (R206, R255). -/
def State.unnamed (s : State) (t : Nat) : Prop :=
  (∀ e ∈ s.here.vq, e.tile ≠ some t) ∧ ∀ e ∈ s.here.mq, e.tiles.contains t = false

/-- An accumulator tile of the partition in a state, that no queued entry names, with room in the matrix queue (R241, R247). -/
def State.accIn (s : State) (d : CReg) (st : TileState) : Prop :=
  d.toNat < accCount s.me.part ∧ s.unnamed (0x80 + d.toNat) ∧ s.here.mq.length < 8 ∧ (s.here.tile (0x80 + d.toNat)).st = st

/-- An operand slot held by the core (R240). -/
def State.holdsOp (s : State) (o : OReg) : Prop := (s.opSlot (cellOf s.cur) o.toNat).holder = some (coreOf s.cur)

/-- The address of line l of row i of an `mxloadc` or `mxstore` (R248, R252). -/
def rowAddr (a stride : Word) (i l : Nat) : Word := a + stride * BitVec.ofNat 64 i + BitVec.ofNat 64 (64 * l)

/-- Every line of 64 rows passes its check, and these are their places in order (R248, R252). -/
def State.rowPlaces (s : State) (k : Acc) (a stride : Word) (n : Nat) (ps : List Place) : Prop :=
  placeElems 64 k none ((List.range 64).flatMap fun i => (List.range n).map fun l => (0, rowAddr a stride i l)) s =
    .ok (ps.map fun p => (0, p)) s

/-- A byte barrier that an instruction may use: aligned, in a READY tile that no queued entry of the core names, not corrupt
(R125, R206). -/
def State.barOk (s : State) (off : Nat) : Prop :=
  off % 16 = 0 ∧ off < 4096 * nTiles s.me.part ∧ (s.here.tile (off / 4096)).st = .ready ∧ s.unnamed (off / 4096) ∧
  tblGet .good s.here.poison (off / 4096) = .good ∧ (s.here.bar off).corrupt = false

/-! ### Engines -/

/-- A side of a copy stays within the address space, or within a scratchpad of a size (R301). -/
def sideIn (base : Nat) (e : Int × Int) (limit : Nat) : Prop := 0 ≤ (base : Int) + e.1 ∧ (base : Int) + e.2 < limit

/-- The Carter command that a `cpy` places (R301): `c` its Carter, `ts` its tiles. -/
def State.command (s : State) (form : CpyForm) (a b : GReg) (bar : Bool) (c : Nat) (ts : List Nat) : CarterCmd :=
  { id := s.es.nextCmd, die := dieOf s.cur, carter := c, form := form, geo := s.me.geometry, src := (s.me.gval a).toNat,
    dst := (s.me.gval b).toNat, bar := if bar then some (tblGet 0 s.me.e 10).toNat else none, signal := (tblGet 0 s.me.e 11).toNat,
    slot := some s.cur, core := coreOf s.cur, asid := s.me.asid, sys := s.me.priv, world := s.me.world, hyp := s.me.hypId,
    strm := strmKey s.me.asid s.me.strmCur.toNat,
    serial := (s.ss.stream (strmKey s.me.asid s.me.strmCur.toNat)).serial, launch := s.me.launch, done := 0, tiles := ts, twin := none, queue := none,
    timer := none, faulted := false }

/-! ### Tensors -/

/-- The 16 doublewords of a descriptor in memory pass their checks outside the stream window and outside the caches, at the root; `tr`
are their translations (R268). -/
def State.descAt (s : State) (va : Word) (k : Acc) (tr : Nat → Trans) : Prop :=
  va.toNat % 128 = 0 ∧ s.atRoot ∧ s.me.wc = [] ∧ ∀ n, n < 16 →
    (∃ p, s.access .none (va + BitVec.ofNat 64 (8 * n)) 8 k = .ok (p, some (tr n))) ∧ (tr n).cached = false ∧
    pkgOf (tr n).pa = s.ws.own ∧ s.ms.checkOf (lineAddr (tr n).pa) = .good ∧ s.heldLine (lineAddr (tr n).pa) = false

/-- The descriptor that 16 doublewords at their homes make up, the lowest first (R5, R260). -/
def State.descFrom (s : State) (tr : Nat → Trans) : BitVec 1024 :=
  BitVec.ofNat 1024 ((List.range 16).foldr (fun n r => lineBytes (s.ms.homeLine (lineAddr (tr n).pa)) ((tr n).pa % 64) 8 + 2 ^ 64 * r) 0)

/-- The slot's handle of a number. -/
def State.handle (s : State) (n : HReg) : Handle := tblGet .empty s.me.h n.toNat

/-- The slot with a handle. -/
def State.withHandle (s : State) (n : HReg) (h : Handle) : State := s.setMe { s.me with h := tblSet .empty s.me.h n.toNat h }

/-! ### Hypotheses -/

/-- The instruction takes an ordinary trap of a cause whose TRAP.VAL the spec does not state: the value is free (log entry 5). -/
def State.traps (s : State) (i : Instr) (c : Cause) : Prop :=
  exec i s = .next (({ s.entered i with free := s.free + 1 } : State).trapped c (Config.freeWord s.free))

/-- The answer to the question that an instruction of the slot asked is there, and nothing else keeps the instruction from going on. -/
def State.answered (s : State) (i : Instr) (kind : OpKind) (keep : List Nat) (answer : Nat) : Prop :=
  s.me.st ≠ .free ∧ s.me.partner = none ∧ s.me.repFrom = 0 ∧ s.cancelsHere s.cur i = false ∧ illegalFor i s.me.part s.me.priv = false ∧
  (pops31 i = true → s.canPop false = true) ∧ (pushes31 i = true → s.canPush false = true) ∧
  ∃ id, s.me.pend = some ⟨kind, id, keep, some answer⟩

/-- The slot whose instruction runs waits, with an operation pending (R61). -/
def State.asks (s : State) (kind : OpKind) (id : Nat) (keep : List Nat) : State :=
  s.setMe { s.me with st := .parked, wait := .answer, pend := some ⟨kind, id, keep, none⟩ }

/-- A child of a hypothesis opened under a free id (R320, R328). -/
def HypSys.opened (h : HypSys) (k : Nat) (region : Bool) (p : Nat) (asid : BitVec 16) : HypSys :=
  h.take.set k ⟨.opened, region, p, (h.get p).depth + 1, asid, false, false, 0⟩

/-- Nothing is buffered or dirty that a release would have to perform (R138). -/
def State.released (s : State) : Prop := s.me.wc = [] ∧ ∀ x ∈ s.ms.l1, x.cell = cellOf s.cur → x.dirty = 0

/-- The answer to a slot's question, found by its number (R323). -/
def State.reply (s : State) (slot id answer : Nat) : State :=
  s.setSlot slot (match (s.slot slot).pend with
    | some p => if p.id = id then { s.slot slot with pend := some { p with answer := some answer } } else s.slot slot
    | none => s.slot slot)

/-- The answer taken by the slot whose instruction runs; the cell's L1 may drop lines, where the instruction acquires (R324). -/
def State.taken (s : State) (l1 : List L1Line) : State :=
  ({ s with ms := { s.ms with l1 := l1 } } : State).setMe { s.me with pend := none }

/-! ### Streams -/

/-- A stream of the address space of the task whose instruction runs. -/
def State.strm (s : State) (id : Nat) : Stream := s.ss.stream (strmKey s.me.asid id)

/-- The stream that an operand names: 0 names STRM.CUR.ID (R346, R348). -/
def State.strmNamed (s : State) (g : Word) : Nat := if g = 0 then s.me.strmCur.toNat else g.toNat

/-- The state with a stream of that address space. -/
def State.withStrm (s : State) (id : Nat) (m : Stream) : State := { s with ss := s.ss.setStream (strmKey s.me.asid id) m }

/-- The task acts on memory as R342 allows without marking a region: it is at the root, outside regions. -/
def State.plain (s : State) : Prop := s.atRoot ∧ s.noRegion

/-- The open launch of the task has a record that is neither cancelled nor the child of another, and may be written with no corrected error
to log (R74, R75, R145). -/
def State.openRecord (s : State) (l : Launch) : Prop :=
  s.launch? s.me.launch = some l ∧ l.recAddr % 64 = 0 ∧ s.recCancel l.recAddr = false ∧ s.peek (l.recAddr + 16) 8 = 0 ∧
  s.noInjection ∧ s.homeLives l.recAddr ∧ s.ms.checkOf l.recAddr ≠ .single ∧ Memory.wf s.ms.mem = true

/-- OUTSTANDING of a record, changed by an amount (R74). -/
def State.outstanding (s : State) (rec_ : Nat) (n : Int) : Nat := (BitVec.ofInt 64 (s.recOutstanding rec_ + n)).toNat

/-! ### Queues -/

/-- Memory at its homes is the same but for the QCB's two copies and n bytes from an address, which hold a number's. -/
def QueueWrote (s t : State) (qcb pa n v : Nat) : Prop := ∀ a, a < qcb + 64 ∨ qcb + 128 ≤ a →
  t.byteAt a = if pa ≤ a ∧ a < pa + n then BitVec.ofNat 8 (v / 256 ^ (a - pa)) else s.byteAt a

/-- A QCB in local memory that can be written, its copies' SEQ even, and without ERRSIG; no line fails its check, and no home holds one
(R145, R279, R280, R290, R324). -/
def State.qcbOk (s : State) (qcb : Nat) : Prop :=
  qcb % 128 = 0 ∧ s.homeLives qcb ∧ s.noInjection ∧ Memory.wf s.ms.mem = true ∧ s.peek (qcb + 64) 8 % 2 = 0 ∧
  s.peek (qcb + 96) 8 % 2 = 0 ∧ s.peek (qcb + 64) 8 < 2 ^ 63 ∧ s.peek (qcb + 96) 8 < 2 ^ 63 ∧ s.peek (qcb + 32) 8 = 0 ∧
  (∀ l, s.ms.checkOf l = .good) ∧ ∀ l, s.heldLine l = false

/-- The event is for a queue whose thread may start the packet at its position, of a type, with a header as R284 has it. -/
def State.takes (s : State) (key : Nat) (q : Queue) (p type : Nat) : Prop :=
  s.ev = [key] ∧ s.readyPacket key = some (q, p) ∧ p % 256 = type ∧ p / 2 ^ 11 % 32 = 0 ∧ s.qcbOk q.qcb ∧ s.queue key = some q

/-- A place of the queue's thread, checked, whose line is good; it lies outside the QCB (R278). -/
def State.reaches (s : State) (key : Nat) (q : Queue) (va n : Nat) (k : Acc) (pa : Nat) : Prop :=
  (∃ p t, checkPlace s (s.qAgent key q.qcb) .none (BitVec.ofNat 64 va) n k = .ok (p, some t) ∧ t.pa = pa) ∧ pkgOf pa = s.ws.own ∧
  s.ms.checkOf (lineAddr pa) = .good ∧ s.heldLine (lineAddr pa) = false ∧ s.homeLives pa ∧ (pa + n ≤ q.qcb ∨ q.qcb + 128 ≤ pa)

/-- A packet has been consumed: READ_INDEX and the offset and count of a replay as given, the thread at an index (R280, R289, R292). -/
def State.consumed (t : State) (key qcb next readIndex off iter : Nat) (replay : Option Replay) : Prop :=
  (t.qWords qcb).readIndex = readIndex ∧ (t.qWords qcb).off = off ∧ (t.qWords qcb).iter = iter ∧
  ∃ q, t.queue key = some q ∧ q.qcb = qcb ∧ q.next = next ∧ q.blocked = .no ∧ q.replay = replay

/-- A queue put in place of another, or none. -/
def State.withQueue (s : State) (key : Nat) (q : Option Queue) : State :=
  { s with fs := { s.fs with queues := tblSet none s.fs.queues key q } }

/-- A signal's value less an amount, as the number written (R296). -/
def State.signalLess (s : State) (pa : Nat) (delta : Int) : Nat := (BitVec.ofInt 64 ((BitVec.ofNat 64 (s.peek pa 8)).toInt - delta)).toNat

end Sys2Proof.Machine
end

