-- ==== Sys2Proof/Certificates/Slice0/Obligations.lean ====
section
/-!
DEFINITION. The statements for the provers. Each says which rules of the spec it formalises; those that rest on a choice of the
model say so. A statement of several parts is the conjunction of the parts before it, which stand under `Claims`.
-/

section
open Sys2Proof Sys2Proof.Machine

/-! ### Arithmetic, branches and floating point -/

/-- R94 and R95: the ALU-R instructions of two sources. The result goes to g[D], g0 discards it, g31 sends it (R91, R92). -/
def Claims.AluTwoSources : Prop :=
  Computes2 .add (fun a b => a + b) ∧ Computes2 .sub (fun a b => a - b) ∧ Computes2 .mul (fun a b => a * b) ∧
  Computes2 .mulh (fun a b => (a.signExtend 128 * b.signExtend 128).extractLsb' 64 64) ∧
  Computes2 .mulhn (fun a b => (a.setWidth 128 * b.setWidth 128).extractLsb' 64 64) ∧
  Computes2 .div (fun a b => if b = 0 then -1 else if a.toInt = -(2 ^ 63) ∧ b.toInt = -1 then BitVec.ofInt 64 (-(2 ^ 63))
    else BitVec.ofInt 64 (a.toInt.tdiv b.toInt)) ∧
  Computes2 .divn (fun a b => if b = 0 then -1 else BitVec.ofNat 64 (a.toNat / b.toNat)) ∧
  Computes2 .rem (fun a b => if b = 0 then a else if a.toInt = -(2 ^ 63) ∧ b.toInt = -1 then 0
    else BitVec.ofInt 64 (a.toInt - b.toInt * a.toInt.tdiv b.toInt)) ∧
  Computes2 .remn (fun a b => if b = 0 then a else BitVec.ofNat 64 (a.toNat % b.toNat)) ∧
  Computes2 .and (fun a b => a &&& b) ∧ Computes2 .or (fun a b => a ||| b) ∧ Computes2 .xor (fun a b => a ^^^ b) ∧
  Computes2 .andn (fun a b => a &&& ~~~b) ∧ Computes2 .orn (fun a b => a ||| ~~~b) ∧
  Computes2 .sll (fun a b => BitVec.ofNat 64 (a.toNat * 2 ^ low6 b)) ∧
  Computes2 .srl (fun a b => BitVec.ofNat 64 (a.toNat / 2 ^ low6 b)) ∧
  Computes2 .sra (fun a b => BitVec.ofInt 64 (a.toInt / 2 ^ low6 b)) ∧
  Computes2 .rol (fun a b => (a <<< low6 b) ||| (a >>> (64 - low6 b))) ∧
  Computes2 .ror (fun a b => (a >>> low6 b) ||| (a <<< (64 - low6 b))) ∧
  Computes2 .min (fun a b => if a.toInt < b.toInt then a else b) ∧
  Computes2 .max (fun a b => if a.toInt < b.toInt then b else a) ∧
  Computes2 .minn (fun a b => if a.toNat < b.toNat then a else b) ∧
  Computes2 .maxn (fun a b => if a.toNat < b.toNat then b else a) ∧
  Computes2 .slt (fun a b => if a.toInt < b.toInt then 1 else 0) ∧
  Computes2 .sltn (fun a b => if a.toNat < b.toNat then 1 else 0) ∧
  Computes2 .clmul (fun a b => (carryless a b).setWidth 64) ∧
  Computes2 .clmulh (fun a b => (carryless a b).extractLsb' 64 64)

/-- R94 and R96: the ALU-R instructions of one and of three sources, and the bit fields. -/
def Claims.AluOtherForms : Prop :=
  Computes1 .clz (fun a => BitVec.ofNat 64 ((List.range 64).reverse.takeWhile fun i => !a.getLsbD i).length) ∧
  Computes1 .ctz (fun a => BitVec.ofNat 64 ((List.range 64).takeWhile fun i => !a.getLsbD i).length) ∧
  Computes1 .popc (fun a => BitVec.ofNat 64 ((List.range 64).filter fun i => a.getLsbD i).length) ∧
  Computes1 .brev (fun a => a.reverse) ∧
  (∀ (d a b c : GReg) (s : State), s.runs (.sel d a b c) = true → exec (.sel d a b c) s =
    .next ((s.put d (if s.me.gval c ≠ 0 then s.me.gval a else s.me.gval b)).done (.sel d a b c))) ∧
  Computes2 .bfx (fun a b => BitVec.ofNat 64
    (a.toNat / 2 ^ low6 b % 2 ^ min (min (b.toNat / 256 % 128) 64) (64 - low6 b))) ∧
  (∀ (d a b : GReg) (s : State), s.runs (.bfi d a b) = true →
    let w := s.me.gval b
    let k : Word := BitVec.ofNat 64 (2 ^ min (min (w.toNat / 256 % 128) 64) (64 - low6 w) - 1) <<< low6 w
    let old := if d = 31 then 0 else s.me.gval d
    exec (.bfi d a b) s = .next ((s.put d ((old &&& ~~~k) ||| ((s.me.gval a <<< low6 w) &&& k))).done (.bfi d a b)))

/-- R97: the ALU-I instructions. -/
def Claims.AluImmediates : Prop :=
  (∀ imm, Computes1 (fun d a => .addi d a imm) fun a => a + imm.signExtend 64) ∧
  (∀ imm, Computes1 (fun d a => .andi d a imm) fun a => a &&& imm.signExtend 64) ∧
  (∀ imm, Computes1 (fun d a => .ori d a imm) fun a => a ||| imm.signExtend 64) ∧
  (∀ imm, Computes1 (fun d a => .xori d a imm) fun a => a ^^^ imm.signExtend 64) ∧
  (∀ sh, Computes1 (fun d a => .slli d a sh) fun a => BitVec.ofNat 64 (a.toNat * 2 ^ sh.toNat)) ∧
  (∀ sh, Computes1 (fun d a => .srli d a sh) fun a => BitVec.ofNat 64 (a.toNat / 2 ^ sh.toNat)) ∧
  (∀ sh, Computes1 (fun d a => .srai d a sh) fun a => BitVec.ofInt 64 (a.toInt / 2 ^ sh.toNat)) ∧
  (∀ imm, Computes1 (fun d a => .slti d a imm) fun a => if a.toInt < imm.toInt then 1 else 0) ∧
  (∀ (j : BitVec 3) (imm : BitVec 23) (s : State), s.runs (.lui j imm) = true → exec (.lui j imm) s =
    .next ((s.put (BitVec.ofNat 5 (8 + j.toNat)) (imm.signExtend 64 <<< 14)).done (.lui j imm))) ∧
  (∀ (j : BitVec 3) (imm : BitVec 23) (s : State), s.runs (.addpc j imm) = true → exec (.addpc j imm) s =
    .next ((s.put (BitVec.ofNat 5 (8 + j.toNat)) (s.me.pc + (imm.signExtend 64 <<< 14))).done (.addpc j imm)))

/-- R98: a branch goes to pc + 4·SExt(OFFSET) where its condition holds, and else to the next word. -/
def Claims.BranchOutcomes : Prop :=
  Branches .beq (fun a b => a = b) ∧ Branches .bne (fun a b => a ≠ b) ∧
  Branches .blt (fun a b => a.toInt < b.toInt) ∧ Branches .bge (fun a b => b.toInt ≤ a.toInt) ∧
  Branches .bltn (fun a b => a.toNat < b.toNat) ∧ Branches .bgen (fun a b => b.toNat ≤ a.toNat)

/-- R99: the jumps write pc + 4 to the link register and go to their target; `jalr` reads g[A] first and clears bits [1:0]. -/
def Claims.JumpOutcomes : Prop :=
  (∀ (j : BitVec 3) (imm : BitVec 23) (s : State), s.runs (.jal j imm) = true →
    (s.me.pc + imm.signExtend 64 * 4).toNat < 2 ^ 56 → exec (.jal j imm) s =
      .next ((s.put (j.setWidth 5) (s.me.pc + 4)).goesTo (.jal j imm) (s.me.pc + imm.signExtend 64 * 4))) ∧
  (∀ (d a : GReg) (imm : BitVec 14) (s : State), s.runs (.jalr d a imm) = true →
    ((s.me.gval a + imm.signExtend 64) &&& ~~~3#64).toNat < 2 ^ 56 → exec (.jalr d a imm) s =
      .next ((s.put d (s.me.pc + 4)).goesTo (.jalr d a imm) ((s.me.gval a + imm.signExtend 64) &&& ~~~3#64)))

/-- R99: a target outside the 56-bit space raises MEM.RANGE with the target in TRAP.VAL; the link is not written, and the trap
is taken at the jump itself. -/
def Claims.TargetOutOfRange : Prop :=
  (∀ (j : BitVec 3) (imm : BitVec 23) (s : State), s.runs (.jal j imm) = true →
    2 ^ 56 ≤ (s.me.pc + imm.signExtend 64 * 4).toNat → s.hasHandler = true → exec (.jal j imm) s =
      .next (s.trapped .memRange (s.me.pc + imm.signExtend 64 * 4))) ∧
  (∀ (d a : GReg) (imm : BitVec 14) (s : State), s.runs (.jalr d a imm) = true →
    2 ^ 56 ≤ ((s.me.gval a + imm.signExtend 64) &&& ~~~3#64).toNat → s.hasHandler = true → exec (.jalr d a imm) s =
      .next (s.trapped .memRange ((s.me.gval a + imm.signExtend 64) &&& ~~~3#64))) ∧
  (∀ (a : GReg) (off : BitVec 14) (s : State), s.runs (.beq a a off) = true →
    2 ^ 56 ≤ (s.me.pc + off.signExtend 64 * 4).toNat → s.hasHandler = true → exec (.beq a a off) s =
      .next (s.trapped .memRange (s.me.pc + off.signExtend 64 * 4)))

/-- R101 to R105 and R109: the floating-point arithmetic and conversions collect their flags and write their results, the rounding being that of
RND or of FP.MODE. -/
def Claims.FpOutcomes : Prop :=
  (∀ p r, ComputesFp2 (fun d a b => .fadd d a b p r) (fun m a b => addBits (precFmt p) m (srcBits p a) (srcBits p b)) r) ∧
  (∀ p r, ComputesFp2 (fun d a b => .fsub d a b p r) (fun m a b => subBits (precFmt p) m (srcBits p a) (srcBits p b)) r) ∧
  (∀ p r, ComputesFp2 (fun d a b => .fmul d a b p r) (fun m a b => mulBits (precFmt p) m (srcBits p a) (srcBits p b)) r) ∧
  (∀ p r, ComputesFp2 (fun d a b => .fdiv d a b p r) (fun m a b => divBits (precFmt p) m (srcBits p a) (srcBits p b)) r) ∧
  (∀ p r, ComputesFp1 (fun d a => .fsqrt d a p r) (fun m a => sqrtBits (precFmt p) m (srcBits p a)) r) ∧
  (∀ p r (d a b : GReg) (s : State), s.runs (.ffma d a b p r) = true →
    let f := fmaBits (precFmt p) (rndOf r s.me.rm) false false (srcBits p (s.me.gval a)) (srcBits p (s.me.gval b))
      (srcBits p (s.me.gval d))
    exec (.ffma d a b p r) s = .next (((s.withFlags f.2).put d (BitVec.ofNat 64 f.1)).done (.ffma d a b p r))) ∧
  (∀ p r k, ComputesFp1 (fun d a => .fcvt d a p r k) (fun m a => fcvtBits p k m a) r)

/-- R103: a finite value is rounded, without overflow, to the number of the format that the mode gives, and NX says whether that is another
value. -/
def Claims.FpRounds : Prop := ∀ (f : FpFmt) (mode : Rnd) (n : Bool) (m : Nat) (e : Int) (x : Nat),
  let r := roundToFormat f mode (.fin n m e)
  let v := (FpVal.fin n m e).value
  let w := (f.decode r.1).value
  r.2 &&& flagOF = 0 → (f.decode r.1).isFin = true ∧ (r.2 &&& flagNX = 0 ↔ w = v) ∧
    ((f.decode x).isFin = true → roundsTo mode v w (f.decode x).value)

/-- R103 and R105: NaNs and what is invalid give the canonical NaN; any signalling NaN and every invalid operation set NV alone, and a finite
number that is not zero over zero gives an infinity with DZ alone. -/
def Claims.FpSpecials : Prop := ∀ (f : FpFmt) (mode : Rnd) (x y z : Nat),
  let a := f.decode x
  let b := f.decode y
  let c := f.decode z
  let nan (n : Bool) : Nat × Flags := (f.nan, if n then flagNV else 0)
  let sig := a.isSig || b.isSig
  let zeroTimesInf := a.isZero = true ∧ (∃ k, b = .inf k) ∨ (∃ k, a = .inf k) ∧ b.isZero = true
  (a.isNan = true ∨ b.isNan = true → addBits f mode x y = nan sig ∧ subBits f mode x y = nan sig ∧ mulBits f mode x y = nan sig ∧
    divBits f mode x y = nan sig) ∧
  (a.isNan = true → sqrtBits f mode x = nan a.isSig) ∧
  (a.isNan = true ∨ b.isNan = true ∨ c.isNan = true → ¬zeroTimesInf → fmaBits f mode false false x y z = nan (sig || c.isSig)) ∧
  (∀ k l, a = .inf k → b = .inf l → (k ≠ l → addBits f mode x y = nan true) ∧ (k = l → subBits f mode x y = nan true) ∧
    divBits f mode x y = nan true) ∧
  (zeroTimesInf → mulBits f mode x y = nan true ∧ fmaBits f mode false false x y z = nan true) ∧
  (a.isZero = true → b.isZero = true → divBits f mode x y = nan true) ∧
  (a.isNan = false → a.isZero = false → a.isNeg = true → sqrtBits f mode x = nan true) ∧
  (a.isFin = true → a.isZero = false → b.isZero = true → divBits f mode x y = (f.signed (a.isNeg != b.isNeg) f.inf, flagDZ))

/-- R106: `fmin` and `fmax` give the smaller and the larger operand, −0 below +0; of one NaN the other operand, of two the canonical NaN; a
signalling NaN sets NV, and nothing else sets a flag. -/
def Claims.FpMinMax : Prop :=
  (∀ p, ComputesFp2 (fun d a b => .fmin d a b p) (fun _ a b => minMaxBits (precFmt p) false (srcBits p a) (srcBits p b)) .dyn) ∧
  (∀ p, ComputesFp2 (fun d a b => .fmax d a b p) (fun _ a b => minMaxBits (precFmt p) true (srcBits p a) (srcBits p b)) .dyn) ∧
  ∀ (f : FpFmt) (x y : Nat),
    let a := f.decode x
    let b := f.decode y
    let below (a b : FpVal) : Prop := a.less b ∨ a.isZero = true ∧ b.isZero = true ∧ a.isNeg = true ∧ b.isNeg = false
    (∀ m, (minMaxBits f m x y).2 = if a.isSig || b.isSig then flagNV else 0) ∧
    (a.isNan = true → b.isNan = true → ∀ m, (minMaxBits f m x y).1 = f.nan) ∧
    (a.isNan = true → b.isNan = false → ∀ m, (minMaxBits f m x y).1 = y) ∧
    (a.isNan = false → b.isNan = true → ∀ m, (minMaxBits f m x y).1 = x) ∧
    (a.isNan = false → b.isNan = false →
      (below a b → (minMaxBits f false x y).1 = x ∧ (minMaxBits f true x y).1 = y) ∧
      (below b a → (minMaxBits f false x y).1 = y ∧ (minMaxBits f true x y).1 = x) ∧
      (¬below a b → ¬below b a → ∀ m, (minMaxBits f m x y).1 = x ∨ (minMaxBits f m x y).1 = y))

/-- R107: `fcmp` gives 1 where its condition holds and 0 elsewhere; `.lt` and `.le` set NV for any NaN, `.eq` and `.un` for a signalling one. -/
def Claims.FpCompare : Prop :=
  (∀ p c, ComputesFp2 (fun d a b => .fcmp d a b p c) (fun _ a b => fcmpBits (precFmt p) c (srcBits p a) (srcBits p b)) .dyn) ∧
  ∀ (f : FpFmt) (x y : Nat),
    let a := f.decode x
    let b := f.decode y
    let ordered := a.isNan = false ∧ b.isNan = false
    let gives (c : FcmpCond) (h : Prop) : Prop := (h → (fcmpBits f c x y).1 = 1) ∧ (¬h → (fcmpBits f c x y).1 = 0)
    gives .eq (ordered ∧ ¬a.less b ∧ ¬b.less a) ∧ gives .lt (ordered ∧ a.less b) ∧ gives .le (ordered ∧ ¬b.less a) ∧
    gives .un (¬ordered) ∧
    ∀ c, (fcmpBits f c x y).2 = if (if c = .lt ∨ c = .le then a.isNan || b.isNan else a.isSig || b.isSig) then flagNV else 0

/-- R108: `fclass` sets the one bit of ten that says the sign and kind of its operand, and no flag. -/
def Claims.FpClasses : Prop :=
  (∀ p, Computes1 (fun d a => .fclass d a p) fun a => BitVec.ofNat 64 (2 ^ classBit (precFmt p) (srcBits p a))) ∧
  ∀ (f : FpFmt) (x : Nat),
    (∀ n, f.decode x = .inf n → classBit f x = if n then 0 else 7) ∧
    (∀ q, f.decode x = .nan q → classBit f x = if q then 8 else 9) ∧
    (∀ n m e, f.decode x = .fin n m e → classBit f x = if m = 0 then (if n then 3 else 4)
      else if m < 2 ^ f.fracBits then (if n then 2 else 5) else if n then 1 else 6)

/-- R100: a `.s` floating-point result leaves bits [63:32] zero. -/
def Claims.SingleResultsFit : Prop := ∀ (m : Rnd) (x y z : Nat), x < 2 ^ 32 → y < 2 ^ 32 → z < 2 ^ 32 →
  (addBits .f32 m x y).1 < 2 ^ 32 ∧ (subBits .f32 m x y).1 < 2 ^ 32 ∧ (mulBits .f32 m x y).1 < 2 ^ 32 ∧
  (divBits .f32 m x y).1 < 2 ^ 32 ∧ (sqrtBits .f32 m x).1 < 2 ^ 32 ∧ (fmaBits .f32 m false false x y z).1 < 2 ^ 32 ∧
  (∀ b, (minMaxBits .f32 b x y).1 < 2 ^ 32) ∧
  (∀ (w : Word) (k : FcvtKind), k = .tof ∨ k = .froms ∨ k = .fromn → (fcvtBits .s k m w).1 < 2 ^ 32)

/-- The integer instructions: two sources, other register forms, immediates. -/
def Obligations.ScalarAlu : Prop := Claims.AluTwoSources ∧ Claims.AluOtherForms ∧ Claims.AluImmediates

/-- Branches, jumps, and targets that the pc cannot hold. -/
def Obligations.ControlTransfers : Prop := Claims.BranchOutcomes ∧ Claims.JumpOutcomes ∧ Claims.TargetOutOfRange

/-- Minima, maxima, comparisons and classes of floating-point numbers. -/
def Obligations.FpComparisons : Prop := Claims.FpMinMax ∧ Claims.FpCompare ∧ Claims.FpClasses

/-- The results and flags of the scalar floating-point arithmetic: how it rounds, what is invalid, and where a single result stands. -/
def Obligations.FpArithmetic : Prop := Claims.FpOutcomes ∧ Claims.FpRounds ∧ Claims.FpSpecials ∧ Claims.SingleResultsFit

/-! ### Memory -/

/-- R147 and R388: an access that passes its check keeps the address below bit 16, is aligned to its size and lies in the 56-bit
space. -/
def Claims.AccessKeepsOffset : Prop := ∀ (s : State) (ag : Agent) (use : WinUse) (va : Word) (n : Nat) (k : Acc) (p : Place)
    (tr : Option Trans), checkPlace s ag use va n k = .ok (p, tr) →
  va.toNat < 2 ^ 56 ∧ va.toNat % n = 0 ∧
  (∀ pa v c, p = .mem pa v c → v = va.toNat ∧ pa % 2 ^ 16 = va.toNat % 2 ^ 16) ∧
  (∀ key serial off, p = .win key serial off → off < 2 ^ 22 ∧ va.toNat = 2 ^ 56 - 2 ^ 22 + off)

/-- R147: an address outside the 56-bit space raises MEM.RANGE, a misaligned one MEM.ALIGN, both with the address in TRAP.VAL and
before any other check of the access; the trap is taken at the instruction. -/
def Claims.AccessTraps : Prop :=
  let outcome (mk : GReg → GReg → BitVec 14 → Instr) (n : Nat) : Prop :=
    ∀ (d a : GReg) (imm : BitVec 14) (s : State), s.runs (mk d a imm) = true → s.hasHandler = true →
      let va := s.me.gval a + imm.signExtend 64
      (2 ^ 56 ≤ va.toNat → exec (mk d a imm) s = .next ((s.entered (mk d a imm)).trapped .memRange va)) ∧
      (va.toNat < 2 ^ 56 → va.toNat % n ≠ 0 → exec (mk d a imm) s = .next ((s.entered (mk d a imm)).trapped .memAlign va))
  outcome .ldB 1 ∧ outcome .ldH 2 ∧ outcome .ldW 4 ∧ outcome .ldD 8 ∧ outcome .ldBn 1 ∧ outcome .ldHn 2 ∧ outcome .ldWn 4 ∧
  outcome .ldacqW 4 ∧ outcome .ldacqD 8 ∧ outcome .ldntD 8 ∧ outcome .stB 1 ∧ outcome .stH 2 ∧ outcome .stW 4 ∧ outcome .stD 8 ∧
  outcome .stntD 8 ∧ outcome .mstoreW 4 ∧ outcome .mstoreD 8

/-- R135, R139, R148 and R149: the loads. -/
def Claims.LoadOutcomes : Prop :=
  LoadsAs .ldB 1 true true ∧ LoadsAs .ldH 2 true true ∧ LoadsAs .ldW 4 true true ∧ LoadsAs .ldD 8 true true ∧
  LoadsAs .ldBn 1 false true ∧ LoadsAs .ldHn 2 false true ∧ LoadsAs .ldWn 4 false true ∧ LoadsAs .ldacqW 4 true false ∧
  LoadsAs .ldacqD 8 true false ∧ LoadsAs .ldntD 8 true false

/-- R133, R137 and R148: the plain stores; and `stnt.d`, which on a cacheable page buffers its bytes (R149). -/
def Claims.StoreOutcomes : Prop :=
  StoresAs .stB 1 ∧ StoresAs .stH 2 ∧ StoresAs .stW 4 ∧ StoresAs .stD 8 ∧
  (∀ (d a : GReg) (imm : BitVec 14) (s : State) (pa va : Nat) (tr : Option Trans),
    s.runs (.stntD d a imm) = true →
    (s.entered (.stntD d a imm)).access .allowed (s.me.gval a + imm.signExtend 64) 8 .write = .ok (.mem pa va true, tr) →
    s.atRoot → s.me.wc.length < 4 → (∀ w ∈ s.me.wc, w.line ≠ lineAddr pa) →
    ∃ u, MemoryOnly (s.entered (.stntD d a imm)) u ∧ u.ms = s.ms ∧
      u.me.wc = s.me.wc ++ [⟨lineAddr pa, lineAddr va, lineOf (pa % 64) 8 (s.me.gval d).toNat, byteMask (pa % 64) 8⟩] ∧
      exec (.stntD d a imm) s = .next (u.done (.stntD d a imm))) ∧
  (∀ (d a : GReg) (imm : BitVec 14) (s : State) (pa va : Nat) (tr : Option Trans),
    s.runs (.stntD d a imm) = true →
    (s.entered (.stntD d a imm)).access .allowed (s.me.gval a + imm.signExtend 64) 8 .write = .ok (.mem pa va false, tr) →
    s.atRoot → s.noInjection → s.homeLives pa → s.merges pa va →
    ∃ u, MemoryOnly (s.entered (.stntD d a imm)) u ∧ Wrote s u pa 8 (s.me.gval d).toNat ∧
      exec (.stntD d a imm) s = .next (u.done (.stntD d a imm)))

/-- R138, R141, R148 and R150: a store that releases and a store to every replica write their homes. -/
def Claims.HomeStoreOutcomes : Prop :=
  let releases (mk : GReg → GReg → BitVec 14 → Instr) (n : Nat) : Prop :=
    ∀ (d a : GReg) (imm : BitVec 14) (s : State) (pa va : Nat) (cached : Bool) (tr : Option Trans),
      s.runs (mk d a imm) = true →
      (s.entered (mk d a imm)).access .allowed (s.me.gval a + imm.signExtend 64) n .write = .ok (.mem pa va cached, tr) →
      s.atRoot → s.noInjection → s.homeLives pa → s.quiet pa → s.merges pa va →
      ∃ u, MemoryOnly (s.entered (mk d a imm)) u ∧ Wrote s u pa n (s.me.gval d).toNat ∧
        (cached = true → ∃ x, u.l1Of va 0 = some x ∧ x.dirty = 0 ∧
          (pkgOf pa = s.ws.own → x.owned &&& wordsOf (byteMask (pa % 64) n) = wordsOf (byteMask (pa % 64) n))) ∧
        exec (mk d a imm) s = .next (u.done (mk d a imm))
  let replicates (mk : GReg → GReg → BitVec 14 → Instr) (n : Nat) : Prop :=
    ∀ (d a : GReg) (imm : BitVec 14) (s : State) (p : Place) (tr : Trans), s.runs (mk d a imm) = true →
      (s.entered (mk d a imm)).access .none (s.me.gval a + imm.signExtend 64) n .write = .ok (p, some tr) →
      s.atRoot → s.noRegion → s.noInjection →
      (∀ pa ∈ replicas tr (s.me.gval a + imm.signExtend 64).toNat, s.homeLives pa ∧ s.quiet pa ∧
        s.heldLine (lineAddr pa) = false ∧ s.ms.checkOf (lineAddr pa) ≠ .single) →
      ∃ u, MemoryOnly (s.entered (mk d a imm)) u ∧
        (∀ pa ∈ replicas tr (s.me.gval a + imm.signExtend 64).toNat, ∀ k, k < n →
          u.byteAt (pa + k) = BitVec.ofNat 8 ((s.me.gval d).toNat / 256 ^ k)) ∧
        (∀ b, (∀ pa ∈ replicas tr (s.me.gval a + imm.signExtend 64).toNat, b < pa ∨ pa + n ≤ b) → u.byteAt b = s.byteAt b) ∧
        exec (mk d a imm) s = .next (u.done (mk d a imm))
  releases .strelW 4 ∧ releases .strelD 8 ∧ replicates .mstoreW 4 ∧ replicates .mstoreD 8

/-- R153: the atomics. A compare-and-swap writes only where the word is the old g[D]. -/
def Claims.AtomicOutcomes : Prop :=
  let si (wd : AmoWidth) (m : Nat) : Int := (BitVec.ofNat (8 * wd.bytes) m).toInt
  AmoAs .amoadd (fun wd m x => (m + x) % 2 ^ (8 * wd.bytes)) ∧ AmoAs .amoand (fun _ m x => m &&& x) ∧
  AmoAs .amoor (fun _ m x => m ||| x) ∧ AmoAs .amoxor (fun _ m x => m ^^^ x) ∧
  AmoAs .amomin (fun wd m x => if si wd m ≤ si wd x then m else x) ∧
  AmoAs .amomax (fun wd m x => if si wd m ≤ si wd x then x else m) ∧
  AmoAs .amominn (fun _ m x => min m x) ∧ AmoAs .amomaxn (fun _ m x => max m x) ∧ AmoAs .amoswap (fun _ _ x => x) ∧
  (∀ (d a b : GReg) (wd : AmoWidth) (o : AmoOrd) (s : State) (p : Place) (tr : Trans),
    let i := Instr.amocas d a b wd o
    s.runs i = true → (s.entered i).access .none (s.me.gval a) wd.bytes .rmw = .ok (p, some tr) → tr.rdies = 0 →
    s.atRoot → s.noRegion → s.noInjection → s.homeLives tr.pa → s.quiet tr.pa → s.ms.checkOf (lineAddr tr.pa) = .good →
    s.heldLine (lineAddr tr.pa) = false →
    ∃ u, MemoryOnly (s.entered i) u ∧
      (s.peek tr.pa wd.bytes = (s.me.gval d).toNat % 2 ^ (8 * wd.bytes) → Wrote s u tr.pa wd.bytes (s.me.gval b).toNat) ∧
      (s.peek tr.pa wd.bytes ≠ (s.me.gval d).toNat % 2 ^ (8 * wd.bytes) → SameMemory s u) ∧
      exec i s = .next ((u.put d (loaded true wd.bytes (s.peek tr.pa wd.bytes))).done i))

/-- R154 and R155: `lr` takes a reservation on its line, always on a line of the package, and `sc` writes only while it stands, which takes it from every other slot; the
status is 0, 1 where a write broke it, 2 where none was held on the line. -/
def Claims.ReservationOutcomes : Prop :=
  (∀ (d a : GReg) (wd : AmoWidth) (o : AmoOrd) (s : State) (p : Place) (tr : Trans),
    let i := Instr.lr d a wd o
    s.runs i = true → (s.entered i).access .none (s.me.gval a) wd.bytes .rmw = .ok (p, some tr) → tr.rdies = 0 →
    s.atRoot → s.noRegion → s.quiet tr.pa → s.ms.checkOf (lineAddr tr.pa) = .good → s.heldLine (lineAddr tr.pa) = false →
    ∃ u, MemoryOnly (s.entered i) u ∧ SameMemory s u ∧ (pkgOf tr.pa = s.ws.own → u.me.resv = some ⟨lineAddr tr.pa, false⟩) ∧
      (u.me.resv = some ⟨lineAddr tr.pa, false⟩ ∨ u.me.resv = none) ∧
      exec i s = .next ((u.put d (loaded true wd.bytes (s.peek tr.pa wd.bytes))).done i)) ∧
  (∀ (d a b : GReg) (wd : AmoWidth) (o : AmoOrd) (s : State) (p : Place) (tr : Trans),
    let i := Instr.sc d a b wd o
    s.runs i = true → (s.entered i).access .none (s.me.gval a) wd.bytes .rmw = .ok (p, some tr) → tr.rdies = 0 →
    s.atRoot → s.noRegion → s.noInjection → s.homeLives tr.pa → s.quiet tr.pa → s.heldLine (lineAddr tr.pa) = false →
    s.ms.checkOf (lineAddr tr.pa) ≠ .single →
    ∃ u, MemoryOnly (s.entered i) u ∧ u.me.resv = none ∧
      (s.me.resv = some ⟨lineAddr tr.pa, false⟩ → Wrote s u tr.pa wd.bytes (s.me.gval b).toNat ∧
        (∀ k r, (u.slot k).resv = some r → r.line = lineAddr tr.pa → r.broken = true) ∧
        exec i s = .next ((u.put d 0).done i)) ∧
      (s.me.resv = some ⟨lineAddr tr.pa, true⟩ → SameMemory s u ∧ exec i s = .next ((u.put d 1).done i)) ∧
      ((∀ b, s.me.resv ≠ some ⟨lineAddr tr.pa, b⟩) → SameMemory s u ∧ exec i s = .next ((u.put d 2).done i)))

/-- R156: `wrs` gives 0 when a write has broken its reservation and 1 when its time is over, and ends the reservation; else the
slot waits for as many cycles as g[B] says. -/
def Claims.WaitOnWriteOutcomes : Prop :=
  ∀ (d a b : GReg) (wd : AmoWidth) (s : State) (p : Place) (tr : Trans),
    let i := Instr.wrs d a b wd
    s.runs i = true → (s.entered i).access .none (s.me.gval a) wd.bytes .read = .ok (p, some tr) → tr.rdies = 0 →
    s.me.timer = none →
    let left := (s.entered i).setMe { (s.entered i).me with resv := none, timer := none }
    (s.me.resv = some ⟨lineAddr tr.pa, true⟩ → exec i s = .next ((left.put d 0).done i)) ∧
    ((∀ r, s.me.resv = some r → r.line = lineAddr tr.pa → r.broken = false) → pkgOf tr.pa = s.ws.own →
      (s.me.gval b = 0 → exec i s = .next ((left.put d 1).done i)) ∧
      (s.me.gval b ≠ 0 → exec i s = .next ((s.entered i).setMe
        { (s.entered i).me with
          resv := some ⟨lineAddr tr.pa, false⟩, st := .parked, wait := .wrs,
          timer := some (s.clock (dieOf s.cur) + (s.me.gval b).toNat) })))

/-- R138, R139, R157 and R158: the fences. A release performs the cell's dirty bytes and the task's buffer; an acquire keeps only
bytes dirty or owned; `afence` leaves the cell no line. -/
def Claims.FenceOutcomes : Prop :=
  (∀ s : State, s.runs .fenceAcq = true → ∃ u, MemoryOnly (s.entered .fenceAcq) u ∧ SameMemory s u ∧
    u.slots = (s.entered .fenceAcq).slots ∧
    (∀ x ∈ u.ms.l1, x.cell = cellOf s.cur → x.hyp = 0 → x.valid &&& ~~~(x.dirty ||| bytesOfWords x.owned) = 0) ∧
    exec .fenceAcq s = .next (u.done .fenceAcq)) ∧
  (∀ i, i = Instr.fenceRel ∨ i = .fenceSc ∨ i = .afence → ∀ (s : State) (x : L1Line), s.runs i = true → s.noInjection →
    s.me.wc = [] → s.ms.l1.filter (fun y => y.cell = cellOf s.cur && y.dirty ≠ 0) = [x] → x.hyp = 0 → lineAddr x.pa = x.pa →
    s.homeLives x.pa → s.ws.reachable (pkgOf x.pa) = true → s.heldLine x.pa = false → s.ms.checkOf x.pa = .good → x.check = .good →
    ∃ u, MemoryOnly (s.entered i) u ∧
      (∀ a, u.byteAt a = if x.pa ≤ a ∧ a < x.pa + 64 ∧ x.dirty.getLsbD (a - x.pa) = true then
        x.data.extractLsb' (8 * (a - x.pa)) 8 else s.byteAt a) ∧
      (∀ y ∈ u.ms.l1, y.cell = cellOf s.cur → y.dirty = 0 ∧ i ≠ .afence) ∧
      exec i s = .next (u.done i))

/-- R159: `pref` fetches the line into the cell's L1, and one that would fault is dropped. -/
def Claims.PrefetchOutcomes : Prop :=
  (∀ (a : GReg) (s : State) (pa va : Nat) (tr : Option Trans), s.runs (.pref a) = true →
    (s.entered (.pref a)).access .allowed (s.me.gval a) 1 .read = .ok (.mem pa va true, tr) →
    s.ms.checkOf (lineAddr pa) = .good → s.heldLine (lineAddr pa) = false →
    ∃ u, MemoryOnly (s.entered (.pref a)) u ∧ SameMemory s u ∧ u.slots = (s.entered (.pref a)).slots ∧
      (∃ x, u.l1Of va 0 = some x ∧ x.valid = BitVec.allOnes 64) ∧ exec (.pref a) s = .next (u.done (.pref a))) ∧
  (∀ (a : GReg) (s : State) (f : Failure), s.runs (.pref a) = true →
    (s.entered (.pref a)).access .allowed (s.me.gval a) 1 .read = .error f →
    exec (.pref a) s = .next ((s.entered (.pref a)).done (.pref a)))

/-- R5, R134, R137 and R155: bytes written at their home are exactly the masked ones, and the write breaks every reservation on the
line but one it exempts. -/
def Claims.HomeWriteBytes : Prop :=
  ∀ (s : State) (line : Nat) (data : LineVal) (mask : BitVec 64) (own exempt : Option Nat),
    (∀ a, (s.writeHome line data mask own exempt).byteAt a =
      if line ≤ a ∧ a < line + 64 ∧ mask.getLsbD (a - line) = true then data.extractLsb' (8 * (a - line)) 8 else s.byteAt a) ∧
    (∀ t r, ((s.writeHome line data mask own exempt).slot t).resv = some r → r.line = line → some t ≠ exempt → r.broken = true) ∧
    (∀ t, (s.writeHome line data mask own exempt).slot t = { s.slot t with resv := ((s.writeHome line data mask own exempt).slot t).resv })

/-- R5: in every state that keeps the canonical form, n bytes of memory read as a number are those bytes, the lowest address least
significant. -/
def Claims.MemoryReadsBytes : Prop :=
  ∀ (s : State) (pa n k : Nat), Memory.wf s.ms.mem = true → k < n → BitVec.ofNat 8 (s.peek pa n / 256 ^ k) = s.byteAt (pa + k)

/-- What an access does at its translation: the address kept, or the trap. -/
def Obligations.AccessChecks : Prop := Claims.AccessKeepsOffset ∧ Claims.AccessTraps

/-- Loads, stores and stores at the home. -/
def Obligations.LoadsAndStores : Prop := Claims.LoadOutcomes ∧ Claims.StoreOutcomes ∧ Claims.HomeStoreOutcomes

/-- Atomics, load-reserve and store-conditional, and the wait on a write. -/
def Obligations.AtomicsAndReservations : Prop := Claims.AtomicOutcomes ∧ Claims.ReservationOutcomes ∧ Claims.WaitOnWriteOutcomes

/-- `fence` and `pref`. -/
def Obligations.FencesAndPrefetch : Prop := Claims.FenceOutcomes ∧ Claims.PrefetchOutcomes

/-- Bytes written and read at their homes. -/
def Obligations.BytesAtHome : Prop := Claims.HomeWriteBytes ∧ Claims.MemoryReadsBytes

/-! ### Traps, control registers and tasks -/

/-- R45, R85, R86 and R403: `trap` raises USER.TRAP (code 0x03) below 64 and SYS.CALL (0x04) from 64 on, with N in TRAP.VAL and TRAP.PC at the
next word; an ordinary trap goes to TRAP.VEC, a system trap in privileged state to the handler of the address space, a
multiple of 4. -/
def Obligations.TrapOutcomes : Prop := ∀ (n : BitVec 7) (s : State), s.runs (.trap n) = true →
  (n.toNat < 64 → s.hasHandler = true → exec (.trap n) s = .next (s.setMe { s.me with
    trapCause := 0x03, trapVal := n.setWidth 64, trapPc := s.me.pc + 4, stat := s.me.stat ||| 0x10#8, pc := s.me.trapVec,
    resv := none, st := .ready, timer := none, tretRep := false })) ∧
  (64 ≤ n.toNat → s.me.intrap = false → s.sysHandler s.me.asid ≠ 0 → exec (.trap n) s = .next (s.setMe { s.me with
    trapCause := 0x04, trapVal := n.setWidth 64, trapPc := s.me.pc + 4, stat := s.me.stat ||| 0x11#8,
    pc := s.sysHandler s.me.asid &&& 0xFFFFFFFFFFFFFC#64, savedPriv := s.me.priv, sysTrap := true,
    resv := none, st := .ready, timer := none, tretRep := false }))

/-- R85: what an ordinary trap at an instruction leaves: its cause, value and pc saved, INTRAP set, the pc at TRAP.VEC, the
reservation gone; nothing else of the machine differs. -/
def Claims.TrapSaves : Prop := ∀ (s : State) (c : Cause) (val : Word),
  (∀ k, k ≠ s.cur → (s.trapped c val).slot k = s.slot k) ∧
  (s.trapped c val) = { s with slots := (s.trapped c val).slots } ∧
  (s.trapped c val).me = { s.me with
    trapCause := BitVec.ofNat 64 c.code, trapVal := val, trapPc := s.me.pc, stat := s.me.stat ||| 0x10#8, pc := s.me.trapVec,
    resv := none, st := .ready, wait := .none, timer := none, pend := none, repFrom := 0, tretRep := false }

/-- R87 and R403: `tret` clears INTRAP and goes to TRAP.PC; at the end of a system trap the saved privilege comes back. Outside a handler it
raises TRET.STATE; its TRAP.VAL is free (log entry 5). -/
def Claims.TrapReturns : Prop := ∀ s : State, s.runs .tret = true →
  (s.me.intrap = false → s.hasHandler = true → s.traps .tret .tretState) ∧
  (s.me.intrap = true → exec .tret s = .next (s.setMe { s.me with
    stat := if s.me.sysTrap then (s.me.stat &&& 0xEE#8) ||| (if s.me.savedPriv then 1#8 else 0#8) else s.me.stat &&& 0xEF#8,
    sysTrap := false, pc := s.me.trapPc, yieldLeft := s.me.yieldLeft - 1, st := .ready, timer := none, tretRep := true }))

/-- R88, R89, R90, R310 and R337: what `cget` reads. -/
def Claims.ControlReads : Prop :=
  let reads (r : CtlReg) (f : State → Word) : Prop := ∀ (d : GReg) (s : State), s.runs (.cget d r) = true →
    exec (.cget d r) s = .next ((s.put d (f s)).done (.cget d r))
  reads .taskId (fun s => BitVec.ofNat 64 s.cur) ∧ reads .taskStat (fun s => s.me.stat.setWidth 64) ∧
  reads .taskPrio (fun s => s.me.prio.setWidth 64) ∧ reads .taskLaunch (fun s => s.me.launchRec) ∧
  reads .part (fun s => s.me.part) ∧ reads .yieldLeft (fun s => s.me.yieldLeft.setWidth 64) ∧
  reads .trapVec (fun s => s.me.trapVec) ∧ reads .trapCause (fun s => s.me.trapCause) ∧ reads .trapVal (fun s => s.me.trapVal) ∧
  reads .trapPc (fun s => s.me.trapPc) ∧ reads .trapRep (fun s => s.me.trapRep.setWidth 64) ∧
  reads .fpMode (fun s => s.me.rm.setWidth 64) ∧
  reads .hypCur (fun s => BitVec.ofNat 64 (s.me.hypId + s.me.regions.length * 2 ^ 16 + s.me.impl.toNat * 2 ^ 19 +
    (s.me.regions.reverse.zipIdx.foldl (fun n (r, k) => if r.nonrev then n + 2 ^ k else n) 0) * 2 ^ 20)) ∧
  reads .hypSpillwait (fun s => s.me.spillwait.setWidth 64) ∧
  reads .strmCur (fun s => BitVec.ofNat 64 (s.me.strmCur.toNat + s.me.members.length * 2 ^ 32 + s.me.batchPos.toNat * 2 ^ 40)) ∧
  reads .asid (fun s => s.me.asid.setWidth 64) ∧ reads .world (fun s => if s.me.world then 1 else 0) ∧
  reads .clkCycle (fun s => BitVec.ofNat 64 (s.clock (dieOf s.cur))) ∧
  (∀ (d : GReg) (s : State), s.runs (.cgetFpFlags d) = true → s.queuesEmpty s.cur = true →
    exec (.cgetFpFlags d) s = .next ((s.put d (s.me.fflags.setWidth 64)).done (.cgetFpFlags d)))

/-- R7, R8, R88 and R90: what `cset` writes; fields that are read-only or reserved ignore it, and ones clear OOB and DISCARDED of
TASK.STAT. -/
def Claims.ControlWrites : Prop :=
  let writes (r : CtlReg) (f : Slot → Word → Slot) : Prop := ∀ (d : GReg) (s : State), s.runs (.cset d r) = true →
    exec (.cset d r) s = .next ((s.setMe (f s.me (s.me.gval d))).done (.cset d r))
  writes .taskStat (fun x w => { x with stat := x.stat &&& ~~~(w.setWidth 8 &&& 0x0C#8) }) ∧
  writes .taskPrio (fun x w => { x with prio := w.setWidth 4 }) ∧
  writes .trapVec (fun x w => { x with trapVec := w &&& 0xFFFFFFFFFFFFFC#64 }) ∧
  writes .trapCause (fun x w => { x with trapCause := w &&& 0xFF#64 }) ∧
  writes .trapVal (fun x w => { x with trapVal := w }) ∧
  writes .trapPc (fun x w => { x with trapPc := w &&& 0xFFFFFFFFFFFFFC#64 }) ∧
  writes .trapRep (fun x w => { x with trapRep := w.setWidth 6 }) ∧ writes .fpMode (fun x w => { x with rm := w.setWidth 2 }) ∧
  writes .fpFlags (fun x w => { x with fflags := w.setWidth 5 }) ∧
  writes .hypSpillwait (fun x w => { x with spillwait := w.setWidth 32 }) ∧ writes .asid (fun x w => { x with asid := w.setWidth 16 }) ∧
  (∀ r, r ∈ [CtlReg.taskId, .taskLaunch, .part, .yieldLeft, .hypCur, .strmCur, .world, .clkCycle] → writes r fun x _ => x)

/-- R210, R211 and R214: a channel register rebound takes EN, KIND and PEER; a write of CHAN.IN discards the messages that have
landed. -/
def Claims.ChannelBinds : Prop :=
  let bound (w : Word) : Chan := ⟨w.getLsbD 31, false, w.getLsbD 24, w.setWidth 13⟩
  (∀ (d : GReg) (s : State), s.runs (.csetChanIn d) = true → (s.me.gval d).getLsbD 25 = false →
    exec (.csetChanIn d) s = .next (s.setMe { s.me with
      chanIn := bound (s.me.gval d), inq := s.me.inq.filter fun m => !m.landed,
      pc := s.me.pc + 4, yieldLeft := s.me.yieldLeft - 1, st := .ready, tretRep := false })) ∧
  (∀ (d : GReg) (s : State), s.runs (.csetChanOut d) = true → (s.me.gval d).getLsbD 25 = false →
    exec (.csetChanOut d) s = .next ((s.setMe { s.me with chanOut := bound (s.me.gval d) }).done (.csetChanOut d)))

/-- R52 and R85: a user task that writes a SYS register, or that executes `inval`, takes ILLEGAL with the word in TRAP.VAL. -/
def Claims.PrivilegeTraps : Prop :=
  (∀ (d : GReg) (r : CtlReg) (s : State), r = .taskPrio ∨ r = .hypSpillwait ∨ r = .asid → s.clear = true → s.me.priv = false →
    s.hasHandler = true → exec (.cset d r) s = .next (s.trapped .illegal (BitVec.ofNat 64 (wordOf (.cset d r))))) ∧
  (∀ (a b : GReg) (s : State), s.clear = true → s.me.priv = false → s.hasHandler = true →
    exec (.inval a b) s = .next (s.trapped .illegal (BitVec.ofNat 64 (wordOf (.inval a b)))))

/-- R51 and R401: a word that is no instruction raises ILLEGAL with the word, at that word. -/
def Claims.NotAnInstruction : Prop := ∀ (s : State) (w : Nat) (rest : List Nat),
  s.ev = w :: rest → s.me.st ≠ .free → s.hasHandler = true →
  exec .notAnInstruction s = .next (s.trapped .illegal (BitVec.ofNat 64 w))

/-- R69 and R71: `yield` with nothing pending resets the budget to its operand, or to 4,096 if CANCELLED caps it, and goes on; it
needs no budget. -/
def Claims.YieldOutcomes : Prop := ∀ (n : BitVec 16) (gm : GReg) (s : State),
  let i := Instr.yield n gm
  (s.setMe { s.me with yieldLeft := 1 }).runs i = true → s.cancelPending s.cur = false → s.preemptAsked s.cur = false →
  (s.me.gval gm) >>> 24 = 0 → s.queuesEmpty s.cur = true →
  exec i s = .next (s.setMe { s.me with
    hypId := s.hyps.eff s.me.hypId,
    yieldLeft := if s.me.cancelled = true ∧ 4096 < n.toNat then 4096 else n,
    pc := s.me.pc + 4, tretRep := false, st := .ready, inq := if gm = 31 then s.me.inq.drop 1 else s.me.inq })

/-- R68: `quit` makes the slot ENDING until its queued work has drained. -/
def Claims.QuitOutcomes : Prop := ∀ s : State, s.runs .quit = true →
  exec .quit s = .next ((s.entered .quit).setMe { (s.entered .quit).me with st := .ending, wait := .drain })

/-- R67: `spawn` creates a task at g[B] on the core asked for, or on that of the cell's placement, with g4 to g7 of the spawner;
OUTSTANDING of the launch is raised by one; the answer is the new TASK.ID. -/
def Claims.SpawnOutcomes : Prop := ∀ (d a b : GReg) (cell : Bool) (s : State) (l : Launch) (c k : Nat),
  let i := Instr.spawn d a b cell
  let e := s.entered i
  let target := (s.me.gval a).toNat
  s.runs i = true → target ≤ (if cell then 511 else 4095) → (s.me.gval b).toNat % 4 = 0 →
  s.launch? s.me.launch = some l → l.acceptedDies.getLsbD (if cell then target / 128 else target / 1024) = true →
  l.reissuable = false → l.paired = false → e.recCancelled l.recAddr = false →
  (if cell then e.chooseCore l (target * 8) 8 else if e.accepts l false target then some target else none) = some c →
  e.freeSlotOn c = some k →
  s.me.wc = [] → (∀ x ∈ s.ms.l1, x.cell = cellOf s.cur → x.dirty = 0) → s.noInjection → s.homeLives l.recAddr →
  l.recAddr % 64 = 0 → s.ms.checkOf l.recAddr ≠ .single →
  ∃ u, exec i s = .next ((u.put d (BitVec.ofNat 64 k)).done i) ∧
    Wrote s u l.recAddr 8 (BitVec.ofInt 64 (s.recOutstanding l.recAddr + 1)).toNat ∧
    (u.slot k).st = .ready ∧ (u.slot k).pc = s.me.gval b ∧ (u.slot k).launch = l.number ∧
    (∀ r : GReg, (u.slot k).gval r = if 4 ≤ r.toNat ∧ r.toNat ≤ 7 then s.me.gval r else 0) ∧
    (u.slot k).yieldLeft = l.budget ∧ (u.slot k).regions = [] ∧ (u.slot k).asid = l.asid ∧
    (∀ t, t ≠ k → u.slot t = { e.slot t with wc := (u.slot t).wc, resv := (u.slot t).resv })

/-- R81: `depsig` lowers the counter of an index of its launch by one, with a release. An index whose counter reaches 0 enters the
ready queue of its die. -/
def Claims.DepsigOutcomes : Prop := ∀ (a : GReg) (s : State) (l : Launch),
  let i := Instr.depsig a
  let k := (s.me.gval a).toNat
  s.runs i = true → s.launch? s.me.launch = some l → l.dep = true → k < l.count → tblGet 0 l.counters k ≠ 0 →
  s.recCancelled l.recAddr = false → s.atRoot → s.noRegion →
  s.me.wc = [] → (∀ x ∈ s.ms.l1, x.cell = cellOf s.cur → x.dirty = 0) →
  ∃ u, exec i s = .next (u.done i) ∧ SameMemory s u ∧ u.me = (s.entered i).me ∧ ∃ l', u.launch? s.me.launch = some l' ∧
    (∀ j, tblGet 0 l'.counters j = if j = k then tblGet 0 l.counters k - 1 else tblGet 0 l.counters j) ∧
    (let die := (l.dieList[k % l.dieList.length]?).getD 0
     tblGet [] l'.readyq die = tblGet [] l.readyq die ++ if tblGet 0 l.counters k = 1 then [k] else [])

/-- R75: `cancel` sets CANCEL_REQ, bit 0 of byte 9, of an OPEN record of the level asked for, and writes nothing else where no index
of a launch is uncreated and no launch has a stream. -/
def Claims.CancelOutcomes : Prop := ∀ (a : GReg) (level : CancelLevel) (s : State) (p : Place) (tr : Trans),
  let i := Instr.cancel a level
  let e := s.entered i
  s.runs i = true → (s.me.gval a).toNat % 64 = 0 → e.access .none (s.me.gval a) 8 .write = .ok (p, some tr) →
  s.ms.checkOf (lineAddr tr.pa) = .good → s.heldLine (lineAddr tr.pa) = false → s.recLevel tr.pa = level.code → s.recAsid tr.pa = s.me.asid →
  s.recStatus tr.pa = 0 → s.recCancel tr.pa = false → s.atRoot → s.noRegion → s.noInjection → s.homeLives tr.pa →
  s.me.wc = [] → (∀ x ∈ s.ms.l1, x.cell = cellOf s.cur → x.dirty = 0) →
  (∀ l ∈ s.ls.launches, l.left = 0) → s.ss.streams = [] →
  ∃ u, exec i s = .next (u.done i) ∧ Wrote s u (tr.pa + 9) 1 (s.peek (tr.pa + 9) 1 / 2 * 2 + 1)

/-- R396: `inval` of an empty range is its release alone; of another, the slot waits for every holder that has something to drop and
for every live die. -/
def Claims.InvalOutcomes : Prop := ∀ (a b : GReg) (s : State),
  let i := Instr.inval a b
  let n := (s.me.gval b).toNat % 2 ^ 40 * 2 ^ 16
  s.runs i = true → (s.me.gval a).toNat % 2 ^ 16 = 0 → (s.me.gval a).toNat + n ≤ 2 ^ 56 → (s.me.gval a).toNat < 2 ^ 56 →
  (s.me.gval b).toNat / 2 ^ 40 % 128 = 0 →
  s.me.wc = [] → (∀ x ∈ s.ms.l1, x.cell = cellOf s.cur → x.dirty = 0) →
  (n = 0 → ∃ u, MemoryOnly (s.entered i) u ∧ SameMemory s u ∧ exec i s = .next (u.done i)) ∧
  (n ≠ 0 → ∃ u, exec i s = .next u ∧ SameMemory s u ∧ u.me.st = .parked ∧ u.me.wait = .inval ∧
    ∃ hs, u.me.pend = some ⟨.inval, 0, [((s.me.gval b).getLsbD 47).toNat, fieldOf (s.me.gval b) 63 48, (s.me.gval a).toNat, n] ++ hs,
      none⟩ ∧ ∀ d, d < 4 → s.live d = true → 512 + d ∈ hs)

/-- What a trap leaves, and the return from one. -/
def Obligations.TrapsTaken : Prop := Claims.TrapSaves ∧ Claims.TrapReturns

/-- Where an instruction, or a word that is none, takes ILLEGAL. -/
def Obligations.IllegalTraps : Prop := Claims.PrivilegeTraps ∧ Claims.NotAnInstruction

/-- Reads and writes of the control registers, and the channel registers rebound. -/
def Obligations.ControlRegisters : Prop := Claims.ControlReads ∧ Claims.ControlWrites ∧ Claims.ChannelBinds

/-- `yield`, `quit`, `spawn`, `depsig` and `cancel`. -/
def Obligations.TaskControl : Prop := Claims.YieldOutcomes ∧ Claims.QuitOutcomes ∧ Claims.SpawnOutcomes ∧ Claims.DepsigOutcomes ∧ Claims.CancelOutcomes

/-! ### The vector unit -/

/-- R203 and R205: a VEC instruction that is not held places its entry at the end of its core's vector queue and goes on. -/
def Claims.VectorIssues : Prop := ∀ i, isQueuedVec i = true → QueuesAs i VExtra.none fun _ => True

/-- R203, R205, R230, R233 and R234: `vmovg`, `vamax`, `kpopc` and `kfirst`, whose issue holds until their entry has completed. -/
def Claims.HeldVectorIssues : Prop :=
  (∀ t d a b, HeldAs (.vmovg t d a b) VExtra.none fun _ => True) ∧ (∀ d a b m, HeldAs (.vamax d a b m) VExtra.none fun _ => True) ∧
  (∀ d a, HeldAs (.kpopc d a) VExtra.none fun _ => True) ∧ (∀ d a, HeldAs (.kfirst d a) VExtra.none fun _ => True)

/-- R203, R205, R206 and R236: the vector loads and stores. Each active element passes its check at issue; the entry holds their
places; a load holds its task. The addresses are g[A] + i·size, g[A] + i·g[B], and g[A] + size·(element i of v[B]), mod 2^64.
(That a queued write of the mask holds the issue is the reading of log entry 21.) -/
def Claims.VectorAccessIssues : Prop :=
  let size (t : ElemType) : Nat := t.width / 8
  let flat (t : ElemType) (a : GReg) (s : State) (n : Nat) : Word := s.me.gval a + BitVec.ofNat 64 (size t * n)
  let strided (a b : GReg) (s : State) (n : Nat) : Word := s.me.gval a + s.me.gval b * BitVec.ofNat 64 n
  let indexed (t : ElemType) (a : GReg) (b : VReg) (s : State) (n : Nat) : Word := s.me.gval a + BitVec.ofNat 64 (size t *
    elemOf (if b = 31 then (s.me.head.map (·.data)).getD 0 else s.me.vval b) (8 * size t) n)
  (∀ t d a m ps, HeldAs (.vld t d a m) (atPlaces ps) fun e => e.keeps (.vld t d a m) none ∧ e.places (.vld t d a m) t .read (flat t a e) ps) ∧
  (∀ t d a b m ps, HeldAs (.vldg t d a b m) (atPlaces ps) fun e => e.keeps (.vldg t d a b m) none ∧
    e.places (.vldg t d a b m) t .read (strided a b e) ps) ∧
  (∀ t d a b m ps, HeldAs (.vgather t d a b m) (atPlaces ps) fun e => e.keeps (.vgather t d a b m) (some b) ∧
    e.places (.vgather t d a b m) t .read (indexed t a b e) ps) ∧
  (∀ t d a m ps, QueuesAs (.vst t d a m) (atPlaces ps) fun e => e.atRoot ∧ e.keeps (.vst t d a m) none ∧
    e.places (.vst t d a m) t .write (flat t a e) ps ∧
    ∀ p ∈ ps, ∃ pa va c, p.2 = .mem pa va c) ∧
  (∀ t d a b m ps, QueuesAs (.vstg t d a b m) (atPlaces ps) fun e => e.atRoot ∧ e.keeps (.vstg t d a b m) none ∧
    e.places (.vstg t d a b m) t .write (strided a b e) ps ∧
    ∀ p ∈ ps, ∃ pa va c, p.2 = .mem pa va c) ∧
  (∀ t d a b m ps, QueuesAs (.vscatter t d a b m) (atPlaces ps) fun e => e.atRoot ∧ e.keeps (.vscatter t d a b m) (some b) ∧
    e.places (.vscatter t d a b m) t .write (indexed t a b e) ps ∧ ∀ p ∈ ps, ∃ pa va c, p.2 = .mem pa va c)

/-- R122, R203 and R205: `pld` and `pst` at an aligned offset of a READY tile. -/
def Claims.ScratchpadIssues : Prop :=
  (∀ d a, HeldAs (.pld d a) VExtra.none fun e => e.padOk (e.me.gval a).toNat) ∧
  (∀ d a, QueuesAs (.pst d a) VExtra.none fun e => e.padOk (e.me.gval a).toNat)

/-- R207 and R208: a free lane group of a cell goes to the head entry of a core whose turn it is; and whatever core the arbiter
chooses, its head is grantable. -/
def Obligations.VectorGrants : Prop :=
  (∀ (w : Nat → Nat) (ready : Nat → Bool) (a b : Arbiter) (c : Nat), arbitrate w ready a = (some c, b) → c < 8 ∧ ready c = true) ∧
  (∀ (s : State) (n k : Nat) (e : VEntry) (rest : List VEntry), s.ev[0]? = some n → n < 512 → (s.cell n).lanes.length < 4 →
    (s.cell n).varb.turn.toNat = k → 0 < s.weight Launch.vw (8 * n + k) → 0 < (s.cell n).varb.left →
    (s.core (8 * n + k)).vq = e :: rest → e.granted = false → (∀ f ∈ rest, f.granted = false) →
    ∃ u, exec .vectorLaneGrant s = .next u ∧ (u.core (8 * n + k)).vq = { e with granted := true } :: rest ∧
      (u.cell n).lanes = (s.cell n).lanes ++ [8 * n + k] ∧ (u.cell n).varb.left = (s.cell n).varb.left - 1 ∧
      u.slots = s.slots ∧ u.ms = s.ms)

/-- R203 to R205: a VEC entry that completes writes its results and collects its flags, and leaves the queue and its lane group. A
result for v31 or g31 lands in the entry reserved for it. -/
def Claims.VectorCompletes : Prop := ∀ (s : State) (core : Nat) (e : VEntry) (rest : List VEntry),
  let o := vecOut (e.ctx (s.slot e.slot) 0) e.instr
  s.ev[0]? = some core → (s.core core).vq = e :: rest → e.granted = true → coreOf e.slot = core → e.rep = none → e.admits = [] →
  e.dest = none → (s.slot e.slot).st ≠ .free →
  isQueuedVec e.instr = true ∨ isHeldVec e.instr = true → pushesV31 e.instr = false → pushes31 e.instr = false →
  ∃ u, exec .vectorEntryComplete s = .next u ∧ (u.core core).vq = rest ∧
    (u.cell (core / 8)).lanes = (s.cell (core / 8)).lanes.erase core ∧ u.ms = s.ms ∧
    (∀ k, k ≠ e.slot → u.slot k = s.slot k) ∧
    u.slot e.slot =
      let x := o.vs.foldl (fun x r => x.setV r.1 r.2) (s.slot e.slot)
      let x := o.ms.foldl (fun x r => x.setM r.1 r.2) x
      let x := o.gs.foldl (fun x r => x.setG r.1 r.2) x
      { x with fflags := x.fflags ||| o.fl }

/-- R198 to R200, R218 to R220 and R228: elementwise results. An active element is the operation on the sources' elements, an
inactive one the old element of the destination; integers wrap. -/
def Claims.VectorElements : Prop :=
  let signed (t : ElemType) (x : Nat) : Int := if t.isSigned then (BitVec.ofNat t.width x).toInt else ((x % 2 ^ t.width : Nat) : Int)
  let binary (mk : ElemType → VReg → VReg → VReg → MReg → Instr) (p : ElemType → Prop) (f : ElemType → Nat → Nat → Nat) : Prop :=
    ∀ t d a b m (c : VCtx) (i : Nat), p t → i < elemCount t → t.width = 8 ∨ t.width = 16 ∨ t.width = 32 →
      ∃ v, (vecOut c (mk t d a b m)).vs = [(d, v)] ∧ elemOf v t.width i = if (c.mask m).getLsbD i
        then f t (elemOf (c.rv a) t.width i) (elemOf (c.rv b) t.width i) % 2 ^ t.width else elemOf (c.old d) t.width i
  let int (t : ElemType) : Prop := t.isInt = true
  let any (_ : ElemType) : Prop := True
  binary .vadd int (fun _ x y => x + y) ∧ binary .vsub int (fun t x y => x + (2 ^ t.width - y)) ∧ binary .vmul int (fun _ x y => x * y) ∧
  binary .vmin int (fun t x y => if signed t y < signed t x then y else x) ∧
  binary .vmax int (fun t x y => if signed t x < signed t y then y else x) ∧
  binary .vand any (fun _ x y => x &&& y) ∧ binary .vor any (fun _ x y => x ||| y) ∧ binary .vxor any (fun _ x y => x ^^^ y) ∧
  binary .vshl any (fun t x y => x * 2 ^ (y % t.width)) ∧ binary .vshr any (fun t x y => x / 2 ^ (y % t.width)) ∧
  (∀ t d a m (c : VCtx) (i : Nat), i < elemCount t → t.width = 8 ∨ t.width = 16 ∨ t.width = 32 →
    ∃ v, (vecOut c (.vbcast t d a m)).vs = [(d, v)] ∧
      elemOf v t.width i = if (c.mask m).getLsbD i then (c.g 0).toNat % 2 ^ t.width else elemOf (c.old d) t.width i) ∧
  (∀ t d a b m (c : VCtx) (i : Nat), i < elemCount t → t.width = 8 ∨ t.width = 16 ∨ t.width = 32 →
    ∃ v, (vecOut c (.vsel t d a b m)).vs = [(d, v)] ∧
      elemOf v t.width i = elemOf (if (c.mask m).getLsbD i then c.rv a else c.rv b) t.width i)

/-- R234: masks as 1,024 bits; `kpopc` counts the ones and `kfirst` gives the lowest, or all ones where there is none. -/
def Obligations.MaskOutcomes : Prop := ∀ (c : VCtx) (d a b : MReg) (g : GReg),
  (vecOut c (.kand d a b)).ms = [(d, c.mask a &&& c.mask b)] ∧ (vecOut c (.kor d a b)).ms = [(d, c.mask a ||| c.mask b)] ∧
  (vecOut c (.kxor d a b)).ms = [(d, c.mask a ^^^ c.mask b)] ∧ (vecOut c (.knot d a)).ms = [(d, ~~~c.mask a)] ∧
  (vecOut c (.kpopc g a)).gs = [(g, BitVec.ofNat 64 ((List.range 1024).countP fun i => (c.mask a).getLsbD i))] ∧
  (∀ i, i < 1024 → (c.mask a).getLsbD i = true → (∀ j, j < i → (c.mask a).getLsbD j = false) →
    (vecOut c (.kfirst g a)).gs = [(g, BitVec.ofNat 64 i)]) ∧
  (c.mask a = 0 → (vecOut c (.kfirst g a)).gs = [(g, BitVec.allOnes 64)])

/-- R200 and R236: a vector load from pages that are not cacheable gives each listed element what the task sees, and keeps the others; a
vector store at the root writes its elements at their homes and no other byte. -/
def Obligations.VectorMemoryCompletes : Prop := ∀ (s : State) (core : Nat) (e : VEntry) (rest : List VEntry) (t : ElemType) (d : VReg)
    (a : GReg) (m : MReg),
  let size := t.width / 8
  s.ev[0]? = some core → (s.core core).vq = e :: rest → e.granted = true → coreOf e.slot = core → e.rep = none → e.admits = [] →
  (s.slot e.slot).st ≠ .free → (s.slot e.slot).partner = none → d ≠ 31 → t.width = 8 ∨ t.width = 16 ∨ t.width = 32 →
  (∀ p ∈ e.places, ∃ pa va, p.2 = .mem pa va false ∧ pa % size = 0 ∧ pkgOf pa = s.ws.own) →
  (e.places.map (·.1)).Nodup → s.hyps.eff e.hyp = 0 → (s.slot e.slot).wc = [] →
  (e.instr = .vld t d a m → (∀ p ∈ e.places, ∀ pa va c, p.2 = .mem pa va c → s.ms.checkOf (lineAddr pa) = .good ∧
      s.heldLine (lineAddr pa) = false) →
    ∃ u, exec .vectorEntryComplete s = .next u ∧ (u.core core).vq = rest ∧ SameMemory s u ∧
      ∀ i, i < elemCount t → elemOf ((u.slot e.slot).vval d) t.width i = match e.places.find? fun p => p.1 = 8 * i with
        | some (_, .mem pa _ _) => lineBytes (s.ms.homeLine (lineAddr pa)) (pa % 64) size
        | _ => elemOf ((s.slot e.slot).vval d) t.width i) ∧
  (e.instr = .vst t d a m → s.noInjection → (∀ p ∈ e.places, ∀ pa va c, p.2 = .mem pa va c → s.live (homeOf pa) = true ∧
      s.heldLine (lineAddr pa) = false ∧ s.ms.checkOf (lineAddr pa) ≠ .single) →
    (e.places.Pairwise fun p q => ∀ pa va c pb vb cb, p.2 = .mem pa va c → q.2 = .mem pb vb cb → pa ≠ pb) →
    ∃ u, exec .vectorEntryComplete s = .next u ∧ (u.core core).vq = rest ∧
      (∀ p ∈ e.places, ∀ pa va c k, p.2 = .mem pa va c → k < size →
        u.byteAt (pa + k) = BitVec.ofNat 8 (elemOf ((s.slot e.slot).vval d) t.width (p.1 / 8) / 256 ^ k)) ∧
      (∀ b, (∀ p ∈ e.places, ∀ pa va c, p.2 = .mem pa va c → b < pa ∨ pa + size ≤ b) → u.byteAt b = s.byteAt b))

/-- R115, R116, R123 and R124: `tstat` reads a tile's entry, `tready` makes an EMPTY tile READY and `tempty` a READY tile EMPTY. -/
def Obligations.TileOutcomes : Prop := ∀ (a : GReg) (s : State),
  let g := s.me.gval a
  tileIndexOk s.me.part g.toNat = true → s.unnamed g.toNat →
  let x := s.here.tile g.toNat
  let code : Nat := match x.st with
    | .empty => 0
    | .filling => 1
    | .ready => 2
    | .draining => 3
  let upd (st : TileState) : State := s.setCore (coreOf s.cur) { s.here with tiles := tblSet .empty s.here.tiles g.toNat ⟨st, 0⟩ }
  (∀ d, s.runs (.tstat d a) = true → exec (.tstat d a) s = .next ((s.put d (BitVec.ofNat 64
    (code + (if isDiscardable s.me.part g.toNat then 4 else 0) + x.owner * 256))).done (.tstat d a))) ∧
  (s.runs (.tready a) = true → x.st = .empty → exec (.tready a) s = .next ((upd .ready).done (.tready a))) ∧
  (s.runs (.tempty a) = true → x.st = .ready → exec (.tempty a) s = .next ((upd .empty).done (.tempty a)))

/-- R126: CheckFlip: an armed barrier with nothing pending and no arrival outstanding changes its phase, takes EXPECTED arrivals
again, and stays armed where AUTO is set; no other barrier changes. -/
def Claims.BarrierFlips : Prop := ∀ b : Bar,
  (b.armed = true → b.pending = 0 → b.arrivals = 0 → b.flip = { b with phase := !b.phase, arrivals := b.expected, armed := b.auto }) ∧
  (b.armed = false ∨ b.pending ≠ 0 ∨ b.arrivals ≠ 0 → b.flip = b)

/-- R125 to R130: the barrier instructions at an aligned offset of a READY tile, on a barrier that is not corrupt; `bararr` and `bardrop` of a
task whose stores have executed and that has nothing buffered. -/
def Claims.BarrierOutcomes : Prop := ∀ (a b : GReg) (s : State),
  let off := (s.me.gval a).toNat
  let w := s.me.gval b
  let bar := s.here.bar off
  let upd (x : Slot) (y : Bar) : State := (s.setMe x).setCore (coreOf s.cur) (s.here.setBar off y)
  off % 16 = 0 → off < 4096 * nTiles s.me.part → (s.here.tile (off / 4096)).st = .ready → bar.corrupt = false → (∀ e ∈ s.here.vq, e.tile ≠ some (off / 4096)) →
  tblGet .good s.here.poison (off / 4096) = .good →
  (s.runs (.barinit a b) = true → w.toNat < 2 ^ 17 → (s.me.barReg.any fun e => e.off = off) = false → s.me.barReg.length < 4 →
    exec (.barinit a b) s = .next ((upd { s.me with barReg := s.me.barReg ++ [⟨off, none⟩] }
      ⟨0, w.toNat % 65536, w.toNat % 65536, false, w.getLsbD 16, w.getLsbD 16, 0⟩).done (.barinit a b))) ∧
  (s.runs (.barpost a b) = true → bar.pending + w.toNat ≤ 2 ^ 63 - 1 → exec (.barpost a b) s =
    .next ((upd s.me { bar with pending := bar.pending + w.toNat, armed := true }).done (.barpost a b))) ∧
  (s.runs (.bararr a) = true → s.storesQueued s.cur = false → s.me.wc = [] → bar.arrivals ≠ 0 → (s.me.barReg.any fun e => e.off = off) = false → s.me.barReg.length < 4 →
    exec (.bararr a) s = .next ((upd { s.me with barReg := s.me.barReg ++ [⟨off, some bar.phase⟩] }
      { bar with arrivals := bar.arrivals - 1 }).done (.bararr a))) ∧
  (s.runs (.bardrop a) = true → s.storesQueued s.cur = false → s.me.wc = [] → bar.expected ≠ 0 → s.me.barReg = [⟨off, some bar.phase⟩] →
    exec (.bardrop a) s = .next ((upd { s.me with barReg := [] } { bar with expected := bar.expected - 1 }).done (.bardrop a))) ∧
  (s.runs (.barwait a b) = true → bar.phase ≠ w.getLsbD 0 → exec (.barwait a b) s = .next (s.done (.barwait a b)))

/-- Entries of the vector queue and scratchpad instructions at issue. -/
def Obligations.VectorsIssue : Prop := Claims.VectorIssues ∧ Claims.HeldVectorIssues ∧ Claims.VectorAccessIssues ∧ Claims.ScratchpadIssues

/-- Entries of the vector queue at their completion, element by element. -/
def Obligations.VectorResults : Prop := Claims.VectorCompletes ∧ Claims.VectorElements

/-- Arrivals and the instructions on barriers. -/
def Obligations.Barriers : Prop := Claims.BarrierFlips ∧ Claims.BarrierOutcomes

/-! ### The matrix unit -/

/-- R240 and R245: `oclaim` of a FREE slot claims it for the core, EMPTY, and queues its zeroing, with answer 0; it answers 1 where the
core holds it and 2 where another does. `orelease` frees it once no queued entry of the core names it. -/
def Claims.OperandSlots : Prop := ∀ (d : GReg) (a : OReg) (s : State),
  let i := Instr.oclaim d a
  let e := s.entered i
  (s.runs i = true → (s.opSlot (cellOf s.cur) a.toNat).holder = none → s.here.mq.length < 8 →
    exec i s = .next ((((e.setOpSlot (cellOf s.cur) a.toNat
      { s.opSlot (cellOf s.cur) a.toNat with holder := some (coreOf s.cur), ready := false }).mxPlaced i 0 0 []).put d 0).done i)) ∧
  (s.runs i = true → s.holdsOp a → exec i s = .next ((e.put d 1).done i)) ∧
  (∀ c, s.runs i = true → (s.opSlot (cellOf s.cur) a.toNat).holder = some c → c ≠ coreOf s.cur →
    exec i s = .next ((e.put d 2).done i)) ∧
  (let j := Instr.orelease a
   s.runs j = true → s.holdsOp a → (∀ m ∈ s.here.mq, m.opSlots.contains a.toNat = false) →
    exec j s = .next (((s.entered j).setOpSlot (cellOf s.cur) a.toNat .free).done j))

/-- R243 and R244: `mxset` takes a valid control word, and raises MX.CONFIG on another with MXCTL unchanged; `mxget` reads it. -/
def Claims.MatrixControl : Prop :=
  (∀ (a : GReg) (s : State), s.runs (.mxset a) = true →
    (mxctlOk (s.me.gval a) = true → exec (.mxset a) s = .next
      (((s.entered (.mxset a)).setMe { (s.entered (.mxset a)).me with mxctl := s.me.gval a }).done (.mxset a))) ∧
    (mxctlOk (s.me.gval a) = false → s.hasHandler = true →
      exec (.mxset a) s = .next ((s.entered (.mxset a)).trapped .mxConfig (s.me.gval a)))) ∧
  (∀ (d : GReg) (s : State), s.runs (.mxget d) = true →
    exec (.mxget d) s = .next (((s.entered (.mxget d)).put d s.me.mxctl).done (.mxget d))) ∧
  mxctlOk 0xC0BB = true ∧ mxctlOk 0x83232 = true ∧ mxctlOk 0xB0BB = true ∧ mxctlOk 0x400 = true ∧ mxctlOk 0xC0BA = true ∧
  mxctlOk 0xC0B3 = false ∧ mxctlOk 0x3032 = true ∧ mxctlOk 0x5C0BB = false ∧ mxctlOk 0x100C0BB = false ∧ mxctlOk 0x4BB = false

/-- R206, R241, R246 to R249, R252 and R255: the engine commands of the matrix unit, whose issue checks, marks the tiles and
queues the entry. -/
def Claims.MatrixIssues : Prop :=
  (∀ (d : CReg) (s : State), let i := Instr.mxzero d
    s.runs i = true → s.accIn d .empty →
    exec i s = .next ((((s.entered i).withTile (0x80 + d.toNat) .filling 2).mxPlaced i 0 0 []).done i)) ∧
  (∀ (d : CReg) (a b : GReg) (ps : List Place) (s : State), let i := Instr.mxloadc d a b
    s.runs i = true → s.accIn d .empty → (s.me.gval a).toNat % 64 = 0 → (s.me.gval b).toNat % 64 = 0 →
    (s.entered i).rowPlaces .read (s.me.gval a) (s.me.gval b) (if s.me.mxctl.getLsbD 10 then 8 else 4) ps →
    exec i s = .next ((((s.entered i).withTile (0x80 + d.toNat) .filling 2).mxPlaced i (s.me.gval a) (s.me.gval b) ps).done i)) ∧
  (∀ (d : CReg) (a b : GReg) (ps : List Place) (s : State), let i := Instr.mxstore d a b
    s.runs i = true → s.accIn d .ready → (s.me.gval a).toNat % 64 = 0 → (s.me.gval b).toNat % 64 = 0 → s.atRoot →
    (s.entered i).rowPlaces .write (s.me.gval a) (s.me.gval b) (outBytes s.me.mxctl) ps → (∀ p ∈ ps, ∃ pa va c, p = .mem pa va c) →
    exec i s = .next ((((s.entered i).withTile (0x80 + d.toNat) .draining 2).mxPlaced i (s.me.gval a) (s.me.gval b) ps).done i)) ∧
  (∀ (d : CReg) (a b : OReg) (s : State), let i := Instr.mxmul d a b
    s.runs i = true → d.toNat < accCount s.me.part → (s.here.tile (0x80 + d.toNat)).st = .ready → s.here.mq.length < 8 →
    s.holdsOp a → s.holdsOp b → (s.opSlot (cellOf s.cur) a.toNat).ready = true → (s.opSlot (cellOf s.cur) b.toNat).ready = true →
    exec i s = .next (((s.entered i).mxPlaced i 0 0 []).done i)) ∧
  (∀ (d : OReg) (a b : GReg) (t : Nat) (s : State), let i := Instr.oload d a b
    s.runs i = true → s.holdsOp d → loadControlOk (s.me.gval b) = true → (s.me.gval a).toNat % 64 = 0 →
    loadTiles (s.me.gval a) (s.me.gval b) = [t] → t < nTiles s.me.part → s.unnamed t → (s.here.tile t).st = .ready →
    s.here.mq.length < 8 →
    exec i s = .next (((((s.entered i).withTile t .draining 2).setOpSlot (cellOf s.cur) d.toNat
      { s.opSlot (cellOf s.cur) d.toNat with ready := true }).mxPlaced i (s.me.gval a) (s.me.gval b) []).done i))

/-- R254: `mxwait` goes on where no earlier entry of the core names the tile, and `mxdrain` where no entry of its task is queued. -/
def Claims.MatrixWaits : Prop :=
  (∀ (a : CReg) (s : State), let i := Instr.mxwait a
    s.runs i = true → a.toNat < accCount s.me.part → (∀ e ∈ s.here.mq, 0 < e.order) →
    (∀ e ∈ s.here.mq, e.tiles.contains (0x80 + a.toNat) = false) → exec i s = .next ((s.entered i).done i)) ∧
  (∀ s : State, s.runs .mxdrain = true → (∀ e ∈ s.here.mq, e.slot ≠ s.cur) → exec .mxdrain s = .next ((s.entered .mxdrain).done .mxdrain))

/-- R249 and R251: the dot units run one block step of the head entry of the core whose turn it is, which writes the accumulator tile that
the entry names and no other. -/
def Claims.MatrixBlockSteps : Prop := ∀ (s : State) (n k : Nat) (e : MEntry) (rest : List MEntry) (d : CReg) (a b : OReg),
  s.ev[0]? = some n → n < 512 → (s.cell n).marb.turn.toNat = k → 0 < s.weight Launch.mw (8 * n + k) → 0 < (s.cell n).marb.left →
  (s.core (8 * n + k)).mq = e :: rest → e.instr = .mxmul d a b → e.blocks < 16 → s.noInjection →
  (s.opSlot n a.toNat).check = .good → (s.opSlot n b.toNat).check = .good →
  tblGet .good (s.core (8 * n + k)).poison (0x80 + d.toNat) = .good → tblWf 0 (s.core (8 * n + k)).acc = true →
  ∃ u, exec .matrixBlockGrant s = .next u ∧ (u.core (8 * n + k)).mq = { e with blocks := e.blocks + 1 } :: rest ∧
    (u.cell n).marb.left = (s.cell n).marb.left - 1 ∧ u.slots = s.slots ∧ u.ms = s.ms ∧
    ∀ x, x / 32768 ≠ d.toNat → tblGet 0 (u.core (8 * n + k)).acc x = tblGet 0 (s.core (8 * n + k)).acc x

/-- R187 and R249: with integer operands an element of the tile gains the sum of the products of the rows' elements, to 32 bits. -/
def Claims.MatrixIntegerProduct : Prop := ∀ (c : Word) (a b : OpRow) (acc : Nat),
  mxctlOk c = true → ctlF64 c = false → mxInt c = true →
  mxElem c a b acc = (BitVec.ofInt 32 ((BitVec.ofNat 32 acc).toInt + ((List.range (6 * (512 / (ctlA c).width))).map fun k =>
    a.int (ctlA c) (c.getLsbD 8) k * b.int (ctlB c) (c.getLsbD 9) k).sum)).toNat

/-- R241, R245, R248 and R249: the head entry of a core's matrix queue completes and leaves it: an `oclaim` has zeroed its slot, an `mxzero` its
tile, which is READY, and an `mxmul` has done its 16 block steps. -/
def Claims.MatrixCompletes : Prop := ∀ (s : State) (core : Nat) (e : MEntry) (rest : List MEntry),
  s.ev[0]? = some core → (s.core core).mq = e :: rest →
  (∀ d a, e.instr = .oclaim d a → ∃ u, exec .matrixEntryComplete s = .next u ∧ (u.core core).mq = rest ∧ u.slots = s.slots ∧
    u.opSlot (core / 8) a.toNat = { s.opSlot (core / 8) a.toNat with data := [], check := .good }) ∧
  (∀ d, e.instr = .mxzero d → ∃ u, exec .matrixEntryComplete s = .next u ∧ (u.core core).mq = rest ∧ u.slots = s.slots ∧
    (u.core core).tile (0x80 + d.toNat) = ⟨.ready, 0⟩ ∧
    ∀ x, tblGet 0 (u.core core).acc x = if x / 32768 = d.toNat then 0 else tblGet 0 (s.core core).acc x) ∧
  (∀ d a b, e.instr = .mxmul d a b → 16 ≤ e.blocks → ∃ u, exec .matrixEntryComplete s = .next u ∧ (u.core core).mq = rest ∧
    u.slots = s.slots ∧ (u.core core).acc = (s.core core).acc)

/-- Operand slots, accumulators and the configuration of the matrix unit. -/
def Obligations.MatrixSetup : Prop := Claims.OperandSlots ∧ Claims.MatrixControl

/-- Matrix instructions at issue, and where they wait. -/
def Obligations.MatrixQueue : Prop := Claims.MatrixIssues ∧ Claims.MatrixWaits

/-- The blocks of a product, its integer value, and the end of an entry. -/
def Obligations.MatrixProducts : Prop := Claims.MatrixBlockSteps ∧ Claims.MatrixIntegerProduct ∧ Claims.MatrixCompletes

/-! ### Engine registers, Carters and queues -/

/-- R8, R298 and R375: `eset` writes an engine register of the slot and `eget` reads it; of e20, RSTAT, the bits above 7 are reserved and
ignore the write. -/
def Claims.EngineRegisters : Prop := ∀ (n : BitVec 6) (a : GReg) (s : State),
  let v := if n = 20 then s.me.gval a &&& 0xFF else s.me.gval a
  (s.runs (.eset n a) = true → exec (.eset n a) s = .next
    (((s.entered (.eset n a)).setMe { (s.entered (.eset n a)).me with e := tblSet 0 s.me.e n.toNat v }).done (.eset n a))) ∧
  (s.runs (.eget n a) = true → exec (.eget n a) s = .next
    (((s.entered (.eget n a)).put a (tblGet 0 s.me.e n.toNat)).done (.eget n a)))

/-- R118, R300, R301 and R302: a `cpy` whose geometry and sides pass their checks releases, marks its tiles FILLING or DRAINING by
a Carter, and places its command with the Carter of its die that holds the fewest. (Which Carter that is on a tie is log entry
43's.) -/
def Claims.CopyIssues : Prop :=
  let issues (mk : GReg → GReg → Bool → Instr) (form : CpyForm) (st : TileState) : Prop :=
    ∀ (a b : GReg) (bar : Bool) (s : State) (c : Nat),
      let i := mk a b bar
      let e := s.entered i
      let src := (s.me.gval a).toNat
      let dst := (s.me.gval b).toNat
      let g := s.me.geometry
      let ts := copyTiles form g src dst (nTiles s.me.part)
      s.runs i = true → s.atRoot → s.me.badGeometry = none → s.me.wc = [] →
      (∀ x ∈ s.ms.l1, x.cell = cellOf s.cur → x.dirty = 0) →
      (bar = true → s.barOk (tblGet 0 s.me.e 10).toNat) →
      sideIn src (extent g g.s) (if form = .tm then 4096 * nTiles s.me.part else 2 ^ 56) →
      sideIn dst (extent g g.t) (if form = .mt then 4096 * nTiles s.me.part else 2 ^ 56) →
      (∀ t ∈ ts, s.unnamed t ∧ (s.here.tile t).st = if form = .mt then .empty else .ready) →
      (form ≠ .tm → ∃ p, e.access .allowed (s.me.gval a) 1 .read = .ok p) →
      (form ≠ .mt → ∃ p, e.access .allowed (s.me.gval b) 1 .write = .ok p) →
      s.freeCarter (dieOf s.cur) = some c →
      ∃ u, exec i s = .next (u.done i) ∧ SameMemory s u ∧ u.me = e.me ∧
        u.es = { s.es with cmds := s.es.cmds ++ [e.command form a b bar c ts], nextCmd := s.es.nextCmd + 1 } ∧
        ∀ t, u.here.tile t = if t ∈ ts then ⟨st, 1⟩ else s.here.tile t
  issues .cpyMm .mm .draining ∧ issues .cpyMt .mt .filling ∧ issues .cpyTm .tm .draining

/-- R302: the sector of a command that copies one run within a line to scratchpad writes its bytes and, being the last, ends the command
with its tiles READY. -/
def Claims.CarterSectors : Prop := ∀ (s : State) (c : CarterCmd) (n pa va : Nat) (cached : Bool) (tr : Option Trans),
  s.ev[0]? = some c.id → s.es.cmds.find? (fun d => d.id = c.id) = some c → (s.carterCmds c.die c.carter).head? = some c →
  s.live c.die = true → c.form = .mt → c.geo = ⟨n, [1, 1, 1], [0, 0, 0], [0, 0, 0]⟩ → 0 < n → c.src % 64 + n ≤ 64 →
  c.dst % 4096 + n ≤ 4096 → c.done = 0 → c.bar = none → c.signal = 0 → c.twin = none → c.queue = none →
  s.hyps.eff c.hyp = 0 → s.noInjection → c.src < 2 ^ 56 →
  checkPlace s c.agent .allowed (BitVec.ofNat 64 c.src) 1 .read = .ok (.mem pa va cached, tr) → pkgOf pa = s.ws.own →
  s.ms.checkOf (lineAddr pa) = .good → s.heldLine (lineAddr pa) = false →
  ∃ u, exec .carterSector s = .next u ∧ u.slots = s.slots ∧ SameMemory s u ∧
    u.es.cmds = s.es.cmds.filter (fun d => d.id ≠ c.id) ∧
    (u.core c.core).scratch = tblWriteN (s.core c.core).scratch c.dst n (lineBytes (s.ms.homeLine (lineAddr pa)) (pa % 64) n) ∧
    ∀ t, (u.core c.core).tile t = if t ∈ c.tiles then ⟨.ready, 0⟩ else (s.core c.core).tile t

/-- R306: once a `qput` has claimed an index that is free, it writes the packet's body, then the header with the phase bit of the index, then
NOTIFY, at their homes. -/
def Claims.QputPublishes : Prop := ∀ (a b : GReg) (s u : State) (p l w qcb entry : Nat),
  let i := Instr.qput a b
  s.runs i = true → qputClaim a b (s.entered i) = .ok [p, l, w, qcb, entry] u →
  u.cur = s.cur → u.me.st ≠ .free → u.me.partner = none → u.me.pend = none → u.indexFree qcb l w = true → u.noInjection →
  entry % 64 = 0 → qcb % 128 = 0 → u.homeLives entry → u.homeLives (qcb + 16) → u.released →
  qcb + 24 ≤ entry ∨ entry + 64 ≤ qcb + 16 → u.heldLine entry = false → u.heldLine qcb = false →
  u.ms.checkOf entry ≠ .single → u.ms.checkOf qcb ≠ .single →
  ∃ v : State, exec i s = .next (v.done i) ∧
    (∀ k, k < 56 → v.byteAt (entry + 8 + k) = BitVec.ofNat 8 (p / 2 ^ 64 / 256 ^ k)) ∧
    (∀ k, k < 8 → k ≠ 1 → v.byteAt (entry + k) = BitVec.ofNat 8 (p / 256 ^ k)) ∧
    (v.byteAt (entry + 1)).toNat = p / 2 ^ 8 % 256 / 2 * 2 + w / 2 ^ l % 2 ∧
    (∀ k, k < 8 → v.byteAt (qcb + 16 + k) = BitVec.ofNat 8 ((w + 1) % 2 ^ 63 / 256 ^ k)) ∧
    ∀ x, (x < entry ∨ entry + 64 ≤ x) → (x < qcb + 16 ∨ qcb + 24 ≤ x) → v.byteAt x = u.byteAt x

/-- Engine registers, and packets put into a queue. -/
def Obligations.EngineCommands : Prop := Claims.EngineRegisters ∧ Claims.QputPublishes

/-- Copies at issue, and their sectors moved by a Carter. -/
def Obligations.Copies : Prop := Claims.CopyIssues ∧ Claims.CarterSectors

/-! ### Reduction windows -/

/-- R381: `rwin` with valid registers opens a window of the package at the lowest free index, generation 0, with RSTAT 0, and writes 0 to the
generation word; a window that overlaps an open one has RSTAT 2. -/
def Claims.WindowOpens : Prop := ∀ (a : GReg) (op : RedOp) (s : State) (k : Nat) (p pg : Place) (t tg : Trans) (tr : Nat → Trans),
  let i := Instr.rwin a op
  let e := s.entered i
  let va := s.me.gval a
  let len := (tblGet 0 s.me.e 16).toNat
  let gw := tblGet 0 s.me.e 19
  s.runs i = true → va.toNat % 64 = 0 → 8 ≤ len → len ≤ 65536 → len % 8 = 0 →
  1 ≤ (tblGet 0 s.me.e 17).toNat → (tblGet 0 s.me.e 17).toNat ≤ 65535 →
  1 ≤ (tblGet 0 s.me.e 18).toNat → (tblGet 0 s.me.e 18).toNat ≤ 10000000 →
  (∀ r, r = 21 ∨ r = 22 ∨ r = 23 → tblGet 0 s.me.e r = 0) → gw.toNat % 8 = 0 → gw.toNat < va.toNat ∨ va.toNat + len ≤ gw.toNat →
  e.access .none va 64 .write = .ok (p, some t) →
  (∀ n, n < (len + 63) / 64 → (∃ q, e.access .none (BitVec.ofNat 64 (va.toNat + 64 * n)) 64 .write = .ok (q, some (tr n))) ∧
    (va.toNat + 64 * n) / 2 ^ pageShift (tr n).leaf.level = va.toNat / 2 ^ pageShift t.leaf.level ∧
    (tr n).leaf.level = t.leaf.level ∧ pkgOf (tr n).pa = s.ws.own) →
  e.access .none gw 8 .write = .ok (pg, some tg) → t.rdies = 0 → tg.rdies = 0 →
  pkgOf t.pa = s.ws.own → pkgOf tg.pa = s.ws.own →
  s.atRoot → s.noRegion → s.noInjection → s.homeLives tg.pa → s.ms.checkOf (lineAddr tg.pa) ≠ .single →
  s.me.wc = [] → (∀ x ∈ s.ms.l1, x.cell = cellOf s.cur → x.dirty = 0) →
  k < 256 → s.window k = none → (∀ j, j < k → s.window j ≠ none) →
  ((∀ x ∈ s.ws.windows, ∀ w, x.2 = some w → overlaps t.pa len w.base w.len = false) →
    ∃ u, exec i s = .next (u.done i) ∧ Wrote s u tg.pa 8 0 ∧ u.me = { e.me with e := tblSet 0 s.me.e 20 0 } ∧
      ∀ j, u.window j = if j = k then some ⟨t.pa, len, (tblGet 0 s.me.e 17).toNat, (tblGet 0 s.me.e 18).toNat, tg.pa, op, 0, [], [], [], [],
        [], [], false, false⟩ else s.window j) ∧
  ((∃ x ∈ s.ws.windows, ∃ w, x.2 = some w ∧ overlaps t.pa len w.base w.len = true) →
    ∃ u, exec i s = .next (u.done i) ∧ SameMemory s u ∧ u.me = { e.me with e := tblSet 0 s.me.e 20 2 } ∧ u.ws = s.ws)

/-- R381: `rclose` of a window that holds no contribution closes it, with RSTAT 0; where no window has the base, RSTAT is 3. -/
def Claims.WindowCloses : Prop := ∀ (a : GReg) (s : State) (p : Place) (t : Trans),
  let i := Instr.rclose a
  let e := s.entered i
  let has (x : Nat × Option Window) : Bool := match x.2 with
    | some w => w.base = t.pa
    | none => false
  s.runs i = true → e.access .none (s.me.gval a) 1 .write = .ok (p, some t) → pkgOf t.pa = s.ws.own → s.atRoot → s.noRegion →
  s.me.wc = [] → (∀ x ∈ s.ms.l1, x.cell = cellOf s.cur → x.dirty = 0) →
  (∀ k w, s.ws.windows.find? has = some (k, some w) → w.from0 = [] → w.from1 = [] →
    ∃ u, exec i s = .next (u.done i) ∧ SameMemory s u ∧ u.me = { e.me with e := tblSet 0 s.me.e 20 0 } ∧
      ∀ j, u.window j = if j = k then none else s.window j) ∧
  (s.ws.windows.find? has = none →
    ∃ u, exec i s = .next (u.done i) ∧ SameMemory s u ∧ u.me = { e.me with e := tblSet 0 s.me.e 20 3 } ∧ u.ws = s.ws)

/-- R373 and R382: `ramo` sends one contribution for the element at g[A], of the generation that its engine register holds, and notes that its
delivery is awaited; while flow control stops its virtual channel the slot waits. -/
def Claims.ContributionSent : Prop := ∀ (a b : GReg) (op : RedOp) (s : State) (p : Place) (t : Trans),
  let i := Instr.ramo a b op
  let e := s.entered i
  let k := (s.me.gval a).toNat % 8
  let va := s.me.gval a - BitVec.ofNat 64 k
  let sent : Contribution := ⟨t.pa, op, tblGet 0 s.me.e (24 + k), 1, s.me.gval b, [(2 ^ 15 * s.ws.own + s.cur, s.ws.nextId)],
    [s.ws.own * 4 + dieOf s.cur], true⟩
  s.runs i = true → e.access .none va 8 .write = .ok (p, some t) → t.rdies = 0 → s.atRoot → s.noRegion →
  s.me.wc = [] → (∀ x ∈ s.ms.l1, x.cell = cellOf s.cur → x.dirty = 0) →
  (s.ws.mustWait (pkgOf t.pa) 2 = true → ∃ u, exec i s = .next u ∧ SameMemory s u ∧ u.ws = s.ws ∧ u.me.st = .parked ∧ u.me.pc = s.me.pc) ∧
  (s.ws.mustWait (pkgOf t.pa) 2 = false → ∃ u, exec i s = .next (u.done i) ∧ SameMemory s u ∧
    u.ws = { s.ws with nextId := s.ws.nextId + 1, flying := s.ws.flying ++ [sent] } ∧
    u.me = { e.me with rpend := tblSet none s.me.rpend k (some ⟨va, t.pa, s.ws.nextId, none, 0⟩) })

/-- R383: `rwait` with no entry pending for its address sets RSTAT to 7; with a delivery there it sets RSTAT to the status, for DONE gives g[B]
the result, for DONE and ABORTED advances the generation, and frees the entry. -/
def Claims.DeliveryCollected : Prop := ∀ (a b : GReg) (s : State),
  let i := Instr.rwait a b
  let e := s.entered i
  let k := (s.me.gval a).toNat % 8
  let va := s.me.gval a - BitVec.ofNat 64 k
  s.runs i = true →
  (tblGet none s.me.rpend k = none → exec i s = .next ((e.setMe { e.me with e := tblSet 0 s.me.e 20 7 }).done i)) ∧
  (∀ p st, tblGet none s.me.rpend k = some p → p.addr = va → p.status = some st →
    ∃ u, exec i s = .next (u.done i) ∧ SameMemory s u ∧ tblGet 0 u.me.e 20 = BitVec.ofNat 64 st ∧
      (b ≠ 0 → b ≠ 31 → u.me.gval b = if st = 0 then p.result else s.me.gval b) ∧
      tblGet 0 u.me.e (24 + k) = (if st = 0 ∨ st = 4 then tblGet 0 s.me.e (24 + k) + 1 else tblGet 0 s.me.e (24 + k)) ∧
      tblGet none u.me.rpend k = none)

/-- R383: a delivery that reaches its slot is taken by the entry that waits for it, and by no other. -/
def Claims.DeliveryArrives : Prop := ∀ (s : State) (n : Nat) (d : Delivery),
  s.ev[0]? = some n → s.ws.deliveries[n]? = some d → d.slot / 2 ^ 15 = s.ws.own →
  ∃ u, exec .windowDelivery s = .next u ∧ u.ws = { s.ws with deliveries := s.ws.deliveries.eraseIdx n } ∧ u.ms = s.ms ∧
    ∀ t k, tblGet none (u.slot t).rpend k = (tblGet none (s.slot t).rpend k).map fun p =>
      if p.id = d.id ∧ p.status = none then { p with status := some d.status, result := d.result } else p

/-- R377 and R378: a router merges two contributions that it holds for one window, element, operation and generation, and forwards what
it held. -/
def Claims.RouterOutcomes : Prop :=
  (∀ (s : State) (m n : Nat) (x y : Contribution) (rest : List Nat), s.ev = 0 :: m :: n :: rest → m ≠ n →
    s.ws.flying[m]? = some x → s.ws.flying[n]? = some y → x.held = true → y.held = true → x.pa = y.pa → x.op = y.op → x.gen = y.gen →
    let z : Contribution := ⟨x.pa, x.op, x.gen, x.count + y.count, redMerge x.op x.value y.value, x.origins ++ y.origins,
      x.dies ++ y.dies, true⟩
    exec .routerContribution s = .next { s with ws := { s.ws with flying := (s.ws.flying.set m z).eraseIdx n } }) ∧
  (∀ (s : State) (n : Nat) (x : Contribution), s.ev[0]? = some n → s.ws.flying[n]? = some x → x.held = true →
    exec .routerHoldExpiry s = .next { s with ws := { s.ws with flying := s.ws.flying.set n { x with held := false } } })

/-- R378: what a contribution does that arrives at a home of the package: no window is NOWIN (3), a generation that is over STALE (5), one
beyond the next AHEAD (6); else it is counted, and the one that completes a window of one element writes the result and the next
generation, and every contributor gets the result. -/
def Claims.ContributionArrives : Prop := ∀ (s : State) (n : Nat) (c : Contribution),
  let hit (x : Nat × Option Window) : Bool := match x.2 with
    | some w => decide (w.base ≤ c.pa) && decide (c.pa < w.base + w.len) && w.op = c.op
    | none => false
  let answered (st : Nat) (r : Word) (f : List Delivery) (cs : List Contribution) : List Delivery :=
    f ++ cs.flatMap fun c => c.origins.map fun o => ⟨o.1, o.2, st, r⟩
  let left := { s.ws with flying := s.ws.flying.eraseIdx n }
  s.ev[0]? = some n → s.ws.flying[n]? = some c → c.held = false → pkgOf c.pa = s.ws.own →
  (s.ws.windows.find? hit = none → exec .contributionArrive s =
    .next { s with ws := { left with deliveries := answered 3 0 s.ws.deliveries [c] } }) ∧
  (∀ k w, s.ws.windows.find? hit = some (k, some w) →
    (c.gen.toNat < w.gen.toNat → exec .contributionArrive s =
      .next { s with ws := { left with deliveries := answered 5 0 s.ws.deliveries [c] } }) ∧
    (w.gen.toNat + 1 < c.gen.toNat → exec .contributionArrive s =
      .next { s with ws := { left with deliveries := answered 6 0 s.ws.deliveries [c] } }) ∧
    (c.gen = w.gen → w.len % 8 = 0 → w.len ≠ 0 → tblGet 0 w.cnt0 ((c.pa - w.base) / 8) + c.count < w.expected → ∃ u, exec .contributionArrive s = .next u ∧
      SameMemory s u ∧ u.ws.deliveries = s.ws.deliveries ∧ ∃ v, u.window k = some v ∧ v.gen = w.gen ∧
      tblGet 0 v.cnt0 ((c.pa - w.base) / 8) = tblGet 0 w.cnt0 ((c.pa - w.base) / 8) + c.count ∧
      tblGet none v.acc0 ((c.pa - w.base) / 8) = some (redInto w.op (tblGet none w.acc0 ((c.pa - w.base) / 8)) c.value)) ∧
    (c.gen = w.gen → w.len = 8 → c.pa = w.base → (∀ x ∈ w.from0, x.pa = w.base) → tblGet 0 w.cnt0 0 + c.count = w.expected → w.base % 8 = 0 → w.genPa % 8 = 0 →
      w.genPa + 8 ≤ w.base ∨ w.base + 8 ≤ w.genPa → s.noInjection → s.homeLives w.base → s.homeLives w.genPa →
      s.ms.checkOf (lineAddr w.base) ≠ .single → s.ms.checkOf (lineAddr w.genPa) ≠ .single → w.doomed = false →
      let r := redInto w.op (tblGet none w.acc0 0) c.value
      ∃ u, exec .contributionArrive s = .next u ∧
        (∀ x, u.byteAt x = if w.base ≤ x ∧ x < w.base + 8 then BitVec.ofNat 8 (r.toNat / 256 ^ (x - w.base))
          else if w.genPa ≤ x ∧ x < w.genPa + 8 then BitVec.ofNat 8 ((w.gen + 1).toNat % 2 ^ 63 / 256 ^ (x - w.genPa)) else s.byteAt x) ∧
        u.ws.deliveries = answered 0 r s.ws.deliveries (w.from0 ++ [c]) ∧
        ∃ v, u.window k = some v ∧ v.gen = w.gen + 1 ∧ v.from0 = w.from1 ∧ v.acc0 = w.acc1))

/-- R379: when the timer of a generation expires, the generation word holds the next number with bit 63 set, every contributor gets
ABORTED (4), and the next generation becomes current. -/
def Claims.WindowTimesOut : Prop := ∀ (s : State) (k : Nat) (w : Window),
  s.ev[0]? = some k → s.window k = some w → w.timer = true → w.genPa % 8 = 0 → s.noInjection → s.homeLives w.genPa →
  s.ms.checkOf (lineAddr w.genPa) ≠ .single → w.doomed = false →
  ∃ u, exec .windowTimeout s = .next u ∧ Wrote s u w.genPa 8 ((w.gen + 1).toNat % 2 ^ 63 + 2 ^ 63) ∧
    u.ws.deliveries = s.ws.deliveries ++ w.from0.flatMap (fun c => c.origins.map fun o => ⟨o.1, o.2, 4, 0⟩) ∧
    ∃ v, u.window k = some v ∧ v.gen = w.gen + 1 ∧ v.from0 = w.from1 ∧ v.from1 = [] ∧ v.acc0 = w.acc1

/-- Reduction windows opened and closed. -/
def Obligations.WindowsOpenAndClose : Prop := Claims.WindowOpens ∧ Claims.WindowCloses

/-- A contribution sent and its delivery. -/
def Obligations.ContributionsTravel : Prop := Claims.ContributionSent ∧ Claims.DeliveryCollected ∧ Claims.DeliveryArrives

/-- Routers, homes and timers of reduction windows. -/
def Obligations.WindowsMerge : Prop := Claims.RouterOutcomes ∧ Claims.ContributionArrives ∧ Claims.WindowTimesOut

/-! ### Tensors -/

/-- R260, R266 and R268: `hload` makes a handle of a valid descriptor in memory; `hstore` writes a handle's descriptor to memory, 128 bytes,
and the handle then names that address. -/
def Claims.HandlesInMemory : Prop := ∀ (d : HReg) (a : GReg) (s : State) (tr : Nat → Trans),
  let va := s.me.gval a
  (let i := Instr.hload d a
   let e := s.entered i
   s.runs i = true → e.descAt va .read tr → descOk (s.descFrom tr) = true →
     exec i s = .next ((e.withHandle d ⟨true, va, s.descFrom tr⟩).done i)) ∧
  (let i := Instr.hstore d a
   let e := s.entered i
   let h := s.handle d
   s.runs i = true → h.valid = true → e.descAt va .write tr → s.noInjection → s.homeLives (tr 0).pa →
     (∀ n, n < 16 → (tr n).pa = (tr 0).pa + 8 * n) → (tr 0).pa % 128 = 0 →
     (∀ r ∈ s.es.relayouts, r.asid = s.me.asid → r.daddr ≠ h.daddr.toNat ∧ r.daddr ≠ va.toNat) →
     ∃ u : State, exec i s = .next (u.done i) ∧ u.handle d = { h with daddr := va } ∧
       ∀ x, u.byteAt x = if (tr 0).pa ≤ x ∧ x < (tr 0).pa + 128 then h.desc.extractLsb' (8 * (x - (tr 0).pa)) 8 else s.byteAt x)

/-- R266 and R268: `hquery` gives a field of a handle's descriptor; an invalid handle raises TENSOR.HANDLE with its number, a selector
above 16 TENSOR.ARG with it. -/
def Claims.HandleQueries : Prop := ∀ (d b : GReg) (a : HReg) (s : State),
  let i := Instr.hquery d a b
  let e := s.entered i
  let x := (s.handle a).desc
  let sel := (s.me.gval b).toNat
  let field (k lo n : Nat) : Prop := sel = k → exec i s = .next ((e.put d ((x >>> lo).setWidth n |>.setWidth 64)).done i)
  s.runs i = true →
  ((s.handle a).valid = false → s.hasHandler = true → exec i s = .next (e.trapped .tensorHandle (BitVec.ofNat 64 a.toNat))) ∧
  ((s.handle a).valid = true →
    field 0 0 64 ∧ field 1 64 32 ∧ field 2 96 8 ∧ field 3 128 32 ∧ field 4 160 32 ∧ field 5 192 32 ∧ field 6 224 32 ∧ field 7 256 32 ∧
    field 8 320 64 ∧ field 9 384 64 ∧ field 10 448 32 ∧ field 11 512 64 ∧ field 12 104 1 ∧ field 15 576 64 ∧ field 16 640 64 ∧
    (sel = 13 → exec i s = .next ((e.put d (s.handle a).daddr).done i)) ∧
    (sel = 14 → Desc.tag x % 16 ≠ 5 →
      exec i s = .next ((e.put d (BitVec.ofNat 64 (sizeOf_ (Desc.tag x) (Desc.dims x)))).done i)) ∧
    (17 ≤ sel → s.hasHandler = true → exec i s = .next (e.trapped .tensorArg (s.me.gval b))))

/-- R269 and R270: `tld` and `tst` where no relayout of the descriptor is active: each active element is located and checked at issue, and
the entry holds its place. -/
def Claims.TensorAccessIssues : Prop := ∀ (d : VReg) (a : HReg) (b : GReg) (m : MReg) (acc : TensorAcc),
  let found (i : Instr) (store : Bool) (e : State) : Prop :=
    let h := e.handle a
    let ty := tagType (Desc.tag h.desc)
    h.valid = true ∧ e.keeps i none ∧ (∀ r ∈ e.es.relayouts, r.asid = e.me.asid → r.daddr ≠ h.daddr.toNat) ∧ acc.oob = false ∧ acc.admits = [] ∧
    tensorElems h none store (max 1 (ty.width / 8)) (e.me.gval b) (e.me.gval (b + 1)) 0
      (activeList (elemCount (regType ty)) fun q => (e.me.mval (govMask i)).getLsbD q) .none e = .ok acc e
  (∀ desc, HeldAs (.tld d a b m) ⟨acc.places, desc, acc.exps, []⟩ fun e =>
    found (.tld d a b m) false e ∧ (e.handle a).desc = desc ∧ b ≠ 31) ∧
  (∀ desc, QueuesAs (.tst d a b m) ⟨acc.places, desc, acc.exps, []⟩ fun e =>
    found (.tst d a b m) true e ∧ (e.handle a).desc = desc ∧ b ≠ 31 ∧ tagKind (Desc.tag desc) ≠ 4 ∧ tagKind (Desc.tag desc) ≠ 5 ∧
    e.atRoot ∧ (∀ p ∈ acc.places, ∃ pa va c, p.2 = .mem pa va c) ∧ acc.exps = [])

/-- R264: in the layouts of kinds 0 to 2, elements at different coordinates lie at different bits. -/
def Claims.LayoutsSeparate : Prop := ∀ (t : Nat) (dims c c' : List Nat),
  tagKind t ≤ 2 → dims.length = 5 → c.length = 5 → c'.length = 5 →
  (∀ k, k < 5 → c.getD k 0 < dimOf dims k) → (∀ k, k < 5 → c'.getD k 0 < dimOf dims k) →
  ∃ p p', (locOf t dims (dimOf dims 0) c).bit = some p ∧ (locOf t dims (dimOf dims 0) c').bit = some p' ∧ (p = p' → c = c')

/-- R271: `relayout` hands a conversion to the Weaver of its die: the descriptor in memory is PENDING with the new base, tag and bitmap, and
the handle holds what memory then holds. -/
def Claims.RelayoutStarts : Prop := ∀ (d : HReg) (a b : GReg) (s : State) (p : Place) (t : Trans),
  let i := Instr.relayout d a b
  let e := s.entered i
  let h := s.handle d
  let g := s.me.gval b
  let base := (s.me.gval a).toNat
  let bitmap := (s.me.gval (a + 1)).toNat
  let dims := newDims h.desc
  let size := sizeOf_ (g.toNat % 2 ^ 32) dims
  let units := (size + 4095) / 4096
  let r : Relayout := ⟨dieOf s.cur, h.daddr.toNat, t.pa, s.cur, s.me.launch, s.me.asid, s.me.priv, s.me.world, h.desc, g.setWidth 32,
    dims, base, bitmap, units, none, 0, 0, [], false⟩
  s.runs i = true → h.valid = true → e.me.hypId = 0 → relayoutOk h.desc g base bitmap = true →
  checkRange (pagesOf base size) base e = .ok () e → checkRange (pagesOf bitmap ((units + 7) / 8)) bitmap e = .ok () e →
  s.me.wc = [] → (∀ x ∈ s.ms.l1, x.cell = cellOf s.cur → x.dirty = 0) → s.noInjection →
  (s.es.relayouts.filter fun r => r.die = dieOf s.cur).length < 16 → s.es.relayouts.length < 64 →
  e.access .none h.daddr 128 .write = .ok (p, some t) → s.homeLives t.pa →
  s.ms.checkOf (lineAddr t.pa) = .good → s.ms.checkOf (lineAddr t.pa + 64) = .good →
  s.heldLine (lineAddr t.pa) = false → s.heldLine (lineAddr t.pa + 64) = false →
  (BitVec.ofNat 1024 (s.peek t.pa 128)).getLsbD 104 = false →
  ∃ u : State, exec i s = .next (u.done i) ∧ u.es = { s.es with relayouts := s.es.relayouts ++ [r] } ∧
    u.handle d = { h with desc := BitVec.ofNat 1024 (u.peek t.pa 128) } ∧
    ∀ x, u.byteAt x =
      if x = t.pa + 13 then 1
      else if t.pa + 48 ≤ x ∧ x < t.pa + 56 then BitVec.ofNat 8 (base / 256 ^ (x - (t.pa + 48)))
      else if t.pa + 56 ≤ x ∧ x < t.pa + 60 then BitVec.ofNat 8 (g.toNat % 2 ^ 32 / 256 ^ (x - (t.pa + 56)))
      else if t.pa + 64 ≤ x ∧ x < t.pa + 72 then BitVec.ofNat 8 (bitmap / 256 ^ (x - (t.pa + 64)))
      else s.byteAt x

/-- R275: `rlwait` on a descriptor that no relayout is active for acquires and reloads the handle; else the slot waits, and a
suspended relayout of the descriptor goes on. -/
def Claims.RelayoutAwaited : Prop := ∀ (a : HReg) (s : State) (tr : Nat → Trans),
  let i := Instr.rlwait a
  let e := s.entered i
  let h := s.handle a
  let mine (r : Relayout) : Bool := r.asid = s.me.asid && r.daddr = h.daddr.toNat
  s.runs i = true → h.valid = true →
  ((∀ r ∈ s.es.relayouts, mine r = false) → e.descAt h.daddr .read tr → descOk (s.descFrom tr) = true →
    ∃ u : State, exec i s = .next (u.done i) ∧ SameMemory s u ∧ u.handle a = ⟨true, h.daddr, s.descFrom tr⟩) ∧
  ((∃ r ∈ s.es.relayouts, mine r = true) → ∃ u : State, exec i s = .next u ∧ u.me.st = .parked ∧ u.me.wait = .answer ∧
    u.es.relayouts = s.es.relayouts.map fun r => if mine r = true then { r with suspended := false } else r)

/-- R272 to R274: the Weaver of a die claims the next unit of the relayout that it serves once every write admitted to the unit is performed,
and takes its bytes from the old storage then; it writes a claimed unit, which is done, and the last one ends the relayout, its descriptor no
longer PENDING. (Which relayout it serves is log entry 64's.) -/
def Claims.WeaverUnits : Prop := ∀ (s : State) (die : Nat) (r : Relayout) (v : State),
  let others : List Relayout := s.es.relayouts.filter fun q => !(q.asid = r.asid && q.daddr = r.daddr)
  let put (x : Relayout) : State := { v with es := { v.es with
    relayouts := s.es.relayouts.map fun q => if q.asid = r.asid ∧ q.daddr = r.daddr then x else q } }
  s.ev[0]? = some die → s.live die = true → s.weaving die = some r → v.es = s.es →
  (∀ bits, r.claimed = none → r.done < r.units → tblGet 0 r.admitted r.done = 0 → takeUnit r r.done s = .ok bits v →
    exec .weaverUnit s = .next (put { r with claimed := some r.done, taken := bits })) ∧
  (∀ k, r.claimed = some k → writeUnit r k s = .ok () v →
    (k + 1 < r.units → exec .weaverUnit s = .next (put { r with claimed := none, taken := 0, done := k + 1 })) ∧
    (∀ pa, r.units = k + 1 → v.noInjection → v.homeLives pa → pa % 128 = 0 → pkgOf pa = v.ws.own → r.daddr % 128 = 0 →
      (∀ j, j < 2 → v.ms.checkOf (pa + 64 * j) = .good ∧ v.heldLine (pa + 64 * j) = false ∧ ∀ a, a = .read ∨ a = .write →
        ∃ va c t, checkPlace v r.agent .allowed (BitVec.ofNat 64 (r.daddr + 64 * j)) 1 a = .ok (.mem (pa + 64 * j) va c, t)) →
      ∃ u : State, exec .weaverUnit s = .next u ∧ u.es.relayouts = others ∧
        ∀ x, u.byteAt x = if pa ≤ x ∧ x < pa + 128 then
          (finishedDesc r (BitVec.ofNat 1024 (v.peek pa 128))).extractLsb' (8 * (x - pa)) 8 else v.byteAt x))

/-- Tensor handles, kept and asked. -/
def Obligations.TensorHandles : Prop := Claims.HandlesInMemory ∧ Claims.HandleQueries

/-- Tensor loads and stores at issue, and layouts that keep elements apart. -/
def Obligations.TensorAccesses : Prop := Claims.TensorAccessIssues ∧ Claims.LayoutsSeparate

/-- A relayout started, awaited and carried out by the Weaver. -/
def Obligations.Relayouts : Prop := Claims.RelayoutStarts ∧ Claims.RelayoutAwaited ∧ Claims.WeaverUnits

/-! ### Hypotheses and regions -/

/-- R320: `hopen` opens a PLAIN child of the hypothesis that g[A] names, under the id freed longest ago, and gives the id; a parent at depth 15
gives the status DEPTH, no FREE id the status FULL; an id above 16,383 raises HYP.ID with g[A], a parent that is FREE or of another
ASID HYP.STATE with its id. -/
def Claims.HypothesisOpens : Prop := ∀ (d a : GReg) (s : State),
  let i := Instr.hopen d a
  let e := s.entered i
  let g := s.me.gval a
  let named := if g = BitVec.allOnes 64 then e.me.hypId else g.toNat
  let p := s.hyps.eff named
  let foreign := named ≠ 0 ∧ ((s.hyps.get named).st = .free ∨ (s.hyps.get named).asid ≠ s.me.asid)
  s.runs i = true →
  (named ≤ 16383 → ¬foreign → s.hyps.refutedInChain p = false →
    ((s.hyps.get p).depth = 15 → exec i s = .next ((e.put d 0x8200000000000000#64).done i)) ∧
    ((s.hyps.get p).depth ≠ 15 → s.hyps.nextFree = none → exec i s = .next ((e.put d 0x8100000000000000#64).done i)) ∧
    (∀ k, (s.hyps.get p).depth ≠ 15 → s.hyps.nextFree = some k →
      exec i s = .next ((({ e with hyps := s.hyps.opened k false p s.me.asid } : State).put d (BitVec.ofNat 64 k)).done i))) ∧
  (16383 < named → s.hasHandler = true → exec i s = .next (e.trapped .hypId g)) ∧
  (named ≤ 16383 → foreign → s.hasHandler = true → exec i s = .next (e.trapped .hypState (BitVec.ofNat 64 named)))

/-- R321 and R322: `henter` moves HYP.CUR.ID to an OPEN hypothesis of the task's ASID within its innermost region, or to the root outside any;
`hleave` moves it to the parent; `hstat` reads a record. -/
def Claims.HypothesisMoves : Prop := ∀ (d a : GReg) (s : State),
  let h := s.hyps
  let g := s.me.gval a
  let k := g.toNat
  (let i := Instr.henter a
   let e := s.entered i
   let open_ := k = 0 ∨ ((h.get k).st = .opened ∧ (h.get k).asid = s.me.asid ∧ h.refutedInChain k = false)
   let within := ∀ r, s.me.top = some r → h.within k r = true
   s.runs i = true →
   (k ≤ 16383 → open_ → within → exec i s = .next ((e.setMe { e.me with hypId := k }).done i)) ∧
   (16383 < k → s.hasHandler = true → s.traps i .hypId) ∧
   (k ≤ 16383 → ¬(open_ ∧ within) → s.hasHandler = true → s.traps i .hypState)) ∧
  (let i := Instr.hleave
   let e := s.entered i
   let cur := h.eff e.me.hypId
   s.runs i = true →
   (cur ≠ 0 → s.me.top ≠ some cur → exec i s = .next ((e.setMe { e.me with hypId := h.eff (h.get cur).parent }).done i)) ∧
   (cur = 0 ∨ s.me.top = some cur → s.hasHandler = true → s.traps i .hypState)) ∧
  (let i := Instr.hstat d a
   let e := s.entered i
   let named := if g = BitVec.allOnes 64 then e.me.hypId else k
   let r := h.get named
   let gives (w : Nat) : Prop := exec i s = .next ((e.put d (BitVec.ofNat 64 w)).done i)
   s.runs i = true →
   (named = 0 → gives 1) ∧
   (0 < named → named ≤ 16383 → r.st = .free ∨ r.asid ≠ s.me.asid → gives 0) ∧
   (0 < named → named ≤ 16383 → r.st ≠ .free → r.asid = s.me.asid → r.depth ≤ 15 → r.parent ≤ 16383 → gives
     ((match r.st with | .free => 0 | .opened => 1 | .confirmed => 2 | .refuted => 3) + 4 * r.region.toNat +
       8 * (r.region && r.nonrev).toNat + 16 * r.depth + 256 * r.busy.toNat + 2 ^ 16 * r.parent)) ∧
   (16383 < named → s.hasHandler = true → s.traps i .hypId))

/-- R328: `copen` opens a region as a child of the current hypothesis, pushes it with its handler, and HYP.CUR.ID is the region; a fifth region
or a depth of 16 raises HYP.DEPTH, no FREE id HYP.FULL. -/
def Claims.RegionOpens : Prop := ∀ (imm : BitVec 12) (s : State),
  let i := Instr.copen imm
  let e := s.entered i
  let p := s.hyps.eff e.me.hypId
  let deep := 4 ≤ s.me.regions.length ∨ (s.hyps.get p).depth = 15
  s.runs i = true →
  (∀ k, ¬deep → s.hyps.nextFree = some k → exec i s = .next ((({ e with hyps := s.hyps.opened k true p s.me.asid } : State).setMe
    { e.me with regions := ⟨k, s.me.pc + 4 * imm.signExtend 64, false⟩ :: s.me.regions, hypId := k }).done i)) ∧
  (deep → s.hasHandler = true → s.traps i .hypDepth) ∧
  (¬deep → s.hyps.nextFree = none → s.hasHandler = true → s.traps i .hypFull)

/-- R323: `hconfirm` and `hrefute` hand their request to the resolver after a release, and the slot waits; once the answer is
there it is g[D]. An id that is 0 or above 16,383 raises HYP.ID, a confirm of a region HYP.KIND. (The acquire at its end is log
entry 25's reading.) -/
def Claims.ResolutionOutcomes : Prop := ∀ (d a : GReg) (excl confirm : Bool) (s : State),
  let i := if confirm then Instr.hconfirm d a excl else Instr.hrefute d a
  let e := s.entered i
  let k := (s.me.gval a).toNat
  let request : HypReq := ⟨s.ws.nextId, s.cur, k, confirm, confirm && excl, s.me.asid⟩
  let bad := k = 0 ∨ 16383 < k
  (s.runs i = true → ¬bad → ¬(confirm = true ∧ (s.hyps.get k).region = true) →
    (∀ r, s.me.top = some r → s.hyps.within k r = true) → s.released →
    ∃ u, exec i s = .next (u.asks .resolve s.ws.nextId []) ∧ SameMemory s u ∧ u.me = e.me ∧ u.cur = s.cur ∧
      u.ws = { s.ws with nextId := s.ws.nextId + 1 } ∧ u.hyps = { s.hyps with queue := s.hyps.queue ++ [request] }) ∧
  (∀ keep st, s.answered i .resolve keep st → ∃ l1,
    exec i s = .next (((s.taken l1).put d (BitVec.ofNat 64 st)).done i)) ∧
  (s.runs i = true → bad → s.hasHandler = true → s.traps i .hypId) ∧
  (s.runs i = true → ¬bad → confirm = true → (s.hyps.get k).region = true → s.hasHandler = true → s.traps i .hypKind)

/-- R329: `cclose` asks the resolver to confirm the innermost region once the task's work has completed; when that has been done the region is
popped and HYP.CUR.ID is the parent's effective hypothesis. Outside a region of its own, or inside the implicit one, it raises
HYP.STATE. -/
def Claims.RegionCloses : Prop := ∀ (s : State) (k : Nat),
  let i := Instr.cclose
  let e := s.entered i
  (s.runs i = true → s.me.top = some k → ¬(s.me.regions.length = 1 ∧ s.me.impl = true) → s.hyps.eff e.me.hypId = k →
    e.drainedOf s.cur = true → s.released →
    ∃ u, exec i s = .next (u.asks .cclose s.ws.nextId []) ∧ SameMemory s u ∧ u.me = e.me ∧ u.cur = s.cur ∧
      u.hyps = { s.hyps with queue := s.hyps.queue ++ [⟨s.ws.nextId, s.cur, k, true, false, s.me.asid⟩] }) ∧
  (∀ keep r rest, s.answered i .cclose keep 0 → s.me.regions = r :: rest → r.nonrev = false → ∃ l1,
    exec i s = .next (((s.taken l1).setMe { (s.taken l1).me with
      regions := rest, impl := s.me.impl && !rest.isEmpty, hypId := s.hyps.eff (s.hyps.get r.id).parent }).done i)) ∧
  (s.runs i = true → s.me.regions = [] ∨ (s.me.regions.length = 1 ∧ s.me.impl = true) ∨ s.me.top ≠ some (s.hyps.eff e.me.hypId) →
    s.hasHandler = true → s.traps i .hypState)

/-- R323 and R324: a die stages its entries and acknowledges the resolution under way; a request for a hypothesis that is settled gets its status without one. Once every
live die has acknowledged, a refute sets the hypothesis and every descendant REFUTED at one commit, and a confirm into the root of a
hypothesis with one version writes its bytes to memory, with its OPEN children moved to its parent and what lies under them one level
up. A die that applies lets the accesses to its lines go on; the last one ends the resolution with status 0. Log entry 11 says which answers the
resolver gives at once. -/
def Claims.ResolverPhases : Prop := ∀ (s : State) (r : Resolution),
  let h := s.hyps
  let k := r.req.target
  let d := ((s.ev[0]?).getD 0)
  let acks := r.acks ||| (1#4 <<< d)
  let settled : Prop := (h.get k).st ≠ .opened ∨ (h.get k).asid ≠ r.req.asid ∨ h.refutedInChain k = true
  let held (x : L1Line) : Bool := x.cell / 128 = d && x.hyp ≠ 0 && r.affected.contains x.hyp
  (s.live d = true → h.cur = some r → r.phase = .prepare → r.acks.getLsbD d = false → s.ms.l1.filter held = [] →
    exec .hypDiePrepare s = .next { s with hyps := { h with cur := some { r with
      acks := acks, staged := r.staged ++ s.stagedLines d r.affected } } }) ∧
  (∀ st, s.live d = true → h.cur = none → h.queue = [r.req] →
    (st = 3 ∧ ((h.get k).st = .free ∨ (h.get k).asid ≠ r.req.asid) ∨
     st = 1 ∧ (h.get k).st = .confirmed ∧ (h.get k).asid = r.req.asid ∨
     st = 2 ∧ ((h.get k).st = .opened ∨ (h.get k).st = .refuted) ∧ (h.get k).asid = r.req.asid ∧ h.refutedInChain k = true) →
    exec .hypDiePrepare s = .next (({ s with hyps := { h with queue := [] } } : State).reply r.req.slot r.req.id st)) ∧
  (h.cur = some r → r.phase = .prepare → k ≠ 0 → tblWf .free h.table = true → ¬settled → (∀ x, x < 4 → s.live x = true → r.acks.getLsbD x = true) →
    (r.req.confirm = false → ∃ u, exec .hypCommit s = .next u ∧ u.ms = s.ms ∧ u.slots = s.slots ∧
      u.hyps.cur = some { r with phase := .apply, acks := 0 } ∧
      ∀ j, j ≠ 0 → (u.hyps.get j).st = if (h.subtree k).contains j = true then .refuted else (h.get j).st) ∧
    (r.req.confirm = true → r.req.excl = false → h.eff (h.get k).parent = 0 → (∀ x ∈ s.ms.l1, x.hyp ≠ k) → s.noInjection →
      ∀ v, (s.ms.versions.filter fun v => v.hyp = k) = [v] → v.line % 64 = 0 → s.homeLives v.line → s.ms.checkOf v.line ≠ .single →
      ∃ u, exec .hypCommit s = .next u ∧
        (∀ a, u.byteAt a = if v.line ≤ a ∧ a < v.line + 64 ∧ v.mask.getLsbD (a - v.line) = true
          then v.data.extractLsb' (8 * (a - v.line)) 8 else s.byteAt a) ∧
        (u.hyps.get k).st = .confirmed ∧ (u.hyps.get k).parent = 0 ∧ u.ms.versions = s.ms.versions.filter (fun v => v.hyp ≠ k) ∧
        ∀ j, j ≠ 0 → j ≠ k → u.hyps.get j = if (h.ids.any fun c => (h.get c).st = .opened && (h.get c).parent = k && h.within j c) = true
        then { h.get j with
          depth := (h.get j).depth - 1
          parent := if (h.get j).parent = k ∧ (h.get j).st = .opened then 0 else (h.get j).parent } else h.get j)) ∧
  (s.live d = true → h.cur = some r → r.phase = .apply → r.acks.getLsbD d = false →
    ((∀ x, x < 4 → s.live x = true → acks.getLsbD x = true) →
      exec .hypApply s = .next (({ s with hyps := { h.busyBit k false with cur := none } } : State).reply r.req.slot r.req.id 0)) ∧
    (∀ x, x < 4 → s.live x = true → acks.getLsbD x = false →
      exec .hypApply s = .next { s with hyps := { h with cur := some { r with
        acks := acks, staged := r.staged.filter fun l => homeOf l ≠ d } } }))

/-- R315: the sweep of a die frees its cache and version entries under refuted hypotheses, and no others. -/
def Claims.SweepFrees : Prop := ∀ (s : State) (d : Nat),
  let gone (k : Nat) : Prop := k ≠ 0 ∧ (s.hyps.get k).st = .refuted
  s.ev[0]? = some d → (∃ r ∈ s.hyps.table, r.2.st = .refuted ∧ r.2.sweep.getLsbD d = true) →
  ∃ u, exec .hypSweep s = .next u ∧ SameMemory s u ∧ u.slots = s.slots ∧
    (∀ x, x ∈ u.ms.l1 ↔ x ∈ s.ms.l1 ∧ ¬(x.cell / 128 = d ∧ gone x.hyp)) ∧
    (∀ v, v ∈ u.ms.versions ↔ v ∈ s.ms.versions ∧ ¬(homeOf v.line = d ∧ gone v.hyp)) ∧
    ∀ k, k ≠ 0 → (u.hyps.get k).st = (s.hyps.get k).st ∧ (gone k → (u.hyps.get k).sweep.getLsbD d = false)

/-- R363 and R364: how `accept` verifies: a branch's positions accepted are the leading ones at which drafted and sampled token agree and are
real; the branch chosen is the one with the most, the lowest on a tie; and the result is the word made then, with the status of the
confirm at bits [35:34]. -/
def Obligations.AcceptOutcomes : Prop :=
  (∀ (vocab : Nat) (ds ss : List Nat), ds.length = ss.length →
    let a := agreeing vocab ds ss
    a ≤ ds.length ∧ (∀ n, n < a → ds[n]? = ss[n]? ∧ ∀ x, ds[n]? = some x → x < vocab) ∧
    (∀ x y, ds[a]? = some x → ss[a]? = some y → x ≠ y ∨ vocab ≤ x)) ∧
  (∀ (r : Nat × Bool) (rs : List (Nat × Bool)),
    let b := bestBranch 1 rs (0, r.1)
    (∃ c, (r :: rs)[b.1]? = some (b.2, c)) ∧
    ∀ (n : Nat) (q : Nat × Bool), (r :: rs)[n]? = some q → q.1 ≤ b.2 ∧ (n < b.1 → q.1 < b.2)) ∧
  (∀ (d a : GReg) (s : State) (word : Nat) (st : Nat), s.answered (.accept d a) .accept [word] st → ∃ l1,
    exec (.accept d a) s = .next (((s.taken l1).put d (BitVec.ofNat 64 (word + st * 2 ^ 34))).done (.accept d a))) ∧
  (∀ (d a : GReg) (s : State), s.runs (.accept d a) = true → (s.me.gval a).toNat % 64 ≠ 0 → s.hasHandler = true →
    exec (.accept d a) s = .next ((s.entered (.accept d a)).trapped .memAlign (s.me.gval a)))

/-- Hypotheses and regions opened, entered, left, asked and closed. -/
def Obligations.HypothesesOpenAndMove : Prop := Claims.HypothesisOpens ∧ Claims.HypothesisMoves ∧ Claims.RegionOpens ∧ Claims.RegionCloses

/-- Resolutions: asked for, prepared, committed, applied, swept. -/
def Obligations.HypothesesResolve : Prop := Claims.ResolutionOutcomes ∧ Claims.ResolverPhases ∧ Claims.SweepFrees

/-! ### Streams -/

/-- R343 and R344: `screate` creates an IDLE stream of the issuing die with a map of its own, `sfork` children that share the parent's map; each
adds its streams to OUTSTANDING of the launch, and gives the lowest id. Without ids, or for `screate` without space for the record, the answer
is the status FULL, of a DEAD parent the status STATE; a bad step PC raises STRM.ARG with it. When a die has no space for a record is
log entry 47's. -/
def Claims.StreamsBegin : Prop := ∀ (d a b : GReg) (s : State) (l : Launch),
  let g := s.me.gval a
  s.plain → s.openRecord l →
  (let i := Instr.screate d a
   let e := s.entered i
   s.runs i = true →
   (g.toNat % 4 = 0 → g.toNat < 2 ^ 56 →
     (s.recordsFull (dieOf s.cur) = true ∨ e.strmRun s.me.asid 1 = none → exec i s = .next ((e.put d 0x8100000000000000#64).done i)) ∧
     (∀ k, s.recordsFull (dieOf s.cur) = false → e.strmRun s.me.asid 1 = some k → ∃ u m, exec i s = .next ((u.put d (BitVec.ofNat 64 k)).done i) ∧
       Wrote s u l.recAddr 8 (s.outstanding l.recAddr 1) ∧ u.ss.map m = ⟨[], 1⟩ ∧
       ∀ j, u.ss.stream j = if j = strmKey s.me.asid k then
         ⟨.idle, s.ss.nextSerial, dieOf s.cur, s.me.launch, g, m, [], 0, 0, false, none⟩ else s.ss.stream j)) ∧
   (g.toNat % 4 ≠ 0 ∨ 2 ^ 56 ≤ g.toNat → s.hasHandler = true → exec i s = .next (e.trapped .strmArg g))) ∧
  (let i := Instr.sfork d a b
   let e := s.entered i
   let n := (s.me.gval b).toNat
   let p := s.strm g.toNat
   s.runs i = true → 1 ≤ g.toNat → g.toNat < 2 ^ 20 → 1 ≤ n → n ≤ 16 →
   (p.st = .dead → exec i s = .next ((e.put d 0x8200000000000000#64).done i)) ∧
   (p.st ≠ .dead → e.strmRun s.me.asid n = none → exec i s = .next ((e.put d 0x8100000000000000#64).done i)) ∧
   (∀ k, p.st ≠ .dead → e.strmRun s.me.asid n = some k → ∃ u, exec i s = .next ((u.put d (BitVec.ofNat 64 k)).done i) ∧
     Wrote s u l.recAddr 8 (s.outstanding l.recAddr n) ∧
     u.ss.map p.map = { s.ss.map p.map with refs := (s.ss.map p.map).refs + n } ∧
     (∀ c, c < n → u.ss.stream (strmKey s.me.asid (k + c)) =
       ⟨.idle, s.ss.nextSerial + c, p.home, s.me.launch, p.stepPc, p.map, [], 0, 0, false, none⟩) ∧
     ∀ j, (∀ c, c < n → j ≠ strmKey s.me.asid (k + c)) → u.ss.stream j = s.ss.stream j))

/-- R345: `sdrop` of a stream that is already DEAD gives 1. Of an IDLE stream outside a group whose map others share it makes the
stream DEAD, gives up one reference to the map, lowers OUTSTANDING, and gives 0. (The release is log entry 26's reading.) -/
def Claims.StreamEnds : Prop := ∀ (d a : GReg) (s : State) (l : Launch),
  let i := Instr.sdrop d a
  let e := s.entered i
  let k := (s.me.gval a).toNat
  let m := s.strm k
  s.runs i = true → s.plain → 1 ≤ k → k < 2 ^ 20 →
  (m.st = .dead → exec i s = .next ((e.put d 1).done i)) ∧
  (m.st = .idle → m.group = none → 1 < (s.ss.map m.map).refs → m.launch = s.me.launch → s.openRecord l → s.released →
    1 < s.recOutstanding l.recAddr → ∃ u, exec i s = .next ((u.put d 0).done i) ∧ Wrote s u l.recAddr 8 (s.outstanding l.recAddr (-1)) ∧
      u.ss.map m.map = { s.ss.map m.map with refs := (s.ss.map m.map).refs - 1 } ∧
      ∀ j, u.ss.stream j = if j = strmKey s.me.asid k then .none else s.ss.stream j)

/-- R346: `sact` appends the 64 bytes at g[B] to the action queue of a stream, and gives the number now queued; a DEAD stream gives the status
STATE, 16 records the status FULL, and nothing changes. -/
def Claims.ActionsQueued : Prop := ∀ (d a b : GReg) (s : State) (p : Place) (t : Trans),
  let i := Instr.sact d a b
  let e := s.entered i
  let va := s.me.gval b
  let k := s.strmNamed (s.me.gval a)
  let m := s.strm k
  s.runs i = true → s.plain → 1 ≤ k → k < 2 ^ 20 → e.access .none va 64 .read = .ok (p, some t) → e.sound t.pa va.toNat = true →
  ∃ l1, let f : State := { e with ms := { s.ms with l1 := l1 } }
    (m.st = .dead → exec i s = .next ((f.put d 0x8200000000000000#64).done i)) ∧
    (m.st ≠ .dead → 16 ≤ m.ring.length → exec i s = .next ((f.put d 0x8100000000000000#64).done i)) ∧
    (m.st ≠ .dead → m.ring.length < 16 → exec i s = .next (((f.withStrm k
      { m with ring := m.ring ++ [BitVec.ofNat 512 (lineBytes (e.lineSeen t.pa va.toNat t.cached true (byteMask 0 64)) 0 64)] }).put d
        (BitVec.ofNat 64 (m.ring.length + 1))).done i))

/-- R347: `spop` takes the head record of the current stream, stores its 64 bytes at g[A], and gives the number of records left; of an empty
queue it gives -1, and with no current stream it raises STRM.WINDOW. -/
def Claims.ActionsTaken : Prop := ∀ (d a : GReg) (s : State) (p : Place) (t : Trans),
  let i := Instr.spop d a
  let e := s.entered i
  let va := s.me.gval a
  let k := s.me.strmCur.toNat
  let m := s.strm k
  s.runs i = true →
  (k = 0 ∨ m.st = .dead → s.hasHandler = true → s.traps i .strmWindow) ∧
  (s.plain → k ≠ 0 → m.st ≠ .dead → e.access .none va 64 .write = .ok (p, some t) →
    (m.ring = [] → exec i s = .next ((e.put d (BitVec.allOnes 64)).done i)) ∧
    (∀ r rest, m.ring = r :: rest → s.noInjection → s.homeLives t.pa → s.merges t.pa va.toNat →
      ∃ u, exec i s = .next ((u.put d (BitVec.ofNat 64 rest.length)).done i) ∧ u.strm k = { m with ring := rest } ∧
        (t.cached = false → Wrote s u t.pa 64 r.toNat) ∧
        (t.cached = true → SameMemory s u ∧ ∃ x, u.l1Of va.toNat 0 = some x ∧ x.data = r ∧ x.dirty = BitVec.allOnes 64)))

/-- R348 and R349: `shor` sets a stream's horizon and gives the old one; an IDLE stream given a horizon becomes WAITING with RETURNED 0, a
WAITING stream given none becomes IDLE and leaves the scheduler, and any other keeps its state. `sret` writes the return slot of
the current stream. -/
def Claims.Horizons : Prop := ∀ (d a b : GReg) (s : State),
  s.plain →
  (let i := Instr.shor d a b
   let e := s.entered i
   let h := (s.me.gval b).setWidth 32
   let k := s.strmNamed (s.me.gval a)
   let m := s.strm k
   let m' := { m with horizon := h }
   let key := strmKey s.me.asid k
   let gone (b : Batch) : Batch := { b with members := b.members.filter fun q => q ≠ key }
   s.runs i = true → 1 ≤ k → k < 2 ^ 20 → (s.me.gval b).toNat < 2 ^ 32 →
   (m.st = .dead → exec i s = .next ((e.put d 0x8200000000000000#64).done i)) ∧
   (m.st = .idle → h = 0 → exec i s = .next (((e.withStrm k m').put d (m.horizon.setWidth 64)).done i)) ∧
   (m.st = .idle → h ≠ 0 → (∀ b ∈ s.ss.batches, ¬(b.die = m.home ∧ b.launch = m.launch ∧ b.stepPc = m.stepPc)) →
     s.ss.waiting.length < 63 → exec i s = .next ((({ e with ss := { s.ss.setStream key { m' with st := .waiting, returned := false } with
       waiting := s.ss.waiting ++ [(key, s.clock m.home)] } } : State).put d (m.horizon.setWidth 64)).done i)) ∧
   (m.st = .waiting → h = 0 → exec i s = .next ((({ e with ss := { s.ss.setStream key { m' with st := .idle } with
     waiting := s.ss.waiting.filter (fun w => w.1 ≠ key)
     batches := (s.ss.batches.map gone).filter fun b => !b.members.isEmpty } } : State).put d (m.horizon.setWidth 64)).done i)) ∧
   (m.st = .waiting ∧ h ≠ 0 ∨ m.st = .stepping → exec i s = .next (((e.withStrm k m').put d (m.horizon.setWidth 64)).done i))) ∧
  (let i := Instr.sret a
   let k := s.me.strmCur.toNat
   s.runs i = true → k ≠ 0 → (s.strm k).st ≠ .dead →
   exec i s = .next (((s.entered i).withStrm k { s.strm k with ret := (s.me.gval a).setWidth 32 }).done i))

/-- R351: `senter` sets STRM.CUR from a selector: none, a stream that lives, or a member of the task's batch with its position; a
DEAD stream raises STRM.WINDOW, a position out of the batch and any other value STRM.ID. -/
def Claims.StreamSelected : Prop := ∀ (a : GReg) (s : State),
  let i := Instr.senter a
  let e := s.entered i
  let g := s.me.gval a
  let n := g.toNat
  s.runs i = true →
  (n = 0 → exec i s = .next ((e.setMe { e.me with strmCur := 0 }).done i)) ∧
  (1 ≤ n → n < 2 ^ 20 → (s.strm n).st ≠ .dead → exec i s = .next ((e.setMe { e.me with strmCur := BitVec.ofNat 20 n }).done i)) ∧
  (∀ q k, n = 2 ^ 63 + q → q < 64 → s.me.members[q]? = some k →
    exec i s = .next ((e.setMe { e.me with strmCur := BitVec.ofNat 20 k, batchPos := BitVec.ofNat 6 q }).done i)) ∧
  (1 ≤ n → n < 2 ^ 20 → (s.strm n).st = .dead → s.hasHandler = true → s.traps i .strmWindow) ∧
  (∀ q, n = 2 ^ 63 + q → q < 64 → s.me.members[q]? = none → s.hasHandler = true → s.traps i .strmId) ∧
  (2 ^ 20 ≤ n → n < 2 ^ 63 ∨ 2 ^ 63 + 64 ≤ n → s.hasHandler = true → s.traps i .strmId)

/-- R352: `sjoin` forms a group of the consecutive streams that its word names, with the address of the result; a member that is DEAD, in a group
or of another die gives the status STATE, 1,024 groups the status FULL. -/
def Claims.GroupsForm : Prop := ∀ (d a b : GReg) (s : State) (p : Place) (t : Trans) (op n first : Nat),
  let i := Instr.sjoin d a b
  let e := s.entered i
  let home := (s.strm first).home
  let fit : Prop := ∀ c, c < n → (s.strm (first + c)).st ≠ .dead ∧ (s.strm (first + c)).group = none ∧ (s.strm (first + c)).home = home
  s.runs i = true → s.plain → (s.me.gval a).toNat = op * 2 ^ 28 + n * 2 ^ 20 + first → op ≤ 2 → 1 ≤ n → n ≤ 64 → first < 2 ^ 20 →
  first + n - 1 ≤ 1048575 → e.access .none (s.me.gval b) 8 .write = .ok (p, some t) →
  (¬fit → exec i s = .next ((e.put d 0x8200000000000000#64).done i)) ∧
  (fit → 1024 ≤ s.ss.groupsAt home → exec i s = .next ((e.put d 0x8100000000000000#64).done i)) ∧
  (fit → s.ss.groupsAt home < 1024 → ∃ (u : State) (q : Nat), exec i s = .next ((u.put d 0).done i) ∧
    u = { e with ss := u.ss } ∧
    tblGet none u.ss.groups q = some ⟨home, op, (List.range n).map fun c => strmKey s.me.asid (first + c), t.pa⟩ ∧
    (∀ c, c < n → u.strm (first + c) = { s.strm (first + c) with group := some q }) ∧
    ∀ j, (∀ c, c < n → j ≠ strmKey s.me.asid (first + c)) → u.ss.stream j = s.ss.stream j)

/-- R353: what a group's returns come to: the sum in ascending order, each step rounded, or the largest or smallest return, with its id, where NaNs
are never chosen and ties go to the lower id; and a `sum` group whose members have all returned leaves them IDLE and writes the
doubleword of the result. -/
def Claims.GroupsReduce : Prop :=
  (∀ (ms : List (Nat × BitVec 32)) (op k : Nat) (v : BitVec 32), op ≤ 1 → (k, v) ∈ ms →
    (FpFmt.f32.decode v.toNat).isNan = false →
    ∃ w r, joinResult op ms = (some w, r, w % 2 ^ 20) ∧ (w, BitVec.ofNat 32 r) ∈ ms ∧ (FpFmt.f32.decode r).isNan = false ∧
      if op = 0 then belowVal (FpFmt.f32.decode r) (FpFmt.f32.decode v.toNat) = false
      else belowVal (FpFmt.f32.decode v.toNat) (FpFmt.f32.decode r) = false) ∧
  (∀ (s : State) (n : Nat) (g : Group) (x y : Nat) (m q : Stream), s.ev[0]? = some n → tblGet none s.ss.groups n = some g → g.op = 2 →
    g.members = [x, y] → x ≠ y → s.ss.stream x = m → s.ss.stream y = q → m.returned = true → q.returned = true → m.st ≠ .dead →
    q.st ≠ .dead → g.resultPa % 8 = 0 → s.noInjection → s.homeLives g.resultPa → s.ms.checkOf (lineAddr g.resultPa) ≠ .single →
    let v := (addBits .f32 .rne m.ret.toNat q.ret.toNat).1
    let sum := if (FpFmt.f32.decode v).isNan = true then 0x7FC00000 else v
    ∃ u, exec .winnowerJoin s = .next u ∧ Wrote s u g.resultPa 8 (sum * 2 ^ 32 + 0xFFFFFFFF) ∧ tblGet none u.ss.groups n = none ∧
      u.ss.stream x = { m with group := none, st := .idle } ∧ u.ss.stream y = { q with group := none, st := .idle } ∧
      ∀ j, j ≠ x → j ≠ y → u.ss.stream j = s.ss.stream j)

/-- R354: `smigr` of an IDLE stream outside a group asks the target package after a release, and the slot waits for the transfer; an answer with
bit 63 set leaves the stream, an id ends it as `sdrop` does, and either is g[D]; a transfer that the fabric aborts leaves the stream with
its own status; a stream in another state gives the status STATE, and a receive record that is misaligned or of the own package raises
STRM.ARG. At the target a stream that arrives is created under the lowest id, the launch that OWNER names counts it, and the receive
record tells the id and one more arrival; where OWNER is no open launch record, or the die has no space for the record, the answer is
FULL. What the transfer carries, and in which order, is log entry 10's. -/
def Claims.StreamsMigrate : Prop :=
  (∀ (d a b : GReg) (s : State),
    let i := Instr.smigr d a b
    let e := s.entered i
    let k := (s.me.gval a).toNat
    let r := (s.me.gval b).toNat
    let m := s.strm k
    (s.runs i = true → s.plain → 1 ≤ k → k < 2 ^ 20 → r < 2 ^ 56 → r % 64 = 0 → pkgOf r ≠ s.ws.own →
      inWindow r = false → s.ws.reachable (pkgOf r) = true →
      (m.st ≠ .idle ∨ m.group ≠ none → exec i s = .next ((e.put d 0x8200000000000000#64).done i)) ∧
      (m.st = .idle → m.group = none → s.released → ∃ u, exec i s = .next (u.asks .smigr s.ws.nextId [r]) ∧ SameMemory s u ∧ u.me = e.me ∧
        u.cur = s.cur ∧ u.ss = s.ss ∧ u.ws = { s.ws with nextId := s.ws.nextId + 1 }.send s.ws.own (dieOf s.cur) none none
          (.request s.ws.nextId (pkgOf r) ([7, r] ++ s.ss.snapshot (strmKey s.me.asid k))))) ∧
    (s.runs i = true → 1 ≤ k → k < 2 ^ 20 → r % 64 ≠ 0 ∨ fieldOf (s.me.gval b) 55 40 = s.ws.own → s.hasHandler = true → s.traps i .strmArg) ∧
    (∀ keep v, s.answered i .smigr keep v → 2 ^ 63 ≤ v → v < 2 ^ 64 →
      exec i s = .next (((s.setMe { s.me with pend := none }).put d (BitVec.ofNat 64 v)).done i)) ∧
    (∀ keep v, s.answered i .smigr keep v → 2 ^ 64 ≤ v →
      exec i s = .next (((s.setMe { s.me with pend := none }).put d 0x8300000000000000#64).done i)) ∧
    (∀ keep v l, s.answered i .smigr keep v → v < 2 ^ 63 → m.st = .idle → m.group = none → 1 < (s.ss.map m.map).refs →
      m.launch = s.me.launch → s.openRecord l → 1 < s.recOutstanding l.recAddr →
      ∃ u, exec i s = .next ((u.put d (BitVec.ofNat 64 v)).done i) ∧ Wrote s u l.recAddr 8 (s.outstanding l.recAddr (-1)) ∧
        ∀ j, u.ss.stream j = if j = strmKey s.me.asid k then .none else s.ss.stream j)) ∧
  (∀ (s : State) (src req r : Nat) (rest : List Nat), s.ev = src :: req :: r :: rest → pkgOf r = s.ws.own → r % 64 = 0 →
    s.live (homeOf r) = true → (∀ l ∈ s.ls.launches, l.recAddr ≠ s.peek r 8) ∨ s.recordsFull (homeOf r) = true →
    exec .streamArrival s = .next { s with ws := s.ws.send s.ws.own (homeOf r) none none (.response src [req, 0x8100000000000000]) }) ∧
  (∀ (s : State) (src req r pc h v b : Nat) (l : Launch) (id : Nat), s.ev = [src, req, r, pc, h, v, b, 0] → pkgOf r = s.ws.own →
    r % 64 = 0 → s.live (homeOf r) = true → s.ls.launches.find? (fun l => l.recAddr = s.peek r 8) = some l →
    s.launch? l.number = some l → l.recAddr % 64 = 0 → l.recAddr ≠ r → s.recCancel l.recAddr = false → s.peek (l.recAddr + 16) 8 = 0 →
    s.noInjection → s.homeLives l.recAddr → s.ms.checkOf l.recAddr ≠ .single → s.ms.checkOf r ≠ .single → Memory.wf s.ms.mem = true →
    s.recordsFull (homeOf r) = false → s.strmRun l.asid 1 = some id →
    ∃ u m, exec .streamArrival s = .next u ∧ u.ws = s.ws.send s.ws.own (homeOf r) none none (.response src [req, id]) ∧
      (∀ j, u.ss.stream j = if j = strmKey l.asid id then
        ⟨.idle, s.ss.nextSerial, homeOf r, l.number, BitVec.ofNat 64 pc, m, [], BitVec.ofNat 32 h, BitVec.ofNat 32 v, b = 1, none⟩ else s.ss.stream j) ∧
      u.ss.map m = ⟨[], 1⟩ ∧
      ∀ a, u.byteAt a =
        if l.recAddr ≤ a ∧ a < l.recAddr + 8 then BitVec.ofNat 8 (s.outstanding l.recAddr 1 / 256 ^ (a - l.recAddr))
        else if r + 8 ≤ a ∧ a < r + 16 then BitVec.ofNat 8 ((s.peek (r + 8) 8 + 1) / 256 ^ (a - (r + 8)))
        else if r + 16 ≤ a ∧ a < r + 20 then BitVec.ofNat 8 (id / 256 ^ (a - (r + 16))) else s.byteAt a)

/-- R350 and R334: a batch of up to 64 forms of the group of a stream that has waited 2,048 cycles, its oldest first; a batch placed is a task at
the step PC with the batch size in g4, 0 in g5, the argument address and the launch word in g6 and g7, and its members are
STEPPING; a spilled page that an access waits for is resident again. -/
def Claims.StreamEvents : Prop := ∀ (s : State) (d : Nat), s.ev[0]? = some d →
  (∀ k c, s.ss.waiting.find? (fun w => (s.ss.stream w.1).home = d && decide (w.2 + 2048 ≤ s.clock d)) = some (k, c) →
    let m := s.ss.stream k
    let mine (w : Nat × Nat) : Bool := let n := s.ss.stream w.1
      n.home = m.home && n.launch = m.launch && n.stepPc = m.stepPc
    let ks := ((s.ss.waiting.filter mine).map (·.1)).take 64
    exec .streamBatchTimeout s = .next { s with ss := { s.ss with
      waiting := s.ss.waiting.filter (fun w => !ks.contains w.1)
      batches := s.ss.batches ++ [⟨m.home, m.launch, m.stepPc, ks⟩] } }) ∧
  (∀ b l t, s.placeable d = some b → s.stepSlots b = some (l, t, none) → b.members.Nodup → (∀ k ∈ b.members, (s.ss.stream k).st = .waiting) →
    ∃ u, exec .streamBatchPlace s = .next u ∧ SameMemory s u ∧ u.ss.batches = s.ss.batches.erase b ∧
      (∀ k, u.ss.stream k = if k ∈ b.members then { s.ss.stream k with st := .stepping } else s.ss.stream k) ∧
      (u.slot t).st = .ready ∧ (u.slot t).pc = b.stepPc ∧ (u.slot t).launch = l.number ∧ (u.slot t).members = b.members ∧
      (u.slot t).regions = [] ∧ (u.slot t).hypId = 0 ∧ (u.slot t).strmCur = BitVec.ofNat 20 ((b.members.head?).getD 0) ∧
      (∀ r : GReg, (u.slot t).gval r = if r = 4 then BitVec.ofNat 64 b.members.length else if r = 6 then l.args
        else if r = 7 then l.word else 0) ∧
      ∀ k, k ≠ t → u.slot k = s.slot k) ∧
  ((s.ss.page d).spilled = true → (s.ss.page d).wanted = true →
    ((s.ss.setPage d .none).pagesOf (s.ss.page d).home false).length < s.pf.fw.pageMiB * 16 →
    ∃ u, exec .pageReload s = .next u ∧ u = { s with ss := u.ss } ∧ u.ss = { s.ss with pages := u.ss.pages } ∧
      ∀ p, u.ss.page p = if p = d then { s.ss.page d with spilled := false, wanted := false, used := s.clock (s.ss.page d).home }
        else s.ss.page p)

/-- R317 and R339: a slot whose wait for version space or a page has run out raises VERSION.FULL with the virtual address, or STRM.FULL; where
the store is a repeat of a sequence, TRAP.REP is the repeat (R56). -/
def Claims.SpaceWaitsExpire : Prop := ∀ (s : State) (t limit : Nat),
  let x := s.slot t
  s.ev[0]? = some t → x.st = .parked ∨ x.st = .ready → x.timer = some limit → limit ≤ s.clock (dieOf t) → x.partner = none →
  x.intrap = false → x.trapVec ≠ 0 →
  (x.wait = .space → exec .versionSpillwaitExpiry s = .next (s.setSlot t (x.toHandler 0x50 x.fullVal x.pc x.fullRep))) ∧
  (x.wait = .page → exec .strmSpillwaitExpiry s =
    .next (({ s with free := s.free + 1 } : State).setSlot t (x.toHandler 0x58 (Config.freeWord s.free) x.pc x.fullRep)))

/-- Streams created, forked, ended and selected. -/
def Obligations.StreamsLive : Prop := Claims.StreamsBegin ∧ Claims.StreamEnds ∧ Claims.StreamSelected

/-- Actions, horizons and return slots of streams. -/
def Obligations.StreamQueues : Prop := Claims.ActionsQueued ∧ Claims.ActionsTaken ∧ Claims.Horizons

/-- Join groups formed and reduced. -/
def Obligations.StreamGroups : Prop := Claims.GroupsForm ∧ Claims.GroupsReduce

/-- Streams moved, batched and waiting for space. -/
def Obligations.StreamService : Prop := Claims.StreamsMigrate ∧ Claims.StreamEvents ∧ Claims.SpaceWaitsExpire

/-! ### Words, steps, reset and memory -/

/-- Words that the spec writes out, in every class, decode to the instructions that it gives for them (R47 to R54). -/
def Obligations.WordsDecode : Prop :=
  let reads (w : Nat) (i : Instr) : Prop := decode (wordBytes w) = .ok (i, [])
  reads 0x00148480 (.add 10 8 9) ∧ reads 0x10183FFF (.addi 3 0 0x3FFF) ∧ reads 0x18812345 (.lui 1 0x12345) ∧
  reads 0x23418000 (.ldD 8 6 0) ∧ reads 0x33518010 (.stD 10 6 16) ∧ reads 0x400642F0 (.amoadd 3 4 5 .d .ar) ∧
  reads 0x51183FFE (.bne 3 0 0x3FFE) ∧ reads 0x60800010 (.jal 1 16) ∧ reads 0x64004000 (.jalr 0 1 0) ∧
  reads 0x7100C002 (.cancel 12 .job) ∧ reads 0x72040C00 (.cset 2 .trapVec) ∧ reads 0x80EC8218 (.vfma .bf16 4 2 3 0) ∧
  reads 0x9130A930 (.vgather .f32 5 9 6 0) ∧ reads 0x93C00A68 (.barwait 10 13) ∧ reads 0xA1C2C680 (.mxloadc 1 12 13) ∧
  reads 0xB2010901 (.cpyMm 8 9 true) ∧ reads 0xB409250A (.ramo 9 5 .amax) ∧ reads 0xC0C82501 (.tld 4 2 10 1) ∧
  reads 0xC2C69001 (.hconfirm 3 9 true) ∧ reads 0xC7068000 (.accept 3 8) ∧ reads 0xD0064290 (.fadd 3 4 5 .s .rtz) ∧
  reads 0xE00F8000 (.rep 3 true true true .x1)

/-- R46: the word 0x0000_0000 is not an instruction, no word of class 0xF is one, and 0x1000_0000 is `addi g0, g0, 0`. -/
def Obligations.NotInstructionWords : Prop :=
  (∃ e, decode (wordBytes 0x00000000) = .error e) ∧ (∀ w, w / 2 ^ 28 % 16 = 0xF → ∃ e, decode (wordBytes w) = .error e) ∧
  decode (wordBytes 0x10000000) = .ok (.addi 0 0 0, [])

/-- The decoder gives a well-formed instruction back from its own bytes, with every operand at every value that its encoding
admits, and leaves the bytes after them (R45 to R54). -/
def Obligations.EncodingRoundTrips : Prop :=
  ∀ (i : Instr) (bs rest : List Byte), i.WF → encode i = some bs → decode (bs ++ rest) = .ok (i, rest)

/-- The decoder reads every bit of a word: what it accepts is the encoding of the well-formed instruction that it gives, and no word
has two meanings (R46 to R50). -/
def Obligations.EveryBitRead : Prop :=
  ∀ (i : Instr) (bs rest : List Byte), decode bs = .ok (i, rest) → i.WF ∧ ∃ cs, encode i = some cs ∧ bs = cs ++ rest

/-- R51 and R60: where no event comes first, the slot that the scheduler chooses fetches at its pc, and what is fetched runs:
where the four bytes there decode to an instruction, the step is that instruction's, with the rotation pointer and the turn moved
on unless the slot waits, and the lines that an L1 has no place for written back (R140); where they do not, the slot takes ILLEGAL with the
word. A core that issues before its turn (R240) is noted. (Which core's turn it is, and that no event comes first, are the model's order: log
entry 4; the fetch reads the home: log entry 8.) -/
def Obligations.StepRunsDecoded : Prop := ∀ (s : State) (t : Nat) (p : Place) (tr : Trans),
  let f : State := { s with cur := t }
  let pc := (s.slot t).pc
  let bytes := (List.range 4).map fun k => s.byteAt (tr.pa + k)
  let turned (u : State) : State := u.setCore (coreOf t) { u.core (coreOf t) with rot := BitVec.ofNat 3 t }
  let moved (u : State) : State := State.trimmed (if (u.slot t).st = .parked then u
    else if s.nextCore = some (coreOf t) then { turned u with turn := coreOf t + 1 } else { turned u with early := coreOf t :: u.early })
  s.agenda = [] → s.chosen = some t → pc.toNat ≠ 2 ^ 56 → f.access .none pc 4 .fetch = .ok (p, some tr) →
  s.ms.checkOf (lineAddr tr.pa) = .good → s.heldLine (lineAddr tr.pa) = false → Memory.wf s.ms.mem = true →
  (∀ i rest, decode bytes = .ok (i, rest) →
    ∃ u : State, exec i f = .next u ∧ Machine.step s = .next (moved u)) ∧
  (∀ e, decode bytes = .error e → f.hasHandler = true → ∃ w : Nat, wordBytes w = bytes ∧
    Machine.step s = .next (moved (({ f with ev := [w] } : State).trapped .illegal (BitVec.ofNat 64 w))))

/-- R416: a module reset clears every slot, queue mapping, window, stream, hypothesis and quarantine bit, zeroes every SRAM array, starts
CLK.CYCLE at 0 on every die, and every die is in the package again; and so does State.reset have them. -/
def Obligations.ModuleResets : Prop :=
  let cleared (u : State) : Prop :=
    (∀ t, (u.slot t).st = .free) ∧ (∀ q, tblGet none u.fs.queues q = none) ∧ (∀ k, u.window k = none) ∧
    (∀ k, (u.ss.stream k).st = .dead) ∧ (∀ k, k ≠ 0 → (u.hyps.get k).st = .free) ∧ u.hyps.nextFree = some 1 ∧
    (∀ k, tblGet false u.pf.quarCore k = false ∧ tblGet false u.pf.quarVec k = false ∧ tblGet false u.pf.quarMat k = false) ∧
    (∀ c, u.core c = .reset) ∧ (∀ c, u.cell c = .reset) ∧ u.ms.l1 = [] ∧ u.ms.versions = [] ∧ (∀ d, u.clock d = 0) ∧
    (∀ d, d < 4 → u.live d = true)
  cleared State.reset ∧ ∀ s, ∃ u, exec .moduleReset s = .next u ∧ cleared u

/-- Memory keeps its canonical form in every step: addresses strictly rising, no entry equal to what an unlisted address reads as.
The form is the model's own. -/
def Obligations.MemoryStaysCanonical : Prop :=
  ∀ s u : State, Memory.wf s.ms.mem = true → Machine.step s = .next u → Memory.wf u.ms.mem = true

/-- Memory after reset has its canonical form: it lists nothing. -/
def Obligations.ResetMemoryCanonical : Prop := Memory.wf State.reset.ms.mem = true

/-- R54 to R56: `rep` runs its partner's repeats as one instruction: each is placed with its stepped register numbers, the pc
passes the pair, and every repeat is charged; COUNT 0 is ILLEGAL at the P word, a partner that is not repeatable ILLEGAL with the
partner's word, both with TRAP.REP 0. (What R55 calls the partition count is read as log entry 48 says.) -/
def Obligations.Repeats : Prop := ∀ (count : BitVec 6) (sd sa sb : Bool) (stride : Stride) (s : State) (w : Nat) (j : Instr)
    (rest : List Byte) (f : Option StepField × Option StepField × Option StepField),
  let i := Instr.rep count sd sa sb stride
  let n := count.toNat + 1
  let by_ (b : Bool) : Nat := if b then stride.step else 0
  let q : Seq_ := ⟨n, by_ sd, by_ sa, by_ sb, j⟩
  let entry (k : Nat) : VEntry := { s.vEntry (steppedBy (k * by_ sd) (k * by_ sa) (k * by_ sb) j) false false .none with rep := some k }
  let at0 := s.setMe { s.me with trapRep := 0 }
  s.clear = true → fetchWord (s.me.pc + 4).toNat s = .ok w s → s.me.tretRep = false →
  (decode (wordBytes w) = .ok (j, rest) → repFields j = some f → isQueuedVec j = true → count ≠ 0 →
    stepBitBad f.1 (by_ sd) = false → stepBitBad f.2.1 (by_ sa) = false → stepBitBad f.2.2 (by_ sb) = false →
    q.fails f s.me.part s.me.priv = false → (∀ k, k < n → names31 (q.at k) = false) → n ≤ s.me.yieldLeft.toNat →
    s.here.vq.length + n ≤ 16 →
    exec i s = .next ((s.setCore (coreOf s.cur) { s.here with vq := s.here.vq ++ (List.range n).map entry }).setMe { s.me with
      pc := s.me.pc + 8, yieldLeft := s.me.yieldLeft - BitVec.ofNat 16 n, st := .ready, timer := none })) ∧
  (count = 0 → s.hasHandler = true → exec i s = .next (at0.trapped .illegal (BitVec.ofNat 64 (wordOf i)))) ∧
  (count ≠ 0 → decode (wordBytes w) = .ok (j, rest) → repFields j = none → s.hasHandler = true →
    exec i s = .next (at0.trapped .illegal (BitVec.ofNat 64 w)))

/-! ### Queues and packets -/

/-- R288 and R296: SIGNAL lowers its signal by DELTA, and RESTART-ACK its own by 1 with ERR_INDEX and REASON cleared; CANCEL sets CANCEL_REQ of a
record of its level and address space; each is consumed, with READ_INDEX one on. -/
def Claims.SignalPackets : Prop := ∀ (s : State) (key : Nat) (q : Queue) (p pa : Nat),
  let w := s.qWords q.qcb
  let on (u : State) : Prop := u.consumed key q.qcb (q.next + 1) (q.next + 1) 0 w.iter none
  q.replay = none → q.next + 1 < 2 ^ 64 →
  (s.takes key q p 0x04 → p / 2 ^ 16 % 2 ^ 48 = 0 → p / 2 ^ 192 = 0 → dword p 1 % 8 = 0 → s.reaches key q (dword p 1) 8 .rmw pa →
    ∃ u, exec .signalPacket s = .next u ∧ QueueWrote s u q.qcb pa 8 (s.signalLess pa (BitVec.ofNat 64 (dword p 2)).toInt) ∧ on u) ∧
  (s.takes key q p 0x09 → p / 2 ^ 16 % 2 ^ 48 = 0 → p / 2 ^ 128 = 0 → dword p 1 % 8 = 0 → dword p 1 ≠ 0 → s.reaches key q (dword p 1) 8 .rmw pa →
    ∃ u, exec .restartAck s = .next u ∧ QueueWrote s u q.qcb pa 8 (s.signalLess pa 1) ∧ on u ∧
      ((u.qWords q.qcb).error = false → (u.qWords q.qcb).errIndex = 0 ∧ (u.qWords q.qcb).reason = 0)) ∧
  (s.takes key q p 0x06 → p / 2 ^ 18 % 2 ^ 46 = 0 → p / 2 ^ 16 % 4 ≠ 3 → p / 2 ^ 128 = 0 → dword p 1 % 64 = 0 →
    s.reaches key q (dword p 1) 8 .write pa → s.recLevel pa = p / 2 ^ 16 % 4 → s.recAsid pa = s.qAsid q.qcb → s.recStatus pa = 0 →
    s.recCancel pa = false → (∀ l ∈ s.ls.launches, l.left = 0) → s.ss.streams = [] → pa + 64 ≤ q.qcb ∨ q.qcb + 128 ≤ pa →
    ∃ u, exec .cancelPacket s = .next u ∧ QueueWrote s u q.qcb (pa + 9) 1 (s.peek (pa + 9) 1 / 2 * 2 + 1) ∧ on u)

/-- R285: WAIT and BARRIER-AND block their thread on their signals; once the signal of a WAIT is at VALUE or below, or every signal of a BARRIER-AND
at 0 or below, the packet is consumed, and a BARRIER-AND lowers its completion signal by 1. -/
def Claims.WaitingPackets : Prop := ∀ (s : State) (key : Nat) (q : Queue) (p pa : Nat),
  let w := s.qWords q.qcb
  let on (u : State) : Prop := u.consumed key q.qcb (q.next + 1) (q.next + 1) 0 w.iter none
  q.replay = none → q.next + 1 < 2 ^ 64 →
  (s.takes key q p 0x03 → p / 2 ^ 16 % 2 ^ 48 = 0 → p / 2 ^ 192 = 0 → dword p 1 % 8 = 0 → s.reaches key q (dword p 1) 8 .read pa →
    exec .waitPacket s = .next (s.withQueue key (some { q with
      blocked := .waitLe (dword p 1) (BitVec.ofNat 64 (dword p 2)).toInt }))) ∧
  (∀ sig v, s.ev = [key] → s.queue key = some q → q.mapped = true → q.blocked = .waitLe sig v → s.qcbOk q.qcb →
    s.reaches key q sig 8 .read pa → (BitVec.ofNat 64 (s.peek pa 8)).toInt ≤ v → q.packet = some p →
    ∃ u, exec .waitPacketComplete s = .next u ∧ QueueWrote s u q.qcb pa 0 0 ∧ on u) ∧
  (s.takes key q p 0x05 → p / 2 ^ 16 % 2 ^ 48 = 0 → dword p 6 = 0 → dword p 7 = 0 → (∀ g ∈ depSignals p, g % 8 = 0) →
    (∃ vs, mapEach (fun g => qRead key q.qcb g 8) (depSignals p) s = .ok vs s) →
    exec .barrierAndPacket s = .next (s.withQueue key (some { q with blocked := .allZero (depSignals p) }))) ∧
  (∀ sigs vs, s.ev = [key] → s.queue key = some q → q.mapped = true → q.blocked = .allZero sigs → s.qcbOk q.qcb →
    s.unblocked key q = true → q.packet = some p →
    mapEach (fun g => qRead key q.qcb g 8) (depSignals p) s = .ok vs s → dword p 7 ≠ 0 → s.reaches key q (dword p 7) 8 .rmw pa →
    ∃ u, exec .barrierAndComplete s = .next u ∧ QueueWrote s u q.qcb pa 8 (s.signalLess pa 1) ∧ on u)

/-- R289: REPLAY-BEGIN stores 0 to its ITER word and starts a replay, READ_INDEX staying at it; REPLAY-END counts the iteration, and ends the replay
after COUNT of them, or runs it again from the packet after its begin, with ITER stored. -/
def Claims.ReplayPackets : Prop := ∀ (s : State) (key : Nat) (q : Queue) (p pa : Nat),
  let w := s.qWords q.qcb
  q.next + 1 < 2 ^ 64 →
  (s.takes key q p 0x07 → p / 2 ^ 16 % 2 ^ 48 = 0 → p / 2 ^ 256 = 0 → dword p 1 < 2 ^ 32 → dword p 2 = 0 → dword p 3 % 8 = 0 → dword p 3 ≠ 0 →
    q.replay = none → s.reaches key q (dword p 3) 8 .write pa →
    ∃ u, exec .replayBegin s = .next u ∧ QueueWrote s u q.qcb pa 8 0 ∧
      u.consumed key q.qcb (q.next + 1) q.next 1 0 (some ⟨q.next, dword p 1, 0, dword p 3, 0⟩)) ∧
  (∀ r : Replay, s.takes key q p 0x08 → p / 2 ^ 16 % 2 ^ 48 = 0 → p / 2 ^ 64 = 0 → q.replay = some r → r.stop = 0 → r.iter + 1 < 2 ^ 32 →
    r.iterWord ≠ 0 → s.reaches key q r.iterWord 8 .write pa →
    (r.count = r.iter + 1 → ∃ u, exec .replayEnd s = .next u ∧ QueueWrote s u q.qcb pa 0 0 ∧
      u.consumed key q.qcb (q.next + 1) (q.next + 1) 0 (r.iter + 1) none) ∧
    (r.count = 0 ∨ r.iter + 1 < r.count → ∃ u, exec .replayEnd s = .next u ∧ QueueWrote s u q.qcb pa 8 (r.iter + 1) ∧
      u.consumed key q.qcb (r.start + 1) w.readIndex 1 (r.iter + 1) (some { r with iter := r.iter + 1 })))

/-- R285 and R290: a reserved type puts the queue into ERROR at its index with REASON 1, and its thread takes no further packet; COPY places a
`cpy.mm` of the queue with the Carter that holds the fewest, and stays in flight; a COPY whose geometry reaches outside the address space
is malformed, REASON 2 (R301). -/
def Claims.ReservedAndCopyPackets : Prop := ∀ (s : State) (key : Nat) (q : Queue) (p : Nat),
  let w := s.qWords q.qcb
  (s.takes key q p (p % 256) → 0x0A ≤ p % 256 → q.next < 2 ^ 64 → ∃ u, exec .reservedPacket s = .next u ∧ QueueWrote s u q.qcb q.qcb 0 0 ∧
    u.qWords q.qcb = { w with error := true, reason := 1, errIndex := q.next } ∧
    u.queue key = some { q with packet := none, blocked := .no }) ∧
  (∀ c pl pl' t t', s.takes key q p 0x02 → p / 2 ^ 16 % 2 ^ 48 = 0 → dword p 3 / 2 ^ 48 = 0 → 0 < dword p 3 % 2 ^ 32 → dword p 6 = 0 →
    dword p 7 = 0 → q.replay = none → q.next + 1 < 2 ^ 64 →
    sideIn (dword p 1) (extent (copyGeometry p) (copyGeometry p).s) (2 ^ 56) →
    sideIn (dword p 2) (extent (copyGeometry p) (copyGeometry p).t) (2 ^ 56) →
    checkPlace s (s.qAgent key q.qcb) .none (BitVec.ofNat 64 (dword p 1)) 1 .read = .ok (pl, some t) →
    checkPlace s (s.qAgent key q.qcb) .none (BitVec.ofNat 64 (dword p 2)) 1 .write = .ok (pl', some t') →
    s.freeCarter (queueDie key) = some c →
    ∃ u cmd, exec .copyPacket s = .next u ∧ u.es = { s.es with cmds := s.es.cmds ++ [cmd], nextCmd := s.es.nextCmd + 1 } ∧
      cmd.id = s.es.nextCmd ∧ cmd.carter = c ∧ cmd.form = .mm ∧ cmd.src = dword p 1 ∧ cmd.dst = dword p 2 ∧
      cmd.geo.run = dword p 3 % 2 ^ 32 ∧ cmd.geo.n = [dword p 3 / 2 ^ 32 + 1, 1, 1] ∧ cmd.asid = s.qAsid q.qcb ∧
      cmd.queue = some (q.qcb, q.next, p / 512 % 2) ∧ u.consumed key q.qcb (q.next + 1) (q.next + 1) 0 w.iter none ∧
      u.fs.inFlight = s.fs.inFlight ++ [(q.qcb, q.next)]) ∧
  (s.takes key q p 0x02 → q.next < 2 ^ 64 →
    ¬sideIn (dword p 1) (extent (copyGeometry p) (copyGeometry p).s) (2 ^ 56) ∨
      ¬sideIn (dword p 2) (extent (copyGeometry p) (copyGeometry p).t) (2 ^ 56) →
    ∃ u, exec .copyPacket s = .next u ∧ QueueWrote s u q.qcb q.qcb 0 0 ∧ u.es = s.es ∧
      u.qWords q.qcb = { w with error := true, reason := 2, errIndex := q.next } ∧
      u.queue key = some { q with packet := none, blocked := .no })

/-- R282, R292 to R295 and R431: a store to NOTIFY makes an unmapped queue runnable; a sleeping thread reads its header again
after 65,536 cycles, and takes the packet up where it is published; a valid table entry registers a queue, and one no longer valid is
unmapped at its next packet boundary, as is one that a queue of equal PRIO has waited 1 ms for; an unmapped queue whose entry
stands stays registered; the runnable queue that comes first takes a thread at READ_INDEX. (1 ms is counted in cycles of the clock as it
runs: R24.) -/
def Claims.QueueEvents : Prop := ∀ (s : State) (key : Nat) (q : Queue),
  let now := s.clock (queueDie key)
  let w := s.qWords q.qcb
  s.ev = [key] →
  (s.queue key = some q → q.notified = true → q.mapped = false → exec .notifyStore s = .next (s.withQueue key (some { q with
    notified := false, runnable := true, waitingSince := if q.runnable = true then q.waitingSince else now }))) ∧
  (∀ p, s.queue key = some q → q.mapped = true → q.packet = none → q.blocked = .no → q.waitingSince + 65536 ≤ now → w.error = false →
    q.replay = none → s.live (homeOf q.qcb) = true → s.ms.checkOf q.qcb = .good → s.ms.checkOf (q.qcb + 64) = .good → s.hyps.cur = none →
    qEntry key q.qcb q.next s = .ok p s →
    exec .factorPoll s = .next (s.withQueue key (some { q with
      waitingSince := now,
      packet := if p % 256 ≠ 0 ∧ p / 256 % 2 = q.next / 2 ^ s.qLog2 q.qcb % 2 then some p else none }))) ∧
  (∀ qcb, key < 4096 → s.live (queueDie key) = true → s.queue key = none → s.tableQcb key = some qcb →
    ∃ n, exec .queueTableUpdate s = .next (s.withQueue key (some n)) ∧ n.qcb = qcb ∧ n.mapped = false ∧
      n.runnable = s.pendingWork qcb ∧ n.next = (s.qWords qcb).readIndex ∧ n.waitingSince = now) ∧
  (key < 4096 → s.live (queueDie key) = true → s.queue key = some q → q.mapped = true → s.tableQcb key ≠ some q.qcb →
    exec .queueTableUpdate s = .next (s.withQueue key (some { q with unmapping := true }))) ∧
  (∀ v m, s.queue key = some q → s.waitVictim key q = some v → s.queue v = some m →
    exec .queueWaitTimeout s = .next (s.withQueue v (some { m with unmapping := true }))) ∧
  (s.queue key = some q → q.mapped = true → q.blocked ≠ .launch → q.unmapping = true →
    (s.tableQcb key = some q.qcb → exec .queueUnmap s = .next (s.withQueue key (some { q with
      mapped := false, unmapping := false, packet := none, replay := none, blocked := .no, waitingSince := now,
      runnable := s.pendingWork q.qcb || q.notified || q.restart }))) ∧
    (s.tableQcb key ≠ some q.qcb → exec .queueUnmap s = .next (s.withQueue key none))) ∧
  (∀ k, s.live key = true → s.threadsFull key = false → s.firstToMap (s.runnableQueues key) = some (k, q) → s.queue k = some q → w.off = 0 →
    s.qcbOk q.qcb → ∃ u n, exec .queueMap s = .next u ∧ u.queue k = some n ∧ n.qcb = q.qcb ∧ n.mapped = true ∧ n.runnable = false ∧
      n.next = w.readIndex ∧ n.replay = none ∧ n.blocked = .no ∧ QueueWrote s u q.qcb q.qcb 0 0) ∧
  (s.queue key = some q → q.mapped = true → w.off = 0 → s.qcbOk q.qcb → ∃ u n, exec .factorWatchdog s = .next u ∧
    u.queue key = some n ∧ n.mapped = true ∧ n.next = w.readIndex ∧ n.replay = none ∧ n.blocked = .no ∧ QueueWrote s u q.qcb q.qcb 0 0)

/-- R291: a restart at an index from READ_INDEX to WRITE_INDEX makes it the READ_INDEX and ends ERROR; any other leaves ERROR, with
REASON 5. -/
def Claims.QueueRestarts : Prop := ∀ (s : State) (key : Nat) (q : Queue),
  let w := s.qWords q.qcb
  let r := s.qRestart q.qcb
  s.ev = [key] → s.queue key = some q → q.mapped = true → q.restart = true → w.error = true → s.qcbOk q.qcb → s.live (homeOf q.qcb) = true →
  (w.readIndex ≤ r → r ≤ s.qWrite q.qcb → ∃ u n, exec .queueRestart s = .next u ∧ QueueWrote s u q.qcb q.qcb 0 0 ∧
    (u.qWords q.qcb).readIndex = r ∧ (u.qWords q.qcb).off = 0 ∧ u.queue key = some n ∧ n.next = r ∧ n.restart = false) ∧
  (r < w.readIndex ∨ s.qWrite q.qcb < r → ∃ u, exec .queueRestart s = .next u ∧ QueueWrote s u q.qcb q.qcb 0 0 ∧
    u.qWords q.qcb = { w with reason := 5 } ∧ u.queue key = some { q with restart := false })

/-- What the packets of a queue do. -/
def Obligations.PacketsStart : Prop := Claims.SignalPackets ∧ Claims.WaitingPackets ∧ Claims.ReplayPackets ∧ Claims.ReservedAndCopyPackets

/-- Notifications, polling, errors and restarts of queues. -/
def Obligations.QueuesServed : Prop := Claims.QueueEvents ∧ Claims.QueueRestarts

/-! ### Launches, tasks and the memory system's events -/

/-- R286 and R287: a LAUNCH packet that its thread reads blocks the thread until the launch is accepted; a launch accepted is open under a number
that no open launch holds, with what its packet says, its record holds OUTSTANDING and its address space, and READ_INDEX is one on.
The number is free (log entry 16). -/
def Claims.LaunchesAccepted : Prop := ∀ (s : State) (key : Nat) (q : Queue) (p n : Nat) (w : LaunchPlaces),
  let x : State := { s with free := s.free + 1 }
  let ds := launchDies p &&& s.pf.live
  q.replay = none → q.next + 1 < 2 ^ 64 →
  (s.takes key q p 0x01 → launchMalformed p = false → launchPlaces key q p s = .ok w s →
    exec .launchPacket s = .next (s.withQueue key (some { q with blocked := .launch }))) ∧
  (s.ev = [key] → s.queue key = some q → q.mapped = true → q.blocked = .launch → s.qcbOk q.qcb → q.packet = some p →
    launchFails p (s.qWorld q.qcb) s.pf.live = false → launchDep p = false → ds ≠ 0 → launchGraph p = 0 →
    s.freeNumber (Config.freeWord s.free).toNat = some n → launchPlaces key q p x = .ok w x → w.record % 64 = 0 → s.homeLives w.record →
    w.record + 64 ≤ q.qcb ∨ q.qcb + 128 ≤ w.record →
    ∃ u l, exec .launchAccept s = .next u ∧ QueueWrote s u q.qcb w.record 64 (launchCount p + (s.qAsid q.qcb).toNat * 2 ^ 96) ∧
      u.consumed key q.qcb (q.next + 1) (q.next + 1) 0 (s.qWords q.qcb).iter none ∧ u.ls.launches = s.ls.launches ++ [l] ∧
      s.launch? n = none ∧ l.number = n ∧ l.recAddr = w.record ∧ l.signal = w.signal ∧ l.pc = BitVec.ofNat 64 (dword p 1) ∧
      l.args = BitVec.ofNat 64 (dword p 3) ∧ l.part = BitVec.ofNat 64 (dword p 4) ∧ l.sx = dword p 2 % 2 ^ 16 + 1 ∧
      l.sy = dword p 2 / 2 ^ 16 % 2 ^ 16 + 1 ∧ l.sz = dword p 2 / 2 ^ 32 % 2 ^ 16 + 1 ∧ l.left = launchCount p ∧ l.dies = ds ∧
      l.asid = s.qAsid q.qcb ∧ l.sys = s.qSys q.qcb ∧ l.queue = some (q.qcb, q.next, p / 512 % 2) ∧
      u.fs.inFlight = s.fs.inFlight ++ [(q.qcb, q.next)])

/-- R63: a die with a core that accepts a task of a launch receives the launch's next indices, 64 at most, in rising order. -/
def Claims.ChunksHandedOut : Prop := ∀ (s : State) (n die c : Nat) (l : Launch),
  let k := min 64 (l.count - l.handed)
  s.ev = [n, die] → s.launch? n = some l → l.faulted = false → l.lost = false → s.recCancelled l.recAddr = false → l.dep = false →
  l.dies.getLsbD die = true → s.live die = true → l.handed < l.count → tblGet [] l.chunks die = [] → s.nextCoreFor l die = some c →
  ∃ u l', exec .distributorChunk s = .next u ∧ u = { s with ls := u.ls } ∧ u.launch? n = some l' ∧ l'.handed = l.handed + k ∧
    tblGet [] l'.chunks die = (List.range k).map (fun j => l.handed + j) ∧ ∀ d, d ≠ die → tblGet [] l'.chunks d = tblGet [] l.chunks d

/-- R63, R64 and R80: the next index of the launch that a die serves first becomes a task in a FREE slot of the core chosen: at the launch's pc,
with the index in g4, its coordinates in g5, the argument address in g6 and the launch word in g7, all else zero; TASK_CREATE serves
plain launches, DEP_INDEX_RELEASE those with counters. -/
def Claims.TasksCreated : Prop := ∀ (s : State) (die i core t : Nat) (again dep : Bool) (l : Launch),
  s.ev = [die] → s.live die = true → s.serves die = some l → s.launch? l.number = some l → l.dep = dep →
  l.nextIndex die = some (i, again) → s.nextCoreFor l die = some core → s.freeSlotOn core = some t →
  l.paired = false → l.reissuable = false → l.chmode = 0 →
  ∃ u l', exec (if dep then .depIndexRelease else .taskCreate) s = .next u ∧ SameMemory s u ∧ (u.slot t).st = .ready ∧
    (u.slot t).pc = l.pc ∧ (u.slot t).launch = l.number ∧ (u.slot t).index = i ∧ (u.slot t).asid = l.asid ∧ (u.slot t).priv = l.sys ∧
    (u.slot t).reissued = again ∧ (u.slot t).yieldLeft = l.budget ∧ (u.slot t).hypId = 0 ∧ (u.slot t).regions = [] ∧
    (∀ r : GReg, (u.slot t).gval r = if r = 4 then BitVec.ofNat 64 i else if r = 5 then BitVec.ofNat 64
      (i % l.sx + i / l.sx % l.sy * 2 ^ 16 + i / (l.sx * l.sy) * 2 ^ 32) else if r = 6 then l.args else if r = 7 then l.word else 0) ∧
    (∀ k, k ≠ t → u.slot k = s.slot k) ∧ u.launch? l.number = some l' ∧ l'.left = l.left - 1 ∧
    tblGet [] l'.chunks die = (tblGet [] l.chunks die).erase i ∧ tblGet [] l'.readyq die = (tblGet [] l.readyq die).erase i

/-- R68 and R82: an ENDING slot whose work has drained becomes FREE, and OUTSTANDING of its launch falls by one; for an index of a REISSUABLE launch
the master finishes it: the finish is recorded, with the deputy, the region of a cancelled one is refuted, then OUTSTANDING falls. -/
def Obligations.TasksEnd : Prop :=
  (∀ (s : State) (t : Nat) (l : Launch),
    let x := s.slot t
    s.ev = [t] → x.st = .ending → s.drainedOf t = true → x.engFaults = [] → x.barReg = [] → x.regions = [] → x.wc = [] → x.shadow = false →
    x.stepTask = false → (∀ y ∈ s.ms.l1, y.cell = cellOf t → y.dirty = 0) → s.launch? x.launch = some l → l.reissuable = false →
    l.recAddr % 64 = 0 → s.noInjection → s.homeLives l.recAddr → s.ms.checkOf l.recAddr ≠ .single → 1 < s.recOutstanding l.recAddr →
    ∃ u, exec .quitComplete s = .next u ∧ (u.slot t).st = .free ∧ Wrote s u l.recAddr 8 (s.outstanding l.recAddr (-1)) ∧
      ∀ k, k ≠ t → u.slot k = { s.slot k with wc := (u.slot k).wc, resv := (u.slot k).resv }) ∧
  (∀ (s : State) (f : Finish) (rest : List Finish) (l : Launch), s.ls.finishing = f :: rest → s.hyps.cur = none → f.region ≠ 0 →
    (s.hyps.get f.region).st = .opened → f.confirm = false → s.launch? f.launch = some l → l.recAddr % 64 = 0 → s.noInjection →
    s.homeLives l.recAddr → s.ms.checkOf l.recAddr ≠ .single → 1 < s.recOutstanding l.recAddr →
    ∃ u l', exec .reissueFinish s = .next u ∧ u.ls.finishing = rest ∧ (u.hyps.get f.region).st = .refuted ∧
      Wrote s u l.recAddr 8 (s.outstanding l.recAddr (-1)) ∧ u.launch? f.launch = some l' ∧
      l'.finished = l.finished ++ [(f.index, ((List.range 4).find? fun d => l.dies.getLsbD d && decide (l.master < d)).getD l.master)])

/-- R405 and R407: where a launch waits for slots on a die, pre-emption is asked of a running launch of lower PRIO; a saved core
context resumes on an empty core: its slots as they were saved, with TILES_LOST where a tile was discardable, its scratchpad and
accumulators as saved; entries reserved in the slot for messages on their way stay (R214). (Which contexts resume together, and where, is log
entry 51's.) -/
def Claims.Preemption : Prop :=
  (∀ (s : State) (die : Nat) (l : Launch),
    let asked : State := { s with ls := { s.ls with preempt := s.ls.preempt ++ [(l.number, die)] } }
    s.ev = [die] → s.preemptVictim die = some l → s.ls.preempt.contains (l.number, die) = false → asked.saveable die = [] →
    exec .preemptRequest s = .next asked) ∧
  (∀ (s : State) (n core key : Nat) (c : SavedCtx) (m : SavedCore) (x : Slot) (l : Launch),
    let lost := (List.range (nTiles m.part)).any fun k => isDiscardable m.part k
    let t := 8 * core + key % 32768 % 8
    s.ev = [n, core] → s.ls.saved[n]? = some c → s.resumesWith c = [c] → c.slots = [(key, x)] →
    (∀ d ∈ s.ls.saved, d ≠ c → d.bundle ≠ c.bundle ∧ ¬(key, x) ∈ d.slots) → x.partner = none → c.shared = some m → c.cmds = [] → s.takesContext c core = true → s.launch? c.launch = some l →
    (∀ w ∈ s.waitingOn (core / 1024), s.before (core / 1024) w l = false) →
    ∃ u, exec .contextRestore s = .next u ∧ SameMemory s u ∧ u.ls.saved = s.ls.saved.filter (fun d => ¬d ∈ [c]) ∧
      u.slot t = { (if lost then x.setStat 3 true else x) with inq := x.inq ++ (s.slot t).inq } ∧ (∀ k, k ≠ t → u.slot k = s.slot k) ∧
      (u.core core).part = m.part ∧ (u.core core).scratch = m.scratch ∧ (u.core core).acc = m.acc)

/-- R61: a parked slot issues its instruction again. R156: a `wrs` whose timeout passes while its reservation stands gives 1, with
the reservation gone. (When a parked slot examines its condition is log entry 4's.) -/
def Claims.WaitsEnd : Prop :=
  (∀ (s : State) (t : Nat), s.ev = [t] → (s.slot t).st = .parked → exec .unpark s = .next (s.setSlot t { s.slot t with st := .ready })) ∧
  (∀ (s : State) (t n line limit : Nat) (d a b : GReg) (wd : AmoWidth) (rest : List Byte),
    let f : State := { s with cur := t }
    let i := Instr.wrs d a b wd
    s.ev = [t] → (s.slot t).st = .parked → (s.slot t).wait = .wrs → (s.slot t).resv = some ⟨line, false⟩ → (s.slot t).timer = some limit →
    limit ≤ s.clock (dieOf t) → fetchWord (s.slot t).pc.toNat f = .ok n f → decode (wordBytes n) = .ok (i, rest) →
    (s.slot t).partner = none → d ≠ 31 → a ≠ 31 → b ≠ 31 →
    exec .wrsTimeout s = .next (((f.setMe { f.me with resv := none, timer := none }).put d 1).done i))

/-- R134 and R140: a line that an L1 replaces has its dirty bytes performed at its home, and leaves the L1; a home line that leaves the state store
leaves no owner of its words behind. -/
def Claims.LinesReplaced : Prop :=
  (∀ (s : State) (cell asid va k : Nat) (x : L1Line), s.ev = [cell, asid, va, k] → s.ms.l1Find cell (BitVec.ofNat 16 asid) va k = some x → x.hyp = 0 →
    x.pa % 64 = 0 → x.check = .good → s.ms.checkOf x.pa ≠ .single → s.heldLine x.pa = false → s.noInjection → s.homeLives x.pa →
    ∃ u, exec .l1Replacement s = .next u ∧ u.ms.l1Find cell (BitVec.ofNat 16 asid) va k = none ∧
      ∀ a, u.byteAt a = if x.pa ≤ a ∧ a < x.pa + 64 ∧ x.dirty.getLsbD (a - x.pa) = true
        then x.data.extractLsb' (8 * (a - x.pa)) 8 else s.byteAt a) ∧
  (∀ (s : State) (a : Nat) (rest : List Nat), s.ev = a :: rest → pkgOf (lineAddr a) = s.ws.own → s.live (homeOf (lineAddr a)) = true →
    ∃ u, exec .homeEviction s = .next u ∧ SameMemory s u ∧ u.slots = s.slots ∧ ∀ k, k < 16 → tblGet 0 u.ms.owner (lineAddr a + 4 * k) = 0)

/-- R395 to R397: a miss that neither TLB answers joins the miss entry of its page, or takes one of 4,096, or waits outside them; a walk for
the oldest miss of a die leaves its leaf in the die's TLB and in those of the cells that wait, and ends every miss within the page; one that
faults ends its miss, and nothing is kept; a die that takes an `inval` drops its translations and its walk cache's entries in the range, and
acknowledges it. (That nothing else fills a TLB is the model's choice: log entry 18.) -/
def Claims.TranslationsHeld : Prop :=
  (∀ (s : State) (cell asid va : Nat),
    let a := BitVec.ofNat 16 asid
    let die := cell / 128
    let mine (x : Miss) : Prop := x.die = die ∧ x.asid = a ∧ x.vpage = va / 2 ^ 16
    s.ev = [0, cell, asid, va] → cell < 512 → s.live die = true → va < 2 ^ 56 →
    (∀ e ∈ s.ms.tlb, ¬((e.holder = cell ∨ e.holder = 512 + die) ∧ e.asid = a ∧ e.vpage = va / 2 ^ pageShift e.level)) →
    (∀ x, s.ms.misses = [x] → mine x → ¬cell ∈ x.cells → exec .tlbWalk s =
      .next { s with ms := { s.ms with misses := [{ x with cells := x.cells ++ [cell] }] } }) ∧
    ((∀ x ∈ s.ms.misses, ¬mine x) → (s.ms.misses.filter fun x => x.die = die).length < 4096 → exec .tlbWalk s =
      .next { s with ms := { s.ms with misses := s.ms.misses ++ [⟨die, a, va / 2 ^ 16, [cell]⟩] } }) ∧
    ((∀ x ∈ s.ms.misses, ¬mine x) → 4096 ≤ (s.ms.misses.filter fun x => x.die = die).length → exec .tlbWalk s = .next s)) ∧
  (∀ (s : State) (die : Nat) (victims : List Nat) (x : Miss),
    let va := 2 ^ 16 * x.vpage
    s.ev = 1 :: die :: victims → s.ms.misses.find? (fun y => y.die = die) = some x →
    (∀ f, walk s die x.asid .read va = .error f →
      exec .tlbWalk s = .next { s with ms := { s.ms with misses := s.ms.misses.erase x } }) ∧
    (∀ l, walk s die x.asid .read va = .ok l →
      let e (h : Nat) : TlbEntry := ⟨h, x.asid, va / 2 ^ pageShift l.level, l.level, l.pte⟩
      let in_ (y : Miss) : Bool := y.die = die && y.asid = x.asid && 2 ^ 16 * y.vpage / 2 ^ pageShift l.level = va / 2 ^ pageShift l.level
      ∃ u, exec .tlbWalk s = .next u ∧
        u = { s with ms := { s.ms with tlb := u.ms.tlb, walkCache := u.ms.walkCache, misses := s.ms.misses.filter fun y => !in_ y } } ∧
        e (512 + die) ∈ u.ms.tlb ∧ (∀ y ∈ s.ms.misses, in_ y = true → ∀ c ∈ y.cells, e c ∈ u.ms.tlb) ∧
        (∀ y ∈ u.ms.tlb, y ∈ s.ms.tlb ∨ y = e (512 + die) ∨ ∃ m ∈ s.ms.misses, in_ m = true ∧ ∃ c ∈ m.cells, y = e c) ∧
        ∀ y ∈ s.ms.walkCache, y ∈ u.ms.walkCache)) ∧
  (∀ (s : State) (t h id : Nat) (all asid lo n : Nat) (hs : List Nat) (answer : Option Nat),
    let hit := invalHits (all = 1) asid lo n
    s.ev = [t, h] → (s.slot t).pend = some ⟨.inval, id, [all, asid, lo, n] ++ hs, answer⟩ → h ∈ hs → 512 ≤ h →
    (∀ x ∈ s.ms.l1, x.cell ≠ h) → (∀ x ∈ s.slots, cellOf x.1 ≠ h) →
    exec .invalHolder s = .next (({ s with ms := { s.ms with
      tlb := s.ms.tlb.filter fun e => !(e.holder = h && hit e.asid (e.vpage * 2 ^ pageShift e.level) (2 ^ pageShift e.level))
      walkCache := s.ms.walkCache.filter fun e =>
        !(512 + e.die = h && hit e.asid (e.path * 2 ^ pathShift e.level) (2 ^ pathShift e.level)) } } : State).setSlot t
      { s.slot t with pend := some ⟨.inval, id, [all, asid, lo, n] ++ hs.erase h, answer⟩ }))

/-- Launches accepted and their tasks created. -/
def Obligations.LaunchesBegin : Prop := Claims.LaunchesAccepted ∧ Claims.ChunksHandedOut ∧ Claims.TasksCreated

/-- Tasks pre-empted, restored and woken. -/
def Obligations.TasksMove : Prop := Claims.Preemption ∧ Claims.WaitsEnd

/-- Lines replaced in caches, translations held and invalidated. -/
def Obligations.CachesAndTlbs : Prop := Claims.LinesReplaced ∧ Claims.TranslationsHeld ∧ Claims.InvalOutcomes

/-! ### The fabric, the boot, worlds, power and heat -/

/-- R371 and R372: a leg of a route goes round its ring one way, by links that are there, and ends at the coordinate wanted: where no link is
missing the shorter way, and + when both are equally long. -/
def Claims.RoutesTaken : Prop := ∀ (w : WinSys) (d : Nat) (c : Coords) (dst : Nat) (hs : List Hop),
  let size := w.size d
  let n := (dst + size - coordAt c d) % size
  d < 3 → dst < size → coordAt c d < size → coordAt c d ≠ dst → w.leg d c dst = some hs →
  ∃ plus, (∀ h ∈ hs, h.dim = d ∧ h.plus = plus ∧ w.missing h = false) ∧ hs.length = (if plus = true then n else size - n) ∧
    (∃ h, hs.getLast? = some h ∧ coordAt (w.reaches h) d = dst) ∧
    ((∀ h, w.missing h = false) → plus = decide (2 * n ≤ size))

/-- R372 and R373: a flit leaves by its port on a channel of its class (log entry 56 says which), or waits where that channel is paused; a damaged flit is asked for again,
and eight failed retries in a row take the port's link down; a pause flit stops a virtual channel of a port that is up, a resume flit lets it
go on, with the flits that waited. R25: a fabric die that fails takes its three ports with it. R374: a link of another package is noted when
it goes down. -/
def Claims.LinkEvents : Prop :=
  (∀ (w : WinSys) (d : Nat) (b : FlitBody),
    let g := w.leaves w.own b.dest
    let f : OutFlit := ⟨b, g.1, 2 * b.cls + g.2, gateDie d g.1, none⟩
    ((tblGet .down w.ports f.port).paused.getLsbD f.channel = true → w.send w.own d none none b = { w with held := w.held ++ [(f, none)] }) ∧
    ((tblGet .down w.ports f.port).paused.getLsbD f.channel = false → (∀ h ∈ w.held, h.1.port = f.port → h.1.channel ≠ f.channel) →
      w.send w.own d none none b = { w with out := w.out ++ [f] })) ∧
  (∀ (s : State) (p good : Nat), let x := tblGet .down s.ws.ports p
    s.ev = [p, good] → p < 6 → x.up = true →
    ∃ u, exec .linkCrcRetry s = .next { s with ws := u } ∧ (∀ k, k ≠ p → tblGet .down u.ports k = tblGet .down s.ws.ports k) ∧
      tblGet .down u.ports p = if good = 1 then { x with retries := 0 } else if x.retries < 7 then { x with retries := x.retries + 1 } else .down) ∧
  (∀ (s : State) (p good pkg : Nat), s.ev = [p, good, pkg + 1] → p < 6 → pkg ≠ s.ws.own →
    ∃ u, exec .linkCrcRetry s = .next { s with ws := u } ∧ u.portDown pkg p = decide (good ≠ 1)) ∧
  (∀ (s : State) (p c : Nat), let x := tblGet .down s.ws.ports p
    s.ev = [p, c] → p < 6 → c < 8 → x.up = true →
    (∃ u, exec .pauseFlit s = .next { s with ws := u } ∧ (∀ k, k ≠ p → tblGet .down u.ports k = tblGet .down s.ws.ports k) ∧
      ∀ k, (tblGet .down u.ports p).paused.getLsbD k = (x.paused.getLsbD k || decide (k = c))) ∧
    ((∀ h ∈ s.ws.held, h.2 = none) → ∃ u, exec .resumeFlit s = .next { s with ws := u } ∧
      u.out = s.ws.out ++ (s.ws.held.filter fun h => h.1.port = p && h.1.channel = c).map (·.1) ∧
      u.held = s.ws.held.filter (fun h => !(h.1.port = p && h.1.channel = c)) ∧
      (∀ k, k ≠ p → tblGet .down u.ports k = tblGet .down s.ws.ports k) ∧
      ∀ k, (tblGet .down u.ports p).paused.getLsbD k = (x.paused.getLsbD k && decide (k ≠ c)))) ∧
  (∀ (s : State) (f : Nat), s.ev = [f] → f < 2 →
    ∃ u, exec .fabricDieFailure s = .next { s with ws := u } ∧
      (∀ k, k < 2 → u.fabricDies.getLsbD k = (s.ws.fabricDies.getLsbD k && decide (k ≠ f))) ∧
      ∀ p, tblGet .down u.ports p = if p / 3 = f then .down else tblGet .down s.ws.ports p)

/-- R369, R385 and R386: an entry of the package table written; a package lost is marked absent, its memory is lost, and every pending
contribution to it becomes ABORTED; the notice of a fenced die does that for the windows there, and its memory is lost until the package's
entry is written again (log entry 67). -/
def Claims.PackagesChange : Prop :=
  (∀ (s : State) (p k a b : Nat), s.ev = [p, k, a, b] →
    ∃ u, exec .packageTableRewrite s = .next { s with ws := u } ∧ (∀ die, die < 4 → ¬(p % 65536) * 4 + die ∈ u.lost) ∧
      ∀ x, tblGet .absent u.packages x = if x = p % 65536 then
        (match k with
        | 1 => .coords (a % 256) (a / 256 % 256) (a / 65536 % 256)
        | 2 => .host (a % 65536) (b % 8 % 6) (b / 8 % 2 = 1)
        | _ => .absent) else tblGet .absent s.ws.packages x) ∧
  (∀ (s : State) (pkg : Nat), s.ev = [pkg] → pkg ≠ s.ws.own →
    ∃ u, exec .packageLost s = .next u ∧ (∀ x, u.byteAt x = if pkgOf x = pkg then 0 else s.byteAt x) ∧
      (∀ x, tblGet .absent u.ws.packages x = if x = pkg then .absent else tblGet .absent s.ws.packages x) ∧
      u.ws.flying = s.ws.flying.filter (fun c => ¬pkgOf c.pa = pkg) ∧
      ∀ t k r, tblGet none (s.slot t).rpend k = some r → tblGet none (u.slot t).rpend k =
        some (if r.status = none ∧ pkgOf r.pa = pkg then { r with status := some 4, result := 0 } else r)) ∧
  (∀ (s : State) (pkg die : Nat), s.ev = [pkg, die] → pkg ≠ s.ws.own → die < 4 →
    ∃ u, exec .fenceNotice s = .next u ∧ u.ws.flying = s.ws.flying.filter (fun c => ¬c.pa / 2 ^ 38 = pkg * 4 + die) ∧
      (∀ pa secure, pa / 2 ^ 38 = pkg * 4 + die → s.ws.reachable pkg = true → s.ws.isHost pkg = false →
        ∃ v, placeFault u secure pa = some (.memLost, v)) ∧
      ∀ t k r, tblGet none (s.slot t).rpend k = some r → tblGet none (u.slot t).rpend k =
        some (if r.status = none ∧ r.pa / 2 ^ 38 = pkg * 4 + die then { r with status := some 4, result := 0 } else r))

/-- R21, R22, R142, R144 and R371: a host's bytes within one line are performed at their home, its read is answered with the bytes and the
line's check value, or the fault; a flit for another package goes on, or is answered with FAB.UNREACH; a peer's read, write and atomic
are performed and answered; the announcement of a package marks its number present (R417). (The form of the flits is the model's: log entry 10.) -/
def Obligations.OutsideAccesses : Prop :=
  let free (s : State) (pa : Nat) : Prop := s.noInjection ∧ s.homeLives pa ∧ s.ms.checkOf (lineAddr pa) ≠ .single ∧ s.heldLine (lineAddr pa) = false
  let sound (s : State) (pa : Nat) : Prop := s.ms.checkOf (lineAddr pa) = .good ∧ s.heldLine (lineAddr pa) = false
  let line (s : State) (x : State) (peer pa : Nat) (w : List Nat) : WinSys :=
    s.ws.send s.ws.own (homeOf pa) none (some (x.lineValue pa)) (.response peer w)
  let reply (s : State) (peer : Nat) (w : List Nat) : WinSys := s.ws.send s.ws.own s.firstDie none none (.response peer w)
  (∀ (s : State) (host pa : Nat) (bytes : List Nat), s.ev = host :: pa :: bytes → s.pf.stage = 8 → s.ws.isHost host = true →
    1 ≤ bytes.length → pa % 64 + bytes.length ≤ 64 → free s pa →
    (∀ c, s.outsideFault (s.ws.hostWorld host) pa = some c → exec .hostWrite s = .next s) ∧
    (s.outsideFault (s.ws.hostWorld host) pa = none → ∃ u, exec .hostWrite s = .next u ∧ Wrote s u pa bytes.length (numberOf bytes) ∧
      u.ws = s.ws)) ∧
  (∀ (s : State) (host req pa n : Nat), s.ev = [host, req, pa, n] → s.pf.stage = 8 → s.ws.isHost host = true → 1 ≤ n → pa % 64 + n ≤ 64 →
    (∀ c, s.outsideFault (s.ws.hostWorld host) pa = some c →
      exec .hostRead s = .next { s with ws := reply s host [req, faultAnswer c, 0] }) ∧
    (s.outsideFault (s.ws.hostWorld host) pa = none → sound s pa →
      exec .hostRead s = .next { s with ws := line s s host pa [req, 0, s.peek pa n] })) ∧
  (∀ (s : State) (dest src kind port channel : Nat) (w : List Nat), s.ev = dest :: src :: kind :: port :: channel :: w → s.pf.stage = 8 →
    let on : WinSys := s.ws.send src ((attachedTo (fabricDieOf port)).headD 0) (some (port, channel)) none (forwardBody dest kind w)
    let back : WinSys := reply s src [(w[0]?).getD 0, faultAnswer .fabUnreach]
    (dest ≠ s.ws.own → exec .fabricFlitArrival s = .next { s with ws := if s.ws.reachable dest = true then on else back }) ∧
    (∀ id world pa n, dest = s.ws.own → kind = 4 → w = [id, world, pa, n] → 1 ≤ n → pa % 64 + n ≤ 64 →
      s.outsideFault (world = 1) pa = none → sound s pa →
      exec .fabricFlitArrival s = .next { s with ws := line s s src pa [id, 0, s.peek pa n] }) ∧
    (∀ id world pa bytes, dest = s.ws.own → kind = 5 → w = id :: world :: pa :: bytes → 1 ≤ bytes.length → pa % 64 + bytes.length ≤ 64 →
      free s pa → s.outsideFault (world = 1) pa = none →
      ∃ u, exec .fabricFlitArrival s = .next u ∧ Wrote s u pa bytes.length (numberOf bytes) ∧ u.ws = reply s src [id, 0]) ∧
    (∀ id world pa n x v, dest = s.ws.own → kind = 6 → w = [id, world, pa, n, v, x, 0] → n = 4 ∨ n = 8 → pa % n = 0 → v = 0 ∨ v = 8 →
      free s pa → s.outsideFault (world = 1) pa = none → sound s pa →
      ∃ u, exec .fabricFlitArrival s = .next u ∧
        Wrote s u pa n ((if v = 0 then s.peek pa n + x % 2 ^ (8 * n) else x) % 2 ^ (8 * n)) ∧
        u.ws = line s u src pa [id, 0, s.peek pa n]) ∧
    (∀ x y z, dest = s.ws.own → kind = 9 → w = [x, y, z] → x < 256 → y < 256 → z < 256 →
      ∃ u, exec .fabricFlitArrival s = .next { s with ws := u } ∧
        ∀ k, tblGet .absent u.packages k = if k = src % 65536 then .coords x y z else tblGet .absent s.ws.packages k))

/-- R25, R83, R84, R355, R385 and R427: a die fenced, by firmware or because of its heat or lost coolant flow, is no longer live;
its slots, L1 lines and translations are gone, the streams homed there are DEAD and the windows homed there are lost; a launch
that survives gets back the indices it lost, any other ends LOST. (What else a fence leaves is log entry 24's.) -/
def Obligations.DiesFenced : Prop := ∀ (i : Instr) (s : State) (d t : Nat),
  (i = .dieFence ∧ s.ev = [d]) ∨ (i = .thermalFence ∧ s.ev = [d, t] ∧ (105 ≤ t ∨ s.pf.coolantLost = true)) → d < 4 → s.live d = true →
  ∃ u, exec i s = .next u ∧ (∀ k, u.live k = (s.live k && decide (k ≠ d))) ∧ (∀ k, dieOf k = d → (u.slot k).st = .free) ∧
    (∀ x ∈ u.ms.l1, x.cell / 128 ≠ d) ∧ (∀ e ∈ u.ms.tlb, e.holder / 128 ≠ d ∧ e.holder ≠ 512 + d) ∧
    (∀ k, (s.ss.stream k).home = d → (u.ss.stream k).st = .dead) ∧ (∀ k w, u.window k = some w → homeOf w.base ≠ d) ∧
    ∀ l, s.ls.launches = [l] → l.dies.getLsbD d = true →
      (s.launchSurvives d l = true → ∃ l', u.launch? l.number = some l' ∧ l'.dies = withoutDie l.dies d ∧ l'.lost = l.lost ∧
        l'.reissue = l.reissue ++ s.lostIndices d l.number ++ tblGet [] l.chunks d ∧
        l'.left = l.left + (s.lostIndices d l.number).length ∧ tblGet [] l'.chunks d = []) ∧
      (s.launchSurvives d l = false → ∀ l', u.launch? l.number = some l' → l'.lost = true)

/-- R425 and R427: the power cap is set between 2,000 W and 4,200 W in steps of 50 W; a throttle lowers a die's arithmetic clock by a sixteenth
of 1.9 GHz, to 0.95 GHz at the least, and the clock steps up again, one step in a millisecond; 95 °C throttles, 115 °C powers down; lost coolant flow is noted.
R423: power lost skips a one-time index. -/
def Claims.PowerAndHeat : Prop :=
  (∀ (s : State) (w : Nat), s.ev = [w] → 2000 ≤ w → w ≤ 4200 → w % 50 = 0 → exec .powerCapSet s = .next { s with pf := { s.pf with cap := w } }) ∧
  (∀ (s : State) (d : Nat), s.ev = [d] → d < 4 → s.live d = true →
    (∃ u, exec .powerThrottle s = .next { s with pf := { s.pf with step16 := u } } ∧
      ∀ k, tblGet 16 u k = if k = d then max 8 (tblGet 16 s.pf.step16 d - 1) else tblGet 16 s.pf.step16 k) ∧
    (s.mayRise d = true → ∃ u v, exec .clockStepUp s = .next { s with pf := { s.pf with step16 := u, raised := v } } ∧
      (∀ k, tblGet 16 u k = if k = d then min 16 (tblGet 16 s.pf.step16 d + 1) else tblGet 16 s.pf.step16 k) ∧
      ∀ k, tblGet none v k = if k = d then some (s.clock d) else tblGet none s.pf.raised k)) ∧
  (∀ (s : State) (d t : Nat), s.ev = [d, t] → d < 4 →
    (s.live d = true → 95 ≤ t → ∃ u v, exec .thermalThrottle s = .next { s with pf := { s.pf with step16 := u, temps := v } } ∧
      (∀ k, tblGet 16 u k = if k = d then max 8 (tblGet 16 s.pf.step16 d - 1) else tblGet 16 s.pf.step16 k) ∧
      ∀ k, tblGet 0 v k = if k = d then t else tblGet 0 s.pf.temps k) ∧
    (115 ≤ t → ∃ v, exec .thermalShutdown s = .next { s with pf := { s.pf with powered := false, otsPending := false, temps := v } } ∧
      ∀ k, tblGet 0 v k = if k = d then t else tblGet 0 s.pf.temps k)) ∧
  (∀ s : State, exec .coolantFlowLoss s = .next { s with pf := { s.pf with coolantLost := true } } ∧
    exec .powerLoss s = .next { s with pf := { s.pf with powered := false, otsPending := false } })

/-- R417: the boot stages run in their order: stages 1 and 2 choose an image that verifies, the other slot's where the first
fails, or recovery; stage 3 quarantines the units that fail, 4 and 5 fence the dies that fail, 6 loads the number and trains the
ports, 7 clears the region table and writes the information block (R419, R421), 8 announces the package. Which slot is tried first
after an update is the reading of log entry 35, the addresses published are those of log entry 6, and carve-outs that system software has
set are what stage 7 finds; what it finds otherwise is a failure. -/
def Obligations.BootStages : Prop := ∀ (s : State) (n : Nat) (w : List Nat),
  let p := s.pf
  let ok (two b : Bool) : Bool := let i := if b then p.imageB else p.imageA
    i.present && i.signed &&
      (!two || decide (p.fusedSvn ≤ i.version) && i.further.all fun f => f.signed && decide (p.fusedSvn ≤ f.version))
  let first := if n = 2 then p.active else p.active != p.fresh
  let a (i : Nat) : Nat := (w[i]?).getD 0
  let x := max 1 (a 4)
  let y := max 1 (a 5)
  let z := max 1 (a 6)
  s.ev = n :: w → n = p.stage + 1 → n ≤ 8 → p.recovery = false →
  (n = 6 → a 0 < 65536 ∧ x ≤ 256 ∧ y ≤ 256 ∧ z ≤ 256 ∧ x * y * z ≤ 65536 ∧ a 1 < x ∧ a 2 < y ∧ a 3 < z) →
  ∃ u, exec .bootStage s = .next u ∧ u.pf.stage = n ∧
    (n ≤ 2 → (ok (n = 2) first = true → u.pf.active = first ∧ u.pf.recovery = false) ∧
      (ok (n = 2) first = false → ok (n = 2) (!first) = true → (u.pf.active = !first) ∧ u.pf.recovery = false) ∧
      (ok (n = 2) first = false → ok (n = 2) (!first) = false →
        u.pf.recovery = true ∧ u.pf.replies = p.replies ++ [(4, [n])])) ∧
    (n = 3 → ∀ c, (tblGet false u.pf.quarCore c = true ↔ tblGet false p.quarCore c = true ∨ ∃ x ∈ w, x / 2 ^ 16 = 0 ∧ x % 2 ^ 16 = c) ∧
      (tblGet false u.pf.quarVec c = true ↔ tblGet false p.quarVec c = true ∨ ∃ x ∈ w, x / 2 ^ 16 = 1 ∧ x % 2 ^ 16 = c) ∧
      (tblGet false u.pf.quarMat c = true ↔ tblGet false p.quarMat c = true ∨ ∃ x ∈ w, 2 ≤ x / 2 ^ 16 ∧ x % 2 ^ 16 = c)) ∧
    (n = 4 ∨ n = 5 → (∀ d, u.live d = (s.live d && !w.contains d)) ∧ (u.pf.recovery = true ↔ ∀ d, d < 4 → u.live d = false)) ∧
    (n = 6 → u.ws.own = a 0 ∧ u.ws.place = (a 1, a 2, a 3) ∧ u.ws.torus = (x, y, z) ∧ ∀ k, (tblGet .down u.ws.ports k).up =
      (decide (k < 6) && decide (a 7 / 2 ^ k % 2 = 1) && s.ws.fabricDies.getLsbD (k / 3))) ∧
    (n = 7 → (FwTables.published s.firstDie).carved w = none →
      u.pf.recovery = true ∧ u.pf.replies = p.replies ++ [(4, [7])]) ∧
    (∀ f, n = 7 → (FwTables.published s.firstDie).carved w = some f → (∀ g, tblGet false u.ms.region g = false) ∧ u.pf.fw = f ∧
      (s.ms.mem = [] → s.ms.check = [] → s.liveDies ≠ [] → Wrote s u (s.fabric (2 ^ 38 * s.firstDie)) 160
        (bootBlock { s with pf := { p with stage := 7, fw := f } }))) ∧
    (n = 8 → u = { s with pf := { p with stage := 8 }, ws := u.ws } ∧ ∀ e ∈ s.ws.packages, e.1 ≠ s.ws.own → e.2.noticed = true →
      ∃ f, f.body = .announce e.1 [s.ws.place.1, s.ws.place.2.1, s.ws.place.2.2] ∧ (f ∈ u.ws.out ∨ (f, none) ∈ u.ws.held))

/-- R418, R423 and R424: a firmware update goes to the inactive slot; the fused minimum rises to a version that both slots meet; a request of
attestation advances the one-time index, and the fuses at a multiple of 1,024, before the report is released, and gets EXHAUSTED where every
index is used. R428: telemetry is reported. (Log entries 7 and 36 say what of them the model holds.) -/
def Claims.FirmwareServices : Prop :=
  (∀ (s : State) (v ok d : Nat) (r : List Nat), s.ev = v :: ok :: d :: r →
    let i : Image := ⟨v, true, ok = 1, d, furtherOf r⟩
    exec .firmwareUpdate s = .next { s with pf := if s.pf.active = true then { s.pf with imageA := i, fresh := true }
      else { s.pf with imageB := i, fresh := true } }) ∧
  (∀ (s : State) (v : Nat), s.ev = [v] → s.pf.fusedSvn < v → v ≤ s.pf.imageA.version → v ≤ s.pf.imageB.version → s.pf.imageA.present = true →
    s.pf.imageB.present = true → (∀ f ∈ s.pf.imageA.further ++ s.pf.imageB.further, v ≤ f.version) → exec .svnRaise s = .next { s with pf := { s.pf with fusedSvn := v } }) ∧
  (∀ (s : State) (nonce : Nat) (r : List Nat), s.ev = nonce :: r → s.pf.otsPending = false →
    exec .attestationRequest s = .next { s with pf := if s.pf.otsIndex < 2 ^ 20 then
      { s.pf with otsIndex := s.pf.otsIndex + 1, otsPending := true, otsNonce := nonce % 2 ^ 256,
                  otsFuse := if (s.pf.otsIndex + 1) % 1024 = 0 then (s.pf.otsIndex + 1) / 1024 else s.pf.otsFuse }
      else { s.pf with replies := s.pf.replies ++ [(3, [])] } }) ∧
  (∀ s : State, s.ev = [] → s.pf.otsPending = true → let i := if s.pf.active = true then s.pf.imageB else s.pf.imageA
    ∃ q, exec .attestationRequest s = .next { s with pf := { s.pf with otsPending := false, replies := s.pf.replies ++ [(2,
        Config.serialNumber :: i.digest :: i.further.map (·.digest) ++ [i.version, s.pf.fusedSvn, s.pf.otsNonce, s.pf.otsIndex - 1] ++ q)] } } ∧
      ∀ c < 65536, c ∈ q ↔ c ∈ s.pf.quarCore.map (·.1)) ∧
  (∀ s : State, ∃ r, exec .telemetrySample s = .next { s with pf := { s.pf with replies := s.pf.replies ++ [(1, r ++ s.ev)] } } ∧
    ∀ d, d < 4 → r[d]? = some (tblGet 16 s.pf.step16 d) ∧ r[d + 4]? = some (tblGet 0 s.pf.temps d))

/-- R421: when a granule's region bit changes, no L1 keeps a line of it, a granule that leaves the secure world reads zero, and the bit has its
new value; every byte elsewhere is as before. -/
def Claims.RegionBits : Prop := ∀ (s : State) (g b : Nat),
  let lo := s.fabric (2 ^ 21 * g)
  let inside (a : Nat) : Prop := lo ≤ a ∧ a < lo + 2 ^ 21
  s.ev = [g, b] → g < 524288 → s.ws.own < 65536 → s.live (g / 2 ^ 17) = true → s.noInjection → (∀ x ∈ s.ms.l1, x.pa % 64 = 0) →
  (∀ l, s.ms.checkOf l ≠ .single) →
  ∃ u, exec .regionBitChange s = .next u ∧ (∀ x ∈ u.ms.l1, ¬inside x.pa) ∧ (∀ a, ¬inside a → u.byteAt a = s.byteAt a) ∧
    (∀ k, tblGet false u.ms.region k = if k = lo / 2 ^ 21 then decide (b = 1) else tblGet false s.ms.region k) ∧
    (b ≠ 1 → tblGet false s.ms.region (lo / 2 ^ 21) = true → ∀ a, inside a → u.byteAt a = 0)

/-- R413 and R415: firmware sets a quarantine bit of a core, a vector unit or a matrix unit; an entry of a die's injection table is written, where
no entry corrupts that write. -/
def Claims.FirmwareSets : Prop :=
  (∀ (s : State) (i : Nat),
    (s.ev = [0, i] → i < 4096 → exec .quarantineSet s = .next { s with pf := { s.pf with quarCore := tblSet false s.pf.quarCore i true } }) ∧
    (s.ev = [1, i] → i < 512 → exec .quarantineSet s = .next { s with pf := { s.pf with quarVec := tblSet false s.pf.quarVec i true } }) ∧
    (s.ev = [2, i] → i < 512 → exec .quarantineSet s = .next { s with pf := { s.pf with quarMat := tblSet false s.pf.quarMat i true } })) ∧
  (∀ (s : State) (d i v : Nat),
    let at_ (j : Nat) : Nat := s.fabric (tblGet 0 s.pf.fw.inject d + 16 * j)
    s.ev = [d, i, v] → tblGet 0 s.pf.fw.inject d ≠ 0 → i < 16 → s.live d = true → homeOf (at_ i) = d → at_ i % 16 = 0 →
    Memory.wf s.ms.mem = true → s.ms.checkOf (lineAddr (at_ i)) ≠ .single → (∀ j, j < 16 → j ≠ i → s.peek (at_ j) 1 % 4 = 0) →
    v % 4 = 0 ∨ lineAddr (v / 2 ^ 64 % 2 ^ 64) ≠ lineAddr (at_ i) →
    ∃ u, exec .injectionArm s = .next u ∧ Wrote s u (at_ i) 16 v)

/-- R410 and R411: equal packets let the primary go on; packets whose hashes differ, or whose partner is 4,096 cycles late, raise
REDUNDANCY in both copies: for copies in no region the launch ends FAULTED. (What the packets of an instruction hold is the model's: log entry 13.) -/
def Claims.AssayerActs : Prop :=
  (∀ (s : State) (t k : Nat) (p q : PairPacket), s.ev = [t] → (s.slot t).partner = some k → s.pairPacket t = some p → s.pairPacket k = some q →
    p.seq = q.seq → p.hashes = q.hashes → (s.slot t).shadow = false → (s.slot t).st = .parked → (s.slot t).wait = .assayer →
    exec .assayerCompare s = .next (s.setSlot t { s.slot t with st := .ready })) ∧
  (∀ (i : Instr) (s : State) (t k : Nat) (p : PairPacket) (l : Launch), s.ev = [t] → (s.slot t).partner = some k → s.pairPacket t = some p →
    (i = .assayerCompare ∧ ∃ q, s.pairPacket k = some q ∧ p.seq = q.seq ∧ p.hashes ≠ q.hashes) ∨
      (i = .assayerSkewTimeout ∧ s.pairPacket k = none ∧ p.since + 4096 ≤ s.clock (dieOf t)) →
    (s.slot t).st ≠ .free → (s.slot t).regions = [] → (s.slot t).launch = l.number → s.launch? l.number = some l →
    ∃ u, exec i s = .next u ∧ u.pairPacket t = none ∧ u.pairPacket k = none ∧ ∀ l', u.launch? l.number = some l' → l'.faulted = true)

/-- Routes, links and the package table. -/
def Obligations.FabricEvents : Prop := Claims.RoutesTaken ∧ Claims.LinkEvents ∧ Claims.PackagesChange

/-- Power, heat, firmware and attestation. -/
def Obligations.FirmwareActs : Prop := Claims.PowerAndHeat ∧ Claims.FirmwareServices

/-- Region bits, quarantine, injection, and the Assayer. -/
def Obligations.FirmwareBits : Prop := Claims.RegionBits ∧ Claims.FirmwareSets ∧ Claims.AssayerActs

end
end

