-- ==== Sys2Proof/Laws/Table.lean ====
section
/-!
SUPPORT. The laws of the sparse tables: reading after writing, and that writing keeps the canonical form.
-/

namespace Sys2Proof.Machine

variable {α : Type} [DecidableEq α]

@[simp] theorem tblGet_nil {α : Type} (d : α) (a : Nat) : tblGet d ([] : Tbl α) a = d := rfl

theorem tblGet_erase_self {α : Type} (d : α) (t : Tbl α) (a : Nat) : tblGet d (tblErase t a) a = d := by
  induction t with
  | nil => rfl
  | cons e r ih =>
    obtain ⟨k, w⟩ := e
    by_cases h : a = k <;> simp [tblErase, tblGet, h]
    · subst h; exact ih
    · exact ih

theorem tblGet_erase_other {α : Type} (d : α) (t : Tbl α) {a b : Nat} (hb : b ≠ a) :
    tblGet d (tblErase t a) b = tblGet d t b := by
  induction t with
  | nil => rfl
  | cons e r ih =>
    obtain ⟨k, w⟩ := e
    by_cases h : a = k
    · subst h; simp [tblErase, tblGet, hb, ih]
    · by_cases h2 : b = k <;> simp [tblErase, tblGet, h, h2]
      exact ih

theorem tblGet_put_self {α : Type} (d : α) (t : Tbl α) (a : Nat) (v : α) : tblGet d (tblPut t a v) a = v := by
  induction t with
  | nil => simp [tblPut, tblGet]
  | cons e r ih =>
    obtain ⟨k, w⟩ := e
    by_cases h : a < k
    · simp [tblPut, tblGet, h]
    · by_cases h2 : a = k
      · simp [tblPut, tblGet, h2]
      · simp [tblPut, tblGet, h, h2, ih]

theorem tblGet_put_other {α : Type} (d : α) (t : Tbl α) {a b : Nat} (v : α) (hb : b ≠ a) :
    tblGet d (tblPut t a v) b = tblGet d t b := by
  induction t with
  | nil => simp [tblPut, tblGet, hb]
  | cons e r ih =>
    obtain ⟨k, w⟩ := e
    by_cases h : a < k
    · simp [tblPut, tblGet, h, hb]
    · by_cases h2 : a = k
      · subst h2; simp [tblPut, tblGet, hb]
      · by_cases h3 : b = k <;> simp [tblPut, tblGet, h, h2, h3]
        exact ih

/-- A read after a write to the same key gives the value written. -/
@[simp] theorem tblGet_set_self (d : α) (t : Tbl α) (a : Nat) (v : α) : tblGet d (tblSet d t a v) a = v := by
  by_cases h : v = d
  · simp [tblSet, h, tblGet_erase_self]
  · simp [tblSet, h, tblGet_put_self]

/-- A write leaves every other key alone. -/
@[simp] theorem tblGet_set_other (d : α) (t : Tbl α) {a b : Nat} (v : α) (hb : b ≠ a) :
    tblGet d (tblSet d t a v) b = tblGet d t b := by
  by_cases h : v = d
  · simp [tblSet, h, tblGet_erase_other d t hb]
  · simp [tblSet, h, tblGet_put_other d t v hb]

theorem tblGet_set (d : α) (t : Tbl α) (a b : Nat) (v : α) :
    tblGet d (tblSet d t a v) b = if b = a then v else tblGet d t b := by
  split
  · next h => rw [h, tblGet_set_self]
  · next h => exact tblGet_set_other d t v h

theorem tblErase_erase {α : Type} (t : Tbl α) (a : Nat) : tblErase (tblErase t a) a = tblErase t a := by
  induction t with
  | nil => rfl
  | cons e r ih =>
    obtain ⟨k, w⟩ := e
    by_cases h : a = k <;> simp [tblErase, h] <;> first | exact h ▸ ih | simp [ih]

theorem tblErase_put {α : Type} (t : Tbl α) (a : Nat) (v : α) : tblErase (tblPut t a v) a = tblErase t a := by
  induction t with
  | nil => simp [tblPut, tblErase]
  | cons e r ih =>
    obtain ⟨k, w⟩ := e
    by_cases h : a < k
    · have : a ≠ k := by omega
      simp [tblPut, tblErase, h]
    · by_cases h2 : a = k
      · simp [tblPut, tblErase, h2]
      · simp [tblPut, tblErase, h, h2, ih]

theorem tblPut_put {α : Type} (t : Tbl α) (a : Nat) (v w : α) : tblPut (tblPut t a v) a w = tblPut t a w := by
  induction t with
  | nil => simp [tblPut]
  | cons e r ih =>
    obtain ⟨k, x⟩ := e
    by_cases h : a < k
    · simp [tblPut, h]
    · by_cases h2 : a = k
      · simp [tblPut, h2]
      · simp [tblPut, h, h2, ih]

/-- Of two writes to one key the second stands, the first having put an entry there. -/
theorem tblSet_set (d : α) (t : Tbl α) (a : Nat) {v : α} (w : α) (hv : v ≠ d) :
    tblSet d (tblSet d t a v) a w = tblSet d t a w := by
  by_cases h : w = d
  · simp [tblSet, h, hv, tblErase_put]
  · simp [tblSet, h, hv, tblPut_put]

/-! ### The canonical form -/

theorem tblWfFrom_mono (d : α) {lo hi : Nat} (h : lo ≤ hi) (t : Tbl α) (hw : tblWfFrom d hi t = true) :
    tblWfFrom d lo t = true := by
  cases t with
  | nil => rfl
  | cons e r =>
    obtain ⟨k, v⟩ := e
    simp only [tblWfFrom, Bool.and_eq_true, decide_eq_true_eq] at *
    exact ⟨⟨by omega, hw.1.2⟩, hw.2⟩

theorem tblWfFrom_erase (d : α) (t : Tbl α) (a lo : Nat) (h : tblWfFrom d lo t = true) :
    tblWfFrom d lo (tblErase t a) = true := by
  induction t generalizing lo with
  | nil => rfl
  | cons e r ih =>
    obtain ⟨k, v⟩ := e
    simp only [tblWfFrom, Bool.and_eq_true, decide_eq_true_eq] at h
    by_cases hk : a = k
    · simp only [tblErase, hk, if_true]
      exact hk ▸ ih lo (tblWfFrom_mono d (by omega) r h.2)
    · simp only [tblErase, hk, if_false, tblWfFrom, Bool.and_eq_true, decide_eq_true_eq]
      exact ⟨h.1, ih _ h.2⟩

theorem tblWfFrom_put (d : α) (t : Tbl α) {a lo : Nat} {v : α} (hv : v ≠ d) (ha : lo ≤ a) (h : tblWfFrom d lo t = true) :
    tblWfFrom d lo (tblPut t a v) = true := by
  induction t generalizing lo with
  | nil => simp [tblPut, tblWfFrom, hv, ha]
  | cons e r ih =>
    obtain ⟨k, w⟩ := e
    simp only [tblWfFrom, Bool.and_eq_true, decide_eq_true_eq] at h
    by_cases h1 : a < k
    · simp only [tblPut, h1, if_true, tblWfFrom, Bool.and_eq_true, decide_eq_true_eq]
      exact ⟨⟨ha, hv⟩, ⟨by omega, h.1.2⟩, h.2⟩
    · by_cases h2 : a = k
      · simp only [tblPut, h2, if_true]
        simp only [h2] at ha h1
        simp only [Nat.lt_irrefl, if_false, tblWfFrom, Bool.and_eq_true, decide_eq_true_eq]
        exact ⟨⟨ha, hv⟩, h.2⟩
      · simp only [tblPut, h1, h2, if_false, tblWfFrom, Bool.and_eq_true, decide_eq_true_eq]
        exact ⟨h.1, ih (by omega) h.2⟩

/-- Writing keeps the canonical form. -/
theorem tblWf_set (d : α) (t : Tbl α) (a : Nat) (v : α) (h : tblWf d t = true) : tblWf d (tblSet d t a v) = true := by
  by_cases hv : v = d
  · simpa [tblWf, tblSet, hv] using tblWfFrom_erase d t a 0 h
  · simpa [tblWf, tblSet, hv] using tblWfFrom_put d t hv (Nat.zero_le a) h

/-! ### Runs of bytes -/

theorem tblGet_low {α : Type} [DecidableEq α] (d : α) (t : Tbl α) {lo b : Nat} (h : tblWfFrom d lo t = true) (hb : b < lo) :
    tblGet d t b = d := by
  induction t generalizing lo with
  | nil => rfl
  | cons x r ih =>
    obtain ⟨k, v⟩ := x
    simp only [tblWfFrom, Bool.and_eq_true, decide_eq_true_eq] at h
    rw [tblGet, if_neg (by omega)]
    exact ih h.2 (by omega)

theorem tblWfFrom_from (t : Tbl Byte) (a lo : Nat) (h : tblWfFrom 0 lo t = true) : tblWfFrom 0 a (tblFrom t a) = true := by
  induction t generalizing lo with
  | nil => rfl
  | cons x r ih =>
    obtain ⟨k, v⟩ := x
    simp only [tblWfFrom, Bool.and_eq_true, decide_eq_true_eq] at h
    rw [tblFrom]
    split
    · exact ih _ h.2
    · simp only [tblWfFrom, Bool.and_eq_true, decide_eq_true_eq]
      exact ⟨⟨by omega, h.1.2⟩, h.2⟩

theorem tblGet_from (t : Tbl Byte) {a b : Nat} (hb : a ≤ b) : tblGet 0 (tblFrom t a) b = tblGet 0 t b := by
  induction t with
  | nil => rfl
  | cons x r ih =>
    obtain ⟨k, v⟩ := x
    rw [tblFrom]
    split
    · rw [ih, tblGet, if_neg (by omega)]
    · rfl

theorem tblHead_eq (t : Tbl Byte) (a : Nat) (h : tblWfFrom 0 a t = true) : tblHead t a = tblGet 0 t a := by
  cases t with
  | nil => rfl
  | cons x r =>
    obtain ⟨k, v⟩ := x
    simp only [tblWfFrom, Bool.and_eq_true, decide_eq_true_eq] at h
    rw [tblHead, tblGet]
    by_cases hk : k = a
    · rw [if_pos hk, if_pos hk.symm]
    · rw [if_neg hk, if_neg (fun e => hk e.symm), tblGet_low 0 r h.2 (by omega)]

/-- In a canonical table, byte k of a run read as a number is the byte at its key. -/
theorem tblReadN_byte (t : Tbl Byte) (a n k : Nat) {lo : Nat} (h : tblWfFrom 0 lo t = true) (hk : k < n) :
    BitVec.ofNat 8 (tblReadN t a n / 256 ^ k) = tblGet 0 t (a + k) := by
  induction n generalizing t a k lo with
  | zero => omega
  | succ n ih =>
    have hw := tblWfFrom_from t a lo h
    rw [tblReadN, tblHead_eq _ _ hw, tblGet_from _ (Nat.le_refl a)]
    have hb : (tblGet 0 t a).toNat < 256 := (tblGet 0 t a).isLt
    cases k with
    | zero =>
      apply BitVec.eq_of_toNat_eq
      simp only [BitVec.toNat_ofNat, Nat.pow_zero, Nat.div_one, Nat.add_zero]
      omega
    | succ k =>
      rw [Nat.pow_succ', ← Nat.div_div_eq_div_mul, show ((tblGet 0 t a).toNat + 256 * tblReadN (tblFrom t a) (a + 1) n) / 256 =
        tblReadN (tblFrom t a) (a + 1) n by omega, ih (tblFrom t a) (a + 1) k hw (by omega), tblGet_from _ (by omega)]
      congr 1; omega

end Sys2Proof.Machine
end

