-- ==== Sys2Proof/Laws/State.lean ====
section
/-!
SUPPORT. One lemma per field per update of the state and of a slot, so that no proof unfolds a record update.
-/

namespace Sys2Proof.Machine

set_option Elab.async false

/-! ### Slots, cores and cells of an updated state -/

@[simp] theorem State.slot_setSlot_self (s : State) (t : Nat) (x : Slot) : (s.setSlot t x).slot t = x :=
  tblGet_set_self _ _ _ _
theorem State.slot_setSlot_other (s : State) {t u : Nat} (x : Slot) (h : u ≠ t) : (s.setSlot t x).slot u = s.slot u :=
  tblGet_set_other _ _ _ h
theorem State.slot_setSlot (s : State) (t u : Nat) (x : Slot) :
    (s.setSlot t x).slot u = if u = t then x else s.slot u := tblGet_set _ _ _ _ _
@[simp] theorem State.core_setCore_self (s : State) (c : Nat) (x : Core) : (s.setCore c x).core c = x :=
  tblGet_set_self _ _ _ _
theorem State.core_setCore_other (s : State) {c b : Nat} (x : Core) (h : b ≠ c) : (s.setCore c x).core b = s.core b :=
  tblGet_set_other _ _ _ h
@[simp] theorem State.cell_setCell_self (s : State) (c : Nat) (x : Cell) : (s.setCell c x).cell c = x :=
  tblGet_set_self _ _ _ _
theorem State.cell_setCell_other (s : State) {c b : Nat} (x : Cell) (h : b ≠ c) : (s.setCell c x).cell b = s.cell b :=
  tblGet_set_other _ _ _ h
/-- Of two changes of an occupied slot the second stands. -/
theorem State.setSlot_setSlot (s : State) (t : Nat) {x : Slot} (y : Slot) (h : x ≠ .empty) :
    (s.setSlot t x).setSlot t y = s.setSlot t y := by
  simp only [State.setSlot, tblSet_set _ _ _ _ h]
/-- An occupied slot is not the empty one. -/
theorem Slot.ne_empty {x : Slot} (h : x.st ≠ .free) : x ≠ .empty := by
  rintro rfl
  exact h rfl

@[simp] theorem State.setSlot_agenda (s : State) (k : Nat) (x : Slot) : (s.setSlot k x).agenda = s.agenda := rfl
@[simp] theorem State.setSlot_ev (s : State) (k : Nat) (x : Slot) : (s.setSlot k x).ev = s.ev := rfl
@[simp] theorem State.setSlot_cur (s : State) (k : Nat) (x : Slot) : (s.setSlot k x).cur = s.cur := rfl
@[simp] theorem State.setSlot_turn (s : State) (k : Nat) (x : Slot) : (s.setSlot k x).turn = s.turn := rfl
@[simp] theorem State.setSlot_early (s : State) (k : Nat) (x : Slot) : (s.setSlot k x).early = s.early := rfl
@[simp] theorem State.setSlot_free (s : State) (k : Nat) (x : Slot) : (s.setSlot k x).free = s.free := rfl
@[simp] theorem State.setSlot_cores (s : State) (k : Nat) (x : Slot) : (s.setSlot k x).cores = s.cores := rfl
@[simp] theorem State.setSlot_cells (s : State) (k : Nat) (x : Slot) : (s.setSlot k x).cells = s.cells := rfl
@[simp] theorem State.setSlot_ms (s : State) (k : Nat) (x : Slot) : (s.setSlot k x).ms = s.ms := rfl
@[simp] theorem State.setSlot_hyps (s : State) (k : Nat) (x : Slot) : (s.setSlot k x).hyps = s.hyps := rfl
@[simp] theorem State.setSlot_ls (s : State) (k : Nat) (x : Slot) : (s.setSlot k x).ls = s.ls := rfl
@[simp] theorem State.setSlot_ss (s : State) (k : Nat) (x : Slot) : (s.setSlot k x).ss = s.ss := rfl
@[simp] theorem State.setSlot_es (s : State) (k : Nat) (x : Slot) : (s.setSlot k x).es = s.es := rfl
@[simp] theorem State.setSlot_ws (s : State) (k : Nat) (x : Slot) : (s.setSlot k x).ws = s.ws := rfl
@[simp] theorem State.setSlot_fs (s : State) (k : Nat) (x : Slot) : (s.setSlot k x).fs = s.fs := rfl
@[simp] theorem State.setSlot_pf (s : State) (k : Nat) (x : Slot) : (s.setSlot k x).pf = s.pf := rfl
@[simp] theorem State.core_setSlot (s : State) (k j : Nat) (x : Slot) : (s.setSlot k x).core j = s.core j := rfl
@[simp] theorem State.cell_setSlot (s : State) (k j : Nat) (x : Slot) : (s.setSlot k x).cell j = s.cell j := rfl
@[simp] theorem State.clock_setSlot (s : State) (k j : Nat) (x : Slot) : (s.setSlot k x).clock j = s.clock j := rfl
@[simp] theorem State.live_setSlot (s : State) (k j : Nat) (x : Slot) : (s.setSlot k x).live j = s.live j := rfl
@[simp] theorem State.setCore_agenda (s : State) (k : Nat) (x : Core) : (s.setCore k x).agenda = s.agenda := rfl
@[simp] theorem State.setCore_ev (s : State) (k : Nat) (x : Core) : (s.setCore k x).ev = s.ev := rfl
@[simp] theorem State.setCore_cur (s : State) (k : Nat) (x : Core) : (s.setCore k x).cur = s.cur := rfl
@[simp] theorem State.setCore_turn (s : State) (k : Nat) (x : Core) : (s.setCore k x).turn = s.turn := rfl
@[simp] theorem State.setCore_early (s : State) (k : Nat) (x : Core) : (s.setCore k x).early = s.early := rfl
@[simp] theorem State.setCore_free (s : State) (k : Nat) (x : Core) : (s.setCore k x).free = s.free := rfl
@[simp] theorem State.setCore_slots (s : State) (k : Nat) (x : Core) : (s.setCore k x).slots = s.slots := rfl
@[simp] theorem State.setCore_cells (s : State) (k : Nat) (x : Core) : (s.setCore k x).cells = s.cells := rfl
@[simp] theorem State.setCore_ms (s : State) (k : Nat) (x : Core) : (s.setCore k x).ms = s.ms := rfl
@[simp] theorem State.setCore_hyps (s : State) (k : Nat) (x : Core) : (s.setCore k x).hyps = s.hyps := rfl
@[simp] theorem State.setCore_ls (s : State) (k : Nat) (x : Core) : (s.setCore k x).ls = s.ls := rfl
@[simp] theorem State.setCore_ss (s : State) (k : Nat) (x : Core) : (s.setCore k x).ss = s.ss := rfl
@[simp] theorem State.setCore_es (s : State) (k : Nat) (x : Core) : (s.setCore k x).es = s.es := rfl
@[simp] theorem State.setCore_ws (s : State) (k : Nat) (x : Core) : (s.setCore k x).ws = s.ws := rfl
@[simp] theorem State.setCore_fs (s : State) (k : Nat) (x : Core) : (s.setCore k x).fs = s.fs := rfl
@[simp] theorem State.setCore_pf (s : State) (k : Nat) (x : Core) : (s.setCore k x).pf = s.pf := rfl
@[simp] theorem State.slot_setCore (s : State) (k j : Nat) (x : Core) : (s.setCore k x).slot j = s.slot j := rfl
@[simp] theorem State.cell_setCore (s : State) (k j : Nat) (x : Core) : (s.setCore k x).cell j = s.cell j := rfl
@[simp] theorem State.clock_setCore (s : State) (k j : Nat) (x : Core) : (s.setCore k x).clock j = s.clock j := rfl
@[simp] theorem State.live_setCore (s : State) (k j : Nat) (x : Core) : (s.setCore k x).live j = s.live j := rfl
@[simp] theorem State.setCell_agenda (s : State) (k : Nat) (x : Cell) : (s.setCell k x).agenda = s.agenda := rfl
@[simp] theorem State.setCell_ev (s : State) (k : Nat) (x : Cell) : (s.setCell k x).ev = s.ev := rfl
@[simp] theorem State.setCell_cur (s : State) (k : Nat) (x : Cell) : (s.setCell k x).cur = s.cur := rfl
@[simp] theorem State.setCell_turn (s : State) (k : Nat) (x : Cell) : (s.setCell k x).turn = s.turn := rfl
@[simp] theorem State.setCell_early (s : State) (k : Nat) (x : Cell) : (s.setCell k x).early = s.early := rfl
@[simp] theorem State.setCell_free (s : State) (k : Nat) (x : Cell) : (s.setCell k x).free = s.free := rfl
@[simp] theorem State.setCell_slots (s : State) (k : Nat) (x : Cell) : (s.setCell k x).slots = s.slots := rfl
@[simp] theorem State.setCell_cores (s : State) (k : Nat) (x : Cell) : (s.setCell k x).cores = s.cores := rfl
@[simp] theorem State.setCell_ms (s : State) (k : Nat) (x : Cell) : (s.setCell k x).ms = s.ms := rfl
@[simp] theorem State.setCell_hyps (s : State) (k : Nat) (x : Cell) : (s.setCell k x).hyps = s.hyps := rfl
@[simp] theorem State.setCell_ls (s : State) (k : Nat) (x : Cell) : (s.setCell k x).ls = s.ls := rfl
@[simp] theorem State.setCell_ss (s : State) (k : Nat) (x : Cell) : (s.setCell k x).ss = s.ss := rfl
@[simp] theorem State.setCell_es (s : State) (k : Nat) (x : Cell) : (s.setCell k x).es = s.es := rfl
@[simp] theorem State.setCell_ws (s : State) (k : Nat) (x : Cell) : (s.setCell k x).ws = s.ws := rfl
@[simp] theorem State.setCell_fs (s : State) (k : Nat) (x : Cell) : (s.setCell k x).fs = s.fs := rfl
@[simp] theorem State.setCell_pf (s : State) (k : Nat) (x : Cell) : (s.setCell k x).pf = s.pf := rfl
@[simp] theorem State.slot_setCell (s : State) (k j : Nat) (x : Cell) : (s.setCell k x).slot j = s.slot j := rfl
@[simp] theorem State.core_setCell (s : State) (k j : Nat) (x : Cell) : (s.setCell k x).core j = s.core j := rfl
@[simp] theorem State.clock_setCell (s : State) (k j : Nat) (x : Cell) : (s.setCell k x).clock j = s.clock j := rfl
@[simp] theorem State.live_setCell (s : State) (k j : Nat) (x : Cell) : (s.setCell k x).live j = s.live j := rfl

/-! ### A part of the state replaced -/

@[simp] theorem State.slot_with_agenda (s : State) (x : List Scheduled) (j : Nat) : State.slot { s with agenda := x } j = s.slot j := rfl
@[simp] theorem State.slot_with_ev (s : State) (x : List Nat) (j : Nat) : State.slot { s with ev := x } j = s.slot j := rfl
@[simp] theorem State.slot_with_cur (s : State) (x : Nat) (j : Nat) : State.slot { s with cur := x } j = s.slot j := rfl
@[simp] theorem State.slot_with_turn (s : State) (x : Nat) (j : Nat) : State.slot { s with turn := x } j = s.slot j := rfl
@[simp] theorem State.slot_with_early (s : State) (x : List Nat) (j : Nat) : State.slot { s with early := x } j = s.slot j := rfl
@[simp] theorem State.slot_with_free (s : State) (x : Nat) (j : Nat) : State.slot { s with free := x } j = s.slot j := rfl
@[simp] theorem State.slot_with_cores (s : State) (x : Tbl Core) (j : Nat) : State.slot { s with cores := x } j = s.slot j := rfl
@[simp] theorem State.slot_with_cells (s : State) (x : Tbl Cell) (j : Nat) : State.slot { s with cells := x } j = s.slot j := rfl
@[simp] theorem State.slot_with_ms (s : State) (x : MemSys) (j : Nat) : State.slot { s with ms := x } j = s.slot j := rfl
@[simp] theorem State.slot_with_hyps (s : State) (x : HypSys) (j : Nat) : State.slot { s with hyps := x } j = s.slot j := rfl
@[simp] theorem State.slot_with_ls (s : State) (x : LaunchSys) (j : Nat) : State.slot { s with ls := x } j = s.slot j := rfl
@[simp] theorem State.slot_with_ss (s : State) (x : StrmSys) (j : Nat) : State.slot { s with ss := x } j = s.slot j := rfl
@[simp] theorem State.slot_with_es (s : State) (x : EngSys) (j : Nat) : State.slot { s with es := x } j = s.slot j := rfl
@[simp] theorem State.slot_with_ws (s : State) (x : WinSys) (j : Nat) : State.slot { s with ws := x } j = s.slot j := rfl
@[simp] theorem State.slot_with_fs (s : State) (x : FacSys) (j : Nat) : State.slot { s with fs := x } j = s.slot j := rfl
@[simp] theorem State.slot_with_pf (s : State) (x : Platform) (j : Nat) : State.slot { s with pf := x } j = s.slot j := rfl
@[simp] theorem State.core_with_agenda (s : State) (x : List Scheduled) (j : Nat) : State.core { s with agenda := x } j = s.core j := rfl
@[simp] theorem State.core_with_ev (s : State) (x : List Nat) (j : Nat) : State.core { s with ev := x } j = s.core j := rfl
@[simp] theorem State.core_with_cur (s : State) (x : Nat) (j : Nat) : State.core { s with cur := x } j = s.core j := rfl
@[simp] theorem State.core_with_turn (s : State) (x : Nat) (j : Nat) : State.core { s with turn := x } j = s.core j := rfl
@[simp] theorem State.core_with_early (s : State) (x : List Nat) (j : Nat) : State.core { s with early := x } j = s.core j := rfl
@[simp] theorem State.core_with_free (s : State) (x : Nat) (j : Nat) : State.core { s with free := x } j = s.core j := rfl
@[simp] theorem State.core_with_slots (s : State) (x : Tbl Slot) (j : Nat) : State.core { s with slots := x } j = s.core j := rfl
@[simp] theorem State.core_with_cells (s : State) (x : Tbl Cell) (j : Nat) : State.core { s with cells := x } j = s.core j := rfl
@[simp] theorem State.core_with_ms (s : State) (x : MemSys) (j : Nat) : State.core { s with ms := x } j = s.core j := rfl
@[simp] theorem State.core_with_hyps (s : State) (x : HypSys) (j : Nat) : State.core { s with hyps := x } j = s.core j := rfl
@[simp] theorem State.core_with_ls (s : State) (x : LaunchSys) (j : Nat) : State.core { s with ls := x } j = s.core j := rfl
@[simp] theorem State.core_with_ss (s : State) (x : StrmSys) (j : Nat) : State.core { s with ss := x } j = s.core j := rfl
@[simp] theorem State.core_with_es (s : State) (x : EngSys) (j : Nat) : State.core { s with es := x } j = s.core j := rfl
@[simp] theorem State.core_with_ws (s : State) (x : WinSys) (j : Nat) : State.core { s with ws := x } j = s.core j := rfl
@[simp] theorem State.core_with_fs (s : State) (x : FacSys) (j : Nat) : State.core { s with fs := x } j = s.core j := rfl
@[simp] theorem State.core_with_pf (s : State) (x : Platform) (j : Nat) : State.core { s with pf := x } j = s.core j := rfl
@[simp] theorem State.cell_with_agenda (s : State) (x : List Scheduled) (j : Nat) : State.cell { s with agenda := x } j = s.cell j := rfl
@[simp] theorem State.cell_with_ev (s : State) (x : List Nat) (j : Nat) : State.cell { s with ev := x } j = s.cell j := rfl
@[simp] theorem State.cell_with_cur (s : State) (x : Nat) (j : Nat) : State.cell { s with cur := x } j = s.cell j := rfl
@[simp] theorem State.cell_with_turn (s : State) (x : Nat) (j : Nat) : State.cell { s with turn := x } j = s.cell j := rfl
@[simp] theorem State.cell_with_early (s : State) (x : List Nat) (j : Nat) : State.cell { s with early := x } j = s.cell j := rfl
@[simp] theorem State.cell_with_free (s : State) (x : Nat) (j : Nat) : State.cell { s with free := x } j = s.cell j := rfl
@[simp] theorem State.cell_with_slots (s : State) (x : Tbl Slot) (j : Nat) : State.cell { s with slots := x } j = s.cell j := rfl
@[simp] theorem State.cell_with_cores (s : State) (x : Tbl Core) (j : Nat) : State.cell { s with cores := x } j = s.cell j := rfl
@[simp] theorem State.cell_with_ms (s : State) (x : MemSys) (j : Nat) : State.cell { s with ms := x } j = s.cell j := rfl
@[simp] theorem State.cell_with_hyps (s : State) (x : HypSys) (j : Nat) : State.cell { s with hyps := x } j = s.cell j := rfl
@[simp] theorem State.cell_with_ls (s : State) (x : LaunchSys) (j : Nat) : State.cell { s with ls := x } j = s.cell j := rfl
@[simp] theorem State.cell_with_ss (s : State) (x : StrmSys) (j : Nat) : State.cell { s with ss := x } j = s.cell j := rfl
@[simp] theorem State.cell_with_es (s : State) (x : EngSys) (j : Nat) : State.cell { s with es := x } j = s.cell j := rfl
@[simp] theorem State.cell_with_ws (s : State) (x : WinSys) (j : Nat) : State.cell { s with ws := x } j = s.cell j := rfl
@[simp] theorem State.cell_with_fs (s : State) (x : FacSys) (j : Nat) : State.cell { s with fs := x } j = s.cell j := rfl
@[simp] theorem State.cell_with_pf (s : State) (x : Platform) (j : Nat) : State.cell { s with pf := x } j = s.cell j := rfl
@[simp] theorem State.clock_with_agenda (s : State) (x : List Scheduled) (j : Nat) : State.clock { s with agenda := x } j = s.clock j := rfl
@[simp] theorem State.clock_with_ev (s : State) (x : List Nat) (j : Nat) : State.clock { s with ev := x } j = s.clock j := rfl
@[simp] theorem State.clock_with_cur (s : State) (x : Nat) (j : Nat) : State.clock { s with cur := x } j = s.clock j := rfl
@[simp] theorem State.clock_with_turn (s : State) (x : Nat) (j : Nat) : State.clock { s with turn := x } j = s.clock j := rfl
@[simp] theorem State.clock_with_early (s : State) (x : List Nat) (j : Nat) : State.clock { s with early := x } j = s.clock j := rfl
@[simp] theorem State.clock_with_free (s : State) (x : Nat) (j : Nat) : State.clock { s with free := x } j = s.clock j := rfl
@[simp] theorem State.clock_with_slots (s : State) (x : Tbl Slot) (j : Nat) : State.clock { s with slots := x } j = s.clock j := rfl
@[simp] theorem State.clock_with_cores (s : State) (x : Tbl Core) (j : Nat) : State.clock { s with cores := x } j = s.clock j := rfl
@[simp] theorem State.clock_with_cells (s : State) (x : Tbl Cell) (j : Nat) : State.clock { s with cells := x } j = s.clock j := rfl
@[simp] theorem State.clock_with_ms (s : State) (x : MemSys) (j : Nat) : State.clock { s with ms := x } j = s.clock j := rfl
@[simp] theorem State.clock_with_hyps (s : State) (x : HypSys) (j : Nat) : State.clock { s with hyps := x } j = s.clock j := rfl
@[simp] theorem State.clock_with_ls (s : State) (x : LaunchSys) (j : Nat) : State.clock { s with ls := x } j = s.clock j := rfl
@[simp] theorem State.clock_with_ss (s : State) (x : StrmSys) (j : Nat) : State.clock { s with ss := x } j = s.clock j := rfl
@[simp] theorem State.clock_with_es (s : State) (x : EngSys) (j : Nat) : State.clock { s with es := x } j = s.clock j := rfl
@[simp] theorem State.clock_with_ws (s : State) (x : WinSys) (j : Nat) : State.clock { s with ws := x } j = s.clock j := rfl
@[simp] theorem State.clock_with_fs (s : State) (x : FacSys) (j : Nat) : State.clock { s with fs := x } j = s.clock j := rfl
@[simp] theorem State.live_with_agenda (s : State) (x : List Scheduled) (j : Nat) : State.live { s with agenda := x } j = s.live j := rfl
@[simp] theorem State.live_with_ev (s : State) (x : List Nat) (j : Nat) : State.live { s with ev := x } j = s.live j := rfl
@[simp] theorem State.live_with_cur (s : State) (x : Nat) (j : Nat) : State.live { s with cur := x } j = s.live j := rfl
@[simp] theorem State.live_with_turn (s : State) (x : Nat) (j : Nat) : State.live { s with turn := x } j = s.live j := rfl
@[simp] theorem State.live_with_early (s : State) (x : List Nat) (j : Nat) : State.live { s with early := x } j = s.live j := rfl
@[simp] theorem State.live_with_free (s : State) (x : Nat) (j : Nat) : State.live { s with free := x } j = s.live j := rfl
@[simp] theorem State.live_with_slots (s : State) (x : Tbl Slot) (j : Nat) : State.live { s with slots := x } j = s.live j := rfl
@[simp] theorem State.live_with_cores (s : State) (x : Tbl Core) (j : Nat) : State.live { s with cores := x } j = s.live j := rfl
@[simp] theorem State.live_with_cells (s : State) (x : Tbl Cell) (j : Nat) : State.live { s with cells := x } j = s.live j := rfl
@[simp] theorem State.live_with_ms (s : State) (x : MemSys) (j : Nat) : State.live { s with ms := x } j = s.live j := rfl
@[simp] theorem State.live_with_hyps (s : State) (x : HypSys) (j : Nat) : State.live { s with hyps := x } j = s.live j := rfl
@[simp] theorem State.live_with_ls (s : State) (x : LaunchSys) (j : Nat) : State.live { s with ls := x } j = s.live j := rfl
@[simp] theorem State.live_with_ss (s : State) (x : StrmSys) (j : Nat) : State.live { s with ss := x } j = s.live j := rfl
@[simp] theorem State.live_with_es (s : State) (x : EngSys) (j : Nat) : State.live { s with es := x } j = s.live j := rfl
@[simp] theorem State.live_with_ws (s : State) (x : WinSys) (j : Nat) : State.live { s with ws := x } j = s.live j := rfl
@[simp] theorem State.live_with_fs (s : State) (x : FacSys) (j : Nat) : State.live { s with fs := x } j = s.live j := rfl

/-! ### Registers of a slot -/

@[simp] theorem Slot.setG_st (x : Slot) (r : GReg) (w : Word) : (x.setG r w).st = x.st := by
  unfold Slot.setG; split <;> rfl
@[simp] theorem Slot.setG_wait (x : Slot) (r : GReg) (w : Word) : (x.setG r w).wait = x.wait := by
  unfold Slot.setG; split <;> rfl
@[simp] theorem Slot.setG_pc (x : Slot) (r : GReg) (w : Word) : (x.setG r w).pc = x.pc := by
  unfold Slot.setG; split <;> rfl
@[simp] theorem Slot.setG_v (x : Slot) (r : GReg) (w : Word) : (x.setG r w).v = x.v := by
  unfold Slot.setG; split <;> rfl
@[simp] theorem Slot.setG_m (x : Slot) (r : GReg) (w : Word) : (x.setG r w).m = x.m := by
  unfold Slot.setG; split <;> rfl
@[simp] theorem Slot.setG_h (x : Slot) (r : GReg) (w : Word) : (x.setG r w).h = x.h := by
  unfold Slot.setG; split <;> rfl
@[simp] theorem Slot.setG_e (x : Slot) (r : GReg) (w : Word) : (x.setG r w).e = x.e := by
  unfold Slot.setG; split <;> rfl
@[simp] theorem Slot.setG_mxctl (x : Slot) (r : GReg) (w : Word) : (x.setG r w).mxctl = x.mxctl := by
  unfold Slot.setG; split <;> rfl
@[simp] theorem Slot.setG_stat (x : Slot) (r : GReg) (w : Word) : (x.setG r w).stat = x.stat := by
  unfold Slot.setG; split <;> rfl
@[simp] theorem Slot.setG_prio (x : Slot) (r : GReg) (w : Word) : (x.setG r w).prio = x.prio := by
  unfold Slot.setG; split <;> rfl
@[simp] theorem Slot.setG_launchRec (x : Slot) (r : GReg) (w : Word) : (x.setG r w).launchRec = x.launchRec := by
  unfold Slot.setG; split <;> rfl
@[simp] theorem Slot.setG_launch (x : Slot) (r : GReg) (w : Word) : (x.setG r w).launch = x.launch := by
  unfold Slot.setG; split <;> rfl
@[simp] theorem Slot.setG_index (x : Slot) (r : GReg) (w : Word) : (x.setG r w).index = x.index := by
  unfold Slot.setG; split <;> rfl
@[simp] theorem Slot.setG_stepTask (x : Slot) (r : GReg) (w : Word) : (x.setG r w).stepTask = x.stepTask := by
  unfold Slot.setG; split <;> rfl
@[simp] theorem Slot.setG_part (x : Slot) (r : GReg) (w : Word) : (x.setG r w).part = x.part := by
  unfold Slot.setG; split <;> rfl
@[simp] theorem Slot.setG_yieldLeft (x : Slot) (r : GReg) (w : Word) : (x.setG r w).yieldLeft = x.yieldLeft := by
  unfold Slot.setG; split <;> rfl
@[simp] theorem Slot.setG_trapVec (x : Slot) (r : GReg) (w : Word) : (x.setG r w).trapVec = x.trapVec := by
  unfold Slot.setG; split <;> rfl
@[simp] theorem Slot.setG_trapCause (x : Slot) (r : GReg) (w : Word) : (x.setG r w).trapCause = x.trapCause := by
  unfold Slot.setG; split <;> rfl
@[simp] theorem Slot.setG_trapVal (x : Slot) (r : GReg) (w : Word) : (x.setG r w).trapVal = x.trapVal := by
  unfold Slot.setG; split <;> rfl
@[simp] theorem Slot.setG_trapPc (x : Slot) (r : GReg) (w : Word) : (x.setG r w).trapPc = x.trapPc := by
  unfold Slot.setG; split <;> rfl
@[simp] theorem Slot.setG_trapRep (x : Slot) (r : GReg) (w : Word) : (x.setG r w).trapRep = x.trapRep := by
  unfold Slot.setG; split <;> rfl
@[simp] theorem Slot.setG_rm (x : Slot) (r : GReg) (w : Word) : (x.setG r w).rm = x.rm := by
  unfold Slot.setG; split <;> rfl
@[simp] theorem Slot.setG_fflags (x : Slot) (r : GReg) (w : Word) : (x.setG r w).fflags = x.fflags := by
  unfold Slot.setG; split <;> rfl
@[simp] theorem Slot.setG_hypId (x : Slot) (r : GReg) (w : Word) : (x.setG r w).hypId = x.hypId := by
  unfold Slot.setG; split <;> rfl
@[simp] theorem Slot.setG_impl (x : Slot) (r : GReg) (w : Word) : (x.setG r w).impl = x.impl := by
  unfold Slot.setG; split <;> rfl
@[simp] theorem Slot.setG_regions (x : Slot) (r : GReg) (w : Word) : (x.setG r w).regions = x.regions := by
  unfold Slot.setG; split <;> rfl
@[simp] theorem Slot.setG_spillwait (x : Slot) (r : GReg) (w : Word) : (x.setG r w).spillwait = x.spillwait := by
  unfold Slot.setG; split <;> rfl
@[simp] theorem Slot.setG_strmCur (x : Slot) (r : GReg) (w : Word) : (x.setG r w).strmCur = x.strmCur := by
  unfold Slot.setG; split <;> rfl
@[simp] theorem Slot.setG_batchPos (x : Slot) (r : GReg) (w : Word) : (x.setG r w).batchPos = x.batchPos := by
  unfold Slot.setG; split <;> rfl
@[simp] theorem Slot.setG_members (x : Slot) (r : GReg) (w : Word) : (x.setG r w).members = x.members := by
  unfold Slot.setG; split <;> rfl
@[simp] theorem Slot.setG_chanIn (x : Slot) (r : GReg) (w : Word) : (x.setG r w).chanIn = x.chanIn := by
  unfold Slot.setG; split <;> rfl
@[simp] theorem Slot.setG_chanOut (x : Slot) (r : GReg) (w : Word) : (x.setG r w).chanOut = x.chanOut := by
  unfold Slot.setG; split <;> rfl
@[simp] theorem Slot.setG_inq (x : Slot) (r : GReg) (w : Word) : (x.setG r w).inq = x.inq := by
  unfold Slot.setG; split <;> rfl
@[simp] theorem Slot.setG_asid (x : Slot) (r : GReg) (w : Word) : (x.setG r w).asid = x.asid := by
  unfold Slot.setG; split <;> rfl
@[simp] theorem Slot.setG_world (x : Slot) (r : GReg) (w : Word) : (x.setG r w).world = x.world := by
  unfold Slot.setG; split <;> rfl
@[simp] theorem Slot.setG_resv (x : Slot) (r : GReg) (w : Word) : (x.setG r w).resv = x.resv := by
  unfold Slot.setG; split <;> rfl
@[simp] theorem Slot.setG_wc (x : Slot) (r : GReg) (w : Word) : (x.setG r w).wc = x.wc := by
  unfold Slot.setG; split <;> rfl
@[simp] theorem Slot.setG_barReg (x : Slot) (r : GReg) (w : Word) : (x.setG r w).barReg = x.barReg := by
  unfold Slot.setG; split <;> rfl
@[simp] theorem Slot.setG_rpend (x : Slot) (r : GReg) (w : Word) : (x.setG r w).rpend = x.rpend := by
  unfold Slot.setG; split <;> rfl
@[simp] theorem Slot.setG_engFaults (x : Slot) (r : GReg) (w : Word) : (x.setG r w).engFaults = x.engFaults := by
  unfold Slot.setG; split <;> rfl
@[simp] theorem Slot.setG_savedPriv (x : Slot) (r : GReg) (w : Word) : (x.setG r w).savedPriv = x.savedPriv := by
  unfold Slot.setG; split <;> rfl
@[simp] theorem Slot.setG_sysTrap (x : Slot) (r : GReg) (w : Word) : (x.setG r w).sysTrap = x.sysTrap := by
  unfold Slot.setG; split <;> rfl
@[simp] theorem Slot.setG_timer (x : Slot) (r : GReg) (w : Word) : (x.setG r w).timer = x.timer := by
  unfold Slot.setG; split <;> rfl
@[simp] theorem Slot.setG_fullVal (x : Slot) (r : GReg) (w : Word) : (x.setG r w).fullVal = x.fullVal := by
  unfold Slot.setG; split <;> rfl
@[simp] theorem Slot.setG_fullRep (x : Slot) (r : GReg) (w : Word) : (x.setG r w).fullRep = x.fullRep := by
  unfold Slot.setG; split <;> rfl
@[simp] theorem Slot.setG_repFrom (x : Slot) (r : GReg) (w : Word) : (x.setG r w).repFrom = x.repFrom := by
  unfold Slot.setG; split <;> rfl
@[simp] theorem Slot.setG_tretRep (x : Slot) (r : GReg) (w : Word) : (x.setG r w).tretRep = x.tretRep := by
  unfold Slot.setG; split <;> rfl
@[simp] theorem Slot.setG_pend (x : Slot) (r : GReg) (w : Word) : (x.setG r w).pend = x.pend := by
  unfold Slot.setG; split <;> rfl
@[simp] theorem Slot.setG_pairHash (x : Slot) (r : GReg) (w : Word) : (x.setG r w).pairHash = x.pairHash := by
  unfold Slot.setG; split <;> rfl
@[simp] theorem Slot.setG_pairSeq (x : Slot) (r : GReg) (w : Word) : (x.setG r w).pairSeq = x.pairSeq := by
  unfold Slot.setG; split <;> rfl
@[simp] theorem Slot.setG_partner (x : Slot) (r : GReg) (w : Word) : (x.setG r w).partner = x.partner := by
  unfold Slot.setG; split <;> rfl
@[simp] theorem Slot.setV_st (x : Slot) (r : VReg) (w : VVal) : (x.setV r w).st = x.st := by
  unfold Slot.setV; split <;> rfl
@[simp] theorem Slot.setV_wait (x : Slot) (r : VReg) (w : VVal) : (x.setV r w).wait = x.wait := by
  unfold Slot.setV; split <;> rfl
@[simp] theorem Slot.setV_pc (x : Slot) (r : VReg) (w : VVal) : (x.setV r w).pc = x.pc := by
  unfold Slot.setV; split <;> rfl
@[simp] theorem Slot.setV_g (x : Slot) (r : VReg) (w : VVal) : (x.setV r w).g = x.g := by
  unfold Slot.setV; split <;> rfl
@[simp] theorem Slot.setV_m (x : Slot) (r : VReg) (w : VVal) : (x.setV r w).m = x.m := by
  unfold Slot.setV; split <;> rfl
@[simp] theorem Slot.setV_h (x : Slot) (r : VReg) (w : VVal) : (x.setV r w).h = x.h := by
  unfold Slot.setV; split <;> rfl
@[simp] theorem Slot.setV_e (x : Slot) (r : VReg) (w : VVal) : (x.setV r w).e = x.e := by
  unfold Slot.setV; split <;> rfl
@[simp] theorem Slot.setV_mxctl (x : Slot) (r : VReg) (w : VVal) : (x.setV r w).mxctl = x.mxctl := by
  unfold Slot.setV; split <;> rfl
@[simp] theorem Slot.setV_stat (x : Slot) (r : VReg) (w : VVal) : (x.setV r w).stat = x.stat := by
  unfold Slot.setV; split <;> rfl
@[simp] theorem Slot.setV_prio (x : Slot) (r : VReg) (w : VVal) : (x.setV r w).prio = x.prio := by
  unfold Slot.setV; split <;> rfl
@[simp] theorem Slot.setV_launchRec (x : Slot) (r : VReg) (w : VVal) : (x.setV r w).launchRec = x.launchRec := by
  unfold Slot.setV; split <;> rfl
@[simp] theorem Slot.setV_launch (x : Slot) (r : VReg) (w : VVal) : (x.setV r w).launch = x.launch := by
  unfold Slot.setV; split <;> rfl
@[simp] theorem Slot.setV_index (x : Slot) (r : VReg) (w : VVal) : (x.setV r w).index = x.index := by
  unfold Slot.setV; split <;> rfl
@[simp] theorem Slot.setV_stepTask (x : Slot) (r : VReg) (w : VVal) : (x.setV r w).stepTask = x.stepTask := by
  unfold Slot.setV; split <;> rfl
@[simp] theorem Slot.setV_part (x : Slot) (r : VReg) (w : VVal) : (x.setV r w).part = x.part := by
  unfold Slot.setV; split <;> rfl
@[simp] theorem Slot.setV_yieldLeft (x : Slot) (r : VReg) (w : VVal) : (x.setV r w).yieldLeft = x.yieldLeft := by
  unfold Slot.setV; split <;> rfl
@[simp] theorem Slot.setV_trapVec (x : Slot) (r : VReg) (w : VVal) : (x.setV r w).trapVec = x.trapVec := by
  unfold Slot.setV; split <;> rfl
@[simp] theorem Slot.setV_trapCause (x : Slot) (r : VReg) (w : VVal) : (x.setV r w).trapCause = x.trapCause := by
  unfold Slot.setV; split <;> rfl
@[simp] theorem Slot.setV_trapVal (x : Slot) (r : VReg) (w : VVal) : (x.setV r w).trapVal = x.trapVal := by
  unfold Slot.setV; split <;> rfl
@[simp] theorem Slot.setV_trapPc (x : Slot) (r : VReg) (w : VVal) : (x.setV r w).trapPc = x.trapPc := by
  unfold Slot.setV; split <;> rfl
@[simp] theorem Slot.setV_trapRep (x : Slot) (r : VReg) (w : VVal) : (x.setV r w).trapRep = x.trapRep := by
  unfold Slot.setV; split <;> rfl
@[simp] theorem Slot.setV_rm (x : Slot) (r : VReg) (w : VVal) : (x.setV r w).rm = x.rm := by
  unfold Slot.setV; split <;> rfl
@[simp] theorem Slot.setV_fflags (x : Slot) (r : VReg) (w : VVal) : (x.setV r w).fflags = x.fflags := by
  unfold Slot.setV; split <;> rfl
@[simp] theorem Slot.setV_hypId (x : Slot) (r : VReg) (w : VVal) : (x.setV r w).hypId = x.hypId := by
  unfold Slot.setV; split <;> rfl
@[simp] theorem Slot.setV_impl (x : Slot) (r : VReg) (w : VVal) : (x.setV r w).impl = x.impl := by
  unfold Slot.setV; split <;> rfl
@[simp] theorem Slot.setV_regions (x : Slot) (r : VReg) (w : VVal) : (x.setV r w).regions = x.regions := by
  unfold Slot.setV; split <;> rfl
@[simp] theorem Slot.setV_spillwait (x : Slot) (r : VReg) (w : VVal) : (x.setV r w).spillwait = x.spillwait := by
  unfold Slot.setV; split <;> rfl
@[simp] theorem Slot.setV_strmCur (x : Slot) (r : VReg) (w : VVal) : (x.setV r w).strmCur = x.strmCur := by
  unfold Slot.setV; split <;> rfl
@[simp] theorem Slot.setV_batchPos (x : Slot) (r : VReg) (w : VVal) : (x.setV r w).batchPos = x.batchPos := by
  unfold Slot.setV; split <;> rfl
@[simp] theorem Slot.setV_members (x : Slot) (r : VReg) (w : VVal) : (x.setV r w).members = x.members := by
  unfold Slot.setV; split <;> rfl
@[simp] theorem Slot.setV_chanIn (x : Slot) (r : VReg) (w : VVal) : (x.setV r w).chanIn = x.chanIn := by
  unfold Slot.setV; split <;> rfl
@[simp] theorem Slot.setV_chanOut (x : Slot) (r : VReg) (w : VVal) : (x.setV r w).chanOut = x.chanOut := by
  unfold Slot.setV; split <;> rfl
@[simp] theorem Slot.setV_inq (x : Slot) (r : VReg) (w : VVal) : (x.setV r w).inq = x.inq := by
  unfold Slot.setV; split <;> rfl
@[simp] theorem Slot.setV_asid (x : Slot) (r : VReg) (w : VVal) : (x.setV r w).asid = x.asid := by
  unfold Slot.setV; split <;> rfl
@[simp] theorem Slot.setV_world (x : Slot) (r : VReg) (w : VVal) : (x.setV r w).world = x.world := by
  unfold Slot.setV; split <;> rfl
@[simp] theorem Slot.setV_resv (x : Slot) (r : VReg) (w : VVal) : (x.setV r w).resv = x.resv := by
  unfold Slot.setV; split <;> rfl
@[simp] theorem Slot.setV_wc (x : Slot) (r : VReg) (w : VVal) : (x.setV r w).wc = x.wc := by
  unfold Slot.setV; split <;> rfl
@[simp] theorem Slot.setV_barReg (x : Slot) (r : VReg) (w : VVal) : (x.setV r w).barReg = x.barReg := by
  unfold Slot.setV; split <;> rfl
@[simp] theorem Slot.setV_rpend (x : Slot) (r : VReg) (w : VVal) : (x.setV r w).rpend = x.rpend := by
  unfold Slot.setV; split <;> rfl
@[simp] theorem Slot.setV_engFaults (x : Slot) (r : VReg) (w : VVal) : (x.setV r w).engFaults = x.engFaults := by
  unfold Slot.setV; split <;> rfl
@[simp] theorem Slot.setV_savedPriv (x : Slot) (r : VReg) (w : VVal) : (x.setV r w).savedPriv = x.savedPriv := by
  unfold Slot.setV; split <;> rfl
@[simp] theorem Slot.setV_sysTrap (x : Slot) (r : VReg) (w : VVal) : (x.setV r w).sysTrap = x.sysTrap := by
  unfold Slot.setV; split <;> rfl
@[simp] theorem Slot.setV_timer (x : Slot) (r : VReg) (w : VVal) : (x.setV r w).timer = x.timer := by
  unfold Slot.setV; split <;> rfl
@[simp] theorem Slot.setV_fullVal (x : Slot) (r : VReg) (w : VVal) : (x.setV r w).fullVal = x.fullVal := by
  unfold Slot.setV; split <;> rfl
@[simp] theorem Slot.setV_fullRep (x : Slot) (r : VReg) (w : VVal) : (x.setV r w).fullRep = x.fullRep := by
  unfold Slot.setV; split <;> rfl
@[simp] theorem Slot.setV_repFrom (x : Slot) (r : VReg) (w : VVal) : (x.setV r w).repFrom = x.repFrom := by
  unfold Slot.setV; split <;> rfl
@[simp] theorem Slot.setV_tretRep (x : Slot) (r : VReg) (w : VVal) : (x.setV r w).tretRep = x.tretRep := by
  unfold Slot.setV; split <;> rfl
@[simp] theorem Slot.setV_pend (x : Slot) (r : VReg) (w : VVal) : (x.setV r w).pend = x.pend := by
  unfold Slot.setV; split <;> rfl
@[simp] theorem Slot.setV_pairHash (x : Slot) (r : VReg) (w : VVal) : (x.setV r w).pairHash = x.pairHash := by
  unfold Slot.setV; split <;> rfl
@[simp] theorem Slot.setV_pairSeq (x : Slot) (r : VReg) (w : VVal) : (x.setV r w).pairSeq = x.pairSeq := by
  unfold Slot.setV; split <;> rfl
@[simp] theorem Slot.setV_partner (x : Slot) (r : VReg) (w : VVal) : (x.setV r w).partner = x.partner := by
  unfold Slot.setV; split <;> rfl
@[simp] theorem Slot.setM_st (x : Slot) (r : MReg) (w : MVal) : (x.setM r w).st = x.st := by
  unfold Slot.setM; split <;> rfl
@[simp] theorem Slot.setM_wait (x : Slot) (r : MReg) (w : MVal) : (x.setM r w).wait = x.wait := by
  unfold Slot.setM; split <;> rfl
@[simp] theorem Slot.setM_pc (x : Slot) (r : MReg) (w : MVal) : (x.setM r w).pc = x.pc := by
  unfold Slot.setM; split <;> rfl
@[simp] theorem Slot.setM_g (x : Slot) (r : MReg) (w : MVal) : (x.setM r w).g = x.g := by
  unfold Slot.setM; split <;> rfl
@[simp] theorem Slot.setM_v (x : Slot) (r : MReg) (w : MVal) : (x.setM r w).v = x.v := by
  unfold Slot.setM; split <;> rfl
@[simp] theorem Slot.setM_h (x : Slot) (r : MReg) (w : MVal) : (x.setM r w).h = x.h := by
  unfold Slot.setM; split <;> rfl
@[simp] theorem Slot.setM_e (x : Slot) (r : MReg) (w : MVal) : (x.setM r w).e = x.e := by
  unfold Slot.setM; split <;> rfl
@[simp] theorem Slot.setM_mxctl (x : Slot) (r : MReg) (w : MVal) : (x.setM r w).mxctl = x.mxctl := by
  unfold Slot.setM; split <;> rfl
@[simp] theorem Slot.setM_stat (x : Slot) (r : MReg) (w : MVal) : (x.setM r w).stat = x.stat := by
  unfold Slot.setM; split <;> rfl
@[simp] theorem Slot.setM_prio (x : Slot) (r : MReg) (w : MVal) : (x.setM r w).prio = x.prio := by
  unfold Slot.setM; split <;> rfl
@[simp] theorem Slot.setM_launchRec (x : Slot) (r : MReg) (w : MVal) : (x.setM r w).launchRec = x.launchRec := by
  unfold Slot.setM; split <;> rfl
@[simp] theorem Slot.setM_launch (x : Slot) (r : MReg) (w : MVal) : (x.setM r w).launch = x.launch := by
  unfold Slot.setM; split <;> rfl
@[simp] theorem Slot.setM_index (x : Slot) (r : MReg) (w : MVal) : (x.setM r w).index = x.index := by
  unfold Slot.setM; split <;> rfl
@[simp] theorem Slot.setM_stepTask (x : Slot) (r : MReg) (w : MVal) : (x.setM r w).stepTask = x.stepTask := by
  unfold Slot.setM; split <;> rfl
@[simp] theorem Slot.setM_part (x : Slot) (r : MReg) (w : MVal) : (x.setM r w).part = x.part := by
  unfold Slot.setM; split <;> rfl
@[simp] theorem Slot.setM_yieldLeft (x : Slot) (r : MReg) (w : MVal) : (x.setM r w).yieldLeft = x.yieldLeft := by
  unfold Slot.setM; split <;> rfl
@[simp] theorem Slot.setM_trapVec (x : Slot) (r : MReg) (w : MVal) : (x.setM r w).trapVec = x.trapVec := by
  unfold Slot.setM; split <;> rfl
@[simp] theorem Slot.setM_trapCause (x : Slot) (r : MReg) (w : MVal) : (x.setM r w).trapCause = x.trapCause := by
  unfold Slot.setM; split <;> rfl
@[simp] theorem Slot.setM_trapVal (x : Slot) (r : MReg) (w : MVal) : (x.setM r w).trapVal = x.trapVal := by
  unfold Slot.setM; split <;> rfl
@[simp] theorem Slot.setM_trapPc (x : Slot) (r : MReg) (w : MVal) : (x.setM r w).trapPc = x.trapPc := by
  unfold Slot.setM; split <;> rfl
@[simp] theorem Slot.setM_trapRep (x : Slot) (r : MReg) (w : MVal) : (x.setM r w).trapRep = x.trapRep := by
  unfold Slot.setM; split <;> rfl
@[simp] theorem Slot.setM_rm (x : Slot) (r : MReg) (w : MVal) : (x.setM r w).rm = x.rm := by
  unfold Slot.setM; split <;> rfl
@[simp] theorem Slot.setM_fflags (x : Slot) (r : MReg) (w : MVal) : (x.setM r w).fflags = x.fflags := by
  unfold Slot.setM; split <;> rfl
@[simp] theorem Slot.setM_hypId (x : Slot) (r : MReg) (w : MVal) : (x.setM r w).hypId = x.hypId := by
  unfold Slot.setM; split <;> rfl
@[simp] theorem Slot.setM_impl (x : Slot) (r : MReg) (w : MVal) : (x.setM r w).impl = x.impl := by
  unfold Slot.setM; split <;> rfl
@[simp] theorem Slot.setM_regions (x : Slot) (r : MReg) (w : MVal) : (x.setM r w).regions = x.regions := by
  unfold Slot.setM; split <;> rfl
@[simp] theorem Slot.setM_spillwait (x : Slot) (r : MReg) (w : MVal) : (x.setM r w).spillwait = x.spillwait := by
  unfold Slot.setM; split <;> rfl
@[simp] theorem Slot.setM_strmCur (x : Slot) (r : MReg) (w : MVal) : (x.setM r w).strmCur = x.strmCur := by
  unfold Slot.setM; split <;> rfl
@[simp] theorem Slot.setM_batchPos (x : Slot) (r : MReg) (w : MVal) : (x.setM r w).batchPos = x.batchPos := by
  unfold Slot.setM; split <;> rfl
@[simp] theorem Slot.setM_members (x : Slot) (r : MReg) (w : MVal) : (x.setM r w).members = x.members := by
  unfold Slot.setM; split <;> rfl
@[simp] theorem Slot.setM_chanIn (x : Slot) (r : MReg) (w : MVal) : (x.setM r w).chanIn = x.chanIn := by
  unfold Slot.setM; split <;> rfl
@[simp] theorem Slot.setM_chanOut (x : Slot) (r : MReg) (w : MVal) : (x.setM r w).chanOut = x.chanOut := by
  unfold Slot.setM; split <;> rfl
@[simp] theorem Slot.setM_inq (x : Slot) (r : MReg) (w : MVal) : (x.setM r w).inq = x.inq := by
  unfold Slot.setM; split <;> rfl
@[simp] theorem Slot.setM_asid (x : Slot) (r : MReg) (w : MVal) : (x.setM r w).asid = x.asid := by
  unfold Slot.setM; split <;> rfl
@[simp] theorem Slot.setM_world (x : Slot) (r : MReg) (w : MVal) : (x.setM r w).world = x.world := by
  unfold Slot.setM; split <;> rfl
@[simp] theorem Slot.setM_resv (x : Slot) (r : MReg) (w : MVal) : (x.setM r w).resv = x.resv := by
  unfold Slot.setM; split <;> rfl
@[simp] theorem Slot.setM_wc (x : Slot) (r : MReg) (w : MVal) : (x.setM r w).wc = x.wc := by
  unfold Slot.setM; split <;> rfl
@[simp] theorem Slot.setM_barReg (x : Slot) (r : MReg) (w : MVal) : (x.setM r w).barReg = x.barReg := by
  unfold Slot.setM; split <;> rfl
@[simp] theorem Slot.setM_rpend (x : Slot) (r : MReg) (w : MVal) : (x.setM r w).rpend = x.rpend := by
  unfold Slot.setM; split <;> rfl
@[simp] theorem Slot.setM_engFaults (x : Slot) (r : MReg) (w : MVal) : (x.setM r w).engFaults = x.engFaults := by
  unfold Slot.setM; split <;> rfl
@[simp] theorem Slot.setM_savedPriv (x : Slot) (r : MReg) (w : MVal) : (x.setM r w).savedPriv = x.savedPriv := by
  unfold Slot.setM; split <;> rfl
@[simp] theorem Slot.setM_sysTrap (x : Slot) (r : MReg) (w : MVal) : (x.setM r w).sysTrap = x.sysTrap := by
  unfold Slot.setM; split <;> rfl
@[simp] theorem Slot.setM_timer (x : Slot) (r : MReg) (w : MVal) : (x.setM r w).timer = x.timer := by
  unfold Slot.setM; split <;> rfl
@[simp] theorem Slot.setM_fullVal (x : Slot) (r : MReg) (w : MVal) : (x.setM r w).fullVal = x.fullVal := by
  unfold Slot.setM; split <;> rfl
@[simp] theorem Slot.setM_fullRep (x : Slot) (r : MReg) (w : MVal) : (x.setM r w).fullRep = x.fullRep := by
  unfold Slot.setM; split <;> rfl
@[simp] theorem Slot.setM_repFrom (x : Slot) (r : MReg) (w : MVal) : (x.setM r w).repFrom = x.repFrom := by
  unfold Slot.setM; split <;> rfl
@[simp] theorem Slot.setM_tretRep (x : Slot) (r : MReg) (w : MVal) : (x.setM r w).tretRep = x.tretRep := by
  unfold Slot.setM; split <;> rfl
@[simp] theorem Slot.setM_pend (x : Slot) (r : MReg) (w : MVal) : (x.setM r w).pend = x.pend := by
  unfold Slot.setM; split <;> rfl
@[simp] theorem Slot.setM_pairHash (x : Slot) (r : MReg) (w : MVal) : (x.setM r w).pairHash = x.pairHash := by
  unfold Slot.setM; split <;> rfl
@[simp] theorem Slot.setM_pairSeq (x : Slot) (r : MReg) (w : MVal) : (x.setM r w).pairSeq = x.pairSeq := by
  unfold Slot.setM; split <;> rfl
@[simp] theorem Slot.setM_partner (x : Slot) (r : MReg) (w : MVal) : (x.setM r w).partner = x.partner := by
  unfold Slot.setM; split <;> rfl
@[simp] theorem Slot.setH_st (x : Slot) (r : HReg) (w : Handle) : (x.setH r w).st = x.st := rfl
@[simp] theorem Slot.setH_wait (x : Slot) (r : HReg) (w : Handle) : (x.setH r w).wait = x.wait := rfl
@[simp] theorem Slot.setH_pc (x : Slot) (r : HReg) (w : Handle) : (x.setH r w).pc = x.pc := rfl
@[simp] theorem Slot.setH_g (x : Slot) (r : HReg) (w : Handle) : (x.setH r w).g = x.g := rfl
@[simp] theorem Slot.setH_v (x : Slot) (r : HReg) (w : Handle) : (x.setH r w).v = x.v := rfl
@[simp] theorem Slot.setH_m (x : Slot) (r : HReg) (w : Handle) : (x.setH r w).m = x.m := rfl
@[simp] theorem Slot.setH_e (x : Slot) (r : HReg) (w : Handle) : (x.setH r w).e = x.e := rfl
@[simp] theorem Slot.setH_mxctl (x : Slot) (r : HReg) (w : Handle) : (x.setH r w).mxctl = x.mxctl := rfl
@[simp] theorem Slot.setH_stat (x : Slot) (r : HReg) (w : Handle) : (x.setH r w).stat = x.stat := rfl
@[simp] theorem Slot.setH_prio (x : Slot) (r : HReg) (w : Handle) : (x.setH r w).prio = x.prio := rfl
@[simp] theorem Slot.setH_launchRec (x : Slot) (r : HReg) (w : Handle) : (x.setH r w).launchRec = x.launchRec := rfl
@[simp] theorem Slot.setH_launch (x : Slot) (r : HReg) (w : Handle) : (x.setH r w).launch = x.launch := rfl
@[simp] theorem Slot.setH_index (x : Slot) (r : HReg) (w : Handle) : (x.setH r w).index = x.index := rfl
@[simp] theorem Slot.setH_stepTask (x : Slot) (r : HReg) (w : Handle) : (x.setH r w).stepTask = x.stepTask := rfl
@[simp] theorem Slot.setH_part (x : Slot) (r : HReg) (w : Handle) : (x.setH r w).part = x.part := rfl
@[simp] theorem Slot.setH_yieldLeft (x : Slot) (r : HReg) (w : Handle) : (x.setH r w).yieldLeft = x.yieldLeft := rfl
@[simp] theorem Slot.setH_trapVec (x : Slot) (r : HReg) (w : Handle) : (x.setH r w).trapVec = x.trapVec := rfl
@[simp] theorem Slot.setH_trapCause (x : Slot) (r : HReg) (w : Handle) : (x.setH r w).trapCause = x.trapCause := rfl
@[simp] theorem Slot.setH_trapVal (x : Slot) (r : HReg) (w : Handle) : (x.setH r w).trapVal = x.trapVal := rfl
@[simp] theorem Slot.setH_trapPc (x : Slot) (r : HReg) (w : Handle) : (x.setH r w).trapPc = x.trapPc := rfl
@[simp] theorem Slot.setH_trapRep (x : Slot) (r : HReg) (w : Handle) : (x.setH r w).trapRep = x.trapRep := rfl
@[simp] theorem Slot.setH_rm (x : Slot) (r : HReg) (w : Handle) : (x.setH r w).rm = x.rm := rfl
@[simp] theorem Slot.setH_fflags (x : Slot) (r : HReg) (w : Handle) : (x.setH r w).fflags = x.fflags := rfl
@[simp] theorem Slot.setH_hypId (x : Slot) (r : HReg) (w : Handle) : (x.setH r w).hypId = x.hypId := rfl
@[simp] theorem Slot.setH_impl (x : Slot) (r : HReg) (w : Handle) : (x.setH r w).impl = x.impl := rfl
@[simp] theorem Slot.setH_regions (x : Slot) (r : HReg) (w : Handle) : (x.setH r w).regions = x.regions := rfl
@[simp] theorem Slot.setH_spillwait (x : Slot) (r : HReg) (w : Handle) : (x.setH r w).spillwait = x.spillwait := rfl
@[simp] theorem Slot.setH_strmCur (x : Slot) (r : HReg) (w : Handle) : (x.setH r w).strmCur = x.strmCur := rfl
@[simp] theorem Slot.setH_batchPos (x : Slot) (r : HReg) (w : Handle) : (x.setH r w).batchPos = x.batchPos := rfl
@[simp] theorem Slot.setH_members (x : Slot) (r : HReg) (w : Handle) : (x.setH r w).members = x.members := rfl
@[simp] theorem Slot.setH_chanIn (x : Slot) (r : HReg) (w : Handle) : (x.setH r w).chanIn = x.chanIn := rfl
@[simp] theorem Slot.setH_chanOut (x : Slot) (r : HReg) (w : Handle) : (x.setH r w).chanOut = x.chanOut := rfl
@[simp] theorem Slot.setH_inq (x : Slot) (r : HReg) (w : Handle) : (x.setH r w).inq = x.inq := rfl
@[simp] theorem Slot.setH_asid (x : Slot) (r : HReg) (w : Handle) : (x.setH r w).asid = x.asid := rfl
@[simp] theorem Slot.setH_world (x : Slot) (r : HReg) (w : Handle) : (x.setH r w).world = x.world := rfl
@[simp] theorem Slot.setH_resv (x : Slot) (r : HReg) (w : Handle) : (x.setH r w).resv = x.resv := rfl
@[simp] theorem Slot.setH_wc (x : Slot) (r : HReg) (w : Handle) : (x.setH r w).wc = x.wc := rfl
@[simp] theorem Slot.setH_barReg (x : Slot) (r : HReg) (w : Handle) : (x.setH r w).barReg = x.barReg := rfl
@[simp] theorem Slot.setH_rpend (x : Slot) (r : HReg) (w : Handle) : (x.setH r w).rpend = x.rpend := rfl
@[simp] theorem Slot.setH_engFaults (x : Slot) (r : HReg) (w : Handle) : (x.setH r w).engFaults = x.engFaults := rfl
@[simp] theorem Slot.setH_savedPriv (x : Slot) (r : HReg) (w : Handle) : (x.setH r w).savedPriv = x.savedPriv := rfl
@[simp] theorem Slot.setH_sysTrap (x : Slot) (r : HReg) (w : Handle) : (x.setH r w).sysTrap = x.sysTrap := rfl
@[simp] theorem Slot.setH_timer (x : Slot) (r : HReg) (w : Handle) : (x.setH r w).timer = x.timer := rfl
@[simp] theorem Slot.setH_fullVal (x : Slot) (r : HReg) (w : Handle) : (x.setH r w).fullVal = x.fullVal := rfl
@[simp] theorem Slot.setH_fullRep (x : Slot) (r : HReg) (w : Handle) : (x.setH r w).fullRep = x.fullRep := rfl
@[simp] theorem Slot.setH_repFrom (x : Slot) (r : HReg) (w : Handle) : (x.setH r w).repFrom = x.repFrom := rfl
@[simp] theorem Slot.setH_tretRep (x : Slot) (r : HReg) (w : Handle) : (x.setH r w).tretRep = x.tretRep := rfl
@[simp] theorem Slot.setH_pend (x : Slot) (r : HReg) (w : Handle) : (x.setH r w).pend = x.pend := rfl
@[simp] theorem Slot.setH_pairHash (x : Slot) (r : HReg) (w : Handle) : (x.setH r w).pairHash = x.pairHash := rfl
@[simp] theorem Slot.setH_pairSeq (x : Slot) (r : HReg) (w : Handle) : (x.setH r w).pairSeq = x.pairSeq := rfl
@[simp] theorem Slot.setH_partner (x : Slot) (r : HReg) (w : Handle) : (x.setH r w).partner = x.partner := rfl
@[simp] theorem Slot.setE_st (x : Slot) (r : Nat) (w : Word) : (x.setE r w).st = x.st := rfl
@[simp] theorem Slot.setE_wait (x : Slot) (r : Nat) (w : Word) : (x.setE r w).wait = x.wait := rfl
@[simp] theorem Slot.setE_pc (x : Slot) (r : Nat) (w : Word) : (x.setE r w).pc = x.pc := rfl
@[simp] theorem Slot.setE_g (x : Slot) (r : Nat) (w : Word) : (x.setE r w).g = x.g := rfl
@[simp] theorem Slot.setE_v (x : Slot) (r : Nat) (w : Word) : (x.setE r w).v = x.v := rfl
@[simp] theorem Slot.setE_m (x : Slot) (r : Nat) (w : Word) : (x.setE r w).m = x.m := rfl
@[simp] theorem Slot.setE_h (x : Slot) (r : Nat) (w : Word) : (x.setE r w).h = x.h := rfl
@[simp] theorem Slot.setE_mxctl (x : Slot) (r : Nat) (w : Word) : (x.setE r w).mxctl = x.mxctl := rfl
@[simp] theorem Slot.setE_stat (x : Slot) (r : Nat) (w : Word) : (x.setE r w).stat = x.stat := rfl
@[simp] theorem Slot.setE_prio (x : Slot) (r : Nat) (w : Word) : (x.setE r w).prio = x.prio := rfl
@[simp] theorem Slot.setE_launchRec (x : Slot) (r : Nat) (w : Word) : (x.setE r w).launchRec = x.launchRec := rfl
@[simp] theorem Slot.setE_launch (x : Slot) (r : Nat) (w : Word) : (x.setE r w).launch = x.launch := rfl
@[simp] theorem Slot.setE_index (x : Slot) (r : Nat) (w : Word) : (x.setE r w).index = x.index := rfl
@[simp] theorem Slot.setE_stepTask (x : Slot) (r : Nat) (w : Word) : (x.setE r w).stepTask = x.stepTask := rfl
@[simp] theorem Slot.setE_part (x : Slot) (r : Nat) (w : Word) : (x.setE r w).part = x.part := rfl
@[simp] theorem Slot.setE_yieldLeft (x : Slot) (r : Nat) (w : Word) : (x.setE r w).yieldLeft = x.yieldLeft := rfl
@[simp] theorem Slot.setE_trapVec (x : Slot) (r : Nat) (w : Word) : (x.setE r w).trapVec = x.trapVec := rfl
@[simp] theorem Slot.setE_trapCause (x : Slot) (r : Nat) (w : Word) : (x.setE r w).trapCause = x.trapCause := rfl
@[simp] theorem Slot.setE_trapVal (x : Slot) (r : Nat) (w : Word) : (x.setE r w).trapVal = x.trapVal := rfl
@[simp] theorem Slot.setE_trapPc (x : Slot) (r : Nat) (w : Word) : (x.setE r w).trapPc = x.trapPc := rfl
@[simp] theorem Slot.setE_trapRep (x : Slot) (r : Nat) (w : Word) : (x.setE r w).trapRep = x.trapRep := rfl
@[simp] theorem Slot.setE_rm (x : Slot) (r : Nat) (w : Word) : (x.setE r w).rm = x.rm := rfl
@[simp] theorem Slot.setE_fflags (x : Slot) (r : Nat) (w : Word) : (x.setE r w).fflags = x.fflags := rfl
@[simp] theorem Slot.setE_hypId (x : Slot) (r : Nat) (w : Word) : (x.setE r w).hypId = x.hypId := rfl
@[simp] theorem Slot.setE_impl (x : Slot) (r : Nat) (w : Word) : (x.setE r w).impl = x.impl := rfl
@[simp] theorem Slot.setE_regions (x : Slot) (r : Nat) (w : Word) : (x.setE r w).regions = x.regions := rfl
@[simp] theorem Slot.setE_spillwait (x : Slot) (r : Nat) (w : Word) : (x.setE r w).spillwait = x.spillwait := rfl
@[simp] theorem Slot.setE_strmCur (x : Slot) (r : Nat) (w : Word) : (x.setE r w).strmCur = x.strmCur := rfl
@[simp] theorem Slot.setE_batchPos (x : Slot) (r : Nat) (w : Word) : (x.setE r w).batchPos = x.batchPos := rfl
@[simp] theorem Slot.setE_members (x : Slot) (r : Nat) (w : Word) : (x.setE r w).members = x.members := rfl
@[simp] theorem Slot.setE_chanIn (x : Slot) (r : Nat) (w : Word) : (x.setE r w).chanIn = x.chanIn := rfl
@[simp] theorem Slot.setE_chanOut (x : Slot) (r : Nat) (w : Word) : (x.setE r w).chanOut = x.chanOut := rfl
@[simp] theorem Slot.setE_inq (x : Slot) (r : Nat) (w : Word) : (x.setE r w).inq = x.inq := rfl
@[simp] theorem Slot.setE_asid (x : Slot) (r : Nat) (w : Word) : (x.setE r w).asid = x.asid := rfl
@[simp] theorem Slot.setE_world (x : Slot) (r : Nat) (w : Word) : (x.setE r w).world = x.world := rfl
@[simp] theorem Slot.setE_resv (x : Slot) (r : Nat) (w : Word) : (x.setE r w).resv = x.resv := rfl
@[simp] theorem Slot.setE_wc (x : Slot) (r : Nat) (w : Word) : (x.setE r w).wc = x.wc := rfl
@[simp] theorem Slot.setE_barReg (x : Slot) (r : Nat) (w : Word) : (x.setE r w).barReg = x.barReg := rfl
@[simp] theorem Slot.setE_rpend (x : Slot) (r : Nat) (w : Word) : (x.setE r w).rpend = x.rpend := rfl
@[simp] theorem Slot.setE_engFaults (x : Slot) (r : Nat) (w : Word) : (x.setE r w).engFaults = x.engFaults := rfl
@[simp] theorem Slot.setE_savedPriv (x : Slot) (r : Nat) (w : Word) : (x.setE r w).savedPriv = x.savedPriv := rfl
@[simp] theorem Slot.setE_sysTrap (x : Slot) (r : Nat) (w : Word) : (x.setE r w).sysTrap = x.sysTrap := rfl
@[simp] theorem Slot.setE_timer (x : Slot) (r : Nat) (w : Word) : (x.setE r w).timer = x.timer := rfl
@[simp] theorem Slot.setE_fullVal (x : Slot) (r : Nat) (w : Word) : (x.setE r w).fullVal = x.fullVal := rfl
@[simp] theorem Slot.setE_fullRep (x : Slot) (r : Nat) (w : Word) : (x.setE r w).fullRep = x.fullRep := rfl
@[simp] theorem Slot.setE_repFrom (x : Slot) (r : Nat) (w : Word) : (x.setE r w).repFrom = x.repFrom := rfl
@[simp] theorem Slot.setE_tretRep (x : Slot) (r : Nat) (w : Word) : (x.setE r w).tretRep = x.tretRep := rfl
@[simp] theorem Slot.setE_pend (x : Slot) (r : Nat) (w : Word) : (x.setE r w).pend = x.pend := rfl
@[simp] theorem Slot.setE_pairHash (x : Slot) (r : Nat) (w : Word) : (x.setE r w).pairHash = x.pairHash := rfl
@[simp] theorem Slot.setE_pairSeq (x : Slot) (r : Nat) (w : Word) : (x.setE r w).pairSeq = x.pairSeq := rfl
@[simp] theorem Slot.setE_partner (x : Slot) (r : Nat) (w : Word) : (x.setE r w).partner = x.partner := rfl
@[simp] theorem Slot.setStat_st (x : Slot) (i : Nat) (b : Bool) : (x.setStat i b).st = x.st := rfl
@[simp] theorem Slot.setStat_wait (x : Slot) (i : Nat) (b : Bool) : (x.setStat i b).wait = x.wait := rfl
@[simp] theorem Slot.setStat_pc (x : Slot) (i : Nat) (b : Bool) : (x.setStat i b).pc = x.pc := rfl
@[simp] theorem Slot.setStat_g (x : Slot) (i : Nat) (b : Bool) : (x.setStat i b).g = x.g := rfl
@[simp] theorem Slot.setStat_v (x : Slot) (i : Nat) (b : Bool) : (x.setStat i b).v = x.v := rfl
@[simp] theorem Slot.setStat_m (x : Slot) (i : Nat) (b : Bool) : (x.setStat i b).m = x.m := rfl
@[simp] theorem Slot.setStat_h (x : Slot) (i : Nat) (b : Bool) : (x.setStat i b).h = x.h := rfl
@[simp] theorem Slot.setStat_e (x : Slot) (i : Nat) (b : Bool) : (x.setStat i b).e = x.e := rfl
@[simp] theorem Slot.setStat_mxctl (x : Slot) (i : Nat) (b : Bool) : (x.setStat i b).mxctl = x.mxctl := rfl
@[simp] theorem Slot.setStat_prio (x : Slot) (i : Nat) (b : Bool) : (x.setStat i b).prio = x.prio := rfl
@[simp] theorem Slot.setStat_launchRec (x : Slot) (i : Nat) (b : Bool) : (x.setStat i b).launchRec = x.launchRec := rfl
@[simp] theorem Slot.setStat_launch (x : Slot) (i : Nat) (b : Bool) : (x.setStat i b).launch = x.launch := rfl
@[simp] theorem Slot.setStat_index (x : Slot) (i : Nat) (b : Bool) : (x.setStat i b).index = x.index := rfl
@[simp] theorem Slot.setStat_stepTask (x : Slot) (i : Nat) (b : Bool) : (x.setStat i b).stepTask = x.stepTask := rfl
@[simp] theorem Slot.setStat_part (x : Slot) (i : Nat) (b : Bool) : (x.setStat i b).part = x.part := rfl
@[simp] theorem Slot.setStat_yieldLeft (x : Slot) (i : Nat) (b : Bool) : (x.setStat i b).yieldLeft = x.yieldLeft := rfl
@[simp] theorem Slot.setStat_trapVec (x : Slot) (i : Nat) (b : Bool) : (x.setStat i b).trapVec = x.trapVec := rfl
@[simp] theorem Slot.setStat_trapCause (x : Slot) (i : Nat) (b : Bool) : (x.setStat i b).trapCause = x.trapCause := rfl
@[simp] theorem Slot.setStat_trapVal (x : Slot) (i : Nat) (b : Bool) : (x.setStat i b).trapVal = x.trapVal := rfl
@[simp] theorem Slot.setStat_trapPc (x : Slot) (i : Nat) (b : Bool) : (x.setStat i b).trapPc = x.trapPc := rfl
@[simp] theorem Slot.setStat_trapRep (x : Slot) (i : Nat) (b : Bool) : (x.setStat i b).trapRep = x.trapRep := rfl
@[simp] theorem Slot.setStat_rm (x : Slot) (i : Nat) (b : Bool) : (x.setStat i b).rm = x.rm := rfl
@[simp] theorem Slot.setStat_fflags (x : Slot) (i : Nat) (b : Bool) : (x.setStat i b).fflags = x.fflags := rfl
@[simp] theorem Slot.setStat_hypId (x : Slot) (i : Nat) (b : Bool) : (x.setStat i b).hypId = x.hypId := rfl
@[simp] theorem Slot.setStat_impl (x : Slot) (i : Nat) (b : Bool) : (x.setStat i b).impl = x.impl := rfl
@[simp] theorem Slot.setStat_regions (x : Slot) (i : Nat) (b : Bool) : (x.setStat i b).regions = x.regions := rfl
@[simp] theorem Slot.setStat_spillwait (x : Slot) (i : Nat) (b : Bool) : (x.setStat i b).spillwait = x.spillwait := rfl
@[simp] theorem Slot.setStat_strmCur (x : Slot) (i : Nat) (b : Bool) : (x.setStat i b).strmCur = x.strmCur := rfl
@[simp] theorem Slot.setStat_batchPos (x : Slot) (i : Nat) (b : Bool) : (x.setStat i b).batchPos = x.batchPos := rfl
@[simp] theorem Slot.setStat_members (x : Slot) (i : Nat) (b : Bool) : (x.setStat i b).members = x.members := rfl
@[simp] theorem Slot.setStat_chanIn (x : Slot) (i : Nat) (b : Bool) : (x.setStat i b).chanIn = x.chanIn := rfl
@[simp] theorem Slot.setStat_chanOut (x : Slot) (i : Nat) (b : Bool) : (x.setStat i b).chanOut = x.chanOut := rfl
@[simp] theorem Slot.setStat_inq (x : Slot) (i : Nat) (b : Bool) : (x.setStat i b).inq = x.inq := rfl
@[simp] theorem Slot.setStat_asid (x : Slot) (i : Nat) (b : Bool) : (x.setStat i b).asid = x.asid := rfl
@[simp] theorem Slot.setStat_world (x : Slot) (i : Nat) (b : Bool) : (x.setStat i b).world = x.world := rfl
@[simp] theorem Slot.setStat_resv (x : Slot) (i : Nat) (b : Bool) : (x.setStat i b).resv = x.resv := rfl
@[simp] theorem Slot.setStat_wc (x : Slot) (i : Nat) (b : Bool) : (x.setStat i b).wc = x.wc := rfl
@[simp] theorem Slot.setStat_barReg (x : Slot) (i : Nat) (b : Bool) : (x.setStat i b).barReg = x.barReg := rfl
@[simp] theorem Slot.setStat_rpend (x : Slot) (i : Nat) (b : Bool) : (x.setStat i b).rpend = x.rpend := rfl
@[simp] theorem Slot.setStat_engFaults (x : Slot) (i : Nat) (b : Bool) : (x.setStat i b).engFaults = x.engFaults := rfl
@[simp] theorem Slot.setStat_savedPriv (x : Slot) (i : Nat) (b : Bool) : (x.setStat i b).savedPriv = x.savedPriv := rfl
@[simp] theorem Slot.setStat_sysTrap (x : Slot) (i : Nat) (b : Bool) : (x.setStat i b).sysTrap = x.sysTrap := rfl
@[simp] theorem Slot.setStat_timer (x : Slot) (i : Nat) (b : Bool) : (x.setStat i b).timer = x.timer := rfl
@[simp] theorem Slot.setStat_fullVal (x : Slot) (i : Nat) (b : Bool) : (x.setStat i b).fullVal = x.fullVal := rfl
@[simp] theorem Slot.setStat_fullRep (x : Slot) (i : Nat) (b : Bool) : (x.setStat i b).fullRep = x.fullRep := rfl
@[simp] theorem Slot.setStat_repFrom (x : Slot) (i : Nat) (b : Bool) : (x.setStat i b).repFrom = x.repFrom := rfl
@[simp] theorem Slot.setStat_tretRep (x : Slot) (i : Nat) (b : Bool) : (x.setStat i b).tretRep = x.tretRep := rfl
@[simp] theorem Slot.setStat_pend (x : Slot) (i : Nat) (b : Bool) : (x.setStat i b).pend = x.pend := rfl
@[simp] theorem Slot.setStat_pairHash (x : Slot) (i : Nat) (b : Bool) : (x.setStat i b).pairHash = x.pairHash := rfl
@[simp] theorem Slot.setStat_pairSeq (x : Slot) (i : Nat) (b : Bool) : (x.setStat i b).pairSeq = x.pairSeq := rfl
@[simp] theorem Slot.setStat_partner (x : Slot) (i : Nat) (b : Bool) : (x.setStat i b).partner = x.partner := rfl

/-- A g register reads as written, but for g0 and g31 (R91). -/
theorem Slot.gval_setG_self (x : Slot) {r : GReg} (w : Word) (h0 : r ≠ 0) (h31 : r ≠ 31) : (x.setG r w).gval r = w := by
  rw [Slot.setG, if_neg (fun e => e.elim h0 h31), Slot.gval, if_neg h0, if_neg h31]
  exact tblGet_set_self _ _ _ _
theorem Slot.head_setG (x : Slot) (r : GReg) (w : Word) : (x.setG r w).head = x.head := by
  rw [Slot.head, Slot.setG_inq, Slot.head]
/-- Every other g register is left alone. -/
theorem Slot.gval_setG_other (x : Slot) {r q : GReg} (w : Word) (h : q ≠ r) : (x.setG r w).gval q = x.gval q := by
  have hn : q.toNat ≠ r.toNat := fun e => h (BitVec.eq_of_toNat_eq e)
  unfold Slot.gval
  rw [Slot.head_setG]
  split
  · rfl
  · split
    · rfl
    · by_cases h0 : r = 0 ∨ r = 31
      · rw [Slot.setG, if_pos h0]
      · rw [Slot.setG, if_neg h0]
        exact tblGet_set_other _ _ _ hn
/-- g0 and g31 hold nothing that is written (R91). -/
theorem Slot.setG_none (x : Slot) {r : GReg} (w : Word) (h : r = 0 ∨ r = 31) : x.setG r w = x := by
  rw [Slot.setG, if_pos h]
theorem Slot.gval_zero (x : Slot) : x.gval 0 = 0 := by simp [Slot.gval]
theorem Slot.vval_setV_self (x : Slot) {r : VReg} (w : VVal) (h31 : r ≠ 31) : (x.setV r w).vval r = w := by
  rw [Slot.setV, if_neg h31, Slot.vval, if_neg h31]
  exact tblGet_set_self _ _ _ _
theorem Slot.vval_setV_other (x : Slot) {r q : VReg} (w : VVal) (h : q ≠ r) : (x.setV r w).vval q = x.vval q := by
  have hn : q.toNat ≠ r.toNat := fun e => h (BitVec.eq_of_toNat_eq e)
  unfold Slot.vval
  split
  · rfl
  · by_cases h0 : r = 31
    · rw [Slot.setV, if_pos h0]
    · rw [Slot.setV, if_neg h0]
      exact tblGet_set_other _ _ _ hn
theorem Slot.mval_setM_self (x : Slot) {r : MReg} (w : MVal) (h0 : r ≠ 0) : (x.setM r w).mval r = w := by
  rw [Slot.setM, if_neg h0, Slot.mval, if_neg h0]
  exact tblGet_set_self _ _ _ _
theorem Slot.mval_setM_other (x : Slot) {r q : MReg} (w : MVal) (h : q ≠ r) : (x.setM r w).mval q = x.mval q := by
  have hn : q.toNat ≠ r.toNat := fun e => h (BitVec.eq_of_toNat_eq e)
  unfold Slot.mval
  split
  · rfl
  · by_cases h0 : r = 0
    · rw [Slot.setM, if_pos h0]
    · rw [Slot.setM, if_neg h0]
      exact tblGet_set_other _ _ _ hn
theorem Slot.hval_setH_self (x : Slot) (r : HReg) (w : Handle) : (x.setH r w).hval r = w := tblGet_set_self _ _ _ _
theorem Slot.hval_setH_other (x : Slot) {r q : HReg} (w : Handle) (h : q ≠ r) : (x.setH r w).hval q = x.hval q :=
  tblGet_set_other _ _ _ fun e => h (BitVec.eq_of_toNat_eq e)
theorem Slot.eval_setE_self (x : Slot) (n : Nat) (w : Word) : (x.setE n w).eval_ n = w &&& engineMask n :=
  tblGet_set_self _ _ _ _
theorem Slot.eval_setE_other (x : Slot) {n k : Nat} (w : Word) (h : k ≠ n) : (x.setE n w).eval_ k = x.eval_ k :=
  tblGet_set_other _ _ _ h

end Sys2Proof.Machine
end

