-- ==== Sys2Proof/Laws/Entered.lean ====
section
/-!
SUPPORT. What the terms of the claims leave alone: entering an instruction, its end, a g register written, a message sent.
-/

namespace Sys2Proof.Machine

set_option Elab.async false

@[simp] theorem State.entered_cur (s : State) (i : Instr) : (s.entered i).cur = s.cur := by
  unfold State.entered; split <;> rfl

@[simp] theorem State.entered_slot_st (s : State) (i : Instr) (t : Nat) : ((s.entered i).slot t).st = (s.slot t).st := by
  unfold State.entered; split <;> simp only [State.slot_setSlot] <;> split <;> simp_all
@[simp] theorem State.entered_slot_wait (s : State) (i : Instr) (t : Nat) : ((s.entered i).slot t).wait = (s.slot t).wait := by
  unfold State.entered; split <;> simp only [State.slot_setSlot] <;> split <;> simp_all
@[simp] theorem State.entered_slot_pc (s : State) (i : Instr) (t : Nat) : ((s.entered i).slot t).pc = (s.slot t).pc := by
  unfold State.entered; split <;> simp only [State.slot_setSlot] <;> split <;> simp_all
@[simp] theorem State.entered_slot_g (s : State) (i : Instr) (t : Nat) : ((s.entered i).slot t).g = (s.slot t).g := by
  unfold State.entered; split <;> simp only [State.slot_setSlot] <;> split <;> simp_all
@[simp] theorem State.entered_slot_v (s : State) (i : Instr) (t : Nat) : ((s.entered i).slot t).v = (s.slot t).v := by
  unfold State.entered; split <;> simp only [State.slot_setSlot] <;> split <;> simp_all
@[simp] theorem State.entered_slot_m (s : State) (i : Instr) (t : Nat) : ((s.entered i).slot t).m = (s.slot t).m := by
  unfold State.entered; split <;> simp only [State.slot_setSlot] <;> split <;> simp_all
@[simp] theorem State.entered_slot_h (s : State) (i : Instr) (t : Nat) : ((s.entered i).slot t).h = (s.slot t).h := by
  unfold State.entered; split <;> simp only [State.slot_setSlot] <;> split <;> simp_all
@[simp] theorem State.entered_slot_e (s : State) (i : Instr) (t : Nat) : ((s.entered i).slot t).e = (s.slot t).e := by
  unfold State.entered; split <;> simp only [State.slot_setSlot] <;> split <;> simp_all
@[simp] theorem State.entered_slot_mxctl (s : State) (i : Instr) (t : Nat) : ((s.entered i).slot t).mxctl = (s.slot t).mxctl := by
  unfold State.entered; split <;> simp only [State.slot_setSlot] <;> split <;> simp_all
@[simp] theorem State.entered_slot_stat (s : State) (i : Instr) (t : Nat) : ((s.entered i).slot t).stat = (s.slot t).stat := by
  unfold State.entered; split <;> simp only [State.slot_setSlot] <;> split <;> simp_all
@[simp] theorem State.entered_slot_prio (s : State) (i : Instr) (t : Nat) : ((s.entered i).slot t).prio = (s.slot t).prio := by
  unfold State.entered; split <;> simp only [State.slot_setSlot] <;> split <;> simp_all
@[simp] theorem State.entered_slot_launchRec (s : State) (i : Instr) (t : Nat) : ((s.entered i).slot t).launchRec = (s.slot t).launchRec := by
  unfold State.entered; split <;> simp only [State.slot_setSlot] <;> split <;> simp_all
@[simp] theorem State.entered_slot_launch (s : State) (i : Instr) (t : Nat) : ((s.entered i).slot t).launch = (s.slot t).launch := by
  unfold State.entered; split <;> simp only [State.slot_setSlot] <;> split <;> simp_all
@[simp] theorem State.entered_slot_index (s : State) (i : Instr) (t : Nat) : ((s.entered i).slot t).index = (s.slot t).index := by
  unfold State.entered; split <;> simp only [State.slot_setSlot] <;> split <;> simp_all
@[simp] theorem State.entered_slot_stepTask (s : State) (i : Instr) (t : Nat) : ((s.entered i).slot t).stepTask = (s.slot t).stepTask := by
  unfold State.entered; split <;> simp only [State.slot_setSlot] <;> split <;> simp_all
@[simp] theorem State.entered_slot_part (s : State) (i : Instr) (t : Nat) : ((s.entered i).slot t).part = (s.slot t).part := by
  unfold State.entered; split <;> simp only [State.slot_setSlot] <;> split <;> simp_all
@[simp] theorem State.entered_slot_yieldLeft (s : State) (i : Instr) (t : Nat) : ((s.entered i).slot t).yieldLeft = (s.slot t).yieldLeft := by
  unfold State.entered; split <;> simp only [State.slot_setSlot] <;> split <;> simp_all
@[simp] theorem State.entered_slot_trapVec (s : State) (i : Instr) (t : Nat) : ((s.entered i).slot t).trapVec = (s.slot t).trapVec := by
  unfold State.entered; split <;> simp only [State.slot_setSlot] <;> split <;> simp_all
@[simp] theorem State.entered_slot_trapCause (s : State) (i : Instr) (t : Nat) : ((s.entered i).slot t).trapCause = (s.slot t).trapCause := by
  unfold State.entered; split <;> simp only [State.slot_setSlot] <;> split <;> simp_all
@[simp] theorem State.entered_slot_trapVal (s : State) (i : Instr) (t : Nat) : ((s.entered i).slot t).trapVal = (s.slot t).trapVal := by
  unfold State.entered; split <;> simp only [State.slot_setSlot] <;> split <;> simp_all
@[simp] theorem State.entered_slot_trapPc (s : State) (i : Instr) (t : Nat) : ((s.entered i).slot t).trapPc = (s.slot t).trapPc := by
  unfold State.entered; split <;> simp only [State.slot_setSlot] <;> split <;> simp_all
@[simp] theorem State.entered_slot_trapRep (s : State) (i : Instr) (t : Nat) : ((s.entered i).slot t).trapRep = (s.slot t).trapRep := by
  unfold State.entered; split <;> simp only [State.slot_setSlot] <;> split <;> simp_all
@[simp] theorem State.entered_slot_rm (s : State) (i : Instr) (t : Nat) : ((s.entered i).slot t).rm = (s.slot t).rm := by
  unfold State.entered; split <;> simp only [State.slot_setSlot] <;> split <;> simp_all
@[simp] theorem State.entered_slot_fflags (s : State) (i : Instr) (t : Nat) : ((s.entered i).slot t).fflags = (s.slot t).fflags := by
  unfold State.entered; split <;> simp only [State.slot_setSlot] <;> split <;> simp_all
@[simp] theorem State.entered_slot_impl (s : State) (i : Instr) (t : Nat) : ((s.entered i).slot t).impl = (s.slot t).impl := by
  unfold State.entered; split <;> simp only [State.slot_setSlot] <;> split <;> simp_all
@[simp] theorem State.entered_slot_regions (s : State) (i : Instr) (t : Nat) : ((s.entered i).slot t).regions = (s.slot t).regions := by
  unfold State.entered; split <;> simp only [State.slot_setSlot] <;> split <;> simp_all
@[simp] theorem State.entered_slot_spillwait (s : State) (i : Instr) (t : Nat) : ((s.entered i).slot t).spillwait = (s.slot t).spillwait := by
  unfold State.entered; split <;> simp only [State.slot_setSlot] <;> split <;> simp_all
@[simp] theorem State.entered_slot_strmCur (s : State) (i : Instr) (t : Nat) : ((s.entered i).slot t).strmCur = (s.slot t).strmCur := by
  unfold State.entered; split <;> simp only [State.slot_setSlot] <;> split <;> simp_all
@[simp] theorem State.entered_slot_batchPos (s : State) (i : Instr) (t : Nat) : ((s.entered i).slot t).batchPos = (s.slot t).batchPos := by
  unfold State.entered; split <;> simp only [State.slot_setSlot] <;> split <;> simp_all
@[simp] theorem State.entered_slot_members (s : State) (i : Instr) (t : Nat) : ((s.entered i).slot t).members = (s.slot t).members := by
  unfold State.entered; split <;> simp only [State.slot_setSlot] <;> split <;> simp_all
@[simp] theorem State.entered_slot_chanIn (s : State) (i : Instr) (t : Nat) : ((s.entered i).slot t).chanIn = (s.slot t).chanIn := by
  unfold State.entered; split <;> simp only [State.slot_setSlot] <;> split <;> simp_all
@[simp] theorem State.entered_slot_chanOut (s : State) (i : Instr) (t : Nat) : ((s.entered i).slot t).chanOut = (s.slot t).chanOut := by
  unfold State.entered; split <;> simp only [State.slot_setSlot] <;> split <;> simp_all
@[simp] theorem State.entered_slot_inq (s : State) (i : Instr) (t : Nat) : ((s.entered i).slot t).inq = (s.slot t).inq := by
  unfold State.entered; split <;> simp only [State.slot_setSlot] <;> split <;> simp_all
@[simp] theorem State.entered_slot_asid (s : State) (i : Instr) (t : Nat) : ((s.entered i).slot t).asid = (s.slot t).asid := by
  unfold State.entered; split <;> simp only [State.slot_setSlot] <;> split <;> simp_all
@[simp] theorem State.entered_slot_world (s : State) (i : Instr) (t : Nat) : ((s.entered i).slot t).world = (s.slot t).world := by
  unfold State.entered; split <;> simp only [State.slot_setSlot] <;> split <;> simp_all
@[simp] theorem State.entered_slot_resv (s : State) (i : Instr) (t : Nat) : ((s.entered i).slot t).resv = (s.slot t).resv := by
  unfold State.entered; split <;> simp only [State.slot_setSlot] <;> split <;> simp_all
@[simp] theorem State.entered_slot_wc (s : State) (i : Instr) (t : Nat) : ((s.entered i).slot t).wc = (s.slot t).wc := by
  unfold State.entered; split <;> simp only [State.slot_setSlot] <;> split <;> simp_all
@[simp] theorem State.entered_slot_barReg (s : State) (i : Instr) (t : Nat) : ((s.entered i).slot t).barReg = (s.slot t).barReg := by
  unfold State.entered; split <;> simp only [State.slot_setSlot] <;> split <;> simp_all
@[simp] theorem State.entered_slot_rpend (s : State) (i : Instr) (t : Nat) : ((s.entered i).slot t).rpend = (s.slot t).rpend := by
  unfold State.entered; split <;> simp only [State.slot_setSlot] <;> split <;> simp_all
@[simp] theorem State.entered_slot_engFaults (s : State) (i : Instr) (t : Nat) : ((s.entered i).slot t).engFaults = (s.slot t).engFaults := by
  unfold State.entered; split <;> simp only [State.slot_setSlot] <;> split <;> simp_all
@[simp] theorem State.entered_slot_savedPriv (s : State) (i : Instr) (t : Nat) : ((s.entered i).slot t).savedPriv = (s.slot t).savedPriv := by
  unfold State.entered; split <;> simp only [State.slot_setSlot] <;> split <;> simp_all
@[simp] theorem State.entered_slot_sysTrap (s : State) (i : Instr) (t : Nat) : ((s.entered i).slot t).sysTrap = (s.slot t).sysTrap := by
  unfold State.entered; split <;> simp only [State.slot_setSlot] <;> split <;> simp_all
@[simp] theorem State.entered_slot_timer (s : State) (i : Instr) (t : Nat) : ((s.entered i).slot t).timer = (s.slot t).timer := by
  unfold State.entered; split <;> simp only [State.slot_setSlot] <;> split <;> simp_all
@[simp] theorem State.entered_slot_fullVal (s : State) (i : Instr) (t : Nat) : ((s.entered i).slot t).fullVal = (s.slot t).fullVal := by
  unfold State.entered; split <;> simp only [State.slot_setSlot] <;> split <;> simp_all
@[simp] theorem State.entered_slot_fullRep (s : State) (i : Instr) (t : Nat) : ((s.entered i).slot t).fullRep = (s.slot t).fullRep := by
  unfold State.entered; split <;> simp only [State.slot_setSlot] <;> split <;> simp_all
@[simp] theorem State.entered_slot_repFrom (s : State) (i : Instr) (t : Nat) : ((s.entered i).slot t).repFrom = (s.slot t).repFrom := by
  unfold State.entered; split <;> simp only [State.slot_setSlot] <;> split <;> simp_all
@[simp] theorem State.entered_slot_tretRep (s : State) (i : Instr) (t : Nat) : ((s.entered i).slot t).tretRep = (s.slot t).tretRep := by
  unfold State.entered; split <;> simp only [State.slot_setSlot] <;> split <;> simp_all
@[simp] theorem State.entered_slot_pend (s : State) (i : Instr) (t : Nat) : ((s.entered i).slot t).pend = (s.slot t).pend := by
  unfold State.entered; split <;> simp only [State.slot_setSlot] <;> split <;> simp_all
@[simp] theorem State.entered_slot_pairHash (s : State) (i : Instr) (t : Nat) : ((s.entered i).slot t).pairHash = (s.slot t).pairHash := by
  unfold State.entered; split <;> simp only [State.slot_setSlot] <;> split <;> simp_all
@[simp] theorem State.entered_slot_pairSeq (s : State) (i : Instr) (t : Nat) : ((s.entered i).slot t).pairSeq = (s.slot t).pairSeq := by
  unfold State.entered; split <;> simp only [State.slot_setSlot] <;> split <;> simp_all
@[simp] theorem State.entered_slot_partner (s : State) (i : Instr) (t : Nat) : ((s.entered i).slot t).partner = (s.slot t).partner := by
  unfold State.entered; split <;> simp only [State.slot_setSlot] <;> split <;> simp_all
@[simp] theorem State.entered_agenda (s : State) (i : Instr) : (s.entered i).agenda = s.agenda := by
  unfold State.entered; split <;> rfl
@[simp] theorem State.entered_ev (s : State) (i : Instr) : (s.entered i).ev = s.ev := by
  unfold State.entered; split <;> rfl
@[simp] theorem State.entered_turn (s : State) (i : Instr) : (s.entered i).turn = s.turn := by
  unfold State.entered; split <;> rfl
@[simp] theorem State.entered_early (s : State) (i : Instr) : (s.entered i).early = s.early := by
  unfold State.entered; split <;> rfl
@[simp] theorem State.entered_free (s : State) (i : Instr) : (s.entered i).free = s.free := by
  unfold State.entered; split <;> rfl
@[simp] theorem State.entered_cores (s : State) (i : Instr) : (s.entered i).cores = s.cores := by
  unfold State.entered; split <;> rfl
@[simp] theorem State.entered_cells (s : State) (i : Instr) : (s.entered i).cells = s.cells := by
  unfold State.entered; split <;> rfl
@[simp] theorem State.entered_ms (s : State) (i : Instr) : (s.entered i).ms = s.ms := by
  unfold State.entered; split <;> rfl
@[simp] theorem State.entered_hyps (s : State) (i : Instr) : (s.entered i).hyps = s.hyps := by
  unfold State.entered; split <;> rfl
@[simp] theorem State.entered_ls (s : State) (i : Instr) : (s.entered i).ls = s.ls := by
  unfold State.entered; split <;> rfl
@[simp] theorem State.entered_ss (s : State) (i : Instr) : (s.entered i).ss = s.ss := by
  unfold State.entered; split <;> rfl
@[simp] theorem State.entered_es (s : State) (i : Instr) : (s.entered i).es = s.es := by
  unfold State.entered; split <;> rfl
@[simp] theorem State.entered_ws (s : State) (i : Instr) : (s.entered i).ws = s.ws := by
  unfold State.entered; split <;> rfl
@[simp] theorem State.entered_fs (s : State) (i : Instr) : (s.entered i).fs = s.fs := by
  unfold State.entered; split <;> rfl
@[simp] theorem State.entered_pf (s : State) (i : Instr) : (s.entered i).pf = s.pf := by
  unfold State.entered; split <;> rfl

theorem State.entered_slot_other (s : State) (i : Instr) {t : Nat} (h : t ≠ s.cur) : (s.entered i).slot t = s.slot t := by
  unfold State.entered; split <;> simp [State.slot_setSlot, h]
theorem State.entered_eq (s : State) {i : Instr} (h : isOrphanPoint i = false) : s.entered i = s := by
  simp [State.entered, h]
theorem State.entered_head (s : State) (i : Instr) (t : Nat) : ((s.entered i).slot t).head = (s.slot t).head := by
  simp [Slot.head]
@[simp] theorem State.entered_gval (s : State) (i : Instr) (t : Nat) (r : GReg) :
    ((s.entered i).slot t).gval r = (s.slot t).gval r := by
  simp [Slot.gval, State.entered_head]
@[simp] theorem State.entered_vval (s : State) (i : Instr) (t : Nat) (r : VReg) :
    ((s.entered i).slot t).vval r = (s.slot t).vval r := by simp [Slot.vval]
@[simp] theorem State.entered_mval (s : State) (i : Instr) (t : Nat) (r : MReg) :
    ((s.entered i).slot t).mval r = (s.slot t).mval r := by simp [Slot.mval]
@[simp] theorem State.entered_core (s : State) (i : Instr) (k : Nat) : (s.entered i).core k = s.core k := by
  simp [State.core]
@[simp] theorem State.entered_cell (s : State) (i : Instr) (k : Nat) : (s.entered i).cell k = s.cell k := by
  simp [State.cell]
@[simp] theorem State.entered_clock (s : State) (i : Instr) (k : Nat) : (s.entered i).clock k = s.clock k := by
  simp [State.clock]

/-! ### Sending a message -/

/-- Sending changes inbound queues alone. -/
theorem State.pushed_slots (s : State) (vec : Bool) (data : VVal) : (s.pushed vec data).cur = s.cur ∧
    ∀ t, ∃ q, (s.pushed vec data).slot t = { s.slot t with inq := q } := by
  unfold State.pushed
  generalize pairTargets s s.cur (outPeer s.cur s.me) = l
  have main : ∀ (l : List (Nat × Nat)) (u : State), u.cur = s.cur → (∀ t, ∃ q, u.slot t = { s.slot t with inq := q }) →
      (l.foldl (fun u e => u.setSlot e.2 (if (u.slot e.2).keeps e.1 vec then
        { u.slot e.2 with inq := (u.slot e.2).inq ++ [⟨vec, e.1, true, data⟩] } else u.slot e.2)) u).cur = s.cur ∧
      ∀ t, ∃ q, (l.foldl (fun u e => u.setSlot e.2 (if (u.slot e.2).keeps e.1 vec then
        { u.slot e.2 with inq := (u.slot e.2).inq ++ [⟨vec, e.1, true, data⟩] } else u.slot e.2)) u).slot t =
          { s.slot t with inq := q } := by
    intro l
    induction l with
    | nil => intro u h1 h2; exact ⟨h1, h2⟩
    | cons e r ih =>
      intro u h1 h2
      rw [List.foldl_cons]
      refine ih _ h1 fun t => ?_
      rw [State.slot_setSlot]
      split
      · next ht =>
        subst ht
        obtain ⟨q, hq⟩ := h2 e.2
        split
        · exact ⟨(u.slot e.2).inq ++ [⟨vec, e.1, true, data⟩], by rw [hq]⟩
        · exact ⟨q, hq⟩
      · exact h2 t
  exact main l s rfl fun t => ⟨(s.slot t).inq, rfl⟩

theorem State.pushed_agenda (s : State) (vec : Bool) (data : VVal) : (s.pushed vec data).agenda = s.agenda := by
  unfold State.pushed
  generalize pairTargets s s.cur (outPeer s.cur s.me) = l
  suffices h : ∀ (l : List (Nat × Nat)) (u : State), u.agenda = s.agenda → (l.foldl (fun u e => u.setSlot e.2
      (if (u.slot e.2).keeps e.1 vec then { u.slot e.2 with inq := (u.slot e.2).inq ++ [⟨vec, e.1, true, data⟩] }
        else u.slot e.2)) u).agenda = s.agenda from h l s rfl
  intro l
  induction l with
  | nil => exact fun u h => h
  | cons e r ih => exact fun u h => ih _ h
theorem State.pushed_ev (s : State) (vec : Bool) (data : VVal) : (s.pushed vec data).ev = s.ev := by
  unfold State.pushed
  generalize pairTargets s s.cur (outPeer s.cur s.me) = l
  suffices h : ∀ (l : List (Nat × Nat)) (u : State), u.ev = s.ev → (l.foldl (fun u e => u.setSlot e.2
      (if (u.slot e.2).keeps e.1 vec then { u.slot e.2 with inq := (u.slot e.2).inq ++ [⟨vec, e.1, true, data⟩] }
        else u.slot e.2)) u).ev = s.ev from h l s rfl
  intro l
  induction l with
  | nil => exact fun u h => h
  | cons e r ih => exact fun u h => ih _ h
theorem State.pushed_turn (s : State) (vec : Bool) (data : VVal) : (s.pushed vec data).turn = s.turn := by
  unfold State.pushed
  generalize pairTargets s s.cur (outPeer s.cur s.me) = l
  suffices h : ∀ (l : List (Nat × Nat)) (u : State), u.turn = s.turn → (l.foldl (fun u e => u.setSlot e.2
      (if (u.slot e.2).keeps e.1 vec then { u.slot e.2 with inq := (u.slot e.2).inq ++ [⟨vec, e.1, true, data⟩] }
        else u.slot e.2)) u).turn = s.turn from h l s rfl
  intro l
  induction l with
  | nil => exact fun u h => h
  | cons e r ih => exact fun u h => ih _ h
theorem State.pushed_early (s : State) (vec : Bool) (data : VVal) : (s.pushed vec data).early = s.early := by
  unfold State.pushed
  generalize pairTargets s s.cur (outPeer s.cur s.me) = l
  suffices h : ∀ (l : List (Nat × Nat)) (u : State), u.early = s.early → (l.foldl (fun u e => u.setSlot e.2
      (if (u.slot e.2).keeps e.1 vec then { u.slot e.2 with inq := (u.slot e.2).inq ++ [⟨vec, e.1, true, data⟩] }
        else u.slot e.2)) u).early = s.early from h l s rfl
  intro l
  induction l with
  | nil => exact fun u h => h
  | cons e r ih => exact fun u h => ih _ h
theorem State.pushed_free (s : State) (vec : Bool) (data : VVal) : (s.pushed vec data).free = s.free := by
  unfold State.pushed
  generalize pairTargets s s.cur (outPeer s.cur s.me) = l
  suffices h : ∀ (l : List (Nat × Nat)) (u : State), u.free = s.free → (l.foldl (fun u e => u.setSlot e.2
      (if (u.slot e.2).keeps e.1 vec then { u.slot e.2 with inq := (u.slot e.2).inq ++ [⟨vec, e.1, true, data⟩] }
        else u.slot e.2)) u).free = s.free from h l s rfl
  intro l
  induction l with
  | nil => exact fun u h => h
  | cons e r ih => exact fun u h => ih _ h
theorem State.pushed_cores (s : State) (vec : Bool) (data : VVal) : (s.pushed vec data).cores = s.cores := by
  unfold State.pushed
  generalize pairTargets s s.cur (outPeer s.cur s.me) = l
  suffices h : ∀ (l : List (Nat × Nat)) (u : State), u.cores = s.cores → (l.foldl (fun u e => u.setSlot e.2
      (if (u.slot e.2).keeps e.1 vec then { u.slot e.2 with inq := (u.slot e.2).inq ++ [⟨vec, e.1, true, data⟩] }
        else u.slot e.2)) u).cores = s.cores from h l s rfl
  intro l
  induction l with
  | nil => exact fun u h => h
  | cons e r ih => exact fun u h => ih _ h
theorem State.pushed_cells (s : State) (vec : Bool) (data : VVal) : (s.pushed vec data).cells = s.cells := by
  unfold State.pushed
  generalize pairTargets s s.cur (outPeer s.cur s.me) = l
  suffices h : ∀ (l : List (Nat × Nat)) (u : State), u.cells = s.cells → (l.foldl (fun u e => u.setSlot e.2
      (if (u.slot e.2).keeps e.1 vec then { u.slot e.2 with inq := (u.slot e.2).inq ++ [⟨vec, e.1, true, data⟩] }
        else u.slot e.2)) u).cells = s.cells from h l s rfl
  intro l
  induction l with
  | nil => exact fun u h => h
  | cons e r ih => exact fun u h => ih _ h
theorem State.pushed_ms (s : State) (vec : Bool) (data : VVal) : (s.pushed vec data).ms = s.ms := by
  unfold State.pushed
  generalize pairTargets s s.cur (outPeer s.cur s.me) = l
  suffices h : ∀ (l : List (Nat × Nat)) (u : State), u.ms = s.ms → (l.foldl (fun u e => u.setSlot e.2
      (if (u.slot e.2).keeps e.1 vec then { u.slot e.2 with inq := (u.slot e.2).inq ++ [⟨vec, e.1, true, data⟩] }
        else u.slot e.2)) u).ms = s.ms from h l s rfl
  intro l
  induction l with
  | nil => exact fun u h => h
  | cons e r ih => exact fun u h => ih _ h
theorem State.pushed_hyps (s : State) (vec : Bool) (data : VVal) : (s.pushed vec data).hyps = s.hyps := by
  unfold State.pushed
  generalize pairTargets s s.cur (outPeer s.cur s.me) = l
  suffices h : ∀ (l : List (Nat × Nat)) (u : State), u.hyps = s.hyps → (l.foldl (fun u e => u.setSlot e.2
      (if (u.slot e.2).keeps e.1 vec then { u.slot e.2 with inq := (u.slot e.2).inq ++ [⟨vec, e.1, true, data⟩] }
        else u.slot e.2)) u).hyps = s.hyps from h l s rfl
  intro l
  induction l with
  | nil => exact fun u h => h
  | cons e r ih => exact fun u h => ih _ h
theorem State.pushed_ls (s : State) (vec : Bool) (data : VVal) : (s.pushed vec data).ls = s.ls := by
  unfold State.pushed
  generalize pairTargets s s.cur (outPeer s.cur s.me) = l
  suffices h : ∀ (l : List (Nat × Nat)) (u : State), u.ls = s.ls → (l.foldl (fun u e => u.setSlot e.2
      (if (u.slot e.2).keeps e.1 vec then { u.slot e.2 with inq := (u.slot e.2).inq ++ [⟨vec, e.1, true, data⟩] }
        else u.slot e.2)) u).ls = s.ls from h l s rfl
  intro l
  induction l with
  | nil => exact fun u h => h
  | cons e r ih => exact fun u h => ih _ h
theorem State.pushed_ss (s : State) (vec : Bool) (data : VVal) : (s.pushed vec data).ss = s.ss := by
  unfold State.pushed
  generalize pairTargets s s.cur (outPeer s.cur s.me) = l
  suffices h : ∀ (l : List (Nat × Nat)) (u : State), u.ss = s.ss → (l.foldl (fun u e => u.setSlot e.2
      (if (u.slot e.2).keeps e.1 vec then { u.slot e.2 with inq := (u.slot e.2).inq ++ [⟨vec, e.1, true, data⟩] }
        else u.slot e.2)) u).ss = s.ss from h l s rfl
  intro l
  induction l with
  | nil => exact fun u h => h
  | cons e r ih => exact fun u h => ih _ h
theorem State.pushed_es (s : State) (vec : Bool) (data : VVal) : (s.pushed vec data).es = s.es := by
  unfold State.pushed
  generalize pairTargets s s.cur (outPeer s.cur s.me) = l
  suffices h : ∀ (l : List (Nat × Nat)) (u : State), u.es = s.es → (l.foldl (fun u e => u.setSlot e.2
      (if (u.slot e.2).keeps e.1 vec then { u.slot e.2 with inq := (u.slot e.2).inq ++ [⟨vec, e.1, true, data⟩] }
        else u.slot e.2)) u).es = s.es from h l s rfl
  intro l
  induction l with
  | nil => exact fun u h => h
  | cons e r ih => exact fun u h => ih _ h
theorem State.pushed_ws (s : State) (vec : Bool) (data : VVal) : (s.pushed vec data).ws = s.ws := by
  unfold State.pushed
  generalize pairTargets s s.cur (outPeer s.cur s.me) = l
  suffices h : ∀ (l : List (Nat × Nat)) (u : State), u.ws = s.ws → (l.foldl (fun u e => u.setSlot e.2
      (if (u.slot e.2).keeps e.1 vec then { u.slot e.2 with inq := (u.slot e.2).inq ++ [⟨vec, e.1, true, data⟩] }
        else u.slot e.2)) u).ws = s.ws from h l s rfl
  intro l
  induction l with
  | nil => exact fun u h => h
  | cons e r ih => exact fun u h => ih _ h
theorem State.pushed_fs (s : State) (vec : Bool) (data : VVal) : (s.pushed vec data).fs = s.fs := by
  unfold State.pushed
  generalize pairTargets s s.cur (outPeer s.cur s.me) = l
  suffices h : ∀ (l : List (Nat × Nat)) (u : State), u.fs = s.fs → (l.foldl (fun u e => u.setSlot e.2
      (if (u.slot e.2).keeps e.1 vec then { u.slot e.2 with inq := (u.slot e.2).inq ++ [⟨vec, e.1, true, data⟩] }
        else u.slot e.2)) u).fs = s.fs from h l s rfl
  intro l
  induction l with
  | nil => exact fun u h => h
  | cons e r ih => exact fun u h => ih _ h
theorem State.pushed_pf (s : State) (vec : Bool) (data : VVal) : (s.pushed vec data).pf = s.pf := by
  unfold State.pushed
  generalize pairTargets s s.cur (outPeer s.cur s.me) = l
  suffices h : ∀ (l : List (Nat × Nat)) (u : State), u.pf = s.pf → (l.foldl (fun u e => u.setSlot e.2
      (if (u.slot e.2).keeps e.1 vec then { u.slot e.2 with inq := (u.slot e.2).inq ++ [⟨vec, e.1, true, data⟩] }
        else u.slot e.2)) u).pf = s.pf from h l s rfl
  intro l
  induction l with
  | nil => exact fun u h => h
  | cons e r ih => exact fun u h => ih _ h

@[simp] theorem State.put_cur (s : State) (d : GReg) (w : Word) : (s.put d w).cur = s.cur := by
  unfold State.put; split
  · exact (s.pushed_slots _ _).1
  · rfl
@[simp] theorem State.put_agenda (s : State) (d : GReg) (w : Word) : (s.put d w).agenda = s.agenda := by
  unfold State.put; split
  · exact s.pushed_agenda _ _
  · rfl
@[simp] theorem State.put_ev (s : State) (d : GReg) (w : Word) : (s.put d w).ev = s.ev := by
  unfold State.put; split
  · exact s.pushed_ev _ _
  · rfl
@[simp] theorem State.put_turn (s : State) (d : GReg) (w : Word) : (s.put d w).turn = s.turn := by
  unfold State.put; split
  · exact s.pushed_turn _ _
  · rfl
@[simp] theorem State.put_early (s : State) (d : GReg) (w : Word) : (s.put d w).early = s.early := by
  unfold State.put; split
  · exact s.pushed_early _ _
  · rfl
@[simp] theorem State.put_free (s : State) (d : GReg) (w : Word) : (s.put d w).free = s.free := by
  unfold State.put; split
  · exact s.pushed_free _ _
  · rfl
@[simp] theorem State.put_cores (s : State) (d : GReg) (w : Word) : (s.put d w).cores = s.cores := by
  unfold State.put; split
  · exact s.pushed_cores _ _
  · rfl
@[simp] theorem State.put_cells (s : State) (d : GReg) (w : Word) : (s.put d w).cells = s.cells := by
  unfold State.put; split
  · exact s.pushed_cells _ _
  · rfl
@[simp] theorem State.put_ms (s : State) (d : GReg) (w : Word) : (s.put d w).ms = s.ms := by
  unfold State.put; split
  · exact s.pushed_ms _ _
  · rfl
@[simp] theorem State.put_hyps (s : State) (d : GReg) (w : Word) : (s.put d w).hyps = s.hyps := by
  unfold State.put; split
  · exact s.pushed_hyps _ _
  · rfl
@[simp] theorem State.put_ls (s : State) (d : GReg) (w : Word) : (s.put d w).ls = s.ls := by
  unfold State.put; split
  · exact s.pushed_ls _ _
  · rfl
@[simp] theorem State.put_ss (s : State) (d : GReg) (w : Word) : (s.put d w).ss = s.ss := by
  unfold State.put; split
  · exact s.pushed_ss _ _
  · rfl
@[simp] theorem State.put_es (s : State) (d : GReg) (w : Word) : (s.put d w).es = s.es := by
  unfold State.put; split
  · exact s.pushed_es _ _
  · rfl
@[simp] theorem State.put_ws (s : State) (d : GReg) (w : Word) : (s.put d w).ws = s.ws := by
  unfold State.put; split
  · exact s.pushed_ws _ _
  · rfl
@[simp] theorem State.put_fs (s : State) (d : GReg) (w : Word) : (s.put d w).fs = s.fs := by
  unfold State.put; split
  · exact s.pushed_fs _ _
  · rfl
@[simp] theorem State.put_pf (s : State) (d : GReg) (w : Word) : (s.put d w).pf = s.pf := by
  unfold State.put; split
  · exact s.pushed_pf _ _
  · rfl
@[simp] theorem State.put_slot_st (s : State) (d : GReg) (w : Word) (t : Nat) :
    ((s.put d w).slot t).st = (s.slot t).st := by
  unfold State.put; split
  · obtain ⟨q, hq⟩ := (s.pushed_slots false (w.setWidth 4096)).2 t
    rw [hq]
  · rw [State.slot_setSlot]; split
    · next h => subst h; simp
    · rfl
@[simp] theorem State.put_slot_wait (s : State) (d : GReg) (w : Word) (t : Nat) :
    ((s.put d w).slot t).wait = (s.slot t).wait := by
  unfold State.put; split
  · obtain ⟨q, hq⟩ := (s.pushed_slots false (w.setWidth 4096)).2 t
    rw [hq]
  · rw [State.slot_setSlot]; split
    · next h => subst h; simp
    · rfl
@[simp] theorem State.put_slot_pc (s : State) (d : GReg) (w : Word) (t : Nat) :
    ((s.put d w).slot t).pc = (s.slot t).pc := by
  unfold State.put; split
  · obtain ⟨q, hq⟩ := (s.pushed_slots false (w.setWidth 4096)).2 t
    rw [hq]
  · rw [State.slot_setSlot]; split
    · next h => subst h; simp
    · rfl
@[simp] theorem State.put_slot_v (s : State) (d : GReg) (w : Word) (t : Nat) :
    ((s.put d w).slot t).v = (s.slot t).v := by
  unfold State.put; split
  · obtain ⟨q, hq⟩ := (s.pushed_slots false (w.setWidth 4096)).2 t
    rw [hq]
  · rw [State.slot_setSlot]; split
    · next h => subst h; simp
    · rfl
@[simp] theorem State.put_slot_m (s : State) (d : GReg) (w : Word) (t : Nat) :
    ((s.put d w).slot t).m = (s.slot t).m := by
  unfold State.put; split
  · obtain ⟨q, hq⟩ := (s.pushed_slots false (w.setWidth 4096)).2 t
    rw [hq]
  · rw [State.slot_setSlot]; split
    · next h => subst h; simp
    · rfl
@[simp] theorem State.put_slot_h (s : State) (d : GReg) (w : Word) (t : Nat) :
    ((s.put d w).slot t).h = (s.slot t).h := by
  unfold State.put; split
  · obtain ⟨q, hq⟩ := (s.pushed_slots false (w.setWidth 4096)).2 t
    rw [hq]
  · rw [State.slot_setSlot]; split
    · next h => subst h; simp
    · rfl
@[simp] theorem State.put_slot_e (s : State) (d : GReg) (w : Word) (t : Nat) :
    ((s.put d w).slot t).e = (s.slot t).e := by
  unfold State.put; split
  · obtain ⟨q, hq⟩ := (s.pushed_slots false (w.setWidth 4096)).2 t
    rw [hq]
  · rw [State.slot_setSlot]; split
    · next h => subst h; simp
    · rfl
@[simp] theorem State.put_slot_mxctl (s : State) (d : GReg) (w : Word) (t : Nat) :
    ((s.put d w).slot t).mxctl = (s.slot t).mxctl := by
  unfold State.put; split
  · obtain ⟨q, hq⟩ := (s.pushed_slots false (w.setWidth 4096)).2 t
    rw [hq]
  · rw [State.slot_setSlot]; split
    · next h => subst h; simp
    · rfl
@[simp] theorem State.put_slot_stat (s : State) (d : GReg) (w : Word) (t : Nat) :
    ((s.put d w).slot t).stat = (s.slot t).stat := by
  unfold State.put; split
  · obtain ⟨q, hq⟩ := (s.pushed_slots false (w.setWidth 4096)).2 t
    rw [hq]
  · rw [State.slot_setSlot]; split
    · next h => subst h; simp
    · rfl
@[simp] theorem State.put_slot_prio (s : State) (d : GReg) (w : Word) (t : Nat) :
    ((s.put d w).slot t).prio = (s.slot t).prio := by
  unfold State.put; split
  · obtain ⟨q, hq⟩ := (s.pushed_slots false (w.setWidth 4096)).2 t
    rw [hq]
  · rw [State.slot_setSlot]; split
    · next h => subst h; simp
    · rfl
@[simp] theorem State.put_slot_launchRec (s : State) (d : GReg) (w : Word) (t : Nat) :
    ((s.put d w).slot t).launchRec = (s.slot t).launchRec := by
  unfold State.put; split
  · obtain ⟨q, hq⟩ := (s.pushed_slots false (w.setWidth 4096)).2 t
    rw [hq]
  · rw [State.slot_setSlot]; split
    · next h => subst h; simp
    · rfl
@[simp] theorem State.put_slot_launch (s : State) (d : GReg) (w : Word) (t : Nat) :
    ((s.put d w).slot t).launch = (s.slot t).launch := by
  unfold State.put; split
  · obtain ⟨q, hq⟩ := (s.pushed_slots false (w.setWidth 4096)).2 t
    rw [hq]
  · rw [State.slot_setSlot]; split
    · next h => subst h; simp
    · rfl
@[simp] theorem State.put_slot_index (s : State) (d : GReg) (w : Word) (t : Nat) :
    ((s.put d w).slot t).index = (s.slot t).index := by
  unfold State.put; split
  · obtain ⟨q, hq⟩ := (s.pushed_slots false (w.setWidth 4096)).2 t
    rw [hq]
  · rw [State.slot_setSlot]; split
    · next h => subst h; simp
    · rfl
@[simp] theorem State.put_slot_stepTask (s : State) (d : GReg) (w : Word) (t : Nat) :
    ((s.put d w).slot t).stepTask = (s.slot t).stepTask := by
  unfold State.put; split
  · obtain ⟨q, hq⟩ := (s.pushed_slots false (w.setWidth 4096)).2 t
    rw [hq]
  · rw [State.slot_setSlot]; split
    · next h => subst h; simp
    · rfl
@[simp] theorem State.put_slot_part (s : State) (d : GReg) (w : Word) (t : Nat) :
    ((s.put d w).slot t).part = (s.slot t).part := by
  unfold State.put; split
  · obtain ⟨q, hq⟩ := (s.pushed_slots false (w.setWidth 4096)).2 t
    rw [hq]
  · rw [State.slot_setSlot]; split
    · next h => subst h; simp
    · rfl
@[simp] theorem State.put_slot_yieldLeft (s : State) (d : GReg) (w : Word) (t : Nat) :
    ((s.put d w).slot t).yieldLeft = (s.slot t).yieldLeft := by
  unfold State.put; split
  · obtain ⟨q, hq⟩ := (s.pushed_slots false (w.setWidth 4096)).2 t
    rw [hq]
  · rw [State.slot_setSlot]; split
    · next h => subst h; simp
    · rfl
@[simp] theorem State.put_slot_trapVec (s : State) (d : GReg) (w : Word) (t : Nat) :
    ((s.put d w).slot t).trapVec = (s.slot t).trapVec := by
  unfold State.put; split
  · obtain ⟨q, hq⟩ := (s.pushed_slots false (w.setWidth 4096)).2 t
    rw [hq]
  · rw [State.slot_setSlot]; split
    · next h => subst h; simp
    · rfl
@[simp] theorem State.put_slot_trapCause (s : State) (d : GReg) (w : Word) (t : Nat) :
    ((s.put d w).slot t).trapCause = (s.slot t).trapCause := by
  unfold State.put; split
  · obtain ⟨q, hq⟩ := (s.pushed_slots false (w.setWidth 4096)).2 t
    rw [hq]
  · rw [State.slot_setSlot]; split
    · next h => subst h; simp
    · rfl
@[simp] theorem State.put_slot_trapVal (s : State) (d : GReg) (w : Word) (t : Nat) :
    ((s.put d w).slot t).trapVal = (s.slot t).trapVal := by
  unfold State.put; split
  · obtain ⟨q, hq⟩ := (s.pushed_slots false (w.setWidth 4096)).2 t
    rw [hq]
  · rw [State.slot_setSlot]; split
    · next h => subst h; simp
    · rfl
@[simp] theorem State.put_slot_trapPc (s : State) (d : GReg) (w : Word) (t : Nat) :
    ((s.put d w).slot t).trapPc = (s.slot t).trapPc := by
  unfold State.put; split
  · obtain ⟨q, hq⟩ := (s.pushed_slots false (w.setWidth 4096)).2 t
    rw [hq]
  · rw [State.slot_setSlot]; split
    · next h => subst h; simp
    · rfl
@[simp] theorem State.put_slot_trapRep (s : State) (d : GReg) (w : Word) (t : Nat) :
    ((s.put d w).slot t).trapRep = (s.slot t).trapRep := by
  unfold State.put; split
  · obtain ⟨q, hq⟩ := (s.pushed_slots false (w.setWidth 4096)).2 t
    rw [hq]
  · rw [State.slot_setSlot]; split
    · next h => subst h; simp
    · rfl
@[simp] theorem State.put_slot_rm (s : State) (d : GReg) (w : Word) (t : Nat) :
    ((s.put d w).slot t).rm = (s.slot t).rm := by
  unfold State.put; split
  · obtain ⟨q, hq⟩ := (s.pushed_slots false (w.setWidth 4096)).2 t
    rw [hq]
  · rw [State.slot_setSlot]; split
    · next h => subst h; simp
    · rfl
@[simp] theorem State.put_slot_fflags (s : State) (d : GReg) (w : Word) (t : Nat) :
    ((s.put d w).slot t).fflags = (s.slot t).fflags := by
  unfold State.put; split
  · obtain ⟨q, hq⟩ := (s.pushed_slots false (w.setWidth 4096)).2 t
    rw [hq]
  · rw [State.slot_setSlot]; split
    · next h => subst h; simp
    · rfl
@[simp] theorem State.put_slot_hypId (s : State) (d : GReg) (w : Word) (t : Nat) :
    ((s.put d w).slot t).hypId = (s.slot t).hypId := by
  unfold State.put; split
  · obtain ⟨q, hq⟩ := (s.pushed_slots false (w.setWidth 4096)).2 t
    rw [hq]
  · rw [State.slot_setSlot]; split
    · next h => subst h; simp
    · rfl
@[simp] theorem State.put_slot_impl (s : State) (d : GReg) (w : Word) (t : Nat) :
    ((s.put d w).slot t).impl = (s.slot t).impl := by
  unfold State.put; split
  · obtain ⟨q, hq⟩ := (s.pushed_slots false (w.setWidth 4096)).2 t
    rw [hq]
  · rw [State.slot_setSlot]; split
    · next h => subst h; simp
    · rfl
@[simp] theorem State.put_slot_regions (s : State) (d : GReg) (w : Word) (t : Nat) :
    ((s.put d w).slot t).regions = (s.slot t).regions := by
  unfold State.put; split
  · obtain ⟨q, hq⟩ := (s.pushed_slots false (w.setWidth 4096)).2 t
    rw [hq]
  · rw [State.slot_setSlot]; split
    · next h => subst h; simp
    · rfl
@[simp] theorem State.put_slot_spillwait (s : State) (d : GReg) (w : Word) (t : Nat) :
    ((s.put d w).slot t).spillwait = (s.slot t).spillwait := by
  unfold State.put; split
  · obtain ⟨q, hq⟩ := (s.pushed_slots false (w.setWidth 4096)).2 t
    rw [hq]
  · rw [State.slot_setSlot]; split
    · next h => subst h; simp
    · rfl
@[simp] theorem State.put_slot_strmCur (s : State) (d : GReg) (w : Word) (t : Nat) :
    ((s.put d w).slot t).strmCur = (s.slot t).strmCur := by
  unfold State.put; split
  · obtain ⟨q, hq⟩ := (s.pushed_slots false (w.setWidth 4096)).2 t
    rw [hq]
  · rw [State.slot_setSlot]; split
    · next h => subst h; simp
    · rfl
@[simp] theorem State.put_slot_batchPos (s : State) (d : GReg) (w : Word) (t : Nat) :
    ((s.put d w).slot t).batchPos = (s.slot t).batchPos := by
  unfold State.put; split
  · obtain ⟨q, hq⟩ := (s.pushed_slots false (w.setWidth 4096)).2 t
    rw [hq]
  · rw [State.slot_setSlot]; split
    · next h => subst h; simp
    · rfl
@[simp] theorem State.put_slot_members (s : State) (d : GReg) (w : Word) (t : Nat) :
    ((s.put d w).slot t).members = (s.slot t).members := by
  unfold State.put; split
  · obtain ⟨q, hq⟩ := (s.pushed_slots false (w.setWidth 4096)).2 t
    rw [hq]
  · rw [State.slot_setSlot]; split
    · next h => subst h; simp
    · rfl
@[simp] theorem State.put_slot_chanIn (s : State) (d : GReg) (w : Word) (t : Nat) :
    ((s.put d w).slot t).chanIn = (s.slot t).chanIn := by
  unfold State.put; split
  · obtain ⟨q, hq⟩ := (s.pushed_slots false (w.setWidth 4096)).2 t
    rw [hq]
  · rw [State.slot_setSlot]; split
    · next h => subst h; simp
    · rfl
@[simp] theorem State.put_slot_chanOut (s : State) (d : GReg) (w : Word) (t : Nat) :
    ((s.put d w).slot t).chanOut = (s.slot t).chanOut := by
  unfold State.put; split
  · obtain ⟨q, hq⟩ := (s.pushed_slots false (w.setWidth 4096)).2 t
    rw [hq]
  · rw [State.slot_setSlot]; split
    · next h => subst h; simp
    · rfl
@[simp] theorem State.put_slot_asid (s : State) (d : GReg) (w : Word) (t : Nat) :
    ((s.put d w).slot t).asid = (s.slot t).asid := by
  unfold State.put; split
  · obtain ⟨q, hq⟩ := (s.pushed_slots false (w.setWidth 4096)).2 t
    rw [hq]
  · rw [State.slot_setSlot]; split
    · next h => subst h; simp
    · rfl
@[simp] theorem State.put_slot_world (s : State) (d : GReg) (w : Word) (t : Nat) :
    ((s.put d w).slot t).world = (s.slot t).world := by
  unfold State.put; split
  · obtain ⟨q, hq⟩ := (s.pushed_slots false (w.setWidth 4096)).2 t
    rw [hq]
  · rw [State.slot_setSlot]; split
    · next h => subst h; simp
    · rfl
@[simp] theorem State.put_slot_resv (s : State) (d : GReg) (w : Word) (t : Nat) :
    ((s.put d w).slot t).resv = (s.slot t).resv := by
  unfold State.put; split
  · obtain ⟨q, hq⟩ := (s.pushed_slots false (w.setWidth 4096)).2 t
    rw [hq]
  · rw [State.slot_setSlot]; split
    · next h => subst h; simp
    · rfl
@[simp] theorem State.put_slot_wc (s : State) (d : GReg) (w : Word) (t : Nat) :
    ((s.put d w).slot t).wc = (s.slot t).wc := by
  unfold State.put; split
  · obtain ⟨q, hq⟩ := (s.pushed_slots false (w.setWidth 4096)).2 t
    rw [hq]
  · rw [State.slot_setSlot]; split
    · next h => subst h; simp
    · rfl
@[simp] theorem State.put_slot_barReg (s : State) (d : GReg) (w : Word) (t : Nat) :
    ((s.put d w).slot t).barReg = (s.slot t).barReg := by
  unfold State.put; split
  · obtain ⟨q, hq⟩ := (s.pushed_slots false (w.setWidth 4096)).2 t
    rw [hq]
  · rw [State.slot_setSlot]; split
    · next h => subst h; simp
    · rfl
@[simp] theorem State.put_slot_rpend (s : State) (d : GReg) (w : Word) (t : Nat) :
    ((s.put d w).slot t).rpend = (s.slot t).rpend := by
  unfold State.put; split
  · obtain ⟨q, hq⟩ := (s.pushed_slots false (w.setWidth 4096)).2 t
    rw [hq]
  · rw [State.slot_setSlot]; split
    · next h => subst h; simp
    · rfl
@[simp] theorem State.put_slot_engFaults (s : State) (d : GReg) (w : Word) (t : Nat) :
    ((s.put d w).slot t).engFaults = (s.slot t).engFaults := by
  unfold State.put; split
  · obtain ⟨q, hq⟩ := (s.pushed_slots false (w.setWidth 4096)).2 t
    rw [hq]
  · rw [State.slot_setSlot]; split
    · next h => subst h; simp
    · rfl
@[simp] theorem State.put_slot_savedPriv (s : State) (d : GReg) (w : Word) (t : Nat) :
    ((s.put d w).slot t).savedPriv = (s.slot t).savedPriv := by
  unfold State.put; split
  · obtain ⟨q, hq⟩ := (s.pushed_slots false (w.setWidth 4096)).2 t
    rw [hq]
  · rw [State.slot_setSlot]; split
    · next h => subst h; simp
    · rfl
@[simp] theorem State.put_slot_sysTrap (s : State) (d : GReg) (w : Word) (t : Nat) :
    ((s.put d w).slot t).sysTrap = (s.slot t).sysTrap := by
  unfold State.put; split
  · obtain ⟨q, hq⟩ := (s.pushed_slots false (w.setWidth 4096)).2 t
    rw [hq]
  · rw [State.slot_setSlot]; split
    · next h => subst h; simp
    · rfl
@[simp] theorem State.put_slot_timer (s : State) (d : GReg) (w : Word) (t : Nat) :
    ((s.put d w).slot t).timer = (s.slot t).timer := by
  unfold State.put; split
  · obtain ⟨q, hq⟩ := (s.pushed_slots false (w.setWidth 4096)).2 t
    rw [hq]
  · rw [State.slot_setSlot]; split
    · next h => subst h; simp
    · rfl
@[simp] theorem State.put_slot_fullVal (s : State) (d : GReg) (w : Word) (t : Nat) :
    ((s.put d w).slot t).fullVal = (s.slot t).fullVal := by
  unfold State.put; split
  · obtain ⟨q, hq⟩ := (s.pushed_slots false (w.setWidth 4096)).2 t
    rw [hq]
  · rw [State.slot_setSlot]; split
    · next h => subst h; simp
    · rfl
@[simp] theorem State.put_slot_fullRep (s : State) (d : GReg) (w : Word) (t : Nat) :
    ((s.put d w).slot t).fullRep = (s.slot t).fullRep := by
  unfold State.put; split
  · obtain ⟨q, hq⟩ := (s.pushed_slots false (w.setWidth 4096)).2 t
    rw [hq]
  · rw [State.slot_setSlot]; split
    · next h => subst h; simp
    · rfl
@[simp] theorem State.put_slot_repFrom (s : State) (d : GReg) (w : Word) (t : Nat) :
    ((s.put d w).slot t).repFrom = (s.slot t).repFrom := by
  unfold State.put; split
  · obtain ⟨q, hq⟩ := (s.pushed_slots false (w.setWidth 4096)).2 t
    rw [hq]
  · rw [State.slot_setSlot]; split
    · next h => subst h; simp
    · rfl
@[simp] theorem State.put_slot_tretRep (s : State) (d : GReg) (w : Word) (t : Nat) :
    ((s.put d w).slot t).tretRep = (s.slot t).tretRep := by
  unfold State.put; split
  · obtain ⟨q, hq⟩ := (s.pushed_slots false (w.setWidth 4096)).2 t
    rw [hq]
  · rw [State.slot_setSlot]; split
    · next h => subst h; simp
    · rfl
@[simp] theorem State.put_slot_pend (s : State) (d : GReg) (w : Word) (t : Nat) :
    ((s.put d w).slot t).pend = (s.slot t).pend := by
  unfold State.put; split
  · obtain ⟨q, hq⟩ := (s.pushed_slots false (w.setWidth 4096)).2 t
    rw [hq]
  · rw [State.slot_setSlot]; split
    · next h => subst h; simp
    · rfl
@[simp] theorem State.put_slot_pairHash (s : State) (d : GReg) (w : Word) (t : Nat) :
    ((s.put d w).slot t).pairHash = (s.slot t).pairHash := by
  unfold State.put; split
  · obtain ⟨q, hq⟩ := (s.pushed_slots false (w.setWidth 4096)).2 t
    rw [hq]
  · rw [State.slot_setSlot]; split
    · next h => subst h; simp
    · rfl
@[simp] theorem State.put_slot_pairSeq (s : State) (d : GReg) (w : Word) (t : Nat) :
    ((s.put d w).slot t).pairSeq = (s.slot t).pairSeq := by
  unfold State.put; split
  · obtain ⟨q, hq⟩ := (s.pushed_slots false (w.setWidth 4096)).2 t
    rw [hq]
  · rw [State.slot_setSlot]; split
    · next h => subst h; simp
    · rfl
@[simp] theorem State.put_slot_partner (s : State) (d : GReg) (w : Word) (t : Nat) :
    ((s.put d w).slot t).partner = (s.slot t).partner := by
  unfold State.put; split
  · obtain ⟨q, hq⟩ := (s.pushed_slots false (w.setWidth 4096)).2 t
    rw [hq]
  · rw [State.slot_setSlot]; split
    · next h => subst h; simp
    · rfl

theorem State.put_zero (s : State) (w : Word) : s.put 0 w = s.setMe s.me := by
  rw [State.put, if_neg (by decide), Slot.setG_none _ _ (Or.inl rfl)]
theorem State.put_core (s : State) (d : GReg) (w : Word) (k : Nat) : (s.put d w).core k = s.core k := by simp [State.core]

/-! ### The end of an instruction -/

@[simp] theorem State.popped_cur (s : State) (i : Instr) : (s.popped i).cur = s.cur := by
  unfold State.popped; split <;> rfl
@[simp] theorem State.goesTo_cur (s : State) (i : Instr) (pc : Word) : (s.goesTo i pc).cur = s.cur := by
  simp [State.goesTo]
@[simp] theorem State.done_cur (s : State) (i : Instr) : (s.done i).cur = s.cur := by simp [State.done]
@[simp] theorem State.popped_agenda (s : State) (i : Instr) : (s.popped i).agenda = s.agenda := by
  unfold State.popped; split <;> rfl
@[simp] theorem State.goesTo_agenda (s : State) (i : Instr) (pc : Word) : (s.goesTo i pc).agenda = s.agenda := by
  simp [State.goesTo]
@[simp] theorem State.done_agenda (s : State) (i : Instr) : (s.done i).agenda = s.agenda := by simp [State.done]
@[simp] theorem State.popped_ev (s : State) (i : Instr) : (s.popped i).ev = s.ev := by
  unfold State.popped; split <;> rfl
@[simp] theorem State.goesTo_ev (s : State) (i : Instr) (pc : Word) : (s.goesTo i pc).ev = s.ev := by
  simp [State.goesTo]
@[simp] theorem State.done_ev (s : State) (i : Instr) : (s.done i).ev = s.ev := by simp [State.done]
@[simp] theorem State.popped_turn (s : State) (i : Instr) : (s.popped i).turn = s.turn := by
  unfold State.popped; split <;> rfl
@[simp] theorem State.goesTo_turn (s : State) (i : Instr) (pc : Word) : (s.goesTo i pc).turn = s.turn := by
  simp [State.goesTo]
@[simp] theorem State.done_turn (s : State) (i : Instr) : (s.done i).turn = s.turn := by simp [State.done]
@[simp] theorem State.popped_early (s : State) (i : Instr) : (s.popped i).early = s.early := by
  unfold State.popped; split <;> rfl
@[simp] theorem State.goesTo_early (s : State) (i : Instr) (pc : Word) : (s.goesTo i pc).early = s.early := by
  simp [State.goesTo]
@[simp] theorem State.done_early (s : State) (i : Instr) : (s.done i).early = s.early := by simp [State.done]
@[simp] theorem State.popped_free (s : State) (i : Instr) : (s.popped i).free = s.free := by
  unfold State.popped; split <;> rfl
@[simp] theorem State.goesTo_free (s : State) (i : Instr) (pc : Word) : (s.goesTo i pc).free = s.free := by
  simp [State.goesTo]
@[simp] theorem State.done_free (s : State) (i : Instr) : (s.done i).free = s.free := by simp [State.done]
@[simp] theorem State.popped_cores (s : State) (i : Instr) : (s.popped i).cores = s.cores := by
  unfold State.popped; split <;> rfl
@[simp] theorem State.goesTo_cores (s : State) (i : Instr) (pc : Word) : (s.goesTo i pc).cores = s.cores := by
  simp [State.goesTo]
@[simp] theorem State.done_cores (s : State) (i : Instr) : (s.done i).cores = s.cores := by simp [State.done]
@[simp] theorem State.popped_cells (s : State) (i : Instr) : (s.popped i).cells = s.cells := by
  unfold State.popped; split <;> rfl
@[simp] theorem State.goesTo_cells (s : State) (i : Instr) (pc : Word) : (s.goesTo i pc).cells = s.cells := by
  simp [State.goesTo]
@[simp] theorem State.done_cells (s : State) (i : Instr) : (s.done i).cells = s.cells := by simp [State.done]
@[simp] theorem State.popped_ms (s : State) (i : Instr) : (s.popped i).ms = s.ms := by
  unfold State.popped; split <;> rfl
@[simp] theorem State.goesTo_ms (s : State) (i : Instr) (pc : Word) : (s.goesTo i pc).ms = s.ms := by
  simp [State.goesTo]
@[simp] theorem State.done_ms (s : State) (i : Instr) : (s.done i).ms = s.ms := by simp [State.done]
@[simp] theorem State.popped_hyps (s : State) (i : Instr) : (s.popped i).hyps = s.hyps := by
  unfold State.popped; split <;> rfl
@[simp] theorem State.goesTo_hyps (s : State) (i : Instr) (pc : Word) : (s.goesTo i pc).hyps = s.hyps := by
  simp [State.goesTo]
@[simp] theorem State.done_hyps (s : State) (i : Instr) : (s.done i).hyps = s.hyps := by simp [State.done]
@[simp] theorem State.popped_ls (s : State) (i : Instr) : (s.popped i).ls = s.ls := by
  unfold State.popped; split <;> rfl
@[simp] theorem State.goesTo_ls (s : State) (i : Instr) (pc : Word) : (s.goesTo i pc).ls = s.ls := by
  simp [State.goesTo]
@[simp] theorem State.done_ls (s : State) (i : Instr) : (s.done i).ls = s.ls := by simp [State.done]
@[simp] theorem State.popped_ss (s : State) (i : Instr) : (s.popped i).ss = s.ss := by
  unfold State.popped; split <;> rfl
@[simp] theorem State.goesTo_ss (s : State) (i : Instr) (pc : Word) : (s.goesTo i pc).ss = s.ss := by
  simp [State.goesTo]
@[simp] theorem State.done_ss (s : State) (i : Instr) : (s.done i).ss = s.ss := by simp [State.done]
@[simp] theorem State.popped_es (s : State) (i : Instr) : (s.popped i).es = s.es := by
  unfold State.popped; split <;> rfl
@[simp] theorem State.goesTo_es (s : State) (i : Instr) (pc : Word) : (s.goesTo i pc).es = s.es := by
  simp [State.goesTo]
@[simp] theorem State.done_es (s : State) (i : Instr) : (s.done i).es = s.es := by simp [State.done]
@[simp] theorem State.popped_ws (s : State) (i : Instr) : (s.popped i).ws = s.ws := by
  unfold State.popped; split <;> rfl
@[simp] theorem State.goesTo_ws (s : State) (i : Instr) (pc : Word) : (s.goesTo i pc).ws = s.ws := by
  simp [State.goesTo]
@[simp] theorem State.done_ws (s : State) (i : Instr) : (s.done i).ws = s.ws := by simp [State.done]
@[simp] theorem State.popped_fs (s : State) (i : Instr) : (s.popped i).fs = s.fs := by
  unfold State.popped; split <;> rfl
@[simp] theorem State.goesTo_fs (s : State) (i : Instr) (pc : Word) : (s.goesTo i pc).fs = s.fs := by
  simp [State.goesTo]
@[simp] theorem State.done_fs (s : State) (i : Instr) : (s.done i).fs = s.fs := by simp [State.done]
@[simp] theorem State.popped_pf (s : State) (i : Instr) : (s.popped i).pf = s.pf := by
  unfold State.popped; split <;> rfl
@[simp] theorem State.goesTo_pf (s : State) (i : Instr) (pc : Word) : (s.goesTo i pc).pf = s.pf := by
  simp [State.goesTo]
@[simp] theorem State.done_pf (s : State) (i : Instr) : (s.done i).pf = s.pf := by simp [State.done]
@[simp] theorem State.popped_slot_st (s : State) (i : Instr) (t : Nat) : ((s.popped i).slot t).st = (s.slot t).st := by
  unfold State.popped; split
  · rw [State.slot_setSlot]; split
    · next h => subst h; rfl
    · rfl
  · rfl
@[simp] theorem State.popped_slot_wait (s : State) (i : Instr) (t : Nat) : ((s.popped i).slot t).wait = (s.slot t).wait := by
  unfold State.popped; split
  · rw [State.slot_setSlot]; split
    · next h => subst h; rfl
    · rfl
  · rfl
@[simp] theorem State.popped_slot_pc (s : State) (i : Instr) (t : Nat) : ((s.popped i).slot t).pc = (s.slot t).pc := by
  unfold State.popped; split
  · rw [State.slot_setSlot]; split
    · next h => subst h; rfl
    · rfl
  · rfl
@[simp] theorem State.popped_slot_g (s : State) (i : Instr) (t : Nat) : ((s.popped i).slot t).g = (s.slot t).g := by
  unfold State.popped; split
  · rw [State.slot_setSlot]; split
    · next h => subst h; rfl
    · rfl
  · rfl
@[simp] theorem State.goesTo_slot_g (s : State) (i : Instr) (pc : Word) (t : Nat) :
    ((s.goesTo i pc).slot t).g = (s.slot t).g := by
  unfold State.goesTo
  rw [State.slot_setSlot]; split
  · next h => subst h; simp [State.me, Slot.goOn, Slot.charge]
  · simp
@[simp] theorem State.done_slot_g (s : State) (i : Instr) (t : Nat) : ((s.done i).slot t).g = (s.slot t).g := by
  simp [State.done]
@[simp] theorem State.popped_slot_v (s : State) (i : Instr) (t : Nat) : ((s.popped i).slot t).v = (s.slot t).v := by
  unfold State.popped; split
  · rw [State.slot_setSlot]; split
    · next h => subst h; rfl
    · rfl
  · rfl
@[simp] theorem State.goesTo_slot_v (s : State) (i : Instr) (pc : Word) (t : Nat) :
    ((s.goesTo i pc).slot t).v = (s.slot t).v := by
  unfold State.goesTo
  rw [State.slot_setSlot]; split
  · next h => subst h; simp [State.me, Slot.goOn, Slot.charge]
  · simp
@[simp] theorem State.done_slot_v (s : State) (i : Instr) (t : Nat) : ((s.done i).slot t).v = (s.slot t).v := by
  simp [State.done]
@[simp] theorem State.popped_slot_m (s : State) (i : Instr) (t : Nat) : ((s.popped i).slot t).m = (s.slot t).m := by
  unfold State.popped; split
  · rw [State.slot_setSlot]; split
    · next h => subst h; rfl
    · rfl
  · rfl
@[simp] theorem State.goesTo_slot_m (s : State) (i : Instr) (pc : Word) (t : Nat) :
    ((s.goesTo i pc).slot t).m = (s.slot t).m := by
  unfold State.goesTo
  rw [State.slot_setSlot]; split
  · next h => subst h; simp [State.me, Slot.goOn, Slot.charge]
  · simp
@[simp] theorem State.done_slot_m (s : State) (i : Instr) (t : Nat) : ((s.done i).slot t).m = (s.slot t).m := by
  simp [State.done]
@[simp] theorem State.popped_slot_h (s : State) (i : Instr) (t : Nat) : ((s.popped i).slot t).h = (s.slot t).h := by
  unfold State.popped; split
  · rw [State.slot_setSlot]; split
    · next h => subst h; rfl
    · rfl
  · rfl
@[simp] theorem State.goesTo_slot_h (s : State) (i : Instr) (pc : Word) (t : Nat) :
    ((s.goesTo i pc).slot t).h = (s.slot t).h := by
  unfold State.goesTo
  rw [State.slot_setSlot]; split
  · next h => subst h; simp [State.me, Slot.goOn, Slot.charge]
  · simp
@[simp] theorem State.done_slot_h (s : State) (i : Instr) (t : Nat) : ((s.done i).slot t).h = (s.slot t).h := by
  simp [State.done]
@[simp] theorem State.popped_slot_e (s : State) (i : Instr) (t : Nat) : ((s.popped i).slot t).e = (s.slot t).e := by
  unfold State.popped; split
  · rw [State.slot_setSlot]; split
    · next h => subst h; rfl
    · rfl
  · rfl
@[simp] theorem State.goesTo_slot_e (s : State) (i : Instr) (pc : Word) (t : Nat) :
    ((s.goesTo i pc).slot t).e = (s.slot t).e := by
  unfold State.goesTo
  rw [State.slot_setSlot]; split
  · next h => subst h; simp [State.me, Slot.goOn, Slot.charge]
  · simp
@[simp] theorem State.done_slot_e (s : State) (i : Instr) (t : Nat) : ((s.done i).slot t).e = (s.slot t).e := by
  simp [State.done]
@[simp] theorem State.popped_slot_mxctl (s : State) (i : Instr) (t : Nat) : ((s.popped i).slot t).mxctl = (s.slot t).mxctl := by
  unfold State.popped; split
  · rw [State.slot_setSlot]; split
    · next h => subst h; rfl
    · rfl
  · rfl
@[simp] theorem State.goesTo_slot_mxctl (s : State) (i : Instr) (pc : Word) (t : Nat) :
    ((s.goesTo i pc).slot t).mxctl = (s.slot t).mxctl := by
  unfold State.goesTo
  rw [State.slot_setSlot]; split
  · next h => subst h; simp [State.me, Slot.goOn, Slot.charge]
  · simp
@[simp] theorem State.done_slot_mxctl (s : State) (i : Instr) (t : Nat) : ((s.done i).slot t).mxctl = (s.slot t).mxctl := by
  simp [State.done]
@[simp] theorem State.popped_slot_stat (s : State) (i : Instr) (t : Nat) : ((s.popped i).slot t).stat = (s.slot t).stat := by
  unfold State.popped; split
  · rw [State.slot_setSlot]; split
    · next h => subst h; rfl
    · rfl
  · rfl
@[simp] theorem State.goesTo_slot_stat (s : State) (i : Instr) (pc : Word) (t : Nat) :
    ((s.goesTo i pc).slot t).stat = (s.slot t).stat := by
  unfold State.goesTo
  rw [State.slot_setSlot]; split
  · next h => subst h; simp [State.me, Slot.goOn, Slot.charge]
  · simp
@[simp] theorem State.done_slot_stat (s : State) (i : Instr) (t : Nat) : ((s.done i).slot t).stat = (s.slot t).stat := by
  simp [State.done]
@[simp] theorem State.popped_slot_prio (s : State) (i : Instr) (t : Nat) : ((s.popped i).slot t).prio = (s.slot t).prio := by
  unfold State.popped; split
  · rw [State.slot_setSlot]; split
    · next h => subst h; rfl
    · rfl
  · rfl
@[simp] theorem State.goesTo_slot_prio (s : State) (i : Instr) (pc : Word) (t : Nat) :
    ((s.goesTo i pc).slot t).prio = (s.slot t).prio := by
  unfold State.goesTo
  rw [State.slot_setSlot]; split
  · next h => subst h; simp [State.me, Slot.goOn, Slot.charge]
  · simp
@[simp] theorem State.done_slot_prio (s : State) (i : Instr) (t : Nat) : ((s.done i).slot t).prio = (s.slot t).prio := by
  simp [State.done]
@[simp] theorem State.popped_slot_launchRec (s : State) (i : Instr) (t : Nat) : ((s.popped i).slot t).launchRec = (s.slot t).launchRec := by
  unfold State.popped; split
  · rw [State.slot_setSlot]; split
    · next h => subst h; rfl
    · rfl
  · rfl
@[simp] theorem State.goesTo_slot_launchRec (s : State) (i : Instr) (pc : Word) (t : Nat) :
    ((s.goesTo i pc).slot t).launchRec = (s.slot t).launchRec := by
  unfold State.goesTo
  rw [State.slot_setSlot]; split
  · next h => subst h; simp [State.me, Slot.goOn, Slot.charge]
  · simp
@[simp] theorem State.done_slot_launchRec (s : State) (i : Instr) (t : Nat) : ((s.done i).slot t).launchRec = (s.slot t).launchRec := by
  simp [State.done]
@[simp] theorem State.popped_slot_launch (s : State) (i : Instr) (t : Nat) : ((s.popped i).slot t).launch = (s.slot t).launch := by
  unfold State.popped; split
  · rw [State.slot_setSlot]; split
    · next h => subst h; rfl
    · rfl
  · rfl
@[simp] theorem State.goesTo_slot_launch (s : State) (i : Instr) (pc : Word) (t : Nat) :
    ((s.goesTo i pc).slot t).launch = (s.slot t).launch := by
  unfold State.goesTo
  rw [State.slot_setSlot]; split
  · next h => subst h; simp [State.me, Slot.goOn, Slot.charge]
  · simp
@[simp] theorem State.done_slot_launch (s : State) (i : Instr) (t : Nat) : ((s.done i).slot t).launch = (s.slot t).launch := by
  simp [State.done]
@[simp] theorem State.popped_slot_index (s : State) (i : Instr) (t : Nat) : ((s.popped i).slot t).index = (s.slot t).index := by
  unfold State.popped; split
  · rw [State.slot_setSlot]; split
    · next h => subst h; rfl
    · rfl
  · rfl
@[simp] theorem State.goesTo_slot_index (s : State) (i : Instr) (pc : Word) (t : Nat) :
    ((s.goesTo i pc).slot t).index = (s.slot t).index := by
  unfold State.goesTo
  rw [State.slot_setSlot]; split
  · next h => subst h; simp [State.me, Slot.goOn, Slot.charge]
  · simp
@[simp] theorem State.done_slot_index (s : State) (i : Instr) (t : Nat) : ((s.done i).slot t).index = (s.slot t).index := by
  simp [State.done]
@[simp] theorem State.popped_slot_stepTask (s : State) (i : Instr) (t : Nat) : ((s.popped i).slot t).stepTask = (s.slot t).stepTask := by
  unfold State.popped; split
  · rw [State.slot_setSlot]; split
    · next h => subst h; rfl
    · rfl
  · rfl
@[simp] theorem State.goesTo_slot_stepTask (s : State) (i : Instr) (pc : Word) (t : Nat) :
    ((s.goesTo i pc).slot t).stepTask = (s.slot t).stepTask := by
  unfold State.goesTo
  rw [State.slot_setSlot]; split
  · next h => subst h; simp [State.me, Slot.goOn, Slot.charge]
  · simp
@[simp] theorem State.done_slot_stepTask (s : State) (i : Instr) (t : Nat) : ((s.done i).slot t).stepTask = (s.slot t).stepTask := by
  simp [State.done]
@[simp] theorem State.popped_slot_part (s : State) (i : Instr) (t : Nat) : ((s.popped i).slot t).part = (s.slot t).part := by
  unfold State.popped; split
  · rw [State.slot_setSlot]; split
    · next h => subst h; rfl
    · rfl
  · rfl
@[simp] theorem State.goesTo_slot_part (s : State) (i : Instr) (pc : Word) (t : Nat) :
    ((s.goesTo i pc).slot t).part = (s.slot t).part := by
  unfold State.goesTo
  rw [State.slot_setSlot]; split
  · next h => subst h; simp [State.me, Slot.goOn, Slot.charge]
  · simp
@[simp] theorem State.done_slot_part (s : State) (i : Instr) (t : Nat) : ((s.done i).slot t).part = (s.slot t).part := by
  simp [State.done]
@[simp] theorem State.popped_slot_yieldLeft (s : State) (i : Instr) (t : Nat) : ((s.popped i).slot t).yieldLeft = (s.slot t).yieldLeft := by
  unfold State.popped; split
  · rw [State.slot_setSlot]; split
    · next h => subst h; rfl
    · rfl
  · rfl
@[simp] theorem State.popped_slot_trapVec (s : State) (i : Instr) (t : Nat) : ((s.popped i).slot t).trapVec = (s.slot t).trapVec := by
  unfold State.popped; split
  · rw [State.slot_setSlot]; split
    · next h => subst h; rfl
    · rfl
  · rfl
@[simp] theorem State.goesTo_slot_trapVec (s : State) (i : Instr) (pc : Word) (t : Nat) :
    ((s.goesTo i pc).slot t).trapVec = (s.slot t).trapVec := by
  unfold State.goesTo
  rw [State.slot_setSlot]; split
  · next h => subst h; simp [State.me, Slot.goOn, Slot.charge]
  · simp
@[simp] theorem State.done_slot_trapVec (s : State) (i : Instr) (t : Nat) : ((s.done i).slot t).trapVec = (s.slot t).trapVec := by
  simp [State.done]
@[simp] theorem State.popped_slot_trapCause (s : State) (i : Instr) (t : Nat) : ((s.popped i).slot t).trapCause = (s.slot t).trapCause := by
  unfold State.popped; split
  · rw [State.slot_setSlot]; split
    · next h => subst h; rfl
    · rfl
  · rfl
@[simp] theorem State.goesTo_slot_trapCause (s : State) (i : Instr) (pc : Word) (t : Nat) :
    ((s.goesTo i pc).slot t).trapCause = (s.slot t).trapCause := by
  unfold State.goesTo
  rw [State.slot_setSlot]; split
  · next h => subst h; simp [State.me, Slot.goOn, Slot.charge]
  · simp
@[simp] theorem State.done_slot_trapCause (s : State) (i : Instr) (t : Nat) : ((s.done i).slot t).trapCause = (s.slot t).trapCause := by
  simp [State.done]
@[simp] theorem State.popped_slot_trapVal (s : State) (i : Instr) (t : Nat) : ((s.popped i).slot t).trapVal = (s.slot t).trapVal := by
  unfold State.popped; split
  · rw [State.slot_setSlot]; split
    · next h => subst h; rfl
    · rfl
  · rfl
@[simp] theorem State.goesTo_slot_trapVal (s : State) (i : Instr) (pc : Word) (t : Nat) :
    ((s.goesTo i pc).slot t).trapVal = (s.slot t).trapVal := by
  unfold State.goesTo
  rw [State.slot_setSlot]; split
  · next h => subst h; simp [State.me, Slot.goOn, Slot.charge]
  · simp
@[simp] theorem State.done_slot_trapVal (s : State) (i : Instr) (t : Nat) : ((s.done i).slot t).trapVal = (s.slot t).trapVal := by
  simp [State.done]
@[simp] theorem State.popped_slot_trapPc (s : State) (i : Instr) (t : Nat) : ((s.popped i).slot t).trapPc = (s.slot t).trapPc := by
  unfold State.popped; split
  · rw [State.slot_setSlot]; split
    · next h => subst h; rfl
    · rfl
  · rfl
@[simp] theorem State.goesTo_slot_trapPc (s : State) (i : Instr) (pc : Word) (t : Nat) :
    ((s.goesTo i pc).slot t).trapPc = (s.slot t).trapPc := by
  unfold State.goesTo
  rw [State.slot_setSlot]; split
  · next h => subst h; simp [State.me, Slot.goOn, Slot.charge]
  · simp
@[simp] theorem State.done_slot_trapPc (s : State) (i : Instr) (t : Nat) : ((s.done i).slot t).trapPc = (s.slot t).trapPc := by
  simp [State.done]
@[simp] theorem State.popped_slot_trapRep (s : State) (i : Instr) (t : Nat) : ((s.popped i).slot t).trapRep = (s.slot t).trapRep := by
  unfold State.popped; split
  · rw [State.slot_setSlot]; split
    · next h => subst h; rfl
    · rfl
  · rfl
@[simp] theorem State.goesTo_slot_trapRep (s : State) (i : Instr) (pc : Word) (t : Nat) :
    ((s.goesTo i pc).slot t).trapRep = (s.slot t).trapRep := by
  unfold State.goesTo
  rw [State.slot_setSlot]; split
  · next h => subst h; simp [State.me, Slot.goOn, Slot.charge]
  · simp
@[simp] theorem State.done_slot_trapRep (s : State) (i : Instr) (t : Nat) : ((s.done i).slot t).trapRep = (s.slot t).trapRep := by
  simp [State.done]
@[simp] theorem State.popped_slot_rm (s : State) (i : Instr) (t : Nat) : ((s.popped i).slot t).rm = (s.slot t).rm := by
  unfold State.popped; split
  · rw [State.slot_setSlot]; split
    · next h => subst h; rfl
    · rfl
  · rfl
@[simp] theorem State.goesTo_slot_rm (s : State) (i : Instr) (pc : Word) (t : Nat) :
    ((s.goesTo i pc).slot t).rm = (s.slot t).rm := by
  unfold State.goesTo
  rw [State.slot_setSlot]; split
  · next h => subst h; simp [State.me, Slot.goOn, Slot.charge]
  · simp
@[simp] theorem State.done_slot_rm (s : State) (i : Instr) (t : Nat) : ((s.done i).slot t).rm = (s.slot t).rm := by
  simp [State.done]
@[simp] theorem State.popped_slot_fflags (s : State) (i : Instr) (t : Nat) : ((s.popped i).slot t).fflags = (s.slot t).fflags := by
  unfold State.popped; split
  · rw [State.slot_setSlot]; split
    · next h => subst h; rfl
    · rfl
  · rfl
@[simp] theorem State.goesTo_slot_fflags (s : State) (i : Instr) (pc : Word) (t : Nat) :
    ((s.goesTo i pc).slot t).fflags = (s.slot t).fflags := by
  unfold State.goesTo
  rw [State.slot_setSlot]; split
  · next h => subst h; simp [State.me, Slot.goOn, Slot.charge]
  · simp
@[simp] theorem State.done_slot_fflags (s : State) (i : Instr) (t : Nat) : ((s.done i).slot t).fflags = (s.slot t).fflags := by
  simp [State.done]
@[simp] theorem State.popped_slot_hypId (s : State) (i : Instr) (t : Nat) : ((s.popped i).slot t).hypId = (s.slot t).hypId := by
  unfold State.popped; split
  · rw [State.slot_setSlot]; split
    · next h => subst h; rfl
    · rfl
  · rfl
@[simp] theorem State.goesTo_slot_hypId (s : State) (i : Instr) (pc : Word) (t : Nat) :
    ((s.goesTo i pc).slot t).hypId = (s.slot t).hypId := by
  unfold State.goesTo
  rw [State.slot_setSlot]; split
  · next h => subst h; simp [State.me, Slot.goOn, Slot.charge]
  · simp
@[simp] theorem State.done_slot_hypId (s : State) (i : Instr) (t : Nat) : ((s.done i).slot t).hypId = (s.slot t).hypId := by
  simp [State.done]
@[simp] theorem State.popped_slot_impl (s : State) (i : Instr) (t : Nat) : ((s.popped i).slot t).impl = (s.slot t).impl := by
  unfold State.popped; split
  · rw [State.slot_setSlot]; split
    · next h => subst h; rfl
    · rfl
  · rfl
@[simp] theorem State.goesTo_slot_impl (s : State) (i : Instr) (pc : Word) (t : Nat) :
    ((s.goesTo i pc).slot t).impl = (s.slot t).impl := by
  unfold State.goesTo
  rw [State.slot_setSlot]; split
  · next h => subst h; simp [State.me, Slot.goOn, Slot.charge]
  · simp
@[simp] theorem State.done_slot_impl (s : State) (i : Instr) (t : Nat) : ((s.done i).slot t).impl = (s.slot t).impl := by
  simp [State.done]
@[simp] theorem State.popped_slot_regions (s : State) (i : Instr) (t : Nat) : ((s.popped i).slot t).regions = (s.slot t).regions := by
  unfold State.popped; split
  · rw [State.slot_setSlot]; split
    · next h => subst h; rfl
    · rfl
  · rfl
@[simp] theorem State.goesTo_slot_regions (s : State) (i : Instr) (pc : Word) (t : Nat) :
    ((s.goesTo i pc).slot t).regions = (s.slot t).regions := by
  unfold State.goesTo
  rw [State.slot_setSlot]; split
  · next h => subst h; simp [State.me, Slot.goOn, Slot.charge]
  · simp
@[simp] theorem State.done_slot_regions (s : State) (i : Instr) (t : Nat) : ((s.done i).slot t).regions = (s.slot t).regions := by
  simp [State.done]
@[simp] theorem State.popped_slot_spillwait (s : State) (i : Instr) (t : Nat) : ((s.popped i).slot t).spillwait = (s.slot t).spillwait := by
  unfold State.popped; split
  · rw [State.slot_setSlot]; split
    · next h => subst h; rfl
    · rfl
  · rfl
@[simp] theorem State.goesTo_slot_spillwait (s : State) (i : Instr) (pc : Word) (t : Nat) :
    ((s.goesTo i pc).slot t).spillwait = (s.slot t).spillwait := by
  unfold State.goesTo
  rw [State.slot_setSlot]; split
  · next h => subst h; simp [State.me, Slot.goOn, Slot.charge]
  · simp
@[simp] theorem State.done_slot_spillwait (s : State) (i : Instr) (t : Nat) : ((s.done i).slot t).spillwait = (s.slot t).spillwait := by
  simp [State.done]
@[simp] theorem State.popped_slot_strmCur (s : State) (i : Instr) (t : Nat) : ((s.popped i).slot t).strmCur = (s.slot t).strmCur := by
  unfold State.popped; split
  · rw [State.slot_setSlot]; split
    · next h => subst h; rfl
    · rfl
  · rfl
@[simp] theorem State.goesTo_slot_strmCur (s : State) (i : Instr) (pc : Word) (t : Nat) :
    ((s.goesTo i pc).slot t).strmCur = (s.slot t).strmCur := by
  unfold State.goesTo
  rw [State.slot_setSlot]; split
  · next h => subst h; simp [State.me, Slot.goOn, Slot.charge]
  · simp
@[simp] theorem State.done_slot_strmCur (s : State) (i : Instr) (t : Nat) : ((s.done i).slot t).strmCur = (s.slot t).strmCur := by
  simp [State.done]
@[simp] theorem State.popped_slot_batchPos (s : State) (i : Instr) (t : Nat) : ((s.popped i).slot t).batchPos = (s.slot t).batchPos := by
  unfold State.popped; split
  · rw [State.slot_setSlot]; split
    · next h => subst h; rfl
    · rfl
  · rfl
@[simp] theorem State.goesTo_slot_batchPos (s : State) (i : Instr) (pc : Word) (t : Nat) :
    ((s.goesTo i pc).slot t).batchPos = (s.slot t).batchPos := by
  unfold State.goesTo
  rw [State.slot_setSlot]; split
  · next h => subst h; simp [State.me, Slot.goOn, Slot.charge]
  · simp
@[simp] theorem State.done_slot_batchPos (s : State) (i : Instr) (t : Nat) : ((s.done i).slot t).batchPos = (s.slot t).batchPos := by
  simp [State.done]
@[simp] theorem State.popped_slot_members (s : State) (i : Instr) (t : Nat) : ((s.popped i).slot t).members = (s.slot t).members := by
  unfold State.popped; split
  · rw [State.slot_setSlot]; split
    · next h => subst h; rfl
    · rfl
  · rfl
@[simp] theorem State.goesTo_slot_members (s : State) (i : Instr) (pc : Word) (t : Nat) :
    ((s.goesTo i pc).slot t).members = (s.slot t).members := by
  unfold State.goesTo
  rw [State.slot_setSlot]; split
  · next h => subst h; simp [State.me, Slot.goOn, Slot.charge]
  · simp
@[simp] theorem State.done_slot_members (s : State) (i : Instr) (t : Nat) : ((s.done i).slot t).members = (s.slot t).members := by
  simp [State.done]
@[simp] theorem State.popped_slot_chanIn (s : State) (i : Instr) (t : Nat) : ((s.popped i).slot t).chanIn = (s.slot t).chanIn := by
  unfold State.popped; split
  · rw [State.slot_setSlot]; split
    · next h => subst h; rfl
    · rfl
  · rfl
@[simp] theorem State.goesTo_slot_chanIn (s : State) (i : Instr) (pc : Word) (t : Nat) :
    ((s.goesTo i pc).slot t).chanIn = (s.slot t).chanIn := by
  unfold State.goesTo
  rw [State.slot_setSlot]; split
  · next h => subst h; simp [State.me, Slot.goOn, Slot.charge]
  · simp
@[simp] theorem State.done_slot_chanIn (s : State) (i : Instr) (t : Nat) : ((s.done i).slot t).chanIn = (s.slot t).chanIn := by
  simp [State.done]
@[simp] theorem State.popped_slot_chanOut (s : State) (i : Instr) (t : Nat) : ((s.popped i).slot t).chanOut = (s.slot t).chanOut := by
  unfold State.popped; split
  · rw [State.slot_setSlot]; split
    · next h => subst h; rfl
    · rfl
  · rfl
@[simp] theorem State.goesTo_slot_chanOut (s : State) (i : Instr) (pc : Word) (t : Nat) :
    ((s.goesTo i pc).slot t).chanOut = (s.slot t).chanOut := by
  unfold State.goesTo
  rw [State.slot_setSlot]; split
  · next h => subst h; simp [State.me, Slot.goOn, Slot.charge]
  · simp
@[simp] theorem State.done_slot_chanOut (s : State) (i : Instr) (t : Nat) : ((s.done i).slot t).chanOut = (s.slot t).chanOut := by
  simp [State.done]
@[simp] theorem State.popped_slot_asid (s : State) (i : Instr) (t : Nat) : ((s.popped i).slot t).asid = (s.slot t).asid := by
  unfold State.popped; split
  · rw [State.slot_setSlot]; split
    · next h => subst h; rfl
    · rfl
  · rfl
@[simp] theorem State.goesTo_slot_asid (s : State) (i : Instr) (pc : Word) (t : Nat) :
    ((s.goesTo i pc).slot t).asid = (s.slot t).asid := by
  unfold State.goesTo
  rw [State.slot_setSlot]; split
  · next h => subst h; simp [State.me, Slot.goOn, Slot.charge]
  · simp
@[simp] theorem State.done_slot_asid (s : State) (i : Instr) (t : Nat) : ((s.done i).slot t).asid = (s.slot t).asid := by
  simp [State.done]
@[simp] theorem State.popped_slot_world (s : State) (i : Instr) (t : Nat) : ((s.popped i).slot t).world = (s.slot t).world := by
  unfold State.popped; split
  · rw [State.slot_setSlot]; split
    · next h => subst h; rfl
    · rfl
  · rfl
@[simp] theorem State.goesTo_slot_world (s : State) (i : Instr) (pc : Word) (t : Nat) :
    ((s.goesTo i pc).slot t).world = (s.slot t).world := by
  unfold State.goesTo
  rw [State.slot_setSlot]; split
  · next h => subst h; simp [State.me, Slot.goOn, Slot.charge]
  · simp
@[simp] theorem State.done_slot_world (s : State) (i : Instr) (t : Nat) : ((s.done i).slot t).world = (s.slot t).world := by
  simp [State.done]
@[simp] theorem State.popped_slot_resv (s : State) (i : Instr) (t : Nat) : ((s.popped i).slot t).resv = (s.slot t).resv := by
  unfold State.popped; split
  · rw [State.slot_setSlot]; split
    · next h => subst h; rfl
    · rfl
  · rfl
@[simp] theorem State.goesTo_slot_resv (s : State) (i : Instr) (pc : Word) (t : Nat) :
    ((s.goesTo i pc).slot t).resv = (s.slot t).resv := by
  unfold State.goesTo
  rw [State.slot_setSlot]; split
  · next h => subst h; simp [State.me, Slot.goOn, Slot.charge]
  · simp
@[simp] theorem State.done_slot_resv (s : State) (i : Instr) (t : Nat) : ((s.done i).slot t).resv = (s.slot t).resv := by
  simp [State.done]
@[simp] theorem State.popped_slot_wc (s : State) (i : Instr) (t : Nat) : ((s.popped i).slot t).wc = (s.slot t).wc := by
  unfold State.popped; split
  · rw [State.slot_setSlot]; split
    · next h => subst h; rfl
    · rfl
  · rfl
@[simp] theorem State.goesTo_slot_wc (s : State) (i : Instr) (pc : Word) (t : Nat) :
    ((s.goesTo i pc).slot t).wc = (s.slot t).wc := by
  unfold State.goesTo
  rw [State.slot_setSlot]; split
  · next h => subst h; simp [State.me, Slot.goOn, Slot.charge]
  · simp
@[simp] theorem State.done_slot_wc (s : State) (i : Instr) (t : Nat) : ((s.done i).slot t).wc = (s.slot t).wc := by
  simp [State.done]
@[simp] theorem State.popped_slot_barReg (s : State) (i : Instr) (t : Nat) : ((s.popped i).slot t).barReg = (s.slot t).barReg := by
  unfold State.popped; split
  · rw [State.slot_setSlot]; split
    · next h => subst h; rfl
    · rfl
  · rfl
@[simp] theorem State.goesTo_slot_barReg (s : State) (i : Instr) (pc : Word) (t : Nat) :
    ((s.goesTo i pc).slot t).barReg = (s.slot t).barReg := by
  unfold State.goesTo
  rw [State.slot_setSlot]; split
  · next h => subst h; simp [State.me, Slot.goOn, Slot.charge]
  · simp
@[simp] theorem State.done_slot_barReg (s : State) (i : Instr) (t : Nat) : ((s.done i).slot t).barReg = (s.slot t).barReg := by
  simp [State.done]
@[simp] theorem State.popped_slot_rpend (s : State) (i : Instr) (t : Nat) : ((s.popped i).slot t).rpend = (s.slot t).rpend := by
  unfold State.popped; split
  · rw [State.slot_setSlot]; split
    · next h => subst h; rfl
    · rfl
  · rfl
@[simp] theorem State.goesTo_slot_rpend (s : State) (i : Instr) (pc : Word) (t : Nat) :
    ((s.goesTo i pc).slot t).rpend = (s.slot t).rpend := by
  unfold State.goesTo
  rw [State.slot_setSlot]; split
  · next h => subst h; simp [State.me, Slot.goOn, Slot.charge]
  · simp
@[simp] theorem State.done_slot_rpend (s : State) (i : Instr) (t : Nat) : ((s.done i).slot t).rpend = (s.slot t).rpend := by
  simp [State.done]
@[simp] theorem State.popped_slot_engFaults (s : State) (i : Instr) (t : Nat) : ((s.popped i).slot t).engFaults = (s.slot t).engFaults := by
  unfold State.popped; split
  · rw [State.slot_setSlot]; split
    · next h => subst h; rfl
    · rfl
  · rfl
@[simp] theorem State.goesTo_slot_engFaults (s : State) (i : Instr) (pc : Word) (t : Nat) :
    ((s.goesTo i pc).slot t).engFaults = (s.slot t).engFaults := by
  unfold State.goesTo
  rw [State.slot_setSlot]; split
  · next h => subst h; simp [State.me, Slot.goOn, Slot.charge]
  · simp
@[simp] theorem State.done_slot_engFaults (s : State) (i : Instr) (t : Nat) : ((s.done i).slot t).engFaults = (s.slot t).engFaults := by
  simp [State.done]
@[simp] theorem State.popped_slot_savedPriv (s : State) (i : Instr) (t : Nat) : ((s.popped i).slot t).savedPriv = (s.slot t).savedPriv := by
  unfold State.popped; split
  · rw [State.slot_setSlot]; split
    · next h => subst h; rfl
    · rfl
  · rfl
@[simp] theorem State.goesTo_slot_savedPriv (s : State) (i : Instr) (pc : Word) (t : Nat) :
    ((s.goesTo i pc).slot t).savedPriv = (s.slot t).savedPriv := by
  unfold State.goesTo
  rw [State.slot_setSlot]; split
  · next h => subst h; simp [State.me, Slot.goOn, Slot.charge]
  · simp
@[simp] theorem State.done_slot_savedPriv (s : State) (i : Instr) (t : Nat) : ((s.done i).slot t).savedPriv = (s.slot t).savedPriv := by
  simp [State.done]
@[simp] theorem State.popped_slot_sysTrap (s : State) (i : Instr) (t : Nat) : ((s.popped i).slot t).sysTrap = (s.slot t).sysTrap := by
  unfold State.popped; split
  · rw [State.slot_setSlot]; split
    · next h => subst h; rfl
    · rfl
  · rfl
@[simp] theorem State.goesTo_slot_sysTrap (s : State) (i : Instr) (pc : Word) (t : Nat) :
    ((s.goesTo i pc).slot t).sysTrap = (s.slot t).sysTrap := by
  unfold State.goesTo
  rw [State.slot_setSlot]; split
  · next h => subst h; simp [State.me, Slot.goOn, Slot.charge]
  · simp
@[simp] theorem State.done_slot_sysTrap (s : State) (i : Instr) (t : Nat) : ((s.done i).slot t).sysTrap = (s.slot t).sysTrap := by
  simp [State.done]
@[simp] theorem State.popped_slot_timer (s : State) (i : Instr) (t : Nat) : ((s.popped i).slot t).timer = (s.slot t).timer := by
  unfold State.popped; split
  · rw [State.slot_setSlot]; split
    · next h => subst h; rfl
    · rfl
  · rfl
@[simp] theorem State.popped_slot_fullVal (s : State) (i : Instr) (t : Nat) : ((s.popped i).slot t).fullVal = (s.slot t).fullVal := by
  unfold State.popped; split
  · rw [State.slot_setSlot]; split
    · next h => subst h; rfl
    · rfl
  · rfl
@[simp] theorem State.goesTo_slot_fullVal (s : State) (i : Instr) (pc : Word) (t : Nat) :
    ((s.goesTo i pc).slot t).fullVal = (s.slot t).fullVal := by
  unfold State.goesTo
  rw [State.slot_setSlot]; split
  · next h => subst h; simp [State.me, Slot.goOn, Slot.charge]
  · simp
@[simp] theorem State.done_slot_fullVal (s : State) (i : Instr) (t : Nat) : ((s.done i).slot t).fullVal = (s.slot t).fullVal := by
  simp [State.done]
@[simp] theorem State.popped_slot_fullRep (s : State) (i : Instr) (t : Nat) : ((s.popped i).slot t).fullRep = (s.slot t).fullRep := by
  unfold State.popped; split
  · rw [State.slot_setSlot]; split
    · next h => subst h; rfl
    · rfl
  · rfl
@[simp] theorem State.goesTo_slot_fullRep (s : State) (i : Instr) (pc : Word) (t : Nat) :
    ((s.goesTo i pc).slot t).fullRep = (s.slot t).fullRep := by
  unfold State.goesTo
  rw [State.slot_setSlot]; split
  · next h => subst h; simp [State.me, Slot.goOn, Slot.charge]
  · simp
@[simp] theorem State.done_slot_fullRep (s : State) (i : Instr) (t : Nat) : ((s.done i).slot t).fullRep = (s.slot t).fullRep := by
  simp [State.done]
@[simp] theorem State.popped_slot_repFrom (s : State) (i : Instr) (t : Nat) : ((s.popped i).slot t).repFrom = (s.slot t).repFrom := by
  unfold State.popped; split
  · rw [State.slot_setSlot]; split
    · next h => subst h; rfl
    · rfl
  · rfl
@[simp] theorem State.goesTo_slot_repFrom (s : State) (i : Instr) (pc : Word) (t : Nat) :
    ((s.goesTo i pc).slot t).repFrom = (s.slot t).repFrom := by
  unfold State.goesTo
  rw [State.slot_setSlot]; split
  · next h => subst h; simp [State.me, Slot.goOn, Slot.charge]
  · simp
@[simp] theorem State.done_slot_repFrom (s : State) (i : Instr) (t : Nat) : ((s.done i).slot t).repFrom = (s.slot t).repFrom := by
  simp [State.done]
@[simp] theorem State.popped_slot_tretRep (s : State) (i : Instr) (t : Nat) : ((s.popped i).slot t).tretRep = (s.slot t).tretRep := by
  unfold State.popped; split
  · rw [State.slot_setSlot]; split
    · next h => subst h; rfl
    · rfl
  · rfl
@[simp] theorem State.popped_slot_pend (s : State) (i : Instr) (t : Nat) : ((s.popped i).slot t).pend = (s.slot t).pend := by
  unfold State.popped; split
  · rw [State.slot_setSlot]; split
    · next h => subst h; rfl
    · rfl
  · rfl
@[simp] theorem State.goesTo_slot_pend (s : State) (i : Instr) (pc : Word) (t : Nat) :
    ((s.goesTo i pc).slot t).pend = (s.slot t).pend := by
  unfold State.goesTo
  rw [State.slot_setSlot]; split
  · next h => subst h; simp [State.me, Slot.goOn, Slot.charge]
  · simp
@[simp] theorem State.done_slot_pend (s : State) (i : Instr) (t : Nat) : ((s.done i).slot t).pend = (s.slot t).pend := by
  simp [State.done]
@[simp] theorem State.popped_slot_pairHash (s : State) (i : Instr) (t : Nat) : ((s.popped i).slot t).pairHash = (s.slot t).pairHash := by
  unfold State.popped; split
  · rw [State.slot_setSlot]; split
    · next h => subst h; rfl
    · rfl
  · rfl
@[simp] theorem State.goesTo_slot_pairHash (s : State) (i : Instr) (pc : Word) (t : Nat) :
    ((s.goesTo i pc).slot t).pairHash = (s.slot t).pairHash := by
  unfold State.goesTo
  rw [State.slot_setSlot]; split
  · next h => subst h; simp [State.me, Slot.goOn, Slot.charge]
  · simp
@[simp] theorem State.done_slot_pairHash (s : State) (i : Instr) (t : Nat) : ((s.done i).slot t).pairHash = (s.slot t).pairHash := by
  simp [State.done]
@[simp] theorem State.popped_slot_pairSeq (s : State) (i : Instr) (t : Nat) : ((s.popped i).slot t).pairSeq = (s.slot t).pairSeq := by
  unfold State.popped; split
  · rw [State.slot_setSlot]; split
    · next h => subst h; rfl
    · rfl
  · rfl
@[simp] theorem State.goesTo_slot_pairSeq (s : State) (i : Instr) (pc : Word) (t : Nat) :
    ((s.goesTo i pc).slot t).pairSeq = (s.slot t).pairSeq := by
  unfold State.goesTo
  rw [State.slot_setSlot]; split
  · next h => subst h; simp [State.me, Slot.goOn, Slot.charge]
  · simp
@[simp] theorem State.done_slot_pairSeq (s : State) (i : Instr) (t : Nat) : ((s.done i).slot t).pairSeq = (s.slot t).pairSeq := by
  simp [State.done]
@[simp] theorem State.popped_slot_partner (s : State) (i : Instr) (t : Nat) : ((s.popped i).slot t).partner = (s.slot t).partner := by
  unfold State.popped; split
  · rw [State.slot_setSlot]; split
    · next h => subst h; rfl
    · rfl
  · rfl
@[simp] theorem State.goesTo_slot_partner (s : State) (i : Instr) (pc : Word) (t : Nat) :
    ((s.goesTo i pc).slot t).partner = (s.slot t).partner := by
  unfold State.goesTo
  rw [State.slot_setSlot]; split
  · next h => subst h; simp [State.me, Slot.goOn, Slot.charge]
  · simp
@[simp] theorem State.done_slot_partner (s : State) (i : Instr) (t : Nat) : ((s.done i).slot t).partner = (s.slot t).partner := by
  simp [State.done]

end Sys2Proof.Machine
end

