-- ==== Sys2Proof/Laws/Monad.lean ====
section
/-!
SUPPORT. Running a body: what each of the ways to build one answers on a state.
-/

namespace Sys2Proof.Machine

variable {α β : Type}

@[simp] theorem run_pure (a : α) (s : State) : (pure a : M α) s = .ok a s := rfl
@[simp] theorem run_bind (x : M α) (f : α → M β) (s : State) :
    (x >>= f) s = match x s with
      | .ok a s' => f a s'
      | .error e s' => .error e s' := by
  simp only [bind, EStateM.bind]
  cases x s <;> rfl
@[simp] theorem run_map (f : α → β) (x : M α) (s : State) :
    (f <$> x) s = match x s with
      | .ok a s' => .ok (f a) s'
      | .error e s' => .error e s' := by
  simp only [Functor.map, EStateM.map]
  cases x s <;> rfl
@[simp] theorem run_get (s : State) : (get : M State) s = .ok s s := rfl
@[simp] theorem run_set (t s : State) : (set t : M PUnit) s = .ok ⟨⟩ t := rfl
@[simp] theorem run_modify (f : State → State) (s : State) : (modify f : M PUnit) s = .ok ⟨⟩ (f s) := rfl
@[simp] theorem run_throw (e : Stop) (s : State) : (throw e : M α) s = .error e s := rfl
@[simp] theorem run_ite (c : Prop) [Decidable c] (x y : M α) (s : State) :
    (if c then x else y) s = if c then x s else y s := by
  split <;> rfl
@[simp] theorem run_raise (c : Cause) (v : Word) (s : State) : (raise c v : M α) s = .error (.trap c.code (some v)) s := rfl
@[simp] theorem run_raiseFree (c : Cause) (s : State) : (raiseFree c : M α) s = .error (.trap c.code none) s := rfl
@[simp] theorem run_park (w : Wait) (s : State) : (park w : M α) s = .error (.park w) s := rfl
theorem run_check (ok : Bool) (c : Cause) (v : Word) (s : State) :
    check ok c v s = if ok then .ok () s else .error (.trap c.code (some v)) s := by
  cases ok <;> rfl
theorem run_checkFree (ok : Bool) (c : Cause) (s : State) :
    checkFree ok c s = if ok then .ok () s else .error (.trap c.code none) s := by
  cases ok <;> rfl
theorem run_waitFor (ok : Bool) (w : Wait) (s : State) :
    waitFor ok w s = if ok then .ok () s else .error (.park w) s := by
  cases ok <;> rfl
@[simp] theorem check_true (c : Cause) (v : Word) : check true c v = pure () := rfl
@[simp] theorem checkFree_true (c : Cause) : checkFree true c = pure () := rfl
@[simp] theorem waitFor_true (w : Wait) : waitFor true w = pure () := rfl
@[simp] theorem run_curSlot (s : State) : curSlot s = .ok (s.slot s.cur) s := rfl
@[simp] theorem run_curId (s : State) : curId s = .ok s.cur s := rfl
@[simp] theorem run_curCore (s : State) : curCore s = .ok (s.core (coreOf s.cur)) s := rfl
@[simp] theorem run_modSlot (f : Slot → Slot) (s : State) : modSlot f s = .ok () (s.setSlot s.cur (f (s.slot s.cur))) := rfl
@[simp] theorem run_modSlotAt (t : Nat) (f : Slot → Slot) (s : State) : modSlotAt t f s = .ok () (s.setSlot t (f (s.slot t))) :=
  rfl
@[simp] theorem run_modCore (f : Core → Core) (s : State) :
    modCore f s = .ok () (s.setCore (coreOf s.cur) (f (s.core (coreOf s.cur)))) := rfl
@[simp] theorem run_modCoreAt (c : Nat) (f : Core → Core) (s : State) :
    modCoreAt c f s = .ok () (s.setCore c (f (s.core c))) := rfl
@[simp] theorem run_modMs (f : MemSys → MemSys) (s : State) : modMs f s = .ok () { s with ms := f s.ms } := rfl
@[simp] theorem run_modHyps (f : HypSys → HypSys) (s : State) : modHyps f s = .ok () { s with hyps := f s.hyps } := rfl
@[simp] theorem run_modLs (f : LaunchSys → LaunchSys) (s : State) : modLs f s = .ok () { s with ls := f s.ls } := rfl
@[simp] theorem run_modSs (f : StrmSys → StrmSys) (s : State) : modSs f s = .ok () { s with ss := f s.ss } := rfl
@[simp] theorem run_modEs (f : EngSys → EngSys) (s : State) : modEs f s = .ok () { s with es := f s.es } := rfl
@[simp] theorem run_modWs (f : WinSys → WinSys) (s : State) : modWs f s = .ok () { s with ws := f s.ws } := rfl
@[simp] theorem run_modFs (f : FacSys → FacSys) (s : State) : modFs f s = .ok () { s with fs := f s.fs } := rfl
@[simp] theorem run_modPf (f : Platform → Platform) (s : State) : modPf f s = .ok () { s with pf := f s.pf } := rfl
@[simp] theorem run_freshWord (s : State) : freshWord s = .ok (Config.freeWord s.free) { s with free := s.free + 1 } := rfl
@[simp] theorem run_evArg (k : Nat) (s : State) : evArg k s = .ok ((s.ev[k]?).getD 0) s := rfl
@[simp] theorem run_evRest (k : Nat) (s : State) : evRest k s = .ok (s.ev.drop k) s := rfl
@[simp] theorem run_rd (r : GReg) (s : State) : rd r s = .ok ((s.slot s.cur).gval r) s := rfl
@[simp] theorem run_curAgent (s : State) : curAgent s = .ok ((s.slot s.cur).agent s.cur) s := rfl
@[simp] theorem run_eachM_nil (f : α → M Unit) (s : State) : eachM f [] s = .ok () s := rfl
@[simp] theorem run_eachM_cons (f : α → M Unit) (a : α) (r : List α) (s : State) :
    eachM f (a :: r) s = match f a s with
      | .ok _ s' => eachM f r s'
      | .error e s' => .error e s' := by
  rw [eachM, run_bind]
  cases f a s <;> rfl

/-- A body run on each element in turn, where none stops: the states follow one another. -/
theorem run_eachM_ok (f : α → M Unit) (g : State → α → State) (l : List α) (s : State) (h : ∀ a s, f a s = .ok () (g s a)) :
    eachM f l s = .ok () (l.foldl g s) := by
  induction l generalizing s with
  | nil => rfl
  | cons a r ih => rw [run_eachM_cons, h]; exact ih _

@[simp] theorem need_true : need true = pure () := rfl
theorem run_need (ok : Bool) (s : State) : need ok s = if ok then .ok () s else .error (.park .none) s := by
  cases ok <;> rfl
@[simp] theorem needSome_some (a : α) : needSome (some a) = pure a := rfl

/-- An event that is enabled: the state its body ends in. -/
theorem event_ok {body : M Unit} {s t : State} (h : body s = .ok () t) : event body s = .next t := by
  simp only [event, runM, orUndo, h]
/-- An event that is not enabled changes nothing. -/
theorem event_error {body : M Unit} {s t : State} {e : Stop} (h : body s = .error e t) : event body s = .next s := by
  simp only [event, runM, orUndo, h]

end Sys2Proof.Machine
end

