-- ==== Sys2Proof/Laws/Frame.lean ====
section
/-!
SUPPORT. The frame of an instruction: where it executes normally, its checks pass and only its body acts; and what follows it.
-/

namespace Sys2Proof.Machine

/-! ### The parts of `clear` and `runs` -/

theorem State.clear_iff (s : State) : s.clear = true ↔
    s.me.st ≠ .free ∧ s.me.wait = .none ∧ s.me.issued = false ∧ s.me.partner = none ∧ 1 ≤ s.me.yieldLeft.toNat ∧
    s.me.engFaults = [] ∧ s.hyps.outermostRefuted s.me.hypId = none := by
  simp [State.clear, and_assoc]

theorem State.runs_clear {s : State} {i : Instr} (h : s.runs i = true) : s.clear = true := by
  simp only [State.runs, Bool.and_eq_true] at h; exact h.1.1.1.1.1.1

theorem State.runs_legal {s : State} {i : Instr} (h : s.runs i = true) : illegalFor i s.me.part s.me.priv = false := by
  simp only [State.runs, Bool.and_eq_true, Bool.not_eq_true'] at h; exact h.1.1.1.1.2

theorem Slot.issued_false {x : Slot} (h : x.issued = false) : x.repFrom = 0 ∧ x.pend = none := by
  simpa [Slot.issued] using h

/-! ### The checks pass -/

theorem illegalCheck_ok {s : State} {i : Instr} (h : illegalFor i s.me.part s.me.priv = false) :
    illegalCheck i s = .ok () s := by
  have h' : illegalFor i (s.slot s.cur).part (s.slot s.cur).priv = false := h
  simp [illegalCheck, h']

theorem State.runs_free {s : State} {i : Instr} (h : s.runs i = true) : s.heldBack i = false := by
  simp only [State.runs, Bool.and_eq_true, Bool.not_eq_true'] at h; exact h.1.1.1.1.1.2

theorem storesQueued_false {s : State} (h : s.queuesEmpty s.cur = true) : s.storesQueued s.cur = false := by
  simp only [State.queuesEmpty, Bool.and_eq_true, List.all_eq_true, decide_eq_true_eq] at h
  simp only [State.storesQueued, Bool.or_eq_false_iff, List.any_eq_false, Bool.and_eq_true, decide_eq_true_eq]
  exact ⟨fun e he hc => h.1 e he hc.1, fun e he hc => h.2 e he hc.1⟩

/-- Where a release may be made, nothing holds it. -/
theorem State.runs_stores {s : State} {i : Instr} (h : s.runs i = true) (hr : (isLss i || mayRelease i) = true) :
    s.storesQueued s.cur = false := by
  have hb := State.runs_free h
  have h1 : isMxMem i = false := by cases i <;> first | rfl | exact absurd hr Bool.false_ne_true
  have h2 : (isVmemAccess i || isTensorAccess i) = false := by cases i <;> first | rfl | exact absurd hr Bool.false_ne_true
  have h3 : (isLss i || isStateMem i || mayRelease i) = true := by
    rw [Bool.or_right_comm, hr, Bool.true_or]
  simpa [State.heldBack, h1, h2, h3] using hb

theorem holdStores_ok {s : State} (h : s.storesQueued s.cur = false) : holdStores s = .ok () s := by
  simp [holdStores, h]

theorem issueHolds_ok {s : State} {i : Instr} (h : s.heldBack i = false) : issueHolds i s = .ok () s := by
  unfold issueHolds
  split
  case isTrue hl =>
    have h1 : isMxMem i = false := by cases i <;> first | rfl | exact absurd hl Bool.false_ne_true
    have h2 : (isVmemAccess i || isTensorAccess i) = false := by cases i <;> first | rfl | exact absurd hl Bool.false_ne_true
    have h3 : (isLss i || isStateMem i || mayRelease i) = true := by rw [hl, Bool.true_or]
    exact holdStores_ok (by simpa [State.heldBack, h1, h2, h3] using h)
  case isFalse hl =>
    split
    case isTrue hm =>
      have hv : ((s.core (coreOf s.cur)).vq.all fun e => !decide (e.slot = s.cur) || !isVStore e.instr) = true := by
        simp only [State.heldBack, hm, if_true, List.any_eq_false, Bool.and_eq_true, not_and, Bool.not_eq_true, decide_eq_true_eq] at h
        simp only [List.all_eq_true, Bool.or_eq_true, Bool.not_eq_true', decide_eq_false_iff_not]
        exact fun e he => if hc : e.slot = s.cur then Or.inr (h e he hc) else Or.inl hc
      simp [hv]
    case isFalse hm =>
      split
      case isTrue hx =>
        have hv : ((s.core (coreOf s.cur)).mq.all fun e => !decide (e.slot = s.cur) || !isMxMem e.instr) = true := by
          simp only [State.heldBack, hm, hx, if_true, List.any_eq_false, Bool.and_eq_true, not_and, Bool.not_eq_true, decide_eq_true_eq,
            Bool.false_eq_true, if_false] at h
          simp only [List.all_eq_true, Bool.or_eq_true, Bool.not_eq_true', decide_eq_false_iff_not]
          exact fun e he => if hc : e.slot = s.cur then Or.inr (h e he hc) else Or.inl hc
        simp [hv]
      case isFalse => rfl

theorem orphanCheck_ok {s : State} {t : Nat} (h : s.hyps.outermostRefuted (s.slot t).hypId = none) :
    orphanCheck t s = .ok () (s.setSlot t { s.slot t with hypId := s.hyps.eff (s.slot t).hypId }) := by
  simp [orphanCheck, h]

theorem orphanPoint_ok {s : State} {i : Instr} (again : M Unit) (hw : s.me.wait = .none)
    (h : s.hyps.outermostRefuted s.me.hypId = none) : orphanPoint i again s = .ok () (s.entered i) := by
  have hw' : (s.slot s.cur).wait = .none := hw
  have h' : s.hyps.outermostRefuted (s.slot s.cur).hypId = none := h
  by_cases hi : isOrphanPoint i = true
  · simp [orphanPoint, hi, hw', orphanCheck_ok h', State.entered, State.setMe, State.me]
  · simp [orphanPoint, hi, State.entered]

theorem deliverFault_ok {s : State} {t : Nat} (p : EngFault → Bool) (h : (s.slot t).engFaults = []) :
    deliverFault t p s = .ok () s := by
  simp [deliverFault, h]

theorem issueChecks_ok {s : State} {i : Instr} (names : List Named) (again : M Unit) (h : s.clear = true) (hh : s.heldBack i = false) :
    issueChecks i names again s = .ok () (s.entered i) := by
  obtain ⟨-, hw, hi, -, hb, hf, ho⟩ := s.clear_iff.mp h
  have hi' : (s.slot s.cur).issued = false := hi
  have hf' : ((s.entered i).slot s.cur).engFaults = [] := by rw [State.entered_slot_engFaults]; exact hf
  have hb' : 1 ≤ ((s.entered i).slot s.cur).yieldLeft.toNat := by rw [State.entered_slot_yieldLeft]; exact hb
  have hc : s.cancelsHere s.cur i = false := by
    have hw' : (s.slot s.cur).wait = .none := hw
    simp [State.cancelsHere, hw', Wait.takesCancel]
  unfold issueChecks
  simp only [run_bind, run_curSlot, run_curId, run_get, hi', hc, Bool.false_eq_true, if_false]
  split
  · exact congrArg (EStateM.Result.ok ()) (s.entered_eq rfl).symm
  · rw [if_neg Bool.false_ne_true, run_bind, issueHolds_ok hh]
    simp only []
    rw [run_bind, orphanPoint_ok again hw ho]
    simp only []
    rw [run_bind, deliverFault_ok _ hf']
    simp only [run_bind, run_curSlot, State.entered_cur, hb', decide_true, checkFree_true]
    rfl

theorem canPop_entered (s : State) (i : Instr) (v : Bool) : (s.entered i).canPop v = s.canPop v := by
  simp [State.canPop, State.me]

theorem pairTargets_entered (s : State) (i : Instr) (t p : Nat) : pairTargets (s.entered i) t p = pairTargets s t p := by
  simp [pairTargets, primaryOf, Slot.shadow]

theorem canPush_entered (s : State) (i : Instr) (v : Bool) : (s.entered i).canPush v = s.canPush v := by
  simp [State.canPush, State.me, pairTargets_entered, outPeer, primaryOf, Slot.shadow]

theorem checkPop_ok {s : State} {v : Bool} (h : s.canPop v = true) : checkPop v s = .ok () s := by
  simp only [State.canPop, State.me, Bool.and_eq_true, beq_iff_eq] at h
  simp [checkPop, h.1.1, h.1.2]

theorem waitPops_ok {s : State} {v : Bool} (h : s.canPop v = true) : waitPops 1 s = .ok () s := by
  simp only [State.canPop, State.me, Bool.and_eq_true, beq_iff_eq, Option.any_eq_true] at h
  obtain ⟨-, m, hm, hl⟩ := h
  cases hq : (s.slot s.cur).inq with
  | nil => simp [hq] at hm
  | cons a r =>
    have : a = m := by simpa [hq] using hm
    subst this
    simp [waitPops, hq, hl]

theorem checkPush_ok {s : State} {v : Bool} (h : s.canPush v = true) : checkPush v s = .ok () s := by
  simp only [State.canPush, State.me, Bool.and_eq_true, beq_iff_eq, Bool.not_eq_true'] at h
  obtain ⟨⟨⟨⟨⟨h1, h2⟩, h3⟩, h4⟩, h5⟩, h6⟩ := h
  simp [checkPush, h1, h2, h4, h5]

theorem waitPushes_ok {s : State} {v : Bool} (h : s.canPush v = true) : waitPushes 1 s = .ok () s := by
  simp only [State.canPush, State.me, Bool.and_eq_true, beq_iff_eq, Bool.not_eq_true'] at h
  obtain ⟨⟨⟨⟨⟨h1, h2⟩, h3⟩, h4⟩, h5⟩, h6⟩ := h
  have h7 : ∀ a b : Nat, (a, b) ∈ pairTargets s s.cur (outPeer s.cur (s.slot s.cur)) →
      (s.slot b).st ≠ .free ∧ (s.slot b).chanIn.en = true ∧ (s.slot b).inq.length + 1 ≤ 4 := by
    intro a b hab
    have := List.all_eq_true.mp h6 (a, b) hab
    simp only [Bool.and_eq_true, bne_iff_ne, ne_eq, decide_eq_true_eq] at this
    exact ⟨this.1.1, this.1.2, by omega⟩
  have h8 : (!(s.slot s.cur).chanOut.pend && (pairTargets s s.cur (outPeer s.cur (s.slot s.cur))).all fun e =>
      decide ((s.slot e.2).st ≠ .free) && (s.slot e.2).chanIn.en && decide ((s.slot e.2).inq.length + 1 ≤ 4)) = true := by
    rw [h3, Bool.not_false, Bool.true_and, List.all_eq_true]
    intro e he
    obtain ⟨q1, q2, q3⟩ := h7 e.1 e.2 he
    simp [q1, q2, q3]
  simp only [waitPushes, run_bind, run_curId, run_curSlot, run_get]
  exact (congrFun (congrArg (fun b => waitFor b .channel) h8) s).trans rfl

/-- The channels that a legal instruction names are ready, so it goes on. -/
theorem channelWaits_ok {s : State} {i : Instr} (hi : (s.slot s.cur).issued = false)
    (h1 : pops31 i = true → s.canPop false = true) (h2 : popsV31 i = true → s.canPop true = true)
    (h3 : pushes31 i = true → s.canPush false = true) (h4 : pushesV31 i = true → s.canPush true = true) :
    channelWaits i s = .ok () s := by
  obtain ⟨hr, hp⟩ := Slot.issued_false hi
  simp only [channelWaits, run_bind, run_curSlot, run_ite, hr, hp]
  cases e1 : pops31 i <;> cases e2 : popsV31 i <;> cases e3 : pushes31 i <;> cases e4 : pushesV31 i <;>
    simp_all [checkPop_ok, checkPush_ok, waitPops_ok (v := true), waitPops_ok (v := false), waitPushes_ok (v := true),
      waitPushes_ok (v := false)]

/-! ### The frame -/

/-- Where an instruction executes normally, its body runs on the state it entered. -/
theorem framed_eq {s : State} {i : Instr} (names : State → Slot → List Named) (body : M Flow) (h : s.runs i = true) :
    framed i names body s = body (s.entered i) := by
  have hc := State.runs_clear h
  have hfree := State.runs_free h
  obtain ⟨-, hw, hi, hp, -⟩ := s.clear_iff.mp hc
  have hi' : ((s.entered i).slot (s.entered i).cur).issued = false := by simpa [Slot.issued] using hi
  have hp' : ((s.entered i).slot s.cur).partner = none := by rw [State.entered_slot_partner]; exact hp
  simp only [State.runs, Bool.and_eq_true, Bool.or_eq_true, Bool.not_eq_true'] at h
  have hcw : channelWaits i (s.entered i) = .ok () (s.entered i) := by
    apply channelWaits_ok hi' <;> intro e
    · rw [canPop_entered]; simpa [e] using h.1.1.1.2
    · rw [canPop_entered]; simpa [e] using h.1.1.2
    · rw [canPush_entered]; simpa [e] using h.1.2
    · rw [canPush_entered]; simpa [e] using h.2
  have hch : channelFirst i (s.entered i) = .ok () (s.entered i) := by
    unfold channelFirst
    split
    · rfl
    · exact hcw
  simp only [framed, run_bind, illegalCheck_ok h.1.1.1.1.2, run_get, run_curSlot, issueChecks_ok _ _ hc hfree, hch, comparePacket,
    comparePackets, run_curId, s.entered_cur i, hp']
  rfl

/-- A body that is done: the slot settles, and no packet is forwarded where the slot is not one of a pair. -/
theorem conclude_ok {i : Instr} {t : Nat} {pc : Word} {f : Flow} {s u : State} (h : settle i f s = .ok () u)
    (hp : (u.slot t).partner = none) : conclude i t pc (.ok f s) = u := by
  simp only [conclude, runM, run_bind, h, forwardPacket, run_get, hp]
  rfl

theorem settle_jump (s : State) (i : Instr) (pc : Word) : settle i (.jump pc) s = .ok () (s.goesTo i pc) := by
  cases e : pops31 i || popsV31 i <;> simp only [settle, popHead, State.goesTo, State.popped, e] <;> rfl

theorem settle_seq (s : State) (i : Instr) (hi : isTret i = false) : settle i .seq s = .ok () (s.done i) := by
  cases e : pops31 i || popsV31 i <;>
    simp only [settle, popHead, popMany, e, Bool.false_eq_true, if_true, if_false, run_bind, run_modSlot, State.done, State.goesTo,
      State.popped, State.setMe, State.me, hi, State.slot_setSlot_self, State.setSlot_cur]

theorem settle_gone (s : State) (i : Instr) : settle i .gone s = .ok () s := rfl

/-- What `issueNamed` answers where the instruction executes normally and its body goes on at the next word. -/
theorem issueNamed_seq {s u : State} {i : Instr} (names : State → Slot → List Named) {body : M Flow} (h : s.runs i = true)
    (hb : body (s.entered i) = .ok .seq u) (hp : (u.slot s.cur).partner = none) (hi : isTret i = false) :
    issueNamed i names body s = .next (u.done i) := by
  have hst := (s.clear_iff.mp (State.runs_clear h)).1
  have hst' : (s.slot s.cur).st ≠ .free := hst
  rw [issueNamed, if_neg hst', framed_eq names body h, hb,
    conclude_ok (settle_seq u i hi) (by rw [State.done_slot_partner]; exact hp)]

theorem issueNamed_jump {s u : State} {i : Instr} (names : State → Slot → List Named) {body : M Flow} {pc : Word}
    (h : s.runs i = true) (hb : body (s.entered i) = .ok (.jump pc) u) (hp : (u.slot s.cur).partner = none) :
    issueNamed i names body s = .next (u.goesTo i pc) := by
  have hst := (s.clear_iff.mp (State.runs_clear h)).1
  have hst' : (s.slot s.cur).st ≠ .free := hst
  rw [issueNamed, if_neg hst', framed_eq names body h, hb,
    conclude_ok (settle_jump u i pc) (by rw [State.goesTo_slot_partner]; exact hp)]

theorem issueNamed_gone {s u : State} {i : Instr} (names : State → Slot → List Named) {body : M Flow}
    (h : s.runs i = true) (hb : body (s.entered i) = .ok .gone u) (hp : (u.slot s.cur).partner = none) :
    issueNamed i names body s = .next u := by
  have hst := (s.clear_iff.mp (State.runs_clear h)).1
  have hst' : (s.slot s.cur).st ≠ .free := hst
  rw [issueNamed, if_neg hst', framed_eq names body h, hb, conclude_ok (settle_gone u i) hp]

/-! ### What bodies do to registers -/

@[simp] theorem run_wr (d : GReg) (w : Word) (s : State) : wr d w s = .ok () (s.put d w) := by
  rw [wr, run_ite, State.put]
  split
  · rw [pushNow]
    simp only [run_bind, run_curId, run_curSlot, run_get]
    exact run_eachM_ok _ (fun (u : State) (e : Nat × Nat) => u.setSlot e.2 (if (u.slot e.2).keeps e.1 false then
      { u.slot e.2 with inq := (u.slot e.2).inq ++ [⟨false, e.1, true, w.setWidth 4096⟩] } else u.slot e.2)) _ _ fun _ _ => rfl
  · rfl
@[simp] theorem run_orFlags (f : Flags) (s : State) : orFlags f s = .ok () (s.withFlags f) := rfl
@[simp] theorem run_curRnd (sel : RndSel) (s : State) : curRnd sel s = .ok (rndOf sel s.me.rm) s := rfl
@[simp] theorem run_curPc (s : State) : curPc s = .ok s.me.pc s := rfl
@[simp] theorem run_thenNext (body : M Unit) (s : State) :
    thenNext body s = match body s with
      | .ok _ s' => .ok .seq s'
      | .error e s' => .error e s' := by
  rw [thenNext, run_bind]; cases body s <;> rfl

/-- Where an instruction executes normally and its body is done, it goes on at the next word. -/
theorem issue_seq {s u : State} {i : Instr} {body : M Unit} (h : s.runs i = true)
    (hb : body (s.entered i) = .ok () u) (hp : (u.slot s.cur).partner = (s.slot s.cur).partner) (hi : isTret i = false) :
    issue i (thenNext body) s = .next (u.done i) :=
  issueNamed_seq _ h (by rw [run_thenNext, hb]) (hp.trans ((s.clear_iff.mp (State.runs_clear h)).2.2.2.1)) hi

/-- The same where the body says itself how the slot goes on. -/
theorem issue_flow_seq {s u : State} {i : Instr} {body : M Flow} (h : s.runs i = true)
    (hb : body (s.entered i) = .ok .seq u) (hp : (u.slot s.cur).partner = (s.slot s.cur).partner) (hi : isTret i = false) :
    issue i body s = .next (u.done i) :=
  issueNamed_seq _ h hb (hp.trans ((s.clear_iff.mp (State.runs_clear h)).2.2.2.1)) hi
theorem issue_flow_jump {s u : State} {i : Instr} {body : M Flow} {pc : Word} (h : s.runs i = true)
    (hb : body (s.entered i) = .ok (.jump pc) u) (hp : (u.slot s.cur).partner = (s.slot s.cur).partner) :
    issue i body s = .next (u.goesTo i pc) :=
  issueNamed_jump _ h hb (hp.trans ((s.clear_iff.mp (State.runs_clear h)).2.2.2.1))

/-! ### Waits -/

/-- A body that waits parks its slot (R61). -/
theorem issueNamed_park {s u : State} {i : Instr} (names : State → Slot → List Named) {body : M Flow} {w : Wait}
    (h : s.runs i = true) (hb : body (s.entered i) = .error (.park w) u) :
    issueNamed i names body s = .next (u.setSlot s.cur { u.slot s.cur with st := .parked, wait := w }) := by
  have hst : (s.slot s.cur).st ≠ .free := (s.clear_iff.mp (State.runs_clear h)).1
  rw [issueNamed, if_neg hst, framed_eq names body h, hb]
  simp only [conclude, runM, parkSlot, run_modSlotAt]

theorem issue_park {s u : State} {i : Instr} {body : M Flow} {w : Wait}
    (h : s.runs i = true) (hb : body (s.entered i) = .error (.park w) u) :
    issue i body s = .next (u.setSlot s.cur { u.slot s.cur with st := .parked, wait := w }) := issueNamed_park _ h hb

/-! ### Traps -/

/-- The codes that R85 alone treats. -/
def isPlainCode (code : Nat) : Bool :=
  !isSystemCode code && !isIntegrityCode code && !isRedundancyCode code && code != Cause.yieldOverrun.code

theorem Slot.afterTrap_partner (x : Slot) : x.afterTrap.partner = x.partner := rfl

theorem Slot.toHandler_partner (x : Slot) (code : Nat) (val pc : Word) (rep : Option Nat) :
    (x.toHandler code val pc rep).partner = x.partner := rfl

/-- An ordinary trap with a stated value reaches the handler (R85). -/
theorem takeTrap_handler {s : State} {t code : Nat} {v pc : Word} {rep : Option Nat} (hc : isPlainCode code = true)
    (hi : (s.slot t).intrap = false) (hv : (s.slot t).trapVec ≠ 0) :
    takeTrap t code (some v) pc rep s = .ok () (s.setSlot t ((s.slot t).toHandler code v pc rep)) := by
  simp only [isPlainCode, Bool.and_eq_true, Bool.not_eq_true', bne_iff_ne, ne_eq] at hc
  obtain ⟨⟨⟨h1, h2⟩, h3⟩, h4⟩ := hc
  simp only [takeTrap, run_bind, run_pure, run_get, h1, h2, h3, h4, hi, hv, Bool.false_eq_true, if_false, Bool.or_self,
    Bool.false_or, decide_false, Bool.false_and, run_ite, run_modSlotAt, ite_self]

/-- A body that traps where the slot has its handler. -/
theorem conclude_trap {i : Instr} {t code : Nat} {v pc : Word} {u : State} (hc : isPlainCode code = true)
    (hi : (u.slot t).intrap = false) (hv : (u.slot t).trapVec ≠ 0) (hp : (u.slot t).partner = none) :
    conclude i t pc (.error (.trap code (some v)) u) = u.setSlot t ((u.slot t).toHandler code v pc none) := by
  simp only [conclude, runM, run_bind, takeTrap_handler hc hi hv, forwardPacket, run_get, State.slot_setSlot_self,
    Slot.toHandler_partner, hp]
  rfl

/-- An instruction that would execute normally and whose body raises an ordinary cause. -/
theorem issueNamed_trap {s : State} {i : Instr} (names : State → Slot → List Named) {body : M Flow} {c : Cause} {v : Word}
    (h : s.runs i = true) (hb : body (s.entered i) = .error (.trap c.code (some v)) (s.entered i))
    (hc : isPlainCode c.code = true) (hh : s.hasHandler = true) :
    issueNamed i names body s = .next ((s.entered i).trapped c v) := by
  obtain ⟨hst, -, -, hp, -⟩ := s.clear_iff.mp (State.runs_clear h)
  have hst' : (s.slot s.cur).st ≠ .free := hst
  simp only [State.hasHandler, Bool.and_eq_true, Bool.not_eq_true', bne_iff_ne, ne_eq] at hh
  rw [issueNamed, if_neg hst', framed_eq names body h, hb, conclude_trap hc]
  · rw [State.trapped, State.setMe, State.me, State.entered_cur, State.entered_slot_pc]
  · simpa [Slot.intrap] using hh.1
  · rw [State.entered_slot_trapVec]; exact hh.2
  · rw [State.entered_slot_partner]; exact hp

theorem issue_trap {s : State} {i : Instr} {body : M Flow} {c : Cause} {v : Word}
    (h : s.runs i = true) (hb : body (s.entered i) = .error (.trap c.code (some v)) (s.entered i))
    (hc : isPlainCode c.code = true) (hh : s.hasHandler = true) :
    issue i body s = .next ((s.entered i).trapped c v) := issueNamed_trap _ h hb hc hh

end Sys2Proof.Machine
end

