-- ==== Sys2Proof/Laws/Memory.lean ====
section
/-!
SUPPORT. Bytes of lines and of memory, writes at the home, and the access check.
-/

namespace Sys2Proof.Machine

/-! ### Bytes of masks and lines -/

theorem testBit_spread (n m k : Nat) : (spreadBits n m).testBit k = (decide (k < 8 * n) && m.testBit (k / 8)) := by
  induction n generalizing m k with
  | zero => simp [spreadBits]
  | succ n ih =>
    rw [spreadBits]
    have hb : (if m % 2 = 1 then 255 else 0) < 2 ^ 8 := by split <;> decide
    rw [show (if m % 2 = 1 then 255 else 0) + 256 * spreadBits n (m / 2) =
      2 ^ 8 * spreadBits n (m / 2) + (if m % 2 = 1 then 255 else 0) from Nat.add_comm _ _]
    rw [Nat.testBit_two_pow_mul_add _ hb]
    by_cases hk : k < 8
    · have h1 : k / 8 = 0 := by omega
      rw [if_pos hk, h1, Nat.testBit_zero]
      have h2 : k < 8 * (n + 1) := by omega
      simp only [h2, decide_true, Bool.true_and]
      split
      · rename_i h
        have : ∀ k, k < 8 → Nat.testBit 255 k = true := by decide
        simp [h, this k hk]
      · rename_i h; simp [h]
    · rw [if_neg hk, ih]
      have h1 : (k - 8) / 8 = k / 8 - 1 := by omega
      rw [h1, Nat.testBit_div_two, show k / 8 - 1 + 1 = k / 8 by omega]
      congr 1
      apply decide_eq_decide.mpr; omega

theorem getLsbD_bitMask (m : BitVec 64) (k : Nat) : (bitMask m).getLsbD k = (decide (k < 512) && m.getLsbD (k / 8)) := by
  rw [bitMask, BitVec.getLsbD_ofNat, testBit_spread]
  by_cases h : k < 512 <;> simp [h, BitVec.getLsbD]

/-- A bit of a merged line is the new line's where its byte is in the mask, else the old one's. -/
theorem getLsbD_mergeLine (old new : LineVal) (m : BitVec 64) (k : Nat) :
    (mergeLine old new m).getLsbD k = if m.getLsbD (k / 8) then new.getLsbD k else old.getLsbD k := by
  by_cases hk : k < 512
  · simp only [mergeLine, BitVec.getLsbD_or, BitVec.getLsbD_and, BitVec.getLsbD_not, getLsbD_bitMask, hk, decide_true,
      Bool.true_and]
    cases m.getLsbD (k / 8) <;> simp
  · simp [BitVec.getLsbD_of_ge _ k (Nat.le_of_not_lt hk)]

theorem mergeLine_all (old new : LineVal) : mergeLine old new allBytes = new := by
  apply BitVec.eq_of_getLsbD_eq
  intro i hi
  rw [getLsbD_mergeLine, if_pos]
  simp only [allBytes, BitVec.getLsbD_allOnes, decide_eq_true_eq]; omega

theorem getLsbD_byteMask (off n k : Nat) (h : off + n ≤ 64) :
    (byteMask off n).getLsbD k = decide (off ≤ k ∧ k < off + n) := by
  rw [byteMask, BitVec.getLsbD_ofNat, Nat.testBit_mul_two_pow, Nat.testBit_two_pow_sub_one]
  by_cases h1 : off ≤ k <;> by_cases h2 : k < off + n <;> simp [h1, h2] <;> omega

/-- A byte of a line that holds a number's bytes from an offset on. -/
theorem extract_lineOf (off n v k : Nat) (h : off + n ≤ 64) (h1 : off ≤ k) (h2 : k < off + n) :
    (lineOf off n v).extractLsb' (8 * k) 8 = BitVec.ofNat 8 (v / 256 ^ (k - off)) := by
  apply BitVec.eq_of_getLsbD_eq
  intro i hi
  rw [BitVec.getLsbD_extractLsb', lineOf, BitVec.getLsbD_ofNat, Nat.testBit_mul_two_pow, Nat.testBit_mod_two_pow,
    BitVec.getLsbD_ofNat, show (256 : Nat) = 2 ^ 8 by rfl, ← Nat.pow_mul, Nat.testBit_div_two_pow]
  have e1 : 8 * k + i < 512 := by omega
  have e2 : 8 * off ≤ 8 * k + i := by omega
  have e3 : 8 * k + i - 8 * off < 8 * n := by omega
  have e4 : 8 * k + i - 8 * off = i + 8 * (k - off) := by omega
  simp [hi, e1, e2]
  rw [e4] at e3
  rw [e4, decide_eq_true e3, Bool.true_and, Nat.add_comm]

/-- Bytes taken from a line as a number. -/
theorem extract_lineBytes (x : LineVal) (k : Nat) : BitVec.ofNat 8 (x.toNat / 256 ^ k) = x.extractLsb' (8 * k) 8 := by
  apply BitVec.eq_of_getLsbD_eq
  intro i hi
  rw [BitVec.getLsbD_extractLsb', BitVec.getLsbD_ofNat, show (256 : Nat) = 2 ^ 8 by rfl, ← Nat.pow_mul, Nat.testBit_div_two_pow]
  simp [hi, BitVec.getLsbD, Nat.add_comm]

/-! ### Bytes written to memory -/

theorem tblGet_writeMasked (t : Tbl Byte) (a n v m b : Nat) :
    tblGet 0 (writeMasked t a n v m) b =
      if a ≤ b ∧ b < a + n ∧ m.testBit (b - a) = true then BitVec.ofNat 8 (v / 256 ^ (b - a)) else tblGet 0 t b := by
  induction n generalizing t a v m with
  | zero => rw [writeMasked, if_neg (by omega)]
  | succ n ih =>
    rw [writeMasked, ih]
    by_cases hb : b = a
    · subst hb
      rw [if_neg (by omega)]
      by_cases hm : m % 2 = 1
      · rw [if_pos hm, tblGet_set_self, if_pos (by simp [Nat.testBit_zero, hm])]; simp
      · rw [if_neg hm, if_neg (by simp [Nat.testBit_zero, hm])]
    · have ht : tblGet 0 (if m % 2 = 1 then tblSet 0 t a (BitVec.ofNat 8 v) else t) b = tblGet 0 t b := by
        split
        · rw [tblGet_set_other _ _ _ hb]
        · rfl
      rw [ht]
      by_cases hc : a + 1 ≤ b ∧ b < a + 1 + n
      · have e : b - a = (b - (a + 1)) + 1 := by omega
        rw [Nat.testBit_div_two, ← e, Nat.div_div_eq_div_mul, ← Nat.pow_succ', Nat.succ_eq_add_one, ← e]
        have h1 : a ≤ b ∧ b < a + (n + 1) := by omega
        simp only [hc, h1, true_and]
      · rw [if_neg (by omega), if_neg (by omega)]

theorem settleOwners_fields (m : MemSys) (line : Nat) (own : Option Nat) (n i : Nat) (w : BitVec 16) :
    (settleOwners m line own n i w).mem = m.mem ∧ (settleOwners m line own n i w).check = m.check := by
  induction n generalizing m i with
  | zero => exact ⟨rfl, rfl⟩
  | succ n ih =>
    simp only [settleOwners]
    constructor
    · rw [(ih _ _).1]; split <;> rfl
    · rw [(ih _ _).2]; split <;> rfl

theorem tblGet_map {α : Type} (d : α) (t : Tbl α) (f : Nat → α → α) (k : Nat) (hd : f k d = d) :
    tblGet d (t.map fun x => (x.1, f x.1 x.2)) k = f k (tblGet d t k) := by
  induction t with
  | nil => simp [hd]
  | cons x r ih =>
    obtain ⟨j, v⟩ := x
    by_cases h : k = j
    · subst h; simp [tblGet]
    · simp [tblGet, h, ih]

/-- A slot's reservation after a write of a line. -/
def brokenBy (line : Nat) (exempt : Option Nat) (t : Nat) (x : Slot) : Slot :=
  match x.resv with
  | some r => if r.line = line ∧ some t ≠ exempt then { x with resv := some ⟨line, true⟩ } else x
  | none => x

theorem brokenBy_eq (line : Nat) (exempt : Option Nat) (t : Nat) (x : Slot) :
    brokenBy line exempt t x = { x with resv := (brokenBy line exempt t x).resv } := by
  unfold brokenBy
  cases x.resv with
  | none => rfl
  | some r => simp only []; split <;> rfl

theorem tblGet_breakResv (t : Tbl Slot) (line : Nat) (exempt : Option Nat) (k : Nat) :
    tblGet .empty (breakResv t line exempt) k = brokenBy line exempt k (tblGet .empty t k) := by
  rw [← tblGet_map .empty t (brokenBy line exempt) k rfl]
  congr 1
  unfold breakResv
  apply List.map_congr_left
  intro x _
  unfold brokenBy
  obtain ⟨j, y⟩ := x
  cases h : y.resv with
  | none => simp
  | some r => simp only []; split <;> rfl

@[simp] theorem State.slot_writeHome (s : State) (line : Nat) (data : LineVal) (mask : BitVec 64) (own exempt : Option Nat)
    (k : Nat) : (s.writeHome line data mask own exempt).slot k = brokenBy line exempt k (s.slot k) :=
  tblGet_breakResv _ _ _ _

theorem State.byteAt_writeHome (s : State) (line : Nat) (data : LineVal) (mask : BitVec 64) (own exempt : Option Nat) (a : Nat) :
    (s.writeHome line data mask own exempt).byteAt a =
      if line ≤ a ∧ a < line + 64 ∧ mask.getLsbD (a - line) = true then data.extractLsb' (8 * (a - line)) 8 else s.byteAt a := by
  simp only [State.byteAt, State.writeHome, (settleOwners_fields _ _ _ _ _ _).1, tblGet_writeMasked, extract_lineBytes]
  rfl

theorem brokenBy_resv {line : Nat} {exempt : Option Nat} {t : Nat} {x : Slot} {r : Resv}
    (h : (brokenBy line exempt t x).resv = some r) (hl : r.line = line) (he : some t ≠ exempt) : r.broken = true := by
  unfold brokenBy at h
  cases hr : x.resv with
  | none => simp [hr] at h
  | some q =>
    simp only [hr] at h
    split at h
    · cases h; rfl
    · rename_i hq; rw [hr] at h; cases h; exact absurd ⟨hl, he⟩ hq

/-- n bytes written within a line. -/
theorem State.byteAt_write (s : State) (pa n v : Nat) (own exempt : Option Nat) (h : pa % 64 + n ≤ 64) (a : Nat) :
    (s.writeHome (lineAddr pa) (lineOf (pa % 64) n v) (byteMask (pa % 64) n) own exempt).byteAt a =
      if pa ≤ a ∧ a < pa + n then BitVec.ofNat 8 (v / 256 ^ (a - pa)) else s.byteAt a := by
  rw [State.byteAt_writeHome]
  simp only [getLsbD_byteMask _ _ _ h, decide_eq_true_eq]
  have hl : lineAddr pa + pa % 64 = pa := by simp only [lineAddr]; omega
  by_cases hc : pa ≤ a ∧ a < pa + n
  · rw [if_pos (by omega), if_pos hc, extract_lineOf _ _ _ _ h (by omega) (by omega)]
    congr 3; omega
  · rw [if_neg (by omega), if_neg hc]

/-! ### Addresses -/

theorem lineAddr_mod (pa : Nat) : lineAddr pa % 64 = 0 := by simp only [lineAddr]; omega
theorem lineAddr_idem (pa : Nat) : lineAddr (lineAddr pa) = lineAddr pa := by simp only [lineAddr]; omega
theorem homeOf_lineAddr (pa : Nat) : homeOf (lineAddr pa) = homeOf pa := by simp only [homeOf, lineAddr]; omega
theorem pkgOf_lineAddr (pa : Nat) : pkgOf (lineAddr pa) = pkgOf pa := by simp only [pkgOf, lineAddr]; omega

theorem pageShift_ge (level : Nat) : 16 ≤ pageShift level := by
  unfold pageShift; split <;> decide

theorem leafPa_mod (l : Leaf) (va d : Nat) : leafPa l va d % 2 ^ 16 = va % 2 ^ 16 := by
  have h : 2 ^ 16 ∣ 2 ^ pageShift l.level := Nat.pow_dvd_pow 2 (pageShift_ge _)
  have e : va % 2 ^ pageShift l.level % 2 ^ 16 = va % 2 ^ 16 := Nat.mod_mod_of_dvd va h
  simp only [leafPa]
  generalize fieldOf l.pte 63 48 = p
  generalize fieldOf l.pte 47 24 = b
  generalize va % 2 ^ pageShift l.level = o at e ⊢
  split <;> omega

/-! ### The access check -/

theorem translatePlain_ok {s : State} {ag : Agent} {k : Acc} {va : Nat} {t : Trans} (h : translatePlain s ag k va = .ok t) :
    t.pa % 2 ^ 16 = va % 2 ^ 16 := by
  unfold translatePlain at h
  simp only [bind, Except.bind] at h
  repeat' (split at h)
  all_goals first | (cases h; done) | (cases h; exact leafPa_mod _ _ _)

/-- What a passed access check says. -/
theorem checkPlace_ok {s : State} {ag : Agent} {use : WinUse} {va : Word} {n : Nat} {k : Acc} {p : Place} {tr : Option Trans}
    (h : checkPlace s ag use va n k = .ok (p, tr)) :
    va.toNat < 2 ^ 56 ∧ va.toNat % n = 0 ∧
    ((∃ off, p = .win ag.strm (tblGet .none s.ss.streams ag.strm).serial off ∧ tr = none ∧ off < 2 ^ 22 ∧ va.toNat = 2 ^ 56 - 2 ^ 22 + off ∧ use = .allowed) ∨
     (∃ t, translatePlain s ag k va.toNat = .ok t ∧ p = .mem t.pa va.toNat t.cached ∧ tr = some t)) := by
  simp only [checkPlace] at h
  split at h
  · cases h
  split at h
  · cases h
  rename_i h1 h2
  have h2' : va.toNat % n = 0 := by omega
  refine ⟨by omega, h2', ?_⟩
  split at h
  · rename_i hw
    simp only [inWindow, Bool.and_eq_true, decide_eq_true_eq] at hw
    split at h
    · cases h
    · rename_i hu
      split at h
      · cases h
      · cases h
        left
        refine ⟨_, rfl, rfl, by omega, by omega, ?_⟩
        cases use
        · simp at hu
        · rfl
  · right
    split at h
    · rename_i t ht; cases h; exact ⟨t, ht, rfl, rfl⟩
    · cases h

/-- An access of a power-of-two size up to 64 lies within a line. -/
theorem access_within {pa va n : Nat} (hp : pa % 2 ^ 16 = va % 2 ^ 16) (hn : n ∣ 64) (ha : va % n = 0) : pa % 64 + n ≤ 64 := by
  have h0 : 0 < n := Nat.pos_of_dvd_of_pos hn (by decide)
  obtain ⟨c, hc⟩ := hn
  have h1 : pa % 64 = va % 64 := by omega
  have h2 : va % 64 % n = 0 := by
    rw [Nat.mod_mod_of_dvd va ⟨c, hc⟩]; exact ha
  obtain ⟨q, hq⟩ := Nat.dvd_of_mod_eq_zero h2
  have h3 : va % 64 < 64 := Nat.mod_lt _ (by decide)
  rw [h1, hq]
  have : q < c := by
    refine Nat.lt_of_not_le fun hcon => ?_
    have : n * c ≤ n * q := Nat.mul_le_mul_left _ hcon
    omega
  have : n * (q + 1) ≤ n * c := Nat.mul_le_mul_left _ this
  rw [Nat.mul_add] at this; omega

end Sys2Proof.Machine
end

