-- ==== Sys2Proof/Laws/Access.lean ====
section
/-!
SUPPORT. Accesses of a task: checks that fail, lines and places read, loads, and what leaves all but memory alone.
-/

namespace Sys2Proof.Machine

theorem checkPlace_range {s : State} {ag : Agent} {use : WinUse} {va : Word} {n : Nat} {k : Acc} (h : 2 ^ 56 ≤ va.toNat) :
    checkPlace s ag use va n k = .error (.memRange, some va) := by
  simp only [checkPlace, if_pos h]
theorem checkPlace_align {s : State} {ag : Agent} {use : WinUse} {va : Word} {n : Nat} {k : Acc} (h : va.toNat < 2 ^ 56)
    (h' : va.toNat % n ≠ 0) : checkPlace s ag use va n k = .error (.memAlign, some va) := by
  simp only [checkPlace, if_neg (Nat.not_le.mpr h), if_pos h']

@[simp] theorem run_liftCheck_ok {α : Type} (a : α) (s : State) : liftCheck (Except.ok a : Except Failure α) s = .ok a s := rfl
@[simp] theorem run_liftCheck_error {α : Type} (c : Cause) (v : Option Word) (s : State) : (liftCheck (.error (c, v)) : M α) s = .error (.trap c.code v) s := rfl

theorem run_checkAccess_error {s : State} {va : Word} {n : Nat} {k : Acc} {c : Cause} {v : Option Word}
    (h : s.access .allowed va n k = .error (c, v)) : checkAccess va n k s = .error (.trap c.code v) s := by
  have h' : checkPlace s ((s.slot s.cur).agent s.cur) .allowed va n k = .error (c, v) := h
  simp [checkAccess, checkAccessBy, h']
theorem run_checkMem_error {s : State} {va : Word} {n : Nat} {k : Acc} {c : Cause} {v : Option Word}
    (h : s.access .none va n k = .error (c, v)) : checkMem va n k s = .error (.trap c.code v) s := by
  have h' : checkPlace s ((s.slot s.cur).agent s.cur) .none va n k = .error (c, v) := h
  simp [checkMem, checkAccessBy, h']

theorem loadBody_trap {d a : GReg} {imm : BitVec 14} {n : Nat} {sg al : Bool} {s : State} {c : Cause} {v : Option Word}
    (h : s.access .allowed (s.me.gval a + sext imm) n .read = .error (c, v)) : loadBody d a imm n sg al s = .error (.trap c.code v) s := by
  simp [loadBody, dispAddr, run_checkAccess_error h]
theorem storeBody_trap {d a : GReg} {imm : BitVec 14} {n : Nat} {s : State} {c : Cause} {v : Option Word}
    (h : s.access .allowed (s.me.gval a + sext imm) n .write = .error (c, v)) : storeBody d a imm n s = .error (.trap c.code v) s := by
  simp [storeBody, dispAddr, run_checkAccess_error h]
theorem run_checkAccess_ok {s : State} {va : Word} {n : Nat} {k : Acc} {p : Place} {tr : Option Trans}
    (h : s.access .allowed va n k = .ok (p, tr)) : checkAccess va n k s = .ok p s := by
  have h' : checkPlace s ((s.slot s.cur).agent s.cur) .allowed va n k = .ok (p, tr) := h
  simp [checkAccess, checkAccessBy, h']
theorem run_consumeAs_good (ctx a line : Nat) (s : State) : consumeAs ctx a line .good s = .ok () s := rfl
theorem run_awaitLine {line : Nat} {s : State} (h : s.heldLine line = false) : awaitLine line s = .ok () s := by
  simp [awaitLine, h]
theorem run_consumeHomeAs {ctx line : Nat} {s : State} (h : s.ms.checkOf line = .good) (hh : s.heldLine line = false) :
    consumeHomeAs ctx line s = .ok () s := by
  simp [consumeHomeAs, run_awaitLine hh, h, run_consumeAs_good]

theorem run_consumeL1As_good {ctx line : Nat} {x : L1Line} {s : State} (h : x.check = .good) :
    consumeL1As ctx line x s = .ok () s := by
  simp [consumeL1As, h, run_consumeAs_good]

theorem MemSys.l1Put_eq (m : MemSys) (y : L1Line) : m.l1Put y = { m with l1 := (m.l1Put y).l1 } := rfl
theorem MemSys.l1Yield_eq (m : MemSys) (c : Nat) (a : BitVec 16) (va : Nat) : m.l1Yield c a va = { m with l1 := (m.l1Yield c a va).l1 } := rfl

/-- The versions used now are put last: nothing but the order of the L1's lines changes (R312). -/
theorem MemSys.l1Used_eq (m : MemSys) (ag : Agent) (va : Nat) (ks : List Nat) :
    m.l1Used ag va ks = { m with l1 := (m.l1Used ag va ks).l1 } := by
  unfold MemSys.l1Used
  induction ks generalizing m with
  | nil => rfl
  | cons k r ih =>
    rw [List.foldl_cons, ih]
    split <;> rfl

/-! ### A line that is sound -/

theorem State.sound_home {s : State} {pa va : Nat} (h : s.sound pa va = true) : s.ms.checkOf (lineAddr pa) = .good := by
  simp only [State.sound, Bool.and_eq_true, decide_eq_true_eq] at h
  exact h.1.1.1

theorem State.sound_held {s : State} {pa va : Nat} (h : s.sound pa va = true) : s.heldLine (lineAddr pa) = false := by
  simp only [State.sound, Bool.and_eq_true, Bool.not_eq_true'] at h
  exact h.1.1.2

theorem State.sound_l1 {s : State} {pa va k : Nat} {x : L1Line} (h : s.sound pa va = true) (hx : s.l1Of va k = some x) :
    x.check = .good := by
  have hm : x ∈ s.ms.l1 := List.mem_of_find?_eq_some hx
  have hi : x.is (cellOf s.cur) s.me.asid (lineAddr va) k = true := List.find?_some (p := fun x : L1Line => x.is (cellOf s.cur) s.me.asid (lineAddr va) k) (l := s.ms.l1) hx
  simp only [State.sound, Bool.and_eq_true, List.all_eq_true] at h
  have := h.1.2 x hm
  simp only [L1Line.is, Bool.and_eq_true, decide_eq_true_eq] at hi
  simpa [hi.1.1.1, hi.1.2] using this

theorem State.sound_version {s : State} {pa va k : Nat} {v : Version} (h : s.sound pa va = true)
    (hv : s.ms.version (lineAddr pa) k = some v) : v.check = .good := by
  have hm : v ∈ s.ms.versions := List.mem_of_find?_eq_some hv
  have hi := List.find?_some hv
  simp only [State.sound, Bool.and_eq_true, List.all_eq_true] at h
  have := h.2 v hm
  simp only [Bool.and_eq_true, decide_eq_true_eq] at hi
  simpa [hi.1] using this

/-- The versions that supply a sound line are consumed without effect. -/
theorem consumeVersions_ok {s : State} {pa va : Nat} (h : s.sound pa va = true) (ks : List Nat) (use : BitVec 64) :
    consumeVersions (s.me.agent s.cur) (lineAddr pa) (lineAddr va) ks use s = .ok (ks.foldl (fun u k =>
      let u := match s.l1Of va k with
        | some x => u &&& ~~~(x.valid &&& x.dirty)
        | none => u
      match s.ms.version (lineAddr pa) k with
      | some v => u &&& ~~~v.mask
      | none => u) use) s := by
  have hl1 : ∀ k, s.ms.l1Find (s.me.agent s.cur).cell (s.me.agent s.cur).asid (lineAddr va) k = s.l1Of va k := fun _ => rfl
  induction ks generalizing use with
  | nil => rfl
  | cons k r ih =>
    rw [consumeVersions, run_bind, run_get, List.foldl_cons]
    simp only [hl1]
    cases hx : s.l1Of va k with
    | none =>
      cases hv : s.ms.version (lineAddr pa) k with
      | none => simpa only [run_bind, run_pure] using ih _
      | some v => simpa only [run_bind, run_ite, run_pure, State.sound_version h hv, run_consumeAs_good, ite_self] using ih _
    | some x =>
      cases hv : s.ms.version (lineAddr pa) k with
      | none => simpa only [run_bind, run_ite, run_pure, run_consumeL1As_good (State.sound_l1 h hx), ite_self] using ih _
      | some v =>
        simpa only [run_bind, run_ite, run_pure, run_consumeL1As_good (State.sound_l1 h hx), State.sound_version h hv,
          run_consumeAs_good, ite_self] using ih _

/-- The architectural line of a sound line; lines of the L1 alone change. -/
theorem archLine_ok {s : State} {pa va : Nat} {cached alloc : Bool} {use : BitVec 64} (h : s.sound pa va = true) :
    ∃ l1, archLine (s.me.agent s.cur) (lineAddr pa) (lineAddr va) cached alloc use s =
      .ok (s.archSeen pa va cached alloc use) { s with ms := { s.ms with l1 := l1 } } := by
  have hl1 : s.ms.l1Find (s.me.agent s.cur).cell (s.me.agent s.cur).asid (lineAddr va) 0 = s.l1Of va 0 := rfl
  have hH : ∀ ctx, consumeHomeAs ctx (lineAddr pa) s = .ok () s := fun _ => run_consumeHomeAs (State.sound_home h) (State.sound_held h)
  unfold archLine State.archSeen
  rw [run_ite]
  cases cached
  · simp only [Bool.false_and, Bool.false_eq_true, if_false, run_bind, run_get, hH, run_pure]
    exact ⟨s.ms.l1, rfl⟩
  cases alloc
  · simp only [Bool.true_and, Bool.false_and, Bool.false_eq_true, if_false, if_true, run_bind, run_get, hl1]
    cases hx : s.l1Of va 0 with
    | none =>
      simp only [run_bind, hH, run_pure]
      exact ⟨s.ms.l1, rfl⟩
    | some x =>
      have hg : ∀ ctx, consumeL1As ctx (lineAddr pa) x s = .ok () s := fun _ => run_consumeL1As_good (State.sound_l1 h hx)
      simp only [run_bind, run_ite, hH, hg, run_pure, ite_self, run_modMs]
      exact ⟨_, rfl⟩
  · simp only [Bool.true_and, if_true, run_bind, l1Fill, run_get, hl1]
    cases hx : s.l1Of va 0 with
    | none =>
      simp only [run_bind, hH, run_get, run_modMs, run_pure, run_consumeL1As_good]
      exact ⟨_, rfl⟩
    | some x =>
      have hg : ∀ (c : Nat) (l : Nat) (u : State), consumeL1As c l x u = .ok () u := fun _ _ _ => run_consumeL1As_good (State.sound_l1 h hx)
      by_cases hv : use &&& ~~~x.valid = 0
      · simp only [hv, if_true, run_pure, hg, decide_true]
        exact ⟨s.ms.l1, rfl⟩
      · simp only [hv, if_false, run_bind, hH, run_get, run_modMs, run_pure, decide_false, Bool.false_eq_true]
        rw [run_consumeL1As_good (by simpa only using State.sound_l1 h hx)]
        exact ⟨_, rfl⟩

theorem viewLine_ok {s : State} {pa va : Nat} {cached alloc : Bool} {use : BitVec 64} (h : s.sound pa va = true) :
    ∃ l1, viewLine (s.me.agent s.cur) s.me.wc (lineAddr pa) (lineAddr va) cached alloc use s =
      .ok (s.lineSeen pa va cached alloc use) { s with ms := { s.ms with l1 := l1 } } := by
  have hk : (if pkgOf (lineAddr pa) = s.ws.own then s.hyps.chain (s.me.agent s.cur).hyp else []) = s.seenChain pa := rfl
  unfold viewLine
  rw [run_bind, run_get]
  simp only [hk]
  rw [run_ite]
  simp only [run_bind, run_ite, run_pure, run_modMs, run_awaitLine (State.sound_held h), consumeVersions_ok h, ite_self]
  unfold State.lineSeen
  simp only []
  have hn : (s.seenChain pa).foldl (fun u k =>
      let u := match s.l1Of va k with
        | some x => u &&& ~~~(x.valid &&& x.dirty)
        | none => u
      match s.ms.version (lineAddr pa) k with
      | some v => u &&& ~~~v.mask
      | none => u) use = s.noVersion pa va use := rfl
  simp only [] at hn
  rw [hn]
  generalize (s.me.wc.filter fun w => w.line = lineAddr pa).foldl (fun r w => r &&& ~~~w.mask) (s.noVersion pa va use) = rest
  by_cases hr : rest = 0
  · simp only [hr, if_true]
    rw [MemSys.l1Used_eq]
    exact ⟨_, rfl⟩
  · obtain ⟨l1, ha⟩ := archLine_ok (cached := cached) (alloc := alloc) (use := rest) h
    simp only [hr, if_false, ha]
    rw [MemSys.l1Used_eq]
    exact ⟨_, rfl⟩

theorem readPlace_ok {s : State} {pa va n : Nat} {cached alloc : Bool} (h : s.sound pa va = true) (hn : n ≤ 8) (h0 : 0 < n)
    (hw : pa % 64 + n ≤ 64) : ∃ l1, readPlace (s.me.agent s.cur) s.me.wc alloc (.mem pa va cached) n s =
      .ok (lineBytes (s.lineSeen pa va cached alloc (byteMask (pa % 64) n)) (pa % 64) n) { s with ms := { s.ms with l1 := l1 } } := by
  obtain ⟨l1, hv⟩ := viewLine_ok (cached := cached) (alloc := alloc) (use := byteMask (pa % 64) n) h
  refine ⟨l1, ?_⟩
  have k : min n (64 - pa % 64) = n := by omega
  have n0 : n ≠ 0 := by omega
  simp only [readPlace, readLines, run_ite, n0, if_false, run_bind, k, hv, Nat.sub_self, if_true, run_pure, Nat.mul_zero, Nat.add_zero]

theorem asSigned_eq (v w : Nat) (hw : 0 < w) : asSigned v w = (BitVec.ofNat w v).toInt := by
  have h : 2 ^ w = 2 * 2 ^ (w - 1) := by rw [← Nat.pow_succ']; congr 1; omega
  rw [asSigned, BitVec.toInt_eq_toNat_cond, BitVec.toNat_ofNat]
  by_cases hc : v % 2 ^ w < 2 ^ (w - 1)
  · rw [if_pos hc, if_pos (by omega)]
  · rw [if_neg hc, if_neg (by omega)]
    simp only [Int.natCast_pow]; rfl

theorem extend_eq (sg : Bool) (n v : Nat) (hn : n = 1 ∨ n = 2 ∨ n = 4 ∨ n = 8) : extend sg n v = loaded sg n v := by
  have hp : 0 < 8 * n := by omega
  cases sg
  · simp only [extend, loaded, Bool.false_eq_true, if_false]
    apply BitVec.eq_of_toNat_eq
    have : 2 ^ (8 * n) ≤ 2 ^ 64 := Nat.pow_le_pow_right (by decide) (by omega)
    simp only [BitVec.toNat_ofNat, BitVec.toNat_setWidth]
  · simp only [extend, loaded, if_true, asSigned_eq _ _ hp]
    rfl

theorem loadBody_ok {d a : GReg} {imm : BitVec 14} {n : Nat} {sg alloc : Bool} {s : State} {pa va : Nat} {cached : Bool} {tr : Option Trans}
    (ha : s.access .allowed (s.me.gval a + sext imm) n .read = .ok (.mem pa va cached, tr)) (h : s.sound pa va = true)
    (hn : n = 1 ∨ n = 2 ∨ n = 4 ∨ n = 8) (hp : s.me.partner = none) :
    ∃ l1, loadBody d a imm n sg alloc s = .ok () ({ s with ms := { s.ms with l1 := l1 } }.put d
      (loaded sg n (lineBytes (s.lineSeen pa va cached alloc (byteMask (pa % 64) n)) (pa % 64) n))) := by
  have hw : pa % 64 + n ≤ 64 := by
    obtain ⟨-, h2, h3⟩ := checkPlace_ok ha
    rcases h3 with ⟨off, hq, -⟩ | ⟨t, ht, hq, -⟩
    · cases hq
    · cases hq; exact access_within (translatePlain_ok ht) (by rcases hn with rfl | rfl | rfl | rfl <;> decide) h2
  obtain ⟨l1, hv⟩ := readPlace_ok (cached := cached) (alloc := alloc) h (by omega) (by omega) hw
  refine ⟨l1, ?_⟩
  have hp' : (s.slot s.cur).partner = none := hp
  have hb : bypassed (s.slot s.cur) (.mem pa va cached) = .mem pa va cached := by simp [bypassed, hp']
  simp only [loadBody, dispAddr, run_bind, run_rd, run_pure, run_curSlot, run_checkAccess_ok ha, hb, run_curAgent, hv, run_wr, extend_eq _ _ _ hn]

/-! ### Memory alone changes -/

theorem MemoryOnly.refl (s : State) : MemoryOnly s s := ⟨rfl, fun _ => rfl⟩

theorem MemoryOnly.trans {s t u : State} (h1 : MemoryOnly s t) (h2 : MemoryOnly t u) : MemoryOnly s u := by
  refine ⟨?_, fun k => ?_⟩
  · rw [h2.1, h1.1]
  · rw [h2.2 k, h1.2 k]

theorem MemoryOnly.with_ms (s : State) (m : MemSys) : MemoryOnly s { s with ms := m } := ⟨rfl, fun _ => rfl⟩

/-- A slot whose buffer and reservation alone change. -/
theorem MemoryOnly.setSlot {s : State} {t : Nat} {x : Slot} (h : x = { s.slot t with wc := x.wc, resv := x.resv }) :
    MemoryOnly s (s.setSlot t x) := by
  refine ⟨rfl, fun k => ?_⟩
  rw [State.slot_setSlot]
  split
  · rename_i e; subst e; exact h
  · rfl

theorem MemoryOnly.writeHome (s : State) (line : Nat) (data : LineVal) (mask : BitVec 64) (own exempt : Option Nat) :
    MemoryOnly s (s.writeHome line data mask own exempt) := by
  refine ⟨rfl, fun k => ?_⟩
  rw [State.slot_writeHome]
  conv => lhs; rw [brokenBy_eq]
  have : (brokenBy line exempt k (s.slot k)).wc = (s.slot k).wc := by rw [brokenBy_eq]
  rw [this]

theorem MemoryOnly.cur {s t : State} (h : MemoryOnly s t) : t.cur = s.cur := by rw [h.1]
theorem MemoryOnly.hyps {s t : State} (h : MemoryOnly s t) : t.hyps = s.hyps := by rw [h.1]
theorem MemoryOnly.ws {s t : State} (h : MemoryOnly s t) : t.ws = s.ws := by rw [h.1]
theorem MemoryOnly.pf {s t : State} (h : MemoryOnly s t) : t.pf = s.pf := by rw [h.1]
theorem MemoryOnly.gval {s t : State} (h : MemoryOnly s t) (k : Nat) (r : GReg) : (t.slot k).gval r = (s.slot k).gval r := by
  rw [h.2 k]; rfl
theorem MemoryOnly.partner {s t : State} (h : MemoryOnly s t) (k : Nat) : (t.slot k).partner = (s.slot k).partner := by
  rw [h.2 k]

/-! ### Writes at the home -/

/-- Each line of one L1 stands for a line of another, as dirty and as sound as that. -/
def Stands (l m : List L1Line) : Prop :=
  ∀ x ∈ l, ∃ y ∈ m, x.cell = y.cell ∧ x.pa = y.pa ∧ x.dirty = y.dirty ∧ x.va = y.va ∧ x.check = y.check

theorem Stands.refl (l : List L1Line) : Stands l l := fun x hx => ⟨x, hx, rfl, rfl, rfl, rfl, rfl⟩
theorem Stands.trans {l m n : List L1Line} (h1 : Stands l m) (h2 : Stands m n) : Stands l n := by
  intro x hx
  obtain ⟨y, hy, a1, a2, a3, a4, a5⟩ := h1 x hx
  obtain ⟨z, hz, b1, b2, b3, b4, b5⟩ := h2 y hy
  exact ⟨z, hz, a1.trans b1, a2.trans b2, a3.trans b3, a4.trans b4, a5.trans b5⟩
theorem Stands.filter (l : List L1Line) (p : L1Line → Bool) : Stands (l.filter p) l :=
  fun x hx => ⟨x, (List.mem_filter.mp hx).1, rfl, rfl, rfl, rfl, rfl⟩
theorem Stands.map (l : List L1Line) (f : L1Line → L1Line)
    (h : ∀ x ∈ l, (f x).cell = x.cell ∧ (f x).pa = x.pa ∧ (f x).dirty = x.dirty ∧ (f x).va = x.va ∧ (f x).check = x.check) : Stands (l.map f) l := by
  intro x hx
  obtain ⟨y, hy, rfl⟩ := List.mem_map.mp hx
  exact ⟨y, hy, h y hy⟩

theorem settleOwners_stands (m : MemSys) (line : Nat) (own : Option Nat) (n i : Nat) (w : BitVec 16) :
    Stands (settleOwners m line own n i w).l1 m.l1 := by
  induction n generalizing m i with
  | zero => exact Stands.refl _
  | succ n ih =>
    simp only [settleOwners]
    refine (ih _ _).trans ?_
    split
    · simp only []
      generalize (decide (tblGet 0 m.owner (line + 4 * i) = 0) || _) = c
      split
      · exact Stands.refl _
      · refine Stands.map _ _ fun x _ => ?_
        split <;> exact ⟨rfl, rfl, rfl, rfl, rfl⟩
    · exact Stands.refl _

theorem State.writeHome_stands (s : State) (line : Nat) (data : LineVal) (mask : BitVec 64) (own exempt : Option Nat) :
    Stands (s.writeHome line data mask own exempt).ms.l1 s.ms.l1 := settleOwners_stands _ _ _ _ _ _

theorem run_injected {die array : Nat} {w : Nat → Bool} {old : LineCheck} {s : State} (h : s.noInjection) :
    injected die array w old s = .ok old s := by
  simp [injected, h die]

theorem run_injectedHome {die : Nat} {w : Nat → Bool} {old : LineCheck} {s : State} (h : s.noInjection) :
    injectedHome die w old s = .ok old s := by
  simp only [injectedHome, run_bind, run_injected h]

theorem run_noteMerge {array line : Nat} {c : LineCheck} {mask : BitVec 64} {s : State} (h : c ≠ .single) :
    noteMerge array line c mask s = .ok () s := by
  simp [noteMerge, h]

/-- A merge at a home that takes writes. -/
theorem homeMerge_ok {line : Nat} {data : LineVal} {mask : BitVec 64} {own exempt : Option Nat} {s : State} (hm : mask ≠ 0)
    (hl : s.homeLives line) (hi : s.noInjection) (hc : s.ms.checkOf line ≠ .single) :
    ∃ u, homeMerge line data mask own exempt s = .ok () u ∧ MemoryOnly s u ∧
      (∀ a, u.byteAt a = if line ≤ a ∧ a < line + 64 ∧ mask.getLsbD (a - line) = true then
        data.extractLsb' (8 * (a - line)) 8 else s.byteAt a) ∧
      (∀ k, u.slot k = brokenBy line exempt k (s.slot k)) ∧ Stands u.ms.l1 s.ms.l1 := by
  have hd' : (decide (mask = 0) || (decide (pkgOf line = s.ws.own) && !s.live (homeOf line))) = false := by
    simp only [hm, decide_false, Bool.false_or, Bool.and_eq_false_iff, decide_eq_false_iff_not, Bool.not_eq_false']
    by_cases h1 : pkgOf line = s.ws.own
    · right; exact hl h1
    · left; exact h1
  have key : ∀ o c, ∃ u, (fun s : State => EStateM.Result.ok (ε := Stop) () { s with ms := { s.ms with check := tblSet .good s.ms.check line c } })
      (s.writeHome line data mask o exempt) = .ok () u ∧ MemoryOnly s u ∧
      (∀ a, u.byteAt a = if line ≤ a ∧ a < line + 64 ∧ mask.getLsbD (a - line) = true then
        data.extractLsb' (8 * (a - line)) 8 else s.byteAt a) ∧
      (∀ k, u.slot k = brokenBy line exempt k (s.slot k)) ∧ Stands u.ms.l1 s.ms.l1 := by
    intro o c
    have h1 := MemoryOnly.writeHome s line data mask o exempt
    have h2 := fun a => State.byteAt_writeHome s line data mask o exempt a
    have h3 := fun k => State.slot_writeHome s line data mask o exempt k
    have h4 := State.writeHome_stands s line data mask o exempt
    generalize s.writeHome line data mask o exempt = t at h1 h2 h3 h4
    exact ⟨_, rfl, h1.trans (MemoryOnly.with_ms _ _), fun a => h2 a, fun k => h3 k, h4⟩
  have hi' : ∀ o, (s.writeHome line data mask o exempt).noInjection := fun _ => hi
  simp only [homeMerge, run_bind, run_get, run_ite, hd', Bool.false_eq_true, if_false, run_set]
  split
  · rw [run_noteMerge hc]
    simp only []
    rw [run_injectedHome (hi' _)]
    exact key _ _
  · exact key _ _

/-- n bytes of a number merged at a home within a line. -/
theorem homeMerge_bytes {pa n v : Nat} {own exempt : Option Nat} {s : State} (h0 : 0 < n) (hw : pa % 64 + n ≤ 64)
    (hl : s.homeLives pa) (hi : s.noInjection) (hc : s.ms.checkOf (lineAddr pa) ≠ .single) :
    ∃ u, homeMerge (lineAddr pa) (lineOf (pa % 64) n v) (byteMask (pa % 64) n) own exempt s = .ok () u ∧ MemoryOnly s u ∧
      Wrote s u pa n v ∧ (∀ k, u.slot k = brokenBy (lineAddr pa) exempt k (s.slot k)) ∧ Stands u.ms.l1 s.ms.l1 := by
  have hm : byteMask (pa % 64) n ≠ 0 := by
    intro e
    have := getLsbD_byteMask (pa % 64) n (pa % 64) hw
    rw [e] at this
    have h2 : pa % 64 ≤ pa % 64 ∧ pa % 64 < pa % 64 + n := by omega
    simp [h2] at this
  have hl' : s.homeLives (lineAddr pa) := by
    intro h; rw [pkgOf_lineAddr] at h; rw [homeOf_lineAddr]; exact hl h
  obtain ⟨u, h1, h2, h3, h4, h5⟩ := homeMerge_ok (own := own) (exempt := exempt) (data := lineOf (pa % 64) n v) hm hl' hi hc
  refine ⟨u, h1, h2, fun a => ?_, h4, h5⟩
  rw [h3, ← State.byteAt_write s pa n v none none hw, State.byteAt_writeHome]

/-! ### Stores into the L1 -/

theorem L1Line.is_self (y : L1Line) : y.is y.cell y.asid y.va y.hyp = true := by simp [L1Line.is]

/-- The line put is the line found. -/
theorem MemSys.l1Find_put (m : MemSys) (y : L1Line) : (m.l1Put y).l1Find y.cell y.asid y.va y.hyp = some y := by
  unfold MemSys.l1Put
  simp only [MemSys.l1Find, List.find?_append]
  rw [List.find?_eq_none.mpr (fun x hx => by simpa using (List.mem_filter.mp hx).2)]
  simp [y.is_self]

theorem MemSys.l1Put_mem (m : MemSys) (y : L1Line) : (m.l1Put y).mem = m.mem := by rw [MemSys.l1Put_eq]

theorem unbuffer_ok (t line : Nat) (mask : BitVec 64) (s : State) :
    ∃ u, unbuffer t line mask s = .ok () u ∧ MemoryOnly s u ∧ u.ms = s.ms ∧ u.pf = s.pf ∧ u.ws = s.ws ∧
      (∀ k, u.slot k = { s.slot k with wc := (u.slot k).wc }) := by
  refine ⟨_, rfl, MemoryOnly.setSlot rfl, rfl, rfl, rfl, fun k => ?_⟩
  rw [State.slot_setSlot]
  split
  · rename_i h; subst h; rfl
  · rfl

/-- A store at the root, into the L1 or at the home. -/
theorem storeLine_ok {ag : Agent} {t : Nat} {pa va n v : Nat} {cached : Bool} {s : State} (hr : s.hyps.eff ag.hyp = 0) (h0 : 0 < n)
    (hw : pa % 64 + n ≤ 64) (hi : s.noInjection) (hl : s.homeLives pa)
    (hh : s.heldLine (lineAddr pa) = false) (hc : s.ms.checkOf (lineAddr pa) ≠ .single)
    (hx1 : ∀ x, s.ms.l1Find ag.cell ag.asid (lineAddr va) 0 = some x → x.check ≠ .single) :
    ∃ u, storeLine ag (some t) (lineAddr pa) (lineAddr va) cached (lineOf (pa % 64) n v) (byteMask (pa % 64) n) s = .ok () u ∧
      MemoryOnly s u ∧ (cached = false → Wrote s u pa n v) ∧
      (cached = true → SameMemory s u ∧ ∃ x, u.ms.l1Find ag.cell ag.asid (lineAddr va) 0 = some x ∧
        x.data = mergeLine (((s.ms.l1Find ag.cell ag.asid (lineAddr va) 0).map (·.data)).getD 0) (lineOf (pa % 64) n v)
          (byteMask (pa % 64) n) ∧
        x.dirty = (((s.ms.l1Find ag.cell ag.asid (lineAddr va) 0).map (·.dirty)).getD 0) ||| byteMask (pa % 64) n ∧
        x.valid = (((s.ms.l1Find ag.cell ag.asid (lineAddr va) 0).map (·.valid)).getD 0) ||| byteMask (pa % 64) n) := by
  obtain ⟨w, hw1, hw2, hw3, hw4, hw5, -⟩ := unbuffer_ok t (lineAddr pa) (byteMask (pa % 64) n) s
  have hwi : w.noInjection := by intro d; rw [hw4]; exact hi d
  have hwl : w.homeLives pa := by intro h; rw [hw5] at h; have := hl h; simpa only [State.live, hw4] using this
  have hwh : w.heldLine (lineAddr pa) = false := by
    rw [← hh]; simp only [State.heldLine, hw2.hyps]
  have hwc : w.ms.checkOf (lineAddr pa) ≠ .single := by rw [hw3]; exact hc
  simp only [storeLine, run_bind, run_get, run_ite, hr, if_true, hw1]
  cases cached
  · obtain ⟨u, hu1, hu2, hu3, -⟩ := homeMerge_bytes (v := v) (own := none) (exempt := none) h0 hw hwl hwi hwc
    simp only [Bool.false_eq_true, if_false, run_awaitLine hwh]
    refine ⟨u, hu1, hw2.trans hu2, fun _ a => ?_, by simp⟩
    rw [hu3 a]
    simp only [State.byteAt, hw3]
  · simp only [if_true, l1Store, run_bind, run_get, hw3]
    cases hx : s.ms.l1Find ag.cell ag.asid (lineAddr va) 0 with
    | none =>
      simp only [run_bind, run_injected hwi, run_modMs, hw3]
      refine ⟨_, rfl, hw2.trans (MemoryOnly.with_ms _ _), by simp, fun _ => ⟨fun a => ?_, ⟨_, MemSys.l1Find_put _ _, ?_⟩⟩⟩
      · simp only [State.byteAt, MemSys.l1Put_mem]
      · simp
    | some x =>
      have hx' : x.cell = ag.cell ∧ x.asid = ag.asid ∧ x.va = lineAddr va ∧ x.hyp = 0 := by
        have := List.find?_some hx
        simpa [L1Line.is, and_assoc] using this
      obtain ⟨e1, e2, e3, e4⟩ := hx'
      simp only [run_bind, run_noteMerge (hx1 x hx), run_injected hwi, run_modMs, hw3]
      refine ⟨_, rfl, hw2.trans (MemoryOnly.with_ms _ _), by simp, fun _ => ⟨fun a => ?_, ?_⟩⟩
      · simp only [State.byteAt, MemSys.l1Put_mem]
      · have := MemSys.l1Find_put s.ms { x with data := mergeLine x.data (lineOf (pa % 64) n v) (byteMask (pa % 64) n), valid := x.valid ||| byteMask (pa % 64) n, dirty := x.dirty ||| byteMask (pa % 64) n, check := mergedCheck x.check (byteMask (pa % 64) n) }
        simp only [e1, e2, e3, e4] at this ⊢
        exact ⟨_, this, rfl, rfl, rfl⟩

theorem storePlace_ok {ag : Agent} {t : Nat} {pa va n v : Nat} {cached : Bool} {s : State} (h0 : 0 < n)
    (hn : n ≤ 8) (hw : pa % 64 + n ≤ 64) :
    storePlace ag (some t) (.mem pa va cached) n v s =
      storeLine ag (some t) (lineAddr pa) (lineAddr va) cached (lineOf (pa % 64) n v) (byteMask (pa % 64) n) s := by
  have k : min n (64 - pa % 64) = n := by omega
  have n0 : n ≠ 0 := by omega
  simp only [storePlace, storeLines, run_ite, n0, if_false, run_bind, k, Nat.sub_self, if_true]
  cases storeLine ag (some t) (lineAddr pa) (lineAddr va) cached (lineOf (pa % 64) n v) (byteMask (pa % 64) n) s <;> rfl

/-- At the root a store to memory needs no room (R317). -/
theorem reserveStore_ok {ag : Agent} {pa va n : Nat} {cached : Bool} {s : State} (h : s.hyps.eff ag.hyp = 0) :
    reserveStore ag (.mem pa va cached) n s = .ok () s := by
  simp only [reserveStore, reserveStores, eachM, residentPlace, State.withRooms, State.withRoom, h, run_bind, run_pure, run_get]
  rfl

/-! ### The state an instruction enters, at the root -/

theorem eff_zero (h : HypSys) : h.eff 0 = 0 := by simp [HypSys.eff, effFrom, HypSys.get]

theorem State.entered_hypId_root {s : State} {i : Instr} (h : s.atRoot) (ho : isOrphanPoint i = true) : ((s.entered i).slot s.cur).hypId = 0 := by
  have h' : s.hyps.eff (s.slot s.cur).hypId = 0 := h
  simp [State.entered, ho, State.setMe, State.me, h']

theorem State.entered_agent_hyp {s : State} {i : Instr} (h : s.atRoot) (ho : isOrphanPoint i = true) :
    (s.entered i).hyps.eff ((s.entered i).me.agent (s.entered i).cur).hyp = 0 := by
  have : ((s.entered i).me.agent (s.entered i).cur).hyp = 0 := by
    simpa [State.me, Slot.agent] using State.entered_hypId_root h ho
  rw [this, eff_zero]

theorem State.entered_noInjection {s : State} {i : Instr} (h : s.noInjection) : (s.entered i).noInjection := by
  intro d; rw [State.entered_pf]; exact h d

theorem State.entered_homeLives {s : State} {i : Instr} {pa : Nat} (h : s.homeLives pa) : (s.entered i).homeLives pa := by
  intro hp; rw [State.entered_ws] at hp; have := h hp; simpa [State.live] using this

theorem State.entered_byteAt (s : State) (i : Instr) (a : Nat) : (s.entered i).byteAt a = s.byteAt a := by simp [State.byteAt]

theorem State.entered_l1Of (s : State) (i : Instr) (va k : Nat) : (s.entered i).l1Of va k = s.l1Of va k := by simp [State.l1Of, State.me]

theorem access_mem_within {s : State} {use : WinUse} {va : Word} {n : Nat} {k : Acc} {pa v : Nat} {c : Bool} {tr : Option Trans}
    (ha : s.access use va n k = .ok (.mem pa v c, tr)) (hn : n = 1 ∨ n = 2 ∨ n = 4 ∨ n = 8) : pa % 64 + n ≤ 64 := by
  obtain ⟨-, h2, h3⟩ := checkPlace_ok ha
  rcases h3 with ⟨off, hq, -⟩ | ⟨t, ht, hq, -⟩
  · cases hq
  · cases hq; exact access_within (translatePlain_ok ht) (by rcases hn with rfl | rfl | rfl | rfl <;> decide) h2

theorem Wrote.mod {s u : State} {pa n v : Nat} (h : Wrote s u pa n (v % 2 ^ (8 * n))) : Wrote s u pa n v := by
  intro a
  rw [h a]
  split
  · rename_i hc
    apply BitVec.eq_of_getLsbD_eq
    intro i hi
    simp only [BitVec.getLsbD_ofNat, hi, decide_true, Bool.true_and, show (256:Nat) = 2 ^ 8 by rfl, ← Nat.pow_mul, Nat.testBit_div_two_pow, Nat.testBit_mod_two_pow]
    have : i + 8 * (a - pa) < 8 * n := by omega
    simp [this]
  · rfl

theorem lineOf_mod (off n v : Nat) : lineOf off n (v % 2 ^ (8 * n)) = lineOf off n v := by simp [lineOf]

/-! ### Releases, acquires and atomics in a quiet cell -/

/-- The state with other lines in the L1. -/
abbrev State.withL1 (s : State) (l1 : List L1Line) : State := { s with ms := { s.ms with l1 := l1 } }

theorem Stands.quiet {s : State} {l1 : List L1Line} {pa : Nat} (h : Stands l1 s.ms.l1) (hq : s.quiet pa) : (s.withL1 l1).quiet pa := by
  refine ⟨hq.1, fun x hx hc => ?_⟩
  obtain ⟨y, hy, e1, e2, e3, -⟩ := h x hx
  have := hq.2 y hy (by rw [← e1]; exact hc)
  rw [e2, e3]; exact this

theorem MemSys.l1Tidy_eq (m : MemSys) : m.l1Tidy = { m with l1 := m.l1Tidy.l1 } := rfl

theorem acquireLine_stands (x : L1Line) : (acquireLine x).cell = x.cell ∧ (acquireLine x).pa = x.pa ∧ (acquireLine x).dirty = x.dirty ∧
    (acquireLine x).va = x.va ∧ (acquireLine x).check = x.check := by
  unfold acquireLine; split <;> exact ⟨rfl, rfl, rfl, rfl, rfl⟩

/-- An acquire changes lines of the L1 alone. -/
theorem acquire_ok (s : State) : ∃ l1, Stands l1 s.ms.l1 ∧ acquire s = .ok () (s.withL1 l1) := by
  refine ⟨_, ?_, rfl⟩
  refine (Stands.filter _ _).trans (Stands.map _ _ fun x _ => ?_)
  split
  · exact acquireLine_stands x
  · exact ⟨rfl, rfl, rfl, rfl, rfl⟩

/-- Nothing of the cell is dirty and the task has nothing buffered. -/
def State.calm (s : State) : Prop := s.me.wc = [] ∧ ∀ x ∈ s.ms.l1, x.cell = cellOf s.cur → x.dirty = 0
theorem State.quiet_calm {s : State} {pa : Nat} (h : s.quiet pa) : s.calm := ⟨h.1, fun x hx hc => (h.2 x hx hc).1⟩

theorem Slot.wc_nil {x : Slot} (h : x.wc = []) : { x with wc := [] } = x := by cases x; cases h; rfl

theorem setSlot_self_eq {s : State} {t : Nat} {x : Slot} (h : x = s.slot t) (k : Nat) : (s.setSlot t x).slot k = s.slot k := by
  rw [State.slot_setSlot]; split
  · rename_i e; rw [h, e]
  · rfl

/-- A release in a calm cell changes nothing but lines of the L1; the slots read the same. -/
theorem release_ok {s : State} (hq : s.calm) : ∃ l1 sl, Stands l1 s.ms.l1 ∧ (∀ k, tblGet .empty sl k = s.slot k) ∧
    release s = .ok () { s.withL1 l1 with slots := sl } := by
  obtain ⟨hwc, hd⟩ := hq
  have hwc' : (s.slot s.cur).wc = [] := hwc
  have hdirty : (s.ms.l1.filter fun x => x.cell = cellOf s.cur && x.dirty ≠ 0) = [] := by
    rw [List.filter_eq_nil_iff]
    intro x hx
    by_cases hc : x.cell = cellOf s.cur
    · simp [hc, hd x hx hc]
    · simp [hc]
  have hf : releaseFault s (cellOf s.cur) [] = none := by
    have : (s.ms.l1.filter fun x => x.cell = cellOf s.cur && x.dirty ≠ 0 && !s.ws.reachable (pkgOf x.pa)) = [] := by
      rw [List.filter_eq_nil_iff]
      intro x hx
      by_cases hc : x.cell = cellOf s.cur
      · simp [hc, hd x hx hc]
      · simp [hc]
    simp only [releaseFault, this, List.map_nil, List.filter_nil, List.append_nil, List.head?_nil]
  have hh : s.releaseHeld (cellOf s.cur) [] = false := by
    simp only [State.releaseHeld, List.any_nil, Bool.or_false, List.any_eq_false]
    intro x hx
    by_cases hc : x.cell = cellOf s.cur
    · simp [hc, hd x hx hc]
    · simp [hc]
  simp only [release, releaseOf, run_bind, run_curId, run_get, hwc', hh, Bool.not_false, waitFor_true, run_pure, hf, performAll, hdirty, run_eachM_nil, run_modMs, run_modSlotAt]
  refine ⟨_, _, ?_, ?_, rfl⟩
  · refine (Stands.filter _ _).trans (Stands.map _ _ fun x hx => ?_)
    split
    · rename_i hc; exact absurd (hd x hx hc.1) hc.2
    · exact ⟨rfl, rfl, rfl, rfl, rfl⟩
  · intro k
    exact setSlot_self_eq (s := s) (Slot.wc_nil hwc') k

theorem releaseNow_ok {s : State} (hq : s.calm) (he : s.storesQueued s.cur = false) : ∃ l1 sl, Stands l1 s.ms.l1 ∧
    (∀ k, tblGet .empty sl k = s.slot k) ∧ releaseNow s = .ok () { s.withL1 l1 with slots := sl } := by
  obtain ⟨l1, sl, h1, h2, h3⟩ := release_ok hq
  exact ⟨l1, sl, h1, h2, by rw [releaseNow, run_bind, holdStores_ok he]; exact h3⟩

/-- The word of a quiet cell goes to its home without a write. -/
theorem wordToHome_ok {s : State} {pa n : Nat} (hq : s.quiet pa) (hh : s.heldLine (lineAddr pa) = false) : ∃ l1 sl, Stands l1 s.ms.l1 ∧
    (∀ k, tblGet .empty sl k = s.slot k) ∧ wordToHome pa n s = .ok () { s.withL1 l1 with slots := sl } := by
  obtain ⟨hwc, hd⟩ := hq
  have hwc' : (s.slot s.cur).wc = [] := hwc
  have hnone : ∀ x ∈ s.ms.l1, ¬(x.cell = cellOf s.cur ∧ x.pa = lineAddr pa ∧ x.hyp = 0) := by
    rintro x hx ⟨h1, h2, -⟩
    exact (hd x hx h1).2 h2
  have hf : (s.ms.l1.filter fun x => x.cell = cellOf s.cur && x.pa = lineAddr pa && x.hyp = 0) = [] := by
    rw [List.filter_eq_nil_iff]
    intro x hx
    have := hnone x hx
    simpa [and_assoc] using this
  have hh' : ∀ x, (s.setSlot s.cur x).heldLine (lineAddr pa) = false := fun _ => hh
  simp only [wordToHome, run_bind, run_awaitLine hh, flushWcWord, run_curId, run_curSlot, hwc', List.filter_nil, run_eachM_nil, run_modSlot, dropWord,
    run_awaitLine (hh' _), run_get, run_modMs, State.setSlot_cur, State.setSlot_ms, hf]
  refine ⟨_, _, ?_, ?_, rfl⟩
  · refine (Stands.filter _ _).trans (Stands.map _ _ fun x hx => ?_)
    split
    · rename_i hc; exact absurd hc (hnone x hx)
    · exact ⟨rfl, rfl, rfl, rfl, rfl⟩
  · intro k
    exact setSlot_self_eq (s := s) (Slot.wc_nil hwc') k

/-! ### What the access check looks at -/

/-- Two states that an access check cannot tell apart. -/
structure Alike (s u : State) : Prop where
  mem : u.ms.mem = s.ms.mem
  tlb : u.ms.tlb = s.ms.tlb
  walkCache : u.ms.walkCache = s.ms.walkCache
  region : u.ms.region = s.ms.region
  hyps : u.hyps = s.hyps
  ss : u.ss = s.ss
  ws : u.ws = s.ws
  pf : u.pf = s.pf

theorem Alike.withL1 (s : State) (l1 : List L1Line) (sl : Tbl Slot) : Alike s { s.withL1 l1 with slots := sl } :=
  ⟨rfl, rfl, rfl, rfl, rfl, rfl, rfl, rfl⟩

theorem Alike.trans {s t u : State} (h1 : Alike s t) (h2 : Alike t u) : Alike s u :=
  ⟨h2.mem.trans h1.mem, h2.tlb.trans h1.tlb, h2.walkCache.trans h1.walkCache, h2.region.trans h1.region, h2.hyps.trans h1.hyps, h2.ss.trans h1.ss,
   h2.ws.trans h1.ws, h2.pf.trans h1.pf⟩

theorem Alike.fabric {s u : State} (h : Alike s u) (a : Nat) : u.fabric a = s.fabric a := by simp only [State.fabric, h.ws]
theorem Alike.read {s u : State} (h : Alike s u) (a n : Nat) : u.ms.read a n = s.ms.read a n := by
  simp only [MemSys.read, h.mem]
theorem Alike.tableFault {s u : State} (h : Alike s u) (a : Nat) : tableFault u a = tableFault s a := by
  have e : u.live = s.live := by funext; simp only [State.live, h.pf]
  rw [Machine.tableFault, Machine.tableFault, e]
theorem Alike.tlbLookup {s u : State} (h : Alike s u) (ag : Agent) (va : Nat) : tlbLookup u ag va = tlbLookup s ag va := by
  simp only [Machine.tlbLookup, h.tlb]
theorem Alike.leafFault {s u : State} (h : Alike s u) (ag : Agent) (k : Acc) (va : Nat) (l : Leaf) :
    leafFault u ag k va l = leafFault s ag k va l := by
  simp only [Machine.leafFault, h.ws]
theorem Alike.placeFault {s u : State} (h : Alike s u) (b : Bool) (a : Nat) : placeFault u b a = placeFault s b a := by
  have e : u.homeLost a = s.homeLost a := by simp only [State.homeLost, State.live, h.pf, h.ws]
  have e2 : worldFails u b a = worldFails s b a := by simp only [worldFails, h.region]
  rw [Machine.placeFault, Machine.placeFault, e, e2, h.ws]

theorem Alike.walkSlot {s u : State} (h : Alike s u) (va level t : Nat) : walkSlot u va level t = walkSlot s va level t :=
  h.fabric _
theorem Alike.walkEntry {s u : State} (h : Alike s u) (va level t : Nat) : walkEntry u va level t = walkEntry s va level t := by
  simp only [Machine.walkEntry, h.walkSlot, h.read]
theorem Alike.walkLevel {s u : State} (h : Alike s u) (k : Acc) (va level t : Nat) :
    walkLevel u k va level t = walkLevel s k va level t := by
  unfold Machine.walkLevel
  simp only [h.walkSlot, h.tableFault, h.walkEntry]

theorem Alike.walkFrom {s u : State} (h : Alike s u) (k : Acc) (va n t : Nat) : walkFrom u k va n t = walkFrom s k va n t := by
  induction n generalizing t with
  | zero => rfl
  | succ n ih =>
    unfold Machine.walkFrom
    simp only [ih, h.walkLevel]

theorem Alike.walkStart {s u : State} (h : Alike s u) (d : Nat) (a : BitVec 16) (va : Nat) : walkStart u d a va = walkStart s d a va := by
  simp only [Machine.walkStart, h.walkCache]

theorem Alike.walk {s u : State} (h : Alike s u) (d : Nat) (a : BitVec 16) (k : Acc) (va : Nat) : walk u d a k va = walk s d a k va := by
  rw [Machine.walk, Machine.walk]
  simp only [h.walkFrom, h.walkStart, h.fabric, h.read, h.pf]

theorem Alike.translatePlain {s u : State} (h : Alike s u) (ag : Agent) (k : Acc) (va : Nat) :
    translatePlain u ag k va = translatePlain s ag k va := by
  rw [Machine.translatePlain, Machine.translatePlain]
  simp only [h.walk, h.tlbLookup, h.leafFault, h.placeFault, h.hyps]

theorem Alike.checkPlace {s u : State} (h : Alike s u) (ag : Agent) (use : WinUse) (va : Word) (n : Nat) (k : Acc) :
    checkPlace u ag use va n k = checkPlace s ag use va n k := by
  rw [Machine.checkPlace, Machine.checkPlace]
  simp only [h.translatePlain, h.hyps, h.ss]

/-! ### States that differ in lines of the L1 alone -/

/-- Two states that a task cannot tell apart but by which clean lines the L1 holds. -/
structure Same (s u : State) : Prop where
  alike : Alike s u
  only : MemoryOnly s u
  cur : u.cur = s.cur
  cores : u.cores = s.cores
  check : u.ms.check = s.ms.check
  slot : ∀ k, u.slot k = s.slot k
  stands : Stands u.ms.l1 s.ms.l1

theorem Same.refl (s : State) : Same s s :=
  ⟨⟨rfl, rfl, rfl, rfl, rfl, rfl, rfl, rfl⟩, .refl s, rfl, rfl, rfl, fun _ => rfl, .refl _⟩

theorem Same.trans {s t u : State} (h1 : Same s t) (h2 : Same t u) : Same s u :=
  ⟨h1.alike.trans h2.alike, h1.only.trans h2.only, h2.cur.trans h1.cur, h2.cores.trans h1.cores, h2.check.trans h1.check,
   fun k => (h2.slot k).trans (h1.slot k), h2.stands.trans h1.stands⟩

theorem Same.of {s : State} {l1 : List L1Line} {sl : Tbl Slot} (h1 : Stands l1 s.ms.l1) (h2 : ∀ k, tblGet .empty sl k = s.slot k) :
    Same s { s.withL1 l1 with slots := sl } := by
  refine ⟨Alike.withL1 s l1 sl, ⟨rfl, fun k => ?_⟩, rfl, rfl, rfl, h2, h1⟩
  have : State.slot { s.withL1 l1 with slots := sl } k = s.slot k := h2 k
  rw [this]

theorem Same.byteAt {s u : State} (h : Same s u) (a : Nat) : u.byteAt a = s.byteAt a := by simp only [State.byteAt, h.alike.mem]
theorem Same.sameMemory {s u : State} (h : Same s u) : SameMemory s u := h.byteAt
theorem Same.peek {s u : State} (h : Same s u) (a n : Nat) : u.peek a n = s.peek a n := h.alike.read a n
theorem Same.me {s u : State} (h : Same s u) : u.me = s.me := by simp only [State.me, h.cur, h.slot]
theorem Same.calm {s u : State} (h : Same s u) (hc : s.calm) : u.calm := by
  refine ⟨by rw [h.me]; exact hc.1, fun x hx he => ?_⟩
  obtain ⟨y, hy, e1, e2, e3, -⟩ := h.stands x hx
  rw [e3]; exact hc.2 y hy (by rw [← e1, he, h.cur])
theorem Same.quiet {s u : State} (h : Same s u) {pa : Nat} (hc : s.quiet pa) : u.quiet pa := by
  refine ⟨by rw [h.me]; exact hc.1, fun x hx he => ?_⟩
  obtain ⟨y, hy, e1, e2, e3, -⟩ := h.stands x hx
  rw [e2, e3]; exact hc.2 y hy (by rw [← e1, he, h.cur])
theorem Same.checkOf {s u : State} (h : Same s u) (line : Nat) : u.ms.checkOf line = s.ms.checkOf line := by
  simp only [MemSys.checkOf, h.check]
theorem Same.noInjection {s u : State} (h : Same s u) (hc : s.noInjection) : u.noInjection := by
  intro d; rw [h.alike.pf]; exact hc d
theorem Same.homeLives {s u : State} (h : Same s u) {pa : Nat} (hc : s.homeLives pa) : u.homeLives pa := by
  intro hp; rw [h.alike.ws] at hp; have := hc hp; simpa only [State.live, h.alike.pf] using this

theorem acquire_same (s : State) : ∃ u, Same s u ∧ acquire s = .ok () u := by
  obtain ⟨l1, h1, h2⟩ := acquire_ok s
  exact ⟨_, Same.of (sl := s.slots) h1 fun _ => rfl, h2⟩
theorem acqIf_same (o : AmoOrd) (s : State) : ∃ u, Same s u ∧ acqIf o s = .ok () u := by
  unfold acqIf; rw [run_ite]; split
  · exact acquire_same s
  · exact ⟨s, .refl s, rfl⟩
theorem releaseNow_same {s : State} (hq : s.calm) (he : s.storesQueued s.cur = false) : ∃ u, Same s u ∧ releaseNow s = .ok () u := by
  obtain ⟨l1, sl, h1, h2, h3⟩ := releaseNow_ok hq he
  exact ⟨_, Same.of h1 h2, h3⟩
theorem relIf_same {o : AmoOrd} {s : State} (hq : s.calm) (he : s.storesQueued s.cur = false) : ∃ u, Same s u ∧ relIf o s = .ok () u := by
  unfold relIf; rw [run_ite]; split
  · exact releaseNow_same hq he
  · exact ⟨s, .refl s, rfl⟩
theorem wordToHome_same {s : State} {pa n : Nat} (hq : s.quiet pa) (hh : s.heldLine (lineAddr pa) = false) : ∃ u, Same s u ∧ wordToHome pa n s = .ok () u := by
  obtain ⟨l1, sl, h1, h2, h3⟩ := wordToHome_ok (n := n) hq hh
  exact ⟨_, Same.of h1 h2, h3⟩

/-! ### The parts of an atomic -/

theorem hypWordCheck_ok {pa va n : Nat} {s : State} (h : (s.slot s.cur).hypId = 0) : hypWordCheck pa va n s = .ok () s := by
  have : s.hyps.chain 0 = [] := by simp [HypSys.chain, eff_zero, chainFrom]
  simp [hypWordCheck, Slot.agent, h, this]

theorem hypAtomicCheck_ok {s : State} (h : (s.slot s.cur).hypId = 0) (hi : (s.slot s.cur).impl = false) :
    hypAtomicCheck s = .ok () s := by
  have hu : s.underPlain (s.slot s.cur) = false := by simp [State.underPlain, State.effOf, h, eff_zero]
  simp [hypAtomicCheck, hu, hi]

theorem atomicRules_ok {pa va n : Nat} {s : State} (h : (s.slot s.cur).hypId = 0) (hi : (s.slot s.cur).impl = false) :
    atomicRules pa va n s = .ok () s := by
  rw [atomicRules, run_bind, hypAtomicCheck_ok h hi]; exact hypWordCheck_ok h

theorem markNonrev_ok {s : State} (h : (s.slot s.cur).regions = []) : markNonrev s = .ok () s := by
  simp [markNonrev, State.inOwnRegion, Slot.innermost, h]

theorem atomicPlace_ok {a : GReg} {n : Nat} {k : Acc} {s : State} {p : Place} {tr : Trans}
    (h : s.access .none (s.me.gval a) n k = .ok (p, some tr)) (hr : tr.rdies = 0) : atomicPlace a n k s = .ok tr s := by
  have h' : checkPlace s ((s.slot s.cur).agent s.cur) .none ((s.slot s.cur).gval a) n k = .ok (p, some tr) := h
  simp [atomicPlace, checkMem, checkAccessBy, h', hr]

theorem Same.access {s u : State} (h : Same s u) (use : WinUse) (va : Word) (n : Nat) (k : Acc) :
    u.access use va n k = s.access use va n k := by
  simp only [State.access, h.me, h.cur, h.alike.checkPlace]

theorem run_consumeHome {line : Nat} {s : State} (h : s.ms.checkOf line = .good) (hh : s.heldLine line = false) :
    consumeHome line s = .ok () s := by
  simp [consumeHome, curCtx, run_consumeHomeAs h hh]

theorem Same.heldLine {s u : State} (h : Same s u) (line : Nat) : u.heldLine line = s.heldLine line := by
  simp only [State.heldLine, h.alike.hyps]


theorem AmoWidth.bytes_cases (wd : AmoWidth) : wd.bytes = 1 ∨ wd.bytes = 2 ∨ wd.bytes = 4 ∨ wd.bytes = 8 := by
  cases wd <;> simp [AmoWidth.bytes]

/-- What the entered state shares, at the root in a quiet cell. -/
theorem enter_facts {s : State} {i : Instr} (h : s.runs i = true) (hl : isLss i = true) (hroot : s.atRoot) (hreg : s.noRegion) :
    (s.entered i).storesQueued (s.entered i).cur = false ∧ (∀ pa, s.quiet pa → (s.entered i).quiet pa) ∧
    ((s.entered i).slot (s.entered i).cur).hypId = 0 ∧ ((s.entered i).slot (s.entered i).cur).impl = false ∧
    ((s.entered i).slot (s.entered i).cur).regions = [] ∧ (s.calm → (s.entered i).calm) := by
  have hE : s.storesQueued s.cur = false := State.runs_stores h (by simp [hl])
  have ho : isOrphanPoint i = true := by simp [isOrphanPoint, hl]
  refine ⟨by simpa [State.storesQueued] using hE, fun pa hq => ⟨by simpa [State.me] using hq.1, fun x hx hcell => ?_⟩, ?_, ?_, ?_,
    fun hq => ⟨by simpa [State.me] using hq.1, fun x hx hcell => ?_⟩⟩
  · simp only [State.entered_ms, State.entered_cur] at hx hcell
    exact hq.2 x hx hcell
  · rw [State.entered_cur]; exact State.entered_hypId_root hroot ho
  · simpa using hreg.2
  · simpa using hreg.1
  · simp only [State.entered_ms, State.entered_cur] at hx hcell
    exact hq.2 x hx hcell

theorem access_trans_within {s : State} {va : Word} {n : Nat} {k : Acc} {p : Place} {tr : Trans}
    (ha : s.access .none va n k = .ok (p, some tr)) (hn : n = 1 ∨ n = 2 ∨ n = 4 ∨ n = 8) : tr.pa % 64 + n ≤ 64 := by
  obtain ⟨-, h2, h3⟩ := checkPlace_ok ha
  rcases h3 with ⟨off, hq, ht, -⟩ | ⟨t, ht, hq, htr⟩
  · cases ht
  · cases htr; exact access_within (translatePlain_ok ht) (by rcases hn with rfl | rfl | rfl | rfl <;> decide) h2

/-- A fill of a line that is sound at its home leaves in the L1 a line with every byte of the use valid, and memory as it was. -/
theorem l1Fill_ok {s : State} {ctx cell : Nat} {asid : BitVec 16} {line va : Nat} {use : BitVec 64} (hc : s.ms.checkOf line = .good)
    (hh : s.heldLine line = false) :
    ∃ y m, l1Fill ctx cell asid line va use s = .ok y { s with ms := m } ∧ use &&& ~~~y.valid = 0 ∧
      m = { s.ms with l1 := m.l1 } ∧ m.l1Find cell asid va 0 = some y := by
  have hall : use &&& ~~~allBytes = 0 := by simp [allBytes]
  rw [l1Fill, run_bind, run_get]
  cases hx : s.ms.l1Find cell asid va 0 with
  | none =>
    simp only [hx, run_bind, run_consumeHomeAs hc hh, run_get, run_modMs, run_pure]
    exact ⟨_, _, rfl, hall, MemSys.l1Put_eq _ _, MemSys.l1Find_put s.ms _⟩
  | some x =>
    have hx' : x.cell = cell ∧ x.asid = asid ∧ x.va = va ∧ x.hyp = 0 := by
      have := List.find?_some hx
      simpa [L1Line.is, and_assoc] using this
    by_cases hv : use &&& ~~~x.valid = 0
    · simp only [hx, hv, if_true, run_pure]
      exact ⟨_, s.ms, rfl, hv, rfl, hx⟩
    · simp only [hx, hv, if_false, run_bind, run_consumeHomeAs hc hh, run_get, run_modMs, run_pure]
      refine ⟨_, _, rfl, hall, MemSys.l1Put_eq _ _, ?_⟩
      have := MemSys.l1Find_put s.ms { x with data := mergeLine (s.ms.homeLine line) x.data x.kept, valid := allBytes }
      simpa only [hx'.1, hx'.2.1, hx'.2.2.1, hx'.2.2.2] using this

/-! ### CANCEL pending -/

theorem Alike.sysTranslate {s u : State} (h : Alike s u) (asid : BitVec 16) (va : Nat) (k : Acc) :
    u.sysTranslate asid va k = s.sysTranslate asid va k := by
  unfold State.sysTranslate
  simp only [h.translatePlain]

theorem Alike.cancelledFrom {s u : State} (h : Alike s u) (n rec_ : Nat) : cancelledFrom u n rec_ = cancelledFrom s n rec_ := by
  induction n generalizing rec_ with
  | zero => rfl
  | succ n ih =>
    have e1 : ∀ a n, u.peek a n = s.peek a n := fun a n => h.read a n
    have e2 : u.recParent rec_ = s.recParent rec_ := by simp only [State.recParent, State.recAsid, e1, h.sysTranslate]
    have e3 : u.recCancel rec_ = s.recCancel rec_ := by simp only [State.recCancel, e1]
    rw [Machine.cancelledFrom, Machine.cancelledFrom, e2, e3]
    cases s.recParent rec_ with
    | none => rfl
    | some p => simp only [ih]

theorem Alike.setSlot (s : State) (t : Nat) (x : Slot) : Alike s (s.setSlot t x) := ⟨rfl, rfl, rfl, rfl, rfl, rfl, rfl, rfl⟩

/-- Whether CANCEL is pending does not change with what a slot holds besides its launch and the CANCELLED bit. -/
theorem cancelPending_setSlot (s : State) (t u : Nat) (x : Slot) (h1 : x.cancelled = (s.slot t).cancelled)
    (h2 : x.launch = (s.slot t).launch) : (s.setSlot t x).cancelPending u = s.cancelPending u := by
  have e1 : ((s.setSlot t x).slot u).cancelled = (s.slot u).cancelled := by
    rw [State.slot_setSlot]; split
    · rename_i h; rw [h, h1]
    · rfl
  have e2 : ((s.setSlot t x).slot u).launch = (s.slot u).launch := by
    rw [State.slot_setSlot]; split
    · rename_i h; rw [h, h2]
    · rfl
  have e3 : ∀ n, (s.setSlot t x).launch? n = s.launch? n := fun _ => rfl
  simp only [State.cancelPending, State.launchCancelled, State.recCancelled, e1, e2, e3, (Alike.setSlot s t x).cancelledFrom]

theorem cancelPending_entered (s : State) (i : Instr) (u : Nat) : (s.entered i).cancelPending u = s.cancelPending u := by
  unfold State.entered
  split
  · exact cancelPending_setSlot _ _ _ _ rfl rfl
  · rfl

end Sys2Proof.Machine
end

