-- ==== Sys2Proof/Laws/Dispatch.lean ====
section
/-!
SUPPORT. What `exec` calls for each instruction.
-/

namespace Sys2Proof.Machine

set_option Elab.async false

theorem exec_add (d : GReg) (a : GReg) (b : GReg) (s : State) : exec (.add d a b) s = execAdd d a b s := rfl
theorem exec_sub (d : GReg) (a : GReg) (b : GReg) (s : State) : exec (.sub d a b) s = execSub d a b s := rfl
theorem exec_mul (d : GReg) (a : GReg) (b : GReg) (s : State) : exec (.mul d a b) s = execMul d a b s := rfl
theorem exec_mulh (d : GReg) (a : GReg) (b : GReg) (s : State) : exec (.mulh d a b) s = execMulh d a b s := rfl
theorem exec_mulhn (d : GReg) (a : GReg) (b : GReg) (s : State) : exec (.mulhn d a b) s = execMulhn d a b s := rfl
theorem exec_div (d : GReg) (a : GReg) (b : GReg) (s : State) : exec (.div d a b) s = execDiv d a b s := rfl
theorem exec_divn (d : GReg) (a : GReg) (b : GReg) (s : State) : exec (.divn d a b) s = execDivn d a b s := rfl
theorem exec_rem (d : GReg) (a : GReg) (b : GReg) (s : State) : exec (.rem d a b) s = execRem d a b s := rfl
theorem exec_remn (d : GReg) (a : GReg) (b : GReg) (s : State) : exec (.remn d a b) s = execRemn d a b s := rfl
theorem exec_and (d : GReg) (a : GReg) (b : GReg) (s : State) : exec (.and d a b) s = execAnd d a b s := rfl
theorem exec_or (d : GReg) (a : GReg) (b : GReg) (s : State) : exec (.or d a b) s = execOr d a b s := rfl
theorem exec_xor (d : GReg) (a : GReg) (b : GReg) (s : State) : exec (.xor d a b) s = execXor d a b s := rfl
theorem exec_andn (d : GReg) (a : GReg) (b : GReg) (s : State) : exec (.andn d a b) s = execAndn d a b s := rfl
theorem exec_orn (d : GReg) (a : GReg) (b : GReg) (s : State) : exec (.orn d a b) s = execOrn d a b s := rfl
theorem exec_sll (d : GReg) (a : GReg) (b : GReg) (s : State) : exec (.sll d a b) s = execSll d a b s := rfl
theorem exec_srl (d : GReg) (a : GReg) (b : GReg) (s : State) : exec (.srl d a b) s = execSrl d a b s := rfl
theorem exec_sra (d : GReg) (a : GReg) (b : GReg) (s : State) : exec (.sra d a b) s = execSra d a b s := rfl
theorem exec_rol (d : GReg) (a : GReg) (b : GReg) (s : State) : exec (.rol d a b) s = execRol d a b s := rfl
theorem exec_ror (d : GReg) (a : GReg) (b : GReg) (s : State) : exec (.ror d a b) s = execRor d a b s := rfl
theorem exec_min (d : GReg) (a : GReg) (b : GReg) (s : State) : exec (.min d a b) s = execMin d a b s := rfl
theorem exec_max (d : GReg) (a : GReg) (b : GReg) (s : State) : exec (.max d a b) s = execMax d a b s := rfl
theorem exec_minn (d : GReg) (a : GReg) (b : GReg) (s : State) : exec (.minn d a b) s = execMinn d a b s := rfl
theorem exec_maxn (d : GReg) (a : GReg) (b : GReg) (s : State) : exec (.maxn d a b) s = execMaxn d a b s := rfl
theorem exec_slt (d : GReg) (a : GReg) (b : GReg) (s : State) : exec (.slt d a b) s = execSlt d a b s := rfl
theorem exec_sltn (d : GReg) (a : GReg) (b : GReg) (s : State) : exec (.sltn d a b) s = execSltn d a b s := rfl
theorem exec_sel (d : GReg) (a : GReg) (b : GReg) (c : GReg) (s : State) : exec (.sel d a b c) s = execSel d a b c s := rfl
theorem exec_clz (d : GReg) (a : GReg) (s : State) : exec (.clz d a) s = execClz d a s := rfl
theorem exec_ctz (d : GReg) (a : GReg) (s : State) : exec (.ctz d a) s = execCtz d a s := rfl
theorem exec_popc (d : GReg) (a : GReg) (s : State) : exec (.popc d a) s = execPopc d a s := rfl
theorem exec_brev (d : GReg) (a : GReg) (s : State) : exec (.brev d a) s = execBrev d a s := rfl
theorem exec_bfx (d : GReg) (a : GReg) (b : GReg) (s : State) : exec (.bfx d a b) s = execBfx d a b s := rfl
theorem exec_bfi (d : GReg) (a : GReg) (b : GReg) (s : State) : exec (.bfi d a b) s = execBfi d a b s := rfl
theorem exec_clmul (d : GReg) (a : GReg) (b : GReg) (s : State) : exec (.clmul d a b) s = execClmul d a b s := rfl
theorem exec_clmulh (d : GReg) (a : GReg) (b : GReg) (s : State) : exec (.clmulh d a b) s = execClmulh d a b s := rfl
theorem exec_addi (d : GReg) (a : GReg) (imm : BitVec 14) (s : State) : exec (.addi d a imm) s = execAddi d a imm s := rfl
theorem exec_andi (d : GReg) (a : GReg) (imm : BitVec 14) (s : State) : exec (.andi d a imm) s = execAndi d a imm s := rfl
theorem exec_ori (d : GReg) (a : GReg) (imm : BitVec 14) (s : State) : exec (.ori d a imm) s = execOri d a imm s := rfl
theorem exec_xori (d : GReg) (a : GReg) (imm : BitVec 14) (s : State) : exec (.xori d a imm) s = execXori d a imm s := rfl
theorem exec_slli (d : GReg) (a : GReg) (sh : BitVec 6) (s : State) : exec (.slli d a sh) s = execSlli d a sh s := rfl
theorem exec_srli (d : GReg) (a : GReg) (sh : BitVec 6) (s : State) : exec (.srli d a sh) s = execSrli d a sh s := rfl
theorem exec_srai (d : GReg) (a : GReg) (sh : BitVec 6) (s : State) : exec (.srai d a sh) s = execSrai d a sh s := rfl
theorem exec_slti (d : GReg) (a : GReg) (imm : BitVec 14) (s : State) : exec (.slti d a imm) s = execSlti d a imm s := rfl
theorem exec_lui (j : BitVec 3) (imm : BitVec 23) (s : State) : exec (.lui j imm) s = execLui j imm s := rfl
theorem exec_addpc (j : BitVec 3) (imm : BitVec 23) (s : State) : exec (.addpc j imm) s = execAddpc j imm s := rfl
theorem exec_beq (a : GReg) (b : GReg) (off : BitVec 14) (s : State) : exec (.beq a b off) s = execBeq a b off s := rfl
theorem exec_bne (a : GReg) (b : GReg) (off : BitVec 14) (s : State) : exec (.bne a b off) s = execBne a b off s := rfl
theorem exec_blt (a : GReg) (b : GReg) (off : BitVec 14) (s : State) : exec (.blt a b off) s = execBlt a b off s := rfl
theorem exec_bge (a : GReg) (b : GReg) (off : BitVec 14) (s : State) : exec (.bge a b off) s = execBge a b off s := rfl
theorem exec_bltn (a : GReg) (b : GReg) (off : BitVec 14) (s : State) : exec (.bltn a b off) s = execBltn a b off s := rfl
theorem exec_bgen (a : GReg) (b : GReg) (off : BitVec 14) (s : State) : exec (.bgen a b off) s = execBgen a b off s := rfl
theorem exec_jal (j : BitVec 3) (imm : BitVec 23) (s : State) : exec (.jal j imm) s = execJal j imm s := rfl
theorem exec_jalr (d : GReg) (a : GReg) (imm : BitVec 14) (s : State) : exec (.jalr d a imm) s = execJalr d a imm s := rfl
theorem exec_ldB (d : GReg) (a : GReg) (imm : BitVec 14) (s : State) : exec (.ldB d a imm) s = execLdB d a imm s := rfl
theorem exec_ldH (d : GReg) (a : GReg) (imm : BitVec 14) (s : State) : exec (.ldH d a imm) s = execLdH d a imm s := rfl
theorem exec_ldW (d : GReg) (a : GReg) (imm : BitVec 14) (s : State) : exec (.ldW d a imm) s = execLdW d a imm s := rfl
theorem exec_ldD (d : GReg) (a : GReg) (imm : BitVec 14) (s : State) : exec (.ldD d a imm) s = execLdD d a imm s := rfl
theorem exec_ldBn (d : GReg) (a : GReg) (imm : BitVec 14) (s : State) : exec (.ldBn d a imm) s = execLdBn d a imm s := rfl
theorem exec_ldHn (d : GReg) (a : GReg) (imm : BitVec 14) (s : State) : exec (.ldHn d a imm) s = execLdHn d a imm s := rfl
theorem exec_ldWn (d : GReg) (a : GReg) (imm : BitVec 14) (s : State) : exec (.ldWn d a imm) s = execLdWn d a imm s := rfl
theorem exec_ldacqW (d : GReg) (a : GReg) (imm : BitVec 14) (s : State) : exec (.ldacqW d a imm) s = execLdacqW d a imm s := rfl
theorem exec_ldacqD (d : GReg) (a : GReg) (imm : BitVec 14) (s : State) : exec (.ldacqD d a imm) s = execLdacqD d a imm s := rfl
theorem exec_ldntD (d : GReg) (a : GReg) (imm : BitVec 14) (s : State) : exec (.ldntD d a imm) s = execLdntD d a imm s := rfl
theorem exec_stB (d : GReg) (a : GReg) (imm : BitVec 14) (s : State) : exec (.stB d a imm) s = execStB d a imm s := rfl
theorem exec_stH (d : GReg) (a : GReg) (imm : BitVec 14) (s : State) : exec (.stH d a imm) s = execStH d a imm s := rfl
theorem exec_stW (d : GReg) (a : GReg) (imm : BitVec 14) (s : State) : exec (.stW d a imm) s = execStW d a imm s := rfl
theorem exec_stD (d : GReg) (a : GReg) (imm : BitVec 14) (s : State) : exec (.stD d a imm) s = execStD d a imm s := rfl
theorem exec_strelW (d : GReg) (a : GReg) (imm : BitVec 14) (s : State) : exec (.strelW d a imm) s = execStrelW d a imm s := rfl
theorem exec_strelD (d : GReg) (a : GReg) (imm : BitVec 14) (s : State) : exec (.strelD d a imm) s = execStrelD d a imm s := rfl
theorem exec_stntD (d : GReg) (a : GReg) (imm : BitVec 14) (s : State) : exec (.stntD d a imm) s = execStntD d a imm s := rfl
theorem exec_mstoreW (d : GReg) (a : GReg) (imm : BitVec 14) (s : State) : exec (.mstoreW d a imm) s = execMstoreW d a imm s := rfl
theorem exec_mstoreD (d : GReg) (a : GReg) (imm : BitVec 14) (s : State) : exec (.mstoreD d a imm) s = execMstoreD d a imm s := rfl
theorem exec_amoadd (d : GReg) (a : GReg) (b : GReg) (width : AmoWidth) (ord : AmoOrd) (s : State) : exec (.amoadd d a b width ord) s = execAmoadd d a b width ord s := rfl
theorem exec_amoand (d : GReg) (a : GReg) (b : GReg) (width : AmoWidth) (ord : AmoOrd) (s : State) : exec (.amoand d a b width ord) s = execAmoand d a b width ord s := rfl
theorem exec_amoor (d : GReg) (a : GReg) (b : GReg) (width : AmoWidth) (ord : AmoOrd) (s : State) : exec (.amoor d a b width ord) s = execAmoor d a b width ord s := rfl
theorem exec_amoxor (d : GReg) (a : GReg) (b : GReg) (width : AmoWidth) (ord : AmoOrd) (s : State) : exec (.amoxor d a b width ord) s = execAmoxor d a b width ord s := rfl
theorem exec_amomin (d : GReg) (a : GReg) (b : GReg) (width : AmoWidth) (ord : AmoOrd) (s : State) : exec (.amomin d a b width ord) s = execAmomin d a b width ord s := rfl
theorem exec_amomax (d : GReg) (a : GReg) (b : GReg) (width : AmoWidth) (ord : AmoOrd) (s : State) : exec (.amomax d a b width ord) s = execAmomax d a b width ord s := rfl
theorem exec_amominn (d : GReg) (a : GReg) (b : GReg) (width : AmoWidth) (ord : AmoOrd) (s : State) : exec (.amominn d a b width ord) s = execAmominn d a b width ord s := rfl
theorem exec_amomaxn (d : GReg) (a : GReg) (b : GReg) (width : AmoWidth) (ord : AmoOrd) (s : State) : exec (.amomaxn d a b width ord) s = execAmomaxn d a b width ord s := rfl
theorem exec_amoswap (d : GReg) (a : GReg) (b : GReg) (width : AmoWidth) (ord : AmoOrd) (s : State) : exec (.amoswap d a b width ord) s = execAmoswap d a b width ord s := rfl
theorem exec_amocas (d : GReg) (a : GReg) (b : GReg) (width : AmoWidth) (ord : AmoOrd) (s : State) : exec (.amocas d a b width ord) s = execAmocas d a b width ord s := rfl
theorem exec_lr (d : GReg) (a : GReg) (width : AmoWidth) (ord : AmoOrd) (s : State) : exec (.lr d a width ord) s = execLr d a width ord s := rfl
theorem exec_sc (d : GReg) (a : GReg) (b : GReg) (width : AmoWidth) (ord : AmoOrd) (s : State) : exec (.sc d a b width ord) s = execSc d a b width ord s := rfl
theorem exec_wrs (d : GReg) (a : GReg) (b : GReg) (width : AmoWidth) (s : State) : exec (.wrs d a b width) s = execWrs d a b width s := rfl
theorem exec_fenceAcq (s : State) : exec .fenceAcq s = execFenceAcq s := rfl
theorem exec_fenceRel (s : State) : exec .fenceRel s = execFenceRel s := rfl
theorem exec_fenceSc (s : State) : exec .fenceSc s = execFenceSc s := rfl
theorem exec_afence (s : State) : exec .afence s = execAfence s := rfl
theorem exec_pref (a : GReg) (s : State) : exec (.pref a) s = execPref a s := rfl
theorem exec_spawn (d : GReg) (a : GReg) (b : GReg) (cell : Bool) (s : State) : exec (.spawn d a b cell) s = execSpawn d a b cell s := rfl
theorem exec_quit (s : State) : exec .quit s = execQuit s := rfl
theorem exec_yield (n : BitVec 16) (gm : GReg) (s : State) : exec (.yield n gm) s = execYield n gm s := rfl
theorem exec_depsig (a : GReg) (s : State) : exec (.depsig a) s = execDepsig a s := rfl
theorem exec_cancel (a : GReg) (level : CancelLevel) (s : State) : exec (.cancel a level) s = execCancel a level s := rfl
theorem exec_trap (n : BitVec 7) (s : State) : exec (.trap n) s = execTrap n s := rfl
theorem exec_tret (s : State) : exec .tret s = execTret s := rfl
theorem exec_cget (d : GReg) (reg : CtlReg) (s : State) : exec (.cget d reg) s = execCget d reg s := rfl
theorem exec_cgetFpFlags (d : GReg) (s : State) : exec (.cgetFpFlags d) s = execCgetFpFlags d s := rfl
theorem exec_cset (d : GReg) (reg : CtlReg) (s : State) : exec (.cset d reg) s = execCset d reg s := rfl
theorem exec_csetChanIn (d : GReg) (s : State) : exec (.csetChanIn d) s = execCsetChanIn d s := rfl
theorem exec_csetChanOut (d : GReg) (s : State) : exec (.csetChanOut d) s = execCsetChanOut d s := rfl
theorem exec_inval (a : GReg) (b : GReg) (s : State) : exec (.inval a b) s = execInval a b s := rfl
theorem exec_vadd (t : ElemType) (d : VReg) (a : VReg) (b : VReg) (m : MReg) (s : State) : exec (.vadd t d a b m) s = execVadd t d a b m s := rfl
theorem exec_vsub (t : ElemType) (d : VReg) (a : VReg) (b : VReg) (m : MReg) (s : State) : exec (.vsub t d a b m) s = execVsub t d a b m s := rfl
theorem exec_vmul (t : ElemType) (d : VReg) (a : VReg) (b : VReg) (m : MReg) (s : State) : exec (.vmul t d a b m) s = execVmul t d a b m s := rfl
theorem exec_vfma (t : ElemType) (d : VReg) (a : VReg) (b : VReg) (m : MReg) (s : State) : exec (.vfma t d a b m) s = execVfma t d a b m s := rfl
theorem exec_vfms (t : ElemType) (d : VReg) (a : VReg) (b : VReg) (m : MReg) (s : State) : exec (.vfms t d a b m) s = execVfms t d a b m s := rfl
theorem exec_vfnma (t : ElemType) (d : VReg) (a : VReg) (b : VReg) (m : MReg) (s : State) : exec (.vfnma t d a b m) s = execVfnma t d a b m s := rfl
theorem exec_vmin (t : ElemType) (d : VReg) (a : VReg) (b : VReg) (m : MReg) (s : State) : exec (.vmin t d a b m) s = execVmin t d a b m s := rfl
theorem exec_vmax (t : ElemType) (d : VReg) (a : VReg) (b : VReg) (m : MReg) (s : State) : exec (.vmax t d a b m) s = execVmax t d a b m s := rfl
theorem exec_vabs (t : ElemType) (d : VReg) (a : VReg) (m : MReg) (s : State) : exec (.vabs t d a m) s = execVabs t d a m s := rfl
theorem exec_vneg (t : ElemType) (d : VReg) (a : VReg) (m : MReg) (s : State) : exec (.vneg t d a m) s = execVneg t d a m s := rfl
theorem exec_vrcp (t : ElemType) (d : VReg) (a : VReg) (m : MReg) (s : State) : exec (.vrcp t d a m) s = execVrcp t d a m s := rfl
theorem exec_vrsqrt (t : ElemType) (d : VReg) (a : VReg) (m : MReg) (s : State) : exec (.vrsqrt t d a m) s = execVrsqrt t d a m s := rfl
theorem exec_vexp2 (t : ElemType) (d : VReg) (a : VReg) (m : MReg) (s : State) : exec (.vexp2 t d a m) s = execVexp2 t d a m s := rfl
theorem exec_vlog2 (t : ElemType) (d : VReg) (a : VReg) (m : MReg) (s : State) : exec (.vlog2 t d a m) s = execVlog2 t d a m s := rfl
theorem exec_vtanh (t : ElemType) (d : VReg) (a : VReg) (m : MReg) (s : State) : exec (.vtanh t d a m) s = execVtanh t d a m s := rfl
theorem exec_vand (t : ElemType) (d : VReg) (a : VReg) (b : VReg) (m : MReg) (s : State) : exec (.vand t d a b m) s = execVand t d a b m s := rfl
theorem exec_vor (t : ElemType) (d : VReg) (a : VReg) (b : VReg) (m : MReg) (s : State) : exec (.vor t d a b m) s = execVor t d a b m s := rfl
theorem exec_vxor (t : ElemType) (d : VReg) (a : VReg) (b : VReg) (m : MReg) (s : State) : exec (.vxor t d a b m) s = execVxor t d a b m s := rfl
theorem exec_vnot (t : ElemType) (d : VReg) (a : VReg) (m : MReg) (s : State) : exec (.vnot t d a m) s = execVnot t d a m s := rfl
theorem exec_vshl (t : ElemType) (d : VReg) (a : VReg) (b : VReg) (m : MReg) (s : State) : exec (.vshl t d a b m) s = execVshl t d a b m s := rfl
theorem exec_vshr (t : ElemType) (d : VReg) (a : VReg) (b : VReg) (m : MReg) (s : State) : exec (.vshr t d a b m) s = execVshr t d a b m s := rfl
theorem exec_vsra (t : ElemType) (d : VReg) (a : VReg) (b : VReg) (m : MReg) (s : State) : exec (.vsra t d a b m) s = execVsra t d a b m s := rfl
theorem exec_vcmp (t : ElemType) (cond : VcmpCond) (k : MReg) (a : VReg) (b : VReg) (m : MReg) (s : State) : exec (.vcmp t cond k a b m) s = execVcmp t cond k a b m s := rfl
theorem exec_vsel (t : ElemType) (d : VReg) (a : VReg) (b : VReg) (m : MReg) (s : State) : exec (.vsel t d a b m) s = execVsel t d a b m s := rfl
theorem exec_vcvt (t : ElemType) (d : VReg) (a : VReg) (src : ElemType) (m : MReg) (s : State) : exec (.vcvt t d a src m) s = execVcvt t d a src m s := rfl
theorem exec_vwcvt (t : ElemType) (d : VReg) (a : VReg) (src : ElemType) (m : MReg) (s : State) : exec (.vwcvt t d a src m) s = execVwcvt t d a src m s := rfl
theorem exec_vwmul (t : ElemType) (d : VReg) (a : VReg) (b : VReg) (m : MReg) (s : State) : exec (.vwmul t d a b m) s = execVwmul t d a b m s := rfl
theorem exec_vwadd (t : ElemType) (d : VReg) (a : VReg) (b : VReg) (m : MReg) (s : State) : exec (.vwadd t d a b m) s = execVwadd t d a b m s := rfl
theorem exec_vnarrow (t : ElemType) (d : VReg) (a : VReg) (m : MReg) (s : State) : exec (.vnarrow t d a m) s = execVnarrow t d a m s := rfl
theorem exec_vredsum (t : ElemType) (d : VReg) (a : VReg) (b : VReg) (m : MReg) (s : State) : exec (.vredsum t d a b m) s = execVredsum t d a b m s := rfl
theorem exec_vredmax (t : ElemType) (d : VReg) (a : VReg) (b : VReg) (m : MReg) (s : State) : exec (.vredmax t d a b m) s = execVredmax t d a b m s := rfl
theorem exec_vredmin (t : ElemType) (d : VReg) (a : VReg) (b : VReg) (m : MReg) (s : State) : exec (.vredmin t d a b m) s = execVredmin t d a b m s := rfl
theorem exec_vscan (t : ElemType) (d : VReg) (a : VReg) (b : GReg) (m : MReg) (s : State) : exec (.vscan t d a b m) s = execVscan t d a b m s := rfl
theorem exec_vxscan (t : ElemType) (d : VReg) (a : VReg) (b : GReg) (m : MReg) (s : State) : exec (.vxscan t d a b m) s = execVxscan t d a b m s := rfl
theorem exec_vclmul (t : ElemType) (d : VReg) (a : VReg) (b : VReg) (m : MReg) (s : State) : exec (.vclmul t d a b m) s = execVclmul t d a b m s := rfl
theorem exec_vperm (t : ElemType) (d : VReg) (a : VReg) (b : VReg) (m : MReg) (s : State) : exec (.vperm t d a b m) s = execVperm t d a b m s := rfl
theorem exec_vslide (t : ElemType) (d : VReg) (a : VReg) (b : GReg) (m : MReg) (s : State) : exec (.vslide t d a b m) s = execVslide t d a b m s := rfl
theorem exec_vbcast (t : ElemType) (d : VReg) (a : GReg) (m : MReg) (s : State) : exec (.vbcast t d a m) s = execVbcast t d a m s := rfl
theorem exec_viota (t : ElemType) (d : VReg) (m : MReg) (s : State) : exec (.viota t d m) s = execViota t d m s := rfl
theorem exec_vcompress (t : ElemType) (d : VReg) (a : VReg) (m : MReg) (s : State) : exec (.vcompress t d a m) s = execVcompress t d a m s := rfl
theorem exec_vexpand (t : ElemType) (d : VReg) (a : VReg) (m : MReg) (s : State) : exec (.vexpand t d a m) s = execVexpand t d a m s := rfl
theorem exec_vmovg (t : ElemType) (d : GReg) (a : VReg) (b : GReg) (s : State) : exec (.vmovg t d a b) s = execVmovg t d a b s := rfl
theorem exec_vmovxTov (d : VReg) (a : MReg) (s : State) : exec (.vmovxTov d a) s = execVmovxTov d a s := rfl
theorem exec_vmovxTom (d : MReg) (a : VReg) (s : State) : exec (.vmovxTom d a) s = execVmovxTom d a s := rfl
theorem exec_vpmerge (d : VReg) (a : VReg) (b : VReg) (m : MReg) (s : State) : exec (.vpmerge d a b m) s = execVpmerge d a b m s := rfl
theorem exec_vnoise (d : VReg) (a : GReg) (b : GReg) (m : MReg) (s : State) : exec (.vnoise d a b m) s = execVnoise d a b m s := rfl
theorem exec_vamax (d : GReg) (a : VReg) (b : GReg) (m : MReg) (s : State) : exec (.vamax d a b m) s = execVamax d a b m s := rfl
theorem exec_kand (d : MReg) (a : MReg) (b : MReg) (s : State) : exec (.kand d a b) s = execKand d a b s := rfl
theorem exec_kor (d : MReg) (a : MReg) (b : MReg) (s : State) : exec (.kor d a b) s = execKor d a b s := rfl
theorem exec_kxor (d : MReg) (a : MReg) (b : MReg) (s : State) : exec (.kxor d a b) s = execKxor d a b s := rfl
theorem exec_knot (d : MReg) (a : MReg) (s : State) : exec (.knot d a) s = execKnot d a s := rfl
theorem exec_kpopc (d : GReg) (a : MReg) (s : State) : exec (.kpopc d a) s = execKpopc d a s := rfl
theorem exec_kfirst (d : GReg) (a : MReg) (s : State) : exec (.kfirst d a) s = execKfirst d a s := rfl
theorem exec_vaddSat (t : ElemType) (d : VReg) (a : VReg) (b : VReg) (m : MReg) (s : State) : exec (.vaddSat t d a b m) s = execVaddSat t d a b m s := rfl
theorem exec_vsubSat (t : ElemType) (d : VReg) (a : VReg) (b : VReg) (m : MReg) (s : State) : exec (.vsubSat t d a b m) s = execVsubSat t d a b m s := rfl
theorem exec_vmulSat (t : ElemType) (d : VReg) (a : VReg) (b : VReg) (m : MReg) (s : State) : exec (.vmulSat t d a b m) s = execVmulSat t d a b m s := rfl
theorem exec_vnarrowSat (t : ElemType) (d : VReg) (a : VReg) (m : MReg) (s : State) : exec (.vnarrowSat t d a m) s = execVnarrowSat t d a m s := rfl
theorem exec_vld (t : ElemType) (d : VReg) (a : GReg) (m : MReg) (s : State) : exec (.vld t d a m) s = execVld t d a m s := rfl
theorem exec_vst (t : ElemType) (d : VReg) (a : GReg) (m : MReg) (s : State) : exec (.vst t d a m) s = execVst t d a m s := rfl
theorem exec_vldg (t : ElemType) (d : VReg) (a : GReg) (b : GReg) (m : MReg) (s : State) : exec (.vldg t d a b m) s = execVldg t d a b m s := rfl
theorem exec_vstg (t : ElemType) (d : VReg) (a : GReg) (b : GReg) (m : MReg) (s : State) : exec (.vstg t d a b m) s = execVstg t d a b m s := rfl
theorem exec_vgather (t : ElemType) (d : VReg) (a : GReg) (b : VReg) (m : MReg) (s : State) : exec (.vgather t d a b m) s = execVgather t d a b m s := rfl
theorem exec_vscatter (t : ElemType) (d : VReg) (a : GReg) (b : VReg) (m : MReg) (s : State) : exec (.vscatter t d a b m) s = execVscatter t d a b m s := rfl
theorem exec_pld (d : VReg) (a : GReg) (s : State) : exec (.pld d a) s = execPld d a s := rfl
theorem exec_pst (d : VReg) (a : GReg) (s : State) : exec (.pst d a) s = execPst d a s := rfl
theorem exec_tstat (d : GReg) (a : GReg) (s : State) : exec (.tstat d a) s = execTstat d a s := rfl
theorem exec_tready (a : GReg) (s : State) : exec (.tready a) s = execTready a s := rfl
theorem exec_tempty (a : GReg) (s : State) : exec (.tempty a) s = execTempty a s := rfl
theorem exec_barinit (a : GReg) (b : GReg) (s : State) : exec (.barinit a b) s = execBarinit a b s := rfl
theorem exec_barpost (a : GReg) (b : GReg) (s : State) : exec (.barpost a b) s = execBarpost a b s := rfl
theorem exec_bararr (a : GReg) (s : State) : exec (.bararr a) s = execBararr a s := rfl
theorem exec_bardrop (a : GReg) (s : State) : exec (.bardrop a) s = execBardrop a s := rfl
theorem exec_barwait (a : GReg) (b : GReg) (s : State) : exec (.barwait a b) s = execBarwait a b s := rfl
theorem exec_oclaim (d : GReg) (a : OReg) (s : State) : exec (.oclaim d a) s = execOclaim d a s := rfl
theorem exec_orelease (a : OReg) (s : State) : exec (.orelease a) s = execOrelease a s := rfl
theorem exec_oload (d : OReg) (a : GReg) (b : GReg) (s : State) : exec (.oload d a b) s = execOload d a b s := rfl
theorem exec_mxset (a : GReg) (s : State) : exec (.mxset a) s = execMxset a s := rfl
theorem exec_mxget (d : GReg) (s : State) : exec (.mxget d) s = execMxget d s := rfl
theorem exec_mxzero (d : CReg) (s : State) : exec (.mxzero d) s = execMxzero d s := rfl
theorem exec_mxmul (d : CReg) (a : OReg) (b : OReg) (s : State) : exec (.mxmul d a b) s = execMxmul d a b s := rfl
theorem exec_mxloadc (d : CReg) (a : GReg) (b : GReg) (s : State) : exec (.mxloadc d a b) s = execMxloadc d a b s := rfl
theorem exec_mxstore (d : CReg) (a : GReg) (b : GReg) (s : State) : exec (.mxstore d a b) s = execMxstore d a b s := rfl
theorem exec_mxwait (a : CReg) (s : State) : exec (.mxwait a) s = execMxwait a s := rfl
theorem exec_mxdrain (s : State) : exec .mxdrain s = execMxdrain s := rfl
theorem exec_eset (e : BitVec 6) (a : GReg) (s : State) : exec (.eset e a) s = execEset e a s := rfl
theorem exec_eget (e : BitVec 6) (a : GReg) (s : State) : exec (.eget e a) s = execEget e a s := rfl
theorem exec_cpyMm (a : GReg) (b : GReg) (bar : Bool) (s : State) : exec (.cpyMm a b bar) s = execCpyMm a b bar s := rfl
theorem exec_cpyMt (a : GReg) (b : GReg) (bar : Bool) (s : State) : exec (.cpyMt a b bar) s = execCpyMt a b bar s := rfl
theorem exec_cpyTm (a : GReg) (b : GReg) (bar : Bool) (s : State) : exec (.cpyTm a b bar) s = execCpyTm a b bar s := rfl
theorem exec_qput (a : GReg) (b : GReg) (s : State) : exec (.qput a b) s = execQput a b s := rfl
theorem exec_rwin (a : GReg) (op : RedOp) (s : State) : exec (.rwin a op) s = execRwin a op s := rfl
theorem exec_rclose (a : GReg) (s : State) : exec (.rclose a) s = execRclose a s := rfl
theorem exec_ramo (a : GReg) (b : GReg) (op : RedOp) (s : State) : exec (.ramo a b op) s = execRamo a b op s := rfl
theorem exec_rwait (a : GReg) (b : GReg) (s : State) : exec (.rwait a b) s = execRwait a b s := rfl
theorem exec_hload (d : HReg) (a : GReg) (s : State) : exec (.hload d a) s = execHload d a s := rfl
theorem exec_hstore (d : HReg) (a : GReg) (s : State) : exec (.hstore d a) s = execHstore d a s := rfl
theorem exec_hquery (d : GReg) (a : HReg) (b : GReg) (s : State) : exec (.hquery d a b) s = execHquery d a b s := rfl
theorem exec_tld (d : VReg) (a : HReg) (b : GReg) (m : MReg) (s : State) : exec (.tld d a b m) s = execTld d a b m s := rfl
theorem exec_tst (d : VReg) (a : HReg) (b : GReg) (m : MReg) (s : State) : exec (.tst d a b m) s = execTst d a b m s := rfl
theorem exec_relayout (d : HReg) (a : GReg) (b : GReg) (s : State) : exec (.relayout d a b) s = execRelayout d a b s := rfl
theorem exec_rlwait (a : HReg) (s : State) : exec (.rlwait a) s = execRlwait a s := rfl
theorem exec_hopen (d : GReg) (a : GReg) (s : State) : exec (.hopen d a) s = execHopen d a s := rfl
theorem exec_henter (a : GReg) (s : State) : exec (.henter a) s = execHenter a s := rfl
theorem exec_hleave (s : State) : exec .hleave s = execHleave s := rfl
theorem exec_hconfirm (d : GReg) (a : GReg) (excl : Bool) (s : State) : exec (.hconfirm d a excl) s = execHconfirm d a excl s := rfl
theorem exec_hrefute (d : GReg) (a : GReg) (s : State) : exec (.hrefute d a) s = execHrefute d a s := rfl
theorem exec_hstat (d : GReg) (a : GReg) (s : State) : exec (.hstat d a) s = execHstat d a s := rfl
theorem exec_copen (off : BitVec 12) (s : State) : exec (.copen off) s = execCopen off s := rfl
theorem exec_cclose (s : State) : exec .cclose s = execCclose s := rfl
theorem exec_screate (d : GReg) (a : GReg) (s : State) : exec (.screate d a) s = execScreate d a s := rfl
theorem exec_sfork (d : GReg) (a : GReg) (b : GReg) (s : State) : exec (.sfork d a b) s = execSfork d a b s := rfl
theorem exec_sdrop (d : GReg) (a : GReg) (s : State) : exec (.sdrop d a) s = execSdrop d a s := rfl
theorem exec_sact (d : GReg) (a : GReg) (b : GReg) (s : State) : exec (.sact d a b) s = execSact d a b s := rfl
theorem exec_spop (d : GReg) (a : GReg) (s : State) : exec (.spop d a) s = execSpop d a s := rfl
theorem exec_shor (d : GReg) (a : GReg) (b : GReg) (s : State) : exec (.shor d a b) s = execShor d a b s := rfl
theorem exec_sret (a : GReg) (s : State) : exec (.sret a) s = execSret a s := rfl
theorem exec_sjoin (d : GReg) (a : GReg) (b : GReg) (s : State) : exec (.sjoin d a b) s = execSjoin d a b s := rfl
theorem exec_senter (a : GReg) (s : State) : exec (.senter a) s = execSenter a s := rfl
theorem exec_smigr (d : GReg) (a : GReg) (b : GReg) (s : State) : exec (.smigr d a b) s = execSmigr d a b s := rfl
theorem exec_accept (d : GReg) (a : GReg) (s : State) : exec (.accept d a) s = execAccept d a s := rfl
theorem exec_fadd (d : GReg) (a : GReg) (b : GReg) (prec : Prec) (rnd : RndSel) (s : State) : exec (.fadd d a b prec rnd) s = execFadd d a b prec rnd s := rfl
theorem exec_fsub (d : GReg) (a : GReg) (b : GReg) (prec : Prec) (rnd : RndSel) (s : State) : exec (.fsub d a b prec rnd) s = execFsub d a b prec rnd s := rfl
theorem exec_fmul (d : GReg) (a : GReg) (b : GReg) (prec : Prec) (rnd : RndSel) (s : State) : exec (.fmul d a b prec rnd) s = execFmul d a b prec rnd s := rfl
theorem exec_fdiv (d : GReg) (a : GReg) (b : GReg) (prec : Prec) (rnd : RndSel) (s : State) : exec (.fdiv d a b prec rnd) s = execFdiv d a b prec rnd s := rfl
theorem exec_fsqrt (d : GReg) (a : GReg) (prec : Prec) (rnd : RndSel) (s : State) : exec (.fsqrt d a prec rnd) s = execFsqrt d a prec rnd s := rfl
theorem exec_ffma (d : GReg) (a : GReg) (b : GReg) (prec : Prec) (rnd : RndSel) (s : State) : exec (.ffma d a b prec rnd) s = execFfma d a b prec rnd s := rfl
theorem exec_fmin (d : GReg) (a : GReg) (b : GReg) (prec : Prec) (s : State) : exec (.fmin d a b prec) s = execFmin d a b prec s := rfl
theorem exec_fmax (d : GReg) (a : GReg) (b : GReg) (prec : Prec) (s : State) : exec (.fmax d a b prec) s = execFmax d a b prec s := rfl
theorem exec_fcmp (d : GReg) (a : GReg) (b : GReg) (prec : Prec) (cond : FcmpCond) (s : State) : exec (.fcmp d a b prec cond) s = execFcmp d a b prec cond s := rfl
theorem exec_fcvt (d : GReg) (a : GReg) (prec : Prec) (rnd : RndSel) (kind : FcvtKind) (s : State) : exec (.fcvt d a prec rnd kind) s = execFcvt d a prec rnd kind s := rfl
theorem exec_fclass (d : GReg) (a : GReg) (prec : Prec) (s : State) : exec (.fclass d a prec) s = execFclass d a prec s := rfl
theorem exec_rep (count : BitVec 6) (sd : Bool) (sa : Bool) (sb : Bool) (stride : Stride) (s : State) : exec (.rep count sd sa sb stride) s = execRep count sd sa sb stride s := rfl
theorem exec_wrsTimeout (s : State) : exec .wrsTimeout s = execWrsTimeout s := rfl
theorem exec_l1Replacement (s : State) : exec .l1Replacement s = execL1Replacement s := rfl
theorem exec_homeEviction (s : State) : exec .homeEviction s = execHomeEviction s := rfl
theorem exec_quitComplete (s : State) : exec .quitComplete s = execQuitComplete s := rfl
theorem exec_invalHolder (s : State) : exec .invalHolder s = execInvalHolder s := rfl
theorem exec_tlbWalk (s : State) : exec .tlbWalk s = execTlbWalk s := rfl
theorem exec_matrixBlockGrant (s : State) : exec .matrixBlockGrant s = execMatrixBlockGrant s := rfl
theorem exec_matrixEntryComplete (s : State) : exec .matrixEntryComplete s = execMatrixEntryComplete s := rfl
theorem exec_vectorLaneGrant (s : State) : exec .vectorLaneGrant s = execVectorLaneGrant s := rfl
theorem exec_vectorEntryComplete (s : State) : exec .vectorEntryComplete s = execVectorEntryComplete s := rfl
theorem exec_carterSector (s : State) : exec .carterSector s = execCarterSector s := rfl
theorem exec_routerContribution (s : State) : exec .routerContribution s = execRouterContribution s := rfl
theorem exec_routerHoldExpiry (s : State) : exec .routerHoldExpiry s = execRouterHoldExpiry s := rfl
theorem exec_contributionArrive (s : State) : exec .contributionArrive s = execContributionArrive s := rfl
theorem exec_windowTimeout (s : State) : exec .windowTimeout s = execWindowTimeout s := rfl
theorem exec_windowDelivery (s : State) : exec .windowDelivery s = execWindowDelivery s := rfl
theorem exec_weaverUnit (s : State) : exec .weaverUnit s = execWeaverUnit s := rfl
theorem exec_hypDiePrepare (s : State) : exec .hypDiePrepare s = execHypDiePrepare s := rfl
theorem exec_hypCommit (s : State) : exec .hypCommit s = execHypCommit s := rfl
theorem exec_hypApply (s : State) : exec .hypApply s = execHypApply s := rfl
theorem exec_hypSweep (s : State) : exec .hypSweep s = execHypSweep s := rfl
theorem exec_versionSpillwaitExpiry (s : State) : exec .versionSpillwaitExpiry s = execVersionSpillwaitExpiry s := rfl
theorem exec_streamArrival (s : State) : exec .streamArrival s = execStreamArrival s := rfl
theorem exec_streamBatchTimeout (s : State) : exec .streamBatchTimeout s = execStreamBatchTimeout s := rfl
theorem exec_streamBatchPlace (s : State) : exec .streamBatchPlace s = execStreamBatchPlace s := rfl
theorem exec_winnowerJoin (s : State) : exec .winnowerJoin s = execWinnowerJoin s := rfl
theorem exec_pageReload (s : State) : exec .pageReload s = execPageReload s := rfl
theorem exec_strmSpillwaitExpiry (s : State) : exec .strmSpillwaitExpiry s = execStrmSpillwaitExpiry s := rfl
theorem exec_unpark (s : State) : exec .unpark s = execUnpark s := rfl
theorem exec_notifyStore (s : State) : exec .notifyStore s = execNotifyStore s := rfl
theorem exec_factorPoll (s : State) : exec .factorPoll s = execFactorPoll s := rfl
theorem exec_launchPacket (s : State) : exec .launchPacket s = execLaunchPacket s := rfl
theorem exec_launchAccept (s : State) : exec .launchAccept s = execLaunchAccept s := rfl
theorem exec_copyPacket (s : State) : exec .copyPacket s = execCopyPacket s := rfl
theorem exec_waitPacket (s : State) : exec .waitPacket s = execWaitPacket s := rfl
theorem exec_waitPacketComplete (s : State) : exec .waitPacketComplete s = execWaitPacketComplete s := rfl
theorem exec_signalPacket (s : State) : exec .signalPacket s = execSignalPacket s := rfl
theorem exec_barrierAndPacket (s : State) : exec .barrierAndPacket s = execBarrierAndPacket s := rfl
theorem exec_barrierAndComplete (s : State) : exec .barrierAndComplete s = execBarrierAndComplete s := rfl
theorem exec_cancelPacket (s : State) : exec .cancelPacket s = execCancelPacket s := rfl
theorem exec_replayBegin (s : State) : exec .replayBegin s = execReplayBegin s := rfl
theorem exec_replayEnd (s : State) : exec .replayEnd s = execReplayEnd s := rfl
theorem exec_restartAck (s : State) : exec .restartAck s = execRestartAck s := rfl
theorem exec_reservedPacket (s : State) : exec .reservedPacket s = execReservedPacket s := rfl
theorem exec_queueRestart (s : State) : exec .queueRestart s = execQueueRestart s := rfl
theorem exec_queueTableUpdate (s : State) : exec .queueTableUpdate s = execQueueTableUpdate s := rfl
theorem exec_queueMap (s : State) : exec .queueMap s = execQueueMap s := rfl
theorem exec_queueWaitTimeout (s : State) : exec .queueWaitTimeout s = execQueueWaitTimeout s := rfl
theorem exec_queueUnmap (s : State) : exec .queueUnmap s = execQueueUnmap s := rfl
theorem exec_factorWatchdog (s : State) : exec .factorWatchdog s = execFactorWatchdog s := rfl
theorem exec_distributorChunk (s : State) : exec .distributorChunk s = execDistributorChunk s := rfl
theorem exec_taskCreate (s : State) : exec .taskCreate s = execTaskCreate s := rfl
theorem exec_depIndexRelease (s : State) : exec .depIndexRelease s = execDepIndexRelease s := rfl
theorem exec_reissueFinish (s : State) : exec .reissueFinish s = execReissueFinish s := rfl
theorem exec_preemptRequest (s : State) : exec .preemptRequest s = execPreemptRequest s := rfl
theorem exec_contextRestore (s : State) : exec .contextRestore s = execContextRestore s := rfl
theorem exec_dieFence (s : State) : exec .dieFence s = execDieFence s := rfl
theorem exec_fenceNotice (s : State) : exec .fenceNotice s = execFenceNotice s := rfl
theorem exec_packageLost (s : State) : exec .packageLost s = execPackageLost s := rfl
theorem exec_packageTableRewrite (s : State) : exec .packageTableRewrite s = execPackageTableRewrite s := rfl
theorem exec_fabricFlitArrival (s : State) : exec .fabricFlitArrival s = execFabricFlitArrival s := rfl
theorem exec_linkCrcRetry (s : State) : exec .linkCrcRetry s = execLinkCrcRetry s := rfl
theorem exec_pauseFlit (s : State) : exec .pauseFlit s = execPauseFlit s := rfl
theorem exec_resumeFlit (s : State) : exec .resumeFlit s = execResumeFlit s := rfl
theorem exec_hostWrite (s : State) : exec .hostWrite s = execHostWrite s := rfl
theorem exec_hostRead (s : State) : exec .hostRead s = execHostRead s := rfl
theorem exec_assayerCompare (s : State) : exec .assayerCompare s = execAssayerCompare s := rfl
theorem exec_assayerSkewTimeout (s : State) : exec .assayerSkewTimeout s = execAssayerSkewTimeout s := rfl
theorem exec_quarantineSet (s : State) : exec .quarantineSet s = execQuarantineSet s := rfl
theorem exec_injectionArm (s : State) : exec .injectionArm s = execInjectionArm s := rfl
theorem exec_moduleReset (s : State) : exec .moduleReset s = execModuleReset s := rfl
theorem exec_bootStage (s : State) : exec .bootStage s = execBootStage s := rfl
theorem exec_firmwareUpdate (s : State) : exec .firmwareUpdate s = execFirmwareUpdate s := rfl
theorem exec_svnRaise (s : State) : exec .svnRaise s = execSvnRaise s := rfl
theorem exec_attestationRequest (s : State) : exec .attestationRequest s = execAttestationRequest s := rfl
theorem exec_regionBitChange (s : State) : exec .regionBitChange s = execRegionBitChange s := rfl
theorem exec_powerCapSet (s : State) : exec .powerCapSet s = execPowerCapSet s := rfl
theorem exec_powerThrottle (s : State) : exec .powerThrottle s = execPowerThrottle s := rfl
theorem exec_clockStepUp (s : State) : exec .clockStepUp s = execClockStepUp s := rfl
theorem exec_thermalThrottle (s : State) : exec .thermalThrottle s = execThermalThrottle s := rfl
theorem exec_thermalFence (s : State) : exec .thermalFence s = execThermalFence s := rfl
theorem exec_coolantFlowLoss (s : State) : exec .coolantFlowLoss s = execCoolantFlowLoss s := rfl
theorem exec_thermalShutdown (s : State) : exec .thermalShutdown s = execThermalShutdown s := rfl
theorem exec_telemetrySample (s : State) : exec .telemetrySample s = execTelemetrySample s := rfl
theorem exec_notAnInstruction (s : State) : exec .notAnInstruction s = execNotAnInstruction s := rfl
theorem exec_fabricDieFailure (s : State) : exec .fabricDieFailure s = execFabricDieFailure s := rfl
theorem exec_powerLoss (s : State) : exec .powerLoss s = execPowerLoss s := rfl

end Sys2Proof.Machine
end

