-- ==== Sys2Proof/Laws/Fields.lean ====
section
/-!
SUPPORT. The fields of a word of each format (R47), and what the decoder needs to know of a word.
-/

namespace Sys2Proof.Laws

set_option Elab.async false

theorem fldA_31_28 {c o d a b m : Nat} (hc : c < 16) (ho : o < 64) (hd : d < 32) (ha : a < 32) (hb : b < 32) (hm : m < 128) :
    fld (fmtA c o d a b m) 31 28 = c := by
  simp only [fld, fmtA]; omega

theorem fldA_27_22 {c o d a b m : Nat} (ho : o < 64) (hd : d < 32) (ha : a < 32) (hb : b < 32) (hm : m < 128) :
    fld (fmtA c o d a b m) 27 22 = o := by
  simp only [fld, fmtA]; omega

theorem fldA_6_0 {c o d a b m : Nat} (hm : m < 128) :
    fld (fmtA c o d a b m) 6 0 = m := by
  simp only [fld, fmtA]; omega

theorem bitsA_5_17 {c o d a b m : Nat} (ha : a < 32) (hb : b < 32) (hm : m < 128) :
    bits 5 (fmtA c o d a b m) 17 = BitVec.ofNat 5 d := by
  apply BitVec.eq_of_toNat_eq; simp only [bits, fmtA, BitVec.toNat_ofNat]; omega

theorem bitsA_5_12 {c o d a b m : Nat} (hb : b < 32) (hm : m < 128) :
    bits 5 (fmtA c o d a b m) 12 = BitVec.ofNat 5 a := by
  apply BitVec.eq_of_toNat_eq; simp only [bits, fmtA, BitVec.toNat_ofNat]; omega

theorem bitsA_5_7 {c o d a b m : Nat} (hm : m < 128) :
    bits 5 (fmtA c o d a b m) 7 = BitVec.ofNat 5 b := by
  apply BitVec.eq_of_toNat_eq; simp only [bits, fmtA, BitVec.toNat_ofNat]; omega

theorem ltA {c o d a b m : Nat} (hc : c < 16) (ho : o < 64) (hd : d < 32) (ha : a < 32) (hb : b < 32) (hm : m < 128) :
    fmtA c o d a b m < 4294967296 := by
  simp only [fmtA]; omega

theorem fldAm62_31_28 {c o d a b m0 : Nat} (hc : c < 16) (ho : o < 64) (hd : d < 32) (ha : a < 32) (hb : b < 32) (hm0 : m0 < 32) :
    fld (fmtA c o d a b (m0 * 4)) 31 28 = c := by
  simp only [fld, fmtA]; omega

theorem fldAm62_27_22 {c o d a b m0 : Nat} (ho : o < 64) (hd : d < 32) (ha : a < 32) (hb : b < 32) (hm0 : m0 < 32) :
    fld (fmtA c o d a b (m0 * 4)) 27 22 = o := by
  simp only [fld, fmtA]; omega

theorem fldAm62_1_0 {c o d a b m0 : Nat}  :
    fld (fmtA c o d a b (m0 * 4)) 1 0 = 0 := by
  simp only [fld, fmtA]; omega

theorem bitsAm62_5_17 {c o d a b m0 : Nat} (ha : a < 32) (hb : b < 32) (hm0 : m0 < 32) :
    bits 5 (fmtA c o d a b (m0 * 4)) 17 = BitVec.ofNat 5 d := by
  apply BitVec.eq_of_toNat_eq; simp only [bits, fmtA, BitVec.toNat_ofNat]; omega

theorem bitsAm62_5_12 {c o d a b m0 : Nat} (hb : b < 32) (hm0 : m0 < 32) :
    bits 5 (fmtA c o d a b (m0 * 4)) 12 = BitVec.ofNat 5 a := by
  apply BitVec.eq_of_toNat_eq; simp only [bits, fmtA, BitVec.toNat_ofNat]; omega

theorem bitsAm62_5_7 {c o d a b m0 : Nat} (hm0 : m0 < 32) :
    bits 5 (fmtA c o d a b (m0 * 4)) 7 = BitVec.ofNat 5 b := by
  apply BitVec.eq_of_toNat_eq; simp only [bits, fmtA, BitVec.toNat_ofNat]; omega

theorem bitsAm62_5_2 {c o d a b m0 : Nat}  :
    bits 5 (fmtA c o d a b (m0 * 4)) 2 = BitVec.ofNat 5 m0 := by
  apply BitVec.eq_of_toNat_eq; simp only [bits, fmtA, BitVec.toNat_ofNat]; omega

theorem ltAm62 {c o d a b m0 : Nat} (hc : c < 16) (ho : o < 64) (hd : d < 32) (ha : a < 32) (hb : b < 32) (hm0 : m0 < 32) :
    fmtA c o d a b (m0 * 4) < 4294967296 := by
  simp only [fmtA]; omega

theorem fldA_11_0 {c o d a b m : Nat} (hb : b < 32) (hm : m < 128) :
    fld (fmtA c o d a b m) 11 0 = b * 128 + m := by
  simp only [fld, fmtA]; omega

theorem fldI_31_28 {c o d a i : Nat} (hc : c < 16) (ho : o < 16) (hd : d < 32) (ha : a < 32) (hi : i < 16384) :
    fld (fmtI c o d a i) 31 28 = c := by
  simp only [fld, fmtI]; omega

theorem fldI_27_24 {c o d a i : Nat} (ho : o < 16) (hd : d < 32) (ha : a < 32) (hi : i < 16384) :
    fld (fmtI c o d a i) 27 24 = o := by
  simp only [fld, fmtI]; omega

theorem bitsI_5_19 {c o d a i : Nat} (ha : a < 32) (hi : i < 16384) :
    bits 5 (fmtI c o d a i) 19 = BitVec.ofNat 5 d := by
  apply BitVec.eq_of_toNat_eq; simp only [bits, fmtI, BitVec.toNat_ofNat]; omega

theorem bitsI_5_14 {c o d a i : Nat} (hi : i < 16384) :
    bits 5 (fmtI c o d a i) 14 = BitVec.ofNat 5 a := by
  apply BitVec.eq_of_toNat_eq; simp only [bits, fmtI, BitVec.toNat_ofNat]; omega

theorem bitsI_14_0 {c o d a i : Nat}  :
    bits 14 (fmtI c o d a i) 0 = BitVec.ofNat 14 i := by
  apply BitVec.eq_of_toNat_eq; simp only [bits, fmtI, BitVec.toNat_ofNat]; omega

theorem ltI {c o d a i : Nat} (hc : c < 16) (ho : o < 16) (hd : d < 32) (ha : a < 32) (hi : i < 16384) :
    fmtI c o d a i < 4294967296 := by
  simp only [fmtI]; omega

theorem fldI_13_6 {c o d a i : Nat} (hi : i < 16384) :
    fld (fmtI c o d a i) 13 6 = i / 64 := by
  simp only [fld, fmtI]; omega

theorem bitsI_6_0 {c o d a i : Nat}  :
    bits 6 (fmtI c o d a i) 0 = BitVec.ofNat 6 i := by
  apply BitVec.eq_of_toNat_eq; simp only [bits, fmtI, BitVec.toNat_ofNat]; omega

theorem fldJ_31_28 {c o j i : Nat} (hc : c < 16) (ho : o < 4) (hj : j < 8) (hi : i < 8388608) :
    fld (fmtJ c o j i) 31 28 = c := by
  simp only [fld, fmtJ]; omega

theorem fldJ_27_24 {c o j i : Nat} (ho : o < 4) (hj : j < 8) (hi : i < 8388608) :
    fld (fmtJ c o j i) 27 24 = o * 4 + j / 2 := by
  simp only [fld, fmtJ]; omega

theorem bitsJ_3_23 {c o j i : Nat} (hi : i < 8388608) :
    bits 3 (fmtJ c o j i) 23 = BitVec.ofNat 3 j := by
  apply BitVec.eq_of_toNat_eq; simp only [bits, fmtJ, BitVec.toNat_ofNat]; omega

theorem bitsJ_23_0 {c o j i : Nat}  :
    bits 23 (fmtJ c o j i) 0 = BitVec.ofNat 23 i := by
  apply BitVec.eq_of_toNat_eq; simp only [bits, fmtJ, BitVec.toNat_ofNat]; omega

theorem ltJ {c o j i : Nat} (hc : c < 16) (ho : o < 4) (hj : j < 8) (hi : i < 8388608) :
    fmtJ c o j i < 4294967296 := by
  simp only [fmtJ]; omega

theorem fldAm66m54_31_28 {c o d a b m0 m1 : Nat} (hc : c < 16) (ho : o < 64) (hd : d < 32) (ha : a < 32) (hb : b < 32) (hm0 : m0 < 2) (hm1 : m1 < 4) :
    fld (fmtA c o d a b (m0 * 64 + m1 * 16)) 31 28 = c := by
  simp only [fld, fmtA]; omega

theorem fldAm66m54_27_22 {c o d a b m0 m1 : Nat} (ho : o < 64) (hd : d < 32) (ha : a < 32) (hb : b < 32) (hm0 : m0 < 2) (hm1 : m1 < 4) :
    fld (fmtA c o d a b (m0 * 64 + m1 * 16)) 27 22 = o := by
  simp only [fld, fmtA]; omega

theorem fldAm66m54_3_0 {c o d a b m0 m1 : Nat}  :
    fld (fmtA c o d a b (m0 * 64 + m1 * 16)) 3 0 = 0 := by
  simp only [fld, fmtA]; omega

theorem fldAm66m54_6_6 {c o d a b m0 m1 : Nat} (hm0 : m0 < 2) (hm1 : m1 < 4) :
    fld (fmtA c o d a b (m0 * 64 + m1 * 16)) 6 6 = m0 := by
  simp only [fld, fmtA]; omega

theorem fldAm66m54_5_4 {c o d a b m0 m1 : Nat} (hm1 : m1 < 4) :
    fld (fmtA c o d a b (m0 * 64 + m1 * 16)) 5 4 = m1 := by
  simp only [fld, fmtA]; omega

theorem bitsAm66m54_5_17 {c o d a b m0 m1 : Nat} (ha : a < 32) (hb : b < 32) (hm0 : m0 < 2) (hm1 : m1 < 4) :
    bits 5 (fmtA c o d a b (m0 * 64 + m1 * 16)) 17 = BitVec.ofNat 5 d := by
  apply BitVec.eq_of_toNat_eq; simp only [bits, fmtA, BitVec.toNat_ofNat]; omega

theorem bitsAm66m54_5_12 {c o d a b m0 m1 : Nat} (hb : b < 32) (hm0 : m0 < 2) (hm1 : m1 < 4) :
    bits 5 (fmtA c o d a b (m0 * 64 + m1 * 16)) 12 = BitVec.ofNat 5 a := by
  apply BitVec.eq_of_toNat_eq; simp only [bits, fmtA, BitVec.toNat_ofNat]; omega

theorem bitsAm66m54_5_7 {c o d a b m0 m1 : Nat} (hm0 : m0 < 2) (hm1 : m1 < 4) :
    bits 5 (fmtA c o d a b (m0 * 64 + m1 * 16)) 7 = BitVec.ofNat 5 b := by
  apply BitVec.eq_of_toNat_eq; simp only [bits, fmtA, BitVec.toNat_ofNat]; omega

theorem ltAm66m54 {c o d a b m0 m1 : Nat} (hc : c < 16) (ho : o < 64) (hd : d < 32) (ha : a < 32) (hb : b < 32) (hm0 : m0 < 2) (hm1 : m1 < 4) :
    fmtA c o d a b (m0 * 64 + m1 * 16) < 4294967296 := by
  simp only [fmtA]; omega

theorem fldAm66m54_11_7 {c o d a b m0 m1 : Nat} (hb : b < 32) (hm0 : m0 < 2) (hm1 : m1 < 4) :
    fld (fmtA c o d a b (m0 * 64 + m1 * 16)) 11 7 = b := by
  simp only [fld, fmtA]; omega

theorem fldAm66_31_28 {c o d a b m0 : Nat} (hc : c < 16) (ho : o < 64) (hd : d < 32) (ha : a < 32) (hb : b < 32) (hm0 : m0 < 2) :
    fld (fmtA c o d a b (m0 * 64)) 31 28 = c := by
  simp only [fld, fmtA]; omega

theorem fldAm66_27_22 {c o d a b m0 : Nat} (ho : o < 64) (hd : d < 32) (ha : a < 32) (hb : b < 32) (hm0 : m0 < 2) :
    fld (fmtA c o d a b (m0 * 64)) 27 22 = o := by
  simp only [fld, fmtA]; omega

theorem fldAm66_5_0 {c o d a b m0 : Nat}  :
    fld (fmtA c o d a b (m0 * 64)) 5 0 = 0 := by
  simp only [fld, fmtA]; omega

theorem fldAm66_6_6 {c o d a b m0 : Nat} (hm0 : m0 < 2) :
    fld (fmtA c o d a b (m0 * 64)) 6 6 = m0 := by
  simp only [fld, fmtA]; omega

theorem bitsAm66_5_17 {c o d a b m0 : Nat} (ha : a < 32) (hb : b < 32) (hm0 : m0 < 2) :
    bits 5 (fmtA c o d a b (m0 * 64)) 17 = BitVec.ofNat 5 d := by
  apply BitVec.eq_of_toNat_eq; simp only [bits, fmtA, BitVec.toNat_ofNat]; omega

theorem bitsAm66_5_12 {c o d a b m0 : Nat} (hb : b < 32) (hm0 : m0 < 2) :
    bits 5 (fmtA c o d a b (m0 * 64)) 12 = BitVec.ofNat 5 a := by
  apply BitVec.eq_of_toNat_eq; simp only [bits, fmtA, BitVec.toNat_ofNat]; omega

theorem bitsAm66_5_7 {c o d a b m0 : Nat} (hm0 : m0 < 2) :
    bits 5 (fmtA c o d a b (m0 * 64)) 7 = BitVec.ofNat 5 b := by
  apply BitVec.eq_of_toNat_eq; simp only [bits, fmtA, BitVec.toNat_ofNat]; omega

theorem ltAm66 {c o d a b m0 : Nat} (hc : c < 16) (ho : o < 64) (hd : d < 32) (ha : a < 32) (hb : b < 32) (hm0 : m0 < 2) :
    fmtA c o d a b (m0 * 64) < 4294967296 := by
  simp only [fmtA]; omega

theorem fldA_5_4 {c o d a b m : Nat}  :
    fld (fmtA c o d a b m) 5 4 = m / 16 % 4 := by
  simp only [fld, fmtA]; omega

theorem fldA_21_6 {c o d a b m : Nat} (hd : d < 32) (ha : a < 32) (hb : b < 32) (hm : m < 128) :
    fld (fmtA c o d a b m) 21 6 = d * 2048 + a * 64 + b * 2 + m / 64 := by
  simp only [fld, fmtA]; omega

theorem fldA_3_0 {c o d a b m : Nat}  :
    fld (fmtA c o d a b m) 3 0 = m % 16 := by
  simp only [fld, fmtA]; omega

theorem fldA_21_0 {c o d a b m : Nat} (hd : d < 32) (ha : a < 32) (hb : b < 32) (hm : m < 128) :
    fld (fmtA c o d a b m) 21 0 = d * 131072 + a * 4096 + b * 128 + m := by
  simp only [fld, fmtA]; omega

theorem fldA_21_17 {c o d a b m : Nat} (hd : d < 32) (ha : a < 32) (hb : b < 32) (hm : m < 128) :
    fld (fmtA c o d a b m) 21 17 = d := by
  simp only [fld, fmtA]; omega

theorem fldAm00_31_28 {c o d a b m0 : Nat} (hc : c < 16) (ho : o < 64) (hd : d < 32) (ha : a < 32) (hb : b < 32) (hm0 : m0 < 2) :
    fld (fmtA c o d a b (m0)) 31 28 = c := by
  simp only [fld, fmtA]; omega

theorem fldAm00_27_22 {c o d a b m0 : Nat} (ho : o < 64) (hd : d < 32) (ha : a < 32) (hb : b < 32) (hm0 : m0 < 2) :
    fld (fmtA c o d a b (m0)) 27 22 = o := by
  simp only [fld, fmtA]; omega

theorem fldAm00_6_1 {c o d a b m0 : Nat} (hm0 : m0 < 2) :
    fld (fmtA c o d a b (m0)) 6 1 = 0 := by
  simp only [fld, fmtA]; omega

theorem fldAm00_0_0 {c o d a b m0 : Nat} (hm0 : m0 < 2) :
    fld (fmtA c o d a b (m0)) 0 0 = m0 := by
  simp only [fld, fmtA]; omega

theorem bitsAm00_5_17 {c o d a b m0 : Nat} (ha : a < 32) (hb : b < 32) (hm0 : m0 < 2) :
    bits 5 (fmtA c o d a b (m0)) 17 = BitVec.ofNat 5 d := by
  apply BitVec.eq_of_toNat_eq; simp only [bits, fmtA, BitVec.toNat_ofNat]; omega

theorem bitsAm00_5_12 {c o d a b m0 : Nat} (hb : b < 32) (hm0 : m0 < 2) :
    bits 5 (fmtA c o d a b (m0)) 12 = BitVec.ofNat 5 a := by
  apply BitVec.eq_of_toNat_eq; simp only [bits, fmtA, BitVec.toNat_ofNat]; omega

theorem bitsAm00_5_7 {c o d a b m0 : Nat} (hm0 : m0 < 2) :
    bits 5 (fmtA c o d a b (m0)) 7 = BitVec.ofNat 5 b := by
  apply BitVec.eq_of_toNat_eq; simp only [bits, fmtA, BitVec.toNat_ofNat]; omega

theorem ltAm00 {c o d a b m0 : Nat} (hc : c < 16) (ho : o < 64) (hd : d < 32) (ha : a < 32) (hb : b < 32) (hm0 : m0 < 2) :
    fmtA c o d a b (m0) < 4294967296 := by
  simp only [fmtA]; omega

theorem fldY_31_28 {n a : Nat} (hn : n < 65536) (ha : a < 32) :
    fld (1887436800 + n * 64 + a * 2) 31 28 = 7 := by
  simp only [fld]; omega

theorem fldY_27_22 {n a : Nat} (hn : n < 65536) (ha : a < 32) :
    fld (1887436800 + n * 64 + a * 2) 27 22 = 2 := by
  simp only [fld]; omega

theorem fldY_0_0 {n a : Nat}  :
    fld (1887436800 + n * 64 + a * 2) 0 0 = 0 := by
  simp only [fld]; omega

theorem bitsY_16_6 {n a : Nat} (ha : a < 32) :
    bits 16 (1887436800 + n * 64 + a * 2) 6 = BitVec.ofNat 16 n := by
  apply BitVec.eq_of_toNat_eq; simp only [bits, BitVec.toNat_ofNat]; omega

theorem bitsY_5_1 {n a : Nat}  :
    bits 5 (1887436800 + n * 64 + a * 2) 1 = BitVec.ofNat 5 a := by
  apply BitVec.eq_of_toNat_eq; simp only [bits, BitVec.toNat_ofNat]; omega

theorem ltY {n a : Nat} (hn : n < 65536) (ha : a < 32) :
    1887436800 + n * 64 + a * 2 < 4294967296 := by
  omega

theorem fldAm10_31_28 {c o d a b m0 : Nat} (hc : c < 16) (ho : o < 64) (hd : d < 32) (ha : a < 32) (hb : b < 32) (hm0 : m0 < 4) :
    fld (fmtA c o d a b (m0)) 31 28 = c := by
  simp only [fld, fmtA]; omega

theorem fldAm10_27_22 {c o d a b m0 : Nat} (ho : o < 64) (hd : d < 32) (ha : a < 32) (hb : b < 32) (hm0 : m0 < 4) :
    fld (fmtA c o d a b (m0)) 27 22 = o := by
  simp only [fld, fmtA]; omega

theorem fldAm10_21_17 {c o d a b m0 : Nat} (hd : d < 32) (ha : a < 32) (hb : b < 32) (hm0 : m0 < 4) :
    fld (fmtA c o d a b (m0)) 21 17 = d := by
  simp only [fld, fmtA]; omega

theorem fldAm10_11_2 {c o d a b m0 : Nat} (hb : b < 32) (hm0 : m0 < 4) :
    fld (fmtA c o d a b (m0)) 11 2 = b * 32 := by
  simp only [fld, fmtA]; omega

theorem fldAm10_1_0 {c o d a b m0 : Nat} (hm0 : m0 < 4) :
    fld (fmtA c o d a b (m0)) 1 0 = m0 := by
  simp only [fld, fmtA]; omega

theorem bitsAm10_5_12 {c o d a b m0 : Nat} (hb : b < 32) (hm0 : m0 < 4) :
    bits 5 (fmtA c o d a b (m0)) 12 = BitVec.ofNat 5 a := by
  apply BitVec.eq_of_toNat_eq; simp only [bits, fmtA, BitVec.toNat_ofNat]; omega

theorem ltAm10 {c o d a b m0 : Nat} (hc : c < 16) (ho : o < 64) (hd : d < 32) (ha : a < 32) (hb : b < 32) (hm0 : m0 < 4) :
    fmtA c o d a b (m0) < 4294967296 := by
  simp only [fmtA]; omega

theorem fldA_21_7 {c o d a b m : Nat} (hd : d < 32) (ha : a < 32) (hb : b < 32) (hm : m < 128) :
    fld (fmtA c o d a b m) 21 7 = d * 1024 + a * 32 + b := by
  simp only [fld, fmtA]; omega

theorem bitsA_7_0 {c o d a b m : Nat}  :
    bits 7 (fmtA c o d a b m) 0 = BitVec.ofNat 7 m := by
  apply BitVec.eq_of_toNat_eq; simp only [bits, fmtA, BitVec.toNat_ofNat]; omega

theorem fldG_31_28 {d r : Nat} (hd : d < 32) (hr : r < 1024) :
    fld (1908408320 + d * 131072 + r * 128) 31 28 = 7 := by
  simp only [fld]; omega

theorem fldG_27_22 {d r : Nat} (hd : d < 32) (hr : r < 1024) :
    fld (1908408320 + d * 131072 + r * 128) 27 22 = 7 := by
  simp only [fld]; omega

theorem fldG_6_0 {d r : Nat}  :
    fld (1908408320 + d * 131072 + r * 128) 6 0 = 0 := by
  simp only [fld]; omega

theorem fldG_16_7 {d r : Nat} (hr : r < 1024) :
    fld (1908408320 + d * 131072 + r * 128) 16 7 = r := by
  simp only [fld]; omega

theorem bitsG_5_17 {d r : Nat} (hr : r < 1024) :
    bits 5 (1908408320 + d * 131072 + r * 128) 17 = BitVec.ofNat 5 d := by
  apply BitVec.eq_of_toNat_eq; simp only [bits, BitVec.toNat_ofNat]; omega

theorem ltG {d r : Nat} (hd : d < 32) (hr : r < 1024) :
    1908408320 + d * 131072 + r * 128 < 4294967296 := by
  omega

theorem fldS_31_28 {d r : Nat} (hd : d < 32) (hr : r < 1024) :
    fld (1912602624 + d * 131072 + r * 128) 31 28 = 7 := by
  simp only [fld]; omega

theorem fldS_27_22 {d r : Nat} (hd : d < 32) (hr : r < 1024) :
    fld (1912602624 + d * 131072 + r * 128) 27 22 = 8 := by
  simp only [fld]; omega

theorem fldS_6_0 {d r : Nat}  :
    fld (1912602624 + d * 131072 + r * 128) 6 0 = 0 := by
  simp only [fld]; omega

theorem fldS_16_7 {d r : Nat} (hr : r < 1024) :
    fld (1912602624 + d * 131072 + r * 128) 16 7 = r := by
  simp only [fld]; omega

theorem bitsS_5_17 {d r : Nat} (hr : r < 1024) :
    bits 5 (1912602624 + d * 131072 + r * 128) 17 = BitVec.ofNat 5 d := by
  apply BitVec.eq_of_toNat_eq; simp only [bits, BitVec.toNat_ofNat]; omega

theorem ltS {d r : Nat} (hd : d < 32) (hr : r < 1024) :
    1912602624 + d * 131072 + r * 128 < 4294967296 := by
  omega

theorem fldV_31_28 {c o t d a b m : Nat} (hc : c < 16) (ho : o < 64) (ht : t < 16) (hd : d < 32) (ha : a < 32) (hb : b < 32) (hm : m < 8) :
    fld (fmtV c o t d a b m) 31 28 = c := by
  simp only [fld, fmtV]; omega

theorem fldV_27_22 {c o t d a b m : Nat} (ho : o < 64) (ht : t < 16) (hd : d < 32) (ha : a < 32) (hb : b < 32) (hm : m < 8) :
    fld (fmtV c o t d a b m) 27 22 = o := by
  simp only [fld, fmtV]; omega

theorem fldV_21_18 {c o t d a b m : Nat} (ht : t < 16) (hd : d < 32) (ha : a < 32) (hb : b < 32) (hm : m < 8) :
    fld (fmtV c o t d a b m) 21 18 = t := by
  simp only [fld, fmtV]; omega

theorem bitsV_5_13 {c o t d a b m : Nat} (ha : a < 32) (hb : b < 32) (hm : m < 8) :
    bits 5 (fmtV c o t d a b m) 13 = BitVec.ofNat 5 d := by
  apply BitVec.eq_of_toNat_eq; simp only [bits, fmtV, BitVec.toNat_ofNat]; omega

theorem bitsV_5_8 {c o t d a b m : Nat} (hb : b < 32) (hm : m < 8) :
    bits 5 (fmtV c o t d a b m) 8 = BitVec.ofNat 5 a := by
  apply BitVec.eq_of_toNat_eq; simp only [bits, fmtV, BitVec.toNat_ofNat]; omega

theorem bitsV_5_3 {c o t d a b m : Nat} (hm : m < 8) :
    bits 5 (fmtV c o t d a b m) 3 = BitVec.ofNat 5 b := by
  apply BitVec.eq_of_toNat_eq; simp only [bits, fmtV, BitVec.toNat_ofNat]; omega

theorem bitsV_3_0 {c o t d a b m : Nat}  :
    bits 3 (fmtV c o t d a b m) 0 = BitVec.ofNat 3 m := by
  apply BitVec.eq_of_toNat_eq; simp only [bits, fmtV, BitVec.toNat_ofNat]; omega

theorem ltV {c o t d a b m : Nat} (hc : c < 16) (ho : o < 64) (ht : t < 16) (hd : d < 32) (ha : a < 32) (hb : b < 32) (hm : m < 8) :
    fmtV c o t d a b m < 4294967296 := by
  simp only [fmtV]; omega

theorem fldV_7_3 {c o t d a b m : Nat} (hb : b < 32) (hm : m < 8) :
    fld (fmtV c o t d a b m) 7 3 = b := by
  simp only [fld, fmtV]; omega

theorem fldVd43d20_31_28 {c o t d0 d1 a b m : Nat} (hc : c < 16) (ho : o < 64) (ht : t < 16) (hd0 : d0 < 4) (hd1 : d1 < 8) (ha : a < 32) (hb : b < 32) (hm : m < 8) :
    fld (fmtV c o t (d0 * 8 + d1) a b m) 31 28 = c := by
  simp only [fld, fmtV]; omega

theorem fldVd43d20_27_22 {c o t d0 d1 a b m : Nat} (ho : o < 64) (ht : t < 16) (hd0 : d0 < 4) (hd1 : d1 < 8) (ha : a < 32) (hb : b < 32) (hm : m < 8) :
    fld (fmtV c o t (d0 * 8 + d1) a b m) 27 22 = o := by
  simp only [fld, fmtV]; omega

theorem fldVd43d20_21_18 {c o t d0 d1 a b m : Nat} (ht : t < 16) (hd0 : d0 < 4) (hd1 : d1 < 8) (ha : a < 32) (hb : b < 32) (hm : m < 8) :
    fld (fmtV c o t (d0 * 8 + d1) a b m) 21 18 = t := by
  simp only [fld, fmtV]; omega

theorem fldVd43d20_17_16 {c o t d0 d1 a b m : Nat} (hd0 : d0 < 4) (hd1 : d1 < 8) (ha : a < 32) (hb : b < 32) (hm : m < 8) :
    fld (fmtV c o t (d0 * 8 + d1) a b m) 17 16 = d0 := by
  simp only [fld, fmtV]; omega

theorem bitsVd43d20_3_13 {c o t d0 d1 a b m : Nat} (ha : a < 32) (hb : b < 32) (hm : m < 8) :
    bits 3 (fmtV c o t (d0 * 8 + d1) a b m) 13 = BitVec.ofNat 3 d1 := by
  apply BitVec.eq_of_toNat_eq; simp only [bits, fmtV, BitVec.toNat_ofNat]; omega

theorem bitsVd43d20_5_8 {c o t d0 d1 a b m : Nat} (hb : b < 32) (hm : m < 8) :
    bits 5 (fmtV c o t (d0 * 8 + d1) a b m) 8 = BitVec.ofNat 5 a := by
  apply BitVec.eq_of_toNat_eq; simp only [bits, fmtV, BitVec.toNat_ofNat]; omega

theorem bitsVd43d20_5_3 {c o t d0 d1 a b m : Nat} (hm : m < 8) :
    bits 5 (fmtV c o t (d0 * 8 + d1) a b m) 3 = BitVec.ofNat 5 b := by
  apply BitVec.eq_of_toNat_eq; simp only [bits, fmtV, BitVec.toNat_ofNat]; omega

theorem bitsVd43d20_3_0 {c o t d0 d1 a b m : Nat}  :
    bits 3 (fmtV c o t (d0 * 8 + d1) a b m) 0 = BitVec.ofNat 3 m := by
  apply BitVec.eq_of_toNat_eq; simp only [bits, fmtV, BitVec.toNat_ofNat]; omega

theorem ltVd43d20 {c o t d0 d1 a b m : Nat} (hc : c < 16) (ho : o < 64) (ht : t < 16) (hd0 : d0 < 4) (hd1 : d1 < 8) (ha : a < 32) (hb : b < 32) (hm : m < 8) :
    fmtV c o t (d0 * 8 + d1) a b m < 4294967296 := by
  simp only [fmtV]; omega

theorem fldVb41_31_28 {c o t d a b0 m : Nat} (hc : c < 16) (ho : o < 64) (ht : t < 16) (hd : d < 32) (ha : a < 32) (hb0 : b0 < 16) (hm : m < 8) :
    fld (fmtV c o t d a (b0 * 2) m) 31 28 = c := by
  simp only [fld, fmtV]; omega

theorem fldVb41_27_22 {c o t d a b0 m : Nat} (ho : o < 64) (ht : t < 16) (hd : d < 32) (ha : a < 32) (hb0 : b0 < 16) (hm : m < 8) :
    fld (fmtV c o t d a (b0 * 2) m) 27 22 = o := by
  simp only [fld, fmtV]; omega

theorem fldVb41_3_3 {c o t d a b0 m : Nat} (hm : m < 8) :
    fld (fmtV c o t d a (b0 * 2) m) 3 3 = 0 := by
  simp only [fld, fmtV]; omega

theorem fldVb41_21_18 {c o t d a b0 m : Nat} (ht : t < 16) (hd : d < 32) (ha : a < 32) (hb0 : b0 < 16) (hm : m < 8) :
    fld (fmtV c o t d a (b0 * 2) m) 21 18 = t := by
  simp only [fld, fmtV]; omega

theorem fldVb41_7_4 {c o t d a b0 m : Nat} (hb0 : b0 < 16) (hm : m < 8) :
    fld (fmtV c o t d a (b0 * 2) m) 7 4 = b0 := by
  simp only [fld, fmtV]; omega

theorem bitsVb41_5_13 {c o t d a b0 m : Nat} (ha : a < 32) (hb0 : b0 < 16) (hm : m < 8) :
    bits 5 (fmtV c o t d a (b0 * 2) m) 13 = BitVec.ofNat 5 d := by
  apply BitVec.eq_of_toNat_eq; simp only [bits, fmtV, BitVec.toNat_ofNat]; omega

theorem bitsVb41_5_8 {c o t d a b0 m : Nat} (hb0 : b0 < 16) (hm : m < 8) :
    bits 5 (fmtV c o t d a (b0 * 2) m) 8 = BitVec.ofNat 5 a := by
  apply BitVec.eq_of_toNat_eq; simp only [bits, fmtV, BitVec.toNat_ofNat]; omega

theorem bitsVb41_3_0 {c o t d a b0 m : Nat}  :
    bits 3 (fmtV c o t d a (b0 * 2) m) 0 = BitVec.ofNat 3 m := by
  apply BitVec.eq_of_toNat_eq; simp only [bits, fmtV, BitVec.toNat_ofNat]; omega

theorem ltVb41 {c o t d a b0 m : Nat} (hc : c < 16) (ho : o < 64) (ht : t < 16) (hd : d < 32) (ha : a < 32) (hb0 : b0 < 16) (hm : m < 8) :
    fmtV c o t d a (b0 * 2) m < 4294967296 := by
  simp only [fmtV]; omega

theorem fldV_12_3 {c o t d a b m : Nat} (ha : a < 32) (hb : b < 32) (hm : m < 8) :
    fld (fmtV c o t d a b m) 12 3 = a * 32 + b := by
  simp only [fld, fmtV]; omega

theorem fldV_2_0 {c o t d a b m : Nat} (hm : m < 8) :
    fld (fmtV c o t d a b m) 2 0 = m := by
  simp only [fld, fmtV]; omega

theorem fldV_7_0 {c o t d a b m : Nat} (hb : b < 32) (hm : m < 8) :
    fld (fmtV c o t d a b m) 7 0 = b * 8 + m := by
  simp only [fld, fmtV]; omega

theorem fldV_12_11 {c o t d a b m : Nat} (ha : a < 32) (hb : b < 32) (hm : m < 8) :
    fld (fmtV c o t d a b m) 12 11 = a / 8 := by
  simp only [fld, fmtV]; omega

theorem bitsV_3_8 {c o t d a b m : Nat} (hb : b < 32) (hm : m < 8) :
    bits 3 (fmtV c o t d a b m) 8 = BitVec.ofNat 3 a := by
  apply BitVec.eq_of_toNat_eq; simp only [bits, fmtV, BitVec.toNat_ofNat]; omega

theorem fldV_17_16 {c o t d a b m : Nat} (hd : d < 32) (ha : a < 32) (hb : b < 32) (hm : m < 8) :
    fld (fmtV c o t d a b m) 17 16 = d / 8 := by
  simp only [fld, fmtV]; omega

theorem bitsV_3_13 {c o t d a b m : Nat} (ha : a < 32) (hb : b < 32) (hm : m < 8) :
    bits 3 (fmtV c o t d a b m) 13 = BitVec.ofNat 3 d := by
  apply BitVec.eq_of_toNat_eq; simp only [bits, fmtV, BitVec.toNat_ofNat]; omega

theorem fldV_7_6 {c o t d a b m : Nat} (hb : b < 32) (hm : m < 8) :
    fld (fmtV c o t d a b m) 7 6 = b / 8 := by
  simp only [fld, fmtV]; omega

theorem bitsV_3_3 {c o t d a b m : Nat} (hm : m < 8) :
    bits 3 (fmtV c o t d a b m) 3 = BitVec.ofNat 3 b := by
  apply BitVec.eq_of_toNat_eq; simp only [bits, fmtV, BitVec.toNat_ofNat]; omega

theorem fldV_21_13 {c o t d a b m : Nat} (ht : t < 16) (hd : d < 32) (ha : a < 32) (hb : b < 32) (hm : m < 8) :
    fld (fmtV c o t d a b m) 21 13 = t * 32 + d := by
  simp only [fld, fmtV]; omega

theorem fldA_16_16 {c o d a b m : Nat} (ha : a < 32) (hb : b < 32) (hm : m < 128) :
    fld (fmtA c o d a b m) 16 16 = a / 16 := by
  simp only [fld, fmtA]; omega

theorem bitsA_4_12 {c o d a b m : Nat} (hb : b < 32) (hm : m < 128) :
    bits 4 (fmtA c o d a b m) 12 = BitVec.ofNat 4 a := by
  apply BitVec.eq_of_toNat_eq; simp only [bits, fmtA, BitVec.toNat_ofNat]; omega

theorem fldA_21_21 {c o d a b m : Nat} (hd : d < 32) (ha : a < 32) (hb : b < 32) (hm : m < 128) :
    fld (fmtA c o d a b m) 21 21 = d / 16 := by
  simp only [fld, fmtA]; omega

theorem bitsA_4_17 {c o d a b m : Nat} (ha : a < 32) (hb : b < 32) (hm : m < 128) :
    bits 4 (fmtA c o d a b m) 17 = BitVec.ofNat 4 d := by
  apply BitVec.eq_of_toNat_eq; simp only [bits, fmtA, BitVec.toNat_ofNat]; omega

theorem fldA_16_0 {c o d a b m : Nat} (ha : a < 32) (hb : b < 32) (hm : m < 128) :
    fld (fmtA c o d a b m) 16 0 = a * 4096 + b * 128 + m := by
  simp only [fld, fmtA]; omega

theorem fldA_21_20 {c o d a b m : Nat} (hd : d < 32) (ha : a < 32) (hb : b < 32) (hm : m < 128) :
    fld (fmtA c o d a b m) 21 20 = d / 8 := by
  simp only [fld, fmtA]; omega

theorem bitsA_3_17 {c o d a b m : Nat} (ha : a < 32) (hb : b < 32) (hm : m < 128) :
    bits 3 (fmtA c o d a b m) 17 = BitVec.ofNat 3 d := by
  apply BitVec.eq_of_toNat_eq; simp only [bits, fmtA, BitVec.toNat_ofNat]; omega

theorem fldA_11_11 {c o d a b m : Nat} (hb : b < 32) (hm : m < 128) :
    fld (fmtA c o d a b m) 11 11 = b / 16 := by
  simp only [fld, fmtA]; omega

theorem bitsA_4_7 {c o d a b m : Nat} (hm : m < 128) :
    bits 4 (fmtA c o d a b m) 7 = BitVec.ofNat 4 b := by
  apply BitVec.eq_of_toNat_eq; simp only [bits, fmtA, BitVec.toNat_ofNat]; omega

theorem fldA_16_15 {c o d a b m : Nat} (ha : a < 32) (hb : b < 32) (hm : m < 128) :
    fld (fmtA c o d a b m) 16 15 = a / 8 := by
  simp only [fld, fmtA]; omega

theorem bitsA_3_12 {c o d a b m : Nat} (hb : b < 32) (hm : m < 128) :
    bits 3 (fmtA c o d a b m) 12 = BitVec.ofNat 3 a := by
  apply BitVec.eq_of_toNat_eq; simp only [bits, fmtA, BitVec.toNat_ofNat]; omega

theorem fldE_31_28 {c o n a b f : Nat} (hc : c < 16) (ho : o < 16) (hn : n < 64) (ha : a < 32) (hb : b < 32) (hf : f < 256) :
    fld (fmtE c o n a b f) 31 28 = c := by
  simp only [fld, fmtE]; omega

theorem fldE_27_24 {c o n a b f : Nat} (ho : o < 16) (hn : n < 64) (ha : a < 32) (hb : b < 32) (hf : f < 256) :
    fld (fmtE c o n a b f) 27 24 = o := by
  simp only [fld, fmtE]; omega

theorem fldE_12_0 {c o n a b f : Nat} (hb : b < 32) (hf : f < 256) :
    fld (fmtE c o n a b f) 12 0 = b * 256 + f := by
  simp only [fld, fmtE]; omega

theorem bitsE_6_18 {c o n a b f : Nat} (ha : a < 32) (hb : b < 32) (hf : f < 256) :
    bits 6 (fmtE c o n a b f) 18 = BitVec.ofNat 6 n := by
  apply BitVec.eq_of_toNat_eq; simp only [bits, fmtE, BitVec.toNat_ofNat]; omega

theorem bitsE_5_13 {c o n a b f : Nat} (hb : b < 32) (hf : f < 256) :
    bits 5 (fmtE c o n a b f) 13 = BitVec.ofNat 5 a := by
  apply BitVec.eq_of_toNat_eq; simp only [bits, fmtE, BitVec.toNat_ofNat]; omega

theorem ltE {c o n a b f : Nat} (hc : c < 16) (ho : o < 16) (hn : n < 64) (ha : a < 32) (hb : b < 32) (hf : f < 256) :
    fmtE c o n a b f < 4294967296 := by
  simp only [fmtE]; omega

theorem fldEf00_31_28 {c o n a b f0 : Nat} (hc : c < 16) (ho : o < 16) (hn : n < 64) (ha : a < 32) (hb : b < 32) (hf0 : f0 < 2) :
    fld (fmtE c o n a b (f0)) 31 28 = c := by
  simp only [fld, fmtE]; omega

theorem fldEf00_27_24 {c o n a b f0 : Nat} (ho : o < 16) (hn : n < 64) (ha : a < 32) (hb : b < 32) (hf0 : f0 < 2) :
    fld (fmtE c o n a b (f0)) 27 24 = o := by
  simp only [fld, fmtE]; omega

theorem fldEf00_23_18 {c o n a b f0 : Nat} (hn : n < 64) (ha : a < 32) (hb : b < 32) (hf0 : f0 < 2) :
    fld (fmtE c o n a b (f0)) 23 18 = n := by
  simp only [fld, fmtE]; omega

theorem fldEf00_7_1 {c o n a b f0 : Nat} (hf0 : f0 < 2) :
    fld (fmtE c o n a b (f0)) 7 1 = 0 := by
  simp only [fld, fmtE]; omega

theorem fldEf00_0_0 {c o n a b f0 : Nat} (hf0 : f0 < 2) :
    fld (fmtE c o n a b (f0)) 0 0 = f0 := by
  simp only [fld, fmtE]; omega

theorem bitsEf00_5_13 {c o n a b f0 : Nat} (hb : b < 32) (hf0 : f0 < 2) :
    bits 5 (fmtE c o n a b (f0)) 13 = BitVec.ofNat 5 a := by
  apply BitVec.eq_of_toNat_eq; simp only [bits, fmtE, BitVec.toNat_ofNat]; omega

theorem bitsEf00_5_8 {c o n a b f0 : Nat} (hf0 : f0 < 2) :
    bits 5 (fmtE c o n a b (f0)) 8 = BitVec.ofNat 5 b := by
  apply BitVec.eq_of_toNat_eq; simp only [bits, fmtE, BitVec.toNat_ofNat]; omega

theorem ltEf00 {c o n a b f0 : Nat} (hc : c < 16) (ho : o < 16) (hn : n < 64) (ha : a < 32) (hb : b < 32) (hf0 : f0 < 2) :
    fmtE c o n a b (f0) < 4294967296 := by
  simp only [fmtE]; omega

theorem fldE_23_18 {c o n a b f : Nat} (hn : n < 64) (ha : a < 32) (hb : b < 32) (hf : f < 256) :
    fld (fmtE c o n a b f) 23 18 = n := by
  simp only [fld, fmtE]; omega

theorem fldE_7_0 {c o n a b f : Nat} (hf : f < 256) :
    fld (fmtE c o n a b f) 7 0 = f := by
  simp only [fld, fmtE]; omega

theorem bitsE_5_8 {c o n a b f : Nat} (hf : f < 256) :
    bits 5 (fmtE c o n a b f) 8 = BitVec.ofNat 5 b := by
  apply BitVec.eq_of_toNat_eq; simp only [bits, fmtE, BitVec.toNat_ofNat]; omega

theorem fldEf30_31_28 {c o n a b f0 : Nat} (hc : c < 16) (ho : o < 16) (hn : n < 64) (ha : a < 32) (hb : b < 32) (hf0 : f0 < 16) :
    fld (fmtE c o n a b (f0)) 31 28 = c := by
  simp only [fld, fmtE]; omega

theorem fldEf30_27_24 {c o n a b f0 : Nat} (ho : o < 16) (hn : n < 64) (ha : a < 32) (hb : b < 32) (hf0 : f0 < 16) :
    fld (fmtE c o n a b (f0)) 27 24 = o := by
  simp only [fld, fmtE]; omega

theorem fldEf30_23_18 {c o n a b f0 : Nat} (hn : n < 64) (ha : a < 32) (hb : b < 32) (hf0 : f0 < 16) :
    fld (fmtE c o n a b (f0)) 23 18 = n := by
  simp only [fld, fmtE]; omega

theorem fldEf30_12_4 {c o n a b f0 : Nat} (hb : b < 32) (hf0 : f0 < 16) :
    fld (fmtE c o n a b (f0)) 12 4 = b * 16 := by
  simp only [fld, fmtE]; omega

theorem fldEf30_3_0 {c o n a b f0 : Nat} (hf0 : f0 < 16) :
    fld (fmtE c o n a b (f0)) 3 0 = f0 := by
  simp only [fld, fmtE]; omega

theorem bitsEf30_5_13 {c o n a b f0 : Nat} (hb : b < 32) (hf0 : f0 < 16) :
    bits 5 (fmtE c o n a b (f0)) 13 = BitVec.ofNat 5 a := by
  apply BitVec.eq_of_toNat_eq; simp only [bits, fmtE, BitVec.toNat_ofNat]; omega

theorem ltEf30 {c o n a b f0 : Nat} (hc : c < 16) (ho : o < 16) (hn : n < 64) (ha : a < 32) (hb : b < 32) (hf0 : f0 < 16) :
    fmtE c o n a b (f0) < 4294967296 := by
  simp only [fmtE]; omega

theorem fldEf30_7_4 {c o n a b f0 : Nat} (hf0 : f0 < 16) :
    fld (fmtE c o n a b (f0)) 7 4 = 0 := by
  simp only [fld, fmtE]; omega

theorem bitsEf30_5_8 {c o n a b f0 : Nat} (hf0 : f0 < 16) :
    bits 5 (fmtE c o n a b (f0)) 8 = BitVec.ofNat 5 b := by
  apply BitVec.eq_of_toNat_eq; simp only [bits, fmtE, BitVec.toNat_ofNat]; omega

theorem fldA_6_3 {c o d a b m : Nat} (hm : m < 128) :
    fld (fmtA c o d a b m) 6 3 = m / 8 := by
  simp only [fld, fmtA]; omega

theorem bitsA_3_0 {c o d a b m : Nat}  :
    bits 3 (fmtA c o d a b m) 0 = BitVec.ofNat 3 m := by
  apply BitVec.eq_of_toNat_eq; simp only [bits, fmtA, BitVec.toNat_ofNat]; omega

theorem fldAm00_11_1 {c o d a b m0 : Nat} (hb : b < 32) (hm0 : m0 < 2) :
    fld (fmtA c o d a b (m0)) 11 1 = b * 64 := by
  simp only [fld, fmtA]; omega

theorem fldC_31_28 {f : Nat} (hf : f < 4096) :
    fld (3279945728 + f) 31 28 = 12 := by
  simp only [fld]; omega

theorem fldC_27_22 {f : Nat} (hf : f < 4096) :
    fld (3279945728 + f) 27 22 = 14 := by
  simp only [fld]; omega

theorem fldC_21_12 {f : Nat} (hf : f < 4096) :
    fld (3279945728 + f) 21 12 = 0 := by
  simp only [fld]; omega

theorem bitsC_12_0 {f : Nat}  :
    bits 12 (3279945728 + f) 0 = BitVec.ofNat 12 f := by
  apply BitVec.eq_of_toNat_eq; simp only [bits, BitVec.toNat_ofNat]; omega

theorem ltC {f : Nat} (hf : f < 4096) :
    3279945728 + f < 4294967296 := by
  omega

theorem fldAm66m53_31_28 {c o d a b m0 m1 : Nat} (hc : c < 16) (ho : o < 64) (hd : d < 32) (ha : a < 32) (hb : b < 32) (hm0 : m0 < 2) (hm1 : m1 < 8) :
    fld (fmtA c o d a b (m0 * 64 + m1 * 8)) 31 28 = c := by
  simp only [fld, fmtA]; omega

theorem fldAm66m53_27_22 {c o d a b m0 m1 : Nat} (ho : o < 64) (hd : d < 32) (ha : a < 32) (hb : b < 32) (hm0 : m0 < 2) (hm1 : m1 < 8) :
    fld (fmtA c o d a b (m0 * 64 + m1 * 8)) 27 22 = o := by
  simp only [fld, fmtA]; omega

theorem fldAm66m53_2_0 {c o d a b m0 m1 : Nat}  :
    fld (fmtA c o d a b (m0 * 64 + m1 * 8)) 2 0 = 0 := by
  simp only [fld, fmtA]; omega

theorem fldAm66m53_5_3 {c o d a b m0 m1 : Nat} (hm1 : m1 < 8) :
    fld (fmtA c o d a b (m0 * 64 + m1 * 8)) 5 3 = m1 := by
  simp only [fld, fmtA]; omega

theorem fldAm66m53_6_6 {c o d a b m0 m1 : Nat} (hm0 : m0 < 2) (hm1 : m1 < 8) :
    fld (fmtA c o d a b (m0 * 64 + m1 * 8)) 6 6 = m0 := by
  simp only [fld, fmtA]; omega

theorem bitsAm66m53_5_17 {c o d a b m0 m1 : Nat} (ha : a < 32) (hb : b < 32) (hm0 : m0 < 2) (hm1 : m1 < 8) :
    bits 5 (fmtA c o d a b (m0 * 64 + m1 * 8)) 17 = BitVec.ofNat 5 d := by
  apply BitVec.eq_of_toNat_eq; simp only [bits, fmtA, BitVec.toNat_ofNat]; omega

theorem bitsAm66m53_5_12 {c o d a b m0 m1 : Nat} (hb : b < 32) (hm0 : m0 < 2) (hm1 : m1 < 8) :
    bits 5 (fmtA c o d a b (m0 * 64 + m1 * 8)) 12 = BitVec.ofNat 5 a := by
  apply BitVec.eq_of_toNat_eq; simp only [bits, fmtA, BitVec.toNat_ofNat]; omega

theorem bitsAm66m53_5_7 {c o d a b m0 m1 : Nat} (hm0 : m0 < 2) (hm1 : m1 < 8) :
    bits 5 (fmtA c o d a b (m0 * 64 + m1 * 8)) 7 = BitVec.ofNat 5 b := by
  apply BitVec.eq_of_toNat_eq; simp only [bits, fmtA, BitVec.toNat_ofNat]; omega

theorem ltAm66m53 {c o d a b m0 m1 : Nat} (hc : c < 16) (ho : o < 64) (hd : d < 32) (ha : a < 32) (hb : b < 32) (hm0 : m0 < 2) (hm1 : m1 < 8) :
    fmtA c o d a b (m0 * 64 + m1 * 8) < 4294967296 := by
  simp only [fmtA]; omega

theorem fldAm66m53_11_7 {c o d a b m0 m1 : Nat} (hb : b < 32) (hm0 : m0 < 2) (hm1 : m1 < 8) :
    fld (fmtA c o d a b (m0 * 64 + m1 * 8)) 11 7 = b := by
  simp only [fld, fmtA]; omega

theorem fldAm66m20_31_28 {c o d a b m0 m1 : Nat} (hc : c < 16) (ho : o < 64) (hd : d < 32) (ha : a < 32) (hb : b < 32) (hm0 : m0 < 2) (hm1 : m1 < 8) :
    fld (fmtA c o d a b (m0 * 64 + m1)) 31 28 = c := by
  simp only [fld, fmtA]; omega

theorem fldAm66m20_27_22 {c o d a b m0 m1 : Nat} (ho : o < 64) (hd : d < 32) (ha : a < 32) (hb : b < 32) (hm0 : m0 < 2) (hm1 : m1 < 8) :
    fld (fmtA c o d a b (m0 * 64 + m1)) 27 22 = o := by
  simp only [fld, fmtA]; omega

theorem fldAm66m20_5_3 {c o d a b m0 m1 : Nat} (hm1 : m1 < 8) :
    fld (fmtA c o d a b (m0 * 64 + m1)) 5 3 = 0 := by
  simp only [fld, fmtA]; omega

theorem fldAm66m20_2_0 {c o d a b m0 m1 : Nat} (hm1 : m1 < 8) :
    fld (fmtA c o d a b (m0 * 64 + m1)) 2 0 = m1 := by
  simp only [fld, fmtA]; omega

theorem fldAm66m20_6_6 {c o d a b m0 m1 : Nat} (hm0 : m0 < 2) (hm1 : m1 < 8) :
    fld (fmtA c o d a b (m0 * 64 + m1)) 6 6 = m0 := by
  simp only [fld, fmtA]; omega

theorem bitsAm66m20_5_17 {c o d a b m0 m1 : Nat} (ha : a < 32) (hb : b < 32) (hm0 : m0 < 2) (hm1 : m1 < 8) :
    bits 5 (fmtA c o d a b (m0 * 64 + m1)) 17 = BitVec.ofNat 5 d := by
  apply BitVec.eq_of_toNat_eq; simp only [bits, fmtA, BitVec.toNat_ofNat]; omega

theorem bitsAm66m20_5_12 {c o d a b m0 m1 : Nat} (hb : b < 32) (hm0 : m0 < 2) (hm1 : m1 < 8) :
    bits 5 (fmtA c o d a b (m0 * 64 + m1)) 12 = BitVec.ofNat 5 a := by
  apply BitVec.eq_of_toNat_eq; simp only [bits, fmtA, BitVec.toNat_ofNat]; omega

theorem bitsAm66m20_5_7 {c o d a b m0 m1 : Nat} (hm0 : m0 < 2) (hm1 : m1 < 8) :
    bits 5 (fmtA c o d a b (m0 * 64 + m1)) 7 = BitVec.ofNat 5 b := by
  apply BitVec.eq_of_toNat_eq; simp only [bits, fmtA, BitVec.toNat_ofNat]; omega

theorem ltAm66m20 {c o d a b m0 m1 : Nat} (hc : c < 16) (ho : o < 64) (hd : d < 32) (ha : a < 32) (hb : b < 32) (hm0 : m0 < 2) (hm1 : m1 < 8) :
    fmtA c o d a b (m0 * 64 + m1) < 4294967296 := by
  simp only [fmtA]; omega

theorem fldAm66m53m20_31_28 {c o d a b m0 m1 m2 : Nat} (hc : c < 16) (ho : o < 64) (hd : d < 32) (ha : a < 32) (hb : b < 32) (hm0 : m0 < 2) (hm1 : m1 < 8) (hm2 : m2 < 8) :
    fld (fmtA c o d a b (m0 * 64 + m1 * 8 + m2)) 31 28 = c := by
  simp only [fld, fmtA]; omega

theorem fldAm66m53m20_27_22 {c o d a b m0 m1 m2 : Nat} (ho : o < 64) (hd : d < 32) (ha : a < 32) (hb : b < 32) (hm0 : m0 < 2) (hm1 : m1 < 8) (hm2 : m2 < 8) :
    fld (fmtA c o d a b (m0 * 64 + m1 * 8 + m2)) 27 22 = o := by
  simp only [fld, fmtA]; omega

theorem fldAm66m53m20_11_7 {c o d a b m0 m1 m2 : Nat} (hb : b < 32) (hm0 : m0 < 2) (hm1 : m1 < 8) (hm2 : m2 < 8) :
    fld (fmtA c o d a b (m0 * 64 + m1 * 8 + m2)) 11 7 = b := by
  simp only [fld, fmtA]; omega

theorem fldAm66m53m20_5_3 {c o d a b m0 m1 m2 : Nat} (hm1 : m1 < 8) (hm2 : m2 < 8) :
    fld (fmtA c o d a b (m0 * 64 + m1 * 8 + m2)) 5 3 = m1 := by
  simp only [fld, fmtA]; omega

theorem fldAm66m53m20_2_0 {c o d a b m0 m1 m2 : Nat} (hm2 : m2 < 8) :
    fld (fmtA c o d a b (m0 * 64 + m1 * 8 + m2)) 2 0 = m2 := by
  simp only [fld, fmtA]; omega

theorem fldAm66m53m20_6_6 {c o d a b m0 m1 m2 : Nat} (hm0 : m0 < 2) (hm1 : m1 < 8) (hm2 : m2 < 8) :
    fld (fmtA c o d a b (m0 * 64 + m1 * 8 + m2)) 6 6 = m0 := by
  simp only [fld, fmtA]; omega

theorem bitsAm66m53m20_5_17 {c o d a b m0 m1 m2 : Nat} (ha : a < 32) (hb : b < 32) (hm0 : m0 < 2) (hm1 : m1 < 8) (hm2 : m2 < 8) :
    bits 5 (fmtA c o d a b (m0 * 64 + m1 * 8 + m2)) 17 = BitVec.ofNat 5 d := by
  apply BitVec.eq_of_toNat_eq; simp only [bits, fmtA, BitVec.toNat_ofNat]; omega

theorem bitsAm66m53m20_5_12 {c o d a b m0 m1 m2 : Nat} (hb : b < 32) (hm0 : m0 < 2) (hm1 : m1 < 8) (hm2 : m2 < 8) :
    bits 5 (fmtA c o d a b (m0 * 64 + m1 * 8 + m2)) 12 = BitVec.ofNat 5 a := by
  apply BitVec.eq_of_toNat_eq; simp only [bits, fmtA, BitVec.toNat_ofNat]; omega

theorem ltAm66m53m20 {c o d a b m0 m1 m2 : Nat} (hc : c < 16) (ho : o < 64) (hd : d < 32) (ha : a < 32) (hb : b < 32) (hm0 : m0 < 2) (hm1 : m1 < 8) (hm2 : m2 < 8) :
    fmtA c o d a b (m0 * 64 + m1 * 8 + m2) < 4294967296 := by
  simp only [fmtA]; omega

theorem fldAm66_11_7 {c o d a b m0 : Nat} (hb : b < 32) (hm0 : m0 < 2) :
    fld (fmtA c o d a b (m0 * 64)) 11 7 = b := by
  simp only [fld, fmtA]; omega

theorem fldP_31_28 {c o n x y z s : Nat} (hc : c < 16) (ho : o < 16) (hn : n < 64) (hx : x < 2) (hy : y < 2) (hz : z < 2) (hs : s < 4) :
    fld (fmtP c o n x y z s) 31 28 = c := by
  simp only [fld, fmtP]; omega

theorem fldP_27_24 {c o n x y z s : Nat} (ho : o < 16) (hn : n < 64) (hx : x < 2) (hy : y < 2) (hz : z < 2) (hs : s < 4) :
    fld (fmtP c o n x y z s) 27 24 = o := by
  simp only [fld, fmtP]; omega

theorem fldP_12_0 {c o n x y z s : Nat}  :
    fld (fmtP c o n x y z s) 12 0 = 0 := by
  simp only [fld, fmtP]; omega

theorem fldP_14_13 {c o n x y z s : Nat} (hs : s < 4) :
    fld (fmtP c o n x y z s) 14 13 = s := by
  simp only [fld, fmtP]; omega

theorem fldP_17_17 {c o n x y z s : Nat} (hx : x < 2) (hy : y < 2) (hz : z < 2) (hs : s < 4) :
    fld (fmtP c o n x y z s) 17 17 = x := by
  simp only [fld, fmtP]; omega

theorem fldP_16_16 {c o n x y z s : Nat} (hy : y < 2) (hz : z < 2) (hs : s < 4) :
    fld (fmtP c o n x y z s) 16 16 = y := by
  simp only [fld, fmtP]; omega

theorem fldP_15_15 {c o n x y z s : Nat} (hz : z < 2) (hs : s < 4) :
    fld (fmtP c o n x y z s) 15 15 = z := by
  simp only [fld, fmtP]; omega

theorem bitsP_6_18 {c o n x y z s : Nat} (hx : x < 2) (hy : y < 2) (hz : z < 2) (hs : s < 4) :
    bits 6 (fmtP c o n x y z s) 18 = BitVec.ofNat 6 n := by
  apply BitVec.eq_of_toNat_eq; simp only [bits, fmtP, BitVec.toNat_ofNat]; omega

theorem ltP {c o n x y z s : Nat} (hc : c < 16) (ho : o < 16) (hn : n < 64) (hx : x < 2) (hy : y < 2) (hz : z < 2) (hs : s < 4) :
    fmtP c o n x y z s < 4294967296 := by
  simp only [fmtP]; omega

end Sys2Proof.Laws
end

