-- ==== Sys2Proof/Laws/Keeps.lean ====
section
/-!
SUPPORT. Every operation on memory keeps its canonical form: writing bytes at a home, taking out the entries of a package or a
granule, moving the firmware's tables.
-/

namespace Sys2Proof.Machine

theorem writeMasked_wf (t : Tbl Byte) (a n v m : Nat) (h : tblWf 0 t = true) : tblWf 0 (writeMasked t a n v m) = true := by
  induction n generalizing t a v m with
  | zero => exact h
  | succ n ih =>
    refine ih _ _ _ _ ?_
    split
    · exact tblWf_set 0 t a _ h
    · exact h

theorem filter_wfFrom {α : Type} [DecidableEq α] (d : α) (p : Nat × α → Bool) (t : Tbl α) (lo : Nat) (h : tblWfFrom d lo t = true) :
    tblWfFrom d lo (t.filter p) = true := by
  induction t generalizing lo with
  | nil => rfl
  | cons e r ih =>
    obtain ⟨h1, h2⟩ := Bool.and_eq_true_iff.mp h
    rw [List.filter_cons]
    split
    · exact Bool.and_eq_true_iff.mpr ⟨h1, ih _ h2⟩
    · refine tblWfFrom_mono d ?_ _ (ih _ h2)
      have h3 := of_decide_eq_true (Bool.and_eq_true_iff.mp h1).1
      omega

/-- Entries taken out of memory: a lost package's (R374, R386), a granule's (R421). -/
theorem filter_wf {α : Type} [DecidableEq α] (d : α) (p : Nat × α → Bool) (t : Tbl α) (h : tblWf d t = true) : tblWf d (t.filter p) = true :=
  filter_wfFrom d p t 0 h

/-- Tables moved by the firmware (R420). -/
theorem moveTable_wf (m : Tbl Byte) (src dst n : Nat) (h : tblWf 0 m = true) : tblWf 0 (moveTable m src dst n) = true := by
  unfold moveTable
  generalize m.filter _ = l
  induction l generalizing m with
  | nil => exact h
  | cons e r ih => exact ih _ (tblWf_set 0 m _ _ h)

theorem State.wf_writeHome (s : State) (line : Nat) (data : LineVal) (mask : BitVec 64) (own exempt : Option Nat)
    (h : Memory.wf s.ms.mem = true) : Memory.wf (s.writeHome line data mask own exempt).ms.mem = true := by
  show Memory.wf (settleOwners _ line own 16 0 (wordsOf mask)).mem = true
  rw [(settleOwners_fields _ line own 16 0 (wordsOf mask)).1]
  exact writeMasked_wf _ _ _ _ _ h

theorem State.wf_poke (s : State) (pa n v : Nat) (h : Memory.wf s.ms.mem = true) : Memory.wf (s.poke pa n v).ms.mem = true :=
  s.wf_writeHome _ _ _ _ _ h

theorem wf_moveTables (d : Nat) (s : State) (h : Memory.wf s.ms.mem = true) :
    ∃ u, moveTables d s = .ok () u ∧ Memory.wf u.ms.mem = true :=
  ⟨_, rfl, moveTable_wf _ _ _ _ (moveTable_wf _ _ _ _ h)⟩

end Sys2Proof.Machine
end

