-- ==== Sys2Proof/Laws/PerInstr.lean ====
section
/-!
SUPPORT. One lemma per instruction: the decoder gives back the instruction that the encoder wrote, with every operand at
every value the encoding admits (R45 to R54).
-/

namespace Sys2Proof.Laws

set_option Elab.async false
set_option linter.unusedSimpArgs false

/-- The decoder gives a well-formed instruction back from its own bytes, and leaves the bytes after them. An event has no
word, so nothing is claimed of it. -/
def RoundTrip.Statement (i : Instr) : Prop :=
  i.WF → ∀ bs rest : List Byte, encode i = some bs → decode (bs ++ rest) = .ok (i, rest)

theorem byte_toNat (w : Nat) : (BitVec.ofNat 8 w).toNat = w % 256 := by simp

/-- The bytes of a word decode as the word does. -/
theorem decode_wordBytes {w : Nat} {i : Instr} (hw : w < 4294967296) (h : decodeWord w = .ok i) (rest : List Byte) :
    decode (wordBytes w ++ rest) = .ok (i, rest) := by
  have hb : w % 256 + 256 * (w / 256 % 256 + 256 * (w / 65536 % 256 + 256 * (w / 16777216 % 256))) = w := by omega
  simp only [wordBytes, List.cons_append, List.nil_append, decode, byte_toNat, hb, h]

/-- What a word decodes to where its fields are known and it is not the word 0. -/
theorem roundTrip_of {i : Instr} {w : Nat} (he : encodeWord i = some w) (hw : w < 4294967296) (h0 : fld w 31 0 ≠ 0)
    (hf : decodeFields w = .ok i) : RoundTrip.Statement i := by
  intro hi bs rest hbs
  have hd : decodeWord w = .ok i := by
    simp only [decodeWord, if_neg h0, hf]
    rw [hi]
  rw [encode, he] at hbs
  obtain rfl : wordBytes w = bs := by simpa using hbs
  exact decode_wordBytes hw hd rest

/-- An instruction without a word. -/
theorem roundTrip_event {i : Instr} (he : encodeWord i = none) : RoundTrip.Statement i := by
  intro _ bs _ hbs
  rw [encode, he] at hbs
  simp at hbs

theorem nonzero_cls {w c : Nat} (h : fld w 31 28 = c) (hc : c ≠ 0) : fld w 31 0 ≠ 0 := by
  simp only [fld] at *; omega

theorem nonzero_op {w c : Nat} (h : fld w 27 22 = c) (hc : c ≠ 0) : fld w 31 0 ≠ 0 := by
  simp only [fld] at *; omega

/-! ### Register numbers and codes -/

theorem toNat_lt3 (x : BitVec 3) : x.toNat < 8 := x.isLt
theorem toNat_lt4 (x : BitVec 4) : x.toNat < 16 := x.isLt
theorem toNat_lt5 (x : BitVec 5) : x.toNat < 32 := x.isLt
theorem toNat_lt6 (x : BitVec 6) : x.toNat < 64 := x.isLt
theorem toNat_lt7 (x : BitVec 7) : x.toNat < 128 := x.isLt
theorem toNat_lt12 (x : BitVec 12) : x.toNat < 4096 := x.isLt
theorem toNat_lt14 (x : BitVec 14) : x.toNat < 16384 := x.isLt
theorem toNat_lt16 (x : BitVec 16) : x.toNat < 65536 := x.isLt
theorem toNat_lt23 (x : BitVec 23) : x.toNat < 8388608 := x.isLt
theorem toNat3_lt5 (x : BitVec 3) : x.toNat < 32 := Nat.lt_trans x.isLt (by decide)
theorem toNat4_lt5 (x : BitVec 4) : x.toNat < 32 := Nat.lt_trans x.isLt (by decide)
theorem toNat6_lt14 (x : BitVec 6) : x.toNat < 16384 := Nat.lt_trans x.isLt (by decide)
theorem toNat3_lt7 (x : BitVec 3) : x.toNat < 128 := Nat.lt_trans x.isLt (by decide)
theorem bool_lt (b : Bool) : b.toNat < 2 := by cases b <;> decide
theorem bool_le (b : Bool) : b.toNat ≤ 1 := by cases b <;> decide
theorem elemType_lt (t : ElemType) : t.code < 16 := by cases t <;> decide
theorem amoWidth_lt (t : AmoWidth) : t.code < 2 := by cases t <;> decide
theorem amoWidth_le (t : AmoWidth) : t.code ≤ 1 := by cases t <;> decide
theorem amoOrd_lt (t : AmoOrd) : t.code < 4 := by cases t <;> decide
theorem cancelLevel_lt (t : CancelLevel) : t.code < 4 := by cases t <;> decide
theorem ctlReg_lt (t : CtlReg) : t.code < 1024 := by cases t <;> decide
theorem vcmpCond_lt (t : VcmpCond) : t.code < 4 := by cases t <;> decide
theorem redOp_lt (t : RedOp) : t.code < 16 := by cases t <;> decide
theorem prec_lt (t : Prec) : t.code < 2 := by cases t <;> decide
theorem prec_le (t : Prec) : t.code ≤ 1 := by cases t <;> decide
theorem rndSel_lt (t : RndSel) : t.code < 8 := by cases t <;> decide
theorem fcmpCond_lt (t : FcmpCond) : t.code < 8 := by cases t <;> decide
theorem fcvtKind_lt (t : FcvtKind) : t.code < 8 := by cases t <;> decide
theorem stride_lt (t : Stride) : t.code < 4 := by cases t <;> decide
theorem elemType_code (t : ElemType) : ElemType.ofCode t.code = t := by cases t <;> rfl
theorem amoWidth_code (t : AmoWidth) : AmoWidth.ofCode t.code = t := by cases t <;> rfl
theorem amoOrd_code (t : AmoOrd) : AmoOrd.ofCode t.code = t := by cases t <;> rfl
theorem cancelLevel_code (t : CancelLevel) : CancelLevel.ofCode? t.code = some t := by cases t <;> rfl
theorem ctlReg_code (t : CtlReg) : CtlReg.ofCode? t.code = some t := by cases t <;> rfl
theorem vcmpCond_code (t : VcmpCond) : VcmpCond.ofCode t.code = t := by cases t <;> rfl
theorem redOp_code (t : RedOp) : RedOp.ofCode? t.code = some t := by cases t <;> rfl
theorem prec_code (t : Prec) : Prec.ofCode t.code = t := by cases t <;> rfl
theorem rndSel_code (t : RndSel) : RndSel.ofCode? t.code = some t := by cases t <;> rfl
theorem fcmpCond_code (t : FcmpCond) : FcmpCond.ofCode? t.code = some t := by cases t <;> rfl
theorem fcvtKind_code (t : FcvtKind) : FcvtKind.ofCode? t.code = some t := by cases t <;> rfl
theorem stride_code (t : Stride) : Stride.ofCode? t.code = some t := by cases t <;> rfl
theorem bool_code (b : Bool) : (b.toNat == 1) = b := by cases b <;> rfl
theorem reg3_div8 (x : BitVec 3) : x.toNat / 8 = 0 := Nat.div_eq_of_lt x.isLt
theorem reg4_div16 (x : BitVec 4) : x.toNat / 16 = 0 := Nat.div_eq_of_lt x.isLt

/-- `add g0, g0, g0` is no instruction, so the word of an `add` is not 0 (R46). -/
theorem add_nonzero {d a b : GReg} (h : (Instr.add d a b).WF) :
    fld (fmtA 0 0 d.toNat a.toNat b.toNat 0) 31 0 ≠ 0 := by
  have hd := toNat_lt5 d
  have ha := toNat_lt5 a
  have hb := toNat_lt5 b
  have hn : d ≠ 0 ∨ a ≠ 0 ∨ b ≠ 0 := by
    simp only [Instr.WF, Instr.illFormed, ck] at h
    rcases Classical.em (d ≠ 0 ∨ a ≠ 0 ∨ b ≠ 0) with hc | hc
    · exact hc
    · simp_all
  simp only [fld, fmtA]
  have e (x : GReg) : x ≠ 0 ↔ x.toNat ≠ 0 := by
    rw [ne_eq, ne_eq, ← BitVec.toNat_inj]; rfl
  rw [e, e, e] at hn
  omega

/-! ### The instructions -/

theorem RoundTrip.add (d : GReg) (a : GReg) (b : GReg) : RoundTrip.Statement (.add d a b) := by
  intro h
  refine roundTrip_of (w := fmtA 0x0 0x00 d.toNat a.toNat b.toNat 0) rfl (by simp [ltA, toNat_lt5])
    (add_nonzero h) ?_ h
  simp [decodeFields, decodeAluR, rsv, fldA_31_28, fldA_27_22, fldA_6_0, bitsA_5_17, bitsA_5_12, bitsA_5_7, toNat_lt5]

theorem RoundTrip.sub (d : GReg) (a : GReg) (b : GReg) : RoundTrip.Statement (.sub d a b) := by
  refine roundTrip_of (w := fmtA 0x0 0x01 d.toNat a.toNat b.toNat 0) rfl (by simp [ltA, toNat_lt5])
    (nonzero_op (c := 1) (by simp [fldA_27_22, toNat_lt5]) (by decide)) ?_
  simp [decodeFields, decodeAluR, rsv, fldA_31_28, fldA_27_22, fldA_6_0, bitsA_5_17, bitsA_5_12, bitsA_5_7, toNat_lt5]

theorem RoundTrip.mul (d : GReg) (a : GReg) (b : GReg) : RoundTrip.Statement (.mul d a b) := by
  refine roundTrip_of (w := fmtA 0x0 0x02 d.toNat a.toNat b.toNat 0) rfl (by simp [ltA, toNat_lt5])
    (nonzero_op (c := 2) (by simp [fldA_27_22, toNat_lt5]) (by decide)) ?_
  simp [decodeFields, decodeAluR, rsv, fldA_31_28, fldA_27_22, fldA_6_0, bitsA_5_17, bitsA_5_12, bitsA_5_7, toNat_lt5]

theorem RoundTrip.mulh (d : GReg) (a : GReg) (b : GReg) : RoundTrip.Statement (.mulh d a b) := by
  refine roundTrip_of (w := fmtA 0x0 0x03 d.toNat a.toNat b.toNat 0) rfl (by simp [ltA, toNat_lt5])
    (nonzero_op (c := 3) (by simp [fldA_27_22, toNat_lt5]) (by decide)) ?_
  simp [decodeFields, decodeAluR, rsv, fldA_31_28, fldA_27_22, fldA_6_0, bitsA_5_17, bitsA_5_12, bitsA_5_7, toNat_lt5]

theorem RoundTrip.mulhn (d : GReg) (a : GReg) (b : GReg) : RoundTrip.Statement (.mulhn d a b) := by
  refine roundTrip_of (w := fmtA 0x0 0x04 d.toNat a.toNat b.toNat 0) rfl (by simp [ltA, toNat_lt5])
    (nonzero_op (c := 4) (by simp [fldA_27_22, toNat_lt5]) (by decide)) ?_
  simp [decodeFields, decodeAluR, rsv, fldA_31_28, fldA_27_22, fldA_6_0, bitsA_5_17, bitsA_5_12, bitsA_5_7, toNat_lt5]

theorem RoundTrip.div (d : GReg) (a : GReg) (b : GReg) : RoundTrip.Statement (.div d a b) := by
  refine roundTrip_of (w := fmtA 0x0 0x05 d.toNat a.toNat b.toNat 0) rfl (by simp [ltA, toNat_lt5])
    (nonzero_op (c := 5) (by simp [fldA_27_22, toNat_lt5]) (by decide)) ?_
  simp [decodeFields, decodeAluR, rsv, fldA_31_28, fldA_27_22, fldA_6_0, bitsA_5_17, bitsA_5_12, bitsA_5_7, toNat_lt5]

theorem RoundTrip.divn (d : GReg) (a : GReg) (b : GReg) : RoundTrip.Statement (.divn d a b) := by
  refine roundTrip_of (w := fmtA 0x0 0x06 d.toNat a.toNat b.toNat 0) rfl (by simp [ltA, toNat_lt5])
    (nonzero_op (c := 6) (by simp [fldA_27_22, toNat_lt5]) (by decide)) ?_
  simp [decodeFields, decodeAluR, rsv, fldA_31_28, fldA_27_22, fldA_6_0, bitsA_5_17, bitsA_5_12, bitsA_5_7, toNat_lt5]

theorem RoundTrip.rem (d : GReg) (a : GReg) (b : GReg) : RoundTrip.Statement (.rem d a b) := by
  refine roundTrip_of (w := fmtA 0x0 0x07 d.toNat a.toNat b.toNat 0) rfl (by simp [ltA, toNat_lt5])
    (nonzero_op (c := 7) (by simp [fldA_27_22, toNat_lt5]) (by decide)) ?_
  simp [decodeFields, decodeAluR, rsv, fldA_31_28, fldA_27_22, fldA_6_0, bitsA_5_17, bitsA_5_12, bitsA_5_7, toNat_lt5]

theorem RoundTrip.remn (d : GReg) (a : GReg) (b : GReg) : RoundTrip.Statement (.remn d a b) := by
  refine roundTrip_of (w := fmtA 0x0 0x08 d.toNat a.toNat b.toNat 0) rfl (by simp [ltA, toNat_lt5])
    (nonzero_op (c := 8) (by simp [fldA_27_22, toNat_lt5]) (by decide)) ?_
  simp [decodeFields, decodeAluR, rsv, fldA_31_28, fldA_27_22, fldA_6_0, bitsA_5_17, bitsA_5_12, bitsA_5_7, toNat_lt5]

theorem RoundTrip.and (d : GReg) (a : GReg) (b : GReg) : RoundTrip.Statement (.and d a b) := by
  refine roundTrip_of (w := fmtA 0x0 0x09 d.toNat a.toNat b.toNat 0) rfl (by simp [ltA, toNat_lt5])
    (nonzero_op (c := 9) (by simp [fldA_27_22, toNat_lt5]) (by decide)) ?_
  simp [decodeFields, decodeAluR, rsv, fldA_31_28, fldA_27_22, fldA_6_0, bitsA_5_17, bitsA_5_12, bitsA_5_7, toNat_lt5]

theorem RoundTrip.or (d : GReg) (a : GReg) (b : GReg) : RoundTrip.Statement (.or d a b) := by
  refine roundTrip_of (w := fmtA 0x0 0x0A d.toNat a.toNat b.toNat 0) rfl (by simp [ltA, toNat_lt5])
    (nonzero_op (c := 10) (by simp [fldA_27_22, toNat_lt5]) (by decide)) ?_
  simp [decodeFields, decodeAluR, rsv, fldA_31_28, fldA_27_22, fldA_6_0, bitsA_5_17, bitsA_5_12, bitsA_5_7, toNat_lt5]

theorem RoundTrip.xor (d : GReg) (a : GReg) (b : GReg) : RoundTrip.Statement (.xor d a b) := by
  refine roundTrip_of (w := fmtA 0x0 0x0B d.toNat a.toNat b.toNat 0) rfl (by simp [ltA, toNat_lt5])
    (nonzero_op (c := 11) (by simp [fldA_27_22, toNat_lt5]) (by decide)) ?_
  simp [decodeFields, decodeAluR, rsv, fldA_31_28, fldA_27_22, fldA_6_0, bitsA_5_17, bitsA_5_12, bitsA_5_7, toNat_lt5]

theorem RoundTrip.andn (d : GReg) (a : GReg) (b : GReg) : RoundTrip.Statement (.andn d a b) := by
  refine roundTrip_of (w := fmtA 0x0 0x0C d.toNat a.toNat b.toNat 0) rfl (by simp [ltA, toNat_lt5])
    (nonzero_op (c := 12) (by simp [fldA_27_22, toNat_lt5]) (by decide)) ?_
  simp [decodeFields, decodeAluR, rsv, fldA_31_28, fldA_27_22, fldA_6_0, bitsA_5_17, bitsA_5_12, bitsA_5_7, toNat_lt5]

theorem RoundTrip.orn (d : GReg) (a : GReg) (b : GReg) : RoundTrip.Statement (.orn d a b) := by
  refine roundTrip_of (w := fmtA 0x0 0x0D d.toNat a.toNat b.toNat 0) rfl (by simp [ltA, toNat_lt5])
    (nonzero_op (c := 13) (by simp [fldA_27_22, toNat_lt5]) (by decide)) ?_
  simp [decodeFields, decodeAluR, rsv, fldA_31_28, fldA_27_22, fldA_6_0, bitsA_5_17, bitsA_5_12, bitsA_5_7, toNat_lt5]

theorem RoundTrip.sll (d : GReg) (a : GReg) (b : GReg) : RoundTrip.Statement (.sll d a b) := by
  refine roundTrip_of (w := fmtA 0x0 0x0E d.toNat a.toNat b.toNat 0) rfl (by simp [ltA, toNat_lt5])
    (nonzero_op (c := 14) (by simp [fldA_27_22, toNat_lt5]) (by decide)) ?_
  simp [decodeFields, decodeAluR, rsv, fldA_31_28, fldA_27_22, fldA_6_0, bitsA_5_17, bitsA_5_12, bitsA_5_7, toNat_lt5]

theorem RoundTrip.srl (d : GReg) (a : GReg) (b : GReg) : RoundTrip.Statement (.srl d a b) := by
  refine roundTrip_of (w := fmtA 0x0 0x0F d.toNat a.toNat b.toNat 0) rfl (by simp [ltA, toNat_lt5])
    (nonzero_op (c := 15) (by simp [fldA_27_22, toNat_lt5]) (by decide)) ?_
  simp [decodeFields, decodeAluR, rsv, fldA_31_28, fldA_27_22, fldA_6_0, bitsA_5_17, bitsA_5_12, bitsA_5_7, toNat_lt5]

theorem RoundTrip.sra (d : GReg) (a : GReg) (b : GReg) : RoundTrip.Statement (.sra d a b) := by
  refine roundTrip_of (w := fmtA 0x0 0x10 d.toNat a.toNat b.toNat 0) rfl (by simp [ltA, toNat_lt5])
    (nonzero_op (c := 16) (by simp [fldA_27_22, toNat_lt5]) (by decide)) ?_
  simp [decodeFields, decodeAluR, rsv, fldA_31_28, fldA_27_22, fldA_6_0, bitsA_5_17, bitsA_5_12, bitsA_5_7, toNat_lt5]

theorem RoundTrip.rol (d : GReg) (a : GReg) (b : GReg) : RoundTrip.Statement (.rol d a b) := by
  refine roundTrip_of (w := fmtA 0x0 0x11 d.toNat a.toNat b.toNat 0) rfl (by simp [ltA, toNat_lt5])
    (nonzero_op (c := 17) (by simp [fldA_27_22, toNat_lt5]) (by decide)) ?_
  simp [decodeFields, decodeAluR, rsv, fldA_31_28, fldA_27_22, fldA_6_0, bitsA_5_17, bitsA_5_12, bitsA_5_7, toNat_lt5]

theorem RoundTrip.ror (d : GReg) (a : GReg) (b : GReg) : RoundTrip.Statement (.ror d a b) := by
  refine roundTrip_of (w := fmtA 0x0 0x12 d.toNat a.toNat b.toNat 0) rfl (by simp [ltA, toNat_lt5])
    (nonzero_op (c := 18) (by simp [fldA_27_22, toNat_lt5]) (by decide)) ?_
  simp [decodeFields, decodeAluR, rsv, fldA_31_28, fldA_27_22, fldA_6_0, bitsA_5_17, bitsA_5_12, bitsA_5_7, toNat_lt5]

theorem RoundTrip.min (d : GReg) (a : GReg) (b : GReg) : RoundTrip.Statement (.min d a b) := by
  refine roundTrip_of (w := fmtA 0x0 0x13 d.toNat a.toNat b.toNat 0) rfl (by simp [ltA, toNat_lt5])
    (nonzero_op (c := 19) (by simp [fldA_27_22, toNat_lt5]) (by decide)) ?_
  simp [decodeFields, decodeAluR, rsv, fldA_31_28, fldA_27_22, fldA_6_0, bitsA_5_17, bitsA_5_12, bitsA_5_7, toNat_lt5]

theorem RoundTrip.max (d : GReg) (a : GReg) (b : GReg) : RoundTrip.Statement (.max d a b) := by
  refine roundTrip_of (w := fmtA 0x0 0x14 d.toNat a.toNat b.toNat 0) rfl (by simp [ltA, toNat_lt5])
    (nonzero_op (c := 20) (by simp [fldA_27_22, toNat_lt5]) (by decide)) ?_
  simp [decodeFields, decodeAluR, rsv, fldA_31_28, fldA_27_22, fldA_6_0, bitsA_5_17, bitsA_5_12, bitsA_5_7, toNat_lt5]

theorem RoundTrip.minn (d : GReg) (a : GReg) (b : GReg) : RoundTrip.Statement (.minn d a b) := by
  refine roundTrip_of (w := fmtA 0x0 0x15 d.toNat a.toNat b.toNat 0) rfl (by simp [ltA, toNat_lt5])
    (nonzero_op (c := 21) (by simp [fldA_27_22, toNat_lt5]) (by decide)) ?_
  simp [decodeFields, decodeAluR, rsv, fldA_31_28, fldA_27_22, fldA_6_0, bitsA_5_17, bitsA_5_12, bitsA_5_7, toNat_lt5]

theorem RoundTrip.maxn (d : GReg) (a : GReg) (b : GReg) : RoundTrip.Statement (.maxn d a b) := by
  refine roundTrip_of (w := fmtA 0x0 0x16 d.toNat a.toNat b.toNat 0) rfl (by simp [ltA, toNat_lt5])
    (nonzero_op (c := 22) (by simp [fldA_27_22, toNat_lt5]) (by decide)) ?_
  simp [decodeFields, decodeAluR, rsv, fldA_31_28, fldA_27_22, fldA_6_0, bitsA_5_17, bitsA_5_12, bitsA_5_7, toNat_lt5]

theorem RoundTrip.slt (d : GReg) (a : GReg) (b : GReg) : RoundTrip.Statement (.slt d a b) := by
  refine roundTrip_of (w := fmtA 0x0 0x17 d.toNat a.toNat b.toNat 0) rfl (by simp [ltA, toNat_lt5])
    (nonzero_op (c := 23) (by simp [fldA_27_22, toNat_lt5]) (by decide)) ?_
  simp [decodeFields, decodeAluR, rsv, fldA_31_28, fldA_27_22, fldA_6_0, bitsA_5_17, bitsA_5_12, bitsA_5_7, toNat_lt5]

theorem RoundTrip.sltn (d : GReg) (a : GReg) (b : GReg) : RoundTrip.Statement (.sltn d a b) := by
  refine roundTrip_of (w := fmtA 0x0 0x18 d.toNat a.toNat b.toNat 0) rfl (by simp [ltA, toNat_lt5])
    (nonzero_op (c := 24) (by simp [fldA_27_22, toNat_lt5]) (by decide)) ?_
  simp [decodeFields, decodeAluR, rsv, fldA_31_28, fldA_27_22, fldA_6_0, bitsA_5_17, bitsA_5_12, bitsA_5_7, toNat_lt5]

theorem RoundTrip.sel (d : GReg) (a : GReg) (b : GReg) (c : GReg) : RoundTrip.Statement (.sel d a b c) := by
  refine roundTrip_of (w := fmtA 0x0 0x19 d.toNat a.toNat b.toNat (c.toNat * 4)) rfl (by simp [ltAm62, toNat_lt5])
    (nonzero_op (c := 25) (by simp [fldAm62_27_22, toNat_lt5]) (by decide)) ?_
  simp [decodeFields, decodeAluR, rsv, fldAm62_31_28, fldAm62_27_22, fldAm62_1_0, bitsAm62_5_17, bitsAm62_5_12, bitsAm62_5_7, bitsAm62_5_2, toNat_lt5]

theorem RoundTrip.clz (d : GReg) (a : GReg) : RoundTrip.Statement (.clz d a) := by
  refine roundTrip_of (w := fmtA 0x0 0x1A d.toNat a.toNat 0 0) rfl (by simp [ltA, toNat_lt5])
    (nonzero_op (c := 26) (by simp [fldA_27_22, toNat_lt5]) (by decide)) ?_
  simp [decodeFields, decodeAluR, rsv, fldA_31_28, fldA_27_22, fldA_11_0, bitsA_5_17, bitsA_5_12, toNat_lt5]

theorem RoundTrip.ctz (d : GReg) (a : GReg) : RoundTrip.Statement (.ctz d a) := by
  refine roundTrip_of (w := fmtA 0x0 0x1B d.toNat a.toNat 0 0) rfl (by simp [ltA, toNat_lt5])
    (nonzero_op (c := 27) (by simp [fldA_27_22, toNat_lt5]) (by decide)) ?_
  simp [decodeFields, decodeAluR, rsv, fldA_31_28, fldA_27_22, fldA_11_0, bitsA_5_17, bitsA_5_12, toNat_lt5]

theorem RoundTrip.popc (d : GReg) (a : GReg) : RoundTrip.Statement (.popc d a) := by
  refine roundTrip_of (w := fmtA 0x0 0x1C d.toNat a.toNat 0 0) rfl (by simp [ltA, toNat_lt5])
    (nonzero_op (c := 28) (by simp [fldA_27_22, toNat_lt5]) (by decide)) ?_
  simp [decodeFields, decodeAluR, rsv, fldA_31_28, fldA_27_22, fldA_11_0, bitsA_5_17, bitsA_5_12, toNat_lt5]

theorem RoundTrip.brev (d : GReg) (a : GReg) : RoundTrip.Statement (.brev d a) := by
  refine roundTrip_of (w := fmtA 0x0 0x1D d.toNat a.toNat 0 0) rfl (by simp [ltA, toNat_lt5])
    (nonzero_op (c := 29) (by simp [fldA_27_22, toNat_lt5]) (by decide)) ?_
  simp [decodeFields, decodeAluR, rsv, fldA_31_28, fldA_27_22, fldA_11_0, bitsA_5_17, bitsA_5_12, toNat_lt5]

theorem RoundTrip.bfx (d : GReg) (a : GReg) (b : GReg) : RoundTrip.Statement (.bfx d a b) := by
  refine roundTrip_of (w := fmtA 0x0 0x1E d.toNat a.toNat b.toNat 0) rfl (by simp [ltA, toNat_lt5])
    (nonzero_op (c := 30) (by simp [fldA_27_22, toNat_lt5]) (by decide)) ?_
  simp [decodeFields, decodeAluR, rsv, fldA_31_28, fldA_27_22, fldA_6_0, bitsA_5_17, bitsA_5_12, bitsA_5_7, toNat_lt5]

theorem RoundTrip.bfi (d : GReg) (a : GReg) (b : GReg) : RoundTrip.Statement (.bfi d a b) := by
  refine roundTrip_of (w := fmtA 0x0 0x1F d.toNat a.toNat b.toNat 0) rfl (by simp [ltA, toNat_lt5])
    (nonzero_op (c := 31) (by simp [fldA_27_22, toNat_lt5]) (by decide)) ?_
  simp [decodeFields, decodeAluR, rsv, fldA_31_28, fldA_27_22, fldA_6_0, bitsA_5_17, bitsA_5_12, bitsA_5_7, toNat_lt5]

theorem RoundTrip.clmul (d : GReg) (a : GReg) (b : GReg) : RoundTrip.Statement (.clmul d a b) := by
  refine roundTrip_of (w := fmtA 0x0 0x20 d.toNat a.toNat b.toNat 0) rfl (by simp [ltA, toNat_lt5])
    (nonzero_op (c := 32) (by simp [fldA_27_22, toNat_lt5]) (by decide)) ?_
  simp [decodeFields, decodeAluR, rsv, fldA_31_28, fldA_27_22, fldA_6_0, bitsA_5_17, bitsA_5_12, bitsA_5_7, toNat_lt5]

theorem RoundTrip.clmulh (d : GReg) (a : GReg) (b : GReg) : RoundTrip.Statement (.clmulh d a b) := by
  refine roundTrip_of (w := fmtA 0x0 0x21 d.toNat a.toNat b.toNat 0) rfl (by simp [ltA, toNat_lt5])
    (nonzero_op (c := 33) (by simp [fldA_27_22, toNat_lt5]) (by decide)) ?_
  simp [decodeFields, decodeAluR, rsv, fldA_31_28, fldA_27_22, fldA_6_0, bitsA_5_17, bitsA_5_12, bitsA_5_7, toNat_lt5]

theorem RoundTrip.addi (d : GReg) (a : GReg) (imm : BitVec 14) : RoundTrip.Statement (.addi d a imm) := by
  refine roundTrip_of (w := fmtI 0x1 0x00 d.toNat a.toNat imm.toNat) rfl (by simp [ltI, toNat_lt5, toNat_lt14])
    (nonzero_cls (c := 1) (by simp [fldI_31_28, toNat_lt5, toNat_lt14]) (by decide)) ?_
  simp [decodeFields, decodeAluI, fldI_31_28, fldI_27_24, bitsI_5_19, bitsI_5_14, bitsI_14_0, toNat_lt5, toNat_lt14]

theorem RoundTrip.andi (d : GReg) (a : GReg) (imm : BitVec 14) : RoundTrip.Statement (.andi d a imm) := by
  refine roundTrip_of (w := fmtI 0x1 0x01 d.toNat a.toNat imm.toNat) rfl (by simp [ltI, toNat_lt5, toNat_lt14])
    (nonzero_cls (c := 1) (by simp [fldI_31_28, toNat_lt5, toNat_lt14]) (by decide)) ?_
  simp [decodeFields, decodeAluI, fldI_31_28, fldI_27_24, bitsI_5_19, bitsI_5_14, bitsI_14_0, toNat_lt5, toNat_lt14]

theorem RoundTrip.ori (d : GReg) (a : GReg) (imm : BitVec 14) : RoundTrip.Statement (.ori d a imm) := by
  refine roundTrip_of (w := fmtI 0x1 0x02 d.toNat a.toNat imm.toNat) rfl (by simp [ltI, toNat_lt5, toNat_lt14])
    (nonzero_cls (c := 1) (by simp [fldI_31_28, toNat_lt5, toNat_lt14]) (by decide)) ?_
  simp [decodeFields, decodeAluI, fldI_31_28, fldI_27_24, bitsI_5_19, bitsI_5_14, bitsI_14_0, toNat_lt5, toNat_lt14]

theorem RoundTrip.xori (d : GReg) (a : GReg) (imm : BitVec 14) : RoundTrip.Statement (.xori d a imm) := by
  refine roundTrip_of (w := fmtI 0x1 0x03 d.toNat a.toNat imm.toNat) rfl (by simp [ltI, toNat_lt5, toNat_lt14])
    (nonzero_cls (c := 1) (by simp [fldI_31_28, toNat_lt5, toNat_lt14]) (by decide)) ?_
  simp [decodeFields, decodeAluI, fldI_31_28, fldI_27_24, bitsI_5_19, bitsI_5_14, bitsI_14_0, toNat_lt5, toNat_lt14]

theorem RoundTrip.slli (d : GReg) (a : GReg) (sh : BitVec 6) : RoundTrip.Statement (.slli d a sh) := by
  refine roundTrip_of (w := fmtI 0x1 0x04 d.toNat a.toNat sh.toNat) rfl (by simp [ltI, toNat_lt5, toNat_lt6, toNat6_lt14])
    (nonzero_cls (c := 1) (by simp [fldI_31_28, toNat_lt5, toNat_lt6, toNat6_lt14]) (by decide)) ?_
  simp [decodeFields, decodeAluI, rsv, fldI_31_28, fldI_27_24, fldI_13_6, bitsI_5_19, bitsI_5_14, bitsI_6_0, toNat_lt5, toNat_lt6, toNat6_lt14]

theorem RoundTrip.srli (d : GReg) (a : GReg) (sh : BitVec 6) : RoundTrip.Statement (.srli d a sh) := by
  refine roundTrip_of (w := fmtI 0x1 0x05 d.toNat a.toNat sh.toNat) rfl (by simp [ltI, toNat_lt5, toNat_lt6, toNat6_lt14])
    (nonzero_cls (c := 1) (by simp [fldI_31_28, toNat_lt5, toNat_lt6, toNat6_lt14]) (by decide)) ?_
  simp [decodeFields, decodeAluI, rsv, fldI_31_28, fldI_27_24, fldI_13_6, bitsI_5_19, bitsI_5_14, bitsI_6_0, toNat_lt5, toNat_lt6, toNat6_lt14]

theorem RoundTrip.srai (d : GReg) (a : GReg) (sh : BitVec 6) : RoundTrip.Statement (.srai d a sh) := by
  refine roundTrip_of (w := fmtI 0x1 0x06 d.toNat a.toNat sh.toNat) rfl (by simp [ltI, toNat_lt5, toNat_lt6, toNat6_lt14])
    (nonzero_cls (c := 1) (by simp [fldI_31_28, toNat_lt5, toNat_lt6, toNat6_lt14]) (by decide)) ?_
  simp [decodeFields, decodeAluI, rsv, fldI_31_28, fldI_27_24, fldI_13_6, bitsI_5_19, bitsI_5_14, bitsI_6_0, toNat_lt5, toNat_lt6, toNat6_lt14]

theorem RoundTrip.slti (d : GReg) (a : GReg) (imm : BitVec 14) : RoundTrip.Statement (.slti d a imm) := by
  refine roundTrip_of (w := fmtI 0x1 0x07 d.toNat a.toNat imm.toNat) rfl (by simp [ltI, toNat_lt5, toNat_lt14])
    (nonzero_cls (c := 1) (by simp [fldI_31_28, toNat_lt5, toNat_lt14]) (by decide)) ?_
  simp [decodeFields, decodeAluI, fldI_31_28, fldI_27_24, bitsI_5_19, bitsI_5_14, bitsI_14_0, toNat_lt5, toNat_lt14]

theorem RoundTrip.lui (j : BitVec 3) (imm : BitVec 23) : RoundTrip.Statement (.lui j imm) := by
  refine roundTrip_of (w := fmtJ 0x1 0x02 j.toNat imm.toNat) rfl (by simp [ltJ, toNat_lt3, toNat_lt23])
    (nonzero_cls (c := 1) (by simp [fldJ_31_28, toNat_lt3, toNat_lt23]) (by decide)) ?_
  simp [decodeFields, decodeAluI, fldJ_31_28, fldJ_27_24, bitsJ_3_23, bitsJ_23_0, toNat_lt3, toNat_lt23]
  have hj : j.toNat / 2 = 0 ∨ j.toNat / 2 = 1 ∨ j.toNat / 2 = 2 ∨ j.toNat / 2 = 3 := by have := j.isLt; omega
  rcases hj with hj | hj | hj | hj <;> simp [hj]

theorem RoundTrip.addpc (j : BitVec 3) (imm : BitVec 23) : RoundTrip.Statement (.addpc j imm) := by
  refine roundTrip_of (w := fmtJ 0x1 0x03 j.toNat imm.toNat) rfl (by simp [ltJ, toNat_lt3, toNat_lt23])
    (nonzero_cls (c := 1) (by simp [fldJ_31_28, toNat_lt3, toNat_lt23]) (by decide)) ?_
  simp [decodeFields, decodeAluI, fldJ_31_28, fldJ_27_24, bitsJ_3_23, bitsJ_23_0, toNat_lt3, toNat_lt23]
  have hj : j.toNat / 2 = 0 ∨ j.toNat / 2 = 1 ∨ j.toNat / 2 = 2 ∨ j.toNat / 2 = 3 := by have := j.isLt; omega
  rcases hj with hj | hj | hj | hj <;> simp [hj]

theorem RoundTrip.beq (a : GReg) (b : GReg) (off : BitVec 14) : RoundTrip.Statement (.beq a b off) := by
  refine roundTrip_of (w := fmtI 0x5 0x00 a.toNat b.toNat off.toNat) rfl (by simp [ltI, toNat_lt5, toNat_lt14])
    (nonzero_cls (c := 5) (by simp [fldI_31_28, toNat_lt5, toNat_lt14]) (by decide)) ?_
  simp [decodeFields, decodeBranch, fldI_31_28, fldI_27_24, bitsI_5_19, bitsI_5_14, bitsI_14_0, toNat_lt5, toNat_lt14]

theorem RoundTrip.bne (a : GReg) (b : GReg) (off : BitVec 14) : RoundTrip.Statement (.bne a b off) := by
  refine roundTrip_of (w := fmtI 0x5 0x01 a.toNat b.toNat off.toNat) rfl (by simp [ltI, toNat_lt5, toNat_lt14])
    (nonzero_cls (c := 5) (by simp [fldI_31_28, toNat_lt5, toNat_lt14]) (by decide)) ?_
  simp [decodeFields, decodeBranch, fldI_31_28, fldI_27_24, bitsI_5_19, bitsI_5_14, bitsI_14_0, toNat_lt5, toNat_lt14]

theorem RoundTrip.blt (a : GReg) (b : GReg) (off : BitVec 14) : RoundTrip.Statement (.blt a b off) := by
  refine roundTrip_of (w := fmtI 0x5 0x02 a.toNat b.toNat off.toNat) rfl (by simp [ltI, toNat_lt5, toNat_lt14])
    (nonzero_cls (c := 5) (by simp [fldI_31_28, toNat_lt5, toNat_lt14]) (by decide)) ?_
  simp [decodeFields, decodeBranch, fldI_31_28, fldI_27_24, bitsI_5_19, bitsI_5_14, bitsI_14_0, toNat_lt5, toNat_lt14]

theorem RoundTrip.bge (a : GReg) (b : GReg) (off : BitVec 14) : RoundTrip.Statement (.bge a b off) := by
  refine roundTrip_of (w := fmtI 0x5 0x03 a.toNat b.toNat off.toNat) rfl (by simp [ltI, toNat_lt5, toNat_lt14])
    (nonzero_cls (c := 5) (by simp [fldI_31_28, toNat_lt5, toNat_lt14]) (by decide)) ?_
  simp [decodeFields, decodeBranch, fldI_31_28, fldI_27_24, bitsI_5_19, bitsI_5_14, bitsI_14_0, toNat_lt5, toNat_lt14]

theorem RoundTrip.bltn (a : GReg) (b : GReg) (off : BitVec 14) : RoundTrip.Statement (.bltn a b off) := by
  refine roundTrip_of (w := fmtI 0x5 0x04 a.toNat b.toNat off.toNat) rfl (by simp [ltI, toNat_lt5, toNat_lt14])
    (nonzero_cls (c := 5) (by simp [fldI_31_28, toNat_lt5, toNat_lt14]) (by decide)) ?_
  simp [decodeFields, decodeBranch, fldI_31_28, fldI_27_24, bitsI_5_19, bitsI_5_14, bitsI_14_0, toNat_lt5, toNat_lt14]

theorem RoundTrip.bgen (a : GReg) (b : GReg) (off : BitVec 14) : RoundTrip.Statement (.bgen a b off) := by
  refine roundTrip_of (w := fmtI 0x5 0x05 a.toNat b.toNat off.toNat) rfl (by simp [ltI, toNat_lt5, toNat_lt14])
    (nonzero_cls (c := 5) (by simp [fldI_31_28, toNat_lt5, toNat_lt14]) (by decide)) ?_
  simp [decodeFields, decodeBranch, fldI_31_28, fldI_27_24, bitsI_5_19, bitsI_5_14, bitsI_14_0, toNat_lt5, toNat_lt14]

theorem RoundTrip.jal (j : BitVec 3) (imm : BitVec 23) : RoundTrip.Statement (.jal j imm) := by
  refine roundTrip_of (w := fmtJ 0x6 0x00 j.toNat imm.toNat) rfl (by simp [ltJ, toNat_lt3, toNat_lt23])
    (nonzero_cls (c := 6) (by simp [fldJ_31_28, toNat_lt3, toNat_lt23]) (by decide)) ?_
  simp [decodeFields, decodeJump, fldJ_31_28, fldJ_27_24, bitsJ_3_23, bitsJ_23_0, toNat_lt3, toNat_lt23]
  have hj : j.toNat / 2 = 0 ∨ j.toNat / 2 = 1 ∨ j.toNat / 2 = 2 ∨ j.toNat / 2 = 3 := by have := j.isLt; omega
  rcases hj with hj | hj | hj | hj <;> simp [hj]

theorem RoundTrip.jalr (d : GReg) (a : GReg) (imm : BitVec 14) : RoundTrip.Statement (.jalr d a imm) := by
  refine roundTrip_of (w := fmtI 0x6 0x04 d.toNat a.toNat imm.toNat) rfl (by simp [ltI, toNat_lt5, toNat_lt14])
    (nonzero_cls (c := 6) (by simp [fldI_31_28, toNat_lt5, toNat_lt14]) (by decide)) ?_
  simp [decodeFields, decodeJump, fldI_31_28, fldI_27_24, bitsI_5_19, bitsI_5_14, bitsI_14_0, toNat_lt5, toNat_lt14]

theorem RoundTrip.ldB (d : GReg) (a : GReg) (imm : BitVec 14) : RoundTrip.Statement (.ldB d a imm) := by
  refine roundTrip_of (w := fmtI 0x2 0x00 d.toNat a.toNat imm.toNat) rfl (by simp [ltI, toNat_lt5, toNat_lt14])
    (nonzero_cls (c := 2) (by simp [fldI_31_28, toNat_lt5, toNat_lt14]) (by decide)) ?_
  simp [decodeFields, decodeLoad, fldI_31_28, fldI_27_24, bitsI_5_19, bitsI_5_14, bitsI_14_0, toNat_lt5, toNat_lt14]

theorem RoundTrip.ldH (d : GReg) (a : GReg) (imm : BitVec 14) : RoundTrip.Statement (.ldH d a imm) := by
  refine roundTrip_of (w := fmtI 0x2 0x01 d.toNat a.toNat imm.toNat) rfl (by simp [ltI, toNat_lt5, toNat_lt14])
    (nonzero_cls (c := 2) (by simp [fldI_31_28, toNat_lt5, toNat_lt14]) (by decide)) ?_
  simp [decodeFields, decodeLoad, fldI_31_28, fldI_27_24, bitsI_5_19, bitsI_5_14, bitsI_14_0, toNat_lt5, toNat_lt14]

theorem RoundTrip.ldW (d : GReg) (a : GReg) (imm : BitVec 14) : RoundTrip.Statement (.ldW d a imm) := by
  refine roundTrip_of (w := fmtI 0x2 0x02 d.toNat a.toNat imm.toNat) rfl (by simp [ltI, toNat_lt5, toNat_lt14])
    (nonzero_cls (c := 2) (by simp [fldI_31_28, toNat_lt5, toNat_lt14]) (by decide)) ?_
  simp [decodeFields, decodeLoad, fldI_31_28, fldI_27_24, bitsI_5_19, bitsI_5_14, bitsI_14_0, toNat_lt5, toNat_lt14]

theorem RoundTrip.ldD (d : GReg) (a : GReg) (imm : BitVec 14) : RoundTrip.Statement (.ldD d a imm) := by
  refine roundTrip_of (w := fmtI 0x2 0x03 d.toNat a.toNat imm.toNat) rfl (by simp [ltI, toNat_lt5, toNat_lt14])
    (nonzero_cls (c := 2) (by simp [fldI_31_28, toNat_lt5, toNat_lt14]) (by decide)) ?_
  simp [decodeFields, decodeLoad, fldI_31_28, fldI_27_24, bitsI_5_19, bitsI_5_14, bitsI_14_0, toNat_lt5, toNat_lt14]

theorem RoundTrip.ldBn (d : GReg) (a : GReg) (imm : BitVec 14) : RoundTrip.Statement (.ldBn d a imm) := by
  refine roundTrip_of (w := fmtI 0x2 0x04 d.toNat a.toNat imm.toNat) rfl (by simp [ltI, toNat_lt5, toNat_lt14])
    (nonzero_cls (c := 2) (by simp [fldI_31_28, toNat_lt5, toNat_lt14]) (by decide)) ?_
  simp [decodeFields, decodeLoad, fldI_31_28, fldI_27_24, bitsI_5_19, bitsI_5_14, bitsI_14_0, toNat_lt5, toNat_lt14]

theorem RoundTrip.ldHn (d : GReg) (a : GReg) (imm : BitVec 14) : RoundTrip.Statement (.ldHn d a imm) := by
  refine roundTrip_of (w := fmtI 0x2 0x05 d.toNat a.toNat imm.toNat) rfl (by simp [ltI, toNat_lt5, toNat_lt14])
    (nonzero_cls (c := 2) (by simp [fldI_31_28, toNat_lt5, toNat_lt14]) (by decide)) ?_
  simp [decodeFields, decodeLoad, fldI_31_28, fldI_27_24, bitsI_5_19, bitsI_5_14, bitsI_14_0, toNat_lt5, toNat_lt14]

theorem RoundTrip.ldWn (d : GReg) (a : GReg) (imm : BitVec 14) : RoundTrip.Statement (.ldWn d a imm) := by
  refine roundTrip_of (w := fmtI 0x2 0x06 d.toNat a.toNat imm.toNat) rfl (by simp [ltI, toNat_lt5, toNat_lt14])
    (nonzero_cls (c := 2) (by simp [fldI_31_28, toNat_lt5, toNat_lt14]) (by decide)) ?_
  simp [decodeFields, decodeLoad, fldI_31_28, fldI_27_24, bitsI_5_19, bitsI_5_14, bitsI_14_0, toNat_lt5, toNat_lt14]

theorem RoundTrip.ldacqW (d : GReg) (a : GReg) (imm : BitVec 14) : RoundTrip.Statement (.ldacqW d a imm) := by
  refine roundTrip_of (w := fmtI 0x2 0x08 d.toNat a.toNat imm.toNat) rfl (by simp [ltI, toNat_lt5, toNat_lt14])
    (nonzero_cls (c := 2) (by simp [fldI_31_28, toNat_lt5, toNat_lt14]) (by decide)) ?_
  simp [decodeFields, decodeLoad, fldI_31_28, fldI_27_24, bitsI_5_19, bitsI_5_14, bitsI_14_0, toNat_lt5, toNat_lt14]

theorem RoundTrip.ldacqD (d : GReg) (a : GReg) (imm : BitVec 14) : RoundTrip.Statement (.ldacqD d a imm) := by
  refine roundTrip_of (w := fmtI 0x2 0x09 d.toNat a.toNat imm.toNat) rfl (by simp [ltI, toNat_lt5, toNat_lt14])
    (nonzero_cls (c := 2) (by simp [fldI_31_28, toNat_lt5, toNat_lt14]) (by decide)) ?_
  simp [decodeFields, decodeLoad, fldI_31_28, fldI_27_24, bitsI_5_19, bitsI_5_14, bitsI_14_0, toNat_lt5, toNat_lt14]

theorem RoundTrip.ldntD (d : GReg) (a : GReg) (imm : BitVec 14) : RoundTrip.Statement (.ldntD d a imm) := by
  refine roundTrip_of (w := fmtI 0x2 0x0A d.toNat a.toNat imm.toNat) rfl (by simp [ltI, toNat_lt5, toNat_lt14])
    (nonzero_cls (c := 2) (by simp [fldI_31_28, toNat_lt5, toNat_lt14]) (by decide)) ?_
  simp [decodeFields, decodeLoad, fldI_31_28, fldI_27_24, bitsI_5_19, bitsI_5_14, bitsI_14_0, toNat_lt5, toNat_lt14]

theorem RoundTrip.stB (d : GReg) (a : GReg) (imm : BitVec 14) : RoundTrip.Statement (.stB d a imm) := by
  refine roundTrip_of (w := fmtI 0x3 0x00 d.toNat a.toNat imm.toNat) rfl (by simp [ltI, toNat_lt5, toNat_lt14])
    (nonzero_cls (c := 3) (by simp [fldI_31_28, toNat_lt5, toNat_lt14]) (by decide)) ?_
  simp [decodeFields, decodeStore, fldI_31_28, fldI_27_24, bitsI_5_19, bitsI_5_14, bitsI_14_0, toNat_lt5, toNat_lt14]

theorem RoundTrip.stH (d : GReg) (a : GReg) (imm : BitVec 14) : RoundTrip.Statement (.stH d a imm) := by
  refine roundTrip_of (w := fmtI 0x3 0x01 d.toNat a.toNat imm.toNat) rfl (by simp [ltI, toNat_lt5, toNat_lt14])
    (nonzero_cls (c := 3) (by simp [fldI_31_28, toNat_lt5, toNat_lt14]) (by decide)) ?_
  simp [decodeFields, decodeStore, fldI_31_28, fldI_27_24, bitsI_5_19, bitsI_5_14, bitsI_14_0, toNat_lt5, toNat_lt14]

theorem RoundTrip.stW (d : GReg) (a : GReg) (imm : BitVec 14) : RoundTrip.Statement (.stW d a imm) := by
  refine roundTrip_of (w := fmtI 0x3 0x02 d.toNat a.toNat imm.toNat) rfl (by simp [ltI, toNat_lt5, toNat_lt14])
    (nonzero_cls (c := 3) (by simp [fldI_31_28, toNat_lt5, toNat_lt14]) (by decide)) ?_
  simp [decodeFields, decodeStore, fldI_31_28, fldI_27_24, bitsI_5_19, bitsI_5_14, bitsI_14_0, toNat_lt5, toNat_lt14]

theorem RoundTrip.stD (d : GReg) (a : GReg) (imm : BitVec 14) : RoundTrip.Statement (.stD d a imm) := by
  refine roundTrip_of (w := fmtI 0x3 0x03 d.toNat a.toNat imm.toNat) rfl (by simp [ltI, toNat_lt5, toNat_lt14])
    (nonzero_cls (c := 3) (by simp [fldI_31_28, toNat_lt5, toNat_lt14]) (by decide)) ?_
  simp [decodeFields, decodeStore, fldI_31_28, fldI_27_24, bitsI_5_19, bitsI_5_14, bitsI_14_0, toNat_lt5, toNat_lt14]

theorem RoundTrip.strelW (d : GReg) (a : GReg) (imm : BitVec 14) : RoundTrip.Statement (.strelW d a imm) := by
  refine roundTrip_of (w := fmtI 0x3 0x04 d.toNat a.toNat imm.toNat) rfl (by simp [ltI, toNat_lt5, toNat_lt14])
    (nonzero_cls (c := 3) (by simp [fldI_31_28, toNat_lt5, toNat_lt14]) (by decide)) ?_
  simp [decodeFields, decodeStore, fldI_31_28, fldI_27_24, bitsI_5_19, bitsI_5_14, bitsI_14_0, toNat_lt5, toNat_lt14]

theorem RoundTrip.strelD (d : GReg) (a : GReg) (imm : BitVec 14) : RoundTrip.Statement (.strelD d a imm) := by
  refine roundTrip_of (w := fmtI 0x3 0x05 d.toNat a.toNat imm.toNat) rfl (by simp [ltI, toNat_lt5, toNat_lt14])
    (nonzero_cls (c := 3) (by simp [fldI_31_28, toNat_lt5, toNat_lt14]) (by decide)) ?_
  simp [decodeFields, decodeStore, fldI_31_28, fldI_27_24, bitsI_5_19, bitsI_5_14, bitsI_14_0, toNat_lt5, toNat_lt14]

theorem RoundTrip.stntD (d : GReg) (a : GReg) (imm : BitVec 14) : RoundTrip.Statement (.stntD d a imm) := by
  refine roundTrip_of (w := fmtI 0x3 0x06 d.toNat a.toNat imm.toNat) rfl (by simp [ltI, toNat_lt5, toNat_lt14])
    (nonzero_cls (c := 3) (by simp [fldI_31_28, toNat_lt5, toNat_lt14]) (by decide)) ?_
  simp [decodeFields, decodeStore, fldI_31_28, fldI_27_24, bitsI_5_19, bitsI_5_14, bitsI_14_0, toNat_lt5, toNat_lt14]

theorem RoundTrip.mstoreW (d : GReg) (a : GReg) (imm : BitVec 14) : RoundTrip.Statement (.mstoreW d a imm) := by
  refine roundTrip_of (w := fmtI 0x3 0x07 d.toNat a.toNat imm.toNat) rfl (by simp [ltI, toNat_lt5, toNat_lt14])
    (nonzero_cls (c := 3) (by simp [fldI_31_28, toNat_lt5, toNat_lt14]) (by decide)) ?_
  simp [decodeFields, decodeStore, fldI_31_28, fldI_27_24, bitsI_5_19, bitsI_5_14, bitsI_14_0, toNat_lt5, toNat_lt14]

theorem RoundTrip.mstoreD (d : GReg) (a : GReg) (imm : BitVec 14) : RoundTrip.Statement (.mstoreD d a imm) := by
  refine roundTrip_of (w := fmtI 0x3 0x08 d.toNat a.toNat imm.toNat) rfl (by simp [ltI, toNat_lt5, toNat_lt14])
    (nonzero_cls (c := 3) (by simp [fldI_31_28, toNat_lt5, toNat_lt14]) (by decide)) ?_
  simp [decodeFields, decodeStore, fldI_31_28, fldI_27_24, bitsI_5_19, bitsI_5_14, bitsI_14_0, toNat_lt5, toNat_lt14]

theorem RoundTrip.amoadd (d : GReg) (a : GReg) (b : GReg) (width : AmoWidth) (ord : AmoOrd) : RoundTrip.Statement (.amoadd d a b width ord) := by
  refine roundTrip_of (w := fmtA 0x4 0x00 d.toNat a.toNat b.toNat (width.code * 64 + ord.code * 16)) rfl (by simp [ltAm66m54, toNat_lt5, amoWidth_lt, amoWidth_le, amoOrd_lt])
    (nonzero_cls (c := 4) (by simp [fldAm66m54_31_28, toNat_lt5, amoWidth_lt, amoWidth_le, amoOrd_lt]) (by decide)) ?_
  simp [decodeFields, decodeSync, rsv, fldAm66m54_31_28, fldAm66m54_27_22, fldAm66m54_3_0, fldAm66m54_6_6, fldAm66m54_5_4, bitsAm66m54_5_17, bitsAm66m54_5_12, bitsAm66m54_5_7, toNat_lt5, amoWidth_lt, amoWidth_le, amoOrd_lt, amoWidth_code, amoOrd_code]

theorem RoundTrip.amoand (d : GReg) (a : GReg) (b : GReg) (width : AmoWidth) (ord : AmoOrd) : RoundTrip.Statement (.amoand d a b width ord) := by
  refine roundTrip_of (w := fmtA 0x4 0x01 d.toNat a.toNat b.toNat (width.code * 64 + ord.code * 16)) rfl (by simp [ltAm66m54, toNat_lt5, amoWidth_lt, amoWidth_le, amoOrd_lt])
    (nonzero_cls (c := 4) (by simp [fldAm66m54_31_28, toNat_lt5, amoWidth_lt, amoWidth_le, amoOrd_lt]) (by decide)) ?_
  simp [decodeFields, decodeSync, rsv, fldAm66m54_31_28, fldAm66m54_27_22, fldAm66m54_3_0, fldAm66m54_6_6, fldAm66m54_5_4, bitsAm66m54_5_17, bitsAm66m54_5_12, bitsAm66m54_5_7, toNat_lt5, amoWidth_lt, amoWidth_le, amoOrd_lt, amoWidth_code, amoOrd_code]

theorem RoundTrip.amoor (d : GReg) (a : GReg) (b : GReg) (width : AmoWidth) (ord : AmoOrd) : RoundTrip.Statement (.amoor d a b width ord) := by
  refine roundTrip_of (w := fmtA 0x4 0x02 d.toNat a.toNat b.toNat (width.code * 64 + ord.code * 16)) rfl (by simp [ltAm66m54, toNat_lt5, amoWidth_lt, amoWidth_le, amoOrd_lt])
    (nonzero_cls (c := 4) (by simp [fldAm66m54_31_28, toNat_lt5, amoWidth_lt, amoWidth_le, amoOrd_lt]) (by decide)) ?_
  simp [decodeFields, decodeSync, rsv, fldAm66m54_31_28, fldAm66m54_27_22, fldAm66m54_3_0, fldAm66m54_6_6, fldAm66m54_5_4, bitsAm66m54_5_17, bitsAm66m54_5_12, bitsAm66m54_5_7, toNat_lt5, amoWidth_lt, amoWidth_le, amoOrd_lt, amoWidth_code, amoOrd_code]

theorem RoundTrip.amoxor (d : GReg) (a : GReg) (b : GReg) (width : AmoWidth) (ord : AmoOrd) : RoundTrip.Statement (.amoxor d a b width ord) := by
  refine roundTrip_of (w := fmtA 0x4 0x03 d.toNat a.toNat b.toNat (width.code * 64 + ord.code * 16)) rfl (by simp [ltAm66m54, toNat_lt5, amoWidth_lt, amoWidth_le, amoOrd_lt])
    (nonzero_cls (c := 4) (by simp [fldAm66m54_31_28, toNat_lt5, amoWidth_lt, amoWidth_le, amoOrd_lt]) (by decide)) ?_
  simp [decodeFields, decodeSync, rsv, fldAm66m54_31_28, fldAm66m54_27_22, fldAm66m54_3_0, fldAm66m54_6_6, fldAm66m54_5_4, bitsAm66m54_5_17, bitsAm66m54_5_12, bitsAm66m54_5_7, toNat_lt5, amoWidth_lt, amoWidth_le, amoOrd_lt, amoWidth_code, amoOrd_code]

theorem RoundTrip.amomin (d : GReg) (a : GReg) (b : GReg) (width : AmoWidth) (ord : AmoOrd) : RoundTrip.Statement (.amomin d a b width ord) := by
  refine roundTrip_of (w := fmtA 0x4 0x04 d.toNat a.toNat b.toNat (width.code * 64 + ord.code * 16)) rfl (by simp [ltAm66m54, toNat_lt5, amoWidth_lt, amoWidth_le, amoOrd_lt])
    (nonzero_cls (c := 4) (by simp [fldAm66m54_31_28, toNat_lt5, amoWidth_lt, amoWidth_le, amoOrd_lt]) (by decide)) ?_
  simp [decodeFields, decodeSync, rsv, fldAm66m54_31_28, fldAm66m54_27_22, fldAm66m54_3_0, fldAm66m54_6_6, fldAm66m54_5_4, bitsAm66m54_5_17, bitsAm66m54_5_12, bitsAm66m54_5_7, toNat_lt5, amoWidth_lt, amoWidth_le, amoOrd_lt, amoWidth_code, amoOrd_code]

theorem RoundTrip.amomax (d : GReg) (a : GReg) (b : GReg) (width : AmoWidth) (ord : AmoOrd) : RoundTrip.Statement (.amomax d a b width ord) := by
  refine roundTrip_of (w := fmtA 0x4 0x05 d.toNat a.toNat b.toNat (width.code * 64 + ord.code * 16)) rfl (by simp [ltAm66m54, toNat_lt5, amoWidth_lt, amoWidth_le, amoOrd_lt])
    (nonzero_cls (c := 4) (by simp [fldAm66m54_31_28, toNat_lt5, amoWidth_lt, amoWidth_le, amoOrd_lt]) (by decide)) ?_
  simp [decodeFields, decodeSync, rsv, fldAm66m54_31_28, fldAm66m54_27_22, fldAm66m54_3_0, fldAm66m54_6_6, fldAm66m54_5_4, bitsAm66m54_5_17, bitsAm66m54_5_12, bitsAm66m54_5_7, toNat_lt5, amoWidth_lt, amoWidth_le, amoOrd_lt, amoWidth_code, amoOrd_code]

theorem RoundTrip.amominn (d : GReg) (a : GReg) (b : GReg) (width : AmoWidth) (ord : AmoOrd) : RoundTrip.Statement (.amominn d a b width ord) := by
  refine roundTrip_of (w := fmtA 0x4 0x06 d.toNat a.toNat b.toNat (width.code * 64 + ord.code * 16)) rfl (by simp [ltAm66m54, toNat_lt5, amoWidth_lt, amoWidth_le, amoOrd_lt])
    (nonzero_cls (c := 4) (by simp [fldAm66m54_31_28, toNat_lt5, amoWidth_lt, amoWidth_le, amoOrd_lt]) (by decide)) ?_
  simp [decodeFields, decodeSync, rsv, fldAm66m54_31_28, fldAm66m54_27_22, fldAm66m54_3_0, fldAm66m54_6_6, fldAm66m54_5_4, bitsAm66m54_5_17, bitsAm66m54_5_12, bitsAm66m54_5_7, toNat_lt5, amoWidth_lt, amoWidth_le, amoOrd_lt, amoWidth_code, amoOrd_code]

theorem RoundTrip.amomaxn (d : GReg) (a : GReg) (b : GReg) (width : AmoWidth) (ord : AmoOrd) : RoundTrip.Statement (.amomaxn d a b width ord) := by
  refine roundTrip_of (w := fmtA 0x4 0x07 d.toNat a.toNat b.toNat (width.code * 64 + ord.code * 16)) rfl (by simp [ltAm66m54, toNat_lt5, amoWidth_lt, amoWidth_le, amoOrd_lt])
    (nonzero_cls (c := 4) (by simp [fldAm66m54_31_28, toNat_lt5, amoWidth_lt, amoWidth_le, amoOrd_lt]) (by decide)) ?_
  simp [decodeFields, decodeSync, rsv, fldAm66m54_31_28, fldAm66m54_27_22, fldAm66m54_3_0, fldAm66m54_6_6, fldAm66m54_5_4, bitsAm66m54_5_17, bitsAm66m54_5_12, bitsAm66m54_5_7, toNat_lt5, amoWidth_lt, amoWidth_le, amoOrd_lt, amoWidth_code, amoOrd_code]

theorem RoundTrip.amoswap (d : GReg) (a : GReg) (b : GReg) (width : AmoWidth) (ord : AmoOrd) : RoundTrip.Statement (.amoswap d a b width ord) := by
  refine roundTrip_of (w := fmtA 0x4 0x08 d.toNat a.toNat b.toNat (width.code * 64 + ord.code * 16)) rfl (by simp [ltAm66m54, toNat_lt5, amoWidth_lt, amoWidth_le, amoOrd_lt])
    (nonzero_cls (c := 4) (by simp [fldAm66m54_31_28, toNat_lt5, amoWidth_lt, amoWidth_le, amoOrd_lt]) (by decide)) ?_
  simp [decodeFields, decodeSync, rsv, fldAm66m54_31_28, fldAm66m54_27_22, fldAm66m54_3_0, fldAm66m54_6_6, fldAm66m54_5_4, bitsAm66m54_5_17, bitsAm66m54_5_12, bitsAm66m54_5_7, toNat_lt5, amoWidth_lt, amoWidth_le, amoOrd_lt, amoWidth_code, amoOrd_code]

theorem RoundTrip.amocas (d : GReg) (a : GReg) (b : GReg) (width : AmoWidth) (ord : AmoOrd) : RoundTrip.Statement (.amocas d a b width ord) := by
  refine roundTrip_of (w := fmtA 0x4 0x09 d.toNat a.toNat b.toNat (width.code * 64 + ord.code * 16)) rfl (by simp [ltAm66m54, toNat_lt5, amoWidth_lt, amoWidth_le, amoOrd_lt])
    (nonzero_cls (c := 4) (by simp [fldAm66m54_31_28, toNat_lt5, amoWidth_lt, amoWidth_le, amoOrd_lt]) (by decide)) ?_
  simp [decodeFields, decodeSync, rsv, fldAm66m54_31_28, fldAm66m54_27_22, fldAm66m54_3_0, fldAm66m54_6_6, fldAm66m54_5_4, bitsAm66m54_5_17, bitsAm66m54_5_12, bitsAm66m54_5_7, toNat_lt5, amoWidth_lt, amoWidth_le, amoOrd_lt, amoWidth_code, amoOrd_code]

theorem RoundTrip.lr (d : GReg) (a : GReg) (width : AmoWidth) (ord : AmoOrd) : RoundTrip.Statement (.lr d a width ord) := by
  refine roundTrip_of (w := fmtA 0x4 0x0A d.toNat a.toNat 0 (width.code * 64 + ord.code * 16)) rfl (by simp [ltAm66m54, toNat_lt5, amoWidth_lt, amoWidth_le, amoOrd_lt])
    (nonzero_cls (c := 4) (by simp [fldAm66m54_31_28, toNat_lt5, amoWidth_lt, amoWidth_le, amoOrd_lt]) (by decide)) ?_
  simp [decodeFields, decodeSync, rsv, fldAm66m54_31_28, fldAm66m54_27_22, fldAm66m54_11_7, fldAm66m54_3_0, fldAm66m54_6_6, fldAm66m54_5_4, bitsAm66m54_5_17, bitsAm66m54_5_12, toNat_lt5, amoWidth_lt, amoWidth_le, amoOrd_lt, amoWidth_code, amoOrd_code]

theorem RoundTrip.sc (d : GReg) (a : GReg) (b : GReg) (width : AmoWidth) (ord : AmoOrd) : RoundTrip.Statement (.sc d a b width ord) := by
  refine roundTrip_of (w := fmtA 0x4 0x0B d.toNat a.toNat b.toNat (width.code * 64 + ord.code * 16)) rfl (by simp [ltAm66m54, toNat_lt5, amoWidth_lt, amoWidth_le, amoOrd_lt])
    (nonzero_cls (c := 4) (by simp [fldAm66m54_31_28, toNat_lt5, amoWidth_lt, amoWidth_le, amoOrd_lt]) (by decide)) ?_
  simp [decodeFields, decodeSync, rsv, fldAm66m54_31_28, fldAm66m54_27_22, fldAm66m54_3_0, fldAm66m54_6_6, fldAm66m54_5_4, bitsAm66m54_5_17, bitsAm66m54_5_12, bitsAm66m54_5_7, toNat_lt5, amoWidth_lt, amoWidth_le, amoOrd_lt, amoWidth_code, amoOrd_code]

theorem RoundTrip.wrs (d : GReg) (a : GReg) (b : GReg) (width : AmoWidth) : RoundTrip.Statement (.wrs d a b width) := by
  refine roundTrip_of (w := fmtA 0x4 0x0C d.toNat a.toNat b.toNat (width.code * 64)) rfl (by simp [ltAm66, toNat_lt5, amoWidth_lt, amoWidth_le])
    (nonzero_cls (c := 4) (by simp [fldAm66_31_28, toNat_lt5, amoWidth_lt, amoWidth_le]) (by decide)) ?_
  simp [decodeFields, decodeSync, rsv, fldAm66_31_28, fldAm66_27_22, fldAm66_5_0, fldAm66_6_6, bitsAm66_5_17, bitsAm66_5_12, bitsAm66_5_7, toNat_lt5, amoWidth_lt, amoWidth_le, amoWidth_code]

theorem RoundTrip.fenceAcq : RoundTrip.Statement .fenceAcq := by
  refine roundTrip_of (w := fmtA 0x4 0x0D 0 0 0 16) rfl (by simp [ltA])
    (nonzero_cls (c := 4) (by simp [fldA_31_28]) (by decide)) ?_
  simp [decodeFields, decodeSync, rsv, fldA_31_28, fldA_27_22, fldA_5_4, fldA_21_6, fldA_3_0]

theorem RoundTrip.fenceRel : RoundTrip.Statement .fenceRel := by
  refine roundTrip_of (w := fmtA 0x4 0x0D 0 0 0 32) rfl (by simp [ltA])
    (nonzero_cls (c := 4) (by simp [fldA_31_28]) (by decide)) ?_
  simp [decodeFields, decodeSync, rsv, fldA_31_28, fldA_27_22, fldA_5_4, fldA_21_6, fldA_3_0]

theorem RoundTrip.fenceSc : RoundTrip.Statement .fenceSc := by
  refine roundTrip_of (w := fmtA 0x4 0x0D 0 0 0 48) rfl (by simp [ltA])
    (nonzero_cls (c := 4) (by simp [fldA_31_28]) (by decide)) ?_
  simp [decodeFields, decodeSync, rsv, fldA_31_28, fldA_27_22, fldA_5_4, fldA_21_6, fldA_3_0]

theorem RoundTrip.afence : RoundTrip.Statement .afence := by
  refine roundTrip_of (w := fmtA 0x4 0x0E 0 0 0 0) rfl (by simp [ltA])
    (nonzero_cls (c := 4) (by simp [fldA_31_28]) (by decide)) ?_
  simp [decodeFields, decodeSync, rsv, fldA_31_28, fldA_27_22, fldA_21_0]

theorem RoundTrip.pref (a : GReg) : RoundTrip.Statement (.pref a) := by
  refine roundTrip_of (w := fmtA 0x4 0x0F 0 a.toNat 0 0) rfl (by simp [ltA, toNat_lt5])
    (nonzero_cls (c := 4) (by simp [fldA_31_28, toNat_lt5]) (by decide)) ?_
  simp [decodeFields, decodeSync, rsv, fldA_31_28, fldA_27_22, fldA_21_17, fldA_11_0, bitsA_5_12, toNat_lt5]

theorem RoundTrip.spawn (d : GReg) (a : GReg) (b : GReg) (cell : Bool) : RoundTrip.Statement (.spawn d a b cell) := by
  refine roundTrip_of (w := fmtA 0x7 0x00 d.toNat a.toNat b.toNat cell.toNat) rfl (by simp [ltAm00, toNat_lt5, bool_lt, bool_le])
    (nonzero_cls (c := 7) (by simp [fldAm00_31_28, toNat_lt5, bool_lt, bool_le]) (by decide)) ?_
  simp [decodeFields, decodeSystem, rsv, fldAm00_31_28, fldAm00_27_22, fldAm00_6_1, fldAm00_0_0, bitsAm00_5_17, bitsAm00_5_12, bitsAm00_5_7, toNat_lt5, bool_lt, bool_le, bool_code]

theorem RoundTrip.quit : RoundTrip.Statement .quit := by
  refine roundTrip_of (w := fmtA 0x7 0x01 0 0 0 0) rfl (by simp [ltA])
    (nonzero_cls (c := 7) (by simp [fldA_31_28]) (by decide)) ?_
  simp [decodeFields, decodeSystem, rsv, fldA_31_28, fldA_27_22, fldA_21_0]

theorem RoundTrip.yield (n : BitVec 16) (gm : GReg) : RoundTrip.Statement (.yield n gm) := by
  refine roundTrip_of (w := 0x70800000 + n.toNat * 64 + gm.toNat * 2) rfl (by simp [ltY, toNat_lt16, toNat_lt5])
    (nonzero_cls (c := 7) (by simp [fldY_31_28, toNat_lt16, toNat_lt5]) (by decide)) ?_
  simp [decodeFields, decodeSystem, rsv, fldY_31_28, fldY_27_22, fldY_0_0, bitsY_16_6, bitsY_5_1, toNat_lt16, toNat_lt5]

theorem RoundTrip.depsig (a : GReg) : RoundTrip.Statement (.depsig a) := by
  refine roundTrip_of (w := fmtA 0x7 0x03 0 a.toNat 0 0) rfl (by simp [ltA, toNat_lt5])
    (nonzero_cls (c := 7) (by simp [fldA_31_28, toNat_lt5]) (by decide)) ?_
  simp [decodeFields, decodeSystem, rsv, fldA_31_28, fldA_27_22, fldA_21_17, fldA_11_0, bitsA_5_12, toNat_lt5]

theorem RoundTrip.cancel (a : GReg) (level : CancelLevel) : RoundTrip.Statement (.cancel a level) := by
  refine roundTrip_of (w := fmtA 0x7 0x04 0 a.toNat 0 level.code) rfl (by simp [ltAm10, toNat_lt5, cancelLevel_lt])
    (nonzero_cls (c := 7) (by simp [fldAm10_31_28, toNat_lt5, cancelLevel_lt]) (by decide)) ?_
  simp [decodeFields, decodeSystem, rsv, orElse, fldAm10_31_28, fldAm10_27_22, fldAm10_21_17, fldAm10_11_2, fldAm10_1_0, bitsAm10_5_12, toNat_lt5, cancelLevel_lt, cancelLevel_code]

theorem RoundTrip.trap (n : BitVec 7) : RoundTrip.Statement (.trap n) := by
  refine roundTrip_of (w := fmtA 0x7 0x05 0 0 0 n.toNat) rfl (by simp [ltA, toNat_lt7])
    (nonzero_cls (c := 7) (by simp [fldA_31_28, toNat_lt7]) (by decide)) ?_
  simp [decodeFields, decodeSystem, rsv, fldA_31_28, fldA_27_22, fldA_21_7, bitsA_7_0, toNat_lt7]

theorem RoundTrip.tret : RoundTrip.Statement .tret := by
  refine roundTrip_of (w := fmtA 0x7 0x06 0 0 0 0) rfl (by simp [ltA])
    (nonzero_cls (c := 7) (by simp [fldA_31_28]) (by decide)) ?_
  simp [decodeFields, decodeSystem, rsv, fldA_31_28, fldA_27_22, fldA_21_0]

theorem RoundTrip.cget (d : GReg) (reg : CtlReg) : RoundTrip.Statement (.cget d reg) := by
  refine roundTrip_of (w := 0x71C00000 + d.toNat * 131072 + reg.code * 128) rfl (by simp [ltG, toNat_lt5, ctlReg_lt])
    (nonzero_cls (c := 7) (by simp [fldG_31_28, toNat_lt5, ctlReg_lt]) (by decide)) ?_
  simp [decodeFields, decodeSystem, rsv, orElse, fldG_31_28, fldG_27_22, fldG_6_0, fldG_16_7, bitsG_5_17, toNat_lt5, ctlReg_lt, ctlReg_code]

theorem RoundTrip.cset (d : GReg) (reg : CtlReg) : RoundTrip.Statement (.cset d reg) := by
  refine roundTrip_of (w := 0x72000000 + d.toNat * 131072 + reg.code * 128) rfl (by simp [ltS, toNat_lt5, ctlReg_lt])
    (nonzero_cls (c := 7) (by simp [fldS_31_28, toNat_lt5, ctlReg_lt]) (by decide)) ?_
  simp [decodeFields, decodeSystem, rsv, orElse, fldS_31_28, fldS_27_22, fldS_6_0, fldS_16_7, bitsS_5_17, toNat_lt5, ctlReg_lt, ctlReg_code]

theorem RoundTrip.inval (a : GReg) (b : GReg) : RoundTrip.Statement (.inval a b) := by
  refine roundTrip_of (w := fmtA 0x7 0x09 0 a.toNat b.toNat 0) rfl (by simp [ltA, toNat_lt5])
    (nonzero_cls (c := 7) (by simp [fldA_31_28, toNat_lt5]) (by decide)) ?_
  simp [decodeFields, decodeSystem, rsv, fldA_31_28, fldA_27_22, fldA_21_17, fldA_6_0, bitsA_5_12, bitsA_5_7, toNat_lt5]

theorem RoundTrip.vadd (t : ElemType) (d : VReg) (a : VReg) (b : VReg) (m : MReg) : RoundTrip.Statement (.vadd t d a b m) := by
  refine roundTrip_of (w := fmtV 0x8 0x00 t.code d.toNat a.toNat b.toNat m.toNat) rfl (by simp [ltV, elemType_lt, toNat_lt5, toNat_lt3, toNat3_lt5])
    (nonzero_cls (c := 8) (by simp [fldV_31_28, elemType_lt, toNat_lt5, toNat_lt3, toNat3_lt5]) (by decide)) ?_
  simp [decodeFields, decodeVec, fldV_31_28, fldV_27_22, fldV_21_18, bitsV_5_13, bitsV_5_8, bitsV_5_3, bitsV_3_0, elemType_lt, toNat_lt5, toNat_lt3, toNat3_lt5, elemType_code, reg3_div8]

theorem RoundTrip.vsub (t : ElemType) (d : VReg) (a : VReg) (b : VReg) (m : MReg) : RoundTrip.Statement (.vsub t d a b m) := by
  refine roundTrip_of (w := fmtV 0x8 0x01 t.code d.toNat a.toNat b.toNat m.toNat) rfl (by simp [ltV, elemType_lt, toNat_lt5, toNat_lt3, toNat3_lt5])
    (nonzero_cls (c := 8) (by simp [fldV_31_28, elemType_lt, toNat_lt5, toNat_lt3, toNat3_lt5]) (by decide)) ?_
  simp [decodeFields, decodeVec, fldV_31_28, fldV_27_22, fldV_21_18, bitsV_5_13, bitsV_5_8, bitsV_5_3, bitsV_3_0, elemType_lt, toNat_lt5, toNat_lt3, toNat3_lt5, elemType_code, reg3_div8]

theorem RoundTrip.vmul (t : ElemType) (d : VReg) (a : VReg) (b : VReg) (m : MReg) : RoundTrip.Statement (.vmul t d a b m) := by
  refine roundTrip_of (w := fmtV 0x8 0x02 t.code d.toNat a.toNat b.toNat m.toNat) rfl (by simp [ltV, elemType_lt, toNat_lt5, toNat_lt3, toNat3_lt5])
    (nonzero_cls (c := 8) (by simp [fldV_31_28, elemType_lt, toNat_lt5, toNat_lt3, toNat3_lt5]) (by decide)) ?_
  simp [decodeFields, decodeVec, fldV_31_28, fldV_27_22, fldV_21_18, bitsV_5_13, bitsV_5_8, bitsV_5_3, bitsV_3_0, elemType_lt, toNat_lt5, toNat_lt3, toNat3_lt5, elemType_code, reg3_div8]

theorem RoundTrip.vfma (t : ElemType) (d : VReg) (a : VReg) (b : VReg) (m : MReg) : RoundTrip.Statement (.vfma t d a b m) := by
  refine roundTrip_of (w := fmtV 0x8 0x03 t.code d.toNat a.toNat b.toNat m.toNat) rfl (by simp [ltV, elemType_lt, toNat_lt5, toNat_lt3, toNat3_lt5])
    (nonzero_cls (c := 8) (by simp [fldV_31_28, elemType_lt, toNat_lt5, toNat_lt3, toNat3_lt5]) (by decide)) ?_
  simp [decodeFields, decodeVec, fldV_31_28, fldV_27_22, fldV_21_18, bitsV_5_13, bitsV_5_8, bitsV_5_3, bitsV_3_0, elemType_lt, toNat_lt5, toNat_lt3, toNat3_lt5, elemType_code, reg3_div8]

theorem RoundTrip.vfms (t : ElemType) (d : VReg) (a : VReg) (b : VReg) (m : MReg) : RoundTrip.Statement (.vfms t d a b m) := by
  refine roundTrip_of (w := fmtV 0x8 0x04 t.code d.toNat a.toNat b.toNat m.toNat) rfl (by simp [ltV, elemType_lt, toNat_lt5, toNat_lt3, toNat3_lt5])
    (nonzero_cls (c := 8) (by simp [fldV_31_28, elemType_lt, toNat_lt5, toNat_lt3, toNat3_lt5]) (by decide)) ?_
  simp [decodeFields, decodeVec, fldV_31_28, fldV_27_22, fldV_21_18, bitsV_5_13, bitsV_5_8, bitsV_5_3, bitsV_3_0, elemType_lt, toNat_lt5, toNat_lt3, toNat3_lt5, elemType_code, reg3_div8]

theorem RoundTrip.vfnma (t : ElemType) (d : VReg) (a : VReg) (b : VReg) (m : MReg) : RoundTrip.Statement (.vfnma t d a b m) := by
  refine roundTrip_of (w := fmtV 0x8 0x05 t.code d.toNat a.toNat b.toNat m.toNat) rfl (by simp [ltV, elemType_lt, toNat_lt5, toNat_lt3, toNat3_lt5])
    (nonzero_cls (c := 8) (by simp [fldV_31_28, elemType_lt, toNat_lt5, toNat_lt3, toNat3_lt5]) (by decide)) ?_
  simp [decodeFields, decodeVec, fldV_31_28, fldV_27_22, fldV_21_18, bitsV_5_13, bitsV_5_8, bitsV_5_3, bitsV_3_0, elemType_lt, toNat_lt5, toNat_lt3, toNat3_lt5, elemType_code, reg3_div8]

theorem RoundTrip.vmin (t : ElemType) (d : VReg) (a : VReg) (b : VReg) (m : MReg) : RoundTrip.Statement (.vmin t d a b m) := by
  refine roundTrip_of (w := fmtV 0x8 0x06 t.code d.toNat a.toNat b.toNat m.toNat) rfl (by simp [ltV, elemType_lt, toNat_lt5, toNat_lt3, toNat3_lt5])
    (nonzero_cls (c := 8) (by simp [fldV_31_28, elemType_lt, toNat_lt5, toNat_lt3, toNat3_lt5]) (by decide)) ?_
  simp [decodeFields, decodeVec, fldV_31_28, fldV_27_22, fldV_21_18, bitsV_5_13, bitsV_5_8, bitsV_5_3, bitsV_3_0, elemType_lt, toNat_lt5, toNat_lt3, toNat3_lt5, elemType_code, reg3_div8]

theorem RoundTrip.vmax (t : ElemType) (d : VReg) (a : VReg) (b : VReg) (m : MReg) : RoundTrip.Statement (.vmax t d a b m) := by
  refine roundTrip_of (w := fmtV 0x8 0x07 t.code d.toNat a.toNat b.toNat m.toNat) rfl (by simp [ltV, elemType_lt, toNat_lt5, toNat_lt3, toNat3_lt5])
    (nonzero_cls (c := 8) (by simp [fldV_31_28, elemType_lt, toNat_lt5, toNat_lt3, toNat3_lt5]) (by decide)) ?_
  simp [decodeFields, decodeVec, fldV_31_28, fldV_27_22, fldV_21_18, bitsV_5_13, bitsV_5_8, bitsV_5_3, bitsV_3_0, elemType_lt, toNat_lt5, toNat_lt3, toNat3_lt5, elemType_code, reg3_div8]

theorem RoundTrip.vabs (t : ElemType) (d : VReg) (a : VReg) (m : MReg) : RoundTrip.Statement (.vabs t d a m) := by
  refine roundTrip_of (w := fmtV 0x8 0x08 t.code d.toNat a.toNat 0 m.toNat) rfl (by simp [ltV, elemType_lt, toNat_lt5, toNat_lt3, toNat3_lt5])
    (nonzero_cls (c := 8) (by simp [fldV_31_28, elemType_lt, toNat_lt5, toNat_lt3, toNat3_lt5]) (by decide)) ?_
  simp [decodeFields, decodeVec, rsv, fldV_31_28, fldV_27_22, fldV_7_3, fldV_21_18, bitsV_5_13, bitsV_5_8, bitsV_3_0, elemType_lt, toNat_lt5, toNat_lt3, toNat3_lt5, elemType_code, reg3_div8]

theorem RoundTrip.vneg (t : ElemType) (d : VReg) (a : VReg) (m : MReg) : RoundTrip.Statement (.vneg t d a m) := by
  refine roundTrip_of (w := fmtV 0x8 0x09 t.code d.toNat a.toNat 0 m.toNat) rfl (by simp [ltV, elemType_lt, toNat_lt5, toNat_lt3, toNat3_lt5])
    (nonzero_cls (c := 8) (by simp [fldV_31_28, elemType_lt, toNat_lt5, toNat_lt3, toNat3_lt5]) (by decide)) ?_
  simp [decodeFields, decodeVec, rsv, fldV_31_28, fldV_27_22, fldV_7_3, fldV_21_18, bitsV_5_13, bitsV_5_8, bitsV_3_0, elemType_lt, toNat_lt5, toNat_lt3, toNat3_lt5, elemType_code, reg3_div8]

theorem RoundTrip.vrcp (t : ElemType) (d : VReg) (a : VReg) (m : MReg) : RoundTrip.Statement (.vrcp t d a m) := by
  refine roundTrip_of (w := fmtV 0x8 0x0A t.code d.toNat a.toNat 0 m.toNat) rfl (by simp [ltV, elemType_lt, toNat_lt5, toNat_lt3, toNat3_lt5])
    (nonzero_cls (c := 8) (by simp [fldV_31_28, elemType_lt, toNat_lt5, toNat_lt3, toNat3_lt5]) (by decide)) ?_
  simp [decodeFields, decodeVec, rsv, fldV_31_28, fldV_27_22, fldV_7_3, fldV_21_18, bitsV_5_13, bitsV_5_8, bitsV_3_0, elemType_lt, toNat_lt5, toNat_lt3, toNat3_lt5, elemType_code, reg3_div8]

theorem RoundTrip.vrsqrt (t : ElemType) (d : VReg) (a : VReg) (m : MReg) : RoundTrip.Statement (.vrsqrt t d a m) := by
  refine roundTrip_of (w := fmtV 0x8 0x0B t.code d.toNat a.toNat 0 m.toNat) rfl (by simp [ltV, elemType_lt, toNat_lt5, toNat_lt3, toNat3_lt5])
    (nonzero_cls (c := 8) (by simp [fldV_31_28, elemType_lt, toNat_lt5, toNat_lt3, toNat3_lt5]) (by decide)) ?_
  simp [decodeFields, decodeVec, rsv, fldV_31_28, fldV_27_22, fldV_7_3, fldV_21_18, bitsV_5_13, bitsV_5_8, bitsV_3_0, elemType_lt, toNat_lt5, toNat_lt3, toNat3_lt5, elemType_code, reg3_div8]

theorem RoundTrip.vexp2 (t : ElemType) (d : VReg) (a : VReg) (m : MReg) : RoundTrip.Statement (.vexp2 t d a m) := by
  refine roundTrip_of (w := fmtV 0x8 0x0C t.code d.toNat a.toNat 0 m.toNat) rfl (by simp [ltV, elemType_lt, toNat_lt5, toNat_lt3, toNat3_lt5])
    (nonzero_cls (c := 8) (by simp [fldV_31_28, elemType_lt, toNat_lt5, toNat_lt3, toNat3_lt5]) (by decide)) ?_
  simp [decodeFields, decodeVec, rsv, fldV_31_28, fldV_27_22, fldV_7_3, fldV_21_18, bitsV_5_13, bitsV_5_8, bitsV_3_0, elemType_lt, toNat_lt5, toNat_lt3, toNat3_lt5, elemType_code, reg3_div8]

theorem RoundTrip.vlog2 (t : ElemType) (d : VReg) (a : VReg) (m : MReg) : RoundTrip.Statement (.vlog2 t d a m) := by
  refine roundTrip_of (w := fmtV 0x8 0x0D t.code d.toNat a.toNat 0 m.toNat) rfl (by simp [ltV, elemType_lt, toNat_lt5, toNat_lt3, toNat3_lt5])
    (nonzero_cls (c := 8) (by simp [fldV_31_28, elemType_lt, toNat_lt5, toNat_lt3, toNat3_lt5]) (by decide)) ?_
  simp [decodeFields, decodeVec, rsv, fldV_31_28, fldV_27_22, fldV_7_3, fldV_21_18, bitsV_5_13, bitsV_5_8, bitsV_3_0, elemType_lt, toNat_lt5, toNat_lt3, toNat3_lt5, elemType_code, reg3_div8]

theorem RoundTrip.vtanh (t : ElemType) (d : VReg) (a : VReg) (m : MReg) : RoundTrip.Statement (.vtanh t d a m) := by
  refine roundTrip_of (w := fmtV 0x8 0x0E t.code d.toNat a.toNat 0 m.toNat) rfl (by simp [ltV, elemType_lt, toNat_lt5, toNat_lt3, toNat3_lt5])
    (nonzero_cls (c := 8) (by simp [fldV_31_28, elemType_lt, toNat_lt5, toNat_lt3, toNat3_lt5]) (by decide)) ?_
  simp [decodeFields, decodeVec, rsv, fldV_31_28, fldV_27_22, fldV_7_3, fldV_21_18, bitsV_5_13, bitsV_5_8, bitsV_3_0, elemType_lt, toNat_lt5, toNat_lt3, toNat3_lt5, elemType_code, reg3_div8]

theorem RoundTrip.vand (t : ElemType) (d : VReg) (a : VReg) (b : VReg) (m : MReg) : RoundTrip.Statement (.vand t d a b m) := by
  refine roundTrip_of (w := fmtV 0x8 0x0F t.code d.toNat a.toNat b.toNat m.toNat) rfl (by simp [ltV, elemType_lt, toNat_lt5, toNat_lt3, toNat3_lt5])
    (nonzero_cls (c := 8) (by simp [fldV_31_28, elemType_lt, toNat_lt5, toNat_lt3, toNat3_lt5]) (by decide)) ?_
  simp [decodeFields, decodeVec, fldV_31_28, fldV_27_22, fldV_21_18, bitsV_5_13, bitsV_5_8, bitsV_5_3, bitsV_3_0, elemType_lt, toNat_lt5, toNat_lt3, toNat3_lt5, elemType_code, reg3_div8]

theorem RoundTrip.vor (t : ElemType) (d : VReg) (a : VReg) (b : VReg) (m : MReg) : RoundTrip.Statement (.vor t d a b m) := by
  refine roundTrip_of (w := fmtV 0x8 0x10 t.code d.toNat a.toNat b.toNat m.toNat) rfl (by simp [ltV, elemType_lt, toNat_lt5, toNat_lt3, toNat3_lt5])
    (nonzero_cls (c := 8) (by simp [fldV_31_28, elemType_lt, toNat_lt5, toNat_lt3, toNat3_lt5]) (by decide)) ?_
  simp [decodeFields, decodeVec, fldV_31_28, fldV_27_22, fldV_21_18, bitsV_5_13, bitsV_5_8, bitsV_5_3, bitsV_3_0, elemType_lt, toNat_lt5, toNat_lt3, toNat3_lt5, elemType_code, reg3_div8]

theorem RoundTrip.vxor (t : ElemType) (d : VReg) (a : VReg) (b : VReg) (m : MReg) : RoundTrip.Statement (.vxor t d a b m) := by
  refine roundTrip_of (w := fmtV 0x8 0x11 t.code d.toNat a.toNat b.toNat m.toNat) rfl (by simp [ltV, elemType_lt, toNat_lt5, toNat_lt3, toNat3_lt5])
    (nonzero_cls (c := 8) (by simp [fldV_31_28, elemType_lt, toNat_lt5, toNat_lt3, toNat3_lt5]) (by decide)) ?_
  simp [decodeFields, decodeVec, fldV_31_28, fldV_27_22, fldV_21_18, bitsV_5_13, bitsV_5_8, bitsV_5_3, bitsV_3_0, elemType_lt, toNat_lt5, toNat_lt3, toNat3_lt5, elemType_code, reg3_div8]

theorem RoundTrip.vnot (t : ElemType) (d : VReg) (a : VReg) (m : MReg) : RoundTrip.Statement (.vnot t d a m) := by
  refine roundTrip_of (w := fmtV 0x8 0x12 t.code d.toNat a.toNat 0 m.toNat) rfl (by simp [ltV, elemType_lt, toNat_lt5, toNat_lt3, toNat3_lt5])
    (nonzero_cls (c := 8) (by simp [fldV_31_28, elemType_lt, toNat_lt5, toNat_lt3, toNat3_lt5]) (by decide)) ?_
  simp [decodeFields, decodeVec, rsv, fldV_31_28, fldV_27_22, fldV_7_3, fldV_21_18, bitsV_5_13, bitsV_5_8, bitsV_3_0, elemType_lt, toNat_lt5, toNat_lt3, toNat3_lt5, elemType_code, reg3_div8]

theorem RoundTrip.vshl (t : ElemType) (d : VReg) (a : VReg) (b : VReg) (m : MReg) : RoundTrip.Statement (.vshl t d a b m) := by
  refine roundTrip_of (w := fmtV 0x8 0x13 t.code d.toNat a.toNat b.toNat m.toNat) rfl (by simp [ltV, elemType_lt, toNat_lt5, toNat_lt3, toNat3_lt5])
    (nonzero_cls (c := 8) (by simp [fldV_31_28, elemType_lt, toNat_lt5, toNat_lt3, toNat3_lt5]) (by decide)) ?_
  simp [decodeFields, decodeVec, fldV_31_28, fldV_27_22, fldV_21_18, bitsV_5_13, bitsV_5_8, bitsV_5_3, bitsV_3_0, elemType_lt, toNat_lt5, toNat_lt3, toNat3_lt5, elemType_code, reg3_div8]

theorem RoundTrip.vshr (t : ElemType) (d : VReg) (a : VReg) (b : VReg) (m : MReg) : RoundTrip.Statement (.vshr t d a b m) := by
  refine roundTrip_of (w := fmtV 0x8 0x14 t.code d.toNat a.toNat b.toNat m.toNat) rfl (by simp [ltV, elemType_lt, toNat_lt5, toNat_lt3, toNat3_lt5])
    (nonzero_cls (c := 8) (by simp [fldV_31_28, elemType_lt, toNat_lt5, toNat_lt3, toNat3_lt5]) (by decide)) ?_
  simp [decodeFields, decodeVec, fldV_31_28, fldV_27_22, fldV_21_18, bitsV_5_13, bitsV_5_8, bitsV_5_3, bitsV_3_0, elemType_lt, toNat_lt5, toNat_lt3, toNat3_lt5, elemType_code, reg3_div8]

theorem RoundTrip.vsra (t : ElemType) (d : VReg) (a : VReg) (b : VReg) (m : MReg) : RoundTrip.Statement (.vsra t d a b m) := by
  refine roundTrip_of (w := fmtV 0x8 0x15 t.code d.toNat a.toNat b.toNat m.toNat) rfl (by simp [ltV, elemType_lt, toNat_lt5, toNat_lt3, toNat3_lt5])
    (nonzero_cls (c := 8) (by simp [fldV_31_28, elemType_lt, toNat_lt5, toNat_lt3, toNat3_lt5]) (by decide)) ?_
  simp [decodeFields, decodeVec, fldV_31_28, fldV_27_22, fldV_21_18, bitsV_5_13, bitsV_5_8, bitsV_5_3, bitsV_3_0, elemType_lt, toNat_lt5, toNat_lt3, toNat3_lt5, elemType_code, reg3_div8]

theorem RoundTrip.vcmp (t : ElemType) (cond : VcmpCond) (k : MReg) (a : VReg) (b : VReg) (m : MReg) : RoundTrip.Statement (.vcmp t cond k a b m) := by
  refine roundTrip_of (w := fmtV 0x8 0x16 t.code (cond.code * 8 + k.toNat) a.toNat b.toNat m.toNat) rfl (by simp [ltVd43d20, elemType_lt, vcmpCond_lt, toNat_lt3, toNat3_lt5, toNat_lt5])
    (nonzero_cls (c := 8) (by simp [fldVd43d20_31_28, elemType_lt, vcmpCond_lt, toNat_lt3, toNat3_lt5, toNat_lt5]) (by decide)) ?_
  simp [decodeFields, decodeVec, fldVd43d20_31_28, fldVd43d20_27_22, fldVd43d20_21_18, fldVd43d20_17_16, bitsVd43d20_3_13, bitsVd43d20_5_8, bitsVd43d20_5_3, bitsVd43d20_3_0, elemType_lt, vcmpCond_lt, toNat_lt3, toNat3_lt5, toNat_lt5, elemType_code, vcmpCond_code, reg3_div8]

theorem RoundTrip.vsel (t : ElemType) (d : VReg) (a : VReg) (b : VReg) (m : MReg) : RoundTrip.Statement (.vsel t d a b m) := by
  refine roundTrip_of (w := fmtV 0x8 0x17 t.code d.toNat a.toNat b.toNat m.toNat) rfl (by simp [ltV, elemType_lt, toNat_lt5, toNat_lt3, toNat3_lt5])
    (nonzero_cls (c := 8) (by simp [fldV_31_28, elemType_lt, toNat_lt5, toNat_lt3, toNat3_lt5]) (by decide)) ?_
  simp [decodeFields, decodeVec, fldV_31_28, fldV_27_22, fldV_21_18, bitsV_5_13, bitsV_5_8, bitsV_5_3, bitsV_3_0, elemType_lt, toNat_lt5, toNat_lt3, toNat3_lt5, elemType_code, reg3_div8]

theorem RoundTrip.vcvt (t : ElemType) (d : VReg) (a : VReg) (src : ElemType) (m : MReg) : RoundTrip.Statement (.vcvt t d a src m) := by
  refine roundTrip_of (w := fmtV 0x8 0x18 t.code d.toNat a.toNat (src.code * 2) m.toNat) rfl (by simp [ltVb41, elemType_lt, toNat_lt5, toNat_lt3, toNat3_lt5])
    (nonzero_cls (c := 8) (by simp [fldVb41_31_28, elemType_lt, toNat_lt5, toNat_lt3, toNat3_lt5]) (by decide)) ?_
  simp [decodeFields, decodeVec, rsv, fldVb41_31_28, fldVb41_27_22, fldVb41_3_3, fldVb41_21_18, fldVb41_7_4, bitsVb41_5_13, bitsVb41_5_8, bitsVb41_3_0, elemType_lt, toNat_lt5, toNat_lt3, toNat3_lt5, elemType_code, reg3_div8]

theorem RoundTrip.vwcvt (t : ElemType) (d : VReg) (a : VReg) (src : ElemType) (m : MReg) : RoundTrip.Statement (.vwcvt t d a src m) := by
  refine roundTrip_of (w := fmtV 0x8 0x19 t.code d.toNat a.toNat (src.code * 2) m.toNat) rfl (by simp [ltVb41, elemType_lt, toNat_lt5, toNat_lt3, toNat3_lt5])
    (nonzero_cls (c := 8) (by simp [fldVb41_31_28, elemType_lt, toNat_lt5, toNat_lt3, toNat3_lt5]) (by decide)) ?_
  simp [decodeFields, decodeVec, rsv, fldVb41_31_28, fldVb41_27_22, fldVb41_3_3, fldVb41_21_18, fldVb41_7_4, bitsVb41_5_13, bitsVb41_5_8, bitsVb41_3_0, elemType_lt, toNat_lt5, toNat_lt3, toNat3_lt5, elemType_code, reg3_div8]

theorem RoundTrip.vwmul (t : ElemType) (d : VReg) (a : VReg) (b : VReg) (m : MReg) : RoundTrip.Statement (.vwmul t d a b m) := by
  refine roundTrip_of (w := fmtV 0x8 0x1A t.code d.toNat a.toNat b.toNat m.toNat) rfl (by simp [ltV, elemType_lt, toNat_lt5, toNat_lt3, toNat3_lt5])
    (nonzero_cls (c := 8) (by simp [fldV_31_28, elemType_lt, toNat_lt5, toNat_lt3, toNat3_lt5]) (by decide)) ?_
  simp [decodeFields, decodeVec, fldV_31_28, fldV_27_22, fldV_21_18, bitsV_5_13, bitsV_5_8, bitsV_5_3, bitsV_3_0, elemType_lt, toNat_lt5, toNat_lt3, toNat3_lt5, elemType_code, reg3_div8]

theorem RoundTrip.vwadd (t : ElemType) (d : VReg) (a : VReg) (b : VReg) (m : MReg) : RoundTrip.Statement (.vwadd t d a b m) := by
  refine roundTrip_of (w := fmtV 0x8 0x1B t.code d.toNat a.toNat b.toNat m.toNat) rfl (by simp [ltV, elemType_lt, toNat_lt5, toNat_lt3, toNat3_lt5])
    (nonzero_cls (c := 8) (by simp [fldV_31_28, elemType_lt, toNat_lt5, toNat_lt3, toNat3_lt5]) (by decide)) ?_
  simp [decodeFields, decodeVec, fldV_31_28, fldV_27_22, fldV_21_18, bitsV_5_13, bitsV_5_8, bitsV_5_3, bitsV_3_0, elemType_lt, toNat_lt5, toNat_lt3, toNat3_lt5, elemType_code, reg3_div8]

theorem RoundTrip.vnarrow (t : ElemType) (d : VReg) (a : VReg) (m : MReg) : RoundTrip.Statement (.vnarrow t d a m) := by
  refine roundTrip_of (w := fmtV 0x8 0x1C t.code d.toNat a.toNat 0 m.toNat) rfl (by simp [ltV, elemType_lt, toNat_lt5, toNat_lt3, toNat3_lt5])
    (nonzero_cls (c := 8) (by simp [fldV_31_28, elemType_lt, toNat_lt5, toNat_lt3, toNat3_lt5]) (by decide)) ?_
  simp [decodeFields, decodeVec, rsv, fldV_31_28, fldV_27_22, fldV_7_3, fldV_21_18, bitsV_5_13, bitsV_5_8, bitsV_3_0, elemType_lt, toNat_lt5, toNat_lt3, toNat3_lt5, elemType_code, reg3_div8]

theorem RoundTrip.vredsum (t : ElemType) (d : VReg) (a : VReg) (b : VReg) (m : MReg) : RoundTrip.Statement (.vredsum t d a b m) := by
  refine roundTrip_of (w := fmtV 0x8 0x1D t.code d.toNat a.toNat b.toNat m.toNat) rfl (by simp [ltV, elemType_lt, toNat_lt5, toNat_lt3, toNat3_lt5])
    (nonzero_cls (c := 8) (by simp [fldV_31_28, elemType_lt, toNat_lt5, toNat_lt3, toNat3_lt5]) (by decide)) ?_
  simp [decodeFields, decodeVec, fldV_31_28, fldV_27_22, fldV_21_18, bitsV_5_13, bitsV_5_8, bitsV_5_3, bitsV_3_0, elemType_lt, toNat_lt5, toNat_lt3, toNat3_lt5, elemType_code, reg3_div8]

theorem RoundTrip.vredmax (t : ElemType) (d : VReg) (a : VReg) (b : VReg) (m : MReg) : RoundTrip.Statement (.vredmax t d a b m) := by
  refine roundTrip_of (w := fmtV 0x8 0x1E t.code d.toNat a.toNat b.toNat m.toNat) rfl (by simp [ltV, elemType_lt, toNat_lt5, toNat_lt3, toNat3_lt5])
    (nonzero_cls (c := 8) (by simp [fldV_31_28, elemType_lt, toNat_lt5, toNat_lt3, toNat3_lt5]) (by decide)) ?_
  simp [decodeFields, decodeVec, fldV_31_28, fldV_27_22, fldV_21_18, bitsV_5_13, bitsV_5_8, bitsV_5_3, bitsV_3_0, elemType_lt, toNat_lt5, toNat_lt3, toNat3_lt5, elemType_code, reg3_div8]

theorem RoundTrip.vredmin (t : ElemType) (d : VReg) (a : VReg) (b : VReg) (m : MReg) : RoundTrip.Statement (.vredmin t d a b m) := by
  refine roundTrip_of (w := fmtV 0x8 0x1F t.code d.toNat a.toNat b.toNat m.toNat) rfl (by simp [ltV, elemType_lt, toNat_lt5, toNat_lt3, toNat3_lt5])
    (nonzero_cls (c := 8) (by simp [fldV_31_28, elemType_lt, toNat_lt5, toNat_lt3, toNat3_lt5]) (by decide)) ?_
  simp [decodeFields, decodeVec, fldV_31_28, fldV_27_22, fldV_21_18, bitsV_5_13, bitsV_5_8, bitsV_5_3, bitsV_3_0, elemType_lt, toNat_lt5, toNat_lt3, toNat3_lt5, elemType_code, reg3_div8]

theorem RoundTrip.vscan (t : ElemType) (d : VReg) (a : VReg) (b : GReg) (m : MReg) : RoundTrip.Statement (.vscan t d a b m) := by
  refine roundTrip_of (w := fmtV 0x8 0x20 t.code d.toNat a.toNat b.toNat m.toNat) rfl (by simp [ltV, elemType_lt, toNat_lt5, toNat_lt3, toNat3_lt5])
    (nonzero_cls (c := 8) (by simp [fldV_31_28, elemType_lt, toNat_lt5, toNat_lt3, toNat3_lt5]) (by decide)) ?_
  simp [decodeFields, decodeVec, fldV_31_28, fldV_27_22, fldV_21_18, bitsV_5_13, bitsV_5_8, bitsV_5_3, bitsV_3_0, elemType_lt, toNat_lt5, toNat_lt3, toNat3_lt5, elemType_code, reg3_div8]

theorem RoundTrip.vxscan (t : ElemType) (d : VReg) (a : VReg) (b : GReg) (m : MReg) : RoundTrip.Statement (.vxscan t d a b m) := by
  refine roundTrip_of (w := fmtV 0x8 0x21 t.code d.toNat a.toNat b.toNat m.toNat) rfl (by simp [ltV, elemType_lt, toNat_lt5, toNat_lt3, toNat3_lt5])
    (nonzero_cls (c := 8) (by simp [fldV_31_28, elemType_lt, toNat_lt5, toNat_lt3, toNat3_lt5]) (by decide)) ?_
  simp [decodeFields, decodeVec, fldV_31_28, fldV_27_22, fldV_21_18, bitsV_5_13, bitsV_5_8, bitsV_5_3, bitsV_3_0, elemType_lt, toNat_lt5, toNat_lt3, toNat3_lt5, elemType_code, reg3_div8]

theorem RoundTrip.vclmul (t : ElemType) (d : VReg) (a : VReg) (b : VReg) (m : MReg) : RoundTrip.Statement (.vclmul t d a b m) := by
  refine roundTrip_of (w := fmtV 0x8 0x22 t.code d.toNat a.toNat b.toNat m.toNat) rfl (by simp [ltV, elemType_lt, toNat_lt5, toNat_lt3, toNat3_lt5])
    (nonzero_cls (c := 8) (by simp [fldV_31_28, elemType_lt, toNat_lt5, toNat_lt3, toNat3_lt5]) (by decide)) ?_
  simp [decodeFields, decodeVec, fldV_31_28, fldV_27_22, fldV_21_18, bitsV_5_13, bitsV_5_8, bitsV_5_3, bitsV_3_0, elemType_lt, toNat_lt5, toNat_lt3, toNat3_lt5, elemType_code, reg3_div8]

theorem RoundTrip.vperm (t : ElemType) (d : VReg) (a : VReg) (b : VReg) (m : MReg) : RoundTrip.Statement (.vperm t d a b m) := by
  refine roundTrip_of (w := fmtV 0x8 0x23 t.code d.toNat a.toNat b.toNat m.toNat) rfl (by simp [ltV, elemType_lt, toNat_lt5, toNat_lt3, toNat3_lt5])
    (nonzero_cls (c := 8) (by simp [fldV_31_28, elemType_lt, toNat_lt5, toNat_lt3, toNat3_lt5]) (by decide)) ?_
  simp [decodeFields, decodeVec, fldV_31_28, fldV_27_22, fldV_21_18, bitsV_5_13, bitsV_5_8, bitsV_5_3, bitsV_3_0, elemType_lt, toNat_lt5, toNat_lt3, toNat3_lt5, elemType_code, reg3_div8]

theorem RoundTrip.vslide (t : ElemType) (d : VReg) (a : VReg) (b : GReg) (m : MReg) : RoundTrip.Statement (.vslide t d a b m) := by
  refine roundTrip_of (w := fmtV 0x8 0x24 t.code d.toNat a.toNat b.toNat m.toNat) rfl (by simp [ltV, elemType_lt, toNat_lt5, toNat_lt3, toNat3_lt5])
    (nonzero_cls (c := 8) (by simp [fldV_31_28, elemType_lt, toNat_lt5, toNat_lt3, toNat3_lt5]) (by decide)) ?_
  simp [decodeFields, decodeVec, fldV_31_28, fldV_27_22, fldV_21_18, bitsV_5_13, bitsV_5_8, bitsV_5_3, bitsV_3_0, elemType_lt, toNat_lt5, toNat_lt3, toNat3_lt5, elemType_code, reg3_div8]

theorem RoundTrip.vbcast (t : ElemType) (d : VReg) (a : GReg) (m : MReg) : RoundTrip.Statement (.vbcast t d a m) := by
  refine roundTrip_of (w := fmtV 0x8 0x25 t.code d.toNat a.toNat 0 m.toNat) rfl (by simp [ltV, elemType_lt, toNat_lt5, toNat_lt3, toNat3_lt5])
    (nonzero_cls (c := 8) (by simp [fldV_31_28, elemType_lt, toNat_lt5, toNat_lt3, toNat3_lt5]) (by decide)) ?_
  simp [decodeFields, decodeVec, rsv, fldV_31_28, fldV_27_22, fldV_7_3, fldV_21_18, bitsV_5_13, bitsV_5_8, bitsV_3_0, elemType_lt, toNat_lt5, toNat_lt3, toNat3_lt5, elemType_code, reg3_div8]

theorem RoundTrip.viota (t : ElemType) (d : VReg) (m : MReg) : RoundTrip.Statement (.viota t d m) := by
  refine roundTrip_of (w := fmtV 0x8 0x26 t.code d.toNat 0 0 m.toNat) rfl (by simp [ltV, elemType_lt, toNat_lt5, toNat_lt3, toNat3_lt5])
    (nonzero_cls (c := 8) (by simp [fldV_31_28, elemType_lt, toNat_lt5, toNat_lt3, toNat3_lt5]) (by decide)) ?_
  simp [decodeFields, decodeVec, rsv, fldV_31_28, fldV_27_22, fldV_12_3, fldV_21_18, bitsV_5_13, bitsV_3_0, elemType_lt, toNat_lt5, toNat_lt3, toNat3_lt5, elemType_code, reg3_div8]

theorem RoundTrip.vcompress (t : ElemType) (d : VReg) (a : VReg) (m : MReg) : RoundTrip.Statement (.vcompress t d a m) := by
  refine roundTrip_of (w := fmtV 0x8 0x27 t.code d.toNat a.toNat 0 m.toNat) rfl (by simp [ltV, elemType_lt, toNat_lt5, toNat_lt3, toNat3_lt5])
    (nonzero_cls (c := 8) (by simp [fldV_31_28, elemType_lt, toNat_lt5, toNat_lt3, toNat3_lt5]) (by decide)) ?_
  simp [decodeFields, decodeVec, rsv, fldV_31_28, fldV_27_22, fldV_7_3, fldV_21_18, bitsV_5_13, bitsV_5_8, bitsV_3_0, elemType_lt, toNat_lt5, toNat_lt3, toNat3_lt5, elemType_code, reg3_div8]

theorem RoundTrip.vexpand (t : ElemType) (d : VReg) (a : VReg) (m : MReg) : RoundTrip.Statement (.vexpand t d a m) := by
  refine roundTrip_of (w := fmtV 0x8 0x28 t.code d.toNat a.toNat 0 m.toNat) rfl (by simp [ltV, elemType_lt, toNat_lt5, toNat_lt3, toNat3_lt5])
    (nonzero_cls (c := 8) (by simp [fldV_31_28, elemType_lt, toNat_lt5, toNat_lt3, toNat3_lt5]) (by decide)) ?_
  simp [decodeFields, decodeVec, rsv, fldV_31_28, fldV_27_22, fldV_7_3, fldV_21_18, bitsV_5_13, bitsV_5_8, bitsV_3_0, elemType_lt, toNat_lt5, toNat_lt3, toNat3_lt5, elemType_code, reg3_div8]

theorem RoundTrip.vmovg (t : ElemType) (d : GReg) (a : VReg) (b : GReg) : RoundTrip.Statement (.vmovg t d a b) := by
  refine roundTrip_of (w := fmtV 0x8 0x29 t.code d.toNat a.toNat b.toNat 0) rfl (by simp [ltV, elemType_lt, toNat_lt5])
    (nonzero_cls (c := 8) (by simp [fldV_31_28, elemType_lt, toNat_lt5]) (by decide)) ?_
  simp [decodeFields, decodeVec, rsv, fldV_31_28, fldV_27_22, fldV_2_0, fldV_21_18, bitsV_5_13, bitsV_5_8, bitsV_5_3, elemType_lt, toNat_lt5, elemType_code]

theorem RoundTrip.vmovxTov (d : VReg) (a : MReg) : RoundTrip.Statement (.vmovxTov d a) := by
  refine roundTrip_of (w := fmtV 0x8 0x2A 0 d.toNat a.toNat 0 0) rfl (by simp [ltV, toNat_lt5, toNat_lt3, toNat3_lt5])
    (nonzero_cls (c := 8) (by simp [fldV_31_28, toNat_lt5, toNat_lt3, toNat3_lt5]) (by decide)) ?_
  simp [decodeFields, decodeVec, rsv, kind, fldV_31_28, fldV_27_22, fldV_21_18, fldV_7_0, fldV_12_11, bitsV_5_13, bitsV_3_8, toNat_lt5, toNat_lt3, toNat3_lt5, reg3_div8]

theorem RoundTrip.vmovxTom (d : MReg) (a : VReg) : RoundTrip.Statement (.vmovxTom d a) := by
  refine roundTrip_of (w := fmtV 0x8 0x2A 1 d.toNat a.toNat 0 0) rfl (by simp [ltV, toNat_lt3, toNat3_lt5, toNat_lt5])
    (nonzero_cls (c := 8) (by simp [fldV_31_28, toNat_lt3, toNat3_lt5, toNat_lt5]) (by decide)) ?_
  simp [decodeFields, decodeVec, rsv, kind, fldV_31_28, fldV_27_22, fldV_21_18, fldV_7_0, fldV_17_16, bitsV_3_13, bitsV_5_8, toNat_lt3, toNat3_lt5, toNat_lt5, reg3_div8]

theorem RoundTrip.vpmerge (d : VReg) (a : VReg) (b : VReg) (m : MReg) : RoundTrip.Statement (.vpmerge d a b m) := by
  refine roundTrip_of (w := fmtV 0x8 0x2B 12 d.toNat a.toNat b.toNat m.toNat) rfl (by simp [ltV, toNat_lt5, toNat_lt3, toNat3_lt5])
    (nonzero_cls (c := 8) (by simp [fldV_31_28, toNat_lt5, toNat_lt3, toNat3_lt5]) (by decide)) ?_
  simp [decodeFields, decodeVec, onlyF32, fldV_31_28, fldV_27_22, fldV_21_18, bitsV_5_13, bitsV_5_8, bitsV_5_3, bitsV_3_0, toNat_lt5, toNat_lt3, toNat3_lt5, reg3_div8]

theorem RoundTrip.vnoise (d : VReg) (a : GReg) (b : GReg) (m : MReg) : RoundTrip.Statement (.vnoise d a b m) := by
  refine roundTrip_of (w := fmtV 0x8 0x2C 12 d.toNat a.toNat b.toNat m.toNat) rfl (by simp [ltV, toNat_lt5, toNat_lt3, toNat3_lt5])
    (nonzero_cls (c := 8) (by simp [fldV_31_28, toNat_lt5, toNat_lt3, toNat3_lt5]) (by decide)) ?_
  simp [decodeFields, decodeVec, onlyF32, fldV_31_28, fldV_27_22, fldV_21_18, bitsV_5_13, bitsV_5_8, bitsV_5_3, bitsV_3_0, toNat_lt5, toNat_lt3, toNat3_lt5, reg3_div8]

theorem RoundTrip.vamax (d : GReg) (a : VReg) (b : GReg) (m : MReg) : RoundTrip.Statement (.vamax d a b m) := by
  refine roundTrip_of (w := fmtV 0x8 0x2D 12 d.toNat a.toNat b.toNat m.toNat) rfl (by simp [ltV, toNat_lt5, toNat_lt3, toNat3_lt5])
    (nonzero_cls (c := 8) (by simp [fldV_31_28, toNat_lt5, toNat_lt3, toNat3_lt5]) (by decide)) ?_
  simp [decodeFields, decodeVec, onlyF32, fldV_31_28, fldV_27_22, fldV_21_18, bitsV_5_13, bitsV_5_8, bitsV_5_3, bitsV_3_0, toNat_lt5, toNat_lt3, toNat3_lt5, reg3_div8]

theorem RoundTrip.kand (d : MReg) (a : MReg) (b : MReg) : RoundTrip.Statement (.kand d a b) := by
  refine roundTrip_of (w := fmtV 0x8 0x2E 0 d.toNat a.toNat b.toNat 0) rfl (by simp [ltV, toNat_lt3, toNat3_lt5])
    (nonzero_cls (c := 8) (by simp [fldV_31_28, toNat_lt3, toNat3_lt5]) (by decide)) ?_
  simp [decodeFields, decodeVec, rsv, kind, fldV_31_28, fldV_27_22, fldV_21_18, fldV_2_0, fldV_17_16, fldV_12_11, fldV_7_6, bitsV_3_13, bitsV_3_8, bitsV_3_3, toNat_lt3, toNat3_lt5, reg3_div8]

theorem RoundTrip.kor (d : MReg) (a : MReg) (b : MReg) : RoundTrip.Statement (.kor d a b) := by
  refine roundTrip_of (w := fmtV 0x8 0x2F 0 d.toNat a.toNat b.toNat 0) rfl (by simp [ltV, toNat_lt3, toNat3_lt5])
    (nonzero_cls (c := 8) (by simp [fldV_31_28, toNat_lt3, toNat3_lt5]) (by decide)) ?_
  simp [decodeFields, decodeVec, rsv, kind, fldV_31_28, fldV_27_22, fldV_21_18, fldV_2_0, fldV_17_16, fldV_12_11, fldV_7_6, bitsV_3_13, bitsV_3_8, bitsV_3_3, toNat_lt3, toNat3_lt5, reg3_div8]

theorem RoundTrip.kxor (d : MReg) (a : MReg) (b : MReg) : RoundTrip.Statement (.kxor d a b) := by
  refine roundTrip_of (w := fmtV 0x8 0x30 0 d.toNat a.toNat b.toNat 0) rfl (by simp [ltV, toNat_lt3, toNat3_lt5])
    (nonzero_cls (c := 8) (by simp [fldV_31_28, toNat_lt3, toNat3_lt5]) (by decide)) ?_
  simp [decodeFields, decodeVec, rsv, kind, fldV_31_28, fldV_27_22, fldV_21_18, fldV_2_0, fldV_17_16, fldV_12_11, fldV_7_6, bitsV_3_13, bitsV_3_8, bitsV_3_3, toNat_lt3, toNat3_lt5, reg3_div8]

theorem RoundTrip.knot (d : MReg) (a : MReg) : RoundTrip.Statement (.knot d a) := by
  refine roundTrip_of (w := fmtV 0x8 0x31 0 d.toNat a.toNat 0 0) rfl (by simp [ltV, toNat_lt3, toNat3_lt5])
    (nonzero_cls (c := 8) (by simp [fldV_31_28, toNat_lt3, toNat3_lt5]) (by decide)) ?_
  simp [decodeFields, decodeVec, rsv, kind, fldV_31_28, fldV_27_22, fldV_21_18, fldV_7_0, fldV_17_16, fldV_12_11, bitsV_3_13, bitsV_3_8, toNat_lt3, toNat3_lt5, reg3_div8]

theorem RoundTrip.kpopc (d : GReg) (a : MReg) : RoundTrip.Statement (.kpopc d a) := by
  refine roundTrip_of (w := fmtV 0x8 0x32 0 d.toNat a.toNat 0 0) rfl (by simp [ltV, toNat_lt5, toNat_lt3, toNat3_lt5])
    (nonzero_cls (c := 8) (by simp [fldV_31_28, toNat_lt5, toNat_lt3, toNat3_lt5]) (by decide)) ?_
  simp [decodeFields, decodeVec, rsv, kind, fldV_31_28, fldV_27_22, fldV_21_18, fldV_7_0, fldV_12_11, bitsV_5_13, bitsV_3_8, toNat_lt5, toNat_lt3, toNat3_lt5, reg3_div8]

theorem RoundTrip.kfirst (d : GReg) (a : MReg) : RoundTrip.Statement (.kfirst d a) := by
  refine roundTrip_of (w := fmtV 0x8 0x33 0 d.toNat a.toNat 0 0) rfl (by simp [ltV, toNat_lt5, toNat_lt3, toNat3_lt5])
    (nonzero_cls (c := 8) (by simp [fldV_31_28, toNat_lt5, toNat_lt3, toNat3_lt5]) (by decide)) ?_
  simp [decodeFields, decodeVec, rsv, kind, fldV_31_28, fldV_27_22, fldV_21_18, fldV_7_0, fldV_12_11, bitsV_5_13, bitsV_3_8, toNat_lt5, toNat_lt3, toNat3_lt5, reg3_div8]

theorem RoundTrip.vaddSat (t : ElemType) (d : VReg) (a : VReg) (b : VReg) (m : MReg) : RoundTrip.Statement (.vaddSat t d a b m) := by
  refine roundTrip_of (w := fmtV 0x8 0x34 t.code d.toNat a.toNat b.toNat m.toNat) rfl (by simp [ltV, elemType_lt, toNat_lt5, toNat_lt3, toNat3_lt5])
    (nonzero_cls (c := 8) (by simp [fldV_31_28, elemType_lt, toNat_lt5, toNat_lt3, toNat3_lt5]) (by decide)) ?_
  simp [decodeFields, decodeVec, fldV_31_28, fldV_27_22, fldV_21_18, bitsV_5_13, bitsV_5_8, bitsV_5_3, bitsV_3_0, elemType_lt, toNat_lt5, toNat_lt3, toNat3_lt5, elemType_code, reg3_div8]

theorem RoundTrip.vsubSat (t : ElemType) (d : VReg) (a : VReg) (b : VReg) (m : MReg) : RoundTrip.Statement (.vsubSat t d a b m) := by
  refine roundTrip_of (w := fmtV 0x8 0x35 t.code d.toNat a.toNat b.toNat m.toNat) rfl (by simp [ltV, elemType_lt, toNat_lt5, toNat_lt3, toNat3_lt5])
    (nonzero_cls (c := 8) (by simp [fldV_31_28, elemType_lt, toNat_lt5, toNat_lt3, toNat3_lt5]) (by decide)) ?_
  simp [decodeFields, decodeVec, fldV_31_28, fldV_27_22, fldV_21_18, bitsV_5_13, bitsV_5_8, bitsV_5_3, bitsV_3_0, elemType_lt, toNat_lt5, toNat_lt3, toNat3_lt5, elemType_code, reg3_div8]

theorem RoundTrip.vmulSat (t : ElemType) (d : VReg) (a : VReg) (b : VReg) (m : MReg) : RoundTrip.Statement (.vmulSat t d a b m) := by
  refine roundTrip_of (w := fmtV 0x8 0x36 t.code d.toNat a.toNat b.toNat m.toNat) rfl (by simp [ltV, elemType_lt, toNat_lt5, toNat_lt3, toNat3_lt5])
    (nonzero_cls (c := 8) (by simp [fldV_31_28, elemType_lt, toNat_lt5, toNat_lt3, toNat3_lt5]) (by decide)) ?_
  simp [decodeFields, decodeVec, fldV_31_28, fldV_27_22, fldV_21_18, bitsV_5_13, bitsV_5_8, bitsV_5_3, bitsV_3_0, elemType_lt, toNat_lt5, toNat_lt3, toNat3_lt5, elemType_code, reg3_div8]

theorem RoundTrip.vnarrowSat (t : ElemType) (d : VReg) (a : VReg) (m : MReg) : RoundTrip.Statement (.vnarrowSat t d a m) := by
  refine roundTrip_of (w := fmtV 0x8 0x37 t.code d.toNat a.toNat 0 m.toNat) rfl (by simp [ltV, elemType_lt, toNat_lt5, toNat_lt3, toNat3_lt5])
    (nonzero_cls (c := 8) (by simp [fldV_31_28, elemType_lt, toNat_lt5, toNat_lt3, toNat3_lt5]) (by decide)) ?_
  simp [decodeFields, decodeVec, rsv, fldV_31_28, fldV_27_22, fldV_7_3, fldV_21_18, bitsV_5_13, bitsV_5_8, bitsV_3_0, elemType_lt, toNat_lt5, toNat_lt3, toNat3_lt5, elemType_code, reg3_div8]

theorem RoundTrip.vld (t : ElemType) (d : VReg) (a : GReg) (m : MReg) : RoundTrip.Statement (.vld t d a m) := by
  refine roundTrip_of (w := fmtV 0x9 0x00 t.code d.toNat a.toNat 0 m.toNat) rfl (by simp [ltV, elemType_lt, toNat_lt5, toNat_lt3, toNat3_lt5])
    (nonzero_cls (c := 9) (by simp [fldV_31_28, elemType_lt, toNat_lt5, toNat_lt3, toNat3_lt5]) (by decide)) ?_
  simp [decodeFields, decodeVMem, rsv, fldV_31_28, fldV_27_22, fldV_7_3, fldV_21_18, bitsV_5_13, bitsV_5_8, bitsV_3_0, elemType_lt, toNat_lt5, toNat_lt3, toNat3_lt5, elemType_code, reg3_div8]

theorem RoundTrip.vst (t : ElemType) (d : VReg) (a : GReg) (m : MReg) : RoundTrip.Statement (.vst t d a m) := by
  refine roundTrip_of (w := fmtV 0x9 0x01 t.code d.toNat a.toNat 0 m.toNat) rfl (by simp [ltV, elemType_lt, toNat_lt5, toNat_lt3, toNat3_lt5])
    (nonzero_cls (c := 9) (by simp [fldV_31_28, elemType_lt, toNat_lt5, toNat_lt3, toNat3_lt5]) (by decide)) ?_
  simp [decodeFields, decodeVMem, rsv, fldV_31_28, fldV_27_22, fldV_7_3, fldV_21_18, bitsV_5_13, bitsV_5_8, bitsV_3_0, elemType_lt, toNat_lt5, toNat_lt3, toNat3_lt5, elemType_code, reg3_div8]

theorem RoundTrip.vldg (t : ElemType) (d : VReg) (a : GReg) (b : GReg) (m : MReg) : RoundTrip.Statement (.vldg t d a b m) := by
  refine roundTrip_of (w := fmtV 0x9 0x02 t.code d.toNat a.toNat b.toNat m.toNat) rfl (by simp [ltV, elemType_lt, toNat_lt5, toNat_lt3, toNat3_lt5])
    (nonzero_cls (c := 9) (by simp [fldV_31_28, elemType_lt, toNat_lt5, toNat_lt3, toNat3_lt5]) (by decide)) ?_
  simp [decodeFields, decodeVMem, fldV_31_28, fldV_27_22, fldV_21_18, bitsV_5_13, bitsV_5_8, bitsV_5_3, bitsV_3_0, elemType_lt, toNat_lt5, toNat_lt3, toNat3_lt5, elemType_code, reg3_div8]

theorem RoundTrip.vstg (t : ElemType) (d : VReg) (a : GReg) (b : GReg) (m : MReg) : RoundTrip.Statement (.vstg t d a b m) := by
  refine roundTrip_of (w := fmtV 0x9 0x03 t.code d.toNat a.toNat b.toNat m.toNat) rfl (by simp [ltV, elemType_lt, toNat_lt5, toNat_lt3, toNat3_lt5])
    (nonzero_cls (c := 9) (by simp [fldV_31_28, elemType_lt, toNat_lt5, toNat_lt3, toNat3_lt5]) (by decide)) ?_
  simp [decodeFields, decodeVMem, fldV_31_28, fldV_27_22, fldV_21_18, bitsV_5_13, bitsV_5_8, bitsV_5_3, bitsV_3_0, elemType_lt, toNat_lt5, toNat_lt3, toNat3_lt5, elemType_code, reg3_div8]

theorem RoundTrip.vgather (t : ElemType) (d : VReg) (a : GReg) (b : VReg) (m : MReg) : RoundTrip.Statement (.vgather t d a b m) := by
  refine roundTrip_of (w := fmtV 0x9 0x04 t.code d.toNat a.toNat b.toNat m.toNat) rfl (by simp [ltV, elemType_lt, toNat_lt5, toNat_lt3, toNat3_lt5])
    (nonzero_cls (c := 9) (by simp [fldV_31_28, elemType_lt, toNat_lt5, toNat_lt3, toNat3_lt5]) (by decide)) ?_
  simp [decodeFields, decodeVMem, fldV_31_28, fldV_27_22, fldV_21_18, bitsV_5_13, bitsV_5_8, bitsV_5_3, bitsV_3_0, elemType_lt, toNat_lt5, toNat_lt3, toNat3_lt5, elemType_code, reg3_div8]

theorem RoundTrip.vscatter (t : ElemType) (d : VReg) (a : GReg) (b : VReg) (m : MReg) : RoundTrip.Statement (.vscatter t d a b m) := by
  refine roundTrip_of (w := fmtV 0x9 0x05 t.code d.toNat a.toNat b.toNat m.toNat) rfl (by simp [ltV, elemType_lt, toNat_lt5, toNat_lt3, toNat3_lt5])
    (nonzero_cls (c := 9) (by simp [fldV_31_28, elemType_lt, toNat_lt5, toNat_lt3, toNat3_lt5]) (by decide)) ?_
  simp [decodeFields, decodeVMem, fldV_31_28, fldV_27_22, fldV_21_18, bitsV_5_13, bitsV_5_8, bitsV_5_3, bitsV_3_0, elemType_lt, toNat_lt5, toNat_lt3, toNat3_lt5, elemType_code, reg3_div8]

theorem RoundTrip.pld (d : VReg) (a : GReg) : RoundTrip.Statement (.pld d a) := by
  refine roundTrip_of (w := fmtV 0x9 0x06 0 d.toNat a.toNat 0 0) rfl (by simp [ltV, toNat_lt5])
    (nonzero_cls (c := 9) (by simp [fldV_31_28, toNat_lt5]) (by decide)) ?_
  simp [decodeFields, decodeVMem, rsv, fldV_31_28, fldV_27_22, fldV_21_18, fldV_7_0, bitsV_5_13, bitsV_5_8, toNat_lt5]

theorem RoundTrip.pst (d : VReg) (a : GReg) : RoundTrip.Statement (.pst d a) := by
  refine roundTrip_of (w := fmtV 0x9 0x07 0 d.toNat a.toNat 0 0) rfl (by simp [ltV, toNat_lt5])
    (nonzero_cls (c := 9) (by simp [fldV_31_28, toNat_lt5]) (by decide)) ?_
  simp [decodeFields, decodeVMem, rsv, fldV_31_28, fldV_27_22, fldV_21_18, fldV_7_0, bitsV_5_13, bitsV_5_8, toNat_lt5]

theorem RoundTrip.tstat (d : GReg) (a : GReg) : RoundTrip.Statement (.tstat d a) := by
  refine roundTrip_of (w := fmtV 0x9 0x08 0 d.toNat a.toNat 0 0) rfl (by simp [ltV, toNat_lt5])
    (nonzero_cls (c := 9) (by simp [fldV_31_28, toNat_lt5]) (by decide)) ?_
  simp [decodeFields, decodeVMem, rsv, fldV_31_28, fldV_27_22, fldV_21_18, fldV_7_0, bitsV_5_13, bitsV_5_8, toNat_lt5]

theorem RoundTrip.tready (a : GReg) : RoundTrip.Statement (.tready a) := by
  refine roundTrip_of (w := fmtV 0x9 0x09 0 0 a.toNat 0 0) rfl (by simp [ltV, toNat_lt5])
    (nonzero_cls (c := 9) (by simp [fldV_31_28, toNat_lt5]) (by decide)) ?_
  simp [decodeFields, decodeVMem, rsv, fldV_31_28, fldV_27_22, fldV_21_13, fldV_7_0, bitsV_5_8, toNat_lt5]

theorem RoundTrip.tempty (a : GReg) : RoundTrip.Statement (.tempty a) := by
  refine roundTrip_of (w := fmtV 0x9 0x0A 0 0 a.toNat 0 0) rfl (by simp [ltV, toNat_lt5])
    (nonzero_cls (c := 9) (by simp [fldV_31_28, toNat_lt5]) (by decide)) ?_
  simp [decodeFields, decodeVMem, rsv, fldV_31_28, fldV_27_22, fldV_21_13, fldV_7_0, bitsV_5_8, toNat_lt5]

theorem RoundTrip.barinit (a : GReg) (b : GReg) : RoundTrip.Statement (.barinit a b) := by
  refine roundTrip_of (w := fmtV 0x9 0x0B 0 0 a.toNat b.toNat 0) rfl (by simp [ltV, toNat_lt5])
    (nonzero_cls (c := 9) (by simp [fldV_31_28, toNat_lt5]) (by decide)) ?_
  simp [decodeFields, decodeVMem, rsv, fldV_31_28, fldV_27_22, fldV_21_13, fldV_2_0, bitsV_5_8, bitsV_5_3, toNat_lt5]

theorem RoundTrip.barpost (a : GReg) (b : GReg) : RoundTrip.Statement (.barpost a b) := by
  refine roundTrip_of (w := fmtV 0x9 0x0C 0 0 a.toNat b.toNat 0) rfl (by simp [ltV, toNat_lt5])
    (nonzero_cls (c := 9) (by simp [fldV_31_28, toNat_lt5]) (by decide)) ?_
  simp [decodeFields, decodeVMem, rsv, fldV_31_28, fldV_27_22, fldV_21_13, fldV_2_0, bitsV_5_8, bitsV_5_3, toNat_lt5]

theorem RoundTrip.bararr (a : GReg) : RoundTrip.Statement (.bararr a) := by
  refine roundTrip_of (w := fmtV 0x9 0x0D 0 0 a.toNat 0 0) rfl (by simp [ltV, toNat_lt5])
    (nonzero_cls (c := 9) (by simp [fldV_31_28, toNat_lt5]) (by decide)) ?_
  simp [decodeFields, decodeVMem, rsv, fldV_31_28, fldV_27_22, fldV_21_13, fldV_7_0, bitsV_5_8, toNat_lt5]

theorem RoundTrip.bardrop (a : GReg) : RoundTrip.Statement (.bardrop a) := by
  refine roundTrip_of (w := fmtV 0x9 0x0E 0 0 a.toNat 0 0) rfl (by simp [ltV, toNat_lt5])
    (nonzero_cls (c := 9) (by simp [fldV_31_28, toNat_lt5]) (by decide)) ?_
  simp [decodeFields, decodeVMem, rsv, fldV_31_28, fldV_27_22, fldV_21_13, fldV_7_0, bitsV_5_8, toNat_lt5]

theorem RoundTrip.barwait (a : GReg) (b : GReg) : RoundTrip.Statement (.barwait a b) := by
  refine roundTrip_of (w := fmtV 0x9 0x0F 0 0 a.toNat b.toNat 0) rfl (by simp [ltV, toNat_lt5])
    (nonzero_cls (c := 9) (by simp [fldV_31_28, toNat_lt5]) (by decide)) ?_
  simp [decodeFields, decodeVMem, rsv, fldV_31_28, fldV_27_22, fldV_21_13, fldV_2_0, bitsV_5_8, bitsV_5_3, toNat_lt5]

theorem RoundTrip.oclaim (d : GReg) (a : OReg) : RoundTrip.Statement (.oclaim d a) := by
  refine roundTrip_of (w := fmtA 0xA 0x00 d.toNat a.toNat 0 0) rfl (by simp [ltA, toNat_lt5, toNat_lt4, toNat4_lt5])
    (nonzero_cls (c := 10) (by simp [fldA_31_28, toNat_lt5, toNat_lt4, toNat4_lt5]) (by decide)) ?_
  simp [decodeFields, decodeMatrix, rsv, kind, fldA_31_28, fldA_27_22, fldA_11_0, fldA_16_16, bitsA_5_17, bitsA_4_12, toNat_lt5, toNat_lt4, toNat4_lt5, reg4_div16]

theorem RoundTrip.orelease (a : OReg) : RoundTrip.Statement (.orelease a) := by
  refine roundTrip_of (w := fmtA 0xA 0x01 0 a.toNat 0 0) rfl (by simp [ltA, toNat_lt4, toNat4_lt5])
    (nonzero_cls (c := 10) (by simp [fldA_31_28, toNat_lt4, toNat4_lt5]) (by decide)) ?_
  simp [decodeFields, decodeMatrix, rsv, kind, fldA_31_28, fldA_27_22, fldA_21_17, fldA_11_0, fldA_16_16, bitsA_4_12, toNat_lt4, toNat4_lt5, reg4_div16]

theorem RoundTrip.oload (d : OReg) (a : GReg) (b : GReg) : RoundTrip.Statement (.oload d a b) := by
  refine roundTrip_of (w := fmtA 0xA 0x02 d.toNat a.toNat b.toNat 0) rfl (by simp [ltA, toNat_lt4, toNat4_lt5, toNat_lt5])
    (nonzero_cls (c := 10) (by simp [fldA_31_28, toNat_lt4, toNat4_lt5, toNat_lt5]) (by decide)) ?_
  simp [decodeFields, decodeMatrix, rsv, kind, fldA_31_28, fldA_27_22, fldA_6_0, fldA_21_21, bitsA_4_17, bitsA_5_12, bitsA_5_7, toNat_lt4, toNat4_lt5, toNat_lt5, reg4_div16]

theorem RoundTrip.mxset (a : GReg) : RoundTrip.Statement (.mxset a) := by
  refine roundTrip_of (w := fmtA 0xA 0x03 0 a.toNat 0 0) rfl (by simp [ltA, toNat_lt5])
    (nonzero_cls (c := 10) (by simp [fldA_31_28, toNat_lt5]) (by decide)) ?_
  simp [decodeFields, decodeMatrix, rsv, fldA_31_28, fldA_27_22, fldA_21_17, fldA_11_0, bitsA_5_12, toNat_lt5]

theorem RoundTrip.mxget (d : GReg) : RoundTrip.Statement (.mxget d) := by
  refine roundTrip_of (w := fmtA 0xA 0x04 d.toNat 0 0 0) rfl (by simp [ltA, toNat_lt5])
    (nonzero_cls (c := 10) (by simp [fldA_31_28, toNat_lt5]) (by decide)) ?_
  simp [decodeFields, decodeMatrix, rsv, fldA_31_28, fldA_27_22, fldA_16_0, bitsA_5_17, toNat_lt5]

theorem RoundTrip.mxzero (d : CReg) : RoundTrip.Statement (.mxzero d) := by
  refine roundTrip_of (w := fmtA 0xA 0x05 d.toNat 0 0 0) rfl (by simp [ltA, toNat_lt3, toNat3_lt5])
    (nonzero_cls (c := 10) (by simp [fldA_31_28, toNat_lt3, toNat3_lt5]) (by decide)) ?_
  simp [decodeFields, decodeMatrix, rsv, kind, fldA_31_28, fldA_27_22, fldA_16_0, fldA_21_20, bitsA_3_17, toNat_lt3, toNat3_lt5, reg3_div8]

theorem RoundTrip.mxmul (d : CReg) (a : OReg) (b : OReg) : RoundTrip.Statement (.mxmul d a b) := by
  refine roundTrip_of (w := fmtA 0xA 0x06 d.toNat a.toNat b.toNat 0) rfl (by simp [ltA, toNat_lt3, toNat3_lt5, toNat_lt4, toNat4_lt5])
    (nonzero_cls (c := 10) (by simp [fldA_31_28, toNat_lt3, toNat3_lt5, toNat_lt4, toNat4_lt5]) (by decide)) ?_
  simp [decodeFields, decodeMatrix, rsv, kind, fldA_31_28, fldA_27_22, fldA_6_0, fldA_21_20, fldA_16_16, fldA_11_11, bitsA_3_17, bitsA_4_12, bitsA_4_7, toNat_lt3, toNat3_lt5, toNat_lt4, toNat4_lt5, reg3_div8, reg4_div16]

theorem RoundTrip.mxloadc (d : CReg) (a : GReg) (b : GReg) : RoundTrip.Statement (.mxloadc d a b) := by
  refine roundTrip_of (w := fmtA 0xA 0x07 d.toNat a.toNat b.toNat 0) rfl (by simp [ltA, toNat_lt3, toNat3_lt5, toNat_lt5])
    (nonzero_cls (c := 10) (by simp [fldA_31_28, toNat_lt3, toNat3_lt5, toNat_lt5]) (by decide)) ?_
  simp [decodeFields, decodeMatrix, rsv, kind, fldA_31_28, fldA_27_22, fldA_6_0, fldA_21_20, bitsA_3_17, bitsA_5_12, bitsA_5_7, toNat_lt3, toNat3_lt5, toNat_lt5, reg3_div8]

theorem RoundTrip.mxstore (d : CReg) (a : GReg) (b : GReg) : RoundTrip.Statement (.mxstore d a b) := by
  refine roundTrip_of (w := fmtA 0xA 0x08 d.toNat a.toNat b.toNat 0) rfl (by simp [ltA, toNat_lt3, toNat3_lt5, toNat_lt5])
    (nonzero_cls (c := 10) (by simp [fldA_31_28, toNat_lt3, toNat3_lt5, toNat_lt5]) (by decide)) ?_
  simp [decodeFields, decodeMatrix, rsv, kind, fldA_31_28, fldA_27_22, fldA_6_0, fldA_21_20, bitsA_3_17, bitsA_5_12, bitsA_5_7, toNat_lt3, toNat3_lt5, toNat_lt5, reg3_div8]

theorem RoundTrip.mxwait (a : CReg) : RoundTrip.Statement (.mxwait a) := by
  refine roundTrip_of (w := fmtA 0xA 0x09 0 a.toNat 0 0) rfl (by simp [ltA, toNat_lt3, toNat3_lt5])
    (nonzero_cls (c := 10) (by simp [fldA_31_28, toNat_lt3, toNat3_lt5]) (by decide)) ?_
  simp [decodeFields, decodeMatrix, rsv, kind, fldA_31_28, fldA_27_22, fldA_21_17, fldA_11_0, fldA_16_15, bitsA_3_12, toNat_lt3, toNat3_lt5, reg3_div8]

theorem RoundTrip.mxdrain : RoundTrip.Statement .mxdrain := by
  refine roundTrip_of (w := fmtA 0xA 0x0A 0 0 0 0) rfl (by simp [ltA])
    (nonzero_cls (c := 10) (by simp [fldA_31_28]) (by decide)) ?_
  simp [decodeFields, decodeMatrix, rsv, fldA_31_28, fldA_27_22, fldA_21_0]

theorem RoundTrip.eset (e : BitVec 6) (a : GReg) : RoundTrip.Statement (.eset e a) := by
  refine roundTrip_of (w := fmtE 0xB 0x00 e.toNat a.toNat 0 0) rfl (by simp [ltE, toNat_lt6, toNat_lt5])
    (nonzero_cls (c := 11) (by simp [fldE_31_28, toNat_lt6, toNat_lt5]) (by decide)) ?_
  simp [decodeFields, decodeEngine, rsv, fldE_31_28, fldE_27_24, fldE_12_0, bitsE_6_18, bitsE_5_13, toNat_lt6, toNat_lt5]

theorem RoundTrip.eget (e : BitVec 6) (a : GReg) : RoundTrip.Statement (.eget e a) := by
  refine roundTrip_of (w := fmtE 0xB 0x01 e.toNat a.toNat 0 0) rfl (by simp [ltE, toNat_lt6, toNat_lt5])
    (nonzero_cls (c := 11) (by simp [fldE_31_28, toNat_lt6, toNat_lt5]) (by decide)) ?_
  simp [decodeFields, decodeEngine, rsv, fldE_31_28, fldE_27_24, fldE_12_0, bitsE_6_18, bitsE_5_13, toNat_lt6, toNat_lt5]

theorem RoundTrip.cpyMm (a : GReg) (b : GReg) (bar : Bool) : RoundTrip.Statement (.cpyMm a b bar) := by
  refine roundTrip_of (w := fmtE 0xB 0x02 0 a.toNat b.toNat bar.toNat) rfl (by simp [ltEf00, toNat_lt5, bool_lt, bool_le])
    (nonzero_cls (c := 11) (by simp [fldEf00_31_28, toNat_lt5, bool_lt, bool_le]) (by decide)) ?_
  simp [decodeFields, decodeEngine, rsv, fldEf00_31_28, fldEf00_27_24, fldEf00_23_18, fldEf00_7_1, fldEf00_0_0, bitsEf00_5_13, bitsEf00_5_8, toNat_lt5, bool_lt, bool_le, bool_code]

theorem RoundTrip.cpyMt (a : GReg) (b : GReg) (bar : Bool) : RoundTrip.Statement (.cpyMt a b bar) := by
  refine roundTrip_of (w := fmtE 0xB 0x02 1 a.toNat b.toNat bar.toNat) rfl (by simp [ltEf00, toNat_lt5, bool_lt, bool_le])
    (nonzero_cls (c := 11) (by simp [fldEf00_31_28, toNat_lt5, bool_lt, bool_le]) (by decide)) ?_
  simp [decodeFields, decodeEngine, rsv, fldEf00_31_28, fldEf00_27_24, fldEf00_23_18, fldEf00_7_1, fldEf00_0_0, bitsEf00_5_13, bitsEf00_5_8, toNat_lt5, bool_lt, bool_le, bool_code]

theorem RoundTrip.cpyTm (a : GReg) (b : GReg) (bar : Bool) : RoundTrip.Statement (.cpyTm a b bar) := by
  refine roundTrip_of (w := fmtE 0xB 0x02 2 a.toNat b.toNat bar.toNat) rfl (by simp [ltEf00, toNat_lt5, bool_lt, bool_le])
    (nonzero_cls (c := 11) (by simp [fldEf00_31_28, toNat_lt5, bool_lt, bool_le]) (by decide)) ?_
  simp [decodeFields, decodeEngine, rsv, fldEf00_31_28, fldEf00_27_24, fldEf00_23_18, fldEf00_7_1, fldEf00_0_0, bitsEf00_5_13, bitsEf00_5_8, toNat_lt5, bool_lt, bool_le, bool_code]

theorem RoundTrip.qput (a : GReg) (b : GReg) : RoundTrip.Statement (.qput a b) := by
  refine roundTrip_of (w := fmtE 0xB 0x03 0 a.toNat b.toNat 0) rfl (by simp [ltE, toNat_lt5])
    (nonzero_cls (c := 11) (by simp [fldE_31_28, toNat_lt5]) (by decide)) ?_
  simp [decodeFields, decodeEngine, rsv, fldE_31_28, fldE_27_24, fldE_23_18, fldE_7_0, bitsE_5_13, bitsE_5_8, toNat_lt5]

theorem RoundTrip.rwin (a : GReg) (op : RedOp) : RoundTrip.Statement (.rwin a op) := by
  refine roundTrip_of (w := fmtE 0xB 0x04 0 a.toNat 0 op.code) rfl (by simp [ltEf30, toNat_lt5, redOp_lt])
    (nonzero_cls (c := 11) (by simp [fldEf30_31_28, toNat_lt5, redOp_lt]) (by decide)) ?_
  simp [decodeFields, decodeEngine, rsv, orElse, fldEf30_31_28, fldEf30_27_24, fldEf30_23_18, fldEf30_12_4, fldEf30_3_0, bitsEf30_5_13, toNat_lt5, redOp_lt, redOp_code]

theorem RoundTrip.rclose (a : GReg) : RoundTrip.Statement (.rclose a) := by
  refine roundTrip_of (w := fmtE 0xB 0x04 1 a.toNat 0 0) rfl (by simp [ltE, toNat_lt5])
    (nonzero_cls (c := 11) (by simp [fldE_31_28, toNat_lt5]) (by decide)) ?_
  simp [decodeFields, decodeEngine, rsv, fldE_31_28, fldE_27_24, fldE_23_18, fldE_12_0, bitsE_5_13, toNat_lt5]

theorem RoundTrip.ramo (a : GReg) (b : GReg) (op : RedOp) : RoundTrip.Statement (.ramo a b op) := by
  refine roundTrip_of (w := fmtE 0xB 0x04 2 a.toNat b.toNat op.code) rfl (by simp [ltEf30, toNat_lt5, redOp_lt])
    (nonzero_cls (c := 11) (by simp [fldEf30_31_28, toNat_lt5, redOp_lt]) (by decide)) ?_
  simp [decodeFields, decodeEngine, rsv, orElse, fldEf30_31_28, fldEf30_27_24, fldEf30_23_18, fldEf30_7_4, fldEf30_3_0, bitsEf30_5_13, bitsEf30_5_8, toNat_lt5, redOp_lt, redOp_code]

theorem RoundTrip.rwait (a : GReg) (b : GReg) : RoundTrip.Statement (.rwait a b) := by
  refine roundTrip_of (w := fmtE 0xB 0x04 3 a.toNat b.toNat 0) rfl (by simp [ltE, toNat_lt5])
    (nonzero_cls (c := 11) (by simp [fldE_31_28, toNat_lt5]) (by decide)) ?_
  simp [decodeFields, decodeEngine, rsv, fldE_31_28, fldE_27_24, fldE_23_18, fldE_7_0, bitsE_5_13, bitsE_5_8, toNat_lt5]

theorem RoundTrip.hload (d : HReg) (a : GReg) : RoundTrip.Statement (.hload d a) := by
  refine roundTrip_of (w := fmtA 0xC 0x00 d.toNat a.toNat 0 0) rfl (by simp [ltA, toNat_lt4, toNat4_lt5, toNat_lt5])
    (nonzero_cls (c := 12) (by simp [fldA_31_28, toNat_lt4, toNat4_lt5, toNat_lt5]) (by decide)) ?_
  simp [decodeFields, decodeStateOps, rsv, kind, fldA_31_28, fldA_27_22, fldA_11_0, fldA_21_21, bitsA_4_17, bitsA_5_12, toNat_lt4, toNat4_lt5, toNat_lt5, reg4_div16]

theorem RoundTrip.hstore (d : HReg) (a : GReg) : RoundTrip.Statement (.hstore d a) := by
  refine roundTrip_of (w := fmtA 0xC 0x01 d.toNat a.toNat 0 0) rfl (by simp [ltA, toNat_lt4, toNat4_lt5, toNat_lt5])
    (nonzero_cls (c := 12) (by simp [fldA_31_28, toNat_lt4, toNat4_lt5, toNat_lt5]) (by decide)) ?_
  simp [decodeFields, decodeStateOps, rsv, kind, fldA_31_28, fldA_27_22, fldA_11_0, fldA_21_21, bitsA_4_17, bitsA_5_12, toNat_lt4, toNat4_lt5, toNat_lt5, reg4_div16]

theorem RoundTrip.hquery (d : GReg) (a : HReg) (b : GReg) : RoundTrip.Statement (.hquery d a b) := by
  refine roundTrip_of (w := fmtA 0xC 0x02 d.toNat a.toNat b.toNat 0) rfl (by simp [ltA, toNat_lt5, toNat_lt4, toNat4_lt5])
    (nonzero_cls (c := 12) (by simp [fldA_31_28, toNat_lt5, toNat_lt4, toNat4_lt5]) (by decide)) ?_
  simp [decodeFields, decodeStateOps, rsv, kind, fldA_31_28, fldA_27_22, fldA_6_0, fldA_16_16, bitsA_5_17, bitsA_4_12, bitsA_5_7, toNat_lt5, toNat_lt4, toNat4_lt5, reg4_div16]

theorem RoundTrip.tld (d : VReg) (a : HReg) (b : GReg) (m : MReg) : RoundTrip.Statement (.tld d a b m) := by
  refine roundTrip_of (w := fmtA 0xC 0x03 d.toNat a.toNat b.toNat m.toNat) rfl (by simp [ltA, toNat_lt5, toNat_lt4, toNat4_lt5, toNat_lt3, toNat3_lt5, toNat3_lt7])
    (nonzero_cls (c := 12) (by simp [fldA_31_28, toNat_lt5, toNat_lt4, toNat4_lt5, toNat_lt3, toNat3_lt5, toNat3_lt7]) (by decide)) ?_
  simp [decodeFields, decodeStateOps, rsv, kind, fldA_31_28, fldA_27_22, fldA_6_3, fldA_16_16, bitsA_5_17, bitsA_4_12, bitsA_5_7, bitsA_3_0, toNat_lt5, toNat_lt4, toNat4_lt5, toNat_lt3, toNat3_lt5, toNat3_lt7, reg4_div16, reg3_div8]

theorem RoundTrip.tst (d : VReg) (a : HReg) (b : GReg) (m : MReg) : RoundTrip.Statement (.tst d a b m) := by
  refine roundTrip_of (w := fmtA 0xC 0x04 d.toNat a.toNat b.toNat m.toNat) rfl (by simp [ltA, toNat_lt5, toNat_lt4, toNat4_lt5, toNat_lt3, toNat3_lt5, toNat3_lt7])
    (nonzero_cls (c := 12) (by simp [fldA_31_28, toNat_lt5, toNat_lt4, toNat4_lt5, toNat_lt3, toNat3_lt5, toNat3_lt7]) (by decide)) ?_
  simp [decodeFields, decodeStateOps, rsv, kind, fldA_31_28, fldA_27_22, fldA_6_3, fldA_16_16, bitsA_5_17, bitsA_4_12, bitsA_5_7, bitsA_3_0, toNat_lt5, toNat_lt4, toNat4_lt5, toNat_lt3, toNat3_lt5, toNat3_lt7, reg4_div16, reg3_div8]

theorem RoundTrip.relayout (d : HReg) (a : GReg) (b : GReg) : RoundTrip.Statement (.relayout d a b) := by
  refine roundTrip_of (w := fmtA 0xC 0x05 d.toNat a.toNat b.toNat 0) rfl (by simp [ltA, toNat_lt4, toNat4_lt5, toNat_lt5])
    (nonzero_cls (c := 12) (by simp [fldA_31_28, toNat_lt4, toNat4_lt5, toNat_lt5]) (by decide)) ?_
  simp [decodeFields, decodeStateOps, rsv, kind, fldA_31_28, fldA_27_22, fldA_6_0, fldA_21_21, bitsA_4_17, bitsA_5_12, bitsA_5_7, toNat_lt4, toNat4_lt5, toNat_lt5, reg4_div16]

theorem RoundTrip.rlwait (a : HReg) : RoundTrip.Statement (.rlwait a) := by
  refine roundTrip_of (w := fmtA 0xC 0x06 0 a.toNat 0 0) rfl (by simp [ltA, toNat_lt4, toNat4_lt5])
    (nonzero_cls (c := 12) (by simp [fldA_31_28, toNat_lt4, toNat4_lt5]) (by decide)) ?_
  simp [decodeFields, decodeStateOps, rsv, kind, fldA_31_28, fldA_27_22, fldA_21_17, fldA_11_0, fldA_16_16, bitsA_4_12, toNat_lt4, toNat4_lt5, reg4_div16]

theorem RoundTrip.hopen (d : GReg) (a : GReg) : RoundTrip.Statement (.hopen d a) := by
  refine roundTrip_of (w := fmtA 0xC 0x08 d.toNat a.toNat 0 0) rfl (by simp [ltA, toNat_lt5])
    (nonzero_cls (c := 12) (by simp [fldA_31_28, toNat_lt5]) (by decide)) ?_
  simp [decodeFields, decodeStateOps, rsv, fldA_31_28, fldA_27_22, fldA_11_0, bitsA_5_17, bitsA_5_12, toNat_lt5]

theorem RoundTrip.henter (a : GReg) : RoundTrip.Statement (.henter a) := by
  refine roundTrip_of (w := fmtA 0xC 0x09 0 a.toNat 0 0) rfl (by simp [ltA, toNat_lt5])
    (nonzero_cls (c := 12) (by simp [fldA_31_28, toNat_lt5]) (by decide)) ?_
  simp [decodeFields, decodeStateOps, rsv, fldA_31_28, fldA_27_22, fldA_21_17, fldA_11_0, bitsA_5_12, toNat_lt5]

theorem RoundTrip.hleave : RoundTrip.Statement .hleave := by
  refine roundTrip_of (w := fmtA 0xC 0x0A 0 0 0 0) rfl (by simp [ltA])
    (nonzero_cls (c := 12) (by simp [fldA_31_28]) (by decide)) ?_
  simp [decodeFields, decodeStateOps, rsv, fldA_31_28, fldA_27_22, fldA_21_0]

theorem RoundTrip.hconfirm (d : GReg) (a : GReg) (excl : Bool) : RoundTrip.Statement (.hconfirm d a excl) := by
  refine roundTrip_of (w := fmtA 0xC 0x0B d.toNat a.toNat 0 excl.toNat) rfl (by simp [ltAm00, toNat_lt5, bool_lt, bool_le])
    (nonzero_cls (c := 12) (by simp [fldAm00_31_28, toNat_lt5, bool_lt, bool_le]) (by decide)) ?_
  simp [decodeFields, decodeStateOps, rsv, fldAm00_31_28, fldAm00_27_22, fldAm00_11_1, fldAm00_0_0, bitsAm00_5_17, bitsAm00_5_12, toNat_lt5, bool_lt, bool_le, bool_code]

theorem RoundTrip.hrefute (d : GReg) (a : GReg) : RoundTrip.Statement (.hrefute d a) := by
  refine roundTrip_of (w := fmtA 0xC 0x0C d.toNat a.toNat 0 0) rfl (by simp [ltA, toNat_lt5])
    (nonzero_cls (c := 12) (by simp [fldA_31_28, toNat_lt5]) (by decide)) ?_
  simp [decodeFields, decodeStateOps, rsv, fldA_31_28, fldA_27_22, fldA_11_0, bitsA_5_17, bitsA_5_12, toNat_lt5]

theorem RoundTrip.hstat (d : GReg) (a : GReg) : RoundTrip.Statement (.hstat d a) := by
  refine roundTrip_of (w := fmtA 0xC 0x0D d.toNat a.toNat 0 0) rfl (by simp [ltA, toNat_lt5])
    (nonzero_cls (c := 12) (by simp [fldA_31_28, toNat_lt5]) (by decide)) ?_
  simp [decodeFields, decodeStateOps, rsv, fldA_31_28, fldA_27_22, fldA_11_0, bitsA_5_17, bitsA_5_12, toNat_lt5]

theorem RoundTrip.copen (off : BitVec 12) : RoundTrip.Statement (.copen off) := by
  refine roundTrip_of (w := 0xC3800000 + off.toNat) rfl (by simp [ltC, toNat_lt12])
    (nonzero_cls (c := 12) (by simp [fldC_31_28, toNat_lt12]) (by decide)) ?_
  simp [decodeFields, decodeStateOps, rsv, fldC_31_28, fldC_27_22, fldC_21_12, bitsC_12_0, toNat_lt12]

theorem RoundTrip.cclose : RoundTrip.Statement .cclose := by
  refine roundTrip_of (w := fmtA 0xC 0x0F 0 0 0 0) rfl (by simp [ltA])
    (nonzero_cls (c := 12) (by simp [fldA_31_28]) (by decide)) ?_
  simp [decodeFields, decodeStateOps, rsv, fldA_31_28, fldA_27_22, fldA_21_0]

theorem RoundTrip.screate (d : GReg) (a : GReg) : RoundTrip.Statement (.screate d a) := by
  refine roundTrip_of (w := fmtA 0xC 0x10 d.toNat a.toNat 0 0) rfl (by simp [ltA, toNat_lt5])
    (nonzero_cls (c := 12) (by simp [fldA_31_28, toNat_lt5]) (by decide)) ?_
  simp [decodeFields, decodeStateOps, rsv, fldA_31_28, fldA_27_22, fldA_11_0, bitsA_5_17, bitsA_5_12, toNat_lt5]

theorem RoundTrip.sfork (d : GReg) (a : GReg) (b : GReg) : RoundTrip.Statement (.sfork d a b) := by
  refine roundTrip_of (w := fmtA 0xC 0x11 d.toNat a.toNat b.toNat 0) rfl (by simp [ltA, toNat_lt5])
    (nonzero_cls (c := 12) (by simp [fldA_31_28, toNat_lt5]) (by decide)) ?_
  simp [decodeFields, decodeStateOps, rsv, fldA_31_28, fldA_27_22, fldA_6_0, bitsA_5_17, bitsA_5_12, bitsA_5_7, toNat_lt5]

theorem RoundTrip.sdrop (d : GReg) (a : GReg) : RoundTrip.Statement (.sdrop d a) := by
  refine roundTrip_of (w := fmtA 0xC 0x12 d.toNat a.toNat 0 0) rfl (by simp [ltA, toNat_lt5])
    (nonzero_cls (c := 12) (by simp [fldA_31_28, toNat_lt5]) (by decide)) ?_
  simp [decodeFields, decodeStateOps, rsv, fldA_31_28, fldA_27_22, fldA_11_0, bitsA_5_17, bitsA_5_12, toNat_lt5]

theorem RoundTrip.sact (d : GReg) (a : GReg) (b : GReg) : RoundTrip.Statement (.sact d a b) := by
  refine roundTrip_of (w := fmtA 0xC 0x13 d.toNat a.toNat b.toNat 0) rfl (by simp [ltA, toNat_lt5])
    (nonzero_cls (c := 12) (by simp [fldA_31_28, toNat_lt5]) (by decide)) ?_
  simp [decodeFields, decodeStateOps, rsv, fldA_31_28, fldA_27_22, fldA_6_0, bitsA_5_17, bitsA_5_12, bitsA_5_7, toNat_lt5]

theorem RoundTrip.spop (d : GReg) (a : GReg) : RoundTrip.Statement (.spop d a) := by
  refine roundTrip_of (w := fmtA 0xC 0x14 d.toNat a.toNat 0 0) rfl (by simp [ltA, toNat_lt5])
    (nonzero_cls (c := 12) (by simp [fldA_31_28, toNat_lt5]) (by decide)) ?_
  simp [decodeFields, decodeStateOps, rsv, fldA_31_28, fldA_27_22, fldA_11_0, bitsA_5_17, bitsA_5_12, toNat_lt5]

theorem RoundTrip.shor (d : GReg) (a : GReg) (b : GReg) : RoundTrip.Statement (.shor d a b) := by
  refine roundTrip_of (w := fmtA 0xC 0x15 d.toNat a.toNat b.toNat 0) rfl (by simp [ltA, toNat_lt5])
    (nonzero_cls (c := 12) (by simp [fldA_31_28, toNat_lt5]) (by decide)) ?_
  simp [decodeFields, decodeStateOps, rsv, fldA_31_28, fldA_27_22, fldA_6_0, bitsA_5_17, bitsA_5_12, bitsA_5_7, toNat_lt5]

theorem RoundTrip.sret (a : GReg) : RoundTrip.Statement (.sret a) := by
  refine roundTrip_of (w := fmtA 0xC 0x16 0 a.toNat 0 0) rfl (by simp [ltA, toNat_lt5])
    (nonzero_cls (c := 12) (by simp [fldA_31_28, toNat_lt5]) (by decide)) ?_
  simp [decodeFields, decodeStateOps, rsv, fldA_31_28, fldA_27_22, fldA_21_17, fldA_11_0, bitsA_5_12, toNat_lt5]

theorem RoundTrip.sjoin (d : GReg) (a : GReg) (b : GReg) : RoundTrip.Statement (.sjoin d a b) := by
  refine roundTrip_of (w := fmtA 0xC 0x17 d.toNat a.toNat b.toNat 0) rfl (by simp [ltA, toNat_lt5])
    (nonzero_cls (c := 12) (by simp [fldA_31_28, toNat_lt5]) (by decide)) ?_
  simp [decodeFields, decodeStateOps, rsv, fldA_31_28, fldA_27_22, fldA_6_0, bitsA_5_17, bitsA_5_12, bitsA_5_7, toNat_lt5]

theorem RoundTrip.senter (a : GReg) : RoundTrip.Statement (.senter a) := by
  refine roundTrip_of (w := fmtA 0xC 0x18 0 a.toNat 0 0) rfl (by simp [ltA, toNat_lt5])
    (nonzero_cls (c := 12) (by simp [fldA_31_28, toNat_lt5]) (by decide)) ?_
  simp [decodeFields, decodeStateOps, rsv, fldA_31_28, fldA_27_22, fldA_21_17, fldA_11_0, bitsA_5_12, toNat_lt5]

theorem RoundTrip.smigr (d : GReg) (a : GReg) (b : GReg) : RoundTrip.Statement (.smigr d a b) := by
  refine roundTrip_of (w := fmtA 0xC 0x19 d.toNat a.toNat b.toNat 0) rfl (by simp [ltA, toNat_lt5])
    (nonzero_cls (c := 12) (by simp [fldA_31_28, toNat_lt5]) (by decide)) ?_
  simp [decodeFields, decodeStateOps, rsv, fldA_31_28, fldA_27_22, fldA_6_0, bitsA_5_17, bitsA_5_12, bitsA_5_7, toNat_lt5]

theorem RoundTrip.accept (d : GReg) (a : GReg) : RoundTrip.Statement (.accept d a) := by
  refine roundTrip_of (w := fmtA 0xC 0x1C d.toNat a.toNat 0 0) rfl (by simp [ltA, toNat_lt5])
    (nonzero_cls (c := 12) (by simp [fldA_31_28, toNat_lt5]) (by decide)) ?_
  simp [decodeFields, decodeStateOps, rsv, fldA_31_28, fldA_27_22, fldA_11_0, bitsA_5_17, bitsA_5_12, toNat_lt5]

theorem RoundTrip.fadd (d : GReg) (a : GReg) (b : GReg) (prec : Prec) (rnd : RndSel) : RoundTrip.Statement (.fadd d a b prec rnd) := by
  refine roundTrip_of (w := fmtA 0xD 0x00 d.toNat a.toNat b.toNat (prec.code * 64 + rnd.code * 8)) rfl (by simp [ltAm66m53, toNat_lt5, prec_lt, prec_le, rndSel_lt])
    (nonzero_cls (c := 13) (by simp [fldAm66m53_31_28, toNat_lt5, prec_lt, prec_le, rndSel_lt]) (by decide)) ?_
  simp [decodeFields, decodeFp, rsv, orElse, fldAm66m53_31_28, fldAm66m53_27_22, fldAm66m53_2_0, fldAm66m53_5_3, fldAm66m53_6_6, bitsAm66m53_5_17, bitsAm66m53_5_12, bitsAm66m53_5_7, toNat_lt5, prec_lt, prec_le, rndSel_lt, prec_code, rndSel_code]

theorem RoundTrip.fsub (d : GReg) (a : GReg) (b : GReg) (prec : Prec) (rnd : RndSel) : RoundTrip.Statement (.fsub d a b prec rnd) := by
  refine roundTrip_of (w := fmtA 0xD 0x01 d.toNat a.toNat b.toNat (prec.code * 64 + rnd.code * 8)) rfl (by simp [ltAm66m53, toNat_lt5, prec_lt, prec_le, rndSel_lt])
    (nonzero_cls (c := 13) (by simp [fldAm66m53_31_28, toNat_lt5, prec_lt, prec_le, rndSel_lt]) (by decide)) ?_
  simp [decodeFields, decodeFp, rsv, orElse, fldAm66m53_31_28, fldAm66m53_27_22, fldAm66m53_2_0, fldAm66m53_5_3, fldAm66m53_6_6, bitsAm66m53_5_17, bitsAm66m53_5_12, bitsAm66m53_5_7, toNat_lt5, prec_lt, prec_le, rndSel_lt, prec_code, rndSel_code]

theorem RoundTrip.fmul (d : GReg) (a : GReg) (b : GReg) (prec : Prec) (rnd : RndSel) : RoundTrip.Statement (.fmul d a b prec rnd) := by
  refine roundTrip_of (w := fmtA 0xD 0x02 d.toNat a.toNat b.toNat (prec.code * 64 + rnd.code * 8)) rfl (by simp [ltAm66m53, toNat_lt5, prec_lt, prec_le, rndSel_lt])
    (nonzero_cls (c := 13) (by simp [fldAm66m53_31_28, toNat_lt5, prec_lt, prec_le, rndSel_lt]) (by decide)) ?_
  simp [decodeFields, decodeFp, rsv, orElse, fldAm66m53_31_28, fldAm66m53_27_22, fldAm66m53_2_0, fldAm66m53_5_3, fldAm66m53_6_6, bitsAm66m53_5_17, bitsAm66m53_5_12, bitsAm66m53_5_7, toNat_lt5, prec_lt, prec_le, rndSel_lt, prec_code, rndSel_code]

theorem RoundTrip.fdiv (d : GReg) (a : GReg) (b : GReg) (prec : Prec) (rnd : RndSel) : RoundTrip.Statement (.fdiv d a b prec rnd) := by
  refine roundTrip_of (w := fmtA 0xD 0x03 d.toNat a.toNat b.toNat (prec.code * 64 + rnd.code * 8)) rfl (by simp [ltAm66m53, toNat_lt5, prec_lt, prec_le, rndSel_lt])
    (nonzero_cls (c := 13) (by simp [fldAm66m53_31_28, toNat_lt5, prec_lt, prec_le, rndSel_lt]) (by decide)) ?_
  simp [decodeFields, decodeFp, rsv, orElse, fldAm66m53_31_28, fldAm66m53_27_22, fldAm66m53_2_0, fldAm66m53_5_3, fldAm66m53_6_6, bitsAm66m53_5_17, bitsAm66m53_5_12, bitsAm66m53_5_7, toNat_lt5, prec_lt, prec_le, rndSel_lt, prec_code, rndSel_code]

theorem RoundTrip.fsqrt (d : GReg) (a : GReg) (prec : Prec) (rnd : RndSel) : RoundTrip.Statement (.fsqrt d a prec rnd) := by
  refine roundTrip_of (w := fmtA 0xD 0x04 d.toNat a.toNat 0 (prec.code * 64 + rnd.code * 8)) rfl (by simp [ltAm66m53, toNat_lt5, prec_lt, prec_le, rndSel_lt])
    (nonzero_cls (c := 13) (by simp [fldAm66m53_31_28, toNat_lt5, prec_lt, prec_le, rndSel_lt]) (by decide)) ?_
  simp [decodeFields, decodeFp, rsv, orElse, fldAm66m53_31_28, fldAm66m53_27_22, fldAm66m53_11_7, fldAm66m53_2_0, fldAm66m53_5_3, fldAm66m53_6_6, bitsAm66m53_5_17, bitsAm66m53_5_12, toNat_lt5, prec_lt, prec_le, rndSel_lt, prec_code, rndSel_code]

theorem RoundTrip.ffma (d : GReg) (a : GReg) (b : GReg) (prec : Prec) (rnd : RndSel) : RoundTrip.Statement (.ffma d a b prec rnd) := by
  refine roundTrip_of (w := fmtA 0xD 0x05 d.toNat a.toNat b.toNat (prec.code * 64 + rnd.code * 8)) rfl (by simp [ltAm66m53, toNat_lt5, prec_lt, prec_le, rndSel_lt])
    (nonzero_cls (c := 13) (by simp [fldAm66m53_31_28, toNat_lt5, prec_lt, prec_le, rndSel_lt]) (by decide)) ?_
  simp [decodeFields, decodeFp, rsv, orElse, fldAm66m53_31_28, fldAm66m53_27_22, fldAm66m53_2_0, fldAm66m53_5_3, fldAm66m53_6_6, bitsAm66m53_5_17, bitsAm66m53_5_12, bitsAm66m53_5_7, toNat_lt5, prec_lt, prec_le, rndSel_lt, prec_code, rndSel_code]

theorem RoundTrip.fmin (d : GReg) (a : GReg) (b : GReg) (prec : Prec) : RoundTrip.Statement (.fmin d a b prec) := by
  refine roundTrip_of (w := fmtA 0xD 0x06 d.toNat a.toNat b.toNat (prec.code * 64)) rfl (by simp [ltAm66, toNat_lt5, prec_lt, prec_le])
    (nonzero_cls (c := 13) (by simp [fldAm66_31_28, toNat_lt5, prec_lt, prec_le]) (by decide)) ?_
  simp [decodeFields, decodeFp, rsv, fldAm66_31_28, fldAm66_27_22, fldAm66_5_0, fldAm66_6_6, bitsAm66_5_17, bitsAm66_5_12, bitsAm66_5_7, toNat_lt5, prec_lt, prec_le, prec_code]

theorem RoundTrip.fmax (d : GReg) (a : GReg) (b : GReg) (prec : Prec) : RoundTrip.Statement (.fmax d a b prec) := by
  refine roundTrip_of (w := fmtA 0xD 0x07 d.toNat a.toNat b.toNat (prec.code * 64)) rfl (by simp [ltAm66, toNat_lt5, prec_lt, prec_le])
    (nonzero_cls (c := 13) (by simp [fldAm66_31_28, toNat_lt5, prec_lt, prec_le]) (by decide)) ?_
  simp [decodeFields, decodeFp, rsv, fldAm66_31_28, fldAm66_27_22, fldAm66_5_0, fldAm66_6_6, bitsAm66_5_17, bitsAm66_5_12, bitsAm66_5_7, toNat_lt5, prec_lt, prec_le, prec_code]

theorem RoundTrip.fcmp (d : GReg) (a : GReg) (b : GReg) (prec : Prec) (cond : FcmpCond) : RoundTrip.Statement (.fcmp d a b prec cond) := by
  refine roundTrip_of (w := fmtA 0xD 0x08 d.toNat a.toNat b.toNat (prec.code * 64 + cond.code)) rfl (by simp [ltAm66m20, toNat_lt5, prec_lt, prec_le, fcmpCond_lt])
    (nonzero_cls (c := 13) (by simp [fldAm66m20_31_28, toNat_lt5, prec_lt, prec_le, fcmpCond_lt]) (by decide)) ?_
  simp [decodeFields, decodeFp, rsv, orElse, fldAm66m20_31_28, fldAm66m20_27_22, fldAm66m20_5_3, fldAm66m20_2_0, fldAm66m20_6_6, bitsAm66m20_5_17, bitsAm66m20_5_12, bitsAm66m20_5_7, toNat_lt5, prec_lt, prec_le, fcmpCond_lt, prec_code, fcmpCond_code]

theorem RoundTrip.fcvt (d : GReg) (a : GReg) (prec : Prec) (rnd : RndSel) (kind : FcvtKind) : RoundTrip.Statement (.fcvt d a prec rnd kind) := by
  refine roundTrip_of (w := fmtA 0xD 0x09 d.toNat a.toNat 0 (prec.code * 64 + rnd.code * 8 + kind.code)) rfl (by simp [ltAm66m53m20, toNat_lt5, prec_lt, prec_le, rndSel_lt, fcvtKind_lt])
    (nonzero_cls (c := 13) (by simp [fldAm66m53m20_31_28, toNat_lt5, prec_lt, prec_le, rndSel_lt, fcvtKind_lt]) (by decide)) ?_
  simp [decodeFields, decodeFp, rsv, orElse, fldAm66m53m20_31_28, fldAm66m53m20_27_22, fldAm66m53m20_11_7, fldAm66m53m20_5_3, fldAm66m53m20_2_0, fldAm66m53m20_6_6, bitsAm66m53m20_5_17, bitsAm66m53m20_5_12, toNat_lt5, prec_lt, prec_le, rndSel_lt, fcvtKind_lt, prec_code, rndSel_code, fcvtKind_code]

theorem RoundTrip.fclass (d : GReg) (a : GReg) (prec : Prec) : RoundTrip.Statement (.fclass d a prec) := by
  refine roundTrip_of (w := fmtA 0xD 0x0A d.toNat a.toNat 0 (prec.code * 64)) rfl (by simp [ltAm66, toNat_lt5, prec_lt, prec_le])
    (nonzero_cls (c := 13) (by simp [fldAm66_31_28, toNat_lt5, prec_lt, prec_le]) (by decide)) ?_
  simp [decodeFields, decodeFp, rsv, fldAm66_31_28, fldAm66_27_22, fldAm66_11_7, fldAm66_5_0, fldAm66_6_6, bitsAm66_5_17, bitsAm66_5_12, toNat_lt5, prec_lt, prec_le, prec_code]

theorem RoundTrip.rep (count : BitVec 6) (sd : Bool) (sa : Bool) (sb : Bool) (stride : Stride) : RoundTrip.Statement (.rep count sd sa sb stride) := by
  refine roundTrip_of (w := fmtP 0xE 0x00 count.toNat sd.toNat sa.toNat sb.toNat stride.code) rfl (by simp [ltP, toNat_lt6, bool_lt, bool_le, stride_lt])
    (nonzero_cls (c := 14) (by simp [fldP_31_28, toNat_lt6, bool_lt, bool_le, stride_lt]) (by decide)) ?_
  simp [decodeFields, decodePrefix, rsv, orElse, fldP_31_28, fldP_27_24, fldP_12_0, fldP_14_13, fldP_17_17, fldP_16_16, fldP_15_15, bitsP_6_18, toNat_lt6, bool_lt, bool_le, stride_lt, bool_code, stride_code]

theorem RoundTrip.cgetFpFlags (d : GReg) : RoundTrip.Statement (.cgetFpFlags d) := roundTrip_event rfl

theorem RoundTrip.csetChanIn (d : GReg) : RoundTrip.Statement (.csetChanIn d) := roundTrip_event rfl

theorem RoundTrip.csetChanOut (d : GReg) : RoundTrip.Statement (.csetChanOut d) := roundTrip_event rfl

theorem RoundTrip.wrsTimeout : RoundTrip.Statement .wrsTimeout := roundTrip_event rfl

theorem RoundTrip.l1Replacement : RoundTrip.Statement .l1Replacement := roundTrip_event rfl

theorem RoundTrip.homeEviction : RoundTrip.Statement .homeEviction := roundTrip_event rfl

theorem RoundTrip.quitComplete : RoundTrip.Statement .quitComplete := roundTrip_event rfl

theorem RoundTrip.invalHolder : RoundTrip.Statement .invalHolder := roundTrip_event rfl

theorem RoundTrip.tlbWalk : RoundTrip.Statement .tlbWalk := roundTrip_event rfl

theorem RoundTrip.matrixBlockGrant : RoundTrip.Statement .matrixBlockGrant := roundTrip_event rfl

theorem RoundTrip.matrixEntryComplete : RoundTrip.Statement .matrixEntryComplete := roundTrip_event rfl

theorem RoundTrip.vectorLaneGrant : RoundTrip.Statement .vectorLaneGrant := roundTrip_event rfl

theorem RoundTrip.vectorEntryComplete : RoundTrip.Statement .vectorEntryComplete := roundTrip_event rfl

theorem RoundTrip.carterSector : RoundTrip.Statement .carterSector := roundTrip_event rfl

theorem RoundTrip.routerContribution : RoundTrip.Statement .routerContribution := roundTrip_event rfl

theorem RoundTrip.routerHoldExpiry : RoundTrip.Statement .routerHoldExpiry := roundTrip_event rfl

theorem RoundTrip.contributionArrive : RoundTrip.Statement .contributionArrive := roundTrip_event rfl

theorem RoundTrip.windowTimeout : RoundTrip.Statement .windowTimeout := roundTrip_event rfl

theorem RoundTrip.windowDelivery : RoundTrip.Statement .windowDelivery := roundTrip_event rfl

theorem RoundTrip.weaverUnit : RoundTrip.Statement .weaverUnit := roundTrip_event rfl

theorem RoundTrip.hypDiePrepare : RoundTrip.Statement .hypDiePrepare := roundTrip_event rfl

theorem RoundTrip.hypCommit : RoundTrip.Statement .hypCommit := roundTrip_event rfl

theorem RoundTrip.hypApply : RoundTrip.Statement .hypApply := roundTrip_event rfl

theorem RoundTrip.hypSweep : RoundTrip.Statement .hypSweep := roundTrip_event rfl

theorem RoundTrip.versionSpillwaitExpiry : RoundTrip.Statement .versionSpillwaitExpiry := roundTrip_event rfl

theorem RoundTrip.streamArrival : RoundTrip.Statement .streamArrival := roundTrip_event rfl

theorem RoundTrip.streamBatchTimeout : RoundTrip.Statement .streamBatchTimeout := roundTrip_event rfl

theorem RoundTrip.streamBatchPlace : RoundTrip.Statement .streamBatchPlace := roundTrip_event rfl

theorem RoundTrip.winnowerJoin : RoundTrip.Statement .winnowerJoin := roundTrip_event rfl

theorem RoundTrip.pageReload : RoundTrip.Statement .pageReload := roundTrip_event rfl

theorem RoundTrip.strmSpillwaitExpiry : RoundTrip.Statement .strmSpillwaitExpiry := roundTrip_event rfl

theorem RoundTrip.unpark : RoundTrip.Statement .unpark := roundTrip_event rfl

theorem RoundTrip.notifyStore : RoundTrip.Statement .notifyStore := roundTrip_event rfl

theorem RoundTrip.factorPoll : RoundTrip.Statement .factorPoll := roundTrip_event rfl

theorem RoundTrip.launchPacket : RoundTrip.Statement .launchPacket := roundTrip_event rfl

theorem RoundTrip.launchAccept : RoundTrip.Statement .launchAccept := roundTrip_event rfl

theorem RoundTrip.copyPacket : RoundTrip.Statement .copyPacket := roundTrip_event rfl

theorem RoundTrip.waitPacket : RoundTrip.Statement .waitPacket := roundTrip_event rfl

theorem RoundTrip.waitPacketComplete : RoundTrip.Statement .waitPacketComplete := roundTrip_event rfl

theorem RoundTrip.signalPacket : RoundTrip.Statement .signalPacket := roundTrip_event rfl

theorem RoundTrip.barrierAndPacket : RoundTrip.Statement .barrierAndPacket := roundTrip_event rfl

theorem RoundTrip.barrierAndComplete : RoundTrip.Statement .barrierAndComplete := roundTrip_event rfl

theorem RoundTrip.cancelPacket : RoundTrip.Statement .cancelPacket := roundTrip_event rfl

theorem RoundTrip.replayBegin : RoundTrip.Statement .replayBegin := roundTrip_event rfl

theorem RoundTrip.replayEnd : RoundTrip.Statement .replayEnd := roundTrip_event rfl

theorem RoundTrip.restartAck : RoundTrip.Statement .restartAck := roundTrip_event rfl

theorem RoundTrip.reservedPacket : RoundTrip.Statement .reservedPacket := roundTrip_event rfl

theorem RoundTrip.queueRestart : RoundTrip.Statement .queueRestart := roundTrip_event rfl

theorem RoundTrip.queueTableUpdate : RoundTrip.Statement .queueTableUpdate := roundTrip_event rfl

theorem RoundTrip.queueMap : RoundTrip.Statement .queueMap := roundTrip_event rfl

theorem RoundTrip.queueWaitTimeout : RoundTrip.Statement .queueWaitTimeout := roundTrip_event rfl

theorem RoundTrip.queueUnmap : RoundTrip.Statement .queueUnmap := roundTrip_event rfl

theorem RoundTrip.factorWatchdog : RoundTrip.Statement .factorWatchdog := roundTrip_event rfl

theorem RoundTrip.distributorChunk : RoundTrip.Statement .distributorChunk := roundTrip_event rfl

theorem RoundTrip.taskCreate : RoundTrip.Statement .taskCreate := roundTrip_event rfl

theorem RoundTrip.depIndexRelease : RoundTrip.Statement .depIndexRelease := roundTrip_event rfl

theorem RoundTrip.reissueFinish : RoundTrip.Statement .reissueFinish := roundTrip_event rfl

theorem RoundTrip.preemptRequest : RoundTrip.Statement .preemptRequest := roundTrip_event rfl

theorem RoundTrip.contextRestore : RoundTrip.Statement .contextRestore := roundTrip_event rfl

theorem RoundTrip.dieFence : RoundTrip.Statement .dieFence := roundTrip_event rfl

theorem RoundTrip.fenceNotice : RoundTrip.Statement .fenceNotice := roundTrip_event rfl

theorem RoundTrip.packageLost : RoundTrip.Statement .packageLost := roundTrip_event rfl

theorem RoundTrip.packageTableRewrite : RoundTrip.Statement .packageTableRewrite := roundTrip_event rfl

theorem RoundTrip.fabricFlitArrival : RoundTrip.Statement .fabricFlitArrival := roundTrip_event rfl

theorem RoundTrip.linkCrcRetry : RoundTrip.Statement .linkCrcRetry := roundTrip_event rfl

theorem RoundTrip.pauseFlit : RoundTrip.Statement .pauseFlit := roundTrip_event rfl

theorem RoundTrip.resumeFlit : RoundTrip.Statement .resumeFlit := roundTrip_event rfl

theorem RoundTrip.hostWrite : RoundTrip.Statement .hostWrite := roundTrip_event rfl

theorem RoundTrip.hostRead : RoundTrip.Statement .hostRead := roundTrip_event rfl

theorem RoundTrip.assayerCompare : RoundTrip.Statement .assayerCompare := roundTrip_event rfl

theorem RoundTrip.assayerSkewTimeout : RoundTrip.Statement .assayerSkewTimeout := roundTrip_event rfl

theorem RoundTrip.quarantineSet : RoundTrip.Statement .quarantineSet := roundTrip_event rfl

theorem RoundTrip.injectionArm : RoundTrip.Statement .injectionArm := roundTrip_event rfl

theorem RoundTrip.moduleReset : RoundTrip.Statement .moduleReset := roundTrip_event rfl

theorem RoundTrip.bootStage : RoundTrip.Statement .bootStage := roundTrip_event rfl

theorem RoundTrip.firmwareUpdate : RoundTrip.Statement .firmwareUpdate := roundTrip_event rfl

theorem RoundTrip.svnRaise : RoundTrip.Statement .svnRaise := roundTrip_event rfl

theorem RoundTrip.attestationRequest : RoundTrip.Statement .attestationRequest := roundTrip_event rfl

theorem RoundTrip.regionBitChange : RoundTrip.Statement .regionBitChange := roundTrip_event rfl

theorem RoundTrip.powerCapSet : RoundTrip.Statement .powerCapSet := roundTrip_event rfl

theorem RoundTrip.powerThrottle : RoundTrip.Statement .powerThrottle := roundTrip_event rfl

theorem RoundTrip.clockStepUp : RoundTrip.Statement .clockStepUp := roundTrip_event rfl

theorem RoundTrip.thermalThrottle : RoundTrip.Statement .thermalThrottle := roundTrip_event rfl

theorem RoundTrip.thermalFence : RoundTrip.Statement .thermalFence := roundTrip_event rfl

theorem RoundTrip.coolantFlowLoss : RoundTrip.Statement .coolantFlowLoss := roundTrip_event rfl

theorem RoundTrip.thermalShutdown : RoundTrip.Statement .thermalShutdown := roundTrip_event rfl

theorem RoundTrip.telemetrySample : RoundTrip.Statement .telemetrySample := roundTrip_event rfl

theorem RoundTrip.notAnInstruction : RoundTrip.Statement .notAnInstruction := roundTrip_event rfl

theorem RoundTrip.fabricDieFailure : RoundTrip.Statement .fabricDieFailure := roundTrip_event rfl

theorem RoundTrip.powerLoss : RoundTrip.Statement .powerLoss := roundTrip_event rfl

end Sys2Proof.Laws
end

