-- ==== Sys2Proof/Laws/Total.lean ====
section
/-!
SUPPORT. Every instruction answers a next state where the slot that issues it holds a task; an event always does.
-/

namespace Sys2Proof.Machine

theorem issueNamed_next {i : Instr} {names : State → Slot → List Named} {body : M Flow} {s : State} (h : (s.slot s.cur).st ≠ .free) :
    ∃ u : State, issueNamed i names body s = .next u := ⟨_, if_neg h⟩

theorem event_next {body : M Unit} {s : State} : ∃ u : State, event body s = .next u := ⟨_, rfl⟩

/-- No instruction stops where a task issues it. -/
theorem exec_next (i : Instr) {s : State} (h : (s.slot s.cur).st ≠ .free) : ∃ u : State, exec i s = .next u := by
  cases i <;> first | exact issueNamed_next h | exact event_next | exact ⟨_, if_neg h⟩

end Sys2Proof.Machine
end

