-- ==== Sys2Proof/Tests/Slice0.lean ====
section
/-!
SUPPORT. Tests: words written out from the spec's encodings, terms that the well-formedness check refuses, single steps on small
states, and for each statement states and operands that meet its premises.
-/

namespace Sys2Proof.Tests

open Sys2Proof Sys2Proof.Machine

set_option maxRecDepth 20000
set_option Elab.async false
set_option linter.unusedVariables false

/-! ### Decoding: a word of every row, its fields put where R47 to R54 put them -/

/-- The words decode to the instructions beside them, and nothing is left over. -/
def decodes (l : List (Nat × Instr)) : Bool :=
  l.all fun x => match decode (wordBytes x.1) with
    | .ok (i, []) => decide (i = x.2)
    | _ => false

/-- Class 0x0: register forms. -/
theorem test_decode_class_0_1 : decodes
    [(0x002AD480, Instr.add 21 13 9), (0x006AD480, .sub 21 13 9), (0x00AAD480, .mul 21 13 9), (0x00EAD480, .mulh 21 13 9),
     (0x012AD480, .mulhn 21 13 9), (0x016AD480, .div 21 13 9), (0x01AAD480, .divn 21 13 9), (0x01EAD480, .rem 21 13 9),
     (0x022AD480, .remn 21 13 9), (0x026AD480, .and 21 13 9), (0x02AAD480, .or 21 13 9), (0x02EAD480, .xor 21 13 9),
     (0x032AD480, .andn 21 13 9), (0x036AD480, .orn 21 13 9), (0x03AAD480, .sll 21 13 9), (0x03EAD480, .srl 21 13 9),
     (0x042AD480, .sra 21 13 9), (0x046AD480, .rol 21 13 9), (0x04AAD480, .ror 21 13 9), (0x04EAD480, .min 21 13 9),
     (0x052AD480, .max 21 13 9), (0x056AD480, .minn 21 13 9), (0x05AAD480, .maxn 21 13 9), (0x05EAD480, .slt 21 13 9),
     (0x062AD480, .sltn 21 13 9), (0x066AD4EC, .sel 21 13 9 27), (0x06AAD000, .clz 21 13), (0x06EAD000, .ctz 21 13),
     (0x072AD000, .popc 21 13), (0x076AD000, .brev 21 13)] = true := by decide +kernel

/-- Class 0x0: register forms. -/
theorem test_decode_class_0_2 : decodes
    [(0x07AAD480, Instr.bfx 21 13 9), (0x07EAD480, .bfi 21 13 9), (0x082AD480, .clmul 21 13 9), (0x086AD480, .clmulh 21 13 9)] = true := by decide +kernel

/-- Class 0x1: immediate forms. -/
theorem test_decode_class_1 : decodes
    [(0x10AB56B5, Instr.addi 21 13 0x16b5), (0x11AB56B5, .andi 21 13 0x16b5), (0x12AB56B5, .ori 21 13 0x16b5),
     (0x13AB56B5, .xori 21 13 0x16b5), (0x14AB4035, .slli 21 13 0x35), (0x15AB4035, .srli 21 13 0x35),
     (0x16AB4035, .srai 21 13 0x35), (0x17AB56B5, .slti 21 13 0x16b5), (0x1AAD96B5, .lui 5 0x2d96b5),
     (0x1EAD96B5, .addpc 5 0x2d96b5)] = true := by decide +kernel

/-- Class 0x2: loads. -/
theorem test_decode_class_2 : decodes
    [(0x20AB56B5, Instr.ldB 21 13 0x16b5), (0x21AB56B5, .ldH 21 13 0x16b5), (0x22AB56B5, .ldW 21 13 0x16b5),
     (0x23AB56B5, .ldD 21 13 0x16b5), (0x24AB56B5, .ldBn 21 13 0x16b5), (0x25AB56B5, .ldHn 21 13 0x16b5),
     (0x26AB56B5, .ldWn 21 13 0x16b5), (0x28AB56B5, .ldacqW 21 13 0x16b5), (0x29AB56B5, .ldacqD 21 13 0x16b5),
     (0x2AAB56B5, .ldntD 21 13 0x16b5)] = true := by decide +kernel

/-- Class 0x3: stores. -/
theorem test_decode_class_3 : decodes
    [(0x30AB56B5, Instr.stB 21 13 0x16b5), (0x31AB56B5, .stH 21 13 0x16b5), (0x32AB56B5, .stW 21 13 0x16b5),
     (0x33AB56B5, .stD 21 13 0x16b5), (0x34AB56B5, .strelW 21 13 0x16b5), (0x35AB56B5, .strelD 21 13 0x16b5),
     (0x36AB56B5, .stntD 21 13 0x16b5), (0x37AB56B5, .mstoreW 21 13 0x16b5), (0x38AB56B5, .mstoreD 21 13 0x16b5)] = true := by decide +kernel

/-- Class 0x4: atomics and fences. -/
theorem test_decode_class_4 : decodes
    [(0x402AD4F0, Instr.amoadd 21 13 9 .d .ar), (0x406AD4F0, .amoand 21 13 9 .d .ar), (0x40AAD4F0, .amoor 21 13 9 .d .ar),
     (0x40EAD4F0, .amoxor 21 13 9 .d .ar), (0x412AD4F0, .amomin 21 13 9 .d .ar), (0x416AD4F0, .amomax 21 13 9 .d .ar),
     (0x41AAD4F0, .amominn 21 13 9 .d .ar), (0x41EAD4F0, .amomaxn 21 13 9 .d .ar), (0x422AD4F0, .amoswap 21 13 9 .d .ar),
     (0x426AD4F0, .amocas 21 13 9 .d .ar), (0x42AAD070, .lr 21 13 .d .ar), (0x42EAD4F0, .sc 21 13 9 .d .ar),
     (0x432AD4C0, .wrs 21 13 9 .d), (0x43400010, .fenceAcq), (0x43400020, .fenceRel), (0x43400030, .fenceSc),
     (0x43800000, .afence), (0x43C0D000, .pref 13)] = true := by decide +kernel

/-- Class 0x5: branches. -/
theorem test_decode_class_5 : decodes
    [(0x506A56B5, Instr.beq 13 9 0x16b5), (0x516A56B5, .bne 13 9 0x16b5), (0x526A56B5, .blt 13 9 0x16b5),
     (0x536A56B5, .bge 13 9 0x16b5), (0x546A56B5, .bltn 13 9 0x16b5), (0x556A56B5, .bgen 13 9 0x16b5)] = true := by decide +kernel

/-- Class 0x6: jumps. -/
theorem test_decode_class_6 : decodes
    [(0x62AD96B5, Instr.jal 5 0x2d96b5), (0x64AB56B5, .jalr 21 13 0x16b5)] = true := by decide +kernel

/-- Class 0x7: the system class. -/
theorem test_decode_class_7 : decodes
    [(0x702AD481, Instr.spawn 21 13 9 true), (0x70400000, .quit), (0x70A5AD4E, .yield 0x96b5 7), (0x70C0D000, .depsig 13),
     (0x7100D002, .cancel 13 .job), (0x71400035, .trap 0x35), (0x71800000, .tret), (0x71EA0100, .cget 21 .taskPrio),
     (0x722A0100, .cset 21 .taskPrio), (0x7240D480, .inval 13 9)] = true := by decide +kernel

/-- Class 0x8: vector operations. -/
theorem test_decode_class_8_1 : decodes
    [(0x8012AD4B, Instr.vadd .n16 21 13 9 3), (0x8052AD4B, .vsub .n16 21 13 9 3), (0x8092AD4B, .vmul .n16 21 13 9 3),
     (0x80D2AD4B, .vfma .n16 21 13 9 3), (0x8112AD4B, .vfms .n16 21 13 9 3), (0x8152AD4B, .vfnma .n16 21 13 9 3),
     (0x8192AD4B, .vmin .n16 21 13 9 3), (0x81D2AD4B, .vmax .n16 21 13 9 3), (0x8216AD03, .vabs .s16 21 13 3),
     (0x8256AD03, .vneg .s16 21 13 3), (0x82AEAD03, .vrcp .bf16 21 13 3), (0x82EEAD03, .vrsqrt .bf16 21 13 3),
     (0x832EAD03, .vexp2 .bf16 21 13 3), (0x836EAD03, .vlog2 .bf16 21 13 3), (0x83AEAD03, .vtanh .bf16 21 13 3),
     (0x83D2AD4B, .vand .n16 21 13 9 3), (0x8412AD4B, .vor .n16 21 13 9 3), (0x8452AD4B, .vxor .n16 21 13 9 3),
     (0x8492AD03, .vnot .n16 21 13 3), (0x84D2AD4B, .vshl .n16 21 13 9 3), (0x8512AD4B, .vshr .n16 21 13 9 3),
     (0x8552AD4B, .vsra .n16 21 13 9 3), (0x8593CD4B, .vcmp .n16 .le 6 13 9 3), (0x85D2AD4B, .vsel .n16 21 13 9 3),
     (0x8602AD13, .vcvt .n4 21 13 .s4 3), (0x8672AD23, .vwcvt .f32 21 13 .n8 3), (0x8692AD4B, .vwmul .n16 21 13 9 3),
     (0x86D2AD4B, .vwadd .n16 21 13 9 3), (0x8712AD03, .vnarrow .n16 21 13 3), (0x8752AD4B, .vredsum .n16 21 13 9 3)] = true := by decide +kernel

/-- Class 0x8: vector operations. -/
theorem test_decode_class_8_2 : decodes
    [(0x8792AD4B, Instr.vredmax .n16 21 13 9 3), (0x87D2AD4B, .vredmin .n16 21 13 9 3), (0x8812AD4B, .vscan .n16 21 13 9 3),
     (0x8852AD4B, .vxscan .n16 21 13 9 3), (0x8892AD4B, .vclmul .n16 21 13 9 3), (0x88D2AD4B, .vperm .n16 21 13 9 3),
     (0x8912AD4B, .vslide .n16 21 13 9 3), (0x8952AD03, .vbcast .n16 21 13 3), (0x8992A003, .viota .n16 21 3),
     (0x89D2AD03, .vcompress .n16 21 13 3), (0x8A12AD03, .vexpand .n16 21 13 3), (0x8A52AD48, .vmovg .n16 21 13 9),
     (0x8A82A500, .vmovxTov 21 5), (0x8A844D00, .vmovxTom 2 13), (0x8AF2AD4B, .vpmerge 21 13 9 3),
     (0x8B32AD4B, .vnoise 21 13 9 3), (0x8B72AD4B, .vamax 21 13 9 3), (0x8B804530, .kand 2 5 6), (0x8BC04530, .kor 2 5 6),
     (0x8C004530, .kxor 2 5 6), (0x8C404500, .knot 2 5), (0x8C82A500, .kpopc 21 5), (0x8CC2A500, .kfirst 21 5),
     (0x8D12AD4B, .vaddSat .n16 21 13 9 3), (0x8D52AD4B, .vsubSat .n16 21 13 9 3), (0x8D92AD4B, .vmulSat .n16 21 13 9 3),
     (0x8DD2AD03, .vnarrowSat .n16 21 13 3)] = true := by decide +kernel

/-- Class 0x9: vector memory and scratchpad. -/
theorem test_decode_class_9 : decodes
    [(0x9012AD03, Instr.vld .n16 21 13 3), (0x9052AD03, .vst .n16 21 13 3), (0x9092AD4B, .vldg .n16 21 13 9 3),
     (0x90D2AD4B, .vstg .n16 21 13 9 3), (0x9112AD4B, .vgather .n16 21 13 9 3), (0x9152AD4B, .vscatter .n16 21 13 9 3),
     (0x9182AD00, .pld 21 13), (0x91C2AD00, .pst 21 13), (0x9202AD00, .tstat 21 13), (0x92400D00, .tready 13),
     (0x92800D00, .tempty 13), (0x92C00D48, .barinit 13 9), (0x93000D48, .barpost 13 9), (0x93400D00, .bararr 13),
     (0x93800D00, .bardrop 13), (0x93C00D48, .barwait 13 9)] = true := by decide +kernel

/-- Class 0xA: the matrix unit. -/
theorem test_decode_class_A : decodes
    [(0xA02A9000, Instr.oclaim 21 9), (0xA0409000, .orelease 9), (0xA08AD480, .oload 5 13 9), (0xA0C0D000, .mxset 13),
     (0xA12A0000, .mxget 21), (0xA1440000, .mxzero 2), (0xA1849300, .mxmul 2 9 6), (0xA1C4D480, .mxloadc 2 13 9),
     (0xA204D480, .mxstore 2 13 9), (0xA2403000, .mxwait 3), (0xA2800000, .mxdrain)] = true := by decide +kernel

/-- Class 0xB: the engines. -/
theorem test_decode_class_B : decodes
    [(0xB0D5A000, Instr.eset 0x35 13), (0xB1D5A000, .eget 0x35 13), (0xB201A901, .cpyMm 13 9 true),
     (0xB205A901, .cpyMt 13 9 true), (0xB209A901, .cpyTm 13 9 true), (0xB301A900, .qput 13 9), (0xB401A002, .rwin 13 .fadd64),
     (0xB405A000, .rclose 13), (0xB409A902, .ramo 13 9 .fadd64), (0xB40DA900, .rwait 13 9)] = true := by decide +kernel

/-- Class 0xC: tensors, hypotheses and streams. -/
theorem test_decode_class_C : decodes
    [(0xC006D000, Instr.hload 3 13), (0xC046D000, .hstore 3 13), (0xC0AA6480, .hquery 21 6 9), (0xC0EA6483, .tld 21 6 9 3),
     (0xC12A6483, .tst 21 6 9 3), (0xC146D480, .relayout 3 13 9), (0xC1806000, .rlwait 6), (0xC22AD000, .hopen 21 13),
     (0xC240D000, .henter 13), (0xC2800000, .hleave), (0xC2EAD001, .hconfirm 21 13 true), (0xC32AD000, .hrefute 21 13),
     (0xC36AD000, .hstat 21 13), (0xC38006B5, .copen 0x6b5), (0xC3C00000, .cclose), (0xC42AD000, .screate 21 13),
     (0xC46AD480, .sfork 21 13 9), (0xC4AAD000, .sdrop 21 13), (0xC4EAD480, .sact 21 13 9), (0xC52AD000, .spop 21 13),
     (0xC56AD480, .shor 21 13 9), (0xC580D000, .sret 13), (0xC5EAD480, .sjoin 21 13 9), (0xC600D000, .senter 13),
     (0xC66AD480, .smigr 21 13 9), (0xC72AD000, .accept 21 13)] = true := by decide +kernel

/-- Class 0xD: floating point. -/
theorem test_decode_class_D : decodes
    [(0xD02AD498, Instr.fadd 21 13 9 .s .rup), (0xD06AD498, .fsub 21 13 9 .s .rup), (0xD0AAD498, .fmul 21 13 9 .s .rup),
     (0xD0EAD498, .fdiv 21 13 9 .s .rup), (0xD12AD018, .fsqrt 21 13 .s .rup), (0xD16AD498, .ffma 21 13 9 .s .rup),
     (0xD1AAD480, .fmin 21 13 9 .s), (0xD1EAD480, .fmax 21 13 9 .s), (0xD22AD482, .fcmp 21 13 9 .s .le),
     (0xD26AD01B, .fcvt 21 13 .s .rup .froms), (0xD2AAD000, .fclass 21 13 .s)] = true := by decide +kernel

/-- Class 0xE: rep. -/
theorem test_decode_class_E : decodes
    [(0xE0D7A000, Instr.rep 0x35 true true true .x2)] = true := by decide +kernel

/-- One word of each family of fields, bit by bit. -/
theorem test_decode_bits : decodes [
    (0b00000000011010101101010010000000, Instr.sub 21 13 9),
    (0b00010000101010110101011010110101, .addi 21 13 0x16b5),
    (0b01010000011010100101011010110101, .beq 13 9 0x16b5),
    (0b01100010101011011001011010110101, .jal 5 0x2d96b5),
    (0b00100000101010110101011010110101, .ldB 21 13 0x16b5),
    (0b00110000101010110101011010110101, .stB 21 13 0x16b5),
    (0b01000000001010101101010011110000, .amoadd 21 13 9 .d .ar),
    (0b01110000001010101101010010000001, .spawn 21 13 9 true),
    (0b10000000000100101010110101001011, .vadd .n16 21 13 9 3),
    (0b10010000000100101010110100000011, .vld .n16 21 13 3),
    (0b10100000001010101001000000000000, .oclaim 21 9),
    (0b10110000110101011010000000000000, .eset 0x35 13),
    (0b11000000000001101101000000000000, .hload 3 13),
    (0b11010000001010101101010010011000, .fadd 21 13 9 .s .rup),
    (0b11100000110101111010000000000000, .rep 0x35 true true true .x2)] = true := by decide +kernel

/-! ### What is no instruction -/

/-- The word is refused for a reason of its fields. -/
def refuses (w : Nat) : Bool :=
  match decode (wordBytes w) with
  | .ok _ => false
  | .error _ => true

/-- R46 and R54: the zero word, a word of class 0xF, a set bit in a field of zeros, a type code the operation does not take, and COUNT 0. -/
theorem test_decode_refused : refuses 0 = true ∧ refuses 0xF0000000 = true ∧ refuses 0x00148481 = true ∧ refuses 0x803EAD4B = true ∧
    refuses 0xE0000000 = true := by decide +kernel

/-! ### Well-formedness: an ill-formed term for each check -/

theorem test_wf_zeroWord : (Instr.add 0 0 0).illFormed = some .zeroWord := by decide
theorem test_wf_badType : (Instr.vadd .sh8 1 2 3 0).illFormed = some .badType := by decide
theorem test_wf_badCvt : (Instr.vcvt .n16 1 2 .n16 0).illFormed = some .badType := by decide
theorem test_wf_maskZero : (Instr.kand 1 0 2).illFormed = some .maskZero := by decide
theorem test_wf_badRegister : (Instr.tld 1 2 31 0).illFormed = some .badRegister := by decide
theorem test_wf_badNoise : (Instr.vnoise 1 30 3 0).illFormed = some .badRegister := by decide
theorem test_wf_repCount : (Instr.rep 0 false false false .x1).illFormed = some .repCount := by decide
/-- And the same terms mended pass. -/
theorem test_wf_well : ∀ i ∈ [Instr.add 0 0 1, .vadd .s8 1 2 3 0, .vcvt .n16 1 2 .s16 0, .kand 1 2 2, .tld 1 2 30 0, .vnoise 1 29 3 0,
    .rep 1 false false false .x1], i.illFormed = none := by decide
/-! ### From checks to the statements' premises -/

theorem exc_ok {ε α : Type} [DecidableEq α] {x : Except ε α} {a : α}
    (h : (match x with | .ok b => decide (b = a) | .error _ => false) = true) : x = .ok a := by
  cases x with
  | ok b => exact congrArg _ (of_decide_eq_true h)
  | error e => exact absurd h Bool.false_ne_true

theorem exc_err {ε α : Type} [DecidableEq ε] {x : Except ε α} {e : ε}
    (h : (match x with | .error b => decide (b = e) | .ok _ => false) = true) : x = .error e := by
  cases x with
  | error b => exact congrArg _ (of_decide_eq_true h)
  | ok a => exact absurd h Bool.false_ne_true

theorem res_ok {ε α : Type} [DecidableEq α] {x : EStateM.Result ε State α} {b : α} {s : State}
    (h : (match x with | .ok c u => decide (c = b) && decide (u = s) | .error _ _ => false) = true) : x = .ok b s := by
  cases x with
  | ok c u =>
    obtain ⟨h1, h2⟩ := Bool.and_eq_true_iff.mp h
    rw [of_decide_eq_true h1, of_decide_eq_true h2]
  | error e u => exact absurd h Bool.false_ne_true

theorem noInjection_ok {s : State} (h : s.pf.fw.inject = []) : s.noInjection := fun d => by rw [h]; rfl

theorem openRecord_ok {s : State} {l : Launch} (h : s.launch? s.me.launch = some l ∧ l.recAddr % 64 = 0 ∧
    s.recCancel l.recAddr = false ∧ s.peek (l.recAddr + 16) 8 = 0 ∧ s.pf.fw.inject = [] ∧
    (pkgOf l.recAddr = s.ws.own → s.live (homeOf l.recAddr) = true) ∧ s.ms.checkOf l.recAddr ≠ .single ∧ Memory.wf s.ms.mem = true) :
    s.openRecord l :=
  ⟨h.1, h.2.1, h.2.2.1, h.2.2.2.1, noInjection_ok h.2.2.2.2.1, h.2.2.2.2.2.1, h.2.2.2.2.2.2⟩

theorem qcbOk_ok {s : State} {q : Nat} (h : q % 128 = 0 ∧ (pkgOf q = s.ws.own → s.live (homeOf q) = true) ∧ s.pf.fw.inject = [] ∧
    Memory.wf s.ms.mem = true ∧ s.peek (q + 64) 8 % 2 = 0 ∧ s.peek (q + 96) 8 % 2 = 0 ∧ s.peek (q + 64) 8 < 2 ^ 63 ∧
    s.peek (q + 96) 8 < 2 ^ 63 ∧ s.peek (q + 32) 8 = 0 ∧ s.ms.check = [] ∧ s.hyps.cur = none) : s.qcbOk q := by
  obtain ⟨h1, h2, h3, h4, h5, h6, h7, h8, h9, h10, h11⟩ := h
  refine ⟨h1, h2, noInjection_ok h3, h4, h5, h6, h7, h8, h9, fun l => ?_, fun l => ?_⟩
  · unfold MemSys.checkOf; rw [h10]; rfl
  · unfold State.heldLine; rw [h11]

theorem takes_ok {s : State} {key : Nat} {q : Queue} {p type : Nat} (h1 : s.ev = [key] ∧ s.readyPacket key = some (q, p) ∧
    p % 256 = type ∧ p / 2 ^ 11 % 32 = 0 ∧ s.queue key = some q) (h2 : s.qcbOk q.qcb) : s.takes key q p type :=
  ⟨h1.1, h1.2.1, h1.2.2.1, h1.2.2.2.1, h2, h1.2.2.2.2⟩

theorem reaches_ok {s : State} {key : Nat} {q : Queue} {va n : Nat} {k : Acc} {pa : Nat}
    (h : ((match checkPlace s (s.qAgent key q.qcb) .none (BitVec.ofNat 64 va) n k with
      | .ok (_, some t) => decide (t.pa = pa)
      | _ => false) && decide (pkgOf pa = s.ws.own ∧ s.ms.checkOf (lineAddr pa) = .good ∧ s.heldLine (lineAddr pa) = false ∧
        (pkgOf pa = s.ws.own → s.live (homeOf pa) = true) ∧ (pa + n ≤ q.qcb ∨ q.qcb + 128 ≤ pa))) = true) :
    s.reaches key q va n k pa := by
  obtain ⟨h1, h2⟩ := Bool.and_eq_true_iff.mp h
  have h3 := of_decide_eq_true h2
  refine ⟨?_, h3⟩
  revert h1
  split
  · rename_i p t e
    exact fun h => ⟨p, t, e, of_decide_eq_true h⟩
  · exact fun h => absurd h Bool.false_ne_true

theorem answered_ok {s : State} {i : Instr} {kind : OpKind} {keep : List Nat} {answer : Nat}
    (h : s.me.st ≠ .free ∧ s.me.partner = none ∧ s.me.repFrom = 0 ∧ s.cancelsHere s.cur i = false ∧ illegalFor i s.me.part s.me.priv = false ∧
      (pops31 i = true → s.canPop false = true) ∧ (pushes31 i = true → s.canPush false = true) ∧
      s.me.pend.map (fun p => (p.kind, p.keep, p.answer)) = some (kind, keep, some answer)) : s.answered i kind keep answer := by
  obtain ⟨h1, h2, h3, h0, h4, h5, h6, h7⟩ := h
  obtain ⟨⟨k, id, l, a⟩, hp, hq⟩ := Option.map_eq_some_iff.mp h7
  simp only [Prod.mk.injEq] at hq
  obtain ⟨rfl, rfl, rfl⟩ := hq
  exact ⟨h1, h2, h3, h0, h4, h5, h6, id, hp⟩

theorem uncached_ok {ps : List (Nat × Place)} {P : Nat → Prop} [DecidablePred P]
    (h : ∀ p ∈ ps, (match p.2 with | .mem pa _ false => decide (P pa) | _ => false) = true) :
    ∀ p ∈ ps, ∃ pa va, p.2 = .mem pa va false ∧ P pa := by
  intro p hp
  have h := h p hp
  revert h
  split
  · rename_i pa va e
    exact fun h => ⟨pa, va, e, of_decide_eq_true h⟩
  · exact fun h => absurd h Bool.false_ne_true

theorem allMem_ok {ps : List (Nat × Place)} {P : Nat → Prop} [DecidablePred P]
    (h : ∀ p ∈ ps, (match p.2 with | .mem pa _ _ => decide (P pa) | _ => true) = true) :
    ∀ p ∈ ps, ∀ pa va c, p.2 = .mem pa va c → P pa := by
  intro p hp pa va c e
  have h := h p hp
  rw [e] at h
  exact of_decide_eq_true h

theorem inMem_ok {ps : List Place} (h : ∀ p ∈ ps, (match p with | .mem _ _ _ => true | _ => false) = true) :
    ∀ p ∈ ps, ∃ pa va c, p = .mem pa va c := by
  intro p hp
  have h := h p hp
  revert h
  split
  · rename_i pa va c
    exact fun _ => ⟨pa, va, c, rfl⟩
  · exact fun h => absurd h Bool.false_ne_true

theorem apart_ok {ps : List (Nat × Place)} (h : ps.Pairwise fun p q =>
    (match p.2, q.2 with | .mem a _ _, .mem b _ _ => decide (a ≠ b) | _, _ => true) = true) :
    ps.Pairwise fun p q => ∀ pa va c pb vb cb, p.2 = .mem pa va c → q.2 = .mem pb vb cb → pa ≠ pb :=
  h.imp fun h pa va c pb vb cb hp hq => by rw [hp, hq] at h; exact of_decide_eq_true h

theorem noneWin_ok {ws : Tbl (Option Window)} {P : Window → Prop} [DecidablePred P]
    (h : ∀ x ∈ ws, (match x.2 with | some w => decide (P w) | none => true) = true) : ∀ x ∈ ws, ∀ w, x.2 = some w → P w := by
  intro x hx w e
  have h := h x hx
  rw [e] at h
  exact of_decide_eq_true h

/-- Where no launch is open, every number is free. -/
theorem freeNumber_ok {s : State} {x : Nat} (h : s.ls.launches = []) : s.freeNumber x = some (x % 65536) := by
  have h1 : ∀ n, s.launch? n = none := fun n => by unfold State.launch?; rw [h]; rfl
  have h2 (p : Nat → Bool) (i : Nat) : findUp p 65536 i = if p i then some i else findUp p 65535 (i + 1) := rfl
  unfold State.freeNumber
  rw [h2, if_pos (by rw [h1]; rfl)]
  exact congrArg some (Nat.mod_mod x 65536)

theorem descAt_ok {s : State} {va : Word} {k : Acc} {tr : Nat → Trans}
    (h : va.toNat % 128 = 0 ∧ s.hyps.eff s.me.hypId = 0 ∧ s.me.wc = [] ∧ ∀ n, n < 16 →
      (match s.access .none (va + BitVec.ofNat 64 (8 * n)) 8 k with
        | .ok (_, some t) => decide (t = tr n)
        | _ => false) = true ∧ (tr n).cached = false ∧ pkgOf (tr n).pa = s.ws.own ∧ s.ms.checkOf (lineAddr (tr n).pa) = .good ∧
        s.heldLine (lineAddr (tr n).pa) = false) :
    s.descAt va k tr := by
  refine ⟨h.1, h.2.1, h.2.2.1, fun n hn => ⟨?_, (h.2.2.2 n hn).2⟩⟩
  have h1 := (h.2.2.2 n hn).1
  revert h1
  split
  · rename_i p t e
    exact fun h => ⟨p, by rw [e, of_decide_eq_true h]⟩
  · exact fun h => absurd h Bool.false_ne_true

/-- A window's lines, all in one page. -/
theorem windowLines_ok {s : State} {va : Word} {base shift level m : Nat} {tr : Nat → Trans}
    (h : ∀ n, n < m → ((match s.access .none (BitVec.ofNat 64 (va.toNat + 64 * n)) 64 .write with
        | .ok (_, some t) => decide (t = tr n)
        | _ => false) && decide ((va.toNat + 64 * n) / 2 ^ pageShift (tr n).leaf.level = base / 2 ^ shift ∧
          (tr n).leaf.level = level ∧ pkgOf (tr n).pa = s.ws.own)) = true) :
    ∀ n, n < m → (∃ q, s.access .none (BitVec.ofNat 64 (va.toNat + 64 * n)) 64 .write = .ok (q, some (tr n))) ∧
      (va.toNat + 64 * n) / 2 ^ pageShift (tr n).leaf.level = base / 2 ^ shift ∧ (tr n).leaf.level = level ∧
      pkgOf (tr n).pa = s.ws.own := by
  intro n hn
  obtain ⟨h1, h2⟩ := Bool.and_eq_true_iff.mp (h n hn)
  refine ⟨?_, of_decide_eq_true h2⟩
  revert h1
  split
  · rename_i p t e
    exact fun h => ⟨p, by rw [e, of_decide_eq_true h]⟩
  · exact fun h => absurd h Bool.false_ne_true

/-- The two lines of a descriptor that a Weaver reads and writes. -/
theorem descLines_ok {s : State} {ag : Agent} {daddr pa : Nat} (h : ∀ j, j < 2 → (decide (s.ms.checkOf (pa + 64 * j) = .good ∧
      s.heldLine (pa + 64 * j) = false) && ([Acc.read, .write].all fun a =>
        match checkPlace s ag .allowed (BitVec.ofNat 64 (daddr + 64 * j)) 1 a with
        | .ok (.mem x _ _, _) => decide (x = pa + 64 * j)
        | _ => false)) = true) :
    ∀ j, j < 2 → s.ms.checkOf (pa + 64 * j) = .good ∧ s.heldLine (pa + 64 * j) = false ∧ ∀ a, a = Acc.read ∨ a = .write →
      ∃ va c t, checkPlace s ag .allowed (BitVec.ofNat 64 (daddr + 64 * j)) 1 a = .ok (.mem (pa + 64 * j) va c, t) := by
  intro j hj
  obtain ⟨h1, h2⟩ := Bool.and_eq_true_iff.mp (h j hj)
  obtain ⟨h3, h4⟩ := of_decide_eq_true h1
  refine ⟨h3, h4, fun a ha => ?_⟩
  have h5 := List.all_eq_true.mp h2 a (by rcases ha with rfl | rfl <;> simp)
  revert h5
  split
  · rename_i x va c t e
    exact fun h => ⟨va, c, t, by rw [e, of_decide_eq_true h]⟩
  · exact fun h => absurd h Bool.false_ne_true

theorem merges_ok {s : State} {pa va : Nat} (h : s.heldLine (lineAddr pa) = false ∧ s.ms.checkOf (lineAddr pa) ≠ .single ∧
    ∀ x ∈ s.ms.l1, x.cell = cellOf s.cur → x.va = lineAddr va → x.check ≠ .single) : s.merges pa va := h

theorem free_ok {s : State} {pa : Nat} (h : s.pf.fw.inject = [] ∧ (pkgOf pa = s.ws.own → s.live (homeOf pa) = true) ∧
    s.ms.checkOf (lineAddr pa) ≠ .single ∧ s.heldLine (lineAddr pa) = false) :
    s.noInjection ∧ s.homeLives pa ∧ s.ms.checkOf (lineAddr pa) ≠ .single ∧ s.heldLine (lineAddr pa) = false :=
  ⟨noInjection_ok h.1, h.2.1, h.2.2⟩

theorem noSingle_ok {s : State} (h : s.ms.check = []) (l : Nat) : s.ms.checkOf l ≠ .single := by
  unfold MemSys.checkOf
  rw [h]
  exact LineCheck.noConfusion
/-! ### Small states -/

/-- A leaf that maps the first GiB of address space 0 on die 0's memory for every access (R391), in the TLB of cell 0; and in
that of die 0. -/
def leaves : List TlbEntry := [⟨0, 0, 0, 3, 0x2BF⟩, ⟨512, 0, 0, 3, 0x2BF⟩]

/-- A system task of launch 1 at address 0x1000, with a handler and a budget. -/
def task (g : Tbl Word) : Slot :=
  { Slot.empty with
    st := .ready, pc := 0x1000, g := g, stat := 1, launch := 1, launchRec := 0x30000000, part := 0x002E000000000041, yieldLeft := 1000,
    trapVec := 0x2000, prio := 4 }

/-- The machine after its boot, with one task in slot 0 of core 0. -/
def one (x : Slot) : State :=
  { State.reset with
    slots := [(0, x)], cores := [(0, { Core.reset with part := x.part })], ms := { MemSys.reset with tlb := leaves }
    ls := { LaunchSys.reset with launches := [{ startLaunch with part := 0x002E000000000041 }], accepted := 1 }
    pf := { Platform.reset with stage := 8 } }

/-- The same, for an event with its operands. -/
def at_ (ev : List Nat) (s : State) : State := { s with ev := ev }

/-- The next state of an outcome. -/
def nextOf (o : Host.Outcome State Fault Refusal) : State :=
  match o with
  | .next s => s
  | _ => State.reset

/-- General registers of a task. -/
def g1 : Tbl Word := [(1, 0x40), (2, 0x7F00), (3, 0xFFFFFFFFFFFFFFF8), (4, 0x8000), (5, 7), (6, 0x9000)]

def withMem (m : List (Nat × Nat)) (s : State) : State :=
  { s with ms := { s.ms with mem := m.foldl (fun t e => tblSet 0 t e.1 (BitVec.ofNat 8 e.2)) s.ms.mem } }
def tr0 (pa : Nat) : Trans := ⟨pa, true, 0, ⟨0x2BF, 3⟩⟩
def memAt (a : Nat) : Place := .mem a a true

/-- The access that an instruction makes at g[4] + 8 is to memory at 0x8008, where nothing is damaged. -/
def reachesMem (s : State) (i : Instr) (use : WinUse) (n : Nat) (k : Acc) : Bool :=
  match (s.entered i).access use (s.me.gval 4 + (8 : BitVec 14).signExtend 64) n k with
  | .ok (.mem pa va _, _) => pa = 0x8008 && va = 0x8008 && (s.entered i).sound pa va
  | _ => false

def lineL1 : L1Line := { cell := 0, asid := 0, va := 0x8000, pa := 0x8000, hyp := 0, data := 0xABCDEF, valid := BitVec.allOnes 64, dirty := 5, owned := 3, check := .good }
def withL1 (s : State) : State := { s with ms := { s.ms with l1 := [lineL1], owner := [(0x8000, 1), (0x8004, 2)] } }

/-- The same with a handler of system traps for address space 0 (R403). -/
def handled (s : State) : State :=
  { s with ms := { s.ms with mem := tblSet 0 s.ms.mem 0x100001 0x30 }, pf := { s.pf with fw := { s.pf.fw with sysHnd := 0x100000 } } }

def withLaunch (l : Launch) (s : State) : State := { s with ls := { s.ls with launches := [l] } }
def depLaunch : Launch := { startLaunch with part := 0x002E000000000041, dep := true, sx := 100, counters := [(7, 1), (64, 3)] }

/-- One instruction of each queued mnemonic of the vector unit. -/
def queuedVecs : List Instr :=
  [.vadd .s8 1 2 3 0, .vsub .n16 1 2 3 1, .vmul .s32 1 2 3 0, .vfma .f32 1 2 3 0, .vfms .bf16 1 2 3 0, .vfnma .f16 1 2 3 0,
   .vmin .s8 1 2 3 0, .vmax .e4m3 1 2 3 0, .vabs .s8 1 2 0, .vneg .f32 1 2 0, .vrcp .f32 1 2 0, .vrsqrt .f16 1 2 0, .vexp2 .bf16 1 2 0,
   .vlog2 .f32 1 2 0, .vtanh .f32 1 2 0, .vand .n8 1 2 3 0, .vor .n8 1 2 3 0, .vxor .n8 1 2 3 0, .vnot .n8 1 2 0, .vshl .n8 1 2 3 0,
   .vshr .n8 1 2 3 0, .vsra .s8 1 2 3 0, .vcmp .s8 .lt 1 2 3 0, .vsel .n8 1 2 3 1, .vcvt .f32 1 2 .s32 0, .vwcvt .s16 4 2 .s8 0] ++
  [.vwmul .s8 4 2 3 0, .vwadd .s8 4 2 3 0, .vnarrow .n8 1 2 0, .vredsum .s8 1 2 3 0, .vredmax .s8 1 2 3 0, .vredmin .s8 1 2 3 0,
   .vscan .s8 1 2 3 0, .vxscan .n8 1 2 3 0, .vclmul .n8 1 2 3 0, .vperm .n8 1 2 3 0, .vslide .n8 1 2 3 0, .vbcast .n8 1 2 0, .viota .n8 1 0,
   .vcompress .n8 1 2 0, .vexpand .n8 1 2 0, .vmovxTov 1 2, .vmovxTom 1 2, .vpmerge 1 2 3 0, .vnoise 1 2 3 0, .kand 1 2 3, .kor 1 2 3,
   .kxor 1 2 3, .knot 1 2, .vaddSat .s8 1 2 3 0, .vsubSat .s8 1 2 3 0, .vmulSat .s8 1 2 3 0, .vnarrowSat .s8 1 2 0]
/-- Vector registers that hold something. -/
def v1 : Tbl VVal := [(1, 0x01FF7F80), (2, 0x80FF0102030405067F), (3, 0x0102FFFE7F8001020304)]

def heldVecs : List Instr := [.vmovg .s8 5 2 3, .vamax 5 2 3 0, .kpopc 5 1, .kfirst 5 1]

/-- The answer of a body that goes on, or a default. -/
def okOf {α : Type} (d : α) (r : EStateM.Result Stop State α) : α := match r with
  | .ok a _ => a
  | .error _ _ => d
/-- Three active elements: 0, 1 and 5. -/
def vTask : Slot := { task [(4, 0x8000), (5, 0x40)] with v := [(3, 0x0009000100020003)], m := [(1, 0x23)] }

/-- Tiles of core 0 in the four states. -/
def tiled (s : State) : State :=
  s.setCore 0 { s.here with tiles := [(0, ⟨.ready, 0⟩), (1, ⟨.filling, 1⟩), (2, ⟨.draining, 2⟩), (45, ⟨.ready, 0⟩)] }

def vEntry0 (i : Instr) : VEntry :=
  { slot := 0, instr := i, rm := 0, asid := 0, hyp := 0, gs := [], msg := none, places := [], desc := 0, exps := [], admits := [], rep := none,
    dest := none, held := false, granted := false }
def withVq (q : List VEntry) (s : State) : State := s.setCore 0 { s.here with vq := q }

def vctx : VCtx := (vEntry0 (.vadd .s8 1 2 3 1)).ctx { task [] with v := v1, m := [(1, 0x13), (2, 0x1000)] } 0

/-- An access to two doublewords of pages that are not cacheable: elements 0 and 5 of 16 bits. -/
def vMem (i : Instr) : VEntry := { vEntry0 i with granted := true, places := [(0, .mem 0x8000 0x8000 false), (40, .mem 0x800A 0x800A false)] }

/-- A barrier at offset 0x20: 5 bytes pending, 3 arrivals expected, 2 outstanding, armed, automatic. -/
def barred (s : State) : State := (tiled s).setCore 0 ((tiled s).here.setBar 0x20 ⟨5, 3, 2, false, true, true, 0⟩)

/-- Core 0 with accumulator tiles 0 EMPTY and 1 READY, and operand slots 1 and 2 held and READY, 3 free, 4 held by core 7. -/
def matrixed (s : State) : State :=
  (s.setCore 0 { s.here with tiles := [(0, ⟨.ready, 0⟩), (0x81, ⟨.ready, 0⟩), (0x83, ⟨.ready, 0⟩)] }).setCell 0
    { Cell.reset with slots := [(1, ⟨some 0, true, [(0, 2), (576, 3)], .good⟩), (2, ⟨some 0, true, [(0, 0xFF), (1, 1)], .good⟩), (4, ⟨some 7, false, [], .good⟩)] }

def mEntry0 (i : Instr) : MEntry := ⟨0, i, mxctlReset, 0, 0, 0, 0, 0, [], 0, 1⟩
def withMq (q : List MEntry) (s : State) : State := s.setCore 0 { s.here with mq := q }

/-- A command of Carter 0 of die 0 that copies bytes of one line to scratchpad. -/
def cmd0 (n : Nat) : CarterCmd :=
  { id := 4, die := 0, carter := 0, form := .mt, geo := ⟨n, [1, 1, 1], [0, 0, 0], [0, 0, 0]⟩, src := 0x8000 + 5, dst := 0x1FF0, bar := none,
    signal := 0, slot := some 0, core := 0, asid := 0, sys := true, world := false, hyp := 0, strm := 0, serial := 0, launch := 1, done := 0,
    tiles := [1], twin := none, queue := none, timer := none, faulted := false }
def withCmd (c : CarterCmd) (s : State) : State := { s with es := { s.es with cmds := [c], nextCmd := 5 } }

/-- A queue at 0xA000 with L = 4 and its ring at 0xB000, and a packet at 0x8000. -/
def queued0 : State := withMem [(0xA029, 0xB0), (0xA030, 4), (0xA000, 3), (0x8000, 7), (0x8001, 0xFE), (0x8008, 0x55), (0x803F, 0x77)]
  (one (task [(1, 0xA000), (2, 0x8000)]))
/-- The state of a computation that ends well. -/
def after {α : Type} (x : EStateM.Result Stop State α) : State :=
  match x with
  | .ok _ s => s
  | .error _ s => s

/-- A task with the engine registers of a window: base in g1, 16 bytes, 3 contributors, 100 us, generation word at 0x9000. -/
def winTask : Slot := { task [(1, 0x8000), (2, 0x8008), (3, 5)] with e := [(16, 16), (17, 3), (18, 100), (19, 0x9000), (20, 9), (24, 6)] }
def win0 : Window := ⟨0x8000, 16, 3, 100, 0x9000, .iadd, 6, [(1, some 40)], [(0, some 9)], [(1, 2)], [], [⟨0x8008, .iadd, 6, 2, 40, [(0, 1), (64, 2)], [0], false⟩], [], true, false⟩
def win1 : Window := { win0 with len := 8, cnt0 := [(0, 2)], acc0 := [(0, some 40)], from0 := [⟨0x8000, .iadd, 6, 2, 40, [(0, 1), (64, 2)], [0], false⟩] }
def withWin (w : Window) (s : State) : State := { s with ws := { s.ws with windows := [(0, some w)] } }

/-- The first GiB is that of package 5, one step along X, whose ports are up and stopped by flow control. -/
def remotePaused (s : State) : State :=
  { s with
    ms := { s.ms with tlb := [⟨0, 0, 0, 3, 0x00050000000002BF⟩] }
    ws := { s.ws with packages := [(5, .coords 1 0 0)], torus := (2, 1, 1), ports := (List.range 6).map fun k => (k, ⟨true, 0xFF, 0, 0⟩) } }

def pending0 (st : Option Nat) : Slot := { winTask with g := [(1, 0x8003), (2, 0x8008), (3, 5)], e := [(27, 6)], rpend := [(3, some ⟨0x8000, 0x8000, 2, st, 77⟩)] }

def contrib (pa : Nat) (gen : Word) (held : Bool) : Contribution := ⟨pa, .iadd, gen, 1, 2, [(0, 9)], [0], held⟩
def flying (cs : List Contribution) (s : State) : State := { s with ws := { s.ws with flying := cs } }

/-- A descriptor without view or relayout: base, tag, dimensions, pad value. -/
def descOf (base tag ndim d0 d1 pad : Nat) : BitVec 1024 :=
  BitVec.ofNat 1024 (base + tag * 2 ^ 64 + ndim * 2 ^ 96 + d0 * 2 ^ 128 + d1 * 2 ^ 160 + 2 ^ 192 + 2 ^ 224 + 2 ^ 256 + pad * 2 ^ 320)
/-- A row-major f32 tensor of 40 by 30 at 0x10000. -/
def desc0 : BitVec 1024 := descOf 0x10000 0xC0 2 40 30 0x3F800000
def descMem (a : Nat) (d : BitVec 1024) (s : State) : State :=
  withMem ((List.range 128).map fun k => (a + k, (d.extractLsb' (8 * k) 8).toNat)) s
/-- The first GiB mapped outside the caches. -/
def uncached (s : State) : State := { s with ms := { s.ms with tlb := [⟨0, 0, 0, 3, 0x23F⟩, ⟨512, 0, 0, 3, 0x23F⟩] } }
def trU (a n : Nat) : Trans := ⟨a + 8 * n, false, 0, ⟨0x23F, 3⟩⟩
def handled0 : Slot := { task [(1, 0x8000), (2, 14), (3, 0x20000), (4, 0x30000), (5, 0xC1), (6, 3 + 2 * 65536), (7, 0)] with
  h := [(2, ⟨true, 0x8080, desc0⟩)] }

def accOf (i : Instr) (store : Bool) (s : State) : TensorAcc :=
  okOf TensorAcc.none (tensorElems (s.handle 2) none store 4 (s.me.gval 6) (s.me.gval 7) 0 (activeList 128 fun q => (s.me.mval (govMask i)).getLsbD q) .none s)

def relayout0 : Relayout := ⟨0, 0x8080, 0x8080, some 0, 1, 0, true, false, desc0, 0xC1, [40, 30, 1, 1, 1], 0x20000, 0x30000, 2, none, 0, 0, [], false⟩
def withRel (r : Relayout) (s : State) : State := { s with es := { s.es with relayouts := [r] } }

def descS : BitVec 1024 := descOf 0x10000 0xC0 2 4 3 0x3F800000
def relayoutS : Relayout := { relayout0 with old := descS, dims := [4, 3, 1, 1, 1] }

def hyp (p depth : Nat) : Hyp := ⟨.opened, false, p, depth, 0, false, false, 0⟩
/-- Hypotheses 1 and, under it, 2 and the region 3 are OPEN; 4 is REFUTED, 5 CONFIRMED with parent 1. -/
def hyps0 : HypSys := { HypSys.reset with
  table := [(1, hyp 0 1), (2, hyp 1 2), (3, { hyp 1 2 with region := true }), (4, { hyp 1 2 with st := .refuted, sweep := 15 }), (5, { hyp 1 2 with st := .confirmed })]
  next := 6 }
def withHyps (h : HypSys) (s : State) : State := { s with hyps := h }
def deepHyp : HypSys := { hyps0 with table := tblSet .free hyps0.table 2 (hyp 1 15) }
def fullHyp : HypSys := { hyps0 with next := 16384 }
def hypTask (g1 : Word) (cur : Nat) : Slot := { task [(1, g1)] with hypId := cur }

def answered0 (k : OpKind) (keep : List Nat) (a : Nat) : Slot :=
  { task [(1, 2)] with st := .parked, wait := .answer, pend := some ⟨k, 0, keep, some a⟩ }

def inRegion : Slot := { hypTask 0 3 with regions := [⟨3, 0x3000, false⟩] }

def resol (target : Nat) (confirm : Bool) (phase : HypPhase) (acks : BitVec 4) : Resolution :=
  { req := ⟨0, 0, target, confirm, false, 0⟩, phase := phase, acks := acks, affected := [target], staged := [] }
def resolving (r : Resolution) : HypSys := { hyps0 with cur := some r }

def ver (line hyp : Nat) : Version := ⟨line, hyp, 0xABCDEF, 5, .good⟩
def withVer (vs : List Version) (s : State) : State := { s with ms := { s.ms with versions := vs } }

def launch1 : Launch := { startLaunch with part := 0x002E000000000041 }
def strm0 : Stream := ⟨.idle, 0, 0, 1, 0x4000, 1, [], 0, 0, false, none⟩
def strms (ms : List (Nat × Stream)) (s : State) : State := { s with ss := { s.ss with streams := ms, maps := [(1, ⟨[(0, 1)], 3⟩)], pages := [(1, ⟨[], 1, 0, false, false, 0⟩)] } }
def counted (n : Nat) (s : State) : State := withMem [(0x30000000, n)] s
def strmTask : Slot := { task [(1, 2), (2, 0x8000), (3, 3), (4, 0x4000), (5, 0x4002)] with strmCur := 2 }

def joinTask : Slot := task [(1, 0x20200002), (2, 0x8000)]

def ret0 (st : StrmState) (v : BitVec 32) : Stream := { strm0 with st := st, ret := v, returned := true, group := some 4 }
def grp0 : Group := ⟨0, 2, [2, 3], 0x8000⟩
def grouped (m q : Stream) (s : State) : State := let s := strms [(2, m), (3, q)] s; { s with ss := { s.ss with groups := [(4, some grp0)] } }

/-- Package 5 is reachable by a host adapter at port 2. -/
def linked (s : State) : State := { s with ws := { s.ws with packages := [(5, .host 0 2 false)], ports := [(2, ⟨true, 0, 0, 0⟩)] } }
def migrTask : Slot := task [(1, 2), (2, 0x0000050000001000)]

def timed (n : Nat) (s : State) : State := { s with pf := { s.pf with clk := [(0, n)] } }
def waiting0 (s : State) : State :=
  let s := strms [(2, { strm0 with st := .waiting }), (3, { strm0 with st := .waiting }), (4, { strm0 with st := .waiting, stepPc := 8 })] s
  { s with pf := { s.pf with clk := [(0, 2500)] }, ss := { s.ss with waiting := [(4, 1000), (3, 10), (2, 20)] } }

def batched (s : State) : State := let s := waiting0 s; { s with ss := { s.ss with waiting := [], batches := [⟨0, 1, 0x4000, [3, 2]⟩] } }

def parkedSpace (w : Wait) : Slot := { strmTask with st := .parked, wait := w, timer := some 9, fullVal := 0x8008 }

/-- A word of the program at an address. -/
def wordAt (a w : Nat) (s : State) : State := withMem ((List.range 4).map fun k => (a + k, w / 256 ^ k % 256)) s

def repState (w : Nat) : State := wordAt 0x1004 w (one { task g1 with trapRep := 5 })

def queue0 : Queue := { qcb := 0xA000, mapped := true, runnable := false, waitingSince := 0, next := 2, blocked := .no, replay := none, unmapping := false, notified := false, restart := false, packet := none }
/-- The words of the QCB at 0xA000, with L 4, its ring at 0xB000, SYS, its first copy newest, READ_INDEX 2, and WRITE_INDEX 3. -/
def qcbMem : List (Nat × Nat) := [(0xA000, 3), (0xA029, 0xB0), (0xA030, 4), (0xA031, 8), (0xA040, 2), (0xA048, 2)]
/-- Doublewords in memory. -/
def words (a : Nat) (ws : List Nat) : List (Nat × Nat) := ws.zipIdx.flatMap fun e => (List.range 8).map fun k => (a + 8 * e.2 + k, e.1 / 256 ^ k % 256)
def numOf (ws : List Nat) : Nat := ws.foldr (fun w r => w + 2 ^ 64 * r) 0
/-- Queue 0 whose thread has read a packet. -/
def held (ws : List Nat) : Queue := { queue0 with packet := some (numOf ws) }
/-- Queue 0 with a packet at its index 2. -/
def qs (q : Queue) (ws : List Nat) (more : List (Nat × Nat)) : State :=
  let s := withMem (qcbMem ++ words 0xB080 ws ++ more) (one (task g1))
  { s with ev := [0], fs := { FacSys.reset with queues := [(0, some q)] } }

def replay0 (count iter : Nat) : Replay := ⟨1, count, 0, 0x8008, iter⟩

def idleQ : Queue := { queue0 with mapped := false }
/-- The queue table of die 0 at 0x60000; entry 1 names the QCB at 0xA000. -/
def tabled (s : State) : State :=
  withMem [(0x60008, 1), (0x60009, 0xA0)] { s with pf := { s.pf with fw := { s.pf.fw with qtab := [(0, 0x60000)] } } }

def launchWords : List Nat := [0x01 + 0x8000000 + 8 * 2 ^ 19, 0x4000, 0x1, 0x5000, 0x41, 0x8000, 0, 0x8048]
def factored (f : FacSys) (s : State) : State := { s with fs := f }

def grid (n : Nat) : Launch := { launch1 with sx := n, left := n, pc := 0x4000, args := 0x5000, quota := 4, handed := 3 }

/-- Launch 1, of PRIO 0, runs, and launch 2, of PRIO 9, waits for a hypothesis of its own: no id is free. -/
def busy : Launch := { launch1 with number := 2, order := 1, prio := 9, recAddr := 0x30000040, sx := 5, left := 5, handed := 0, dies := 1, part := 0x42, reissuable := true }
def full (s : State) : State :=
  { s with slots := [(0, { task g1 with stat := 0x11, chanIn := ⟨true, false, false, 0⟩ })], hyps := { HypSys.reset with next := 16384 }, ls := { LaunchSys.reset with launches := [launch1, busy], accepted := 2 } }
def saved0 : SavedCtx := { core := 0, launch := 1, slots := [(3, task [(9, 5)])], masks := 0, cmds := [], shared := some ⟨0x002E000000000041, [], [(7, 8)], [(0, 1)], [], []⟩, bundle := 1 }
def savedState : State := { withLaunch launch1 (one (task g1)) with ev := [0, 1], ls := { LaunchSys.reset with launches := [launch1], saved := [saved0] } }

/-- Page tables that map the first GiB of address space 0, from an ASID table at 0x70000. -/
def tables (s : State) : State :=
  withMem (words 0x70000 [0x78001] ++ words 0x78000 [0x07900001] ++ words 0x79000 [0x07A00001] ++ words 0x7A000 [0x2BF])
    { s with pf := { s.pf with fw := { s.pf.fw with asidTab := 0x70000 } } }
/-- Miss entries of die 0, and nothing in a TLB. -/
def missing (xs : List Miss) (s : State) : State := { s with ms := { s.ms with tlb := [], misses := xs } }

def port0 (r : Nat) (s : State) : State := { s with ws := { s.ws with ports := [(2, ⟨true, 4, 0, r⟩), (3, ⟨true, 0, 0, 0⟩)] } }
/-- Package 5 two steps along X in a ring of four, every port up. -/
def ringed : WinSys :=
  { WinSys.reset with packages := [(5, .coords 2 0 0)], torus := (4, 1, 1), ports := (List.range 6).map fun k => (k, ⟨true, 4, 0, 0⟩) }

def remotePend : Slot := { winTask with rpend := [(3, some ⟨0x50000008000, 0x50000008000, 2, none, 0⟩), (4, some ⟨0x8000, 0x8000, 2, none, 0⟩)] }

def booting (n : Nat) (w : List Nat) : State :=
  { State.reset with pf := { Platform.reset with stage := n - 1, imageA := ⟨5, true, true, 7, []⟩, imageB := ⟨3, true, true, 8, [⟨4, true, 9⟩]⟩, fusedSvn := 4, active := true, fresh := true }, ev := n :: w }

def injecting (s : State) : State := { s with pf := { s.pf with fw := { s.pf.fw with inject := [(0, 0x60000)] } } }

def pairOf (p : Slot) (f : Slot → Slot) (ps : List PairPacket) : State :=
  let s := one { p with partner := some 64 }
  { s with slots := [(0, { p with partner := some 64 }), (64, f { p with partner := some 0, stat := 0x81 })], pf := { s.pf with pairs := ps, clk := [(0, 5000)] } }

/-- An execution answers that a Bool says it does. -/
theorem next_ok {o : Host.Outcome State Fault Refusal} (h : (match o with | .next _ => true | _ => false) = true) :
    o = .next (nextOf o) := by
  cases o with
  | next s => rfl
  | fault f => exact absurd h Bool.false_ne_true
  | refused r => exact absurd h Bool.false_ne_true

/-- Ids from one up, each with a live stream. -/
def idsFrom : Nat → Nat → Tbl Stream
  | 0, _ => []
  | n + 1, k => (k, strm0) :: idsFrom n (k + 1)

theorem tblGet_idsFrom : ∀ n k j, k ≤ j → j < k + n → tblGet .none (idsFrom n k) j = strm0
  | 0, k, j, h1, h2 => absurd h1 (by omega)
  | n + 1, k, j, h1, h2 => by
    show (if j = k then strm0 else tblGet .none (idsFrom n (k + 1)) j) = strm0
    split
    · rfl
    · exact tblGet_idsFrom n (k + 1) j (by omega) (by omega)
/-- Every id of address space 0 has a stream. -/
def allIds (s : State) : State := { s with ss := { s.ss with streams := idsFrom (2 ^ 20) 0 } }

theorem findUp_false {p : Nat → Bool} : ∀ n i, (∀ j, i ≤ j → j < i + n → p j = false) → findUp p n i = none
  | 0, _, _ => rfl
  | n + 1, i, h => by
    show (if p i then some i else findUp p n (i + 1)) = none
    rw [if_neg (by rw [h i (Nat.le_refl i) (by omega)]; exact Bool.false_ne_true)]
    exact findUp_false n (i + 1) fun j h1 h2 => h j (by omega) (by omega)

theorem strmRun_all {s : State} {n : Nat} (h : s.ss.streams = idsFrom (2 ^ 20) 0) (hn : 1 ≤ n) (hm : n ≤ 16) : s.strmRun 0 n = none := by
  refine findUp_false _ _ fun j h1 h2 => ?_
  obtain ⟨m, rfl⟩ : ∃ m, n = m + 1 := ⟨n - 1, by omega⟩
  refine Bool.eq_false_iff.mpr fun hall => ?_
  have h0 := List.all_eq_true.mp hall 0 (List.mem_range.mpr (by omega))
  have h3 : s.ss.stream (strmKey 0 (j + 0)) = strm0 := by
    unfold StrmSys.stream
    rw [h]
    exact tblGet_idsFrom _ _ _ (Nat.zero_le _) (by
      unfold strmKey
      rw [if_neg (by omega)]
      show 2 ^ 20 * 0 + (j + 0) < 0 + 2 ^ 20
      omega)
  unfold State.strmFree at h0
  rw [h3] at h0
  exact absurd (of_decide_eq_true (Bool.and_eq_true_iff.mp h0).1) (by decide)

def joinTask2 : Slot := task [(1, 2), (2, 0x8000)]

def tensorTask : Slot := { handled0 with m := [(3, 0x80000007)] }
def tensorState : State := uncached (one tensorTask)

def cpyS (e : Tbl Word) (tiles : Tbl Tile) : State :=
  let s := one { task [(1, 0x8020), (2, 0x1000)] with e := e }
  s.setCore 0 { s.here with tiles := tiles }
/-- What a copy asks of the state. -/
def copyMay (mk : GReg → GReg → Bool → Instr) (form : CpyForm) (a b : GReg) (bar : Bool) (s : State) : Bool :=
  let g := s.me.geometry
  let src := (s.me.gval a).toNat
  let dst := (s.me.gval b).toNat
  let scratch := 4096 * nTiles s.me.part
  let free (t : Nat) : Bool := s.here.vq.isEmpty && s.here.mq.isEmpty && decide ((s.here.tile t).st = if form = .mt then .empty else .ready)
  let off := (tblGet 0 s.me.e 10).toNat
  s.runs (mk a b bar) && decide (s.hyps.eff s.me.hypId = 0) && decide (s.me.badGeometry = none) && decide (s.me.wc = []) && s.ms.l1.isEmpty &&
  (!bar || (decide (off % 16 = 0 ∧ off < scratch ∧ (s.here.tile (off / 4096)).st = .ready ∧ s.here.vq = [] ∧ s.here.mq = []) &&
    decide (tblGet .good s.here.poison (off / 4096) = .good) && !(s.here.bar off).corrupt)) &&
  decide (0 ≤ (src : Int) + (extent g g.s).1 ∧ (src : Int) + (extent g g.s).2 < if form = .tm then scratch else 2 ^ 56) &&
  decide (0 ≤ (dst : Int) + (extent g g.t).1 ∧ (dst : Int) + (extent g g.t).2 < if form = .mt then scratch else 2 ^ 56) &&
  ((copyTiles form g src dst (nTiles s.me.part)).all free) &&
  (form = .tm || (match (s.entered (mk a b bar)).access .allowed (s.me.gval a) 1 .read with | .ok _ => true | .error _ => false)) &&
  (form = .mt || (match (s.entered (mk a b bar)).access .allowed (s.me.gval b) 1 .write with | .ok _ => true | .error _ => false)) &&
  decide (s.freeCarter (dieOf s.cur) = some 0)

/-! ### Single steps, their results worked out by hand from the rules cited -/

/-- g[9] after an instruction of a task whose registers hold the values of `task`. -/
def resultOf (i : Instr) (g : Tbl Word) : Word := (nextOf (exec i (one (task g)))).me.gval 9

/-- R94, R96: a wrap, a high product of each signedness, shifts, a comparison of each signedness, a field. -/
theorem test_alu : resultOf (.add 9 1 2) [(1, 0xFFFFFFFFFFFFFFFF), (2, 2)] = 1 ∧ resultOf (.sub 9 9 2) [(9, 5), (2, 7)] = 0xFFFFFFFFFFFFFFFE ∧
    resultOf (.mulh 9 1 1) [(1, 0xFFFFFFFFFFFFFFFF)] = 0 ∧ resultOf (.mulhn 9 1 1) [(1, 0xFFFFFFFFFFFFFFFF)] = 0xFFFFFFFFFFFFFFFE ∧
    resultOf (.sra 9 1 2) [(1, 0x8000000000000000), (2, 0x43)] = 0xF000000000000000 ∧
    resultOf (.ror 9 1 2) [(1, 3), (2, 1)] = 0x8000000000000001 ∧
    resultOf (.slt 9 1 2) [(1, 0xFFFFFFFFFFFFFFFF), (2, 1)] = 1 ∧ resultOf (.sltn 9 1 2) [(1, 0xFFFFFFFFFFFFFFFF), (2, 1)] = 0 ∧
    resultOf (.bfx 9 1 2) [(1, 0xABCD), (2, 0x804)] = 0xBC ∧ resultOf (.bfi 9 1 2) [(9, 0xFFFF), (1, 0), (2, 0x804)] = 0xF00F ∧
    resultOf (.clmulh 9 1 2) [(1, 0x8000000000000000), (2, 2)] = 1 := by decide +kernel
/-- The table of R95. -/
theorem test_division : resultOf (.div 9 1 2) [(1, 0xFFFFFFFFFFFFFFF9), (2, 2)] = 0xFFFFFFFFFFFFFFFD ∧
    resultOf (.rem 9 1 2) [(1, 0xFFFFFFFFFFFFFFF9), (2, 2)] = 0xFFFFFFFFFFFFFFFF ∧
    resultOf (.divn 9 1 2) [(1, 0xFFFFFFFFFFFFFFF9), (2, 2)] = 0x7FFFFFFFFFFFFFFC ∧
    resultOf (.rem 9 1 2) [(1, 7), (2, 0xFFFFFFFFFFFFFFFE)] = 1 ∧ resultOf (.div 9 1 2) [(1, 5)] = 0xFFFFFFFFFFFFFFFF ∧
    resultOf (.remn 9 1 2) [(1, 5)] = 5 ∧ resultOf (.div 9 1 2) [(1, 0x8000000000000000), (2, 0xFFFFFFFFFFFFFFFF)] = 0x8000000000000000 ∧
    resultOf (.rem 9 1 2) [(1, 0x8000000000000000), (2, 0xFFFFFFFFFFFFFFFF)] = 0 := by decide +kernel
/-- R148: a byte at the sign's edge, each way; R135: a plain store changes no home. -/
theorem test_memory : (nextOf (exec (.ldB 9 1 (-1)) (withMem [(0x7FFF, 0x80)] (one (task [(1, 0x8000)]))))).me.gval 9 = 0xFFFFFFFFFFFFFF80 ∧
    (nextOf (exec (.ldBn 9 1 (-1)) (withMem [(0x7FFF, 0x80)] (one (task [(1, 0x8000)]))))).me.gval 9 = 0x80 ∧
    (nextOf (exec (.stH 2 1 0) (one (task [(1, 0x8000), (2, 0x1234)])))).ms.mem = [] ∧
    (nextOf (exec (.mstoreW 2 1 0) (one (task [(1, 0x8000), (2, 0xFF01020304)])))).ms.mem =
      [(0x8000, 4), (0x8001, 3), (0x8002, 2), (0x8003, 1)] := by decide +kernel
/-- R153: the old word, sign-extended, and the sum at the home. -/
theorem test_amo :
    (let t := nextOf (exec (.amoadd 9 1 2 .w .rlx) (withMem [(0x8003, 0x80)] (one (task [(1, 0x8000), (2, 0x80000001)]))))
     t.me.gval 9 = 0xFFFFFFFF80000000 ∧ t.ms.mem = [(0x8000, 1)]) := by decide +kernel
/-- R86: a trap that the task handles saves the address of the next word and goes to TRAP.VEC. -/
theorem test_trap :
    (let t := nextOf (exec (.trap 5) (one (task [])))
     t.me.trapPc = 0x1004 ∧ t.me.pc = 0x2000 ∧ t.me.trapVal = 5) := by decide +kernel
/-- R51, R60: the word at the pc is fetched and runs, and the rotation pointer names the slot. -/
theorem test_step :
    (let t := nextOf (step (wordAt 0x1000 0x10183FFF (one (task []))))
     (t.slot 0).g = [(3, 0xFFFFFFFFFFFFFFFF)] ∧ (t.slot 0).pc = 0x1004 ∧ (t.core 0).rot = 0) := by decide +kernel
/-- What `withFetchWord` places runs in the very next step. -/
theorem test_fetch_word : let t := nextOf (step (State.reset.withFetchWord 32 0x10183FFF)); (t.slot 0).gval 3 = 0xFFFFFFFFFFFFFFFF := by
  decide +kernel

/-! ### States and operands that meet the premises of the statements, one theorem for each part of a statement -/

/-- One of each instruction on general registers: it runs. -/
theorem witness_scalar_runs : ∀ i ∈ [Instr.add 1 2 3, .sub 0 2 3, .mul 0 2 3, .mulh 1 2 3, .mulhn 1 2 3, .div 1 2 3, .divn 1 2 0, .rem 1 2 3,
    .remn 1 2 3, .and 1 2 3, .or 1 2 3, .xor 1 2 3, .andn 1 2 3, .orn 1 2 3, .sll 1 2 3, .srl 1 2 3, .sra 1 2 3, .rol 1 2 3, .ror 1 2 3,
    .min 1 2 3, .max 1 2 3, .minn 1 2 3, .maxn 1 2 3, .slt 1 2 3, .sltn 1 2 3, .clmul 1 2 3, .clmulh 1 2 3, .clz 1 2, .ctz 1 2, .popc 1 2,
    .brev 1 2, .sel 1 2 3 4, .bfx 1 2 3, .bfi 1 2 3] ++ [.addi 1 2 0x2000, .andi 1 2 5, .ori 1 31 5, .xori 1 2 5, .slli 1 2 63, .srli 1 2 63,
    .srai 1 2 63, .slti 1 2 5, .lui 7 0x400000, .addpc 0 1, .jal 1 1, .jalr 1 4 8, .beq 1 1 2, .bne 1 2 2, .blt 3 1 2, .bge 1 3 2,
    .bltn 1 3 2, .bgen 3 1 2] ++ [.fadd 1 2 3 .s .rne, .fsub 1 2 3 .d .dyn, .fmul 1 2 3 .s .rup, .fdiv 1 2 3 .d .rdn, .fsqrt 1 2 .s .rtz,
    .ffma 1 2 3 .s .dyn, .fmin 1 2 3 .s, .fmax 1 2 3 .d, .fcmp 1 2 3 .s .le, .fcvt 1 2 .s .dyn .tof, .fclass 1 2 .d],
    (one { task g1 with inq := [⟨false, 3, true, 9⟩], chanIn := ⟨true, false, false, 3⟩ }).runs i = true := by decide +kernel
/-- Both ways of every branch, and targets inside and outside the 56-bit space. -/
theorem witness_targets :
    (let x := (one (task g1)).me; x.gval 1 ≠ x.gval 2 ∧ (x.gval 3).toInt < (x.gval 1).toInt ∧ ¬(x.gval 1).toInt < (x.gval 3).toInt ∧
      (x.gval 1).toNat < (x.gval 3).toNat ∧ ¬(x.gval 3).toNat < (x.gval 1).toNat ∧
      (x.pc + (2 : BitVec 14).signExtend 64 * 4).toNat < 2 ^ 56 ∧ (x.pc + (1 : BitVec 23).signExtend 64 * 4).toNat < 2 ^ 56 ∧
      ((x.gval 4 + (8 : BitVec 14).signExtend 64) &&& ~~~3#64).toNat < 2 ^ 56) ∧
    (let s := one { task g1 with pc := 0xFFFFFFFFFFFFFC }; s.runs (.jal 1 1) = true ∧ s.runs (.jalr 1 3 8) = true ∧ s.runs (.beq 1 1 1) = true ∧
      s.hasHandler = true ∧ 2 ^ 56 ≤ (s.me.pc + (1 : BitVec 23).signExtend 64 * 4).toNat ∧
      2 ^ 56 ≤ (s.me.pc + (1 : BitVec 14).signExtend 64 * 4).toNat ∧
      2 ^ 56 ≤ ((s.me.gval 3 + (0 : BitVec 14).signExtend 64) &&& ~~~3#64).toNat) := by decide +kernel
/-- Numbers of every kind, and a value that rounds without overflow. -/
theorem witness_numbers : FpFmt.f32.decode 0x7FA00000 = .nan true ∧ FpFmt.f32.decode 0x7FC00000 = .nan false ∧
    FpFmt.f32.decode 0xFF800000 = .inf true ∧ FpFmt.f32.decode 0x7F800000 = .inf false ∧ FpFmt.f32.decode 0x80000000 = .fin true 0 (-149) ∧
    FpFmt.f32.decode 0 = .fin false 0 (-149) ∧ FpFmt.f32.decode 1 = .fin false 1 (-149) ∧
    FpFmt.f32.decode 0xBF800000 = .fin true 0x800000 (-23) ∧ (roundToFormat .f32 .rne (.fin false 0x1000001 (-24))).2 &&& flagOF = 0 := by
  decide +kernel

theorem witness_LoadOutcomes : ∀ x ∈ [(Instr.ldB 5 4 8, 1), (.ldH 5 4 8, 2), (.ldW 5 4 8, 4), (.ldD 5 4 8, 8), (.ldBn 5 4 8, 1), (.ldHn 5 4 8, 2),
    (.ldWn 5 4 8, 4), (.ldacqW 5 4 8, 4), (.ldacqD 5 4 8, 8), (.ldntD 5 4 8, 8)], (one (task g1)).runs x.1 = true ∧
    reachesMem (one (task g1)) x.1 .allowed x.2 .read = true := by decide +kernel
theorem witness_StoreOutcomes : ∀ x ∈ [(Instr.stB 5 4 8, 1), (.stH 5 4 8, 2), (.stW 5 4 8, 4), (.stD 5 4 8, 8), (.stntD 5 4 8, 8)],
    (one (task g1)).runs x.1 = true ∧ reachesMem (one (task g1)) x.1 .allowed x.2 .write = true := by decide +kernel
theorem witness_HomeStoreOutcomes : (∀ x ∈ [(Instr.strelW 5 4 8, 4), (.strelD 5 4 8, 8)], (one (task g1)).runs x.1 = true ∧
    reachesMem (one (task g1)) x.1 .allowed x.2 .write = true) ∧
    ∀ x ∈ [(Instr.mstoreW 5 4 8, 4), (.mstoreD 5 4 8, 8)], (one (task g1)).runs x.1 = true ∧
      reachesMem (one (task g1)) x.1 .none x.2 .write = true := by decide +kernel
/-- The rest of what those and the next statements ask of the state. -/
theorem witness_plain : (one (task g1)).atRoot ∧ (one (task g1)).noRegion ∧ (one (task g1)).noInjection ∧ (one (task g1)).homeLives 0x8008 ∧
    (one (task g1)).quiet 0x8008 := ⟨by unfold State.atRoot; decide +kernel, ⟨rfl, rfl⟩, fun _ => rfl, fun _ => by decide +kernel, rfl, by decide +kernel⟩
theorem witness_AccessTraps : (one (task g1)).hasHandler = true ∧ (∀ i ∈ [Instr.ldB 5 3 8, .ldH 5 3 8, .ldW 5 3 8, .ldD 5 3 8, .ldBn 5 3 8,
    .ldHn 5 3 8, .ldWn 5 3 8, .ldacqW 5 3 8, .ldacqD 5 3 8, .ldntD 5 3 8, .stB 5 3 8, .stH 5 3 8, .stW 5 3 8, .stD 5 3 8, .stntD 5 3 8,
    .mstoreW 5 3 8, .mstoreD 5 3 8], (one (task g1)).runs i = true) ∧ 2 ^ 56 ≤ ((one (task g1)).me.gval 3 + (0 : BitVec 14).signExtend 64).toNat ∧
    ((one (task g1)).me.gval 4 + (1 : BitVec 14).signExtend 64).toNat % 2 ≠ 0 := by decide +kernel
/-- One of each atomic on the doubleword at g[4]. -/
theorem witness_AtomicOutcomes : ∀ i ∈ [Instr.amoadd 5 4 2 .d .rlx, .amoand 5 4 2 .d .acq, .amoor 5 4 2 .d .rel, .amoxor 5 4 2 .d .ar,
    .amomin 5 4 2 .d .rlx, .amomax 5 4 2 .d .rlx, .amominn 5 4 2 .d .rlx, .amomaxn 5 4 2 .d .rlx, .amoswap 5 4 2 .d .rlx,
    .amocas 5 4 2 .d .ar], (one (task g1)).runs i = true ∧ ((one (task g1)).entered i).access .none 0x8000 8 .rmw =
      .ok (.mem 0x8000 0x8000 true, some ⟨0x8000, true, 0, ⟨0x2BF, 3⟩⟩) := by
  intro i hi
  simp only [List.mem_cons, List.not_mem_nil, or_false] at hi
  rcases hi with h | h | h | h | h | h | h | h | h | h <;> subst h <;> exact ⟨by decide +kernel, by rfl⟩

theorem witness_VectorIssues : ∀ i ∈ queuedVecs, isQueuedVec i = true ∧ (one { task g1 with v := v1 }).runs i = true ∧
    (one { task g1 with v := v1 }).here.vq.length < 16 := by decide +kernel

theorem witness_HeldVectors : ∀ i ∈ heldVecs, isHeldVec i = true := by decide +kernel
theorem witness_HeldVectorIssues : ∀ i ∈ heldVecs, (one { task g1 with v := v1 }).runs i = true ∧
    (one { task g1 with v := v1 }).here.vq.length < 16 ∧
    (one { task g1 with v := v1, st := .parked, wait := .queue, repFrom := 1 }).returns i = true := by decide +kernel

theorem witness_VectorElements : (ElemType.s8).isInt = true ∧ 511 < elemCount .s8 ∧ (ElemType.s8).width = 8 ∧ (ElemType.n16).isInt = true ∧
    255 < elemCount .n16 ∧ (ElemType.n16).width = 16 ∧ (ElemType.s32).isInt = true ∧ 127 < elemCount .s32 ∧ (ElemType.s32).width = 32 := by
  decide +kernel

/-- Operands of every clause: signalling and quiet NaNs, infinities of both signs, zeros, and negative and positive numbers. -/
theorem witness_FpSpecials : ((FpFmt.f32.decode 0x7FA00000).isNan = true ∧ (FpFmt.f32.decode 0x3F800000).isNan = false) ∧
    ((FpFmt.f32.decode 0x7FC00000).isNan = true ∧ (FpFmt.f32.decode 0x3F800000).isZero = false ∧ FpFmt.f32.decode 0x3F800000 ≠ .inf true) ∧
    (FpFmt.f32.decode 0xFF800000 = .inf true ∧ FpFmt.f32.decode 0x7F800000 = .inf false) ∧
    ((FpFmt.f32.decode 0).isZero = true ∧ (FpFmt.f32.decode 0x80000000).isZero = true) ∧
    ((FpFmt.f32.decode 0xBF800000).isNan = false ∧ (FpFmt.f32.decode 0xBF800000).isZero = false ∧
      (FpFmt.f32.decode 0xBF800000).isNeg = true) ∧ ((FpFmt.f32.decode 0x3F800000).isFin = true ∧
      (FpFmt.f32.decode 0x3F800000).isZero = false) := by decide +kernel
/-- −1 is below 2, −0 and +0 are below neither the other in value nor, but for the sign, apart; an infinity bounds them. -/
theorem witness_FpMinMax : ((FpFmt.f32.decode 0x7FA00000).isNan = true ∧ (FpFmt.f32.decode 0x7FC00000).isNan = true ∧
    (FpFmt.f32.decode 0x3F800000).isNan = false) ∧ (FpFmt.f32.decode 0xBF800000).less (FpFmt.f32.decode 0x40000000) ∧
    (FpFmt.f32.decode 0xFF800000).less (FpFmt.f32.decode 0x40000000) ∧ ((FpFmt.f32.decode 0).isZero = true ∧
      (FpFmt.f32.decode 0x80000000).isZero = true ∧ (FpFmt.f32.decode 0x80000000).isNeg = true ∧ (FpFmt.f32.decode 0).isNeg = false) ∧
    ¬(FpFmt.f32.decode 0x3F800000).less (FpFmt.f32.decode 0x3F800000) := by
  refine ⟨by decide +kernel, ?_, rfl, by decide +kernel, ?_⟩
  · show (FpFmt.f32.decode 0xBF800000).value < (FpFmt.f32.decode 0x40000000).value
    decide +kernel
  · show ¬(FpFmt.f32.decode 0x3F800000).value < (FpFmt.f32.decode 0x3F800000).value
    exact Rat.lt_irrefl

/-- Each vector access, with three active elements. -/
theorem witness_VectorAccessIssues : ∀ x ∈ [(Instr.vld .n16 1 4 1, Acc.read, fun n => 0x8000#64 + BitVec.ofNat 64 (2 * n)),
    (.vldg .n16 1 4 5 1, .read, fun n => 0x8000#64 + 0x40#64 * BitVec.ofNat 64 n),
    (.vgather .n16 1 4 3 1, .read, fun n => 0x8000#64 + BitVec.ofNat 64 (2 * elemOf ((one vTask).me.vval 3) 16 n)),
    (.vst .n16 1 4 1, .write, fun n => 0x8000#64 + BitVec.ofNat 64 (2 * n)),
    (.vstg .n16 1 4 5 1, .write, fun n => 0x8000#64 + 0x40#64 * BitVec.ofNat 64 n),
    (.vscatter .n16 1 4 3 1, .write, fun n => 0x8000#64 + BitVec.ofNat 64 (2 * elemOf ((one vTask).me.vval 3) 16 n))],
    (one vTask).runs x.1 = true ∧ (one vTask).here.vq = [] ∧ (one vTask).hyps.eff (one vTask).me.hypId = 0 ∧
    { one vTask with slots := [(0, { vTask with st := .parked, wait := .queue, repFrom := 1 })] }.returns x.1 = true ∧
    (match placeElems 2 x.2.1 none ((activeList (elemCount .n16) fun n => (((one vTask).entered x.1).me.mval (govMask x.1)).getLsbD n).map
        fun n => (8 * n, x.2.2 n)) ((one vTask).entered x.1) with
      | .ok ps u => decide (u = (one vTask).entered x.1) && decide (ps.length = 3) &&
          ps.all fun p => match p.2 with | .mem _ _ _ => true | _ => false
      | .error _ _ => false) = true := by decide +kernel
theorem witness_ScratchpadIssues : (let s := tiled (one (task [(4, 0x200)]))
    s.runs (.pld 1 4) = true ∧ s.runs (.pst 1 4) = true ∧ s.here.vq = [] ∧ 0x200 % 512 = 0 ∧ 0x200 < 4096 * nTiles s.me.part ∧
      (s.here.tile 0).st = .ready) ∧
    (tiled (one { task [(4, 0x200)] with st := .parked, wait := .queue, repFrom := 1 })).returns (.pld 1 4) = true := by
  decide +kernel

theorem witness_TensorAccessIssues : ∀ x ∈ [(Instr.tld 4 2 6 3, false), (.tst 4 2 6 3, true)], tensorState.runs x.1 = true ∧
    tensorState.here.vq = [] ∧ (tensorState.handle 2).valid = true ∧ (tensorState.handle 2).desc = desc0 ∧ tensorState.es.relayouts = [] ∧
    tagKind (Desc.tag desc0) ≠ 4 ∧ tagKind (Desc.tag desc0) ≠ 5 ∧ tensorState.hyps.eff tensorState.me.hypId = 0 ∧
    (uncached (one { tensorTask with st := .parked, wait := .queue, repFrom := 1 })).returns (.tld 4 2 6 3) = true ∧
    (let e := tensorState.entered x.1
     match tensorElems (e.handle 2) none x.2 (max 1 ((tagType (Desc.tag desc0)).width / 8)) (e.me.gval 6) (e.me.gval 7) 0
        (activeList (elemCount (regType (tagType (Desc.tag desc0)))) fun q => (e.me.mval (govMask x.1)).getLsbD q) .none e with
      | .ok acc u => decide (u = e) && !acc.oob && decide (acc.admits = []) && decide (acc.exps = []) && decide (acc.places ≠ []) &&
          acc.places.all fun p => match p.2 with | .mem _ _ _ => true | _ => false
      | .error _ _ => false) = true := by decide +kernel

theorem witness_CopyIssues : copyMay .cpyMt .mt 1 2 false (cpyS [(0, 0x1001), (1, 2), (7, 0x2000)] []) = true ∧
    copyMay .cpyMt .mt 1 2 true (cpyS [(0, 0x40), (10, 0x2000)] [(2, ⟨.ready, 0⟩)]) = true ∧
    copyMay .cpyTm .tm 2 1 false (cpyS [(0, 0x40), (2, 3), (5, 0x2000)] [(1, ⟨.ready, 0⟩), (3, ⟨.ready, 0⟩), (5, ⟨.ready, 0⟩)]) = true ∧
    copyMay .cpyMm .mm 2 1 true (cpyS [(0, 0x40), (10, 0x2000), (2, 3), (5, 0x2000)] [(2, ⟨.ready, 0⟩)]) = true := by decide +kernel
/-- What stage 7 may find: nothing, or carve-outs that fit the store. -/
theorem witness_carvings : (FwTables.published (booting 7 []).firstDie).carved [] = some (FwTables.published 0) ∧
    ((FwTables.published (booting 7 []).firstDie).carved [16, 64, 32]).isSome = true ∧ (booting 7 []).ms.mem = [] ∧
    (booting 7 []).ms.check = [] ∧ (booting 7 []).liveDies ≠ [] := by decide +kernel

theorem witness_FpRounds :
    (∃ (f : FpFmt) (mode : Rnd) (n : Bool) (m : Nat) (e : Int) (x : Nat),
      let r := roundToFormat f mode (.fin n m e)
      r.2 &&& flagOF = 0) ∧
    (∃ (f : FpFmt) (mode : Rnd) (n : Bool) (m : Nat) (e : Int) (x : Nat),
      let r := roundToFormat f mode (.fin n m e)
      r.2 &&& flagOF = 0 ∧ (f.decode x).isFin = true) := by
  refine ⟨?_, ?_⟩
  · exact ⟨.f32, .rne, false, 0x1000001, (-24), 0, by (try dsimp only); decide +kernel⟩
  · exact ⟨.f32, .rup, true, 0x1000001, (-24), 0x3F800001, by (try dsimp only); decide +kernel⟩

theorem witness_FpClasses :
    (∃ (f : FpFmt) (x : Nat) (n : _),
      f.decode x = .inf n) ∧
    (∃ (f : FpFmt) (x : Nat) (q : _),
      f.decode x = .nan q) ∧
    (∃ (f : FpFmt) (x : Nat) (n : _) (m : _) (e : _),
      f.decode x = .fin n m e) := by
  refine ⟨?_, ?_, ?_⟩
  · exact ⟨.f32, 0x7F800000, false, by decide +kernel⟩
  · exact ⟨.f32, 0x7FA00000, true, by decide +kernel⟩
  · exact ⟨.f32, 0x80000000, true, 0, (-149), by decide +kernel⟩

theorem witness_SingleResultsFit :
    (∃ (m : Rnd) (x : Nat) (y : Nat) (z : Nat),
      x < 2 ^ 32 ∧ y < 2 ^ 32 ∧ z < 2 ^ 32) ∧
    (∃ (m : Rnd) (x : Nat) (y : Nat) (z : Nat) (w : Word) (k : FcvtKind),
      x < 2 ^ 32 ∧ y < 2 ^ 32 ∧ z < 2 ^ 32 ∧ (k = .tof ∨ k = .froms ∨ k = .fromn)) := by
  refine ⟨?_, ?_⟩
  · exact ⟨.rne, 5, 6, 7, by decide +kernel⟩
  · exact ⟨.rne, 5, 6, 7, 8, .froms, by decide +kernel⟩

theorem witness_AccessKeepsOffset :
    (∃ (s : State) (ag : Agent) (use : WinUse) (va : Word) (n : Nat) (k : Acc) (p : Place) (tr : Option Trans),
      checkPlace s ag use va n k = .ok (p, tr)) ∧
    (∃ (s : State) (ag : Agent) (use : WinUse) (va : Word) (n : Nat) (k : Acc) (p : Place) (tr : Option Trans)
      (pa : _) (v : _) (c : _),
      p = .mem pa v c ∧ checkPlace s ag use va n k = .ok (p, tr)) ∧
    (∃ (s : State) (ag : Agent) (use : WinUse) (va : Word) (n : Nat) (k : Acc) (p : Place) (tr : Option Trans)
      (key : _) (serial : _) (off : _),
      p = .win key serial off ∧ checkPlace s ag use va n k = .ok (p, tr)) := by
  refine ⟨?_, ?_, ?_⟩
  · exact ⟨one (task g1), (one (task g1)).me.agent 0, .none, 0x8008, 8, .read, .mem 0x8008 0x8008 true,
      some ⟨0x8008, true, 0, ⟨0x2BF, 3⟩⟩, exc_ok (by decide +kernel)⟩
  · exact ⟨one (task g1), (one (task g1)).me.agent 0, .none, 0x8008, 8, .read, .mem 0x8008 0x8008 true,
      some ⟨0x8008, true, 0, ⟨0x2BF, 3⟩⟩, 0x8008, 0x8008, true, by decide +kernel, exc_ok (by decide +kernel)⟩
  · exact ⟨strms [(2, strm0)] (one { task g1 with strmCur := 2, stepTask := true }),
      (strms [(2, strm0)] (one { task g1 with strmCur := 2, stepTask := true })).me.agent 0, .allowed,
      0x00FFFFFFFFC00008, 8, .read, .win 2 0 8, none, 2, 0, 8, by decide +kernel, exc_ok (by decide +kernel)⟩

theorem witness_ReservationOutcomes :
    (∃ (d : GReg) (a : GReg) (wd : AmoWidth) (o : AmoOrd) (s : State) (p : Place) (tr : Trans),
      let i := Instr.lr d a wd o
      (s.runs i = true ∧ tr.rdies = 0 ∧ s.atRoot ∧ s.noRegion ∧ s.quiet tr.pa ∧ s.ms.checkOf (lineAddr tr.pa) = .good ∧ s.heldLine
        (lineAddr tr.pa) = false) ∧ (s.entered i).access .none (s.me.gval a) wd.bytes .rmw = .ok (p, some tr)) ∧
    (∃ (d : GReg) (a : GReg) (wd : AmoWidth) (o : AmoOrd) (s : State) (p : Place) (tr : Trans),
      let i := Instr.lr d a wd o
      (s.runs i = true ∧ tr.rdies = 0 ∧ s.atRoot ∧ s.noRegion ∧ s.quiet tr.pa ∧ s.ms.checkOf (lineAddr tr.pa) = .good ∧ s.heldLine
        (lineAddr tr.pa) = false ∧ pkgOf tr.pa = s.ws.own) ∧ (s.entered i).access .none (s.me.gval a) wd.bytes .rmw = .ok (p, some
        tr)) ∧
    (∃ (d : GReg) (a : GReg) (b : GReg) (wd : AmoWidth) (o : AmoOrd) (s : State) (p : Place) (tr : Trans),
      let i := Instr.sc d a b wd o
      (s.runs i = true ∧ tr.rdies = 0 ∧ s.atRoot ∧ s.noRegion ∧ s.homeLives tr.pa ∧ s.quiet tr.pa ∧ s.heldLine (lineAddr tr.pa) =
        false ∧ s.ms.checkOf (lineAddr tr.pa) ≠ .single) ∧ (s.entered i).access .none (s.me.gval a) wd.bytes .rmw = .ok (p, some
        tr) ∧ s.noInjection) ∧
    (∃ (d : GReg) (a : GReg) (b : GReg) (wd : AmoWidth) (o : AmoOrd) (s : State) (p : Place) (tr : Trans),
      let i := Instr.sc d a b wd o
      (s.runs i = true ∧ tr.rdies = 0 ∧ s.atRoot ∧ s.noRegion ∧ s.homeLives tr.pa ∧ s.quiet tr.pa ∧ s.heldLine (lineAddr tr.pa) =
        false ∧ s.ms.checkOf (lineAddr tr.pa) ≠ .single ∧ s.me.resv = some ⟨lineAddr tr.pa, false⟩) ∧ (s.entered i).access .none
        (s.me.gval a) wd.bytes .rmw = .ok (p, some tr) ∧ s.noInjection) ∧
    (∃ (d : GReg) (a : GReg) (b : GReg) (wd : AmoWidth) (o : AmoOrd) (s : State) (p : Place) (tr : Trans),
      let i := Instr.sc d a b wd o
      (s.runs i = true ∧ tr.rdies = 0 ∧ s.atRoot ∧ s.noRegion ∧ s.homeLives tr.pa ∧ s.quiet tr.pa ∧ s.heldLine (lineAddr tr.pa) =
        false ∧ s.ms.checkOf (lineAddr tr.pa) ≠ .single ∧ s.me.resv = some ⟨lineAddr tr.pa, true⟩) ∧ (s.entered i).access .none
        (s.me.gval a) wd.bytes .rmw = .ok (p, some tr) ∧ s.noInjection) ∧
    (∃ (d : GReg) (a : GReg) (b : GReg) (wd : AmoWidth) (o : AmoOrd) (s : State) (p : Place) (tr : Trans),
      let i := Instr.sc d a b wd o
      (s.runs i = true ∧ tr.rdies = 0 ∧ s.atRoot ∧ s.noRegion ∧ s.homeLives tr.pa ∧ s.quiet tr.pa ∧ s.heldLine (lineAddr tr.pa) =
        false ∧ s.ms.checkOf (lineAddr tr.pa) ≠ .single ∧ (∀ b, s.me.resv ≠ some ⟨lineAddr tr.pa, b⟩)) ∧ (s.entered i).access
        .none (s.me.gval a) wd.bytes .rmw = .ok (p, some tr) ∧ s.noInjection) := by
  refine ⟨?_, ?_, ?_, ?_, ?_, ?_⟩
  · exact ⟨5, 4, .d, .acq, withMem [(0x8000, 7)] (one (task g1)), .mem 0x8000 0x8000 true, tr0 0x8000,
      by (try dsimp only); unfold State.atRoot State.noRegion State.quiet; decide +kernel, exc_ok (by decide +kernel)⟩
  · exact ⟨5, 4, .d, .acq, withMem [(0x8000, 7)] (one (task g1)), .mem 0x8000 0x8000 true, tr0 0x8000,
      by (try dsimp only); unfold State.atRoot State.noRegion State.quiet; decide +kernel, exc_ok (by decide +kernel)⟩
  · exact ⟨5, 4, 2, .d, .rel, one (task g1), .mem 0x8000 0x8000 true, tr0 0x8000,
      by (try dsimp only); unfold State.atRoot State.noRegion State.homeLives State.quiet; decide +kernel, exc_ok
      (by decide +kernel), noInjection_ok (by decide +kernel)⟩
  · exact ⟨5, 4, 2, .d, .rel, one { task g1 with resv := some ⟨0x8000, false⟩ }, .mem 0x8000 0x8000 true,
      tr0 0x8000, by (try dsimp only); unfold State.atRoot State.noRegion State.homeLives State.quiet; decide +kernel,
      exc_ok (by decide +kernel), noInjection_ok (by decide +kernel)⟩
  · exact ⟨5, 4, 2, .d, .rel, one { task g1 with resv := some ⟨0x8000, true⟩ }, .mem 0x8000 0x8000 true, tr0 0x8000,
      by (try dsimp only); unfold State.atRoot State.noRegion State.homeLives State.quiet; decide +kernel, exc_ok
      (by decide +kernel), noInjection_ok (by decide +kernel)⟩
  · exact ⟨5, 4, 2, .d, .rel, one (task g1), .mem 0x8000 0x8000 true, tr0 0x8000,
      by (try dsimp only); unfold State.atRoot State.noRegion State.homeLives State.quiet; decide +kernel, exc_ok
      (by decide +kernel), noInjection_ok (by decide +kernel)⟩

theorem witness_WaitOnWriteOutcomes :
    (∃ (d : GReg) (a : GReg) (b : GReg) (wd : AmoWidth) (s : State) (p : Place) (tr : Trans),
      let i := Instr.wrs d a b wd
      (s.runs i = true ∧ tr.rdies = 0 ∧ s.me.timer = none ∧ s.me.resv = some ⟨lineAddr tr.pa, true⟩) ∧ (s.entered i).access .none
        (s.me.gval a) wd.bytes .read = .ok (p, some tr)) ∧
    (∃ (d : GReg) (a : GReg) (b : GReg) (wd : AmoWidth) (s : State) (p : Place) (tr : Trans),
      let i := Instr.wrs d a b wd
      (s.runs i = true ∧ tr.rdies = 0 ∧ s.me.timer = none ∧ (∀ r, s.me.resv = some r → r.line = lineAddr tr.pa → r.broken = false)
        ∧ pkgOf tr.pa = s.ws.own ∧ s.me.gval b = 0) ∧ (s.entered i).access .none (s.me.gval a) wd.bytes .read = .ok (p, some tr))
        ∧
    (∃ (d : GReg) (a : GReg) (b : GReg) (wd : AmoWidth) (s : State) (p : Place) (tr : Trans),
      let i := Instr.wrs d a b wd
      (s.runs i = true ∧ tr.rdies = 0 ∧ s.me.timer = none ∧ (∀ r, s.me.resv = some r → r.line = lineAddr tr.pa → r.broken = false)
        ∧ pkgOf tr.pa = s.ws.own ∧ s.me.gval b ≠ 0) ∧ (s.entered i).access .none (s.me.gval a) wd.bytes .read = .ok (p, some tr))
        := by
  refine ⟨?_, ?_, ?_⟩
  · exact ⟨5, 4, 2, .d, one { task g1 with resv := some ⟨0x8000, true⟩ }, .mem 0x8000 0x8000 true, tr0 0x8000,
      by (try dsimp only); decide +kernel, exc_ok (by decide +kernel)⟩
  · exact ⟨5, 4, 0, .d, one { task g1 with resv := some ⟨0x8000, false⟩ }, .mem 0x8000 0x8000 true, tr0 0x8000,
      by (try dsimp only); decide +kernel, exc_ok (by decide +kernel)⟩
  · exact ⟨5, 4, 2, .d, one (task g1), .mem 0x8000 0x8000 true, tr0 0x8000, by (try dsimp only); decide +kernel, exc_ok
      (by decide +kernel)⟩

theorem witness_FenceOutcomes :
    (∃ (s : State),
      s.runs .fenceAcq = true) ∧
    (∃ (i : _) (s : State) (x : L1Line),
      ((i = Instr.fenceRel ∨ i = .fenceSc ∨ i = .afence) ∧ s.runs i = true ∧ s.me.wc = [] ∧ s.ms.l1.filter (fun y => y.cell =
        cellOf s.cur && y.dirty ≠ 0) = [x] ∧ x.hyp = 0 ∧ lineAddr x.pa = x.pa ∧ s.homeLives x.pa ∧ s.ws.reachable (pkgOf x.pa) =
        true ∧ s.heldLine x.pa = false ∧ s.ms.checkOf x.pa = .good ∧ x.check = .good) ∧ s.noInjection) := by
  refine ⟨?_, ?_⟩
  · exact ⟨withL1 (one (task g1)), by decide +kernel⟩
  · exact ⟨.afence, withL1 (one (task g1)), lineL1, by unfold State.homeLives; decide +kernel, noInjection_ok
      (by decide +kernel)⟩

theorem witness_PrefetchOutcomes :
    (∃ (a : GReg) (s : State) (pa : Nat) (va : Nat) (tr : Option Trans),
      (s.runs (.pref a) = true ∧ s.ms.checkOf (lineAddr pa) = .good ∧ s.heldLine (lineAddr pa) = false) ∧ (s.entered (.pref
        a)).access .allowed (s.me.gval a) 1 .read = .ok (.mem pa va true, tr)) ∧
    (∃ (a : GReg) (s : State) (f : Failure),
      s.runs (.pref a) = true ∧ (s.entered (.pref a)).access .allowed (s.me.gval a) 1 .read = .error f) := by
  refine ⟨?_, ?_⟩
  · exact ⟨4, one (task g1), 0x8000, 0x8000, some (tr0 0x8000), by decide +kernel, exc_ok (by decide +kernel)⟩
  · exact ⟨3, one (task g1), (.memRange, some 0xFFFFFFFFFFFFFFF8), by decide +kernel, exc_err (by decide +kernel)⟩

theorem witness_HomeWriteBytes :
    ∃ (s : State) (line : Nat) (data : LineVal) (mask : BitVec 64) (own : Option Nat) (exempt : Option Nat)
      (t : _) (r : _),
      ((s.writeHome line data mask own exempt).slot t).resv = some r ∧ r.line = line ∧ some t ≠ exempt := by
  exact ⟨one { task g1 with resv := some ⟨0x8000, false⟩ }, 0x8000, 5, 1, none, none, 0, ⟨0x8000, true⟩,
    by decide +kernel⟩

theorem witness_MemoryReadsBytes :
    ∃ (s : State) (pa : Nat) (n : Nat) (k : Nat),
      Memory.wf s.ms.mem = true ∧ k < n := by
  exact ⟨withMem [(0x8000, 7)] (one (task g1)), 0x8000, 8, 7, by decide +kernel⟩

theorem witness_TrapOutcomes :
    (∃ (n : BitVec 7) (s : State),
      s.runs (.trap n) = true ∧ n.toNat < 64 ∧ s.hasHandler = true) ∧
    (∃ (n : BitVec 7) (s : State),
      s.runs (.trap n) = true ∧ 64 ≤ n.toNat ∧ s.me.intrap = false ∧ s.sysHandler s.me.asid ≠ 0) := by
  refine ⟨?_, ?_⟩
  · exact ⟨63, one (task g1), by decide +kernel⟩
  · exact ⟨64, handled (one { task g1 with stat := 0 }), by decide +kernel⟩

theorem witness_TrapSaves :
    ∃ (s : State) (c : Cause) (val : Word) (k : _),
      k ≠ s.cur := by
  exact ⟨one (task g1), .memAlign, 0x8001, 1, by decide +kernel⟩

theorem witness_TrapReturns :
    (∃ (s : State),
      s.runs .tret = true ∧ s.me.intrap = false ∧ s.hasHandler = true) ∧
    (∃ (s : State),
      s.runs .tret = true ∧ s.me.intrap = true) := by
  refine ⟨?_, ?_⟩
  · exact ⟨one { task g1 with stat := 1 }, by decide +kernel⟩
  · exact ⟨one { task g1 with stat := 0x10, trapPc := 0x3004 }, by decide +kernel⟩

theorem witness_ControlReads :
    ∃ (d : GReg) (s : State),
      s.runs (.cgetFpFlags d) = true ∧ s.queuesEmpty s.cur = true := by
  exact ⟨5, one { task g1 with fflags := 0x15 }, by decide +kernel⟩

theorem witness_ControlWrites :
    ∃ (r : _),
      r ∈ [CtlReg.taskId, .taskLaunch, .part, .yieldLeft, .hypCur, .strmCur, .world, .clkCycle] := by
  exact ⟨.taskId, by decide +kernel⟩

theorem witness_ChannelBinds :
    (∃ (d : GReg) (s : State),
      s.runs (.csetChanIn d) = true ∧ (s.me.gval d).getLsbD 25 = false) ∧
    (∃ (d : GReg) (s : State),
      s.runs (.csetChanOut d) = true ∧ (s.me.gval d).getLsbD 25 = false) := by
  refine ⟨?_, ?_⟩
  · exact ⟨1,
      one { task [(1, 0x80000005)] with inq := [⟨false, 3, true, 9⟩, ⟨false, 3, false, 0⟩], chanIn := ⟨true, false, false, 3⟩ },
      by decide +kernel⟩
  · exact ⟨1, one { task [(1, 0x81001FFF)] with stat := 0 }, by decide +kernel⟩

theorem witness_PrivilegeTraps :
    (∃ (d : GReg) (r : CtlReg) (s : State),
      (r = .taskPrio ∨ r = .hypSpillwait ∨ r = .asid) ∧ s.clear = true ∧ s.me.priv = false ∧ s.hasHandler = true) ∧
    (∃ (a : GReg) (b : GReg) (s : State),
      s.clear = true ∧ s.me.priv = false ∧ s.hasHandler = true) := by
  refine ⟨?_, ?_⟩
  · exact ⟨1, .taskPrio, one { task g1 with stat := 0 }, by decide +kernel⟩
  · exact ⟨4, 5, one { task g1 with stat := 0 }, by decide +kernel⟩

theorem witness_NotAnInstruction :
    ∃ (s : State) (w : Nat) (rest : List Nat),
      s.ev = w :: rest ∧ s.me.st ≠ .free ∧ s.hasHandler = true := by
  exact ⟨{ one (task g1) with ev := [0xF0148480] }, 0xF0148480, [], by decide +kernel⟩

theorem witness_YieldOutcomes :
    ∃ (n : BitVec 16) (gm : GReg) (s : State),
      let i := Instr.yield n gm
      (s.setMe { s.me with yieldLeft := 1 }).runs i = true ∧ s.cancelPending s.cur = false ∧ s.preemptAsked s.cur = false ∧
        (s.me.gval gm) >>> 24 = 0 ∧ s.queuesEmpty s.cur = true := by
  exact ⟨0xFFFF, 0, one { task g1 with yieldLeft := 0, stat := 0x20 }, by (try dsimp only); decide +kernel⟩

theorem witness_QuitOutcomes :
    ∃ (s : State),
      s.runs .quit = true := by
  exact ⟨one (task g1), by decide +kernel⟩

theorem witness_SpawnOutcomes :
    ∃ (d : GReg) (a : GReg) (b : GReg) (cell : Bool) (s : State) (l : Launch) (c : Nat) (k : Nat),
      let i := Instr.spawn d a b cell
      let e := s.entered i
      let target := (s.me.gval a).toNat
      (s.runs i = true ∧ (target ≤ (if cell then 511 else 4095)) ∧ (s.me.gval b).toNat % 4 = 0 ∧ s.launch? s.me.launch = some l ∧
        (l.acceptedDies.getLsbD (if cell then target / 128 else target / 1024) = true) ∧ l.reissuable = false ∧ l.paired = false ∧
        e.recCancelled l.recAddr = false ∧ ((if cell then e.chooseCore l (target * 8) 8 else if e.accepts l false target then some
        target else none) = some c) ∧ e.freeSlotOn c = some k ∧ s.me.wc = [] ∧ (∀ x ∈ s.ms.l1, x.cell = cellOf s.cur → x.dirty =
        0) ∧ s.homeLives l.recAddr ∧ l.recAddr % 64 = 0 ∧ s.ms.checkOf l.recAddr ≠ .single) ∧ s.noInjection := by
  exact ⟨9, 1, 6, false, one (task g1), { startLaunch with part := 0x002E000000000041 }, 64, 512,
    by (try dsimp only); unfold State.homeLives; decide +kernel, noInjection_ok (by decide +kernel)⟩

theorem witness_DepsigOutcomes :
    ∃ (a : GReg) (s : State) (l : Launch),
      let i := Instr.depsig a
      let k := (s.me.gval a).toNat
      s.runs i = true ∧ s.launch? s.me.launch = some l ∧ l.dep = true ∧ k < l.count ∧ tblGet 0 l.counters k ≠ 0 ∧ s.recCancelled
        l.recAddr = false ∧ s.atRoot ∧ s.noRegion ∧ s.me.wc = [] ∧ (∀ x ∈ s.ms.l1, x.cell = cellOf s.cur → x.dirty = 0) := by
  exact ⟨5, withLaunch depLaunch (one (task g1)), depLaunch,
    by (try dsimp only); unfold State.atRoot State.noRegion; decide +kernel⟩

theorem witness_CancelOutcomes :
    ∃ (a : GReg) (level : CancelLevel) (s : State) (p : Place) (tr : Trans),
      let i := Instr.cancel a level
      let e := s.entered i
      (s.runs i = true ∧ (s.me.gval a).toNat % 64 = 0 ∧ s.ms.checkOf (lineAddr tr.pa) = .good ∧ s.heldLine (lineAddr tr.pa) =
        false ∧ s.recLevel tr.pa = level.code ∧ s.recAsid tr.pa = s.me.asid ∧ s.recStatus tr.pa = 0 ∧ s.recCancel tr.pa = false ∧
        s.atRoot ∧ s.noRegion ∧ s.homeLives tr.pa ∧ s.me.wc = [] ∧ (∀ x ∈ s.ms.l1, x.cell = cellOf s.cur → x.dirty = 0) ∧ (∀ l ∈
        s.ls.launches, l.left = 0) ∧ s.ss.streams = []) ∧ e.access .none (s.me.gval a) 8 .write = .ok (p, some tr) ∧ s.noInjection
        := by
  exact ⟨4, .job, withMem [(0x800A, 2)] (one (task g1)), .mem 0x8000 0x8000 true, tr0 0x8000,
    by (try dsimp only); unfold State.atRoot State.noRegion State.homeLives; decide +kernel, exc_ok
    (by decide +kernel), noInjection_ok (by decide +kernel)⟩

theorem witness_InvalOutcomes :
    (∃ (a : GReg) (b : GReg) (s : State),
      let i := Instr.inval a b
      let n := (s.me.gval b).toNat % 2 ^ 40 * 2 ^ 16
      s.runs i = true ∧ (s.me.gval a).toNat % 2 ^ 16 = 0 ∧ (s.me.gval a).toNat + n ≤ 2 ^ 56 ∧ (s.me.gval a).toNat < 2 ^ 56 ∧
        (s.me.gval b).toNat / 2 ^ 40 % 128 = 0 ∧ s.me.wc = [] ∧ (∀ x ∈ s.ms.l1, x.cell = cellOf s.cur → x.dirty = 0) ∧ n = 0) ∧
    (∃ (a : GReg) (b : GReg) (s : State),
      let i := Instr.inval a b
      let n := (s.me.gval b).toNat % 2 ^ 40 * 2 ^ 16
      s.runs i = true ∧ (s.me.gval a).toNat % 2 ^ 16 = 0 ∧ (s.me.gval a).toNat + n ≤ 2 ^ 56 ∧ (s.me.gval a).toNat < 2 ^ 56 ∧
        (s.me.gval b).toNat / 2 ^ 40 % 128 = 0 ∧ s.me.wc = [] ∧ (∀ x ∈ s.ms.l1, x.cell = cellOf s.cur → x.dirty = 0) ∧ n ≠ 0) :=
        by
  refine ⟨?_, ?_⟩
  · exact ⟨2, 0, one (task [(2, 0x7F0000)]), by (try dsimp only); decide +kernel⟩
  · exact ⟨2, 5, one (task [(2, 0x7F0000), (5, 1)]), by (try dsimp only); decide +kernel⟩

theorem witness_VectorGrants :
    (∃ (w : Nat → Nat) (ready : Nat → Bool) (a : Arbiter) (b : Arbiter) (c : Nat),
      arbitrate w ready a = (some c, b)) ∧
    (∃ (s : State) (n : Nat) (k : Nat) (e : VEntry) (rest : List VEntry),
      s.ev[0]? = some n ∧ n < 512 ∧ (s.cell n).lanes.length < 4 ∧ (s.cell n).varb.turn.toNat = k ∧ 0 < s.weight Launch.vw (8 * n +
        k) ∧ 0 < (s.cell n).varb.left ∧ (s.core (8 * n + k)).vq = e :: rest ∧ e.granted = false ∧ (∀ f ∈ rest, f.granted = false))
        := by
  refine ⟨?_, ?_⟩
  · exact ⟨fun _ => 2, fun k => k == 5, ⟨1, 1, 0⟩, ⟨5, 1, 0⟩, 5, by decide +kernel⟩
  · exact
      ⟨{ (withVq [vEntry0 (.vadd .s8 1 2 3 0), vEntry0 (.vadd .s8 1 1 3 0)] (one (task []))).setCell 0 { Cell.reset with varb := ⟨0, 1, 7⟩ } with ls := { LaunchSys.reset with launches := [{ startLaunch with vw := 3 }] }, ev := [0] },
      0, 0, vEntry0 (.vadd .s8 1 2 3 0), [vEntry0 (.vadd .s8 1 1 3 0)], by decide +kernel⟩

theorem witness_VectorCompletes :
    ∃ (s : State) (core : Nat) (e : VEntry) (rest : List VEntry),
      s.ev[0]? = some core ∧ (s.core core).vq = e :: rest ∧ e.granted = true ∧ coreOf e.slot = core ∧ e.rep = none ∧ e.admits = []
        ∧ e.dest = none ∧ (s.slot e.slot).st ≠ .free ∧ (isQueuedVec e.instr = true ∨ isHeldVec e.instr = true) ∧ pushesV31 e.instr
        = false ∧ pushes31 e.instr = false := by
  exact
    ⟨at_ [0] (withVq [{ vEntry0 (.vadd .s8 1 2 3 0) with granted := true }, vEntry0 (.vadd .s8 1 1 3 0)] (one { task [] with v := v1 })),
    0, { vEntry0 (.vadd .s8 1 2 3 0) with granted := true }, [vEntry0 (.vadd .s8 1 1 3 0)], by decide +kernel⟩

theorem witness_MaskOutcomes :
    (∃ (c : VCtx) (d : MReg) (a : MReg) (b : MReg) (g : GReg) (i : _),
      i < 1024 ∧ (c.mask a).getLsbD i = true ∧ (∀ j, j < i → (c.mask a).getLsbD j = false)) ∧
    (∃ (c : VCtx) (d : MReg) (a : MReg) (b : MReg) (g : GReg),
      c.mask a = 0) := by
  refine ⟨?_, ?_⟩
  · exact ⟨vctx, 1, 2, 3, 5, 12, by decide +kernel⟩
  · exact ⟨vctx, 1, 3, 3, 5, by decide +kernel⟩

theorem witness_VectorMemoryCompletes :
    (∃ (s : State) (core : Nat) (e : VEntry) (rest : List VEntry) (t : ElemType) (d : VReg) (a : GReg)
      (m : MReg),
      let size := t.width / 8
      (s.ev[0]? = some core ∧ (s.core core).vq = e :: rest ∧ e.granted = true ∧ coreOf e.slot = core ∧ e.rep = none ∧ e.admits =
        [] ∧ (s.slot e.slot).st ≠ .free ∧ (s.slot e.slot).partner = none ∧ d ≠ 31 ∧ (t.width = 8 ∨ t.width = 16 ∨ t.width = 32) ∧
        (e.places.map (·.1)).Nodup ∧ s.hyps.eff e.hyp = 0 ∧ (s.slot e.slot).wc = [] ∧ e.instr = .vld t d a m) ∧ (∀ p ∈ e.places, ∃
        pa va, p.2 = .mem pa va false ∧ pa % size = 0 ∧ pkgOf pa = s.ws.own) ∧ (∀ p ∈ e.places, ∀ pa va c, p.2 = .mem pa va c →
        s.ms.checkOf (lineAddr pa) = .good ∧ s.heldLine (lineAddr pa) = false)) ∧
    (∃ (s : State) (core : Nat) (e : VEntry) (rest : List VEntry) (t : ElemType) (d : VReg) (a : GReg)
      (m : MReg),
      let size := t.width / 8
      (s.ev[0]? = some core ∧ (s.core core).vq = e :: rest ∧ e.granted = true ∧ coreOf e.slot = core ∧ e.rep = none ∧ e.admits =
        [] ∧ (s.slot e.slot).st ≠ .free ∧ (s.slot e.slot).partner = none ∧ d ≠ 31 ∧ (t.width = 8 ∨ t.width = 16 ∨ t.width = 32) ∧
        (e.places.map (·.1)).Nodup ∧ s.hyps.eff e.hyp = 0 ∧ (s.slot e.slot).wc = [] ∧ e.instr = .vst t d a m) ∧ (∀ p ∈ e.places, ∃
        pa va, p.2 = .mem pa va false ∧ pa % size = 0 ∧ pkgOf pa = s.ws.own) ∧ s.noInjection ∧ (∀ p ∈ e.places, ∀ pa va c, p.2 =
        .mem pa va c → s.live (homeOf pa) = true ∧ s.heldLine (lineAddr pa) = false ∧ s.ms.checkOf (lineAddr pa) ≠ .single) ∧
        (e.places.Pairwise fun p q => ∀ pa va c pb vb cb, p.2 = .mem pa va c → q.2 = .mem pb vb cb → pa ≠ pb)) := by
  refine ⟨?_, ?_⟩
  · exact
      ⟨at_ [0] (withMem [(0x8000, 0x11), (0x800B, 0x22)] (withVq [vMem (.vld .n16 1 4 1)] (one { task [] with v := v1 }))),
      0, vMem (.vld .n16 1 4 1), [], .n16, 1, 4, 1, by (try dsimp only); decide +kernel, uncached_ok
      (by decide +kernel), allMem_ok (by decide +kernel)⟩
  · exact
      ⟨at_ [0] (withMem [(0x8000, 0x11), (0x800B, 0x22)] (withVq [vMem (.vst .n16 1 4 1)] (one { task [] with v := v1 }))),
      0, vMem (.vst .n16 1 4 1), [], .n16, 1, 4, 1, by (try dsimp only); decide +kernel, uncached_ok
      (by decide +kernel), noInjection_ok (by decide +kernel), allMem_ok (by decide +kernel), apart_ok
      (by decide +kernel)⟩

theorem witness_TileOutcomes :
    (∃ (a : GReg) (s : State) (d : _),
      let g := s.me.gval a
      tileIndexOk s.me.part g.toNat = true ∧ s.unnamed g.toNat ∧ s.runs (.tstat d a) = true) ∧
    (∃ (a : GReg) (s : State),
      let g := s.me.gval a
      let x := s.here.tile g.toNat
      tileIndexOk s.me.part g.toNat = true ∧ s.unnamed g.toNat ∧ s.runs (.tready a) = true ∧ x.st = .empty) ∧
    (∃ (a : GReg) (s : State),
      let g := s.me.gval a
      let x := s.here.tile g.toNat
      tileIndexOk s.me.part g.toNat = true ∧ s.unnamed g.toNat ∧ s.runs (.tempty a) = true ∧ x.st = .ready) := by
  refine ⟨?_, ?_, ?_⟩
  · exact ⟨4, tiled (one (task [(4, 45)])), 5, by (try dsimp only); unfold State.unnamed; decide +kernel⟩
  · exact ⟨4, tiled (one (task [(4, 0x83)])), by (try dsimp only); unfold State.unnamed; decide +kernel⟩
  · exact ⟨4, tiled (one (task [(4, 0)])), by (try dsimp only); unfold State.unnamed; decide +kernel⟩

theorem witness_BarrierFlips :
    (∃ (b : Bar),
      b.armed = true ∧ b.pending = 0 ∧ b.arrivals = 0) ∧
    (∃ (b : Bar),
      (b.armed = false ∨ b.pending ≠ 0 ∨ b.arrivals ≠ 0)) := by
  refine ⟨?_, ?_⟩
  · exact ⟨⟨0, 3, 0, true, true, false, 0⟩, by decide +kernel⟩
  · exact ⟨⟨0, 3, 1, true, true, false, 0⟩, by decide +kernel⟩

theorem witness_BarrierOutcomes :
    (∃ (a : GReg) (b : GReg) (s : State),
      let off := (s.me.gval a).toNat
      let w := s.me.gval b
      let bar := s.here.bar off
      off % 16 = 0 ∧ off < 4096 * nTiles s.me.part ∧ (s.here.tile (off / 4096)).st = .ready ∧ bar.corrupt = false ∧ (∀ e ∈
        s.here.vq, e.tile ≠ some (off / 4096)) ∧ tblGet .good s.here.poison (off / 4096) = .good ∧ s.runs (.barinit a b) = true ∧
        w.toNat < 2 ^ 17 ∧ (s.me.barReg.any fun e => e.off = off) = false ∧ s.me.barReg.length < 4) ∧
    (∃ (a : GReg) (b : GReg) (s : State),
      let off := (s.me.gval a).toNat
      let w := s.me.gval b
      let bar := s.here.bar off
      off % 16 = 0 ∧ off < 4096 * nTiles s.me.part ∧ (s.here.tile (off / 4096)).st = .ready ∧ bar.corrupt = false ∧ (∀ e ∈
        s.here.vq, e.tile ≠ some (off / 4096)) ∧ tblGet .good s.here.poison (off / 4096) = .good ∧ s.runs (.barpost a b) = true ∧
        bar.pending + w.toNat ≤ 2 ^ 63 - 1) ∧
    (∃ (a : GReg) (b : GReg) (s : State),
      let off := (s.me.gval a).toNat
      let bar := s.here.bar off
      off % 16 = 0 ∧ off < 4096 * nTiles s.me.part ∧ (s.here.tile (off / 4096)).st = .ready ∧ bar.corrupt = false ∧ (∀ e ∈
        s.here.vq, e.tile ≠ some (off / 4096)) ∧ tblGet .good s.here.poison (off / 4096) = .good ∧ s.runs (.bararr a) = true ∧
        s.storesQueued s.cur = false ∧ s.me.wc = [] ∧ bar.arrivals ≠ 0 ∧ (s.me.barReg.any fun e => e.off = off) = false ∧
        s.me.barReg.length < 4) ∧
    (∃ (a : GReg) (b : GReg) (s : State),
      let off := (s.me.gval a).toNat
      let bar := s.here.bar off
      off % 16 = 0 ∧ off < 4096 * nTiles s.me.part ∧ (s.here.tile (off / 4096)).st = .ready ∧ bar.corrupt = false ∧ (∀ e ∈
        s.here.vq, e.tile ≠ some (off / 4096)) ∧ tblGet .good s.here.poison (off / 4096) = .good ∧ s.runs (.bardrop a) = true ∧
        s.storesQueued s.cur = false ∧ s.me.wc = [] ∧ bar.expected ≠ 0 ∧ s.me.barReg = [⟨off, some bar.phase⟩]) ∧
    (∃ (a : GReg) (b : GReg) (s : State),
      let off := (s.me.gval a).toNat
      let w := s.me.gval b
      let bar := s.here.bar off
      off % 16 = 0 ∧ off < 4096 * nTiles s.me.part ∧ (s.here.tile (off / 4096)).st = .ready ∧ bar.corrupt = false ∧ (∀ e ∈
        s.here.vq, e.tile ≠ some (off / 4096)) ∧ tblGet .good s.here.poison (off / 4096) = .good ∧ s.runs (.barwait a b) = true ∧
        bar.phase ≠ w.getLsbD 0) := by
  refine ⟨?_, ?_, ?_, ?_, ?_⟩
  · exact ⟨4, 5, tiled (one (task [(4, 0x2DFF0), (5, 0x1FFFF)])), by (try dsimp only); decide +kernel⟩
  · exact ⟨4, 5, barred (one (task [(4, 0x20), (5, 0x7FFFFFFFFFFFFFFA)])), by (try dsimp only); decide +kernel⟩
  · exact ⟨4, 5, barred (one (task [(4, 0x20), (5, 1)])), by (try dsimp only); decide +kernel⟩
  · exact ⟨4, 5, barred (one { task [(4, 0x20), (5, 1)] with barReg := [⟨0x20, some false⟩] }),
      by (try dsimp only); decide +kernel⟩
  · exact ⟨4, 5, barred (one (task [(4, 0x20), (5, 1)])), by (try dsimp only); decide +kernel⟩

theorem witness_OperandSlots :
    (∃ (d : GReg) (a : OReg) (s : State),
      let i := Instr.oclaim d a
      s.runs i = true ∧ (s.opSlot (cellOf s.cur) a.toNat).holder = none ∧ s.here.mq.length < 8) ∧
    (∃ (d : GReg) (a : OReg) (s : State),
      let i := Instr.oclaim d a
      s.runs i = true ∧ s.holdsOp a) ∧
    (∃ (d : GReg) (a : OReg) (s : State) (c : _),
      let i := Instr.oclaim d a
      s.runs i = true ∧ (s.opSlot (cellOf s.cur) a.toNat).holder = some c ∧ c ≠ coreOf s.cur) ∧
    (∃ (d : GReg) (a : OReg) (s : State),
      let j := Instr.orelease a
      s.runs j = true ∧ s.holdsOp a ∧ (∀ m ∈ s.here.mq, m.opSlots.contains a.toNat = false)) := by
  refine ⟨?_, ?_, ?_, ?_⟩
  · exact ⟨5, 3, matrixed (one (task g1)), by (try dsimp only); decide +kernel⟩
  · exact ⟨5, 1, matrixed (one (task g1)), by (try dsimp only); unfold State.holdsOp; decide +kernel⟩
  · exact ⟨5, 4, matrixed (one (task g1)), 7, by (try dsimp only); decide +kernel⟩
  · exact ⟨5, 1, matrixed (one (task g1)), by (try dsimp only); unfold State.holdsOp; decide +kernel⟩

theorem witness_MatrixControl :
    (∃ (a : GReg) (s : State),
      s.runs (.mxset a) = true ∧ mxctlOk (s.me.gval a) = true) ∧
    (∃ (a : GReg) (s : State),
      s.runs (.mxset a) = true ∧ mxctlOk (s.me.gval a) = false ∧ s.hasHandler = true) ∧
    (∃ (d : GReg) (s : State),
      s.runs (.mxget d) = true) := by
  refine ⟨?_, ?_, ?_⟩
  · exact ⟨5, one (task [(5, 0x83232)]), by decide +kernel⟩
  · exact ⟨5, one (task [(5, 0xC0B3)]), by decide +kernel⟩
  · exact ⟨5, one (task g1), by decide +kernel⟩

theorem witness_MatrixIssues :
    (∃ (d : CReg) (s : State),
      let i := Instr.mxzero d
      s.runs i = true ∧ s.accIn d .empty) ∧
    (∃ (d : CReg) (a : GReg) (b : GReg) (ps : List Place) (s : State),
      let i := Instr.mxloadc d a b
      (s.runs i = true ∧ s.accIn d .empty ∧ (s.me.gval a).toNat % 64 = 0 ∧ (s.me.gval b).toNat % 64 = 0) ∧ ((s.entered
        i).rowPlaces .read (s.me.gval a) (s.me.gval b) (if s.me.mxctl.getLsbD 10 then 8 else 4) ps)) ∧
    (∃ (d : CReg) (a : GReg) (b : GReg) (ps : List Place) (s : State),
      let i := Instr.mxstore d a b
      (s.runs i = true ∧ s.accIn d .ready ∧ (s.me.gval a).toNat % 64 = 0 ∧ (s.me.gval b).toNat % 64 = 0 ∧ s.atRoot) ∧ (s.entered
        i).rowPlaces .write (s.me.gval a) (s.me.gval b) (outBytes s.me.mxctl) ps ∧ (∀ p ∈ ps, ∃ pa va c, p = .mem pa va c)) ∧
    (∃ (d : CReg) (a : OReg) (b : OReg) (s : State),
      let i := Instr.mxmul d a b
      s.runs i = true ∧ d.toNat < accCount s.me.part ∧ (s.here.tile (0x80 + d.toNat)).st = .ready ∧ s.here.mq.length < 8 ∧
        s.holdsOp a ∧ s.holdsOp b ∧ (s.opSlot (cellOf s.cur) a.toNat).ready = true ∧ (s.opSlot (cellOf s.cur) b.toNat).ready =
        true) ∧
    (∃ (d : OReg) (a : GReg) (b : GReg) (t : Nat) (s : State),
      let i := Instr.oload d a b
      s.runs i = true ∧ s.holdsOp d ∧ loadControlOk (s.me.gval b) = true ∧ (s.me.gval a).toNat % 64 = 0 ∧ loadTiles (s.me.gval a)
        (s.me.gval b) = [t] ∧ t < nTiles s.me.part ∧ s.unnamed t ∧ (s.here.tile t).st = .ready ∧ s.here.mq.length < 8) := by
  refine ⟨?_, ?_, ?_, ?_, ?_⟩
  · exact ⟨0, matrixed (one (task g1)), by (try dsimp only); unfold State.accIn State.unnamed; decide +kernel⟩
  · exact ⟨0, 4, 5,
      (okOf [] (placeElems 64 .read none ((List.range 64).flatMap fun i => (List.range 4).map fun l => (0, rowAddr 0x8000 0x100 i l)) (one (task g1)))).map (·.2),
      matrixed (one (task [(4, 0x8000), (5, 0x100)])),
      by (try dsimp only); unfold State.accIn State.unnamed; decide +kernel, res_ok (by decide +kernel)⟩
  · exact ⟨1, 4, 5,
      (okOf [] (placeElems 64 .write none ((List.range 64).flatMap fun i => (List.range (outBytes mxctlReset)).map fun l => (0, rowAddr 0x8000 0x100 i l)) (one (task g1)))).map (·.2),
      matrixed (one (task [(4, 0x8000), (5, 0x100)])),
      by (try dsimp only); unfold State.atRoot State.accIn State.unnamed; decide +kernel, res_ok (by decide +kernel),
      inMem_ok (by decide +kernel)⟩
  · exact ⟨3, 1, 2, matrixed (one (task g1)), by (try dsimp only); unfold State.holdsOp; decide +kernel⟩
  · exact ⟨1, 4, 5, 0, matrixed (one (task [(5, 0x2040)])),
      by (try dsimp only); unfold State.unnamed State.holdsOp; decide +kernel⟩

theorem witness_MatrixWaits :
    (∃ (a : CReg) (s : State),
      let i := Instr.mxwait a
      s.runs i = true ∧ a.toNat < accCount s.me.part ∧ (∀ e ∈ s.here.mq, 0 < e.order) ∧ (∀ e ∈ s.here.mq, e.tiles.contains (0x80 +
        a.toNat) = false)) ∧
    (∃ (s : State),
      s.runs .mxdrain = true ∧ (∀ e ∈ s.here.mq, e.slot ≠ s.cur)) := by
  refine ⟨?_, ?_⟩
  · exact ⟨3, withMq [{ mEntry0 (.mxzero 2) with slot := 1 }] (one (task g1)),
      by (try dsimp only); decide +kernel⟩
  · exact ⟨withMq [{ mEntry0 (.mxzero 2) with slot := 1 }] (one (task g1)), by decide +kernel⟩

theorem witness_MatrixBlockSteps :
    ∃ (s : State) (n : Nat) (k : Nat) (e : MEntry) (rest : List MEntry) (d : CReg) (a : OReg) (b : OReg),
      (s.ev[0]? = some n ∧ n < 512 ∧ (s.cell n).marb.turn.toNat = k ∧ 0 < s.weight Launch.mw (8 * n + k) ∧ 0 < (s.cell
        n).marb.left ∧ (s.core (8 * n + k)).mq = e :: rest ∧ e.instr = .mxmul d a b ∧ e.blocks < 16 ∧ (s.opSlot n a.toNat).check =
        .good ∧ (s.opSlot n b.toNat).check = .good ∧ tblGet .good (s.core (8 * n + k)).poison (0x80 + d.toNat) = .good ∧ tblWf 0
        (s.core (8 * n + k)).acc = true) ∧ s.noInjection := by
  exact
    ⟨at_ [0] ({ (withMq [{ mEntry0 (.mxmul 1 1 2) with mxctl := 0x83232 }] (matrixed (one (task g1)))) with ls := { LaunchSys.reset with launches := [{ startLaunch with mw := 3 }] } }.setCell 0 { (matrixed (one (task g1))).cell 0 with marb := ⟨0, 2, 7⟩ }),
    0, 0, { mEntry0 (.mxmul 1 1 2) with mxctl := 0x83232 }, [], 1, 1, 2, by decide +kernel, noInjection_ok
    (by decide +kernel)⟩

theorem witness_MatrixIntegerProduct :
    ∃ (c : Word) (a : OpRow) (b : OpRow) (acc : Nat),
      mxctlOk c = true ∧ ctlF64 c = false ∧ mxInt c = true := by
  exact ⟨0x83232, opRow [(0, 2), (1, 0x83), (384, 3)] 0, opRow [(0, 0xFF), (1, 5), (400, 1)] 0, 0xFFFFFFFF,
    by decide +kernel⟩

theorem witness_MatrixCompletes :
    (∃ (s : State) (core : Nat) (e : MEntry) (rest : List MEntry) (d : _) (a : _),
      s.ev[0]? = some core ∧ (s.core core).mq = e :: rest ∧ e.instr = .oclaim d a) ∧
    (∃ (s : State) (core : Nat) (e : MEntry) (rest : List MEntry) (d : _),
      s.ev[0]? = some core ∧ (s.core core).mq = e :: rest ∧ e.instr = .mxzero d) ∧
    (∃ (s : State) (core : Nat) (e : MEntry) (rest : List MEntry) (d : _) (a : _) (b : _),
      s.ev[0]? = some core ∧ (s.core core).mq = e :: rest ∧ e.instr = .mxmul d a b ∧ 16 ≤ e.blocks) := by
  refine ⟨?_, ?_, ?_⟩
  · exact ⟨at_ [0] (withMq [mEntry0 (.oclaim 5 2), mEntry0 (.mxzero 2)] (matrixed (one (task g1)))), 0,
      mEntry0 (.oclaim 5 2), [mEntry0 (.mxzero 2)], 5, 2, by decide +kernel⟩
  · exact ⟨at_ [0] (withMq [mEntry0 (.mxzero 1)] (matrixed (one (task g1)))), 0, mEntry0 (.mxzero 1), [], 1,
      by decide +kernel⟩
  · exact ⟨at_ [0] (withMq [{ mEntry0 (.mxmul 1 1 2) with blocks := 16 }] (matrixed (one (task g1)))), 0,
      { mEntry0 (.mxmul 1 1 2) with blocks := 16 }, [], 1, 1, 2, by decide +kernel⟩

theorem witness_EngineRegisters :
    (∃ (n : BitVec 6) (a : GReg) (s : State),
      s.runs (.eset n a) = true) ∧
    (∃ (n : BitVec 6) (a : GReg) (s : State),
      s.runs (.eget n a) = true) := by
  refine ⟨?_, ?_⟩
  · exact ⟨63, 3, one (task g1), by decide +kernel⟩
  · exact ⟨16, 3, one { task g1 with e := [(16, 9)] }, by decide +kernel⟩

theorem witness_CarterSectors :
    ∃ (s : State) (c : CarterCmd) (n : Nat) (pa : Nat) (va : Nat) (cached : Bool) (tr : Option Trans),
      (s.ev[0]? = some c.id ∧ s.es.cmds.find? (fun d => d.id = c.id) = some c ∧ (s.carterCmds c.die c.carter).head? = some c ∧
        s.live c.die = true ∧ c.form = .mt ∧ c.geo = ⟨n, [1, 1, 1], [0, 0, 0], [0, 0, 0]⟩ ∧ 0 < n ∧ c.src % 64 + n ≤ 64 ∧ c.dst %
        4096 + n ≤ 4096 ∧ c.done = 0 ∧ c.bar = none ∧ c.signal = 0 ∧ c.twin = none ∧ c.queue = none ∧ s.hyps.eff c.hyp = 0 ∧ c.src
        < 2 ^ 56 ∧ pkgOf pa = s.ws.own ∧ s.ms.checkOf (lineAddr pa) = .good ∧ s.heldLine (lineAddr pa) = false) ∧ s.noInjection ∧
        checkPlace s c.agent .allowed (BitVec.ofNat 64 c.src) 1 .read = .ok (.mem pa va cached, tr) := by
  exact ⟨at_ [4] (withCmd (cmd0 7) (withMem [(0x8005, 1), (0x8006, 2), (0x800C, 9)] (one (task g1)))), cmd0 7, 7,
    0x8005, 0x8005, true, some (tr0 0x8005), by decide +kernel, noInjection_ok (by decide +kernel), exc_ok
    (by decide +kernel)⟩

theorem witness_QputPublishes :
    ∃ (a : GReg) (b : GReg) (s : State) (u : State) (p : Nat) (l : Nat) (w : Nat) (qcb : Nat) (entry : Nat),
      let i := Instr.qput a b
      (s.runs i = true ∧ u.cur = s.cur ∧ u.me.st ≠ .free ∧ u.me.partner = none ∧ u.me.pend = none ∧ u.indexFree qcb l w = true ∧
        entry % 64 = 0 ∧ qcb % 128 = 0 ∧ u.homeLives entry ∧ u.homeLives (qcb + 16) ∧ u.released ∧ (qcb + 24 ≤ entry ∨ entry + 64
        ≤ qcb + 16) ∧ u.heldLine entry = false ∧ u.heldLine qcb = false ∧ u.ms.checkOf entry ≠ .single ∧ u.ms.checkOf qcb ≠
        .single) ∧ qputClaim a b (s.entered i) = .ok [p, l, w, qcb, entry] u ∧ u.noInjection := by
  exact ⟨1, 2, queued0, after (qputClaim 1 2 (queued0.entered (.qput 1 2))),
    0x77 * 2 ^ 504 + 0x55 * 2 ^ 64 + 0xFE07, 4, 3, 0xA000, 0xB0C0,
    by (try dsimp only); unfold State.homeLives State.released; decide +kernel, res_ok (by decide +kernel),
    noInjection_ok (by decide +kernel)⟩

theorem witness_WindowOpens :
    (∃ (a : GReg) (op : RedOp) (s : State) (k : Nat) (p : Place) (pg : Place) (t : Trans) (tg : Trans)
      (tr : Nat → Trans),
      let i := Instr.rwin a op
      let e := s.entered i
      let va := s.me.gval a
      let len := (tblGet 0 s.me.e 16).toNat
      let gw := tblGet 0 s.me.e 19
      (s.runs i = true ∧ va.toNat % 64 = 0 ∧ 8 ≤ len ∧ len ≤ 65536 ∧ len % 8 = 0 ∧ 1 ≤ (tblGet 0 s.me.e 17).toNat ∧ (tblGet 0
        s.me.e 17).toNat ≤ 65535 ∧ 1 ≤ (tblGet 0 s.me.e 18).toNat ∧ (tblGet 0 s.me.e 18).toNat ≤ 10000000 ∧ gw.toNat % 8 = 0 ∧
        (gw.toNat < va.toNat ∨ va.toNat + len ≤ gw.toNat) ∧ t.rdies = 0 ∧ tg.rdies = 0 ∧ pkgOf t.pa = s.ws.own ∧ pkgOf tg.pa =
        s.ws.own ∧ s.atRoot ∧ s.noRegion ∧ s.homeLives tg.pa ∧ s.ms.checkOf (lineAddr tg.pa) ≠ .single ∧ s.me.wc = [] ∧ (∀ x ∈
        s.ms.l1, x.cell = cellOf s.cur → x.dirty = 0) ∧ k < 256 ∧ s.window k = none ∧ (∀ j, j < k → s.window j ≠ none)) ∧ (∀ r, r
        = 21 ∨ r = 22 ∨ r = 23 → tblGet 0 s.me.e r = 0) ∧ e.access .none va 64 .write = .ok (p, some t) ∧ (∀ n, n < (len + 63) /
        64 → (∃ q, e.access .none (BitVec.ofNat 64 (va.toNat + 64 * n)) 64 .write = .ok (q, some (tr n))) ∧ (va.toNat + 64 * n) /
        2 ^ pageShift (tr n).leaf.level = va.toNat / 2 ^ pageShift t.leaf.level ∧ (tr n).leaf.level = t.leaf.level ∧ pkgOf (tr
        n).pa = s.ws.own) ∧ e.access .none gw 8 .write = .ok (pg, some tg) ∧ s.noInjection ∧ (∀ x ∈ s.ws.windows, ∀ w, x.2 = some
        w → overlaps t.pa len w.base w.len = false)) ∧
    (∃ (a : GReg) (op : RedOp) (s : State) (k : Nat) (p : Place) (pg : Place) (t : Trans) (tg : Trans)
      (tr : Nat → Trans),
      let i := Instr.rwin a op
      let e := s.entered i
      let va := s.me.gval a
      let len := (tblGet 0 s.me.e 16).toNat
      let gw := tblGet 0 s.me.e 19
      (s.runs i = true ∧ va.toNat % 64 = 0 ∧ 8 ≤ len ∧ len ≤ 65536 ∧ len % 8 = 0 ∧ 1 ≤ (tblGet 0 s.me.e 17).toNat ∧ (tblGet 0
        s.me.e 17).toNat ≤ 65535 ∧ 1 ≤ (tblGet 0 s.me.e 18).toNat ∧ (tblGet 0 s.me.e 18).toNat ≤ 10000000 ∧ gw.toNat % 8 = 0 ∧
        (gw.toNat < va.toNat ∨ va.toNat + len ≤ gw.toNat) ∧ t.rdies = 0 ∧ tg.rdies = 0 ∧ pkgOf t.pa = s.ws.own ∧ pkgOf tg.pa =
        s.ws.own ∧ s.atRoot ∧ s.noRegion ∧ s.homeLives tg.pa ∧ s.ms.checkOf (lineAddr tg.pa) ≠ .single ∧ s.me.wc = [] ∧ (∀ x ∈
        s.ms.l1, x.cell = cellOf s.cur → x.dirty = 0) ∧ k < 256 ∧ s.window k = none ∧ (∀ j, j < k → s.window j ≠ none)) ∧ (∀ r, r
        = 21 ∨ r = 22 ∨ r = 23 → tblGet 0 s.me.e r = 0) ∧ e.access .none va 64 .write = .ok (p, some t) ∧ (∀ n, n < (len + 63) /
        64 → (∃ q, e.access .none (BitVec.ofNat 64 (va.toNat + 64 * n)) 64 .write = .ok (q, some (tr n))) ∧ (va.toNat + 64 * n) /
        2 ^ pageShift (tr n).leaf.level = va.toNat / 2 ^ pageShift t.leaf.level ∧ (tr n).leaf.level = t.leaf.level ∧ pkgOf (tr
        n).pa = s.ws.own) ∧ e.access .none gw 8 .write = .ok (pg, some tg) ∧ s.noInjection ∧ (∃ x ∈ s.ws.windows, ∃ w, x.2 = some
        w ∧ overlaps t.pa len w.base w.len = true)) := by
  refine ⟨?_, ?_⟩
  · exact ⟨1, .iadd, one winTask, 0, memAt 0x8000, memAt 0x9000, tr0 0x8000, tr0 0x9000,
      fun n => tr0 (0x8000 + 64 * n),
      by (try dsimp only); unfold State.atRoot State.noRegion State.homeLives; decide +kernel,
      (by rintro r (rfl | rfl | rfl) <;> decide +kernel), exc_ok (by decide +kernel), windowLines_ok
      (by decide +kernel), exc_ok (by decide +kernel), noInjection_ok (by decide +kernel), noneWin_ok (by decide +kernel)⟩
  · exact ⟨1, .fmax, withWin { win0 with base := 0x8008 } (one winTask), 1, memAt 0x8000, memAt 0x9000, tr0 0x8000,
      tr0 0x9000, fun n => tr0 (0x8000 + 64 * n),
      by (try dsimp only); unfold State.atRoot State.noRegion State.homeLives; decide +kernel,
      (by rintro r (rfl | rfl | rfl) <;> decide +kernel), exc_ok (by decide +kernel), windowLines_ok
      (by decide +kernel), exc_ok (by decide +kernel), noInjection_ok (by decide +kernel), ⟨(0, some { win0 with base :=
      0x8008 }), by decide +kernel, _, rfl, by decide +kernel⟩⟩

theorem witness_WindowCloses :
    (∃ (a : GReg) (s : State) (p : Place) (t : Trans) (k : _) (w : _),
      let i := Instr.rclose a
      let e := s.entered i
      
          let has (x : Nat × Option Window) : Bool := match x.2 with | some w => w.base = t.pa | none => false
      (s.runs i = true ∧ pkgOf t.pa = s.ws.own ∧ s.atRoot ∧ s.noRegion ∧ s.me.wc = [] ∧ (∀ x ∈ s.ms.l1, x.cell = cellOf s.cur →
        x.dirty = 0) ∧ s.ws.windows.find? has = some (k, some w) ∧ w.from0 = [] ∧ w.from1 = []) ∧ e.access .none (s.me.gval a) 1
        .write = .ok (p, some t)) ∧
    (∃ (a : GReg) (s : State) (p : Place) (t : Trans),
      let i := Instr.rclose a
      let e := s.entered i
      
          let has (x : Nat × Option Window) : Bool := match x.2 with | some w => w.base = t.pa | none => false
      (s.runs i = true ∧ pkgOf t.pa = s.ws.own ∧ s.atRoot ∧ s.noRegion ∧ s.me.wc = [] ∧ (∀ x ∈ s.ms.l1, x.cell = cellOf s.cur →
        x.dirty = 0) ∧ s.ws.windows.find? has = none) ∧ e.access .none (s.me.gval a) 1 .write = .ok (p, some t)) := by
  refine ⟨?_, ?_⟩
  · exact ⟨1, withWin { win0 with from0 := [] } (one winTask), memAt 0x8000, tr0 0x8000, 0,
      { win0 with from0 := [] }, by (try dsimp only); unfold State.atRoot State.noRegion; decide +kernel, exc_ok
      (by decide +kernel)⟩
  · exact ⟨2, withWin { win0 with from0 := [] } (one winTask), memAt 0x8008, tr0 0x8008,
      by (try dsimp only); unfold State.atRoot State.noRegion; decide +kernel, exc_ok (by decide +kernel)⟩

theorem witness_ContributionSent :
    (∃ (a : GReg) (b : GReg) (op : RedOp) (s : State) (p : Place) (t : Trans),
      let i := Instr.ramo a b op
      let e := s.entered i
      let k := (s.me.gval a).toNat % 8
      let va := s.me.gval a - BitVec.ofNat 64 k
      (s.runs i = true ∧ t.rdies = 0 ∧ s.atRoot ∧ s.noRegion ∧ s.me.wc = [] ∧ (∀ x ∈ s.ms.l1, x.cell = cellOf s.cur → x.dirty = 0)
        ∧ s.ws.mustWait (pkgOf t.pa) 2 = true) ∧ e.access .none va 8 .write = .ok (p, some t)) ∧
    (∃ (a : GReg) (b : GReg) (op : RedOp) (s : State) (p : Place) (t : Trans),
      let i := Instr.ramo a b op
      let e := s.entered i
      let k := (s.me.gval a).toNat % 8
      let va := s.me.gval a - BitVec.ofNat 64 k
      (s.runs i = true ∧ t.rdies = 0 ∧ s.atRoot ∧ s.noRegion ∧ s.me.wc = [] ∧ (∀ x ∈ s.ms.l1, x.cell = cellOf s.cur → x.dirty = 0)
        ∧ s.ws.mustWait (pkgOf t.pa) 2 = false) ∧ e.access .none va 8 .write = .ok (p, some t)) := by
  refine ⟨?_, ?_⟩
  · exact ⟨2, 3, .iadd, remotePaused (one winTask), .mem 0x50000008008 0x8008 true,
      ⟨0x50000008008, true, 0, ⟨0x00050000000002BF, 3⟩⟩,
      by (try dsimp only); unfold State.atRoot State.noRegion; decide +kernel, exc_ok (by decide +kernel)⟩
  · exact ⟨2, 3, .iadd, one winTask, memAt 0x8008, tr0 0x8008,
      by (try dsimp only); unfold State.atRoot State.noRegion; decide +kernel, exc_ok (by decide +kernel)⟩

theorem witness_DeliveryCollected :
    (∃ (a : GReg) (b : GReg) (s : State),
      let i := Instr.rwait a b
      let k := (s.me.gval a).toNat % 8
      s.runs i = true ∧ tblGet none s.me.rpend k = none) ∧
    (∃ (a : GReg) (b : GReg) (s : State) (p : _) (st : _),
      let i := Instr.rwait a b
      let k := (s.me.gval a).toNat % 8
      let va := s.me.gval a - BitVec.ofNat 64 k
      s.runs i = true ∧ tblGet none s.me.rpend k = some p ∧ p.addr = va ∧ p.status = some st) ∧
    (∃ (a : GReg) (b : GReg) (s : State) (p : _) (st : _),
      let i := Instr.rwait a b
      let k := (s.me.gval a).toNat % 8
      let va := s.me.gval a - BitVec.ofNat 64 k
      s.runs i = true ∧ tblGet none s.me.rpend k = some p ∧ p.addr = va ∧ p.status = some st ∧ b ≠ 0 ∧ b ≠ 31) := by
  refine ⟨?_, ?_, ?_⟩
  · exact ⟨2, 3, one winTask, by (try dsimp only); decide +kernel⟩
  · exact ⟨1, 3, one (pending0 (some 0)), ⟨0x8000, 0x8000, 2, some 0, 77⟩, 0, by (try dsimp only); decide +kernel⟩
  · exact ⟨1, 3, one (pending0 (some 5)), ⟨0x8000, 0x8000, 2, some 5, 77⟩, 5, by (try dsimp only); decide +kernel⟩

theorem witness_DeliveryArrives :
    ∃ (s : State) (n : Nat) (d : Delivery),
      s.ev[0]? = some n ∧ s.ws.deliveries[n]? = some d ∧ d.slot / 2 ^ 15 = s.ws.own := by
  exact
    ⟨at_ [1] { one (pending0 none) with ws := { (one winTask).ws with deliveries := [⟨5, 2, 1, 4⟩, ⟨0, 2, 0, 99⟩] } },
    1, ⟨0, 2, 0, 99⟩, by decide +kernel⟩

theorem witness_RouterOutcomes :
    (∃ (s : State) (m : Nat) (n : Nat) (x : Contribution) (y : Contribution) (rest : List Nat),
      s.ev = 0 :: m :: n :: rest ∧ m ≠ n ∧ s.ws.flying[m]? = some x ∧ s.ws.flying[n]? = some y ∧ x.held = true ∧ y.held = true ∧
        x.pa = y.pa ∧ x.op = y.op ∧ x.gen = y.gen) ∧
    (∃ (s : State) (n : Nat) (x : Contribution),
      s.ev[0]? = some n ∧ s.ws.flying[n]? = some x ∧ x.held = true) := by
  refine ⟨?_, ?_⟩
  · exact
      ⟨at_ [0, 2, 0] (flying [contrib 0x8000 6 true, contrib 0x8008 6 true, contrib 0x8000 6 true] (one winTask)),
      2, 0, contrib 0x8000 6 true, contrib 0x8000 6 true, [], by decide +kernel⟩
  · exact ⟨at_ [1] (flying [contrib 0x8000 6 true, contrib 0x8008 6 true] (one winTask)), 1, contrib 0x8008 6 true,
      by decide +kernel⟩

theorem witness_ContributionArrives :
    (∃ (s : State) (n : Nat) (c : Contribution),
      
          let hit (x : Nat × Option Window) : Bool := match x.2 with | some w => decide (w.base ≤ c.pa) && decide (c.pa < w.base + w.len) && w.op = c.op | none => false
      s.ev[0]? = some n ∧ s.ws.flying[n]? = some c ∧ c.held = false ∧ pkgOf c.pa = s.ws.own ∧ s.ws.windows.find? hit = none) ∧
    (∃ (s : State) (n : Nat) (c : Contribution) (k : _) (w : _),
      
          let hit (x : Nat × Option Window) : Bool := match x.2 with | some w => decide (w.base ≤ c.pa) && decide (c.pa < w.base + w.len) && w.op = c.op | none => false
      s.ev[0]? = some n ∧ s.ws.flying[n]? = some c ∧ c.held = false ∧ pkgOf c.pa = s.ws.own ∧ s.ws.windows.find? hit = some (k,
        some w) ∧ c.gen.toNat < w.gen.toNat) ∧
    (∃ (s : State) (n : Nat) (c : Contribution) (k : _) (w : _),
      
          let hit (x : Nat × Option Window) : Bool := match x.2 with | some w => decide (w.base ≤ c.pa) && decide (c.pa < w.base + w.len) && w.op = c.op | none => false
      s.ev[0]? = some n ∧ s.ws.flying[n]? = some c ∧ c.held = false ∧ pkgOf c.pa = s.ws.own ∧ s.ws.windows.find? hit = some (k,
        some w) ∧ w.gen.toNat + 1 < c.gen.toNat) ∧
    (∃ (s : State) (n : Nat) (c : Contribution) (k : _) (w : _),
      
          let hit (x : Nat × Option Window) : Bool := match x.2 with | some w => decide (w.base ≤ c.pa) && decide (c.pa < w.base + w.len) && w.op = c.op | none => false
      s.ev[0]? = some n ∧ s.ws.flying[n]? = some c ∧ c.held = false ∧ pkgOf c.pa = s.ws.own ∧ s.ws.windows.find? hit = some (k,
        some w) ∧ c.gen = w.gen ∧ w.len % 8 = 0 ∧ w.len ≠ 0 ∧ tblGet 0 w.cnt0 ((c.pa - w.base) / 8) + c.count < w.expected) ∧
    (∃ (s : State) (n : Nat) (c : Contribution) (k : _) (w : _),
      
          let hit (x : Nat × Option Window) : Bool := match x.2 with | some w => decide (w.base ≤ c.pa) && decide (c.pa < w.base + w.len) && w.op = c.op | none => false
      (s.ev[0]? = some n ∧ s.ws.flying[n]? = some c ∧ c.held = false ∧ pkgOf c.pa = s.ws.own ∧ s.ws.windows.find? hit = some (k,
        some w) ∧ c.gen = w.gen ∧ w.len = 8 ∧ c.pa = w.base ∧ (∀ x ∈ w.from0, x.pa = w.base) ∧ tblGet 0 w.cnt0 0 + c.count =
        w.expected ∧ w.base % 8 = 0 ∧ w.genPa % 8 = 0 ∧ (w.genPa + 8 ≤ w.base ∨ w.base + 8 ≤ w.genPa) ∧ s.homeLives w.base ∧
        s.homeLives w.genPa ∧ s.ms.checkOf (lineAddr w.base) ≠ .single ∧ s.ms.checkOf (lineAddr w.genPa) ≠ .single ∧ w.doomed =
        false) ∧ s.noInjection) := by
  refine ⟨?_, ?_, ?_, ?_, ?_⟩
  · exact ⟨at_ [0] (flying [contrib 0x8000 6 false] (one winTask)), 0, contrib 0x8000 6 false,
      by (try dsimp only); decide +kernel⟩
  · exact ⟨at_ [0] (withWin win0 (flying [contrib 0x8000 5 false] (one winTask))), 0, contrib 0x8000 5 false, 0,
      win0, by (try dsimp only); decide +kernel⟩
  · exact ⟨at_ [0] (withWin win0 (flying [contrib 0x8000 8 false] (one winTask))), 0, contrib 0x8000 8 false, 0,
      win0, by (try dsimp only); decide +kernel⟩
  · exact ⟨at_ [0] (withWin win0 (flying [contrib 0x8000 6 false] (one winTask))), 0, contrib 0x8000 6 false, 0,
      win0, by (try dsimp only); decide +kernel⟩
  · exact ⟨at_ [0] (withWin win1 (flying [contrib 0x8000 6 false] (one winTask))), 0, contrib 0x8000 6 false, 0,
      win1, by (try dsimp only); unfold State.homeLives; decide +kernel, noInjection_ok (by decide +kernel)⟩

theorem witness_WindowTimesOut :
    ∃ (s : State) (k : Nat) (w : Window),
      (s.ev[0]? = some k ∧ s.window k = some w ∧ w.timer = true ∧ w.genPa % 8 = 0 ∧ s.homeLives w.genPa ∧ s.ms.checkOf (lineAddr
        w.genPa) ≠ .single ∧ w.doomed = false) ∧ s.noInjection := by
  exact ⟨at_ [0] (withWin win0 (one winTask)), 0, win0, by unfold State.homeLives; decide +kernel, noInjection_ok
    (by decide +kernel)⟩

theorem witness_HandlesInMemory :
    (∃ (d : HReg) (a : GReg) (s : State) (tr : Nat → Trans),
      let va := s.me.gval a
      let i := Instr.hload d a
      let e := s.entered i
      (s.runs i = true ∧ descOk (s.descFrom tr) = true) ∧ e.descAt va .read tr) ∧
    (∃ (d : HReg) (a : GReg) (s : State) (tr : Nat → Trans),
      let va := s.me.gval a
      let i := Instr.hstore d a
      let e := s.entered i
      let h := s.handle d
      (s.runs i = true ∧ h.valid = true ∧ s.homeLives (tr 0).pa ∧ (∀ n, n < 16 → (tr n).pa = (tr 0).pa + 8 * n) ∧ (tr 0).pa % 128
        = 0 ∧ (∀ r ∈ s.es.relayouts, r.asid = s.me.asid → r.daddr ≠ h.daddr.toNat ∧ r.daddr ≠ va.toNat)) ∧ e.descAt va .write tr ∧
        s.noInjection) := by
  refine ⟨?_, ?_⟩
  · exact ⟨3, 1, uncached (descMem 0x8000 desc0 (one handled0)), trU 0x8000, by (try dsimp only); decide +kernel,
      descAt_ok (by decide +kernel)⟩
  · exact ⟨2, 1, uncached (one handled0), trU 0x8000, by (try dsimp only); unfold State.homeLives; decide +kernel,
      descAt_ok (by decide +kernel), noInjection_ok (by decide +kernel)⟩

theorem witness_HandleQueries :
    (∃ (d : GReg) (b : GReg) (a : HReg) (s : State),
      let i := Instr.hquery d a b
      s.runs i = true ∧ (s.handle a).valid = false ∧ s.hasHandler = true) ∧
    (∃ (d : GReg) (b : GReg) (a : HReg) (s : State),
      let i := Instr.hquery d a b
      s.runs i = true ∧ (s.handle a).valid = true) ∧
    (∃ (d : GReg) (b : GReg) (a : HReg) (s : State),
      let i := Instr.hquery d a b
      let sel := (s.me.gval b).toNat
      s.runs i = true ∧ (s.handle a).valid = true ∧ sel = 13) ∧
    (∃ (d : GReg) (b : GReg) (a : HReg) (s : State),
      let i := Instr.hquery d a b
      let x := (s.handle a).desc
      let sel := (s.me.gval b).toNat
      s.runs i = true ∧ (s.handle a).valid = true ∧ sel = 14 ∧ Desc.tag x % 16 ≠ 5) ∧
    (∃ (d : GReg) (b : GReg) (a : HReg) (s : State),
      let i := Instr.hquery d a b
      let sel := (s.me.gval b).toNat
      s.runs i = true ∧ (s.handle a).valid = true ∧ 17 ≤ sel ∧ s.hasHandler = true) := by
  refine ⟨?_, ?_, ?_, ?_, ?_⟩
  · exact ⟨9, 2, 3, one handled0, by (try dsimp only); decide +kernel⟩
  · exact ⟨9, 2, 2, one { handled0 with g := [(2, 2)] }, by (try dsimp only); decide +kernel⟩
  · exact ⟨9, 2, 2, one { handled0 with g := [(2, 13)] }, by (try dsimp only); decide +kernel⟩
  · exact ⟨9, 2, 2, one handled0, by (try dsimp only); decide +kernel⟩
  · exact ⟨9, 2, 2, one { handled0 with g := [(2, 17)] }, by (try dsimp only); decide +kernel⟩

theorem witness_LayoutsSeparate :
    ∃ (t : Nat) (dims : List Nat) (c : List Nat) (c' : List Nat),
      tagKind t ≤ 2 ∧ dims.length = 5 ∧ c.length = 5 ∧ c'.length = 5 ∧ (∀ k, k < 5 → c.getD k 0 < dimOf dims k) ∧ (∀ k, k < 5 →
        c'.getD k 0 < dimOf dims k) := by
  exact ⟨0x204C2, [8, 8, 1, 1, 1], [3, 5, 0, 0, 0], [3, 6, 0, 0, 0], by decide +kernel⟩

theorem witness_RelayoutStarts :
    ∃ (d : HReg) (a : GReg) (b : GReg) (s : State) (p : Place) (t : Trans),
      let i := Instr.relayout d a b
      let e := s.entered i
      let h := s.handle d
      let g := s.me.gval b
      let base := (s.me.gval a).toNat
      let bitmap := (s.me.gval (a + 1)).toNat
      let dims := newDims h.desc
      let size := sizeOf_ (g.toNat % 2 ^ 32) dims
      let units := (size + 4095) / 4096
      let r : Relayout := ⟨dieOf s.cur, h.daddr.toNat, t.pa, s.cur, s.me.launch, s.me.asid, s.me.priv, s.me.world, h.desc,
          g.setWidth 32, dims, base, bitmap, units, none, 0, 0, [], false⟩
      (s.runs i = true ∧ h.valid = true ∧ e.me.hypId = 0 ∧ relayoutOk h.desc g base bitmap = true ∧ s.me.wc = [] ∧ (∀ x ∈ s.ms.l1,
        x.cell = cellOf s.cur → x.dirty = 0) ∧ (s.es.relayouts.filter fun r => r.die = dieOf s.cur).length < 16 ∧
        s.es.relayouts.length < 64 ∧ s.homeLives t.pa ∧ s.ms.checkOf (lineAddr t.pa) = .good ∧ s.ms.checkOf (lineAddr t.pa + 64) =
        .good ∧ s.heldLine (lineAddr t.pa) = false ∧ s.heldLine (lineAddr t.pa + 64) = false ∧ (BitVec.ofNat 1024 (s.peek t.pa
        128)).getLsbD 104 = false) ∧ checkRange (pagesOf base size) base e = .ok () e ∧ checkRange (pagesOf bitmap ((units + 7) /
        8)) bitmap e = .ok () e ∧ s.noInjection ∧ e.access .none h.daddr 128 .write = .ok (p, some t) := by
  exact ⟨2, 3, 5, descMem 0x8080 desc0 (one handled0), memAt 0x8080, tr0 0x8080,
    by (try dsimp only); unfold State.homeLives; decide +kernel, res_ok (by decide +kernel), res_ok
    (by decide +kernel), noInjection_ok (by decide +kernel), exc_ok (by decide +kernel)⟩

theorem witness_RelayoutAwaited :
    (∃ (a : HReg) (s : State) (tr : Nat → Trans),
      let i := Instr.rlwait a
      let e := s.entered i
      let h := s.handle a
      let mine (r : Relayout) : Bool := r.asid = s.me.asid && r.daddr = h.daddr.toNat
      (s.runs i = true ∧ h.valid = true ∧ (∀ r ∈ s.es.relayouts, mine r = false) ∧ descOk (s.descFrom tr) = true) ∧ e.descAt
        h.daddr .read tr) ∧
    (∃ (a : HReg) (s : State) (tr : Nat → Trans),
      let i := Instr.rlwait a
      let h := s.handle a
      let mine (r : Relayout) : Bool := r.asid = s.me.asid && r.daddr = h.daddr.toNat
      s.runs i = true ∧ h.valid = true ∧ (∃ r ∈ s.es.relayouts, mine r = true)) := by
  refine ⟨?_, ?_⟩
  · exact ⟨2, uncached (descMem 0x8080 desc0 (one handled0)), trU 0x8080, by (try dsimp only); decide +kernel,
      descAt_ok (by decide +kernel)⟩
  · exact ⟨2, withRel { relayout0 with suspended := true } (one handled0), trU 0x8080,
      by (try dsimp only); decide +kernel⟩

theorem witness_WeaverUnits :
    (∃ (s : State) (die : Nat) (r : Relayout) (v : State) (bits : _),
      (s.ev[0]? = some die ∧ s.live die = true ∧ s.weaving die = some r ∧ v.es = s.es ∧ r.claimed = none ∧ r.done < r.units ∧
        tblGet 0 r.admitted r.done = 0) ∧ takeUnit r r.done s = .ok bits v) ∧
    (∃ (s : State) (die : Nat) (r : Relayout) (v : State) (k : _),
      (s.ev[0]? = some die ∧ s.live die = true ∧ s.weaving die = some r ∧ v.es = s.es ∧ r.claimed = some k ∧ k + 1 < r.units) ∧
        writeUnit r k s = .ok () v) ∧
    (∃ (s : State) (die : Nat) (r : Relayout) (v : State) (k : _) (pa : _),
      (s.ev[0]? = some die ∧ s.live die = true ∧ s.weaving die = some r ∧ v.es = s.es ∧ r.claimed = some k ∧ r.units = k + 1 ∧
        v.homeLives pa ∧ pa % 128 = 0 ∧ pkgOf pa = v.ws.own ∧ r.daddr % 128 = 0) ∧ writeUnit r k s = .ok () v ∧ v.noInjection ∧ (∀
        j, j < 2 → v.ms.checkOf (pa + 64 * j) = .good ∧ v.heldLine (pa + 64 * j) = false ∧ ∀ a, a = .read ∨ a = .write → ∃ va c t,
        checkPlace v r.agent .allowed (BitVec.ofNat 64 (r.daddr + 64 * j)) 1 a = .ok (.mem (pa + 64 * j) va c, t))) := by
  refine ⟨?_, ?_, ?_⟩
  · exact ⟨at_ [0] (withRel { relayoutS with done := 1, admitted := [(0, 5)] } (one handled0)), 0,
      { relayoutS with done := 1, admitted := [(0, 5)] },
      after (takeUnit { relayoutS with done := 1, admitted := [(0, 5)] } 1 (at_ [0] (withRel { relayoutS with done := 1, admitted := [(0, 5)] } (one handled0)))),
      okOf 0 (takeUnit { relayoutS with done := 1, admitted := [(0, 5)] } 1 (at_ [0] (withRel { relayoutS with done := 1, admitted := [(0, 5)] } (one handled0)))),
      by decide +kernel, res_ok (by decide +kernel)⟩
  · exact ⟨at_ [0] (withRel { relayoutS with claimed := some 0 } (descMem 0x8080 descS (one handled0))), 0,
      { relayoutS with claimed := some 0 },
      after (writeUnit { relayoutS with claimed := some 0 } 0 (at_ [0] (withRel { relayoutS with claimed := some 0 } (descMem 0x8080 descS (one handled0))))),
      0, by decide +kernel, res_ok (by decide +kernel)⟩
  · exact ⟨at_ [0] (withRel { relayoutS with claimed := some 1 } (descMem 0x8080 descS (one handled0))), 0,
      { relayoutS with claimed := some 1 },
      after (writeUnit { relayoutS with claimed := some 1 } 1 (at_ [0] (withRel { relayoutS with claimed := some 1 } (descMem 0x8080 descS (one handled0))))),
      1, 0x8080, by unfold State.homeLives; decide +kernel, res_ok (by decide +kernel), noInjection_ok
      (by decide +kernel), descLines_ok (by decide +kernel)⟩

theorem witness_HypothesisOpens :
    (∃ (d : GReg) (a : GReg) (s : State),
      let i := Instr.hopen d a
      let e := s.entered i
      let g := s.me.gval a
      let named := if g = BitVec.allOnes 64 then e.me.hypId else g.toNat
      let p := s.hyps.eff named
      let foreign := named ≠ 0 ∧ ((s.hyps.get named).st = .free ∨ (s.hyps.get named).asid ≠ s.me.asid)
      s.runs i = true ∧ named ≤ 16383 ∧ ¬foreign ∧ s.hyps.refutedInChain p = false ∧ (s.hyps.get p).depth = 15) ∧
    (∃ (d : GReg) (a : GReg) (s : State),
      let i := Instr.hopen d a
      let e := s.entered i
      let g := s.me.gval a
      let named := if g = BitVec.allOnes 64 then e.me.hypId else g.toNat
      let p := s.hyps.eff named
      let foreign := named ≠ 0 ∧ ((s.hyps.get named).st = .free ∨ (s.hyps.get named).asid ≠ s.me.asid)
      s.runs i = true ∧ named ≤ 16383 ∧ ¬foreign ∧ s.hyps.refutedInChain p = false ∧ (s.hyps.get p).depth ≠ 15 ∧ s.hyps.nextFree =
        none) ∧
    (∃ (d : GReg) (a : GReg) (s : State) (k : _),
      let i := Instr.hopen d a
      let e := s.entered i
      let g := s.me.gval a
      let named := if g = BitVec.allOnes 64 then e.me.hypId else g.toNat
      let p := s.hyps.eff named
      let foreign := named ≠ 0 ∧ ((s.hyps.get named).st = .free ∨ (s.hyps.get named).asid ≠ s.me.asid)
      s.runs i = true ∧ named ≤ 16383 ∧ ¬foreign ∧ s.hyps.refutedInChain p = false ∧ (s.hyps.get p).depth ≠ 15 ∧ s.hyps.nextFree =
        some k) ∧
    (∃ (d : GReg) (a : GReg) (s : State),
      let i := Instr.hopen d a
      let e := s.entered i
      let g := s.me.gval a
      let named := if g = BitVec.allOnes 64 then e.me.hypId else g.toNat
      s.runs i = true ∧ 16383 < named ∧ s.hasHandler = true) ∧
    (∃ (d : GReg) (a : GReg) (s : State),
      let i := Instr.hopen d a
      let e := s.entered i
      let g := s.me.gval a
      let named := if g = BitVec.allOnes 64 then e.me.hypId else g.toNat
      let foreign := named ≠ 0 ∧ ((s.hyps.get named).st = .free ∨ (s.hyps.get named).asid ≠ s.me.asid)
      s.runs i = true ∧ named ≤ 16383 ∧ foreign ∧ s.hasHandler = true) := by
  refine ⟨?_, ?_, ?_, ?_, ?_⟩
  · exact ⟨7, 1, withHyps deepHyp (one (hypTask 2 1)), by (try dsimp only); decide +kernel⟩
  · exact ⟨7, 1, withHyps fullHyp (one (hypTask 0xFFFFFFFFFFFFFFFF 1)), by (try dsimp only); decide +kernel⟩
  · exact ⟨7, 1, withHyps hyps0 (one (hypTask 0xFFFFFFFFFFFFFFFF 5)), 6, by (try dsimp only); decide +kernel⟩
  · exact ⟨7, 1, withHyps hyps0 (one (hypTask 16384 5)), by (try dsimp only); decide +kernel⟩
  · exact ⟨7, 1, withHyps hyps0 (one (hypTask 16383 5)), by (try dsimp only); decide +kernel⟩

theorem witness_HypothesisMoves :
    (∃ (d : GReg) (a : GReg) (s : State),
      let h := s.hyps
      let g := s.me.gval a
      let k := g.toNat
      let i := Instr.henter a
      let open_ := k = 0 ∨ ((h.get k).st = .opened ∧ (h.get k).asid = s.me.asid ∧ h.refutedInChain k = false)
      let within := ∀ r, s.me.top = some r → h.within k r = true
      s.runs i = true ∧ k ≤ 16383 ∧ open_ ∧ within) ∧
    (∃ (d : GReg) (a : GReg) (s : State),
      let g := s.me.gval a
      let k := g.toNat
      let i := Instr.henter a
      s.runs i = true ∧ 16383 < k ∧ s.hasHandler = true) ∧
    (∃ (d : GReg) (a : GReg) (s : State),
      let h := s.hyps
      let g := s.me.gval a
      let k := g.toNat
      let i := Instr.henter a
      let open_ := k = 0 ∨ ((h.get k).st = .opened ∧ (h.get k).asid = s.me.asid ∧ h.refutedInChain k = false)
      let within := ∀ r, s.me.top = some r → h.within k r = true
      s.runs i = true ∧ k ≤ 16383 ∧ (¬(open_ ∧ within)) ∧ s.hasHandler = true) ∧
    (∃ (d : GReg) (a : GReg) (s : State),
      let h := s.hyps
      let i := Instr.hleave
      let e := s.entered i
      let cur := h.eff e.me.hypId
      s.runs i = true ∧ cur ≠ 0 ∧ s.me.top ≠ some cur) ∧
    (∃ (d : GReg) (a : GReg) (s : State),
      let h := s.hyps
      let i := Instr.hleave
      let e := s.entered i
      let cur := h.eff e.me.hypId
      s.runs i = true ∧ (cur = 0 ∨ s.me.top = some cur) ∧ s.hasHandler = true) ∧
    (∃ (d : GReg) (a : GReg) (s : State),
      let g := s.me.gval a
      let k := g.toNat
      let i := Instr.hstat d a
      let e := s.entered i
      let named := if g = BitVec.allOnes 64 then e.me.hypId else k
      s.runs i = true ∧ named = 0) ∧
    (∃ (d : GReg) (a : GReg) (s : State),
      let h := s.hyps
      let g := s.me.gval a
      let k := g.toNat
      let i := Instr.hstat d a
      let e := s.entered i
      let named := if g = BitVec.allOnes 64 then e.me.hypId else k
      let r := h.get named
      s.runs i = true ∧ 0 < named ∧ named ≤ 16383 ∧ (r.st = .free ∨ r.asid ≠ s.me.asid)) ∧
    (∃ (d : GReg) (a : GReg) (s : State),
      let h := s.hyps
      let g := s.me.gval a
      let k := g.toNat
      let i := Instr.hstat d a
      let e := s.entered i
      let named := if g = BitVec.allOnes 64 then e.me.hypId else k
      let r := h.get named
      s.runs i = true ∧ 0 < named ∧ named ≤ 16383 ∧ r.st ≠ .free ∧ r.asid = s.me.asid ∧ r.depth ≤ 15 ∧ r.parent ≤ 16383) ∧
    (∃ (d : GReg) (a : GReg) (s : State),
      let g := s.me.gval a
      let k := g.toNat
      let i := Instr.hstat d a
      let e := s.entered i
      let named := if g = BitVec.allOnes 64 then e.me.hypId else k
      s.runs i = true ∧ 16383 < named ∧ s.hasHandler = true) := by
  refine ⟨?_, ?_, ?_, ?_, ?_, ?_, ?_, ?_, ?_⟩
  · exact ⟨7, 1, withHyps hyps0 (one (hypTask 2 0)), by (try dsimp only); decide +kernel⟩
  · exact ⟨7, 1, withHyps hyps0 (one (hypTask 16384 1)), by (try dsimp only); decide +kernel⟩
  · exact ⟨7, 1, withHyps hyps0 (one (hypTask 5 1)), by (try dsimp only); decide +kernel⟩
  · exact ⟨7, 1, withHyps hyps0 (one (hypTask 0 2)), by (try dsimp only); decide +kernel⟩
  · exact ⟨7, 1, withHyps hyps0 (one { hypTask 0 3 with regions := [⟨3, 0x100, false⟩] }),
      by (try dsimp only); decide +kernel⟩
  · exact ⟨7, 1, withHyps hyps0 (one (hypTask 0 2)), by (try dsimp only); decide +kernel⟩
  · exact ⟨7, 1, withHyps hyps0 (one (hypTask 9 2)), by (try dsimp only); decide +kernel⟩
  · exact ⟨7, 1, withHyps hyps0 (one (hypTask 4 2)), by (try dsimp only); decide +kernel⟩
  · exact ⟨7, 1, withHyps hyps0 (one (hypTask 0xFFFFFFFFFFFFFFFE 3)), by (try dsimp only); decide +kernel⟩

theorem witness_RegionOpens :
    (∃ (imm : BitVec 12) (s : State) (k : _),
      let i := Instr.copen imm
      let e := s.entered i
      let p := s.hyps.eff e.me.hypId
      let deep := 4 ≤ s.me.regions.length ∨ (s.hyps.get p).depth = 15
      s.runs i = true ∧ ¬deep ∧ s.hyps.nextFree = some k) ∧
    (∃ (imm : BitVec 12) (s : State),
      let i := Instr.copen imm
      let e := s.entered i
      let p := s.hyps.eff e.me.hypId
      let deep := 4 ≤ s.me.regions.length ∨ (s.hyps.get p).depth = 15
      s.runs i = true ∧ deep ∧ s.hasHandler = true) ∧
    (∃ (imm : BitVec 12) (s : State),
      let i := Instr.copen imm
      let e := s.entered i
      let p := s.hyps.eff e.me.hypId
      let deep := 4 ≤ s.me.regions.length ∨ (s.hyps.get p).depth = 15
      s.runs i = true ∧ ¬deep ∧ s.hyps.nextFree = none ∧ s.hasHandler = true) := by
  refine ⟨?_, ?_, ?_⟩
  · exact ⟨0xFFF, withHyps hyps0 (one (hypTask 0 5)), 6, by (try dsimp only); decide +kernel⟩
  · exact ⟨0xFFF, withHyps deepHyp (one (hypTask 0 2)), by (try dsimp only); decide +kernel⟩
  · exact ⟨0xFFF, withHyps fullHyp (one (hypTask 0 2)), by (try dsimp only); decide +kernel⟩

theorem witness_ResolutionOutcomes :
    (∃ (d : GReg) (a : GReg) (excl : Bool) (confirm : Bool) (s : State),
      let i := if confirm then Instr.hconfirm d a excl else Instr.hrefute d a
      let k := (s.me.gval a).toNat
      let bad := k = 0 ∨ 16383 < k
      s.runs i = true ∧ ¬bad ∧ (¬(confirm = true ∧ (s.hyps.get k).region = true)) ∧ (∀ r, s.me.top = some r → s.hyps.within k r =
        true) ∧ s.released) ∧
    (∃ (d : GReg) (a : GReg) (excl : Bool) (confirm : Bool) (s : State) (keep : _) (st : _),
      let i := if confirm then Instr.hconfirm d a excl else Instr.hrefute d a
      s.answered i .resolve keep st) ∧
    (∃ (d : GReg) (a : GReg) (excl : Bool) (confirm : Bool) (s : State),
      let i := if confirm then Instr.hconfirm d a excl else Instr.hrefute d a
      let k := (s.me.gval a).toNat
      let bad := k = 0 ∨ 16383 < k
      s.runs i = true ∧ bad ∧ s.hasHandler = true) ∧
    (∃ (d : GReg) (a : GReg) (excl : Bool) (confirm : Bool) (s : State),
      let i := if confirm then Instr.hconfirm d a excl else Instr.hrefute d a
      let k := (s.me.gval a).toNat
      let bad := k = 0 ∨ 16383 < k
      s.runs i = true ∧ ¬bad ∧ confirm = true ∧ (s.hyps.get k).region = true ∧ s.hasHandler = true) := by
  refine ⟨?_, ?_, ?_, ?_⟩
  · exact ⟨7, 1, true, true, withHyps hyps0 (one (hypTask 2 0)),
      by (try dsimp only); unfold State.released; decide +kernel⟩
  · exact ⟨7, 1, true, true, withHyps hyps0 (one (answered0 .resolve [] 4)), [], 4, answered_ok (by decide +kernel)⟩
  · exact ⟨7, 1, true, true, withHyps hyps0 (one (hypTask 0 0)), by (try dsimp only); decide +kernel⟩
  · exact ⟨7, 1, false, true, withHyps hyps0 (one (hypTask 3 0)), by (try dsimp only); decide +kernel⟩

theorem witness_RegionCloses :
    (∃ (s : State) (k : Nat),
      let i := Instr.cclose
      let e := s.entered i
      s.runs i = true ∧ s.me.top = some k ∧ (¬(s.me.regions.length = 1 ∧ s.me.impl = true)) ∧ s.hyps.eff e.me.hypId = k ∧
        e.drainedOf s.cur = true ∧ s.released) ∧
    (∃ (s : State) (k : Nat) (keep : _) (r : _) (rest : _),
      let i := Instr.cclose
      (s.me.regions = r :: rest ∧ r.nonrev = false) ∧ s.answered i .cclose keep 0) ∧
    (∃ (s : State) (k : Nat),
      let i := Instr.cclose
      let e := s.entered i
      s.runs i = true ∧ (s.me.regions = [] ∨ (s.me.regions.length = 1 ∧ s.me.impl = true) ∨ s.me.top ≠ some (s.hyps.eff
        e.me.hypId)) ∧ s.hasHandler = true) := by
  refine ⟨?_, ?_, ?_⟩
  · exact ⟨withHyps hyps0 (one inRegion), 3, by (try dsimp only); unfold State.released; decide +kernel⟩
  · exact ⟨withHyps hyps0 (one { answered0 .cclose [] 0 with regions := [⟨3, 0x3000, false⟩], hypId := 3 }), 3,
      [], ⟨3, 0x3000, false⟩, [], by (try dsimp only); decide +kernel, answered_ok (by decide +kernel)⟩
  · exact ⟨withHyps hyps0 (one (hypTask 0 2)), 3, by (try dsimp only); decide +kernel⟩

theorem witness_ResolverPhases :
    (∃ (s : State) (r : Resolution),
      let h := s.hyps
      let d := ((s.ev[0]?).getD 0)
      let held (x : L1Line) : Bool := x.cell / 128 = d && x.hyp ≠ 0 && r.affected.contains x.hyp
      s.live d = true ∧ h.cur = some r ∧ r.phase = .prepare ∧ r.acks.getLsbD d = false ∧ s.ms.l1.filter held = []) ∧
    (∃ (s : State) (r : Resolution) (st : _),
      let h := s.hyps
      let k := r.req.target
      let d := ((s.ev[0]?).getD 0)
      s.live d = true ∧ h.cur = none ∧ h.queue = [r.req] ∧ (st = 3 ∧ ((h.get k).st = .free ∨ (h.get k).asid ≠ r.req.asid) ∨ st = 1
        ∧ (h.get k).st = .confirmed ∧ (h.get k).asid = r.req.asid ∨ st = 2 ∧ ((h.get k).st = .opened ∨ (h.get k).st = .refuted) ∧
        (h.get k).asid = r.req.asid ∧ h.refutedInChain k = true)) ∧
    (∃ (s : State) (r : Resolution),
      let h := s.hyps
      let k := r.req.target
      let settled : Prop := (h.get k).st ≠ .opened ∨ (h.get k).asid ≠ r.req.asid ∨ h.refutedInChain k = true
      h.cur = some r ∧ r.phase = .prepare ∧ k ≠ 0 ∧ tblWf .free h.table = true ∧ ¬settled ∧ (∀ x, x < 4 → s.live x = true →
        r.acks.getLsbD x = true) ∧ r.req.confirm = false) ∧
    (∃ (s : State) (r : Resolution) (v : _),
      let h := s.hyps
      let k := r.req.target
      let settled : Prop := (h.get k).st ≠ .opened ∨ (h.get k).asid ≠ r.req.asid ∨ h.refutedInChain k = true
      (h.cur = some r ∧ r.phase = .prepare ∧ k ≠ 0 ∧ tblWf .free h.table = true ∧ ¬settled ∧ (∀ x, x < 4 → s.live x = true →
        r.acks.getLsbD x = true) ∧ r.req.confirm = true ∧ r.req.excl = false ∧ h.eff (h.get k).parent = 0 ∧ (∀ x ∈ s.ms.l1, x.hyp
        ≠ k) ∧ (s.ms.versions.filter fun v => v.hyp = k) = [v] ∧ v.line % 64 = 0 ∧ s.homeLives v.line ∧ s.ms.checkOf v.line ≠
        .single) ∧ s.noInjection) ∧
    (∃ (s : State) (r : Resolution),
      let h := s.hyps
      let d := ((s.ev[0]?).getD 0)
      let acks := r.acks ||| (1#4 <<< d)
      s.live d = true ∧ h.cur = some r ∧ r.phase = .apply ∧ r.acks.getLsbD d = false ∧ (∀ x, x < 4 → s.live x = true →
        acks.getLsbD x = true)) ∧
    (∃ (s : State) (r : Resolution) (x : _),
      let h := s.hyps
      let d := ((s.ev[0]?).getD 0)
      let acks := r.acks ||| (1#4 <<< d)
      s.live d = true ∧ h.cur = some r ∧ r.phase = .apply ∧ r.acks.getLsbD d = false ∧ x < 4 ∧ s.live x = true ∧ acks.getLsbD x =
        false) := by
  refine ⟨?_, ?_, ?_, ?_, ?_, ?_⟩
  · exact ⟨at_ [2] (withHyps (resolving (resol 2 false .prepare 1)) (one inRegion)), resol 2 false .prepare 1,
      by (try dsimp only); decide +kernel⟩
  · exact
      ⟨at_ [2] (withHyps { hyps0 with queue := [(resol 4 false .prepare 0).req] } (one (answered0 .resolve [] 0))),
      resol 4 false .prepare 0, 2, by (try dsimp only); decide +kernel⟩
  · exact ⟨at_ [] (withHyps (resolving (resol 1 false .prepare 15)) (one inRegion)), resol 1 false .prepare 15,
      by (try dsimp only); decide +kernel⟩
  · exact
      ⟨at_ [] (withVer [ver 0x8000 1, ver 0x8040 2] (withHyps (resolving (resol 1 true .prepare 15)) (one inRegion))),
      resol 1 true .prepare 15, ver 0x8000 1, by (try dsimp only); unfold State.homeLives; decide +kernel,
      noInjection_ok (by decide +kernel)⟩
  · exact
      ⟨at_ [3] (withHyps (resolving (resol 1 true .apply 7)) (one { task g1 with pend := some ⟨.resolve, 0, [], none⟩ })),
      resol 1 true .apply 7, by (try dsimp only); decide +kernel⟩
  · exact ⟨at_ [1] (withHyps (resolving (resol 1 true .apply 1)) (one inRegion)), resol 1 true .apply 1, 3,
      by (try dsimp only); decide +kernel⟩

theorem witness_SweepFrees :
    ∃ (s : State) (d : Nat),
      s.ev[0]? = some d ∧ (∃ r ∈ s.hyps.table, r.2.st = .refuted ∧ r.2.sweep.getLsbD d = true) := by
  exact ⟨at_ [0] (withVer [ver 0x8000 4, ver 0x8040 2] (withHyps hyps0 (one inRegion))), 0, by decide +kernel⟩

theorem witness_AcceptOutcomes :
    (∃ (vocab : Nat) (ds : List Nat) (ss : List Nat),
      ds.length = ss.length) ∧
    (∃ (vocab : Nat) (ds : List Nat) (ss : List Nat) (n : _),
      let a := agreeing vocab ds ss
      ds.length = ss.length ∧ n < a) ∧
    (∃ (vocab : Nat) (ds : List Nat) (ss : List Nat) (n : _) (x : _),
      let a := agreeing vocab ds ss
      ds.length = ss.length ∧ n < a ∧ ds[n]? = some x) ∧
    (∃ (vocab : Nat) (ds : List Nat) (ss : List Nat) (x : _) (y : _),
      let a := agreeing vocab ds ss
      ds.length = ss.length ∧ ds[a]? = some x ∧ ss[a]? = some y) ∧
    (∃ (r : Nat × Bool) (rs : List (Nat × Bool)) (n : Nat) (q : Nat × Bool),
      (r :: rs)[n]? = some q) ∧
    (∃ (r : Nat × Bool) (rs : List (Nat × Bool)) (n : Nat) (q : Nat × Bool),
      let b := bestBranch 1 rs (0, r.1)
      (r :: rs)[n]? = some q ∧ n < b.1) ∧
    (∃ (d : GReg) (a : GReg) (s : State) (word : Nat) (st : Nat),
      s.answered (.accept d a) .accept [word] st) ∧
    (∃ (d : GReg) (a : GReg) (s : State),
      s.runs (.accept d a) = true ∧ (s.me.gval a).toNat % 64 ≠ 0 ∧ s.hasHandler = true) := by
  refine ⟨?_, ?_, ?_, ?_, ?_, ?_, ?_, ?_⟩
  · exact ⟨100, [1, 2, 3], [1, 2, 4], by decide +kernel⟩
  · exact ⟨100, [1, 2, 3], [1, 2, 4], 1, by (try dsimp only); decide +kernel⟩
  · exact ⟨100, [1, 2, 3], [1, 2, 4], 1, 2, by (try dsimp only); decide +kernel⟩
  · exact ⟨100, [1, 2, 3], [1, 2, 4], 3, 4, by (try dsimp only); decide +kernel⟩
  · exact ⟨(2, false), [(3, true), (3, false)], 2, (3, false), by decide +kernel⟩
  · exact ⟨(2, false), [(3, true), (3, false)], 0, (2, false), by (try dsimp only); decide +kernel⟩
  · exact ⟨7, 1, one (answered0 .accept [0x30002] 2), 0x30002, 2, answered_ok (by decide +kernel)⟩
  · exact ⟨7, 1, one (task [(1, 0x8020)]), by decide +kernel⟩

theorem witness_StreamsBegin :
    (∃ (d : GReg) (a : GReg) (b : GReg) (s : State) (l : Launch),
      let g := s.me.gval a
      let i := Instr.screate d a
      let e := s.entered i
      (s.plain ∧ s.runs i = true ∧ g.toNat % 4 = 0 ∧ g.toNat < 2 ^ 56) ∧ s.openRecord l ∧ (s.recordsFull (dieOf s.cur) = true ∨
        e.strmRun s.me.asid 1 = none)) ∧
    (∃ (d : GReg) (a : GReg) (b : GReg) (s : State) (l : Launch) (k : _),
      let g := s.me.gval a
      let i := Instr.screate d a
      let e := s.entered i
      (s.plain ∧ s.runs i = true ∧ g.toNat % 4 = 0 ∧ g.toNat < 2 ^ 56 ∧ s.recordsFull (dieOf s.cur) = false ∧ e.strmRun s.me.asid
        1 = some k) ∧ s.openRecord l) ∧
    (∃ (d : GReg) (a : GReg) (b : GReg) (s : State) (l : Launch),
      let g := s.me.gval a
      let i := Instr.screate d a
      (s.plain ∧ s.runs i = true ∧ (g.toNat % 4 ≠ 0 ∨ 2 ^ 56 ≤ g.toNat) ∧ s.hasHandler = true) ∧ s.openRecord l) ∧
    (∃ (d : GReg) (a : GReg) (b : GReg) (s : State) (l : Launch),
      let g := s.me.gval a
      let i := Instr.sfork d a b
      let n := (s.me.gval b).toNat
      let p := s.strm g.toNat
      (s.plain ∧ s.runs i = true ∧ 1 ≤ g.toNat ∧ g.toNat < 2 ^ 20 ∧ 1 ≤ n ∧ n ≤ 16 ∧ p.st = .dead) ∧ s.openRecord l) ∧
    (∃ (d : GReg) (a : GReg) (b : GReg) (s : State) (l : Launch),
      let g := s.me.gval a
      let i := Instr.sfork d a b
      let e := s.entered i
      let n := (s.me.gval b).toNat
      let p := s.strm g.toNat
      (s.plain ∧ s.runs i = true ∧ 1 ≤ g.toNat ∧ g.toNat < 2 ^ 20 ∧ 1 ≤ n ∧ n ≤ 16 ∧ p.st ≠ .dead) ∧ s.openRecord l ∧ e.strmRun
        s.me.asid n = none) ∧
    (∃ (d : GReg) (a : GReg) (b : GReg) (s : State) (l : Launch) (k : _),
      let g := s.me.gval a
      let i := Instr.sfork d a b
      let e := s.entered i
      let n := (s.me.gval b).toNat
      let p := s.strm g.toNat
      (s.plain ∧ s.runs i = true ∧ 1 ≤ g.toNat ∧ g.toNat < 2 ^ 20 ∧ 1 ≤ n ∧ n ≤ 16 ∧ p.st ≠ .dead ∧ e.strmRun s.me.asid n = some
        k) ∧ s.openRecord l) := by
  refine ⟨?_, ?_, ?_, ?_, ?_, ?_⟩
  · exact ⟨9, 4, 0, allIds (strms [] (counted 2 (one strmTask))), launch1,
      by (try dsimp only); unfold State.plain State.atRoot State.noRegion; decide +kernel, openRecord_ok
      (by decide +kernel), Or.inr (strmRun_all rfl (by decide +kernel) (by decide +kernel))⟩
  · exact ⟨9, 4, 0, strms [] (counted 2 (one strmTask)), launch1, 1,
      by (try dsimp only); unfold State.plain State.atRoot State.noRegion; decide +kernel, openRecord_ok
      (by decide +kernel)⟩
  · exact ⟨9, 5, 0, strms [(1, strm0)] (counted 2 (one strmTask)), launch1,
      by (try dsimp only); unfold State.plain State.atRoot State.noRegion; decide +kernel, openRecord_ok
      (by decide +kernel)⟩
  · exact ⟨9, 1, 3, strms [(1, strm0)] (counted 2 (one strmTask)), launch1,
      by (try dsimp only); unfold State.plain State.atRoot State.noRegion; decide +kernel, openRecord_ok
      (by decide +kernel)⟩
  · exact ⟨9, 1, 3, allIds (strms [] (counted 2 (one strmTask))), launch1,
      by (try dsimp only); unfold State.plain State.atRoot State.noRegion; decide +kernel, openRecord_ok
      (by decide +kernel), strmRun_all rfl (by decide +kernel) (by decide +kernel)⟩
  · exact ⟨9, 1, 3,
      strms [(1, strm0), (2, { strm0 with st := .stepping, ring := [5], horizon := 9 })] (counted 2 (one strmTask)),
      launch1, 3, by (try dsimp only); unfold State.plain State.atRoot State.noRegion; decide +kernel, openRecord_ok
      (by decide +kernel)⟩

theorem witness_StreamEnds :
    (∃ (d : GReg) (a : GReg) (s : State) (l : Launch),
      let i := Instr.sdrop d a
      let k := (s.me.gval a).toNat
      let m := s.strm k
      s.runs i = true ∧ s.plain ∧ 1 ≤ k ∧ k < 2 ^ 20 ∧ m.st = .dead) ∧
    (∃ (d : GReg) (a : GReg) (s : State) (l : Launch),
      let i := Instr.sdrop d a
      let k := (s.me.gval a).toNat
      let m := s.strm k
      (s.runs i = true ∧ s.plain ∧ 1 ≤ k ∧ k < 2 ^ 20 ∧ m.st = .idle ∧ m.group = none ∧ 1 < (s.ss.map m.map).refs ∧ m.launch =
        s.me.launch ∧ s.released ∧ 1 < s.recOutstanding l.recAddr) ∧ s.openRecord l) := by
  refine ⟨?_, ?_⟩
  · exact ⟨9, 1, strms [(1, strm0)] (counted 2 (one strmTask)), launch1,
      by (try dsimp only); unfold State.plain State.atRoot State.noRegion; decide +kernel⟩
  · exact ⟨9, 1, strms [(1, strm0), (2, strm0)] (counted 2 (one strmTask)), launch1,
      by (try dsimp only); unfold State.plain State.released State.atRoot State.noRegion; decide +kernel, openRecord_ok
      (by decide +kernel)⟩

theorem witness_ActionsQueued :
    ∃ (d : GReg) (a : GReg) (b : GReg) (s : State) (p : Place) (t : Trans),
      let i := Instr.sact d a b
      let e := s.entered i
      let va := s.me.gval b
      let k := s.strmNamed (s.me.gval a)
      (s.runs i = true ∧ s.plain ∧ 1 ≤ k ∧ k < 2 ^ 20 ∧ e.sound t.pa va.toNat = true) ∧ e.access .none va 64 .read = .ok (p, some
        t) := by
  exact ⟨9, 1, 2, strms [(2, strm0)] (one joinTask2), memAt 0x8000, tr0 0x8000,
    by (try dsimp only); unfold State.plain State.atRoot State.noRegion; decide +kernel, exc_ok (by decide +kernel)⟩

theorem witness_ActionsTaken :
    (∃ (d : GReg) (a : GReg) (s : State) (p : Place) (t : Trans),
      let i := Instr.spop d a
      let k := s.me.strmCur.toNat
      let m := s.strm k
      s.runs i = true ∧ (k = 0 ∨ m.st = .dead) ∧ s.hasHandler = true) ∧
    (∃ (d : GReg) (a : GReg) (s : State) (p : Place) (t : Trans),
      let i := Instr.spop d a
      let e := s.entered i
      let va := s.me.gval a
      let k := s.me.strmCur.toNat
      let m := s.strm k
      (s.runs i = true ∧ s.plain ∧ k ≠ 0 ∧ m.st ≠ .dead ∧ m.ring = []) ∧ e.access .none va 64 .write = .ok (p, some t)) ∧
    (∃ (d : GReg) (a : GReg) (s : State) (p : Place) (t : Trans) (r : _) (rest : _),
      let i := Instr.spop d a
      let e := s.entered i
      let va := s.me.gval a
      let k := s.me.strmCur.toNat
      let m := s.strm k
      (s.runs i = true ∧ s.plain ∧ k ≠ 0 ∧ m.st ≠ .dead ∧ m.ring = r :: rest ∧ s.homeLives t.pa) ∧ e.access .none va 64 .write =
        .ok (p, some t) ∧ s.noInjection ∧ s.merges t.pa va.toNat) ∧
    (∃ (d : GReg) (a : GReg) (s : State) (p : Place) (t : Trans) (r : _) (rest : _),
      let i := Instr.spop d a
      let e := s.entered i
      let va := s.me.gval a
      let k := s.me.strmCur.toNat
      let m := s.strm k
      (s.runs i = true ∧ s.plain ∧ k ≠ 0 ∧ m.st ≠ .dead ∧ m.ring = r :: rest ∧ s.homeLives t.pa ∧ t.cached = false) ∧ e.access
        .none va 64 .write = .ok (p, some t) ∧ s.noInjection ∧ s.merges t.pa va.toNat) ∧
    (∃ (d : GReg) (a : GReg) (s : State) (p : Place) (t : Trans) (r : _) (rest : _),
      let i := Instr.spop d a
      let e := s.entered i
      let va := s.me.gval a
      let k := s.me.strmCur.toNat
      let m := s.strm k
      (s.runs i = true ∧ s.plain ∧ k ≠ 0 ∧ m.st ≠ .dead ∧ m.ring = r :: rest ∧ s.homeLives t.pa ∧ t.cached = true) ∧ e.access
        .none va 64 .write = .ok (p, some t) ∧ s.noInjection ∧ s.merges t.pa va.toNat) := by
  refine ⟨?_, ?_, ?_, ?_, ?_⟩
  · exact ⟨9, 2, one strmTask, memAt 0x8000, tr0 0x8000, by (try dsimp only); decide +kernel⟩
  · exact ⟨9, 2, strms [(2, strm0)] (one strmTask), memAt 0x8000, tr0 0x8000,
      by (try dsimp only); unfold State.plain State.atRoot State.noRegion; decide +kernel, exc_ok (by decide +kernel)⟩
  · exact ⟨9, 2, strms [(2, { strm0 with ring := [0xAB, 4] })] (one strmTask), memAt 0x8000, tr0 0x8000, 0xAB, [4],
      by (try dsimp only); unfold State.plain State.homeLives State.atRoot State.noRegion; decide +kernel, exc_ok
      (by decide +kernel), noInjection_ok (by decide +kernel), merges_ok (by decide +kernel)⟩
  · exact ⟨9, 2, uncached (strms [(2, { strm0 with ring := [0xAB, 4] })] (one strmTask)), .mem 0x8000 0x8000 false,
      trU 0x8000 0, 0xAB, [4],
      by (try dsimp only); unfold State.plain State.homeLives State.atRoot State.noRegion; decide +kernel, exc_ok
      (by decide +kernel), noInjection_ok (by decide +kernel), merges_ok (by decide +kernel)⟩
  · exact ⟨9, 2, strms [(2, { strm0 with ring := [0xAB, 4] })] (one strmTask), memAt 0x8000, tr0 0x8000, 0xAB, [4],
      by (try dsimp only); unfold State.plain State.homeLives State.atRoot State.noRegion; decide +kernel, exc_ok
      (by decide +kernel), noInjection_ok (by decide +kernel), merges_ok (by decide +kernel)⟩

theorem witness_Horizons :
    (∃ (d : GReg) (a : GReg) (b : GReg) (s : State),
      let i := Instr.shor d a b
      let k := s.strmNamed (s.me.gval a)
      let m := s.strm k
      s.plain ∧ s.runs i = true ∧ 1 ≤ k ∧ k < 2 ^ 20 ∧ (s.me.gval b).toNat < 2 ^ 32 ∧ m.st = .dead) ∧
    (∃ (d : GReg) (a : GReg) (b : GReg) (s : State),
      let i := Instr.shor d a b
      let h := (s.me.gval b).setWidth 32
      let k := s.strmNamed (s.me.gval a)
      let m := s.strm k
      s.plain ∧ s.runs i = true ∧ 1 ≤ k ∧ k < 2 ^ 20 ∧ (s.me.gval b).toNat < 2 ^ 32 ∧ m.st = .idle ∧ h = 0) ∧
    (∃ (d : GReg) (a : GReg) (b : GReg) (s : State),
      let i := Instr.shor d a b
      let h := (s.me.gval b).setWidth 32
      let k := s.strmNamed (s.me.gval a)
      let m := s.strm k
      s.plain ∧ s.runs i = true ∧ 1 ≤ k ∧ k < 2 ^ 20 ∧ (s.me.gval b).toNat < 2 ^ 32 ∧ m.st = .idle ∧ h ≠ 0 ∧ (∀ b ∈ s.ss.batches,
        ¬(b.die = m.home ∧ b.launch = m.launch ∧ b.stepPc = m.stepPc)) ∧ s.ss.waiting.length < 63) ∧
    (∃ (d : GReg) (a : GReg) (b : GReg) (s : State),
      let i := Instr.shor d a b
      let h := (s.me.gval b).setWidth 32
      let k := s.strmNamed (s.me.gval a)
      let m := s.strm k
      s.plain ∧ s.runs i = true ∧ 1 ≤ k ∧ k < 2 ^ 20 ∧ (s.me.gval b).toNat < 2 ^ 32 ∧ m.st = .waiting ∧ h = 0) ∧
    (∃ (d : GReg) (a : GReg) (b : GReg) (s : State),
      let i := Instr.shor d a b
      let h := (s.me.gval b).setWidth 32
      let k := s.strmNamed (s.me.gval a)
      let m := s.strm k
      s.plain ∧ s.runs i = true ∧ 1 ≤ k ∧ k < 2 ^ 20 ∧ (s.me.gval b).toNat < 2 ^ 32 ∧ (m.st = .waiting ∧ h ≠ 0 ∨ m.st =
        .stepping)) ∧
    (∃ (d : GReg) (a : GReg) (b : GReg) (s : State),
      let i := Instr.sret a
      let k := s.me.strmCur.toNat
      s.plain ∧ s.runs i = true ∧ k ≠ 0 ∧ (s.strm k).st ≠ .dead) := by
  refine ⟨?_, ?_, ?_, ?_, ?_, ?_⟩
  · exact ⟨9, 1, 3, one strmTask, by (try dsimp only); unfold State.plain State.atRoot State.noRegion; decide +kernel⟩
  · exact ⟨9, 1, 0, strms [(2, { strm0 with horizon := 9 })] (one strmTask),
      by (try dsimp only); unfold State.plain State.atRoot State.noRegion; decide +kernel⟩
  · exact ⟨9, 1, 3, strms [(2, strm0)] (one strmTask),
      by (try dsimp only); unfold State.plain State.atRoot State.noRegion; decide +kernel⟩
  · exact ⟨9, 1, 0,
      (let s := strms [(2, { strm0 with st := .waiting })] (one strmTask); { s with ss := { s.ss with waiting := [(2, 0), (3, 1)], batches := [⟨0, 1, 0x4000, [2]⟩, ⟨0, 2, 0x4000, [5, 2]⟩] } }),
      by (try dsimp only); unfold State.plain State.atRoot State.noRegion; decide +kernel⟩
  · exact ⟨9, 1, 0, strms [(2, { strm0 with st := .stepping, horizon := 9 })] (one strmTask),
      by (try dsimp only); unfold State.plain State.atRoot State.noRegion; decide +kernel⟩
  · exact ⟨9, 31, 3,
      strms [(2, strm0)] (one { strmTask with inq := [⟨false, 0, true, 0x77⟩], chanIn := ⟨true, false, false, 3⟩ }),
      by (try dsimp only); unfold State.plain State.atRoot State.noRegion; decide +kernel⟩

theorem witness_StreamSelected :
    (∃ (a : GReg) (s : State),
      let i := Instr.senter a
      let g := s.me.gval a
      let n := g.toNat
      s.runs i = true ∧ n = 0) ∧
    (∃ (a : GReg) (s : State),
      let i := Instr.senter a
      let g := s.me.gval a
      let n := g.toNat
      s.runs i = true ∧ 1 ≤ n ∧ n < 2 ^ 20 ∧ (s.strm n).st ≠ .dead) ∧
    (∃ (a : GReg) (s : State) (q : _) (k : _),
      let i := Instr.senter a
      let g := s.me.gval a
      let n := g.toNat
      s.runs i = true ∧ n = 2 ^ 63 + q ∧ q < 64 ∧ s.me.members[q]? = some k) ∧
    (∃ (a : GReg) (s : State),
      let i := Instr.senter a
      let g := s.me.gval a
      let n := g.toNat
      s.runs i = true ∧ 1 ≤ n ∧ n < 2 ^ 20 ∧ (s.strm n).st = .dead ∧ s.hasHandler = true) ∧
    (∃ (a : GReg) (s : State) (q : _),
      let i := Instr.senter a
      let g := s.me.gval a
      let n := g.toNat
      s.runs i = true ∧ n = 2 ^ 63 + q ∧ q < 64 ∧ s.me.members[q]? = none ∧ s.hasHandler = true) ∧
    (∃ (a : GReg) (s : State),
      let i := Instr.senter a
      let g := s.me.gval a
      let n := g.toNat
      s.runs i = true ∧ 2 ^ 20 ≤ n ∧ (n < 2 ^ 63 ∨ 2 ^ 63 + 64 ≤ n) ∧ s.hasHandler = true) := by
  refine ⟨?_, ?_, ?_, ?_, ?_, ?_⟩
  · exact ⟨0, one strmTask, by (try dsimp only); decide +kernel⟩
  · exact ⟨1, strms [(2, strm0)] (one strmTask), by (try dsimp only); decide +kernel⟩
  · exact ⟨1, one { task [(1, 0x8000000000000001)] with members := [7, 9] }, 1, 9,
      by (try dsimp only); decide +kernel⟩
  · exact ⟨1, one strmTask, by (try dsimp only); decide +kernel⟩
  · exact ⟨1, one { task [(1, 0x800000000000003F)] with members := [7, 9] }, 63,
      by (try dsimp only); decide +kernel⟩
  · exact ⟨1, one { task [(1, 0x8000000000000040)] with members := [7, 9] }, by (try dsimp only); decide +kernel⟩

theorem witness_GroupsForm :
    (∃ (d : GReg) (a : GReg) (b : GReg) (s : State) (p : Place) (t : Trans) (op : Nat) (n : Nat) (first : Nat),
      let i := Instr.sjoin d a b
      let e := s.entered i
      let home := (s.strm first).home
      let fit : Prop := ∀ c, c < n → (s.strm (first + c)).st ≠ .dead ∧ (s.strm (first + c)).group = none ∧ (s.strm (first +
          c)).home = home
      (s.runs i = true ∧ s.plain ∧ (s.me.gval a).toNat = op * 2 ^ 28 + n * 2 ^ 20 + first ∧ op ≤ 2 ∧ 1 ≤ n ∧ n ≤ 64 ∧ first < 2 ^
        20 ∧ first + n - 1 ≤ 1048575 ∧ ¬fit) ∧ e.access .none (s.me.gval b) 8 .write = .ok (p, some t)) ∧
    (∃ (d : GReg) (a : GReg) (b : GReg) (s : State) (p : Place) (t : Trans) (op : Nat) (n : Nat) (first : Nat),
      let i := Instr.sjoin d a b
      let e := s.entered i
      let home := (s.strm first).home
      let fit : Prop := ∀ c, c < n → (s.strm (first + c)).st ≠ .dead ∧ (s.strm (first + c)).group = none ∧ (s.strm (first +
          c)).home = home
      (s.runs i = true ∧ s.plain ∧ (s.me.gval a).toNat = op * 2 ^ 28 + n * 2 ^ 20 + first ∧ op ≤ 2 ∧ 1 ≤ n ∧ n ≤ 64 ∧ first < 2 ^
        20 ∧ first + n - 1 ≤ 1048575 ∧ fit ∧ 1024 ≤ s.ss.groupsAt home) ∧ e.access .none (s.me.gval b) 8 .write = .ok (p, some t))
        ∧
    (∃ (d : GReg) (a : GReg) (b : GReg) (s : State) (p : Place) (t : Trans) (op : Nat) (n : Nat) (first : Nat),
      let i := Instr.sjoin d a b
      let e := s.entered i
      let home := (s.strm first).home
      let fit : Prop := ∀ c, c < n → (s.strm (first + c)).st ≠ .dead ∧ (s.strm (first + c)).group = none ∧ (s.strm (first +
          c)).home = home
      (s.runs i = true ∧ s.plain ∧ (s.me.gval a).toNat = op * 2 ^ 28 + n * 2 ^ 20 + first ∧ op ≤ 2 ∧ 1 ≤ n ∧ n ≤ 64 ∧ first < 2 ^
        20 ∧ first + n - 1 ≤ 1048575 ∧ fit ∧ s.ss.groupsAt home < 1024) ∧ e.access .none (s.me.gval b) 8 .write = .ok (p, some t))
        := by
  refine ⟨?_, ?_, ?_⟩
  · exact ⟨9, 1, 2, strms [(2, strm0), (3, { strm0 with home := 1 })] (one joinTask), memAt 0x8000, tr0 0x8000, 2,
      2, 2, by (try dsimp only); unfold State.plain State.atRoot State.noRegion; decide +kernel, exc_ok
      (by decide +kernel)⟩
  · exact ⟨9, 1, 2,
      (let s := strms [(2, strm0), (3, strm0)] (one joinTask); { s with ss := { s.ss with groups := (List.range 1024).map fun k => (k, some ⟨0, 0, [], 0⟩) } }),
      memAt 0x8000, tr0 0x8000, 2, 2, 2,
      by (try dsimp only); unfold State.plain State.atRoot State.noRegion; decide +kernel, exc_ok (by decide +kernel)⟩
  · exact ⟨9, 1, 2, strms [(2, strm0), (3, strm0), (4, strm0)] (one joinTask), memAt 0x8000, tr0 0x8000, 2, 2, 2,
      by (try dsimp only); unfold State.plain State.atRoot State.noRegion; decide +kernel, exc_ok (by decide +kernel)⟩

theorem witness_GroupsReduce :
    (∃ (ms : List (Nat × BitVec 32)) (op : Nat) (k : Nat) (v : BitVec 32),
      op ≤ 1 ∧ (k, v) ∈ ms ∧ (FpFmt.f32.decode v.toNat).isNan = false) ∧
    (∃ (s : State) (n : Nat) (g : Group) (x : Nat) (y : Nat) (m : Stream) (q : Stream),
      (s.ev[0]? = some n ∧ tblGet none s.ss.groups n = some g ∧ g.op = 2 ∧ g.members = [x, y] ∧ x ≠ y ∧ s.ss.stream x = m ∧
        s.ss.stream y = q ∧ m.returned = true ∧ q.returned = true ∧ m.st ≠ .dead ∧ q.st ≠ .dead ∧ g.resultPa % 8 = 0 ∧ s.homeLives
        g.resultPa ∧ s.ms.checkOf (lineAddr g.resultPa) ≠ .single) ∧ s.noInjection) := by
  refine ⟨?_, ?_⟩
  · exact ⟨[(2, 0x3F800000), (9, 0x7FC00000), (3, 0x40000000)], 1, 3, 0x40000000, by decide +kernel⟩
  · exact ⟨at_ [4] (grouped (ret0 .idle 0x3F800000) (ret0 .waiting 0x40000000) (one joinTask)), 4, grp0, 2, 3,
      ret0 .idle 0x3F800000, ret0 .waiting 0x40000000, by unfold State.homeLives; decide +kernel, noInjection_ok
      (by decide +kernel)⟩

theorem witness_StreamsMigrate :
    (∃ (d : GReg) (a : GReg) (b : GReg) (s : State),
      let i := Instr.smigr d a b
      let k := (s.me.gval a).toNat
      let r := (s.me.gval b).toNat
      let m := s.strm k
      s.runs i = true ∧ s.plain ∧ 1 ≤ k ∧ k < 2 ^ 20 ∧ r < 2 ^ 56 ∧ r % 64 = 0 ∧ pkgOf r ≠ s.ws.own ∧ inWindow r = false ∧
        s.ws.reachable (pkgOf r) = true ∧ (m.st ≠ .idle ∨ m.group ≠ none)) ∧
    (∃ (d : GReg) (a : GReg) (b : GReg) (s : State),
      let i := Instr.smigr d a b
      let k := (s.me.gval a).toNat
      let r := (s.me.gval b).toNat
      let m := s.strm k
      s.runs i = true ∧ s.plain ∧ 1 ≤ k ∧ k < 2 ^ 20 ∧ r < 2 ^ 56 ∧ r % 64 = 0 ∧ pkgOf r ≠ s.ws.own ∧ inWindow r = false ∧
        s.ws.reachable (pkgOf r) = true ∧ m.st = .idle ∧ m.group = none ∧ s.released) ∧
    (∃ (d : GReg) (a : GReg) (b : GReg) (s : State),
      let i := Instr.smigr d a b
      let k := (s.me.gval a).toNat
      let r := (s.me.gval b).toNat
      s.runs i = true ∧ 1 ≤ k ∧ k < 2 ^ 20 ∧ (r % 64 ≠ 0 ∨ fieldOf (s.me.gval b) 55 40 = s.ws.own) ∧ s.hasHandler = true) ∧
    (∃ (d : GReg) (a : GReg) (b : GReg) (s : State) (keep : _) (v : _),
      let i := Instr.smigr d a b
      (2 ^ 63 ≤ v ∧ v < 2 ^ 64) ∧ s.answered i .smigr keep v) ∧
    (∃ (d : GReg) (a : GReg) (b : GReg) (s : State) (keep : _) (v : _),
      let i := Instr.smigr d a b
      2 ^ 64 ≤ v ∧ s.answered i .smigr keep v) ∧
    (∃ (d : GReg) (a : GReg) (b : GReg) (s : State) (keep : _) (v : _) (l : _),
      let i := Instr.smigr d a b
      let k := (s.me.gval a).toNat
      let m := s.strm k
      (v < 2 ^ 63 ∧ m.st = .idle ∧ m.group = none ∧ 1 < (s.ss.map m.map).refs ∧ m.launch = s.me.launch ∧ 1 < s.recOutstanding
        l.recAddr) ∧ s.answered i .smigr keep v ∧ s.openRecord l) ∧
    (∃ (s : State) (src : Nat) (req : Nat) (r : Nat) (rest : List Nat),
      (s.ev = src :: req :: r :: rest ∧ pkgOf r = s.ws.own ∧ r % 64 = 0 ∧ s.live (homeOf r) = true) ∧ ((∀ l ∈ s.ls.launches,
        l.recAddr ≠ s.peek r 8) ∨ s.recordsFull (homeOf r) = true)) ∧
    (∃ (s : State) (src : Nat) (req : Nat) (r : Nat) (pc : Nat) (h : Nat) (v : Nat) (b : Nat) (l : Launch)
      (id : Nat),
      (s.ev = [src, req, r, pc, h, v, b, 0] ∧ pkgOf r = s.ws.own ∧ r % 64 = 0 ∧ s.live (homeOf r) = true ∧ s.ls.launches.find?
        (fun l => l.recAddr = s.peek r 8) = some l ∧ s.launch? l.number = some l ∧ l.recAddr % 64 = 0 ∧ l.recAddr ≠ r ∧
        s.recCancel l.recAddr = false ∧ s.peek (l.recAddr + 16) 8 = 0 ∧ s.homeLives l.recAddr ∧ s.ms.checkOf l.recAddr ≠ .single ∧
        s.ms.checkOf r ≠ .single ∧ Memory.wf s.ms.mem = true ∧ s.recordsFull (homeOf r) = false ∧ s.strmRun l.asid 1 = some id) ∧
        s.noInjection) := by
  refine ⟨?_, ?_, ?_, ?_, ?_, ?_, ?_, ?_⟩
  · exact ⟨9, 1, 2, linked (strms [(2, { strm0 with st := .waiting })] (one migrTask)),
      by (try dsimp only); unfold State.plain State.atRoot State.noRegion; decide +kernel⟩
  · exact ⟨9, 1, 2, linked (strms [(2, strm0)] (one migrTask)),
      by (try dsimp only); unfold State.plain State.released State.atRoot State.noRegion; decide +kernel⟩
  · exact ⟨9, 1, 2, one { migrTask with g := [(1, 2), (2, 0x0000050000001008)] },
      by (try dsimp only); decide +kernel⟩
  · exact ⟨9, 1, 2,
      linked (strms [(2, strm0)] (one { answered0 .smigr [] 0x8100000000000000 with g := [(1, 2), (2, 0x0000050000001000)] })),
      [], 0x8100000000000000, by (try dsimp only); decide +kernel, answered_ok (by decide +kernel)⟩
  · exact ⟨9, 1, 2,
      linked (strms [(2, strm0)] (one { answered0 .smigr [] 0x10000000000000000 with g := [(1, 2), (2, 0x0000050000001000)] })),
      [], 0x10000000000000000, by (try dsimp only); decide +kernel, answered_ok (by decide +kernel)⟩
  · exact ⟨9, 1, 2,
      counted 3 (linked (strms [(2, strm0)] (one { answered0 .smigr [] 7 with g := [(1, 2), (2, 0x0000050000001000)] }))),
      [], 7, launch1, by (try dsimp only); decide +kernel, answered_ok (by decide +kernel), openRecord_ok
      (by decide +kernel)⟩
  · exact ⟨at_ [5, 6, 0x8000] (one migrTask), 5, 6, 0x8000, [], by decide +kernel, Or.inl (by decide +kernel)⟩
  · exact
      ⟨at_ [5, 6, 0x8000, 0x4000, 3, 4, 1, 0] (counted 3 (withMem [(0x8003, 0x30), (0x8008, 255)] (one migrTask))),
      5, 6, 0x8000, 0x4000, 3, 4, 1, launch1, 1, by unfold State.homeLives; decide +kernel, noInjection_ok
      (by decide +kernel)⟩

theorem witness_StreamEvents :
    (∃ (s : State) (d : Nat) (k : _) (c : _),
      s.ev[0]? = some d ∧ s.ss.waiting.find? (fun w => (s.ss.stream w.1).home = d && decide (w.2 + 2048 ≤ s.clock d)) = some (k,
        c)) ∧
    (∃ (s : State) (d : Nat) (b : _) (l : _) (t : _),
      s.ev[0]? = some d ∧ s.placeable d = some b ∧ s.stepSlots b = some (l, t, none) ∧ b.members.Nodup ∧ (∀ k ∈ b.members,
        (s.ss.stream k).st = .waiting)) ∧
    (∃ (s : State) (d : Nat),
      s.ev[0]? = some d ∧ (s.ss.page d).spilled = true ∧ (s.ss.page d).wanted = true ∧ ((s.ss.setPage d .none).pagesOf (s.ss.page
        d).home false).length < s.pf.fw.pageMiB * 16) := by
  refine ⟨?_, ?_, ?_⟩
  · exact ⟨at_ [0] (waiting0 (one joinTask)), 0, 3, 10, by decide +kernel⟩
  · exact ⟨at_ [0] (batched (one joinTask)), 0, ⟨0, 1, 0x4000, [3, 2]⟩, launch1, 8, by decide +kernel⟩
  · exact
      ⟨at_ [1] { one joinTask with pf := { (one joinTask).pf with fw := { (one joinTask).pf.fw with pageMiB := 64 } }, ss := { StrmSys.reset with pages := [(1, ⟨[(5, 6)], 1, 2, true, true, 0⟩)] } },
      1, by decide +kernel⟩

theorem witness_SpaceWaitsExpire :
    (∃ (s : State) (t : Nat) (limit : Nat),
      let x := s.slot t
      s.ev[0]? = some t ∧ (x.st = .parked ∨ x.st = .ready) ∧ x.timer = some limit ∧ limit ≤ s.clock (dieOf t) ∧ x.partner = none ∧
        x.intrap = false ∧ x.trapVec ≠ 0 ∧ x.wait = .space) ∧
    (∃ (s : State) (t : Nat) (limit : Nat),
      let x := s.slot t
      s.ev[0]? = some t ∧ (x.st = .parked ∨ x.st = .ready) ∧ x.timer = some limit ∧ limit ≤ s.clock (dieOf t) ∧ x.partner = none ∧
        x.intrap = false ∧ x.trapVec ≠ 0 ∧ x.wait = .page) := by
  refine ⟨?_, ?_⟩
  · exact ⟨at_ [0] (timed 9 (one (parkedSpace .space))), 0, 9, by (try dsimp only); decide +kernel⟩
  · exact ⟨at_ [0] (timed 9 (one (parkedSpace .page))), 0, 9, by (try dsimp only); decide +kernel⟩

theorem witness_NotInstructionWords :
    ∃ (w : _),
      w / 2 ^ 28 % 16 = 0xF := by
  exact ⟨0xF0000000, by decide +kernel⟩

theorem witness_EncodingRoundTrips :
    ∃ (i : Instr) (bs : List Byte) (rest : List Byte),
      i.WF ∧ encode i = some bs := by
  exact ⟨.add 10 8 9, (wordBytes 0x00148480), [7], by decide +kernel⟩

theorem witness_EveryBitRead :
    ∃ (i : Instr) (bs : List Byte) (rest : List Byte),
      decode bs = .ok (i, rest) := by
  exact ⟨.add 10 8 9, wordBytes 0x00148480 ++ [7], [7], exc_ok (by decide +kernel)⟩

theorem witness_StepRunsDecoded :
    (∃ (s : State) (t : Nat) (p : Place) (tr : Trans) (i : _) (rest : _),
      let f : State := { s with cur := t }
      let pc := (s.slot t).pc
      let bytes := (List.range 4).map fun k => s.byteAt (tr.pa + k)
      (s.agenda = [] ∧ s.chosen = some t ∧ pc.toNat ≠ 2 ^ 56 ∧ s.ms.checkOf (lineAddr tr.pa) = .good ∧ s.heldLine (lineAddr tr.pa)
        = false ∧ Memory.wf s.ms.mem = true) ∧ f.access .none pc 4 .fetch = .ok (p, some tr) ∧ decode bytes = .ok (i, rest)) ∧
    (∃ (s : State) (t : Nat) (p : Place) (tr : Trans) (e : _),
      let f : State := { s with cur := t }
      let pc := (s.slot t).pc
      let bytes := (List.range 4).map fun k => s.byteAt (tr.pa + k)
      (s.agenda = [] ∧ s.chosen = some t ∧ pc.toNat ≠ 2 ^ 56 ∧ s.ms.checkOf (lineAddr tr.pa) = .good ∧ s.heldLine (lineAddr tr.pa)
        = false ∧ Memory.wf s.ms.mem = true ∧ f.hasHandler = true) ∧ f.access .none pc 4 .fetch = .ok (p, some tr) ∧ decode bytes
        = .error e) := by
  refine ⟨?_, ?_⟩
  · exact ⟨wordAt 0x1000 0x00148480 (one { task g1 with g := [(8, 3), (9, 4)] }), 0, .mem 0x1000 0x1000 true,
      tr0 0x1000, .add 10 8 9, [], by (try dsimp only); decide +kernel, exc_ok (by decide +kernel), exc_ok
      (by decide +kernel)⟩
  · exact ⟨wordAt 0x1000 0xF0148480 (one (task g1)), 0, .mem 0x1000 0x1000 true, tr0 0x1000, .notAWord,
      by (try dsimp only); decide +kernel, exc_ok (by decide +kernel), exc_err (by decide +kernel)⟩

theorem witness_MemoryStaysCanonical :
    ∃ (s : State) (u : State),
      Memory.wf s.ms.mem = true ∧ Machine.step s = .next u := by
  exact ⟨State.reset, nextOf (Machine.step State.reset), by decide +kernel, next_ok (by decide +kernel)⟩

theorem witness_Repeats :
    (∃ (count : BitVec 6) (sd : Bool) (sa : Bool) (sb : Bool) (stride : Stride) (s : State) (w : Nat) (j : Instr)
      (rest : List Byte) (f : Option StepField × Option StepField × Option StepField),
      let n := count.toNat + 1
      let by_ (b : Bool) : Nat := if b then stride.step else 0
      let q : Seq_ := ⟨n, by_ sd, by_ sa, by_ sb, j⟩
      (s.clear = true ∧ s.me.tretRep = false ∧ repFields j = some f ∧ isQueuedVec j = true ∧ count ≠ 0 ∧ stepBitBad f.1 (by_ sd) =
        false ∧ stepBitBad f.2.1 (by_ sa) = false ∧ stepBitBad f.2.2 (by_ sb) = false ∧ q.fails f s.me.part s.me.priv = false ∧ (∀
        k, k < n → names31 (q.at k) = false) ∧ n ≤ s.me.yieldLeft.toNat ∧ s.here.vq.length + n ≤ 16) ∧ fetchWord (s.me.pc +
        4).toNat s = .ok w s ∧ decode (wordBytes w) = .ok (j, rest)) ∧
    (∃ (count : BitVec 6) (sd : Bool) (sa : Bool) (sb : Bool) (stride : Stride) (s : State) (w : Nat) (j : Instr)
      (rest : List Byte) (f : Option StepField × Option StepField × Option StepField),
      (s.clear = true ∧ s.me.tretRep = false ∧ count = 0 ∧ s.hasHandler = true) ∧ fetchWord (s.me.pc + 4).toNat s = .ok w s) ∧
    (∃ (count : BitVec 6) (sd : Bool) (sa : Bool) (sb : Bool) (stride : Stride) (s : State) (w : Nat) (j : Instr)
      (rest : List Byte) (f : Option StepField × Option StepField × Option StepField),
      (s.clear = true ∧ s.me.tretRep = false ∧ count ≠ 0 ∧ repFields j = none ∧ s.hasHandler = true) ∧ fetchWord (s.me.pc +
        4).toNat s = .ok w s ∧ decode (wordBytes w) = .ok (j, rest)) := by
  refine ⟨?_, ?_, ?_⟩
  · exact ⟨3, true, false, true, .x1, repState (wordOf (.vadd .f32 1 2 3 0)), wordOf (.vadd .f32 1 2 3 0),
      .vadd .f32 1 2 3 0, [], ((repFields (.vadd .f32 1 2 3 0)).getD (none, none, none)),
      by (try dsimp only); decide +kernel, res_ok (by decide +kernel), exc_ok (by decide +kernel)⟩
  · exact ⟨0, true, false, true, .x1, repState 5, 5, .quit, [], (none, none, none), by decide +kernel, res_ok
      (by decide +kernel)⟩
  · exact ⟨3, true, false, true, .x1, repState (wordOf .quit), wordOf .quit, .quit, [], (none, none, none),
      by decide +kernel, res_ok (by decide +kernel), exc_ok (by decide +kernel)⟩

theorem witness_SignalPackets :
    (∃ (s : State) (key : Nat) (q : Queue) (p : Nat) (pa : Nat),
      (q.replay = none ∧ q.next + 1 < 2 ^ 64 ∧ p / 2 ^ 16 % 2 ^ 48 = 0 ∧ p / 2 ^ 192 = 0 ∧ dword p 1 % 8 = 0) ∧ s.takes key q p
        0x04 ∧ s.reaches key q (dword p 1) 8 .rmw pa) ∧
    (∃ (s : State) (key : Nat) (q : Queue) (p : Nat) (pa : Nat),
      (q.replay = none ∧ q.next + 1 < 2 ^ 64 ∧ p / 2 ^ 16 % 2 ^ 48 = 0 ∧ p / 2 ^ 128 = 0 ∧ dword p 1 % 8 = 0 ∧ dword p 1 ≠ 0) ∧
        s.takes key q p 0x09 ∧ s.reaches key q (dword p 1) 8 .rmw pa) ∧
    (∃ (s : State) (key : Nat) (q : Queue) (p : Nat) (pa : Nat),
      (q.replay = none ∧ q.next + 1 < 2 ^ 64 ∧ p / 2 ^ 18 % 2 ^ 46 = 0 ∧ p / 2 ^ 16 % 4 ≠ 3 ∧ p / 2 ^ 128 = 0 ∧ dword p 1 % 64 = 0
        ∧ s.recLevel pa = p / 2 ^ 16 % 4 ∧ s.recAsid pa = s.qAsid q.qcb ∧ s.recStatus pa = 0 ∧ s.recCancel pa = false ∧ (∀ l ∈
        s.ls.launches, l.left = 0) ∧ s.ss.streams = [] ∧ (pa + 64 ≤ q.qcb ∨ q.qcb + 128 ≤ pa)) ∧ s.takes key q p 0x06 ∧ s.reaches
        key q (dword p 1) 8 .write pa) := by
  refine ⟨?_, ?_, ?_⟩
  · exact ⟨qs (held [0x04, 0x8008, 5]) [0x04, 0x8008, 5] [(0x8008, 3)], 0, (held [0x04, 0x8008, 5]),
      numOf [0x04, 0x8008, 5], 0x8008, by decide +kernel, takes_ok (by decide +kernel) (qcbOk_ok (by decide +kernel)),
      reaches_ok (by decide +kernel)⟩
  · exact ⟨qs (held [0x09, 0x8008]) [0x09, 0x8008] [(0xA050, 9), (0xA05F, 4)], 0, (held [0x09, 0x8008]),
      numOf [0x09, 0x8008], 0x8008, by decide +kernel, takes_ok (by decide +kernel) (qcbOk_ok (by decide +kernel)),
      reaches_ok (by decide +kernel)⟩
  · exact ⟨qs (held [0x10006, 0x8000]) [0x10006, 0x8000] [(0x8009, 4), (0x800A, 1)], 0, (held [0x10006, 0x8000]),
      numOf [0x10006, 0x8000], 0x8000, by decide +kernel, takes_ok (by decide +kernel) (qcbOk_ok (by decide +kernel)),
      reaches_ok (by decide +kernel)⟩

theorem witness_WaitingPackets :
    (∃ (s : State) (key : Nat) (q : Queue) (p : Nat) (pa : Nat),
      (q.replay = none ∧ q.next + 1 < 2 ^ 64 ∧ p / 2 ^ 16 % 2 ^ 48 = 0 ∧ p / 2 ^ 192 = 0 ∧ dword p 1 % 8 = 0) ∧ s.takes key q p
        0x03 ∧ s.reaches key q (dword p 1) 8 .read pa) ∧
    (∃ (s : State) (key : Nat) (q : Queue) (p : Nat) (pa : Nat) (sig : _) (v : _),
      (q.replay = none ∧ q.next + 1 < 2 ^ 64 ∧ s.ev = [key] ∧ s.queue key = some q ∧ q.mapped = true ∧ q.blocked = .waitLe sig v ∧
        (BitVec.ofNat 64 (s.peek pa 8)).toInt ≤ v ∧ q.packet = some p) ∧ s.qcbOk q.qcb ∧ s.reaches key q sig 8 .read pa) ∧
    (∃ (s : State) (key : Nat) (q : Queue) (p : Nat) (pa : Nat),
      (q.replay = none ∧ q.next + 1 < 2 ^ 64 ∧ p / 2 ^ 16 % 2 ^ 48 = 0 ∧ dword p 6 = 0 ∧ dword p 7 = 0 ∧ (∀ g ∈ depSignals p, g %
        8 = 0)) ∧ s.takes key q p 0x05 ∧ (∃ vs, mapEach (fun g => qRead key q.qcb g 8) (depSignals p) s = .ok vs s)) ∧
    (∃ (s : State) (key : Nat) (q : Queue) (p : Nat) (pa : Nat) (sigs : _) (vs : _),
      (q.replay = none ∧ q.next + 1 < 2 ^ 64 ∧ s.ev = [key] ∧ s.queue key = some q ∧ q.mapped = true ∧ q.blocked = .allZero sigs ∧
        s.unblocked key q = true ∧ q.packet = some p ∧ dword p 7 ≠ 0) ∧ s.qcbOk q.qcb ∧ mapEach (fun g => qRead key q.qcb g 8)
        (depSignals p) s = .ok vs s ∧ s.reaches key q (dword p 7) 8 .rmw pa) := by
  refine ⟨?_, ?_, ?_, ?_⟩
  · exact ⟨qs (held [0x03, 0x8008, 0xFFFFFFFFFFFFFFFF]) [0x03, 0x8008, 0xFFFFFFFFFFFFFFFF] [(0x8008, 3)], 0,
      (held [0x03, 0x8008, 0xFFFFFFFFFFFFFFFF]), numOf [0x03, 0x8008, 0xFFFFFFFFFFFFFFFF], 0x8008, by decide +kernel,
      takes_ok (by decide +kernel) (qcbOk_ok (by decide +kernel)), reaches_ok (by decide +kernel)⟩
  · exact ⟨qs { held [0x03, 0x8008, 3] with blocked := .waitLe 0x8008 3 } [0x03, 0x8008, 3] [(0x8008, 3)], 0,
      { held [0x03, 0x8008, 3] with blocked := .waitLe 0x8008 3 }, numOf [0x03, 0x8008, 3], 0x8008, 0x8008, 3,
      by decide +kernel, qcbOk_ok (by decide +kernel), reaches_ok (by decide +kernel)⟩
  · exact ⟨qs (held [0x05, 0x8008, 0x8010]) [0x05, 0x8008, 0x8010] [(0x8008, 3)], 0, (held [0x05, 0x8008, 0x8010]),
      numOf [0x05, 0x8008, 0x8010], 0, by decide +kernel, takes_ok (by decide +kernel) (qcbOk_ok (by decide +kernel)),
      ⟨_, res_ok (b := [3, 0]) (by decide +kernel)⟩⟩
  · exact
      ⟨qs { held [0x05, 0, 0x8010, 0, 0, 0, 0, 0x8008] with blocked := .allZero [0x8010] } [0x05, 0, 0x8010, 0, 0, 0, 0, 0x8008] [(0x8008, 3)],
      0, { held [0x05, 0, 0x8010, 0, 0, 0, 0, 0x8008] with blocked := .allZero [0x8010] },
      numOf [0x05, 0, 0x8010, 0, 0, 0, 0, 0x8008], 0x8008, [0x8010], [0], by decide +kernel, qcbOk_ok
      (by decide +kernel), res_ok (by decide +kernel), reaches_ok (by decide +kernel)⟩

theorem witness_ReplayPackets :
    (∃ (s : State) (key : Nat) (q : Queue) (p : Nat) (pa : Nat),
      (q.next + 1 < 2 ^ 64 ∧ p / 2 ^ 16 % 2 ^ 48 = 0 ∧ p / 2 ^ 256 = 0 ∧ dword p 1 < 2 ^ 32 ∧ dword p 2 = 0 ∧ dword p 3 % 8 = 0 ∧
        dword p 3 ≠ 0 ∧ q.replay = none) ∧ s.takes key q p 0x07 ∧ s.reaches key q (dword p 3) 8 .write pa) ∧
    (∃ (s : State) (key : Nat) (q : Queue) (p : Nat) (pa : Nat) (r : Replay),
      (q.next + 1 < 2 ^ 64 ∧ p / 2 ^ 16 % 2 ^ 48 = 0 ∧ p / 2 ^ 64 = 0 ∧ q.replay = some r ∧ r.stop = 0 ∧ r.iter + 1 < 2 ^ 32 ∧
        r.iterWord ≠ 0 ∧ r.count = r.iter + 1) ∧ s.takes key q p 0x08 ∧ s.reaches key q r.iterWord 8 .write pa) ∧
    (∃ (s : State) (key : Nat) (q : Queue) (p : Nat) (pa : Nat) (r : Replay),
      (q.next + 1 < 2 ^ 64 ∧ p / 2 ^ 16 % 2 ^ 48 = 0 ∧ p / 2 ^ 64 = 0 ∧ q.replay = some r ∧ r.stop = 0 ∧ r.iter + 1 < 2 ^ 32 ∧
        r.iterWord ≠ 0 ∧ (r.count = 0 ∨ r.iter + 1 < r.count)) ∧ s.takes key q p 0x08 ∧ s.reaches key q r.iterWord 8 .write pa) :=
        by
  refine ⟨?_, ?_, ?_⟩
  · exact ⟨qs (held [0x07, 7, 0, 0x8008]) [0x07, 7, 0, 0x8008] [(0x8008, 3)], 0, (held [0x07, 7, 0, 0x8008]),
      numOf [0x07, 7, 0, 0x8008], 0x8008, by decide +kernel, takes_ok (by decide +kernel) (qcbOk_ok
      (by decide +kernel)), reaches_ok (by decide +kernel)⟩
  · exact ⟨qs { held [0x08] with replay := some (replay0 4 3) } [0x08] [], 0,
      { held [0x08] with replay := some (replay0 4 3) }, 8, 0x8008, replay0 4 3, by decide +kernel, takes_ok
      (by decide +kernel) (qcbOk_ok (by decide +kernel)), reaches_ok (by decide +kernel)⟩
  · exact ⟨qs { held [0x08] with replay := some (replay0 4 2) } [0x08] [(0xA05C, 1)], 0,
      { held [0x08] with replay := some (replay0 4 2) }, 8, 0x8008, replay0 4 2, by decide +kernel, takes_ok
      (by decide +kernel) (qcbOk_ok (by decide +kernel)), reaches_ok (by decide +kernel)⟩

theorem witness_ReservedAndCopyPackets :
    (∃ (s : State) (key : Nat) (q : Queue) (p : Nat),
      (0x0A ≤ p % 256 ∧ q.next < 2 ^ 64) ∧ s.takes key q p (p % 256)) ∧
    (∃ (s : State) (key : Nat) (q : Queue) (p : Nat) (c : _) (pl : _) (pl' : _) (t : _) (t' : _),
      (p / 2 ^ 16 % 2 ^ 48 = 0 ∧ dword p 3 / 2 ^ 48 = 0 ∧ 0 < dword p 3 % 2 ^ 32 ∧ dword p 6 = 0 ∧ dword p 7 = 0 ∧ q.replay = none
        ∧ q.next + 1 < 2 ^ 64 ∧ sideIn (dword p 1) (extent (copyGeometry p) (copyGeometry p).s) (2 ^ 56) ∧ sideIn (dword p 2)
        (extent (copyGeometry p) (copyGeometry p).t) (2 ^ 56) ∧ s.freeCarter (queueDie key) = some c) ∧ s.takes key q p 0x02 ∧
        checkPlace s (s.qAgent key q.qcb) .none (BitVec.ofNat 64 (dword p 1)) 1 .read = .ok (pl, some t) ∧ checkPlace s (s.qAgent
        key q.qcb) .none (BitVec.ofNat 64 (dword p 2)) 1 .write = .ok (pl', some t')) ∧
    (∃ (s : State) (key : Nat) (q : Queue) (p : Nat),
      (q.next < 2 ^ 64 ∧ (¬sideIn (dword p 1) (extent (copyGeometry p) (copyGeometry p).s) (2 ^ 56) ∨ ¬sideIn (dword p 2) (extent
        (copyGeometry p) (copyGeometry p).t) (2 ^ 56))) ∧ s.takes key q p 0x02) := by
  refine ⟨?_, ?_, ?_⟩
  · exact ⟨qs (held [0x0A]) [0x0A] [], 0, (held [0x0A]), 0x0A, by decide +kernel, takes_ok (by decide +kernel) (qcbOk_ok
      (by decide +kernel))⟩
  · exact
      ⟨qs (held [0x202, 0x8000, 0x9000, 0x100000010, 0x40, 0x40]) [0x202, 0x8000, 0x9000, 0x100000010, 0x40, 0x40] [],
      0, (held [0x202, 0x8000, 0x9000, 0x100000010, 0x40, 0x40]),
      numOf [0x202, 0x8000, 0x9000, 0x100000010, 0x40, 0x40], 0, memAt 0x8000, memAt 0x9000, tr0 0x8000, tr0 0x9000,
      by unfold sideIn; decide +kernel, takes_ok (by decide +kernel) (qcbOk_ok (by decide +kernel)), exc_ok
      (by decide +kernel), exc_ok (by decide +kernel)⟩
  · exact
      ⟨qs (held [0x202, 0xFFFFFFFFFFFF00, 0x9000, 0x1000000010, 0x40, 0x400]) [0x202, 0xFFFFFFFFFFFF00, 0x9000, 0x1000000010, 0x40, 0x400] [],
      0, (held [0x202, 0xFFFFFFFFFFFF00, 0x9000, 0x1000000010, 0x40, 0x400]),
      numOf [0x202, 0xFFFFFFFFFFFF00, 0x9000, 0x1000000010, 0x40, 0x400], by unfold sideIn; decide +kernel, takes_ok
      (by decide +kernel) (qcbOk_ok (by decide +kernel))⟩

theorem witness_QueueEvents :
    (∃ (s : State) (key : Nat) (q : Queue),
      s.ev = [key] ∧ s.queue key = some q ∧ q.notified = true ∧ q.mapped = false) ∧
    (∃ (s : State) (key : Nat) (q : Queue) (p : _),
      let now := s.clock (queueDie key)
      let w := s.qWords q.qcb
      (s.ev = [key] ∧ s.queue key = some q ∧ q.mapped = true ∧ q.packet = none ∧ q.blocked = .no ∧ q.waitingSince + 65536 ≤ now ∧
        w.error = false ∧ q.replay = none ∧ s.live (homeOf q.qcb) = true ∧ s.ms.checkOf q.qcb = .good ∧ s.ms.checkOf (q.qcb + 64)
        = .good ∧ s.hyps.cur = none) ∧ qEntry key q.qcb q.next s = .ok p s) ∧
    (∃ (s : State) (key : Nat) (q : Queue) (qcb : _),
      s.ev = [key] ∧ key < 4096 ∧ s.live (queueDie key) = true ∧ s.queue key = none ∧ s.tableQcb key = some qcb) ∧
    (∃ (s : State) (key : Nat) (q : Queue),
      s.ev = [key] ∧ key < 4096 ∧ s.live (queueDie key) = true ∧ s.queue key = some q ∧ q.mapped = true ∧ s.tableQcb key ≠ some
        q.qcb) ∧
    (∃ (s : State) (key : Nat) (q : Queue) (v : _) (m : _),
      s.ev = [key] ∧ s.queue key = some q ∧ s.waitVictim key q = some v ∧ s.queue v = some m) ∧
    (∃ (s : State) (key : Nat) (q : Queue),
      s.ev = [key] ∧ s.queue key = some q ∧ q.mapped = true ∧ q.blocked ≠ .launch ∧ q.unmapping = true ∧ s.tableQcb key = some
        q.qcb) ∧
    (∃ (s : State) (key : Nat) (q : Queue),
      s.ev = [key] ∧ s.queue key = some q ∧ q.mapped = true ∧ q.blocked ≠ .launch ∧ q.unmapping = true ∧ s.tableQcb key ≠ some
        q.qcb) ∧
    (∃ (s : State) (key : Nat) (q : Queue) (k : _),
      let w := s.qWords q.qcb
      (s.ev = [key] ∧ s.live key = true ∧ s.threadsFull key = false ∧ s.firstToMap (s.runnableQueues key) = some (k, q) ∧ s.queue
        k = some q ∧ w.off = 0) ∧ s.qcbOk q.qcb) ∧
    (∃ (s : State) (key : Nat) (q : Queue),
      let w := s.qWords q.qcb
      (s.ev = [key] ∧ s.queue key = some q ∧ q.mapped = true ∧ w.off = 0) ∧ s.qcbOk q.qcb) := by
  refine ⟨?_, ?_, ?_, ?_, ?_, ?_, ?_, ?_, ?_⟩
  · exact ⟨qs { idleQ with notified := true } [4] [], 0, { idleQ with notified := true }, by decide +kernel⟩
  · exact ⟨timed 70000 (qs queue0 [4] []), 0, queue0, 4, by (try dsimp only); decide +kernel, res_ok
      (by decide +kernel)⟩
  · exact ⟨{ tabled (qs queue0 [4] []) with ev := [1], fs := FacSys.reset }, 1, idleQ, 0xA000, by decide +kernel⟩
  · exact ⟨tabled (qs queue0 [4] []), 0, queue0, by decide +kernel⟩
  · exact
      ⟨timed 2000000 { qs idleQ [4] [] with fs := { FacSys.reset with queues := (0, some { idleQ with runnable := true }) :: (List.range 32).map fun k => (k + 1, some queue0) } },
      0, { idleQ with runnable := true }, 1, queue0, by decide +kernel⟩
  · exact
      ⟨{ tabled (qs queue0 [4] []) with ev := [1], fs := { FacSys.reset with queues := [(1, some { queue0 with unmapping := true })] } },
      1, { queue0 with unmapping := true }, by decide +kernel⟩
  · exact ⟨tabled (qs { queue0 with unmapping := true } [4] []), 0, { queue0 with unmapping := true },
      by decide +kernel⟩
  · exact
      ⟨{ qs idleQ [4] [] with fs := { FacSys.reset with queues := [(5, some { idleQ with runnable := true })] } },
      0, { idleQ with runnable := true }, 5, by (try dsimp only); decide +kernel, qcbOk_ok (by decide +kernel)⟩
  · exact ⟨qs { queue0 with blocked := .launch, next := 7 } [4] [], 0,
      { queue0 with blocked := .launch, next := 7 }, by (try dsimp only); decide +kernel, qcbOk_ok
      (by decide +kernel)⟩

theorem witness_QueueRestarts :
    (∃ (s : State) (key : Nat) (q : Queue),
      let w := s.qWords q.qcb
      let r := s.qRestart q.qcb
      (s.ev = [key] ∧ s.queue key = some q ∧ q.mapped = true ∧ q.restart = true ∧ w.error = true ∧ s.live (homeOf q.qcb) = true ∧
        w.readIndex ≤ r ∧ r ≤ s.qWrite q.qcb) ∧ s.qcbOk q.qcb) ∧
    (∃ (s : State) (key : Nat) (q : Queue),
      let w := s.qWords q.qcb
      let r := s.qRestart q.qcb
      (s.ev = [key] ∧ s.queue key = some q ∧ q.mapped = true ∧ q.restart = true ∧ w.error = true ∧ s.live (homeOf q.qcb) = true ∧
        (r < w.readIndex ∨ s.qWrite q.qcb < r)) ∧ s.qcbOk q.qcb) := by
  refine ⟨?_, ?_⟩
  · exact ⟨qs { queue0 with restart := true } [4] [(0xA018, 3), (0xA05E, 1)], 0,
      { queue0 with restart := true }, by (try dsimp only); decide +kernel, qcbOk_ok (by decide +kernel)⟩
  · exact ⟨qs { queue0 with restart := true } [4] [(0xA018, 4), (0xA05E, 1)], 0,
      { queue0 with restart := true }, by (try dsimp only); decide +kernel, qcbOk_ok (by decide +kernel)⟩

theorem witness_LaunchesAccepted :
    (∃ (s : State) (key : Nat) (q : Queue) (p : Nat) (n : Nat) (w : LaunchPlaces),
      (q.replay = none ∧ q.next + 1 < 2 ^ 64 ∧ launchMalformed p = false) ∧ s.takes key q p 0x01 ∧ launchPlaces key q p s = .ok w
        s) ∧
    (∃ (s : State) (key : Nat) (q : Queue) (p : Nat) (n : Nat) (w : LaunchPlaces),
      let x : State := { s with free := s.free + 1 }
      let ds := launchDies p &&& s.pf.live
      (q.replay = none ∧ q.next + 1 < 2 ^ 64 ∧ s.ev = [key] ∧ s.queue key = some q ∧ q.mapped = true ∧ q.blocked = .launch ∧
        q.packet = some p ∧ launchFails p (s.qWorld q.qcb) s.pf.live = false ∧ launchDep p = false ∧ ds ≠ 0 ∧ launchGraph p = 0 ∧
        w.record % 64 = 0 ∧ s.homeLives w.record ∧ (w.record + 64 ≤ q.qcb ∨ q.qcb + 128 ≤ w.record)) ∧ s.qcbOk q.qcb ∧
        s.freeNumber (Config.freeWord s.free).toNat = some n ∧ launchPlaces key q p x = .ok w x) := by
  refine ⟨?_, ?_⟩
  · exact ⟨qs (held launchWords) launchWords [], 0, (held launchWords), numOf launchWords, 0,
      ⟨0x8000, some 0x8048, [], []⟩, by decide +kernel, takes_ok (by decide +kernel) (qcbOk_ok (by decide +kernel)),
      res_ok (by decide +kernel)⟩
  · exact ⟨{ qs { held launchWords with blocked := .launch } launchWords [] with ls := LaunchSys.reset }, 0,
      { held launchWords with blocked := .launch }, numOf launchWords, (Config.freeWord 0).toNat % 65536,
      ⟨0x8000, some 0x8048, [], []⟩, by (try dsimp only); unfold State.homeLives; decide +kernel, qcbOk_ok
      (by decide +kernel), freeNumber_ok (by decide +kernel), res_ok (by decide +kernel)⟩

theorem witness_ChunksHandedOut :
    ∃ (s : State) (n : Nat) (die : Nat) (c : Nat) (l : Launch),
      s.ev = [n, die] ∧ s.launch? n = some l ∧ l.faulted = false ∧ l.lost = false ∧ s.recCancelled l.recAddr = false ∧ l.dep =
        false ∧ l.dies.getLsbD die = true ∧ s.live die = true ∧ l.handed < l.count ∧ tblGet [] l.chunks die = [] ∧ s.nextCoreFor l
        die = some c := by
  exact ⟨{ withLaunch (grid 100) (one (task g1)) with ev := [1, 2] }, 1, 2, 2048, grid 100, by decide +kernel⟩

theorem witness_TasksCreated :
    ∃ (s : State) (die : Nat) (i : Nat) (core : Nat) (t : Nat) (again : Bool) (dep : Bool) (l : Launch),
      s.ev = [die] ∧ s.live die = true ∧ s.serves die = some l ∧ s.launch? l.number = some l ∧ l.dep = dep ∧ l.nextIndex die =
        some (i, again) ∧ s.nextCoreFor l die = some core ∧ s.freeSlotOn core = some t ∧ l.paired = false ∧ l.reissuable = false ∧
        l.chmode = 0 := by
  exact
    ⟨{ withLaunch { grid 100 with sx := 10, sy := 10, chunks := [(0, [57, 58])] } (one (task g1)) with ev := [0] },
    0, 57, 1, 8, false, false, { grid 100 with sx := 10, sy := 10, chunks := [(0, [57, 58])] },
    by decide +kernel⟩

theorem witness_TasksEnd :
    (∃ (s : State) (t : Nat) (l : Launch),
      let x := s.slot t
      (s.ev = [t] ∧ x.st = .ending ∧ s.drainedOf t = true ∧ x.engFaults = [] ∧ x.barReg = [] ∧ x.regions = [] ∧ x.wc = [] ∧
        x.shadow = false ∧ x.stepTask = false ∧ (∀ y ∈ s.ms.l1, y.cell = cellOf t → y.dirty = 0) ∧ s.launch? x.launch = some l ∧
        l.reissuable = false ∧ l.recAddr % 64 = 0 ∧ s.homeLives l.recAddr ∧ s.ms.checkOf l.recAddr ≠ .single ∧ 1 <
        s.recOutstanding l.recAddr) ∧ s.noInjection) ∧
    (∃ (s : State) (f : Finish) (rest : List Finish) (l : Launch),
      (s.ls.finishing = f :: rest ∧ s.hyps.cur = none ∧ f.region ≠ 0 ∧ (s.hyps.get f.region).st = .opened ∧ f.confirm = false ∧
        s.launch? f.launch = some l ∧ l.recAddr % 64 = 0 ∧ s.homeLives l.recAddr ∧ s.ms.checkOf l.recAddr ≠ .single ∧ 1 <
        s.recOutstanding l.recAddr) ∧ s.noInjection) := by
  refine ⟨?_, ?_⟩
  · exact ⟨{ counted 3 (withLaunch launch1 (one { task g1 with st := .ending })) with ev := [0] }, 0, launch1,
      by (try dsimp only); unfold State.homeLives; decide +kernel, noInjection_ok (by decide +kernel)⟩
  · exact
      ⟨{ counted 3 (withHyps hyps0 (withLaunch { launch1 with reissuable := true } (one (task g1)))) with ls := { LaunchSys.reset with launches := [{ launch1 with reissuable := true }], finishing := [⟨1, 4, 3, false⟩] } },
      ⟨1, 4, 3, false⟩, [], { launch1 with reissuable := true }, by unfold State.homeLives; decide +kernel,
      noInjection_ok (by decide +kernel)⟩

theorem witness_Preemption :
    (∃ (s : State) (die : Nat) (l : Launch),
      let asked : State := { s with ls := { s.ls with preempt := s.ls.preempt ++ [(l.number, die)] } }
      s.ev = [die] ∧ s.preemptVictim die = some l ∧ s.ls.preempt.contains (l.number, die) = false ∧ asked.saveable die = []) ∧
    (∃ (s : State) (n : Nat) (core : Nat) (key : Nat) (c : SavedCtx) (m : SavedCore) (x : Slot) (l : Launch),
      s.ev = [n, core] ∧ s.ls.saved[n]? = some c ∧ s.resumesWith c = [c] ∧ c.slots = [(key, x)] ∧ (∀ d ∈ s.ls.saved, d ≠ c →
        d.bundle ≠ c.bundle ∧ ¬(key, x) ∈ d.slots) ∧ x.partner = none ∧ c.shared = some m ∧ c.cmds = [] ∧ s.takesContext c core =
        true ∧ s.launch? c.launch = some l ∧ (∀ w ∈ s.waitingOn (core / 1024), s.before (core / 1024) w l = false)) := by
  refine ⟨?_, ?_⟩
  · exact ⟨{ full (one (task g1)) with ev := [0] }, 0, launch1, by (try dsimp only); decide +kernel⟩
  · exact ⟨savedState, 0, 1, 3, saved0, ⟨0x002E000000000041, [], [(7, 8)], [(0, 1)], [], []⟩, task [(9, 5)], launch1,
      by decide +kernel⟩

theorem witness_WaitsEnd :
    (∃ (s : State) (t : Nat),
      s.ev = [t] ∧ (s.slot t).st = .parked) ∧
    (∃ (s : State) (t : Nat) (n : Nat) (line : Nat) (limit : Nat) (d : GReg) (a : GReg) (b : GReg)
      (wd : AmoWidth) (rest : List Byte),
      let f : State := { s with cur := t }
      let i := Instr.wrs d a b wd
      (s.ev = [t] ∧ (s.slot t).st = .parked ∧ (s.slot t).wait = .wrs ∧ (s.slot t).resv = some ⟨line, false⟩ ∧ (s.slot t).timer =
        some limit ∧ limit ≤ s.clock (dieOf t) ∧ (s.slot t).partner = none ∧ d ≠ 31 ∧ a ≠ 31 ∧ b ≠ 31) ∧ fetchWord (s.slot
        t).pc.toNat f = .ok n f ∧ decode (wordBytes n) = .ok (i, rest)) := by
  refine ⟨?_, ?_⟩
  · exact ⟨at_ [0] (one { task g1 with st := .parked, wait := .channel }), 0, by decide +kernel⟩
  · exact
      ⟨at_ [0] (timed 50 (wordAt 0x1000 (wordOf (.wrs 3 4 5 .d)) (one { task g1 with st := .parked, wait := .wrs, resv := some ⟨0x8000, false⟩, timer := some 50 }))),
      0, wordOf (.wrs 3 4 5 .d), 0x8000, 50, 3, 4, 5, .d, [], by (try dsimp only); decide +kernel, res_ok
      (by decide +kernel), exc_ok (by decide +kernel)⟩

theorem witness_LinesReplaced :
    (∃ (s : State) (cell : Nat) (asid : Nat) (va : Nat) (k : Nat) (x : L1Line),
      (s.ev = [cell, asid, va, k] ∧ s.ms.l1Find cell (BitVec.ofNat 16 asid) va k = some x ∧ x.hyp = 0 ∧ x.pa % 64 = 0 ∧ x.check =
        .good ∧ s.ms.checkOf x.pa ≠ .single ∧ s.heldLine x.pa = false ∧ s.homeLives x.pa) ∧ s.noInjection) ∧
    (∃ (s : State) (a : Nat) (rest : List Nat),
      s.ev = a :: rest ∧ pkgOf (lineAddr a) = s.ws.own ∧ s.live (homeOf (lineAddr a)) = true) := by
  refine ⟨?_, ?_⟩
  · exact ⟨at_ [0, 0, 0x8000, 0] (withL1 (one (task g1))), 0, 0, 0x8000, 0, lineL1,
      by unfold State.homeLives; decide +kernel, noInjection_ok (by decide +kernel)⟩
  · exact ⟨at_ [0x8010] (withL1 (one (task g1))), 0x8010, [], by decide +kernel⟩

theorem witness_TranslationsHeld :
    (∃ (s : State) (cell : Nat) (asid : Nat) (va : Nat) (x : _),
      let a := BitVec.ofNat 16 asid
      let die := cell / 128
      let mine (x : Miss) : Prop := x.die = die ∧ x.asid = a ∧ x.vpage = va / 2 ^ 16
      s.ev = [0, cell, asid, va] ∧ cell < 512 ∧ s.live die = true ∧ va < 2 ^ 56 ∧ (∀ e ∈ s.ms.tlb, ¬((e.holder = cell ∨ e.holder =
        512 + die) ∧ e.asid = a ∧ e.vpage = va / 2 ^ pageShift e.level)) ∧ s.ms.misses = [x] ∧ mine x ∧ ¬cell ∈ x.cells) ∧
    (∃ (s : State) (cell : Nat) (asid : Nat) (va : Nat),
      let a := BitVec.ofNat 16 asid
      let die := cell / 128
      let mine (x : Miss) : Prop := x.die = die ∧ x.asid = a ∧ x.vpage = va / 2 ^ 16
      s.ev = [0, cell, asid, va] ∧ cell < 512 ∧ s.live die = true ∧ va < 2 ^ 56 ∧ (∀ e ∈ s.ms.tlb, ¬((e.holder = cell ∨ e.holder =
        512 + die) ∧ e.asid = a ∧ e.vpage = va / 2 ^ pageShift e.level)) ∧ (∀ x ∈ s.ms.misses, ¬mine x) ∧ (s.ms.misses.filter fun
        x => x.die = die).length < 4096) ∧
    (∃ (s : State) (cell : Nat) (asid : Nat) (va : Nat),
      let a := BitVec.ofNat 16 asid
      let die := cell / 128
      let mine (x : Miss) : Prop := x.die = die ∧ x.asid = a ∧ x.vpage = va / 2 ^ 16
      s.ev = [0, cell, asid, va] ∧ cell < 512 ∧ s.live die = true ∧ va < 2 ^ 56 ∧ (∀ e ∈ s.ms.tlb, ¬((e.holder = cell ∨ e.holder =
        512 + die) ∧ e.asid = a ∧ e.vpage = va / 2 ^ pageShift e.level)) ∧ (∀ x ∈ s.ms.misses, ¬mine x) ∧ 4096 ≤
        (s.ms.misses.filter fun x => x.die = die).length) ∧
    (∃ (s : State) (die : Nat) (victims : List Nat) (x : Miss) (f : _),
      let va := 2 ^ 16 * x.vpage
      (s.ev = 1 :: die :: victims ∧ s.ms.misses.find? (fun y => y.die = die) = some x) ∧ walk s die x.asid .read va = .error f) ∧
    (∃ (s : State) (die : Nat) (victims : List Nat) (x : Miss) (l : _),
      let va := 2 ^ 16 * x.vpage
      (s.ev = 1 :: die :: victims ∧ s.ms.misses.find? (fun y => y.die = die) = some x) ∧ walk s die x.asid .read va = .ok l) ∧
    (∃ (s : State) (t : Nat) (h : Nat) (id : Nat) (all : Nat) (asid : Nat) (lo : Nat) (n : Nat) (hs : List Nat)
      (answer : Option Nat),
      s.ev = [t, h] ∧ (s.slot t).pend = some ⟨.inval, id, [all, asid, lo, n] ++ hs, answer⟩ ∧ h ∈ hs ∧ 512 ≤ h ∧ (∀ x ∈ s.ms.l1,
        x.cell ≠ h) ∧ (∀ x ∈ s.slots, cellOf x.1 ≠ h)) := by
  refine ⟨?_, ?_, ?_, ?_, ?_, ?_⟩
  · exact ⟨at_ [0, 5, 0, 0x18000] (missing [⟨0, 0, 1, [3]⟩] (one (task g1))), 5, 0, 0x18000, ⟨0, 0, 1, [3]⟩,
      by (try dsimp only); decide +kernel⟩
  · exact ⟨at_ [0, 5, 0, 0x18000] (missing [⟨0, 0, 2, [3]⟩, ⟨1, 0, 1, [3]⟩] (one (task g1))), 5, 0, 0x18000,
      by (try dsimp only); decide +kernel⟩
  · exact ⟨at_ [0, 5, 0, 0x18000] (missing (List.replicate 4096 ⟨0, 0, 2, [3]⟩) (one (task g1))), 5, 0, 0x18000,
      by (try dsimp only); decide +kernel⟩
  · exact ⟨at_ [1, 0] (missing [⟨1, 0, 2, [3]⟩, ⟨0, 0, 0x10000, [3]⟩] (tables (one (task g1)))), 0, [],
      ⟨0, 0, 0x10000, [3]⟩,
      (match walk (missing [⟨1, 0, 2, [3]⟩, ⟨0, 0, 0x10000, [3]⟩] (tables (one (task g1)))) 0 0 .read 0x100000000 with | .error f => f | .ok _ => (.memRange, none)),
      by (try dsimp only); decide +kernel, exc_err (by decide +kernel)⟩
  · exact
      ⟨at_ [1, 0] (missing [⟨0, 0, 2, [3, 5]⟩, ⟨0, 0, 7, [4]⟩, ⟨1, 0, 2, [130]⟩] (tables (one (task g1)))), 0,
      [], ⟨0, 0, 2, [3, 5]⟩, ⟨0x2BF, 3⟩, by (try dsimp only); decide +kernel, exc_ok (by decide +kernel)⟩
  · exact ⟨at_ [0, 512] (one { task g1 with pend := some ⟨.inval, 0, [0, 0, 0, 65536, 3, 512], none⟩ }), 0,
      512, 0, 0, 0, 0, 65536, [3, 512], none, by decide +kernel⟩

theorem witness_RoutesTaken :
    ∃ (w : WinSys) (d : Nat) (c : Coords) (dst : Nat) (hs : List Hop),
      let size := w.size d
      d < 3 ∧ dst < size ∧ coordAt c d < size ∧ coordAt c d ≠ dst ∧ w.leg d c dst = some hs := by
  exact ⟨ringed, 0, (0, 0, 0), 2, ((ringed.leg 0 (0, 0, 0) 2).getD []), by (try dsimp only); decide +kernel⟩

theorem witness_LinkEvents :
    (∃ (w : WinSys) (d : Nat) (b : FlitBody),
      let g := w.leaves w.own b.dest
      let f : OutFlit := ⟨b, g.1, 2 * b.cls + g.2, gateDie d g.1, none⟩
      (tblGet .down w.ports f.port).paused.getLsbD f.channel = true) ∧
    (∃ (w : WinSys) (d : Nat) (b : FlitBody),
      let g := w.leaves w.own b.dest
      let f : OutFlit := ⟨b, g.1, 2 * b.cls + g.2, gateDie d g.1, none⟩
      (tblGet .down w.ports f.port).paused.getLsbD f.channel = false ∧ (∀ h ∈ w.held, h.1.port = f.port → h.1.channel ≠
        f.channel)) ∧
    (∃ (s : State) (p : Nat) (good : Nat),
      let x := tblGet .down s.ws.ports p
      s.ev = [p, good] ∧ p < 6 ∧ x.up = true) ∧
    (∃ (s : State) (p : Nat) (good : Nat) (pkg : Nat),
      s.ev = [p, good, pkg + 1] ∧ p < 6 ∧ pkg ≠ s.ws.own) ∧
    (∃ (s : State) (p : Nat) (c : Nat),
      let x := tblGet .down s.ws.ports p
      s.ev = [p, c] ∧ p < 6 ∧ c < 8 ∧ x.up = true) ∧
    (∃ (s : State) (p : Nat) (c : Nat),
      let x := tblGet .down s.ws.ports p
      s.ev = [p, c] ∧ p < 6 ∧ c < 8 ∧ x.up = true ∧ (∀ h ∈ s.ws.held, h.2 = none)) ∧
    (∃ (s : State) (f : Nat),
      s.ev = [f] ∧ f < 2) := by
  refine ⟨?_, ?_, ?_, ?_, ?_, ?_, ?_⟩
  · exact ⟨ringed, 1, .response 5 [1], by (try dsimp only); decide +kernel⟩
  · exact ⟨ringed, 1, .request 7 5 [1], by (try dsimp only); decide +kernel⟩
  · exact ⟨at_ [2, 0] (port0 6 (one (task g1))), 2, 0, by (try dsimp only); decide +kernel⟩
  · exact ⟨at_ [2, 0, 6] (port0 7 (one (task g1))), 2, 0, 5, by decide +kernel⟩
  · exact ⟨at_ [2, 7] (port0 7 (one (task g1))), 2, 7, by (try dsimp only); decide +kernel⟩
  · exact ⟨at_ [2, 2] (port0 7 (one (task g1))), 2, 2, by (try dsimp only); decide +kernel⟩
  · exact ⟨at_ [0] (port0 7 (one (task g1))), 0, by decide +kernel⟩

theorem witness_PackagesChange :
    (∃ (s : State) (p : Nat) (k : Nat) (a : Nat) (b : Nat),
      s.ev = [p, k, a, b]) ∧
    (∃ (s : State) (pkg : Nat),
      s.ev = [pkg] ∧ pkg ≠ s.ws.own) ∧
    (∃ (s : State) (pkg : Nat) (die : Nat),
      s.ev = [pkg, die] ∧ pkg ≠ s.ws.own ∧ die < 4) := by
  refine ⟨?_, ?_, ?_⟩
  · exact ⟨at_ [65540, 1, 0x030201, 0] (one (task g1)), 65540, 1, 0x030201, 0, by decide +kernel⟩
  · exact
      ⟨at_ [5] (flying [contrib 0x50000008000 6 true, contrib 0x8000 6 true] (linked (withMem [(0x8000, 5)] (one remotePend)))),
      5, by decide +kernel⟩
  · exact
      ⟨at_ [5, 0] (flying [contrib 0x50000008000 6 true, contrib 0x54000008000 6 true] (linked (withMem [(0x8000, 5)] (one remotePend)))),
      5, 0, by decide +kernel⟩

theorem witness_OutsideAccesses :
    (∃ (s : State) (host : Nat) (pa : Nat) (bytes : List Nat) (c : _),
      let free (s : State) (pa : Nat) : Prop := s.noInjection ∧ s.homeLives pa ∧ s.ms.checkOf (lineAddr pa) ≠ .single ∧ s.heldLine
          (lineAddr pa) = false
      (s.ev = host :: pa :: bytes ∧ s.pf.stage = 8 ∧ s.ws.isHost host = true ∧ 1 ≤ bytes.length ∧ pa % 64 + bytes.length ≤ 64 ∧
        s.outsideFault (s.ws.hostWorld host) pa = some c) ∧ free s pa) ∧
    (∃ (s : State) (host : Nat) (pa : Nat) (bytes : List Nat),
      let free (s : State) (pa : Nat) : Prop := s.noInjection ∧ s.homeLives pa ∧ s.ms.checkOf (lineAddr pa) ≠ .single ∧ s.heldLine
          (lineAddr pa) = false
      (s.ev = host :: pa :: bytes ∧ s.pf.stage = 8 ∧ s.ws.isHost host = true ∧ 1 ≤ bytes.length ∧ pa % 64 + bytes.length ≤ 64 ∧
        s.outsideFault (s.ws.hostWorld host) pa = none) ∧ free s pa) ∧
    (∃ (s : State) (host : Nat) (req : Nat) (pa : Nat) (n : Nat) (c : _),
      s.ev = [host, req, pa, n] ∧ s.pf.stage = 8 ∧ s.ws.isHost host = true ∧ 1 ≤ n ∧ pa % 64 + n ≤ 64 ∧ s.outsideFault
        (s.ws.hostWorld host) pa = some c) ∧
    (∃ (s : State) (host : Nat) (req : Nat) (pa : Nat) (n : Nat),
      let sound (s : State) (pa : Nat) : Prop := s.ms.checkOf (lineAddr pa) = .good ∧ s.heldLine (lineAddr pa) = false
      s.ev = [host, req, pa, n] ∧ s.pf.stage = 8 ∧ s.ws.isHost host = true ∧ 1 ≤ n ∧ pa % 64 + n ≤ 64 ∧ s.outsideFault
        (s.ws.hostWorld host) pa = none ∧ sound s pa) ∧
    (∃ (s : State) (dest : Nat) (src : Nat) (kind : Nat) (port : Nat) (channel : Nat) (w : List Nat),
      s.ev = dest :: src :: kind :: port :: channel :: w ∧ s.pf.stage = 8 ∧ dest ≠ s.ws.own) ∧
    (∃ (s : State) (dest : Nat) (src : Nat) (kind : Nat) (port : Nat) (channel : Nat) (w : List Nat) (id : _)
      (world : _) (pa : _) (n : _),
      let sound (s : State) (pa : Nat) : Prop := s.ms.checkOf (lineAddr pa) = .good ∧ s.heldLine (lineAddr pa) = false
      s.ev = dest :: src :: kind :: port :: channel :: w ∧ s.pf.stage = 8 ∧ dest = s.ws.own ∧ kind = 4 ∧ w = [id, world, pa, n] ∧
        1 ≤ n ∧ pa % 64 + n ≤ 64 ∧ s.outsideFault (world = 1) pa = none ∧ sound s pa) ∧
    (∃ (s : State) (dest : Nat) (src : Nat) (kind : Nat) (port : Nat) (channel : Nat) (w : List Nat) (id : _)
      (world : _) (pa : _) (bytes : _),
      let free (s : State) (pa : Nat) : Prop := s.noInjection ∧ s.homeLives pa ∧ s.ms.checkOf (lineAddr pa) ≠ .single ∧ s.heldLine
          (lineAddr pa) = false
      (s.ev = dest :: src :: kind :: port :: channel :: w ∧ s.pf.stage = 8 ∧ dest = s.ws.own ∧ kind = 5 ∧ w = id :: world :: pa ::
        bytes ∧ 1 ≤ bytes.length ∧ pa % 64 + bytes.length ≤ 64 ∧ s.outsideFault (world = 1) pa = none) ∧ free s pa) ∧
    (∃ (s : State) (dest : Nat) (src : Nat) (kind : Nat) (port : Nat) (channel : Nat) (w : List Nat) (id : _)
      (world : _) (pa : _) (n : _) (x : _) (v : _),
      let free (s : State) (pa : Nat) : Prop := s.noInjection ∧ s.homeLives pa ∧ s.ms.checkOf (lineAddr pa) ≠ .single ∧ s.heldLine
          (lineAddr pa) = false
      let sound (s : State) (pa : Nat) : Prop := s.ms.checkOf (lineAddr pa) = .good ∧ s.heldLine (lineAddr pa) = false
      (s.ev = dest :: src :: kind :: port :: channel :: w ∧ s.pf.stage = 8 ∧ dest = s.ws.own ∧ kind = 6 ∧ w = [id, world, pa, n,
        v, x, 0] ∧ (n = 4 ∨ n = 8) ∧ pa % n = 0 ∧ (v = 0 ∨ v = 8) ∧ s.outsideFault (world = 1) pa = none ∧ sound s pa) ∧ free s
        pa) ∧
    (∃ (s : State) (dest : Nat) (src : Nat) (kind : Nat) (port : Nat) (channel : Nat) (w : List Nat) (x : _)
      (y : _) (z : _),
      s.ev = dest :: src :: kind :: port :: channel :: w ∧ s.pf.stage = 8 ∧ dest = s.ws.own ∧ kind = 9 ∧ w = [x, y, z] ∧ x < 256 ∧
        y < 256 ∧ z < 256) := by
  refine ⟨?_, ?_, ?_, ?_, ?_, ?_, ?_, ?_, ?_⟩
  · exact
      ⟨at_ [5, 0x8000, 1, 2] (linked { one (task g1) with ms := { (one (task g1)).ms with region := [(0, true)] } }),
      5, 0x8000, [1, 2], .worldAccess, by (try dsimp only); decide +kernel, free_ok (by decide +kernel)⟩
  · exact ⟨at_ [5, 0x803E, 1, 2] (linked (one (task g1))), 5, 0x803E, [1, 2], by (try dsimp only); decide +kernel,
      free_ok (by decide +kernel)⟩
  · exact
      ⟨at_ [5, 77, 0x8000, 2] (linked { one (task g1) with ms := { (one (task g1)).ms with region := [(0, true)] } }),
      5, 77, 0x8000, 2, .worldAccess, by decide +kernel⟩
  · exact ⟨at_ [5, 77, 0x8000, 2] (linked (withMem [(0x8001, 5)] (one (task g1)))), 5, 77, 0x8000, 2,
      by (try dsimp only); decide +kernel⟩
  · exact ⟨at_ [5, 9, 4, 1, 0, 77] (linked (one (task g1))), 5, 9, 4, 1, 0, [77], by decide +kernel⟩
  · exact ⟨at_ [0, 9, 4, 1, 0, 77, 0, 0x8000, 2] (linked (withMem [(0x8001, 5)] (one (task g1)))), 0, 9, 4, 1, 0,
      [77, 0, 0x8000, 2], 77, 0, 0x8000, 2, by (try dsimp only); decide +kernel⟩
  · exact ⟨at_ [0, 9, 5, 1, 0, 77, 0, 0x8000, 2, 3] (linked (withMem [(0x8001, 5)] (one (task g1)))), 0, 9, 5, 1,
      0, [77, 0, 0x8000, 2, 3], 77, 0, 0x8000, [2, 3], by (try dsimp only); decide +kernel, free_ok
      (by decide +kernel)⟩
  · exact
      ⟨at_ [0, 9, 6, 1, 0, 77, 0, 0x8000, 4, 0, 0xFFFFFFFF, 0] (linked (withMem [(0x8001, 5)] (one (task g1)))),
      0, 9, 6, 1, 0, [77, 0, 0x8000, 4, 0, 0xFFFFFFFF, 0], 77, 0, 0x8000, 4, 0xFFFFFFFF, 0,
      by (try dsimp only); decide +kernel, free_ok (by decide +kernel)⟩
  · exact ⟨at_ [0, 9, 9, 1, 0, 4, 5, 6] (linked (one (task g1))), 0, 9, 9, 1, 0, [4, 5, 6], 4, 5, 6,
      by decide +kernel⟩

theorem witness_DiesFenced :
    ∃ (i : Instr) (s : State) (d : Nat) (t : Nat),
      ((i = .dieFence ∧ s.ev = [d]) ∨ (i = .thermalFence ∧ s.ev = [d, t] ∧ (105 ≤ t ∨ s.pf.coolantLost = true))) ∧ d < 4 ∧ s.live
        d = true := by
  exact ⟨.thermalFence, at_ [0, 105] (withWin win0 (withL1 (withLaunch launch1 (one (task g1))))), 0, 105,
    by decide +kernel⟩

theorem witness_PowerAndHeat :
    (∃ (s : State) (w : Nat),
      s.ev = [w] ∧ 2000 ≤ w ∧ w ≤ 4200 ∧ w % 50 = 0) ∧
    (∃ (s : State) (d : Nat),
      s.ev = [d] ∧ d < 4 ∧ s.live d = true) ∧
    (∃ (s : State) (d : Nat),
      s.ev = [d] ∧ d < 4 ∧ s.live d = true ∧ s.mayRise d = true) ∧
    (∃ (s : State) (d : Nat) (t : Nat),
      s.ev = [d, t] ∧ d < 4 ∧ s.live d = true ∧ 95 ≤ t) ∧
    (∃ (s : State) (d : Nat) (t : Nat),
      s.ev = [d, t] ∧ d < 4 ∧ 115 ≤ t) := by
  refine ⟨?_, ?_, ?_, ?_, ?_⟩
  · exact ⟨at_ [2050] (one (task g1)), 2050, by decide +kernel⟩
  · exact ⟨at_ [3] (one (task g1)), 3, by decide +kernel⟩
  · exact
      ⟨at_ [3] { one (task g1) with pf := { (one (task g1)).pf with step16 := [(3, 8)], raised := [(3, some 0)], clk := [(3, 950000)] } },
      3, by decide +kernel⟩
  · exact ⟨at_ [3, 95] (one (task g1)), 3, 95, by decide +kernel⟩
  · exact ⟨at_ [3, 115] (one (task g1)), 3, 115, by decide +kernel⟩

theorem witness_BootStages :
    (∃ (s : State) (n : Nat) (w : List Nat),
      let p := s.pf
      let a (i : Nat) : Nat := (w[i]?).getD 0
      let x := max 1 (a 4)
      let y := max 1 (a 5)
      let z := max 1 (a 6)
      s.ev = n :: w ∧ n = p.stage + 1 ∧ n ≤ 8 ∧ p.recovery = false ∧ (n = 6 → a 0 < 65536 ∧ x ≤ 256 ∧ y ≤ 256 ∧ z ≤ 256 ∧ x * y *
        z ≤ 65536 ∧ a 1 < x ∧ a 2 < y ∧ a 3 < z)) ∧
    (∃ (s : State) (n : Nat) (w : List Nat),
      let p := s.pf
      let a (i : Nat) : Nat := (w[i]?).getD 0
      let x := max 1 (a 4)
      let y := max 1 (a 5)
      let z := max 1 (a 6)
      s.ev = n :: w ∧ n = p.stage + 1 ∧ n ≤ 8 ∧ p.recovery = false ∧ (n = 6 → a 0 < 65536 ∧ x ≤ 256 ∧ y ≤ 256 ∧ z ≤ 256 ∧ x * y *
        z ≤ 65536 ∧ a 1 < x ∧ a 2 < y ∧ a 3 < z) ∧ n ≤ 2) ∧
    (∃ (s : State) (n : Nat) (w : List Nat),
      let p := s.pf
      let a (i : Nat) : Nat := (w[i]?).getD 0
      let x := max 1 (a 4)
      let y := max 1 (a 5)
      let z := max 1 (a 6)
      s.ev = n :: w ∧ n = p.stage + 1 ∧ n ≤ 8 ∧ p.recovery = false ∧ (n = 6 → a 0 < 65536 ∧ x ≤ 256 ∧ y ≤ 256 ∧ z ≤ 256 ∧ x * y *
        z ≤ 65536 ∧ a 1 < x ∧ a 2 < y ∧ a 3 < z) ∧ n = 3) ∧
    (∃ (s : State) (n : Nat) (w : List Nat),
      let p := s.pf
      let a (i : Nat) : Nat := (w[i]?).getD 0
      let x := max 1 (a 4)
      let y := max 1 (a 5)
      let z := max 1 (a 6)
      s.ev = n :: w ∧ n = p.stage + 1 ∧ n ≤ 8 ∧ p.recovery = false ∧ (n = 6 → a 0 < 65536 ∧ x ≤ 256 ∧ y ≤ 256 ∧ z ≤ 256 ∧ x * y *
        z ≤ 65536 ∧ a 1 < x ∧ a 2 < y ∧ a 3 < z) ∧ (n = 4 ∨ n = 5)) ∧
    (∃ (s : State) (n : Nat) (w : List Nat),
      let p := s.pf
      let a (i : Nat) : Nat := (w[i]?).getD 0
      let x := max 1 (a 4)
      let y := max 1 (a 5)
      let z := max 1 (a 6)
      s.ev = n :: w ∧ n = p.stage + 1 ∧ n ≤ 8 ∧ p.recovery = false ∧ (n = 6 → a 0 < 65536 ∧ x ≤ 256 ∧ y ≤ 256 ∧ z ≤ 256 ∧ x * y *
        z ≤ 65536 ∧ a 1 < x ∧ a 2 < y ∧ a 3 < z) ∧ n = 6) ∧
    (∃ (s : State) (n : Nat) (w : List Nat),
      let p := s.pf
      let a (i : Nat) : Nat := (w[i]?).getD 0
      let x := max 1 (a 4)
      let y := max 1 (a 5)
      let z := max 1 (a 6)
      s.ev = n :: w ∧ n = p.stage + 1 ∧ n ≤ 8 ∧ p.recovery = false ∧ (n = 6 → a 0 < 65536 ∧ x ≤ 256 ∧ y ≤ 256 ∧ z ≤ 256 ∧ x * y *
        z ≤ 65536 ∧ a 1 < x ∧ a 2 < y ∧ a 3 < z) ∧ n = 7 ∧ (FwTables.published s.firstDie).carved w = none) ∧
    (∃ (s : State) (n : Nat) (w : List Nat),
      let p := s.pf
      let a (i : Nat) : Nat := (w[i]?).getD 0
      let x := max 1 (a 4)
      let y := max 1 (a 5)
      let z := max 1 (a 6)
      s.ev = n :: w ∧ n = p.stage + 1 ∧ n ≤ 8 ∧ p.recovery = false ∧ (n = 6 → a 0 < 65536 ∧ x ≤ 256 ∧ y ≤ 256 ∧ z ≤ 256 ∧ x * y *
        z ≤ 65536 ∧ a 1 < x ∧ a 2 < y ∧ a 3 < z) ∧ n = 8) := by
  refine ⟨?_, ?_, ?_, ?_, ?_, ?_, ?_⟩
  · exact ⟨booting 8 [], 8, [], by (try dsimp only); decide +kernel⟩
  · exact ⟨booting 2 [], 2, [], by (try dsimp only); decide +kernel⟩
  · exact ⟨booting 3 [5, 0x10006, 0x20007], 3, [5, 0x10006, 0x20007], by (try dsimp only); decide +kernel⟩
  · exact ⟨booting 4 [0], 4, [0], by (try dsimp only); decide +kernel⟩
  · exact ⟨booting 6 [9, 1, 1, 1, 2, 2, 2, 3], 6, [9, 1, 1, 1, 2, 2, 2, 3],
      by (try dsimp only); decide +kernel⟩
  · exact ⟨booting 7 [1], 7, [1], by (try dsimp only); decide +kernel⟩
  · exact ⟨booting 8 [], 8, [], by (try dsimp only); decide +kernel⟩

theorem witness_FirmwareServices :
    (∃ (s : State) (v : Nat) (ok : Nat) (d : Nat) (r : List Nat),
      s.ev = v :: ok :: d :: r) ∧
    (∃ (s : State) (v : Nat),
      s.ev = [v] ∧ s.pf.fusedSvn < v ∧ v ≤ s.pf.imageA.version ∧ v ≤ s.pf.imageB.version ∧ s.pf.imageA.present = true ∧
        s.pf.imageB.present = true ∧ (∀ f ∈ s.pf.imageA.further ++ s.pf.imageB.further, v ≤ f.version)) ∧
    (∃ (s : State) (nonce : Nat) (r : List Nat),
      s.ev = nonce :: r ∧ s.pf.otsPending = false) ∧
    (∃ (s : State),
      s.ev = [] ∧ s.pf.otsPending = true) := by
  refine ⟨?_, ?_, ?_, ?_⟩
  · exact ⟨at_ [7, 1, 99, 8, 1, 5] (one (task g1)), 7, 1, 99, [8, 1, 5], by decide +kernel⟩
  · exact ⟨at_ [3] { booting 8 [] with pf := { (booting 8 []).pf with fusedSvn := 2 } }, 3, by decide +kernel⟩
  · exact ⟨at_ [7, 1] { one (task g1) with pf := { (one (task g1)).pf with otsIndex := 1023 } }, 7, [1],
      by decide +kernel⟩
  · exact
      ⟨at_ [] { one (task g1) with pf := { (one (task g1)).pf with otsPending := true, otsIndex := 5, otsNonce := 3, quarCore := [(4, true)] } },
      by decide +kernel⟩

theorem witness_RegionBits :
    (∃ (s : State) (g : Nat) (b : Nat),
      (s.ev = [g, b] ∧ g < 524288 ∧ s.ws.own < 65536 ∧ s.live (g / 2 ^ 17) = true ∧ (∀ x ∈ s.ms.l1, x.pa % 64 = 0)) ∧
        s.noInjection ∧ (∀ l, s.ms.checkOf l ≠ .single)) ∧
    (∃ (s : State) (g : Nat) (b : Nat),
      let lo := s.fabric (2 ^ 21 * g)
      (s.ev = [g, b] ∧ g < 524288 ∧ s.ws.own < 65536 ∧ s.live (g / 2 ^ 17) = true ∧ (∀ x ∈ s.ms.l1, x.pa % 64 = 0) ∧ b ≠ 1 ∧
        tblGet false s.ms.region (lo / 2 ^ 21) = true) ∧ s.noInjection ∧ (∀ l, s.ms.checkOf l ≠ .single)) := by
  refine ⟨?_, ?_⟩
  · exact ⟨at_ [0, 1] (withL1 (withMem [(0x8000, 5), (0x200001, 6)] (one (task g1)))), 0, 1, by decide +kernel,
      noInjection_ok (by decide +kernel), noSingle_ok rfl⟩
  · exact
      ⟨at_ [0, 0] (withL1 (withMem [(0x8000, 5), (0x200001, 6)] { one (task g1) with ms := { (one (task g1)).ms with region := [(0, true)] } })),
      0, 0, by (try dsimp only); decide +kernel, noInjection_ok (by decide +kernel), noSingle_ok rfl⟩

theorem witness_FirmwareSets :
    (∃ (s : State) (i : Nat),
      s.ev = [0, i] ∧ i < 4096) ∧
    (∃ (s : State) (i : Nat),
      s.ev = [1, i] ∧ i < 512) ∧
    (∃ (s : State) (i : Nat),
      s.ev = [2, i] ∧ i < 512) ∧
    (∃ (s : State) (d : Nat) (i : Nat) (v : Nat),
      let at_ (j : Nat) : Nat := s.fabric (tblGet 0 s.pf.fw.inject d + 16 * j)
      s.ev = [d, i, v] ∧ tblGet 0 s.pf.fw.inject d ≠ 0 ∧ i < 16 ∧ s.live d = true ∧ homeOf (at_ i) = d ∧ at_ i % 16 = 0 ∧
        Memory.wf s.ms.mem = true ∧ s.ms.checkOf (lineAddr (at_ i)) ≠ .single ∧ (∀ j, j < 16 → j ≠ i → s.peek (at_ j) 1 % 4 = 0) ∧
        (v % 4 = 0 ∨ lineAddr (v / 2 ^ 64 % 2 ^ 64) ≠ lineAddr (at_ i))) := by
  refine ⟨?_, ?_, ?_, ?_⟩
  · exact ⟨at_ [0, 4095] (one (task g1)), 4095, by decide +kernel⟩
  · exact ⟨at_ [1, 511] (one (task g1)), 511, by decide +kernel⟩
  · exact ⟨at_ [2, 0] (one (task g1)), 0, by decide +kernel⟩
  · exact ⟨at_ [0, 3, 0x8000 * 2 ^ 64 + 1] (injecting (one (task g1))), 0, 3, 0x8000 * 2 ^ 64 + 1,
      by (try dsimp only); decide +kernel⟩

theorem witness_AssayerActs :
    (∃ (s : State) (t : Nat) (k : Nat) (p : PairPacket) (q : PairPacket),
      s.ev = [t] ∧ (s.slot t).partner = some k ∧ s.pairPacket t = some p ∧ s.pairPacket k = some q ∧ p.seq = q.seq ∧ p.hashes =
        q.hashes ∧ (s.slot t).shadow = false ∧ (s.slot t).st = .parked ∧ (s.slot t).wait = .assayer) ∧
    (∃ (i : Instr) (s : State) (t : Nat) (k : Nat) (p : PairPacket) (l : Launch),
      (s.ev = [t] ∧ (s.slot t).partner = some k ∧ s.pairPacket t = some p ∧ (s.slot t).st ≠ .free ∧ (s.slot t).regions = [] ∧
        (s.slot t).launch = l.number ∧ s.launch? l.number = some l) ∧ ((i = .assayerCompare ∧ ∃ q, s.pairPacket k = some q ∧ p.seq
        = q.seq ∧ p.hashes ≠ q.hashes) ∨ (i = .assayerSkewTimeout ∧ s.pairPacket k = none ∧ p.since + 4096 ≤ s.clock (dieOf t))))
        := by
  refine ⟨?_, ?_⟩
  · exact
      ⟨at_ [0] (pairOf { task g1 with st := .parked, wait := .assayer } id [⟨0, 3, [9], 0⟩, ⟨64, 3, [9], 0⟩]),
      0, 64, ⟨0, 3, [9], 0⟩, ⟨64, 3, [9], 0⟩, by decide +kernel⟩
  · exact ⟨.assayerSkewTimeout,
      at_ [0] (pairOf { task g1 with st := .parked, wait := .assayer } id [⟨0, 3, [9], 0⟩]), 0, 64,
      ⟨0, 3, [9], 0⟩, { startLaunch with part := 0x002E000000000041 }, by decide +kernel, Or.inr (by decide +kernel)⟩

end Sys2Proof.Tests
end

section
/-!
PROOFS. Bytes at their homes, and the control and channel registers.
-/

namespace Sys2Proof.Machine

/-! ### Bytes at their homes -/

/-- A write at the home writes the masked bytes, and of the slots changes reservations alone. -/
theorem homeWriteBytes : Claims.HomeWriteBytes := by
  intro s line data mask own exempt
  refine ⟨s.byteAt_writeHome line data mask own exempt, fun t r hr hl he => ?_, fun t => ?_⟩
  · rw [State.slot_writeHome] at hr
    exact brokenBy_resv hr hl he
  · rw [State.slot_writeHome]
    exact brokenBy_eq line exempt t (s.slot t)

theorem memoryReadsBytes : Claims.MemoryReadsBytes :=
  fun s pa n k hwf hk => tblReadN_byte s.ms.mem pa n k hwf hk

/-- Settles O9: a write at the home is the masked write of the table, and a read of a canonical table gives its bytes. -/
theorem bytesAtHome : Obligations.BytesAtHome := ⟨homeWriteBytes, memoryReadsBytes⟩

/-! ### Control registers

Of O13 the reads, the writes and the clause for CHAN.OUT hold; what fails is the clause for CHAN.IN. -/

/-- The mask of bits [55:2], the ones an instruction address has. -/
theorem addrBits_eq_and (w : Word) : addrBits w = w &&& 0xFFFFFFFFFFFFFC#64 := by
  apply BitVec.eq_of_getLsbD_eq
  intro k hk
  rw [addrBits, fieldOf, show 0xFFFFFFFFFFFFFC#64 = BitVec.ofNat 64 ((2 ^ 54 - 1) * 2 ^ 2) from rfl, show (4 : Nat) = 2 ^ 2 from rfl,
    BitVec.getLsbD_ofNat, BitVec.getLsbD_and, BitVec.getLsbD_ofNat, Nat.testBit_mul_two_pow, Nat.testBit_mul_two_pow,
    Nat.testBit_mod_two_pow, Nat.testBit_div_two_pow, Nat.testBit_two_pow_sub_one]
  by_cases h2 : 2 ≤ k
  · rw [Nat.sub_add_cancel h2, ← BitVec.getLsbD]
    simp [hk, h2, Bool.and_comm]
  · simp [h2]

/-- The low eight bits of a word, as TRAP.CAUSE holds them. -/
theorem lowByte_eq_and (w : Word) : (w.setWidth 8).setWidth 64 = w &&& 0xFF#64 := by
  apply BitVec.eq_of_getLsbD_eq
  intro k hk
  rw [show 0xFF#64 = BitVec.ofNat 64 (2 ^ 8 - 1) from rfl, BitVec.getLsbD_and, BitVec.getLsbD_ofNat, Nat.testBit_two_pow_sub_one]
  simp [hk, Bool.and_comm]

/-- What `cget` of a register other than FP.FLAGS does where it runs (R88). -/
theorem exec_cget_runs {d : GReg} {r : CtlReg} {s : State} (hr : r ≠ .fpFlags) (h : s.runs (.cget d r) = true) :
    exec (.cget d r) s = .next ((s.put d (ctlValue s s.cur r)).done (.cget d r)) := by
  rw [exec_cget]
  refine issue_seq h ?_ (State.put_slot_partner ..) rfl
  rw [s.entered_eq rfl]
  simp [cgetBody, hr]

/-- `cget` of FP.FLAGS, once the task's queued operations have completed (R205). -/
theorem exec_cgetFpFlags_runs {d : GReg} {s : State} (h : s.runs (.cgetFpFlags d) = true) (hq : s.queuesEmpty s.cur = true) :
    exec (.cgetFpFlags d) s = .next ((s.put d (s.me.fflags.setWidth 64)).done (.cgetFpFlags d)) := by
  rw [exec_cgetFpFlags]
  refine issue_seq h ?_ (State.put_slot_partner ..) rfl
  rw [s.entered_eq rfl]
  simp [cgetBody, hq, ctlValue]

/-- The part of O13 about `cget` holds. -/
theorem controlReads : Claims.ControlReads := by
  refine ⟨?_, ?_, ?_, ?_, ?_, ?_, ?_, ?_, ?_, ?_, ?_, ?_, ?_, ?_, ?_, ?_, ?_, ?_, fun d s h hq => exec_cgetFpFlags_runs h hq⟩ <;>
    exact fun d s h => exec_cget_runs (by decide) h

theorem Slot.setCtl_partner (x : Slot) (r : CtlReg) (w : Word) : (x.setCtl r w).partner = x.partner := by cases r <;> rfl

/-- What `cset` of a register other than the two of the channels does where it runs (R88). -/
theorem exec_cset_runs {d : GReg} {r : CtlReg} {s : State} (hr : r ≠ .chanIn ∧ r ≠ .chanOut) (h : s.runs (.cset d r) = true) :
    exec (.cset d r) s = .next ((s.setMe (s.me.setCtl r (s.me.gval d))).done (.cset d r)) := by
  rw [exec_cset, execCset.eq_3 d r s hr.1 hr.2]
  refine issue_seq h ?_ ?_ rfl
  · rw [s.entered_eq rfl]; rfl
  · rw [State.slot_setSlot_self, Slot.setCtl_partner]

/-- The part of O13 about `cset` holds. -/
theorem controlWrites : Claims.ControlWrites := by
  refine ⟨?stat, ?prio, ?vec, ?cause, ?val, ?pc, ?rep, ?mode, ?flags, ?spillwait, ?asid, ?readOnly⟩
  case vec | pc =>
    intro d s h
    rw [exec_cset_runs (by decide) h, Slot.setCtl, addrBits_eq_and]
  case cause =>
    intro d s h
    rw [exec_cset_runs (by decide) h, Slot.setCtl, lowByte_eq_and]
  case readOnly =>
    intro r hr d s h
    simp only [List.mem_cons, List.not_mem_nil, or_false] at hr
    rcases hr with rfl | rfl | rfl | rfl | rfl | rfl | rfl | rfl <;> exact exec_cset_runs (by decide) h
  all_goals exact fun d s h => exec_cset_runs (by decide) h

/-! ### Channel registers -/

/-- Bit 25 of the word, the high bit of KIND, is the one that CHAN.BIND is raised for (R210). -/
theorem fieldOf_kind {w : Word} (h : w.getLsbD 25 = false) : fieldOf w 25 25 = 0 := by
  rw [BitVec.getLsbD, Nat.testBit_eq_decide_div_mod_eq, decide_eq_false_iff_not] at h
  rw [fieldOf]
  omega

/-- What `cset` of CHAN.OUT does where it runs with a KIND of 0 or 1 (R211). -/
theorem exec_csetChanOut_runs {d : GReg} {s : State} (h : s.runs (.csetChanOut d) = true)
    (hk : (s.me.gval d).getLsbD 25 = false) :
    exec (.csetChanOut d) s =
      .next ((s.setMe { s.me with chanOut := rebound (s.me.gval d) }).done (.csetChanOut d)) := by
  rw [exec_csetChanOut]
  refine issue_seq h ?_ ?_ rfl
  · rw [s.entered_eq rfl]
    simp [csetChanOutBody, fieldOf_kind hk]
  · rw [State.slot_setSlot_self]

/-- A slot whose inbound channel is bound by a word: the messages that have landed are discarded (R214). -/
def Slot.boundIn (x : Slot) (w : Word) : Slot := { x with chanIn := rebound w, inq := x.inq.filter fun m => !m.landed }

/-- A change of the running slot after it has been given another value, which is not the empty slot's. -/
theorem State.modSlot_setMe (s : State) {x : Slot} (f : Slot → Slot) (h : x ≠ .empty) :
    (s.setMe x).setSlot (s.setMe x).cur (f ((s.setMe x).slot (s.setMe x).cur)) = s.setMe (f x) := by
  rw [State.setSlot_cur, State.slot_setSlot_self, State.setSlot_setSlot _ _ _ h]

/-- What `cset` of CHAN.IN does where it runs with a KIND of 0 or 1: the slot is bound and goes on at the next word, waiting for
nothing and with no timer (R60, R214). -/
theorem exec_csetChanIn_runs {d : GReg} {s : State} (h : s.runs (.csetChanIn d) = true) (hk : (s.me.gval d).getLsbD 25 = false) :
    exec (.csetChanIn d) s = .next (s.setMe ((s.me.boundIn (s.me.gval d)).goOn (s.me.pc + 4) false)) := by
  obtain ⟨hst, -, -, hp, -⟩ := s.clear_iff.mp (State.runs_clear h)
  have hne : s.me.boundIn (s.me.gval d) ≠ .empty := Slot.ne_empty hst
  have hbody : csetChanInBody d s = .ok .gone (s.setMe ((s.me.boundIn (s.me.gval d)).goOn (s.me.pc + 4) false)) := by
    simp only [csetChanInBody, run_bind, run_rd, run_curSlot, fieldOf_kind hk, decide_true, check_true, run_pure, run_modSlot]
    exact congrArg (EStateM.Result.ok Flow.gone) (s.modSlot_setMe (fun x => x.goOn (x.pc + 4) false) hne)
  rw [exec_csetChanIn]
  exact issueNamed_gone _ h (by rw [s.entered_eq rfl]; exact hbody) (by rw [State.slot_setSlot_self]; exact hp)

/-- A slot that can run an instruction and has a timer standing. -/
def timedSlot : Slot := { Slot.empty with st := .ready, yieldLeft := 1, timer := some 5 }

/-- Refutes O13: its clause for CHAN.IN gives the slot the timer it had before, and a slot that goes on has none. `cset` of CHAN.IN
from g0, in the slot above, tells the two apart. -/
theorem not_controlRegisters : ¬ Obligations.ControlRegisters := by
  rintro ⟨-, -, hIn, -⟩
  have hruns : (State.reset.setSlot 0 timedSlot).runs (.csetChanIn 0) = true := by decide +kernel
  have hkind : ((State.reset.setSlot 0 timedSlot).me.gval 0).getLsbD 25 = false := by decide +kernel
  have hsame := Host.Outcome.next.inj ((exec_csetChanIn_runs hruns hkind).symm.trans (hIn 0 _ hruns hkind))
  have htimer := congrArg (fun t : State => (t.slot 0).timer) hsame
  revert htimer
  decide +kernel

end Sys2Proof.Machine
end

section
/-!
PROOFS. Engine registers, the task's stores at the home, and the packet that `qput` publishes.
-/

namespace Sys2Proof.Machine

/-! ### Engine registers -/

theorem engineMask_and (n : BitVec 6) (w : Word) : w &&& engineMask n.toNat = if n = 20 then w &&& 0xFF else w := by
  by_cases h : n = 20
  · subst h; rfl
  · have hn : n.toNat ≠ 20 := fun e => h (BitVec.eq_of_toNat_eq e)
    rw [engineMask, if_neg hn, if_neg h, BitVec.and_allOnes]

theorem engineRegisters : Claims.EngineRegisters := by
  intro n a s
  refine ⟨fun h => ?_, fun h => ?_⟩
  · refine (exec_eset n a s).trans (issue_seq h ?_ ?_ rfl)
    · simp [Slot.setE, engineMask_and, State.me, State.setMe]
    · simp [State.me, State.setMe]
  · refine (exec_eget n a s).trans (issue_seq h ?_ ?_ rfl)
    · simp [Slot.eval_]
    · simp

/-! ### What a store at the home leaves -/

/-- A store at the home keeps what the next one needs: slots but for reservations, a calm cell, and lines with no corrected error to
log. -/
structure StoreKeeps (s u : State) : Prop where
  only : MemoryOnly s u
  calm : s.calm → u.calm
  check : ∀ l, s.ms.checkOf l ≠ .single → u.ms.checkOf l ≠ .single

theorem StoreKeeps.trans {s t u : State} (h1 : StoreKeeps s t) (h2 : StoreKeeps t u) : StoreKeeps s u :=
  ⟨h1.only.trans h2.only, fun h => h2.calm (h1.calm h), fun l h => h2.check l (h1.check l h)⟩

theorem Same.storeKeeps {s u : State} (h : Same s u) : StoreKeeps s u :=
  ⟨h.only, h.calm, fun l hl => by rw [h.checkOf]; exact hl⟩

theorem MemoryOnly.noInjection {s u : State} (h : MemoryOnly s u) (hi : s.noInjection) : u.noInjection := by
  intro d; rw [h.pf]; exact hi d

theorem MemoryOnly.homeLives {s u : State} (h : MemoryOnly s u) {pa : Nat} (hl : s.homeLives pa) : u.homeLives pa := by
  intro hp
  rw [h.ws] at hp
  have := hl hp
  simpa only [State.live, h.pf] using this

theorem MemoryOnly.heldLine {s u : State} (h : MemoryOnly s u) (line : Nat) : u.heldLine line = s.heldLine line := by
  simp only [State.heldLine, h.hyps]

/-- An address's home takes writes where that of another address of its line does. -/
theorem State.homeLives_of_line {s : State} {pa qa : Nat} (h : lineAddr pa = lineAddr qa) (hl : s.homeLives qa) : s.homeLives pa := by
  intro hp
  rw [← pkgOf_lineAddr, h, pkgOf_lineAddr] at hp
  rw [← homeOf_lineAddr, h, homeOf_lineAddr]
  exact hl hp

theorem mergedCheck_ne_single (c : LineCheck) (mask : BitVec 64) : mergedCheck c mask ≠ .single := by
  unfold mergedCheck
  split
  · simp
  · cases c <;> simp

theorem State.checkOf_writeHome (s : State) (line : Nat) (data : LineVal) (mask : BitVec 64) (own exempt : Option Nat) (l : Nat) :
    (s.writeHome line data mask own exempt).ms.checkOf l = s.ms.checkOf l := by
  simp only [MemSys.checkOf, State.writeHome, (settleOwners_fields _ _ _ _ _ _).2]

/-- A merge at the home leaves no line with a corrected error to log that had none. -/
theorem homeMerge_check {line : Nat} {data : LineVal} {mask : BitVec 64} {own exempt : Option Nat} {s u : State}
    (hi : s.noInjection) (hc : s.ms.checkOf line ≠ .single) (h : homeMerge line data mask own exempt s = .ok () u) (l : Nat)
    (hl : s.ms.checkOf l ≠ .single) : u.ms.checkOf l ≠ .single := by
  have hput : ∀ o, tblGet .good (tblSet .good (s.writeHome line data mask o exempt).ms.check line
      (mergedCheck (s.ms.checkOf line) mask)) l ≠ .single := by
    intro o
    rw [tblGet_set]
    split
    · exact mergedCheck_ne_single _ _
    · have := s.checkOf_writeHome line data mask o exempt l
      rw [MemSys.checkOf] at this
      rw [this]; exact hl
  have hi' : ∀ o, (s.writeHome line data mask o exempt).noInjection := fun _ => hi
  simp only [homeMerge, run_bind, run_get, run_ite, run_set] at h
  split at h
  · cases h; exact hl
  · split at h
    · rw [run_noteMerge hc] at h
      simp only [run_injectedHome (hi' _), run_modMs] at h
      cases h
      exact hput _
    · simp only [run_pure, run_modMs] at h
      cases h
      exact hput _

/-- n bytes merged at a home within a line: the bytes written, and what the merge keeps. -/
theorem homeMerge_stored {pa n v : Nat} {s : State} (h0 : 0 < n) (hw : pa % 64 + n ≤ 64) (hl : s.homeLives pa) (hi : s.noInjection)
    (hc : s.ms.checkOf (lineAddr pa) ≠ .single) :
    ∃ u, homeMerge (lineAddr pa) (lineOf (pa % 64) n v) (byteMask (pa % 64) n) none none s = .ok () u ∧ StoreKeeps s u ∧
      Wrote s u pa n v := by
  obtain ⟨u, hrun, honly, hbytes, hslot, hstands⟩ := homeMerge_bytes (v := v) (own := none) (exempt := none) h0 hw hl hi hc
  refine ⟨u, hrun, ⟨honly, fun hq => ⟨?_, fun x hx hcell => ?_⟩, homeMerge_check hi hc hrun⟩, hbytes⟩
  · rw [State.me, honly.cur, hslot, brokenBy_eq]
    exact hq.1
  · obtain ⟨y, hy, ecell, -, edirty, -⟩ := hstands x hx
    rw [edirty]
    exact hq.2 y hy (by rw [← ecell, hcell, honly.cur])

/-- A body run on a list whose every element it leaves the state alone for. -/
theorem run_eachM_stay {α : Type} {f : α → M Unit} {s : State} {l : List α} (h : ∀ a ∈ l, f a s = .ok () s) :
    eachM f l s = .ok () s := by
  induction l with
  | nil => rfl
  | cons a r ih =>
    rw [run_eachM_cons, h a List.mem_cons_self]
    exact ih fun b hb => h b (List.mem_cons_of_mem a hb)

theorem homeMerge_nothing (line : Nat) (data : LineVal) (own exempt : Option Nat) (s : State) :
    homeMerge line data 0#64 own exempt s = .ok () s := by
  simp [homeMerge]

/-- In a calm cell no line that holds a word has a dirty byte of it to perform: each gives the word up (R153). -/
theorem dropWord_same {pa n : Nat} {s : State} (hq : s.calm) (hh : s.heldLine (lineAddr pa) = false) :
    ∃ u, Same s u ∧ dropWord (cellOf s.cur) pa n s = .ok () u := by
  have hclean : ∀ x ∈ s.ms.l1.filter (fun x => x.cell = cellOf s.cur && x.pa = lineAddr pa && x.hyp = 0), x.dirty = 0 := by
    intro x hx
    simp only [List.mem_filter, Bool.and_eq_true, decide_eq_true_eq] at hx
    exact hq.2 x hx.1 hx.2.1.1
  obtain ⟨l1, hl1, hrun⟩ : ∃ l1, Stands l1 s.ms.l1 ∧ dropWord (cellOf s.cur) pa n s = .ok () (s.withL1 l1) := by
    simp only [dropWord, run_bind, run_awaitLine hh, run_get]
    rw [run_eachM_stay fun x hx => by simp [hclean x hx, homeMerge_nothing]]
    refine ⟨_, (Stands.filter _ _).trans (Stands.map _ _ fun x hx => ?_), rfl⟩
    split
    · next hc => exact ⟨rfl, rfl, by simp [hq.2 x hx hc.1], rfl, rfl⟩
    · exact ⟨rfl, rfl, rfl, rfl, rfl⟩
  exact ⟨_, Same.of (sl := s.slots) hl1 fun _ => rfl, hrun⟩

/-- A task with nothing buffered has nothing to take out of its buffer (R149). -/
theorem unbuffer_same {line : Nat} {mask : BitVec 64} {s : State} (hq : s.calm) :
    ∃ u, Same s u ∧ unbuffer s.cur line mask s = .ok () u := by
  have hwc : (s.slot s.cur).wc = [] := hq.1
  refine ⟨_, Same.of (s := s) (l1 := s.ms.l1) (.refl _) fun k => ?_, rfl⟩
  exact setSlot_self_eq (s := s) (by simpa [hwc] using Slot.wc_nil hwc) k

/-- A store of the task at the home, within one line, in a calm cell (R150). -/
theorem mstoreAt_stored {pa n v : Nat} {s : State} (h0 : 0 < n) (hw : pa % 64 + n ≤ 64) (hq : s.calm)
    (hh : s.heldLine (lineAddr pa) = false) (hl : s.homeLives pa) (hi : s.noInjection)
    (hc : s.ms.checkOf (lineAddr pa) ≠ .single) :
    ∃ u, mstoreAt pa n v s = .ok () u ∧ StoreKeeps s u ∧ Wrote s u pa n v := by
  obtain ⟨t, hst, ht⟩ := unbuffer_same (line := lineAddr pa) (mask := byteMask (pa % 64) n) hq
  obtain ⟨t', htt, ht'⟩ := dropWord_same (pa := pa) (n := n) (hst.calm hq) (by rw [hst.heldLine]; exact hh)
  have hs := hst.trans htt
  obtain ⟨u, hu, hk, hb⟩ := homeMerge_stored (s := t') (v := v) h0 hw (hs.homeLives hl) (hs.noInjection hi) (by rw [hs.checkOf]; exact hc)
  rw [hst.cur] at ht'
  refine ⟨u, by simp only [mstoreAt, run_bind, run_curId, ht, ht', hu], hs.storeKeeps.trans hk, fun a => ?_⟩
  rw [hb a, hs.byteAt]

/-! ### The packet that `qput` publishes -/

/-- The header that `qput` writes: the packet's own, with the phase bit of the index in its bit 8 (R306). -/
def phasedHeader (p l w : Nat) : Nat := p % 2 ^ 64 - p % 2 ^ 64 / 256 % 2 * 256 + w / 2 ^ l % 2 * 256

/-- Every byte of the header but byte 1 is the packet's. -/
theorem phasedHeader_byte (p l w : Nat) {k : Nat} (hk : k < 8) (h1 : k ≠ 1) :
    BitVec.ofNat 8 (phasedHeader p l w / 256 ^ k) = BitVec.ofNat 8 (p / 256 ^ k) := by
  apply BitVec.eq_of_toNat_eq
  simp only [BitVec.toNat_ofNat, phasedHeader]
  have hb : w / 2 ^ l % 2 < 2 := Nat.mod_lt _ (by decide)
  generalize w / 2 ^ l % 2 = b at hb
  obtain rfl | rfl | rfl | rfl | rfl | rfl | rfl : k = 0 ∨ k = 2 ∨ k = 3 ∨ k = 4 ∨ k = 5 ∨ k = 6 ∨ k = 7 := by omega
  all_goals omega

/-- Byte 1 of the header has the phase bit in its bit 0. -/
theorem phasedHeader_phase (p l w : Nat) :
    (BitVec.ofNat 8 (phasedHeader p l w / 256 ^ 1)).toNat = p / 2 ^ 8 % 256 / 2 * 2 + w / 2 ^ l % 2 := by
  simp only [BitVec.toNat_ofNat, phasedHeader]
  have hb : w / 2 ^ l % 2 < 2 := Nat.mod_lt _ (by decide)
  generalize w / 2 ^ l % 2 = b at hb
  omega

/-- A home line ready for the stores of `qput`: aligned, in live memory, not held for a resolution, with no corrected error to log. -/
structure State.StoresTo (s : State) (line : Nat) : Prop where
  aligned : line % 64 = 0
  lives : s.homeLives line
  free : s.heldLine line = false
  check : s.ms.checkOf line ≠ .single

theorem StoreKeeps.storesTo {s u : State} (h : StoreKeeps s u) {line : Nat} (hs : s.StoresTo line) : u.StoresTo line :=
  ⟨hs.aligned, h.only.homeLives hs.lives, by rw [h.only.heldLine]; exact hs.free, h.check line hs.check⟩

/-- A store of the task at an offset within a line that is ready for it. -/
theorem storeHome_stored {line off n v : Nat} {s : State} (h0 : 0 < n) (hw : off + n ≤ 64) (hq : s.calm) (hi : s.noInjection)
    (hs : s.StoresTo line) : ∃ u, storeHome (line + off) n v s = .ok () u ∧ StoreKeeps s u ∧ Wrote s u (line + off) n v := by
  obtain ⟨haligned, hlives, hfree, hcheck⟩ := hs
  have hline : lineAddr (line + off) = line := by simp only [lineAddr]; omega
  have hself : lineAddr line = line := by simp only [lineAddr]; omega
  exact mstoreAt_stored h0 (by omega) hq (by rw [hline]; exact hfree) (State.homeLives_of_line (hline.trans hself.symm) hlives) hi
    (by rw [hline]; exact hcheck)

/-- The three stores of `qput` in order: the body, the header, NOTIFY (R306). -/
theorem qputWrite_stored {p l w qcb entry : Nat} {s : State} (hq : s.calm) (hi : s.noInjection) (he : s.StoresTo entry)
    (hn : s.StoresTo qcb) : ∃ t u v, qputWrite p l w qcb entry s = .ok () v ∧ MemoryOnly s v ∧ Wrote s t (entry + 8) 56 (p / 2 ^ 64) ∧
      Wrote t u entry 8 (phasedHeader p l w) ∧ Wrote u v (qcb + 16) 8 ((w + 1) % 2 ^ 63) := by
  obtain ⟨t, ht, kt, bt⟩ := storeHome_stored (off := 8) (n := 56) (v := p / 2 ^ 64) (by decide) (by decide) hq hi he
  obtain ⟨u, hu, ku, bu⟩ := storeHome_stored (off := 0) (n := 8) (v := phasedHeader p l w) (by decide) (by decide) (kt.calm hq)
    (kt.only.noInjection hi) (kt.storesTo he)
  have ktu := kt.trans ku
  obtain ⟨v, hv, kv, bv⟩ := storeHome_stored (off := 16) (n := 8) (v := (w + 1) % 2 ^ 63) (by decide) (by decide) (ktu.calm hq)
    (ktu.only.noInjection hi) (ktu.storesTo hn)
  refine ⟨t, u, v, ?_, (ktu.trans kv).only, bt, bu, bv⟩
  rw [Nat.add_zero, phasedHeader] at hu
  simp only [qputWrite, run_bind, ht, hu, hv]

theorem State.byteAt_setSlot (s : State) (k : Nat) (x : Slot) (a : Nat) : (s.setSlot k x).byteAt a = s.byteAt a := rfl

/-- The state once a `qput` has claimed an index: what it keeps stands in its slot until the index is free (R306). -/
def State.claimed (s : State) (kept : List Nat) : State := s.setMe { s.me with pend := some ⟨.qput, 0, kept, none⟩ }

theorem State.claimed_me (s : State) (kept : List Nat) : (s.claimed kept).me = { s.me with pend := some ⟨.qput, 0, kept, none⟩ } :=
  s.slot_setSlot_self _ _

theorem run_keepClaim (s : State) (kept : List Nat) :
    modSlot (fun x => { x with pend := some ⟨.qput, 0, kept, none⟩ }) s = .ok () (s.claimed kept) := rfl

theorem State.claimed_calm {s : State} {kept : List Nat} (h : s.released) : (s.claimed kept).calm :=
  ⟨by rw [State.claimed_me]; exact h.1, h.2⟩

theorem State.claimed_storesTo {s : State} {kept : List Nat} {line : Nat} (h : s.StoresTo line) : (s.claimed kept).StoresTo line :=
  ⟨h.aligned, h.lives, h.free, h.check⟩

/-- A `qput` whose claim succeeds and whose index is free makes its stores and goes on. -/
theorem exec_qput_claimed {a b : GReg} {s u v : State} {p l w qcb entry : Nat} (h : s.runs (.qput a b) = true)
    (hclaim : qputClaim a b (s.entered (.qput a b)) = .ok [p, l, w, qcb, entry] u) (hfree : u.indexFree qcb l w = true)
    (hwrite : qputWrite p l w qcb entry (u.claimed [p, l, w, qcb, entry]) = .ok () v) (hp : (v.slot s.cur).partner = none) :
    exec (.qput a b) s = .next ((v.setMe { v.me with pend := none }).done (.qput a b)) := by
  obtain ⟨-, -, hissued, hpartner, -⟩ := s.clear_iff.mp (State.runs_clear h)
  have hpend : ((s.entered (.qput a b)).slot s.cur).pend = none := by
    rw [State.entered_slot_pend]; exact (Slot.issued_false hissued).2
  have hkept : ((u.claimed [p, l, w, qcb, entry]).slot (u.claimed [p, l, w, qcb, entry]).cur).pend = some ⟨.qput, 0, [p, l, w, qcb, entry], none⟩ :=
    congrArg Slot.pend (u.claimed_me _)
  have hfree' : (u.claimed [p, l, w, qcb, entry]).indexFree qcb l w = true := hfree
  rw [exec_qput]
  refine issue_seq h ?_ ?_ rfl
  · simp only [run_bind, run_curSlot, hpend, State.entered_cur, hclaim, run_keepClaim, hkept, Option.map_some, Option.getD_some,
      run_get, hfree', waitFor_true, run_pure, hwrite]
    rfl
  · rw [State.slot_setSlot]
    split
    · next e => rw [State.me, ← e]; exact hp.trans hpartner.symm
    · exact hp.trans hpartner.symm

theorem qputPublishes : Claims.QputPublishes := by
  intro a b s u p l w qcb entry i hruns hclaim hcur _ hpartner _ hfree hinj hentry hqcb hlivesE hlivesQ hrel hapart hheldE hheldQ
    hcheckE hcheckQ
  have hstoresE : u.StoresTo entry := ⟨hentry, hlivesE, hheldE, hcheckE⟩
  have hstoresQ : u.StoresTo qcb :=
    ⟨by omega, State.homeLives_of_line (by simp only [lineAddr]; omega) hlivesQ, hheldQ, hcheckQ⟩
  obtain ⟨t, t', v, hwrite, honly, hbody, hheader, hnotify⟩ := qputWrite_stored (p := p) (l := l) (w := w)
    (State.claimed_calm (kept := [p, l, w, qcb, entry]) hrel) hinj (State.claimed_storesTo hstoresE) (State.claimed_storesTo hstoresQ)
  have hv : (v.slot s.cur).partner = none := by
    rw [honly.partner, ← hcur]
    exact (congrArg Slot.partner (u.claimed_me _)).trans hpartner
  refine ⟨_, exec_qput_claimed hruns hclaim hfree hwrite hv, fun k hk => ?_, fun k hk h1 => ?_, ?_, fun k hk => ?_, fun x h1 h2 => ?_⟩ <;>
    rw [State.byteAt_setSlot, hnotify]
  · rw [if_neg (by omega), hheader, if_neg (by omega), hbody, if_pos (by omega)]
    congr 3; omega
  · rw [if_neg (by omega), hheader, if_pos (by omega), Nat.add_sub_cancel_left]
    exact phasedHeader_byte p l w hk h1
  · rw [if_neg (by omega), hheader, if_pos (by omega), Nat.add_sub_cancel_left]
    exact phasedHeader_phase p l w
  · rw [if_pos (by omega), Nat.add_sub_cancel_left]
  · rw [if_neg (by omega), hheader, if_neg (by omega), hbody, if_neg (by omega)]
    rfl

/-- Settles O25: `eset` and `eget` act on the slot's table of engine registers, and a claimed `qput` makes three stores at homes that
do not overlap. -/
theorem engineCommands : Obligations.EngineCommands := ⟨engineRegisters, qputPublishes⟩

end Sys2Proof.Machine
end

section
/-!
PROOFS. What an access does at its translation: the address kept, or the trap.
-/

namespace Sys2Proof.Machine

/-! ### The address that an access keeps -/

/-- A passed check leaves the low 16 bits of the address alone, by the page size of every leaf, and the offset within the stream
window (R388). -/
theorem accessKeepsOffset : Claims.AccessKeepsOffset := by
  intro s ag use va n k p tr h
  obtain ⟨hrange, halign, hplace⟩ := checkPlace_ok h
  refine ⟨hrange, halign, fun pa v c hp => ?_, fun key serial off hp => ?_⟩
  · rcases hplace with ⟨off, rfl, -⟩ | ⟨t, ht, rfl, -⟩
    · cases hp
    · cases hp
      exact ⟨rfl, translatePlain_ok ht⟩
  · rcases hplace with ⟨off, rfl, -, hlt, hoff, -⟩ | ⟨t, -, rfl, -⟩
    · cases hp
      exact ⟨hlt, hoff⟩
    · cases hp

/-! ### The traps of an address -/

/-- A body of a displacement form passes on the fault of its access check, which it makes before all else. -/
def ChecksFirst (use : WinUse) (n : Nat) (k : Acc) (a : GReg) (imm : BitVec 14) (body : M Unit) : Prop :=
  ∀ (s : State) (c : Cause) (v : Word), s.access use (s.me.gval a + sext imm) n k = .error (c, some v) →
    body s = .error (.trap c.code (some v)) s

theorem checksFirst_load (d a : GReg) (imm : BitVec 14) (n : Nat) (signed alloc : Bool) :
    ChecksFirst .allowed n .read a imm (loadBody d a imm n signed alloc) := fun _ _ _ h => loadBody_trap h

theorem checksFirst_acquireLoad (d a : GReg) (imm : BitVec 14) (n : Nat) :
    ChecksFirst .allowed n .read a imm (do loadBody d a imm n true false; acquire) := by
  intro s c v h
  rw [run_bind, loadBody_trap h]

theorem checksFirst_store (d a : GReg) (imm : BitVec 14) (n : Nat) : ChecksFirst .allowed n .write a imm (storeBody d a imm n) :=
  fun _ _ _ h => storeBody_trap h

/-- An instruction whose body checks its access first traps for an address out of range, and for a misaligned one within (R147). -/
theorem ChecksFirst.traps {use : WinUse} {n : Nat} {k : Acc} {a : GReg} {imm : BitVec 14} {body : M Unit} {i : Instr} {s : State}
    (h : ChecksFirst use n k a imm body) (hexec : exec i s = issue i (thenNext body) s) (hruns : s.runs i = true)
    (hhandler : s.hasHandler = true) :
    let va := s.me.gval a + imm.signExtend 64
    (2 ^ 56 ≤ va.toNat → exec i s = .next ((s.entered i).trapped .memRange va)) ∧
    (va.toNat < 2 ^ 56 → va.toNat % n ≠ 0 → exec i s = .next ((s.entered i).trapped .memAlign va)) := by
  have haddr : (s.entered i).me.gval a + sext imm = s.me.gval a + imm.signExtend 64 := by
    rw [State.me, State.entered_gval, State.entered_cur, sext]
  have htrap : ∀ c : Cause, isPlainCode c.code = true →
      (s.entered i).access use (s.me.gval a + imm.signExtend 64) n k = .error (c, some (s.me.gval a + imm.signExtend 64)) →
      exec i s = .next ((s.entered i).trapped c (s.me.gval a + imm.signExtend 64)) := by
    intro c hc hfault
    rw [hexec]
    refine issue_trap hruns ?_ hc hhandler
    rw [← haddr] at hfault ⊢
    rw [run_thenNext, h _ _ _ hfault]
  exact ⟨fun hr => htrap .memRange rfl (checkPlace_range hr), fun hr ha => htrap .memAlign rfl (checkPlace_align hr ha)⟩

theorem accessTraps : Claims.AccessTraps := by
  refine ⟨?_, ?_, ?_, ?_, ?_, ?_, ?_, ?ldacqW, ?ldacqD, ?_, ?stB, ?stH, ?stW, ?stD, ?stntD, ?mstoreW, ?mstoreD⟩ <;>
    intro d a imm s hruns hhandler
  case ldacqW | ldacqD => exact (checksFirst_acquireLoad d a imm _).traps rfl hruns hhandler
  case stB | stH | stW | stD => exact (checksFirst_store d a imm _).traps rfl hruns hhandler
  case stntD =>
    refine ChecksFirst.traps (use := .allowed) (k := .write) (fun s c v h => ?_) rfl hruns hhandler
    simp [dispAddr, run_checkAccess_error h]
  case mstoreW | mstoreD =>
    refine ChecksFirst.traps (use := .none) (k := .write) (fun s c v h => ?_) rfl hruns hhandler
    simp [dispAddr, run_checkMem_error h]
  all_goals exact (checksFirst_load d a imm _ _ _).traps rfl hruns hhandler

/-- Settles O5: a passed check keeps the address below the page size, and an address that is out of range or misaligned traps before
any other check. -/
theorem accessChecks : Obligations.AccessChecks := ⟨accessKeepsOffset, accessTraps⟩

end Sys2Proof.Machine
end

section
/-!
PROOFS. Loads, stores, and stores at the home.
-/

namespace Sys2Proof.Machine

/-! ### A register written, and lines of the L1 changed -/

theorem pairTargets_withL1 (s : State) (l1 : List L1Line) (t p : Nat) : pairTargets (s.withL1 l1) t p = pairTargets s t p := rfl

theorem State.pushed_withL1 (s : State) (l1 : List L1Line) (vec : Bool) (data : VVal) :
    (s.pushed vec data).withL1 l1 = (s.withL1 l1).pushed vec data := by
  unfold State.pushed
  rw [pairTargets_withL1]
  change State.withL1 (List.foldl _ s (pairTargets s s.cur (outPeer s.cur s.me))) l1 =
    List.foldl _ (s.withL1 l1) (pairTargets s s.cur (outPeer s.cur s.me))
  generalize pairTargets s s.cur (outPeer s.cur s.me) = targets
  induction targets generalizing s with
  | nil => rfl
  | cons e r ih => exact ih _

/-- Writing a register and changing lines of the L1 do not touch each other. -/
theorem State.put_withL1 (s : State) (l1 : List L1Line) (d : GReg) (w : Word) : (s.put d w).withL1 l1 = (s.withL1 l1).put d w := by
  unfold State.put
  split
  · exact s.pushed_withL1 l1 false _
  · rfl

/-! ### Loads -/

/-- A body that loads n bytes of a sound line into a register and changes lines of the L1 alone. -/
def LoadRuns (n : Nat) (signed alloc : Bool) (body : GReg → GReg → BitVec 14 → M Unit) : Prop :=
  ∀ (d a : GReg) (imm : BitVec 14) (s : State) (pa va : Nat) (cached : Bool) (tr : Option Trans),
    s.access .allowed (s.me.gval a + sext imm) n .read = .ok (.mem pa va cached, tr) → s.sound pa va = true → s.me.partner = none →
    ∃ l1, body d a imm s = .ok () ((s.withL1 l1).put d
      (loaded signed n (lineBytes (s.lineSeen pa va cached alloc (byteMask (pa % 64) n)) (pa % 64) n)))

theorem loadRuns_loadBody {n : Nat} (hn : n = 1 ∨ n = 2 ∨ n = 4 ∨ n = 8) (signed alloc : Bool) :
    LoadRuns n signed alloc fun d a imm => loadBody d a imm n signed alloc :=
  fun _ _ _ _ _ _ _ _ ha hs hp => loadBody_ok ha hs hn hp

/-- The acquire after a load drops lines of the L1, and leaves the register loaded as it is (R139). -/
theorem loadRuns_acquire {n : Nat} (hn : n = 1 ∨ n = 2 ∨ n = 4 ∨ n = 8) :
    LoadRuns n true false fun d a imm => (do loadBody d a imm n true false; acquire) := by
  intro d a imm s pa va cached tr ha hs hp
  obtain ⟨l1, hload⟩ := loadBody_ok (d := d) (sg := true) (alloc := false) ha hs hn hp
  obtain ⟨l1', -, hacquire⟩ := acquire_ok ((s.withL1 l1).put d
    (loaded true n (lineBytes (s.lineSeen pa va cached false (byteMask (pa % 64) n)) (pa % 64) n)))
  refine ⟨l1', ?_⟩
  refine (run_bind _ _ s).trans ?_
  rw [hload]
  exact hacquire.trans (congrArg (EStateM.Result.ok ()) (State.put_withL1 _ _ _ _))

/-- An instruction whose body loads is a load. -/
theorem LoadRuns.loadsAs {n : Nat} {signed alloc : Bool} {body : GReg → GReg → BitVec 14 → M Unit}
    {mk : GReg → GReg → BitVec 14 → Instr} (h : LoadRuns n signed alloc body)
    (hexec : ∀ d a imm s, exec (mk d a imm) s = issue (mk d a imm) (thenNext (body d a imm)) s)
    (hret : ∀ d a imm, isTret (mk d a imm) = false) : LoadsAs mk n signed alloc := by
  intro d a imm s pa va cached tr hruns ha hs
  obtain ⟨l1, hbody⟩ := h d a imm (s.entered (mk d a imm)) pa va cached tr
    (by rw [State.me, State.entered_gval, State.entered_cur]; exact ha) hs
    (by rw [State.me, State.entered_slot_partner, State.entered_cur]; exact (s.clear_iff.mp (State.runs_clear hruns)).2.2.2.1)
  rw [State.withL1, State.entered_ms] at hbody
  refine ⟨l1, ?_⟩
  rw [hexec]
  refine issue_seq hruns hbody ?_ (hret d a imm)
  rw [State.put_slot_partner]
  exact s.entered_slot_partner _ _

theorem loadOutcomes : Claims.LoadOutcomes := by
  refine ⟨?_, ?_, ?_, ?_, ?_, ?_, ?_, ?ldacqW, ?ldacqD, ?_⟩
  case ldacqW | ldacqD => exact LoadRuns.loadsAs (loadRuns_acquire (by decide)) (fun _ _ _ _ => rfl) fun _ _ _ => rfl
  all_goals exact LoadRuns.loadsAs (loadRuns_loadBody (by decide) _ _) (fun _ _ _ _ => rfl) fun _ _ _ => rfl

/-! ### Plain stores -/

/-- What `merges` says of a line of the cell that a store finds. -/
theorem State.merges_l1 {s : State} {pa va : Nat} (h : s.merges pa va) {x : L1Line}
    (hx : s.ms.l1Find (cellOf s.cur) s.me.asid (lineAddr va) 0 = some x) : x.check ≠ .single := by
  have hmem : x ∈ s.ms.l1 := List.mem_of_find?_eq_some hx
  have hname := List.find?_some hx
  simp only [L1Line.is, Bool.and_eq_true, decide_eq_true_eq] at hname
  exact h.2.2 x hmem hname.1.1.1 hname.1.2

theorem State.entered_merges {s : State} {pa va : Nat} (i : Instr) (h : s.merges pa va) : (s.entered i).merges pa va := by
  obtain ⟨hheld, hcheck, hl1⟩ := h
  refine ⟨?_, by rw [State.entered_ms]; exact hcheck, by rw [State.entered_ms, State.entered_cur]; exact hl1⟩
  rw [State.heldLine, State.entered_hyps]
  exact hheld

/-- What a store of n bytes of a number to an address leaves, of what the task sees: the cell's line where the page is cacheable, the home
where it is not (R133, R137). -/
def StoreLeaves (s u : State) (pa va n v : Nat) (cached : Bool) : Prop :=
  (cached = false → Wrote s u pa n v) ∧
  (cached = true → SameMemory s u ∧ ∃ x, u.l1Of va 0 = some x ∧
    x.data = mergeLine (((s.l1Of va 0).map (·.data)).getD 0) (lineOf (pa % 64) n v) (byteMask (pa % 64) n) ∧
    x.dirty = (((s.l1Of va 0).map (·.dirty)).getD 0) ||| byteMask (pa % 64) n ∧
    x.valid = (((s.l1Of va 0).map (·.valid)).getD 0) ||| byteMask (pa % 64) n)

theorem MemoryOnly.l1Of {s u : State} (h : MemoryOnly s u) (va k : Nat) :
    u.l1Of va k = u.ms.l1Find (cellOf s.cur) s.me.asid (lineAddr va) k := by
  have hasid : (u.slot s.cur).asid = (s.slot s.cur).asid := by rw [h.2]
  rw [State.l1Of, State.me, h.cur, hasid]

/-- A store of a task at the root to a place in memory, once its address is checked. -/
theorem storePlace_leaves {s : State} {pa va n v : Nat} {cached : Bool} (hroot : s.hyps.eff (s.me.agent s.cur).hyp = 0) (h0 : 0 < n)
    (hn : n ≤ 8) (hw : pa % 64 + n ≤ 64) (hi : s.noInjection) (hl : s.homeLives pa) (hm : s.merges pa va) :
    ∃ u, storePlace (s.me.agent s.cur) (some s.cur) (.mem pa va cached) n v s = .ok () u ∧ MemoryOnly s u ∧
      StoreLeaves s u pa va n v cached := by
  obtain ⟨u, hrun, honly, hhome, hl1⟩ := storeLine_ok (ag := s.me.agent s.cur) (t := s.cur) (va := va) (v := v) (cached := cached)
    hroot h0 hw hi hl hm.1 hm.2.1 fun x hx => s.merges_l1 hm hx
  refine ⟨u, (storePlace_ok h0 hn hw).trans hrun, honly, hhome, fun hc => ?_⟩
  obtain ⟨hsame, x, hx, hline⟩ := hl1 hc
  exact ⟨hsame, x, (honly.l1Of va 0).trans hx, hline⟩

theorem StoreLeaves.of_entered {s u : State} {i : Instr} {pa va n v : Nat} {cached : Bool}
    (h : StoreLeaves (s.entered i) u pa va n v cached) : StoreLeaves s u pa va n v cached := by
  obtain ⟨hhome, hl1⟩ := h
  refine ⟨fun hc a => ?_, fun hc => ?_⟩
  · rw [hhome hc a, State.entered_byteAt]
  · obtain ⟨hsame, hx⟩ := hl1 hc
    rw [State.entered_l1Of] at hx
    exact ⟨fun a => (hsame a).trans (s.entered_byteAt i a), hx⟩

/-- The low n bytes of a number are what a store of n bytes leaves. -/
theorem StoreLeaves.mod {s u : State} {pa va n v : Nat} {cached : Bool} (h : StoreLeaves s u pa va n (v % 2 ^ (8 * n)) cached) :
    StoreLeaves s u pa va n v cached := by
  obtain ⟨hhome, hl1⟩ := h
  rw [lineOf_mod] at hl1
  exact ⟨fun hc => (hhome hc).mod, hl1⟩

/-- A task that has entered an instruction that runs is none of a pair, so its place keeps its cacheability (R409). -/
theorem bypassed_entered {s : State} {i : Instr} (h : s.runs i = true) (p : Place) :
    bypassed ((s.entered i).slot s.cur) p = p := by
  have hp : (s.slot s.cur).partner = none := (s.clear_iff.mp (State.runs_clear h)).2.2.2.1
  cases p <;> simp [bypassed, hp]

theorem storesAs_storeInstr {mk : GReg → GReg → BitVec 14 → Instr} {n : Nat} (hn : n = 1 ∨ n = 2 ∨ n = 4 ∨ n = 8)
    (hexec : ∀ d a imm s, exec (mk d a imm) s = storeInstr (mk d a imm) d a imm n s)
    (hlss : ∀ d a imm, isLss (mk d a imm) = true) (hret : ∀ d a imm, isTret (mk d a imm) = false) : StoresAs mk n := by
  intro d a imm s pa va cached tr hruns ha hroot hi hl hm
  have hag := State.entered_agent_hyp hroot (by rw [isOrphanPoint, hlss d a imm]; rfl)
  obtain ⟨u, hrun, honly, hleaves⟩ := storePlace_leaves (cached := cached) (v := (s.me.gval d).toNat % 2 ^ (8 * n)) hag (by omega)
    (by omega) (access_mem_within ha hn) (State.entered_noInjection hi) (State.entered_homeLives hl) (State.entered_merges _ hm)
  obtain ⟨hhome, hl1⟩ := hleaves.of_entered.mod
  refine ⟨u, honly, ?_, hhome, hl1⟩
  have hplace : checkAccess ((s.slot s.cur).gval a + sext imm) n .write (s.entered (mk d a imm)) =
      .ok (.mem pa va cached) (s.entered (mk d a imm)) := run_checkAccess_ok ha
  rw [hexec]
  refine issue_seq hruns ?_ ?_ (hret d a imm)
  · rw [State.me, State.entered_cur] at hag hrun
    simp only [storeBody, dispAddr, run_bind, run_rd, run_pure, run_curSlot, run_curAgent, run_curId, State.entered_cur, hplace,
      bypassed_entered hruns, reserveStore_ok hag, State.entered_gval]
    exact hrun
  · rw [honly.partner]
    exact s.entered_slot_partner _ _

/-! ### `stnt.d` -/

/-- What a buffered store appends where the buffer has room and no entry of the line (R149). -/
theorem bufferStore_appends {s : State} {pa va n v : Nat} (hlen : s.me.wc.length < 4) (hnew : ∀ w ∈ s.me.wc, w.line ≠ lineAddr pa) :
    bufferStore pa va n v s = .ok () (s.setMe { s.me with
      wc := s.me.wc ++ [⟨lineAddr pa, lineAddr va, lineOf (pa % 64) n v, byteMask (pa % 64) n⟩] }) := by
  have hfind : (s.slot s.cur).wc.find? (fun w => decide (w.line = lineAddr pa)) = none :=
    List.find?_eq_none.mpr fun w hw => by simpa using hnew w hw
  have hroom : ¬4 ≤ (s.slot s.cur).wc.length := Nat.not_le.mpr hlen
  simp only [bufferStore, run_bind, run_curSlot, run_curId, hfind]
  cases hwc : (s.slot s.cur).wc with
  | nil => simp only [run_modSlot, hwc]
  | cons w rest =>
    rw [hwc] at hroom
    simp only [hroom, if_false, run_modSlot, hwc]

/-- `stnt.d` up to the choice of where its bytes go (R133, R149). -/
theorem exec_stntD_stores {d a : GReg} {imm : BitVec 14} {s u : State} {pa va : Nat} {cached : Bool} {tr : Option Trans}
    (hruns : s.runs (.stntD d a imm) = true)
    (ha : (s.entered (.stntD d a imm)).access .allowed (s.me.gval a + imm.signExtend 64) 8 .write = .ok (.mem pa va cached, tr))
    (hroot : s.atRoot) (honly : MemoryOnly (s.entered (.stntD d a imm)) u)
    (hstore : (if cached then bufferStore pa va 8 (s.me.gval d).toNat (s.entered (.stntD d a imm)) else
      storePlace (((s.entered (.stntD d a imm)).slot s.cur).agent s.cur) (some s.cur) (.mem pa va cached) 8 (s.me.gval d).toNat
        (s.entered (.stntD d a imm))) = .ok () u) :
    exec (.stntD d a imm) s = .next (u.done (.stntD d a imm)) := by
  have hag := State.entered_agent_hyp (i := .stntD d a imm) hroot rfl
  have hp : (s.slot s.cur).partner = none := (s.clear_iff.mp (State.runs_clear hruns)).2.2.2.1
  have hplace : checkAccess ((s.slot s.cur).gval a + sext imm) 8 .write (s.entered (.stntD d a imm)) =
      .ok (.mem pa va cached) (s.entered (.stntD d a imm)) := run_checkAccess_ok ha
  rw [exec_stntD]
  refine issue_seq hruns ?_ ?_ rfl
  · rw [State.me, State.entered_cur] at hag
    simp only [dispAddr, run_bind, run_rd, run_pure, run_curSlot, run_curAgent, run_curId, State.entered_cur, hplace,
      bypassed_entered hruns, reserveStore_ok hag, State.entered_gval, run_get, hag, State.entered_slot_partner, hp, decide_true,
      Option.isNone_none, Bool.and_true, run_ite]
    exact hstore
  · rw [honly.partner]
    exact s.entered_slot_partner _ _

theorem storeOutcomes : Claims.StoreOutcomes := by
  refine ⟨?_, ?_, ?_, ?_, ?buffered, ?uncached⟩
  case buffered =>
    intro d a imm s pa va tr hruns ha hroot hlen hnew
    have hme : (s.entered (.stntD d a imm)).me.wc = s.me.wc := by rw [State.me, State.entered_slot_wc, State.entered_cur]
    have honly : MemoryOnly (s.entered (.stntD d a imm)) ((s.entered (.stntD d a imm)).setMe { (s.entered (.stntD d a imm)).me with
        wc := (s.entered (.stntD d a imm)).me.wc ++
          [⟨lineAddr pa, lineAddr va, lineOf (pa % 64) 8 (s.me.gval d).toNat, byteMask (pa % 64) 8⟩] }) := MemoryOnly.setSlot rfl
    refine ⟨_, honly, by rw [State.setSlot_ms, State.entered_ms], ?_, exec_stntD_stores hruns ha hroot honly ?_⟩
    · rw [State.me, State.setSlot_cur, State.slot_setSlot_self, hme]
    · rw [if_pos rfl]
      exact bufferStore_appends (by rw [hme]; exact hlen) (by rw [hme]; exact hnew)
  case uncached =>
    intro d a imm s pa va tr hruns ha hroot hi hl hm
    have hag := State.entered_agent_hyp (i := .stntD d a imm) hroot rfl
    obtain ⟨u, hrun, honly, hleaves⟩ := storePlace_leaves (cached := false) (v := (s.me.gval d).toNat) hag (by decide)
      (by decide) (access_mem_within ha (by decide)) (State.entered_noInjection hi) (State.entered_homeLives hl) (State.entered_merges _ hm)
    rw [State.me, State.entered_cur] at hrun
    exact ⟨u, honly, hleaves.of_entered.1 rfl, exec_stntD_stores hruns ha hroot honly hrun⟩
  all_goals exact storesAs_storeInstr (by decide) (fun _ _ _ _ => rfl) (fun _ _ _ => rfl) fun _ _ _ => rfl

/-! ### Releasing stores -/

/-- A line that the L1 finds, in an L1 whose lines stand for lines of another, stands for one of the same cell and address. -/
theorem Stands.l1Find {m m' : MemSys} {cell : Nat} {asid : BitVec 16} {va k : Nat} {x : L1Line} (h : Stands m'.l1 m.l1)
    (hx : m'.l1Find cell asid va k = some x) : ∃ y ∈ m.l1, y.cell = cell ∧ y.va = va ∧ x.dirty = y.dirty ∧ x.check = y.check := by
  have hname := List.find?_some hx
  simp only [L1Line.is, Bool.and_eq_true, decide_eq_true_eq] at hname
  obtain ⟨y, hy, hcell, -, hdirty, hva, hcheck⟩ := h x (List.mem_of_find?_eq_some hx)
  exact ⟨y, hy, hcell.symm.trans hname.1.1.1, hva.symm.trans hname.1.2, hdirty, hcheck⟩

/-- A line put is found by its name. -/
theorem MemSys.l1Find_put_of_is (m : MemSys) {y : L1Line} {cell : Nat} {asid : BitVec 16} {va k : Nat}
    (h : y.is cell asid va k = true) : (m.l1Put y).l1Find cell asid va k = some y := by
  simp only [L1Line.is, Bool.and_eq_true, decide_eq_true_eq] at h
  obtain ⟨⟨⟨rfl, rfl⟩, rfl⟩, rfl⟩ := h
  exact m.l1Find_put y

/-- Bytes stored into a clean line of the L1, or into a new one, are its only dirty bytes (R137). -/
theorem l1Store_clean {cell : Nat} {asid : BitVec 16} {line va : Nat} {data : LineVal} {mask : BitVec 64} {s : State}
    (hi : s.noInjection) (hx : ∀ x, s.ms.l1Find cell asid va 0 = some x → x.check ≠ .single ∧ x.dirty = 0) :
    ∃ x l1, l1Store cell asid line va 0 data mask s = .ok () (s.withL1 l1) ∧ (s.withL1 l1).ms.l1Find cell asid va 0 = some x ∧
      x.dirty = mask := by
  simp only [l1Store, run_bind, run_get]
  cases hf : s.ms.l1Find cell asid va 0 with
  | none =>
    simp only [if_true, run_bind, run_injected hi, run_modMs]
    exact ⟨_, _, rfl, MemSys.l1Find_put s.ms _, rfl⟩
  | some x =>
    obtain ⟨hcheck, hdirty⟩ := hx x hf
    have hname : x.is cell asid va 0 = true :=
      List.find?_some (p := fun x : L1Line => x.is cell asid va 0) (l := s.ms.l1) hf
    simp only [run_bind, run_noteMerge hcheck, run_injected hi, run_modMs]
    exact ⟨_, _, rfl, MemSys.l1Find_put_of_is s.ms hname, by simp [hdirty]⟩

theorem or_and_self_right (a b : BitVec 16) : (a ||| b) &&& b = b := by
  apply BitVec.eq_of_getLsbD_eq
  intro k _
  rw [BitVec.getLsbD_and, BitVec.getLsbD_or]
  cases b.getLsbD k <;> simp

/-- The bytes of a releasing store are performed at the home; the cell's line of a cacheable page holds them clean, and owns their words
where the home is in the package (R138, R148). -/
theorem performAtHome_ok {s : State} {pa va n v : Nat} {cached : Bool} (hroot : s.hyps.eff (s.me.agent s.cur).hyp = 0) (h0 : 0 < n)
    (hw : pa % 64 + n ≤ 64) (hi : s.noInjection) (hl : s.homeLives pa) (hq : s.quiet pa) (hm : s.merges pa va) :
    ∃ u, performAtHome (.mem pa va cached) n v s = .ok () u ∧ MemoryOnly s u ∧ Wrote s u pa n v ∧
      (cached = true → ∃ x, u.l1Of va 0 = some x ∧ x.dirty = 0 ∧
        (pkgOf pa = s.ws.own → x.owned &&& wordsOf (byteMask (pa % 64) n) = wordsOf (byteMask (pa % 64) n))) := by
  obtain ⟨hheld, hcheck, hl1⟩ := hm
  obtain ⟨t, hrunT, honlyT, hms, -⟩ := unbuffer_ok s.cur (lineAddr pa) (byteMask (pa % 64) n) s
  have hcheckT : t.ms.checkOf (lineAddr pa) ≠ .single := by rw [hms]; exact hcheck
  obtain ⟨w, hrunW, honlyW, hwrote, -, hstands⟩ := homeMerge_bytes (v := v) (own := if cached then some (s.me.agent s.cur).cell else none)
    (exempt := none) h0 hw (honlyT.homeLives hl) (honlyT.noInjection hi) hcheckT
  have honly := honlyT.trans honlyW
  have hwroteS : Wrote s w pa n v := fun a => by rw [hwrote a, State.byteAt, hms]; rfl
  simp only [performAtHome, run_bind, run_curAgent, run_curId, run_get, run_awaitLine hheld, run_ite, hroot, ne_eq, not_true_eq_false,
    if_false, hrunT, hrunW]
  cases cached with
  | false => exact ⟨w, rfl, honly, hwroteS, fun h => absurd h Bool.false_ne_true⟩
  | true =>
    have hfound : ∀ x, w.ms.l1Find (s.me.agent s.cur).cell (s.me.agent s.cur).asid (lineAddr va) 0 = some x →
        x.check ≠ .single ∧ x.dirty = 0 := by
      intro x hx
      rw [hms] at hstands
      obtain ⟨y, hy, hcell, hva, hdirty, hchk⟩ := hstands.l1Find hx
      exact ⟨by rw [hchk]; exact hl1 y hy hcell hva, by rw [hdirty]; exact (hq.2 y hy hcell).1⟩
    obtain ⟨x, l1, hstore, hx, hdirty⟩ := l1Store_clean (line := lineAddr pa) (data := lineOf (pa % 64) n v)
      (mask := byteMask (pa % 64) n) (honly.noInjection hi) hfound
    have hname : x.is (cellOf s.cur) s.me.asid (lineAddr va) 0 = true :=
      List.find?_some (p := fun x : L1Line => x.is (cellOf s.cur) s.me.asid (lineAddr va) 0) (l := l1) hx
    have hlast := fun m => honly.trans (MemoryOnly.with_ms w m)
    simp only [if_true, hstore, run_modMs, hx]
    refine ⟨_, rfl, hlast _, fun a => ?_, fun _ => ⟨_, ((hlast _).l1Of va 0).trans (MemSys.l1Find_put_of_is _ hname), ?_, fun hp => ?_⟩⟩
    · rw [← hwroteS a]
      simp only [State.byteAt, MemSys.l1Put_mem]
    · simp [hdirty]
    · simp only [pkgOf_lineAddr, hp, if_true, or_and_self_right]

theorem Same.merges {s u : State} (h : Same s u) {pa va : Nat} (hm : s.merges pa va) : u.merges pa va := by
  obtain ⟨hheld, hcheck, hl1⟩ := hm
  refine ⟨by rw [h.heldLine]; exact hheld, by rw [h.checkOf]; exact hcheck, fun x hx hcell hva => ?_⟩
  obtain ⟨y, hy, ecell, -, -, eva, echeck⟩ := h.stands x hx
  rw [echeck]
  exact hl1 y hy (by rw [← ecell, hcell, h.cur]) (eva.symm.trans hva)

theorem Same.wrote {s t u : State} (h : Same s t) {pa n v : Nat} (hw : Wrote t u pa n v) : Wrote s u pa n v :=
  fun a => by rw [hw a, h.byteAt]

theorem Wrote.of_entered {s u : State} {i : Instr} {pa n v : Nat} (h : Wrote (s.entered i) u pa n v) : Wrote s u pa n v :=
  fun a => by rw [h a, State.entered_byteAt]

theorem State.entered_quiet {s : State} (i : Instr) {pa : Nat} (h : s.quiet pa) : (s.entered i).quiet pa := by
  refine ⟨?_, ?_⟩
  · rw [State.me, State.entered_slot_wc, State.entered_cur]; exact h.1
  · rw [State.entered_ms, State.entered_cur]; exact h.2

theorem State.entered_storesQueued (s : State) (i : Instr) :
    (s.entered i).storesQueued (s.entered i).cur = s.storesQueued s.cur := by
  simp only [State.storesQueued, State.entered_cur, State.entered_core]

/-- What a releasing store of n bytes does (R138, R148). -/
def Releases (mk : GReg → GReg → BitVec 14 → Instr) (n : Nat) : Prop :=
  ∀ (d a : GReg) (imm : BitVec 14) (s : State) (pa va : Nat) (cached : Bool) (tr : Option Trans),
    s.runs (mk d a imm) = true →
    (s.entered (mk d a imm)).access .allowed (s.me.gval a + imm.signExtend 64) n .write = .ok (.mem pa va cached, tr) →
    s.atRoot → s.noInjection → s.homeLives pa → s.quiet pa → s.merges pa va →
    ∃ u, MemoryOnly (s.entered (mk d a imm)) u ∧ Wrote s u pa n (s.me.gval d).toNat ∧
      (cached = true → ∃ x, u.l1Of va 0 = some x ∧ x.dirty = 0 ∧
        (pkgOf pa = s.ws.own → x.owned &&& wordsOf (byteMask (pa % 64) n) = wordsOf (byteMask (pa % 64) n))) ∧
      exec (mk d a imm) s = .next (u.done (mk d a imm))

theorem releases_strelInstr {mk : GReg → GReg → BitVec 14 → Instr} {n : Nat} (hn : n = 1 ∨ n = 2 ∨ n = 4 ∨ n = 8)
    (hexec : ∀ d a imm s, exec (mk d a imm) s = strelInstr (mk d a imm) d a imm n s)
    (hlss : ∀ d a imm, isLss (mk d a imm) = true) (hret : ∀ d a imm, isTret (mk d a imm) = false) : Releases mk n := by
  intro d a imm s pa va cached tr hruns ha hroot hi hl hq hm
  have hag := State.entered_agent_hyp hroot (by rw [isOrphanPoint, hlss d a imm]; rfl)
  have hstores := State.runs_stores hruns (by rw [hlss d a imm]; rfl)
  have hqE := State.entered_quiet (mk d a imm) hq
  obtain ⟨t, ht, hrelease⟩ := releaseNow_same (State.quiet_calm hqE) ((s.entered_storesQueued _).trans hstores)
  have hagT : t.hyps.eff (t.me.agent t.cur).hyp = 0 := by rw [ht.alike.hyps, ht.me, ht.cur]; exact hag
  have haT : checkAccess ((s.slot s.cur).gval a + sext imm) n .write t = .ok (.mem pa va cached) t :=
    run_checkAccess_ok ((ht.access _ _ _ _).trans ha)
  obtain ⟨u, hrun, honly, hwrote, hline⟩ := performAtHome_ok (cached := cached) (v := (s.me.gval d).toNat % 2 ^ (8 * n)) hagT (by omega)
    (access_mem_within ha hn) (ht.noInjection (State.entered_noInjection hi)) (ht.homeLives (State.entered_homeLives hl)) (ht.quiet hqE)
    (ht.merges (State.entered_merges _ hm))
  have hown : t.ws.own = s.ws.own := by rw [ht.alike.ws, State.entered_ws]
  rw [hown] at hline
  refine ⟨u, ht.only.trans honly, (ht.wrote hwrote).of_entered.mod, hline, ?_⟩
  rw [hexec]
  refine issue_seq hruns ?_ ?_ (hret d a imm)
  · have htslot : t.slot s.cur = (s.entered (mk d a imm)).slot s.cur := ht.slot _
    have htcur : t.cur = s.cur := ht.cur.trans (s.entered_cur _)
    rw [State.me, htcur] at hagT
    simp only [dispAddr, run_bind, run_rd, run_pure, State.entered_cur, State.entered_gval, hrelease, run_curSlot, haT, htcur,
      htslot, bypassed_entered hruns, run_curAgent]
    rw [htslot] at hagT
    simp only [reserveStore_ok hagT, htcur, htslot, State.entered_gval]
    exact hrun
  · rw [(ht.only.trans honly).partner]
    exact s.entered_slot_partner _ _

/-! ### Stores to every replica -/

/-- Two ranges of n bytes that start at multiples of n are the same or apart. -/
theorem aligned_eq {a b c n : Nat} (ha : a % n = 0) (hb : b % n = 0) (h1 : a ≤ c) (h2 : c < a + n) (h3 : b ≤ c)
    (h4 : c < b + n) : a = b := by
  obtain ⟨p, rfl⟩ := Nat.dvd_of_mod_eq_zero ha
  obtain ⟨q, rfl⟩ := Nat.dvd_of_mod_eq_zero hb
  have hpq : p < q + 1 := Nat.lt_of_mul_lt_mul_left (a := n) (by rw [Nat.mul_add]; omega)
  have hqp : q < p + 1 := Nat.lt_of_mul_lt_mul_left (a := n) (by rw [Nat.mul_add]; omega)
  rw [show p = q by omega]

/-- Every replica of a checked address lies at the same place of its page (R141). -/
theorem replicas_mod {s : State} {va : Word} {n : Nat} {k : Acc} {p : Place} {tr : Trans}
    (ha : s.access .none va n k = .ok (p, some tr)) {pa : Nat} (hpa : pa ∈ replicas tr va.toNat) : pa % 2 ^ 16 = va.toNat % 2 ^ 16 := by
  obtain ⟨-, -, ⟨off, -, htr, -⟩ | ⟨t, ht, -, htr⟩⟩ := checkPlace_ok ha
  · cases htr
  · cases htr
    rw [replicas] at hpa
    split at hpa
    · rw [List.mem_singleton.mp hpa]; exact translatePlain_ok ht
    · obtain ⟨d, -, rfl⟩ := List.mem_map.mp hpa
      exact leafPa_mod _ _ _

/-- What an address must be for the task's store to its home to go through. -/
structure State.Replica (s : State) (n pa : Nat) : Prop where
  aligned : pa % n = 0
  within : pa % 64 + n ≤ 64
  calm : s.calm
  lives : s.homeLives pa
  free : s.heldLine (lineAddr pa) = false
  check : s.ms.checkOf (lineAddr pa) ≠ .single

theorem StoreKeeps.replica {s u : State} (h : StoreKeeps s u) {n pa : Nat} (hr : s.Replica n pa) : u.Replica n pa :=
  ⟨hr.aligned, hr.within, h.calm hr.calm, h.only.homeLives hr.lives, (h.only.heldLine _).trans hr.free, h.check _ hr.check⟩

/-- The same n bytes stored at several aligned addresses, one after another: each holds them in the end, and no other byte changes
(R150). -/
theorem mstoreEach_stored {n v : Nat} (h0 : 0 < n) (pas : List Nat) {s : State} (hi : s.noInjection)
    (hr : ∀ pa ∈ pas, s.Replica n pa) :
    ∃ u, eachM (fun pa => mstoreAt pa n v) pas s = .ok () u ∧ StoreKeeps s u ∧
      (∀ pa ∈ pas, ∀ k, k < n → u.byteAt (pa + k) = BitVec.ofNat 8 (v / 256 ^ k)) ∧
      ∀ b, (∀ pa ∈ pas, b < pa ∨ pa + n ≤ b) → u.byteAt b = s.byteAt b := by
  induction pas generalizing s with
  | nil => exact ⟨s, rfl, (Same.refl s).storeKeeps, fun _ h => absurd h List.not_mem_nil, fun _ _ => rfl⟩
  | cons pa rest ih =>
    have hpa := hr pa List.mem_cons_self
    obtain ⟨t, hrunT, hkeepT, hwrote⟩ := mstoreAt_stored (v := v) h0 hpa.within hpa.calm hpa.free hpa.lives hi hpa.check
    obtain ⟨u, hrunU, hkeepU, hbytes, hframe⟩ := ih (hkeepT.only.noInjection hi)
      fun qa hqa => hkeepT.replica (hr qa (List.mem_cons_of_mem _ hqa))
    have htail : ∀ b, (∀ qa ∈ rest, b < qa ∨ qa + n ≤ b) ∨ ∃ qa ∈ rest, qa ≤ b ∧ b < qa + n := by
      intro b
      by_cases h : ∃ qa ∈ rest, qa ≤ b ∧ b < qa + n
      · exact .inr h
      · exact .inl fun qa hqa => (Nat.lt_or_ge b qa).imp_right fun h1 => Nat.le_of_not_lt fun h2 => h ⟨qa, hqa, h1, h2⟩
    refine ⟨u, by rw [run_eachM_cons, hrunT]; exact hrunU, hkeepT.trans hkeepU, fun qa hqa k hk => ?_, fun b hb => ?_⟩
    · rcases List.mem_cons.mp hqa with rfl | hqa
      · rcases htail (qa + k) with hout | ⟨ra, hra, h1, h2⟩
        · rw [hframe _ hout, hwrote, if_pos (by omega), Nat.add_sub_cancel_left]
        · obtain rfl : ra = qa := aligned_eq (hr ra (List.mem_cons_of_mem _ hra)).aligned hpa.aligned h1 h2 (by omega) (by omega)
          exact hbytes ra hra k hk
      · exact hbytes qa hqa k hk
    · have hhead := hb pa List.mem_cons_self
      rw [hframe b fun qa hqa => hb qa (List.mem_cons_of_mem _ hqa), hwrote, if_neg (by omega)]

/-- What a store of n bytes to every replica does (R141, R150). -/
def Replicates (mk : GReg → GReg → BitVec 14 → Instr) (n : Nat) : Prop :=
  ∀ (d a : GReg) (imm : BitVec 14) (s : State) (p : Place) (tr : Trans), s.runs (mk d a imm) = true →
    (s.entered (mk d a imm)).access .none (s.me.gval a + imm.signExtend 64) n .write = .ok (p, some tr) →
    s.atRoot → s.noRegion → s.noInjection →
    (∀ pa ∈ replicas tr (s.me.gval a + imm.signExtend 64).toNat, s.homeLives pa ∧ s.quiet pa ∧
      s.heldLine (lineAddr pa) = false ∧ s.ms.checkOf (lineAddr pa) ≠ .single) →
    ∃ u, MemoryOnly (s.entered (mk d a imm)) u ∧
      (∀ pa ∈ replicas tr (s.me.gval a + imm.signExtend 64).toNat, ∀ k, k < n →
        u.byteAt (pa + k) = BitVec.ofNat 8 ((s.me.gval d).toNat / 256 ^ k)) ∧
      (∀ b, (∀ pa ∈ replicas tr (s.me.gval a + imm.signExtend 64).toNat, b < pa ∨ pa + n ≤ b) → u.byteAt b = s.byteAt b) ∧
      exec (mk d a imm) s = .next (u.done (mk d a imm))

theorem mstoreAt_mod (pa n v : Nat) : mstoreAt pa n (v % 2 ^ (8 * n)) = mstoreAt pa n v := by simp only [mstoreAt, lineOf_mod]

theorem replicates_mstoreInstr {mk : GReg → GReg → BitVec 14 → Instr} {n : Nat} (hn : n = 4 ∨ n = 8)
    (hexec : ∀ d a imm s, exec (mk d a imm) s = mstoreInstr (mk d a imm) d a imm n s)
    (hlss : ∀ d a imm, isLss (mk d a imm) = true) (hret : ∀ d a imm, isTret (mk d a imm) = false) : Replicates mk n := by
  intro d a imm s p tr hruns ha hroot hreg hi hpas
  obtain ⟨-, -, hhyp, himpl, hregions, -⟩ := enter_facts hruns (hlss d a imm) hroot hreg
  obtain ⟨-, halign, -⟩ := checkPlace_ok ha
  have hreplica : ∀ pa ∈ replicas tr (s.me.gval a + imm.signExtend 64).toNat, (s.entered (mk d a imm)).Replica n pa := by
    intro pa hpa
    obtain ⟨hl, hq, hh, hc⟩ := hpas pa hpa
    have hmod := replicas_mod ha hpa
    refine ⟨?_, ?_, State.quiet_calm (State.entered_quiet _ hq), State.entered_homeLives hl, ?_, by rw [State.entered_ms]; exact hc⟩
    · rcases hn with rfl | rfl <;> omega
    · exact access_within hmod (by rcases hn with rfl | rfl <;> decide) halign
    · rw [State.heldLine, State.entered_hyps]; exact hh
  obtain ⟨u, hrun, hkeep, hbytes, hframe⟩ := mstoreEach_stored (n := n) (v := (s.me.gval d).toNat) (by omega) _
    (State.entered_noInjection hi) hreplica
  refine ⟨u, hkeep.only, hbytes, fun b hb => (hframe b hb).trans (s.entered_byteAt _ b), ?_⟩
  have haddr : checkMem ((s.slot s.cur).gval a + sext imm) n .write (s.entered (mk d a imm)) = .ok tr (s.entered (mk d a imm)) := by
    have ha' : checkPlace (s.entered (mk d a imm)) (((s.entered (mk d a imm)).slot s.cur).agent s.cur) .none
        ((s.slot s.cur).gval a + sext imm) n .write = .ok (p, some tr) := by
      rw [State.access, State.me, State.entered_cur] at ha; exact ha
    simp [checkMem, checkAccessBy, ha']
  rw [hexec]
  refine issue_seq hruns ?_ ?_ (hret d a imm)
  · simp only [dispAddr, run_bind, run_rd, run_pure, State.entered_cur, State.entered_gval, haddr, hypAtomicCheck_ok hhyp himpl,
      run_eachM_stay fun pa _ => hypWordCheck_ok hhyp, markNonrev_ok hregions, mstoreAt_mod]
    exact hrun
  · rw [hkeep.only.partner]
    exact s.entered_slot_partner _ _

theorem homeStoreOutcomes : Claims.HomeStoreOutcomes :=
  ⟨releases_strelInstr (by decide) (fun _ _ _ _ => rfl) (fun _ _ _ => rfl) fun _ _ _ => rfl,
   releases_strelInstr (by decide) (fun _ _ _ _ => rfl) (fun _ _ _ => rfl) fun _ _ _ => rfl,
   replicates_mstoreInstr (by decide) (fun _ _ _ _ => rfl) (fun _ _ _ => rfl) fun _ _ _ => rfl,
   replicates_mstoreInstr (by decide) (fun _ _ _ _ => rfl) (fun _ _ _ => rfl) fun _ _ _ => rfl⟩

/-- Settles O6: loads give what the task sees, plain stores go to the cell's line or the home, and stores that release or replicate write
their homes. -/
theorem loadsAndStores : Obligations.LoadsAndStores := ⟨loadOutcomes, storeOutcomes, homeStoreOutcomes⟩

end Sys2Proof.Machine
end

section
/-!
PROOFS. Atomics, reservations, and the wait on a write.
-/

namespace Sys2Proof.Machine

@[simp] theorem run_peek (pa n : Nat) (s : State) : peek pa n s = .ok (s.peek pa n) s := rfl

/-! ### The way of an instruction to its word at home -/

/-- An instruction on one word of memory, outside replicated pages, whose access passes its check: the task is at the root and in no
region, and its cell holds nothing of the line (R141, R153, R318). -/
structure State.AtomicAt (s : State) (i : Instr) (a : GReg) (n : Nat) (p : Place) (tr : Trans) : Prop where
  runs : s.runs i = true
  lss : isLss i = true
  place : (s.entered i).access .none (s.me.gval a) n .rmw = .ok (p, some tr)
  single : tr.rdies = 0
  root : s.atRoot
  region : s.noRegion
  quiet : s.quiet tr.pa
  free : s.heldLine (lineAddr tr.pa) = false

theorem Same.entered_gval {s u : State} {i : Instr} (h : Same (s.entered i) u) (r : GReg) : (u.slot u.cur).gval r = s.me.gval r := by
  rw [h.slot, h.cur, State.entered_gval, State.entered_cur]

theorem Same.entered_peek {s u : State} {i : Instr} (h : Same (s.entered i) u) (pa n : Nat) : u.peek pa n = s.peek pa n := by
  rw [h.peek, State.peek, State.entered_ms, State.peek]

theorem Same.entered_sameMemory {s u : State} {i : Instr} (h : Same (s.entered i) u) : SameMemory s u :=
  fun a => (h.byteAt a).trans (s.entered_byteAt i a)

/-- Up to the word at its home nothing changes but lines of the L1: the release, the checks, and the word's way home (R153, R154). -/
theorem State.AtomicAt.reaches {s : State} {i : Instr} {a : GReg} {n : Nat} {p : Place} {tr : Trans} (h : s.AtomicAt i a n p tr)
    (o : AmoOrd) :
    ∃ t u, Same (s.entered i) t ∧ Same (s.entered i) u ∧ relIf o (s.entered i) = .ok () t ∧ atomicPlace a n .rmw t = .ok tr t ∧
      (∀ va, atomicRules tr.pa va n t = .ok () t) ∧ wordToHome tr.pa n t = .ok () u ∧ markNonrev u = .ok () u ∧
      (s.ms.checkOf (lineAddr tr.pa) = .good →
        consumeHome (lineAddr tr.pa) t = .ok () t ∧ consumeHome (lineAddr tr.pa) u = .ok () u) := by
  obtain ⟨hstores, hquiet, hhyp, himpl, hregions, -⟩ := enter_facts h.runs h.lss h.root h.region
  have hq := hquiet _ h.quiet
  have hfree : (s.entered i).heldLine (lineAddr tr.pa) = false := by
    rw [State.heldLine, State.entered_hyps]; exact h.free
  obtain ⟨t, ht, hrelease⟩ := relIf_same (o := o) (State.quiet_calm hq) hstores
  obtain ⟨u, hu, hhome⟩ := wordToHome_same (n := n) (ht.quiet hq) ((ht.heldLine _).trans hfree)
  have hslotT : t.slot t.cur = (s.entered i).slot (s.entered i).cur := ht.me
  have hslotU : u.slot u.cur = (s.entered i).slot (s.entered i).cur := (ht.trans hu).me
  have hplace : t.access .none (t.me.gval a) n .rmw = .ok (p, some tr) := by
    rw [ht.access, State.me, ht.entered_gval]; exact h.place
  refine ⟨t, u, ht, ht.trans hu, hrelease, atomicPlace_ok hplace h.single, fun va => atomicRules_ok (by rw [hslotT]; exact hhyp)
    (by rw [hslotT]; exact himpl), hhome, markNonrev_ok (by rw [hslotU]; exact hregions), fun hgood => ⟨?_, ?_⟩⟩
  · exact run_consumeHome (by rw [ht.checkOf, State.entered_ms]; exact hgood) ((ht.heldLine _).trans hfree)
  · exact run_consumeHome (by rw [(ht.trans hu).checkOf, State.entered_ms]; exact hgood) (((ht.trans hu).heldLine _).trans hfree)

theorem State.AtomicAt.within {s : State} {i : Instr} {a : GReg} {wd : AmoWidth} {p : Place} {tr : Trans}
    (h : s.AtomicAt i a wd.bytes p tr) : tr.pa % 64 + wd.bytes ≤ 64 := access_trans_within h.place (AmoWidth.bytes_cases wd)

/-- What changes memory alone after an instruction has entered keeps the slot's partner. -/
theorem MemoryOnly.partner_entered {s u : State} {i : Instr} (h : MemoryOnly (s.entered i) u) :
    (u.slot s.cur).partner = (s.slot s.cur).partner := by
  rw [h.partner, State.entered_slot_partner]

/-! ### Atomics -/

/-- An atomic: where its operation gives a number the word at its home holds it then, where it gives none memory stays, and g[D] is what
the word held (R153). -/
theorem amoInstr_runs {i : Instr} {d a b : GReg} {wd : AmoWidth} {o : AmoOrd} {op : Nat → Nat → Nat → Option Nat} {s : State}
    {p : Place} {tr : Trans} (h : s.AtomicAt i a wd.bytes p tr) (hexec : exec i s = amoInstr i d a b wd o op s) (hret : isTret i = false)
    (hi : s.noInjection) (hl : s.homeLives tr.pa) (hgood : s.ms.checkOf (lineAddr tr.pa) = .good) :
    let r := op (s.peek tr.pa wd.bytes) ((s.me.gval b).toNat % 2 ^ (8 * wd.bytes)) ((s.me.gval d).toNat % 2 ^ (8 * wd.bytes))
    ∃ u, MemoryOnly (s.entered i) u ∧ (∀ v, r = some v → Wrote s u tr.pa wd.bytes v) ∧ (r = none → SameMemory s u) ∧
      exec i s = .next ((u.put d (loaded true wd.bytes (s.peek tr.pa wd.bytes))).done i) := by
  intro r
  obtain ⟨t, u, ht, hu, hrelease, hplace, hrules, hhome, hmark, hconsume⟩ := h.reaches o
  obtain ⟨hconsumeT, hconsumeU⟩ := hconsume hgood
  have hn := AmoWidth.bytes_cases wd
  have hrun : ∀ w x, (match r with
      | some v => homeMerge (lineAddr tr.pa) (lineOf (tr.pa % 64) wd.bytes v) (byteMask (tr.pa % 64) wd.bytes) none none u
      | none => .ok () u) = .ok () w → acqIf o w = .ok () x → MemoryOnly (s.entered i) x →
      exec i s = .next ((x.put d (loaded true wd.bytes (s.peek tr.pa wd.bytes))).done i) := by
    intro w x hw hx honly
    rw [hexec]
    refine issue_seq h.runs ?_ ?_ hret
    · simp only [run_bind, hrelease, hplace, run_rd, hconsumeT, hrules, hhome, hconsumeU, run_peek, hmark, hu.entered_gval,
        hu.entered_peek]
      cases hr : op (s.peek tr.pa wd.bytes) ((s.me.gval b).toNat % 2 ^ (8 * wd.bytes)) ((s.me.gval d).toNat % 2 ^ (8 * wd.bytes)) with
      | none =>
        simp only [r, hr] at hw
        cases hw
        simp only [run_bind, hx, run_wr, extend_eq _ _ _ hn]
      | some v =>
        simp only [r, hr] at hw
        simp only [run_bind, hw, hx, run_wr, extend_eq _ _ _ hn]
    · rw [State.put_slot_partner, honly.partner_entered]
  cases hr : r with
  | none =>
    obtain ⟨x, hx, hacquire⟩ := acqIf_same o u
    have hsame := hu.trans hx
    exact ⟨x, hsame.only, nofun, fun _ => hsame.entered_sameMemory, hrun u x (by rw [hr]) hacquire hsame.only⟩
  | some v =>
    obtain ⟨w, hmerge, honly, hwrote, -⟩ := homeMerge_bytes (s := u) (v := v) (own := none) (exempt := none) (by omega) h.within
      (hu.homeLives (State.entered_homeLives hl)) (hu.noInjection (State.entered_noInjection hi))
      (by rw [hu.checkOf, State.entered_ms, hgood]; decide)
    obtain ⟨x, hx, hacquire⟩ := acqIf_same o w
    have honlyX := (hu.only.trans honly).trans hx.only
    refine ⟨x, honlyX, fun v' hv a => ?_, nofun, hrun w x (by rw [hr]; exact hmerge) hacquire honlyX⟩
    cases hv
    rw [hx.byteAt, hwrote a, hu.byteAt, State.entered_byteAt]

/-- An atomic of two sources that always writes. -/
theorem amoAs_amoInstr {mk : GReg → GReg → GReg → AmoWidth → AmoOrd → Instr} {op : AmoWidth → Nat → Nat → Nat}
    (hexec : ∀ d a b wd o s, exec (mk d a b wd o) s = amoInstr (mk d a b wd o) d a b wd o (fun m x _ => some (op wd m x)) s)
    (hlss : ∀ d a b wd o, isLss (mk d a b wd o) = true) (hret : ∀ d a b wd o, isTret (mk d a b wd o) = false) : AmoAs mk op := by
  intro d a b wd o s p tr hruns ha hr hroot hreg hi hl hq hgood hh
  obtain ⟨u, honly, hwrote, -, hrun⟩ := amoInstr_runs ⟨hruns, hlss d a b wd o, ha, hr, hroot, hreg, hq, hh⟩ (hexec d a b wd o s)
    (hret d a b wd o) hi hl hgood
  exact ⟨u, honly, hwrote _ rfl, hrun⟩

theorem amoBits_pos (wd : AmoWidth) : 0 < amoBits wd := by cases wd <;> decide

theorem atomicOutcomes : Claims.AtomicOutcomes := by
  have hsigned : ∀ (wd : AmoWidth) (m : Nat), (BitVec.ofNat (8 * wd.bytes) m).toInt = asSigned m (amoBits wd) :=
    fun wd m => (asSigned_eq m (amoBits wd) (amoBits_pos wd)).symm
  refine ⟨?_, ?_, ?_, ?_, ?amomin, ?amomax, ?_, ?_, ?_, ?amocas⟩
  case amomin | amomax =>
    simp only [hsigned]
    exact amoAs_amoInstr (fun _ _ _ _ _ _ => rfl) (fun _ _ _ _ _ => rfl) fun _ _ _ _ _ => rfl
  case amocas =>
    intro d a b wd o s p tr i hruns ha hr hroot hreg hi hl hq hgood hh
    obtain ⟨u, honly, hwrote, hsame, hrun⟩ := amoInstr_runs (b := b) (op := fun m x e => if m = e then some x else none)
      ⟨hruns, rfl, ha, hr, hroot, hreg, hq, hh⟩ (exec_amocas d a b wd o s) rfl hi hl hgood
    exact ⟨u, honly, fun heq => (hwrote _ (if_pos heq)).mod, fun hne => hsame (if_neg hne), hrun⟩
  all_goals exact amoAs_amoInstr (fun _ _ _ _ _ _ => rfl) (fun _ _ _ _ _ => rfl) fun _ _ _ _ _ => rfl

/-! ### Reservations -/

/-- A change of the running slot's reservation alone. -/
theorem MemoryOnly.setResv (s : State) (r : Option Resv) : MemoryOnly s (s.setSlot s.cur { s.slot s.cur with resv := r }) :=
  MemoryOnly.setSlot rfl

/-- `lr`: the word at its home, and the slot's reservation on the line where the home has an entry for it (R154, R155). -/
theorem loadReserve_runs {d a : GReg} {wd : AmoWidth} {o : AmoOrd} {s : State} {p : Place} {tr : Trans}
    (h : s.AtomicAt (.lr d a wd o) a wd.bytes p tr) (hgood : s.ms.checkOf (lineAddr tr.pa) = .good) :
    ∃ u held, MemoryOnly (s.entered (.lr d a wd o)) u ∧ SameMemory s u ∧
      u.me.resv = (if held = true then some ⟨lineAddr tr.pa, false⟩ else none) ∧ (pkgOf tr.pa = s.ws.own → held = true) ∧
      exec (.lr d a wd o) s = .next ((u.put d (loaded true wd.bytes (s.peek tr.pa wd.bytes))).done (.lr d a wd o)) := by
  obtain ⟨t, u, ht, hu, hrelease, hplace, hrules, hhome, hmark, hconsume⟩ := h.reaches o
  obtain ⟨hconsumeT, hconsumeU⟩ := hconsume hgood
  let freed := u.setSlot u.cur { u.slot u.cur with resv := none }
  let held := freed.mayReserve (lineAddr tr.pa)
  let reserved := freed.setSlot freed.cur
    { freed.slot freed.cur with resv := if held = true then some ⟨lineAddr tr.pa, false⟩ else none }
  obtain ⟨x, hx, hacquire⟩ := acqIf_same o reserved
  have honly : MemoryOnly (s.entered (.lr d a wd o)) x :=
    ((hu.only.trans (MemoryOnly.setResv u _)).trans (MemoryOnly.setResv freed _)).trans hx.only
  have hpeek : x.peek tr.pa wd.bytes = s.peek tr.pa wd.bytes := (hx.peek _ _).trans (hu.entered_peek _ _)
  refine ⟨x, held, honly, fun b => (hx.byteAt b).trans (hu.entered_sameMemory b), ?_, fun hp => ?_, ?_⟩
  · rw [hx.me]
    exact congrArg Slot.resv (State.slot_setSlot_self _ _ _)
  · have hown : pkgOf (lineAddr tr.pa) = freed.ws.own := by
      rw [pkgOf_lineAddr, hp, State.setSlot_ws, hu.alike.ws, State.entered_ws]
    simp [held, State.mayReserve, hown]
  · rw [exec_lr]
    refine issue_seq h.runs ?_ ?_ rfl
    · simp only [run_bind, hrelease, hplace, run_rd, hconsumeT, hrules, hhome, hconsumeU, hmark, run_modSlot, run_get]
      rw [hacquire]
      simp only [run_peek, run_wr, hpeek, extend_eq _ _ _ (AmoWidth.bytes_cases wd)]
    · rw [State.put_slot_partner, honly.partner_entered]

/-- What `sc` stores by the slot's reservation (R155). -/
theorem scStore_ok {pa n v : Nat} {s : State} (h0 : 0 < n) (hw : pa % 64 + n ≤ 64) (hl : s.homeLives pa) (hi : s.noInjection)
    (hc : s.ms.checkOf (lineAddr pa) ≠ .single) (resv : Option Resv) :
    ∃ u status, scStore pa n v resv s = .ok status u ∧ MemoryOnly s u ∧
      (resv = some ⟨lineAddr pa, false⟩ → status = 0 ∧ Wrote s u pa n v ∧
        ∀ k r, k ≠ s.cur → (u.slot k).resv = some r → r.line = lineAddr pa → r.broken = true) ∧
      (resv = some ⟨lineAddr pa, true⟩ → status = 1 ∧ u = s) ∧
      ((∀ b, resv ≠ some ⟨lineAddr pa, b⟩) → status = 2 ∧ u = s) := by
  rcases resv with - | ⟨line, broken⟩
  · exact ⟨s, 2, rfl, .refl s, nofun, nofun, fun _ => ⟨rfl, rfl⟩⟩
  by_cases hline : line = lineAddr pa
  · subst hline
    cases broken with
    | true =>
      refine ⟨s, 1, ?_, .refl s, nofun, fun _ => ⟨rfl, rfl⟩, fun hne => absurd rfl (hne true)⟩
      simp [scStore]
    | false =>
      obtain ⟨u, hmerge, honly, hwrote, hslot, -⟩ := homeMerge_bytes (v := v) (own := none) (exempt := some s.cur) h0 hw hl hi hc
      refine ⟨u, 0, ?_, honly, fun _ => ⟨rfl, hwrote, fun k r hk hr hon => ?_⟩, nofun, fun hne => absurd rfl (hne false)⟩
      · simp [scStore, hmerge]
      · rw [hslot] at hr
        exact brokenBy_resv hr hon fun e => hk (Option.some.inj e)
  · refine ⟨s, 2, ?_, .refl s, fun e => ?_, fun e => ?_, fun _ => ⟨rfl, rfl⟩⟩
    · simp [scStore, hline]
    all_goals exact absurd (congrArg Resv.line (Option.some.inj e)) hline

/-- `sc`: the store where the slot's reservation stands on the line, and the status that says how it was lost; in each case the
reservation is gone (R155). -/
theorem storeConditional_runs {d a b : GReg} {wd : AmoWidth} {o : AmoOrd} {s : State} {p : Place} {tr : Trans}
    (h : s.AtomicAt (.sc d a b wd o) a wd.bytes p tr) (hi : s.noInjection) (hl : s.homeLives tr.pa)
    (hc : s.ms.checkOf (lineAddr tr.pa) ≠ .single) :
    ∃ u status, MemoryOnly (s.entered (.sc d a b wd o)) u ∧ u.me.resv = none ∧
      (s.me.resv = some ⟨lineAddr tr.pa, false⟩ → status = 0 ∧ Wrote s u tr.pa wd.bytes (s.me.gval b).toNat ∧
        ∀ k r, (u.slot k).resv = some r → r.line = lineAddr tr.pa → r.broken = true) ∧
      (s.me.resv = some ⟨lineAddr tr.pa, true⟩ → status = 1 ∧ SameMemory s u) ∧
      ((∀ b, s.me.resv ≠ some ⟨lineAddr tr.pa, b⟩) → status = 2 ∧ SameMemory s u) ∧
      exec (.sc d a b wd o) s = .next ((u.put d status).done (.sc d a b wd o)) := by
  obtain ⟨t, u, ht, hu, hrelease, hplace, hrules, hhome, hmark, -⟩ := h.reaches o
  have hresv : (u.slot u.cur).resv = s.me.resv := by rw [hu.slot, hu.cur, State.entered_cur, State.entered_slot_resv]
  have hn := AmoWidth.bytes_cases wd
  obtain ⟨w, status, hstore, honlyW, hstands, hbroken, hnone⟩ := scStore_ok (s := u) (v := (s.me.gval b).toNat)
    (by omega) h.within (hu.homeLives (State.entered_homeLives hl)) (hu.noInjection (State.entered_noInjection hi))
    (by rw [hu.checkOf, State.entered_ms]; exact hc) s.me.resv
  obtain ⟨x, hx, hacquire⟩ := acqIf_same o (w.setSlot w.cur { w.slot w.cur with resv := none })
  have honly : MemoryOnly (s.entered (.sc d a b wd o)) x := ((hu.only.trans honlyW).trans (MemoryOnly.setResv w none)).trans hx.only
  have hbyte : ∀ k, x.byteAt k = w.byteAt k := fun k => hx.byteAt k
  have hgone : x.me.resv = none := by
    rw [hx.me]
    exact congrArg Slot.resv (State.slot_setSlot_self _ _ _)
  have hsame : w = u → SameMemory s x := fun e k => by rw [hbyte, e]; exact hu.entered_sameMemory k
  refine ⟨x, status, honly, hgone, fun hs => ?_, fun hs => (hbroken hs).imp_right hsame, fun hs => (hnone hs).imp_right hsame, ?_⟩
  · obtain ⟨hstatus, hwrote, hothers⟩ := hstands hs
    refine ⟨hstatus, fun k => ?_, fun k r hkr hline => ?_⟩
    · rw [hbyte, hwrote k, hu.byteAt, State.entered_byteAt]
    · by_cases hk : k = u.cur
      · rw [State.me, honly.cur, ← hu.cur, ← hk, hkr] at hgone
        cases hgone
      · rw [hx.slot, State.slot_setSlot, if_neg (by rw [honlyW.cur]; exact hk)] at hkr
        exact hothers k r hk hkr hline
  · rw [exec_sc]
    refine issue_seq h.runs ?_ ?_ rfl
    · simp only [run_bind, hrelease, hplace, run_rd, hrules, hhome, hmark, run_curSlot, hresv, hu.entered_gval, hstore, run_modSlot]
      rw [hacquire]
      simp only [run_wr]
    · rw [State.put_slot_partner, honly.partner_entered]

theorem reservationOutcomes : Claims.ReservationOutcomes := by
  refine ⟨?lr, ?sc⟩
  case lr =>
    intro d a wd o s p tr i hruns ha hr hroot hreg hq hgood hh
    obtain ⟨u, held, honly, hsame, hresv, hown, hrun⟩ := loadReserve_runs ⟨hruns, rfl, ha, hr, hroot, hreg, hq, hh⟩ hgood
    refine ⟨u, honly, hsame, fun hp => by rw [hresv, hown hp, if_pos rfl], ?_, hrun⟩
    rw [hresv]
    cases held
    · exact .inr rfl
    · exact .inl rfl
  case sc =>
    intro d a b wd o s p tr i hruns ha hr hroot hreg hi hl hq hh hc
    obtain ⟨u, status, honly, hgone, hstands, hbroken, hnone, hrun⟩ :=
      storeConditional_runs ⟨hruns, rfl, ha, hr, hroot, hreg, hq, hh⟩ hi hl hc
    refine ⟨u, honly, hgone, fun hs => ?_, fun hs => ?_, fun hs => ?_⟩
    · obtain ⟨rfl, hwrote, hothers⟩ := hstands hs
      exact ⟨hwrote, hothers, hrun⟩
    · obtain ⟨rfl, hsame⟩ := hbroken hs
      exact ⟨hsame, hrun⟩
    · obtain ⟨rfl, hsame⟩ := hnone hs
      exact ⟨hsame, hrun⟩

/-! ### The wait on a write -/

/-- A reservation kept only where it is on a line is not broken where it stands there. -/
theorem resv_unbroken {resv : Option Resv} {line : Nat} (h : ∀ r, resv = some r → r.line = line → r.broken = false) :
    ((resv.filter fun r => r.line = line).getD ⟨line, false⟩).broken = false := by
  cases resv with
  | none => rfl
  | some r =>
    by_cases hl : r.line = line
    · simpa [Option.filter, hl] using h r rfl hl
    · simp [Option.filter, hl]

/-- The slot of a `wrs` that ends: its reservation and its timeout are gone (R156). -/
def State.waitLeft (s : State) : State := s.setMe { s.me with resv := none, timer := none }

theorem run_wrsDone (d : GReg) (status : Word) (s : State) : wrsDone d status s = .ok () (s.waitLeft.put d status) := by
  simp only [wrsDone, run_bind, run_modSlot, run_wr]
  rfl

/-- The slot of a `wrs` that begins to wait: a reservation on its line, and the cycle at which its time is over (R156). -/
def Slot.awaiting (x : Slot) (line limit : Nat) : Slot := { x with resv := some ⟨line, false⟩, timer := some limit }

/-- What a `wrs` does whose timeout does not run yet: a write that came before ends it, else a timeout of 0, and else it waits, where
the line is of the package (R156). -/
theorem waitOnWrite_runs {d a b : GReg} {wd : AmoWidth} {s : State} {p : Place} {tr : Trans} (hruns : s.runs (.wrs d a b wd) = true)
    (ha : (s.entered (.wrs d a b wd)).access .none (s.me.gval a) wd.bytes .read = .ok (p, some tr)) (hr : tr.rdies = 0)
    (htimer : s.me.timer = none) :
    let e := s.entered (.wrs d a b wd)
    (s.me.resv = some ⟨lineAddr tr.pa, true⟩ → exec (.wrs d a b wd) s = .next ((e.waitLeft.put d 0).done (.wrs d a b wd))) ∧
    ((∀ r, s.me.resv = some r → r.line = lineAddr tr.pa → r.broken = false) → pkgOf tr.pa = s.ws.own →
      (s.me.gval b = 0 → exec (.wrs d a b wd) s = .next ((e.waitLeft.put d 1).done (.wrs d a b wd))) ∧
      (s.me.gval b ≠ 0 → exec (.wrs d a b wd) s = .next (e.setMe { e.me with
        resv := some ⟨lineAddr tr.pa, false⟩, st := .parked, wait := .wrs,
        timer := some (s.clock (dieOf s.cur) + (s.me.gval b).toNat) }))) := by
  intro e
  have hplace : atomicPlace a wd.bytes .read e = .ok tr e := by
    refine atomicPlace_ok (p := p) ?_ hr
    rw [State.me, State.entered_gval, State.entered_cur]
    exact ha
  have hpartner : ∀ status : Word, ((e.waitLeft.put d status).slot s.cur).partner = (s.slot s.cur).partner := by
    intro status
    rw [State.put_slot_partner, State.waitLeft, State.slot_setSlot]
    split
    · next hcur => rw [hcur]; exact s.entered_slot_partner _ _
    · exact s.entered_slot_partner _ _
  have hcur : e.cur = s.cur := s.entered_cur _
  have hresv : (e.slot s.cur).resv = s.me.resv := s.entered_slot_resv _ _
  have hnotimer : (e.slot s.cur).timer = none := (s.entered_slot_timer _ _).trans htimer
  have hlimit : (e.slot s.cur).gval b = s.me.gval b := s.entered_gval _ _ _
  refine ⟨fun hbroken => ?_, fun hstands hp => ?_⟩
  · rw [exec_wrs]
    refine issue_seq hruns ?_ (hpartner 0) rfl
    have hhit : (s.me.resv.filter fun r => r.line = lineAddr tr.pa) = some ⟨lineAddr tr.pa, true⟩ := by
      simp [hbroken, Option.filter]
    change (atomicPlace a wd.bytes .read >>= _) e = _
    simp only [run_bind, hplace, run_curSlot, run_curId, run_get, run_rd, hcur, hresv, hnotimer, hhit, Option.getD_some, if_true,
      run_wrsDone]
  · have hsound := resv_unbroken hstands
    have hentry : e.mayReserve (lineAddr tr.pa) = true := by
      rw [State.mayReserve, pkgOf_lineAddr, hp, State.entered_ws]
      simp
    refine ⟨fun hzero => ?_, fun hnonzero => ?_⟩
    · have hzero' : (s.me.gval b).toNat = 0 := by rw [hzero]; rfl
      rw [exec_wrs]
      refine issue_seq hruns ?_ (hpartner 1) rfl
      change (atomicPlace a wd.bytes .read >>= _) e = _
      simp only [run_bind, hplace, run_curSlot, run_curId, run_get, run_rd, hcur, hresv, hnotimer, hlimit, hsound, hentry, hzero',
        run_ite, run_wrsDone, Bool.not_true, Bool.and_false, Bool.false_eq_true, if_false, if_true]
    · have hpos : (s.me.gval b).toNat ≠ 0 := fun h0 => hnonzero (BitVec.eq_of_toNat_eq h0)
      have hst : ((e.slot s.cur).awaiting (lineAddr tr.pa) (s.clock (dieOf s.cur) + (s.me.gval b).toNat)).st ≠ .free := by
        rw [Slot.awaiting, State.entered_slot_st]; exact (s.clear_iff.mp (State.runs_clear hruns)).1
      rw [exec_wrs]
      refine (issue_park (w := .wrs) (u := e.setSlot s.cur
        ((e.slot s.cur).awaiting (lineAddr tr.pa) (s.clock (dieOf s.cur) + (s.me.gval b).toNat))) hruns ?_).trans ?_
      · change (thenNext (atomicPlace a wd.bytes .read >>= _)) e = _
        simp only [run_thenNext, run_bind, hplace, run_curSlot, run_curId, run_get, run_rd, hcur, hresv, hnotimer, hlimit, hsound, hentry,
          hpos, run_ite, Bool.not_true, Bool.and_false, Bool.false_eq_true, if_false, run_modSlot, run_park, Slot.awaiting]
        rw [State.entered_clock]
      · rw [State.slot_setSlot_self, State.setSlot_setSlot _ _ _ (Slot.ne_empty hst)]
        simp only [Slot.awaiting, State.setMe, State.me, hcur]

theorem waitOnWriteOutcomes : Claims.WaitOnWriteOutcomes :=
  fun _ _ _ _ _ _ _ hruns ha hr htimer => waitOnWrite_runs hruns ha hr htimer

/-- Settles O7: an atomic reads and writes its word at home in one step, `lr` and `sc` keep and test a reservation, and `wrs` ends by a
write, by its time, or waits. -/
theorem atomicsAndReservations : Obligations.AtomicsAndReservations := ⟨atomicOutcomes, reservationOutcomes, waitOnWriteOutcomes⟩

end Sys2Proof.Machine
end

section
/-!
PROOFS. Fences and prefetch.
-/

namespace Sys2Proof.Machine

/-! ### An acquire -/

/-- A line after an acquire has no byte but those dirty or owned (R139, R167). -/
theorem acquireLine_kept {x : L1Line} (h : (acquireLine x).hyp = 0) :
    (acquireLine x).valid &&& ~~~((acquireLine x).dirty ||| bytesOfWords (acquireLine x).owned) = 0 := by
  unfold acquireLine at h ⊢
  split at h
  · next hroot =>
    simp only [hroot, if_true, L1Line.kept]
    rw [BitVec.and_assoc, BitVec.and_not_self]
    exact BitVec.and_zero
  · next hroot => exact absurd h hroot

theorem acquire_keeps (s : State) : ∃ l1, acquire s = .ok () (s.withL1 l1) ∧ Stands l1 s.ms.l1 ∧
    ∀ x ∈ l1, x.cell = cellOf s.cur → x.hyp = 0 → x.valid &&& ~~~(x.dirty ||| bytesOfWords x.owned) = 0 := by
  have hstands : ∀ x : L1Line, (acquireLine x).cell = x.cell := fun x => (acquireLine_stands x).1
  refine ⟨_, rfl, (Stands.filter _ _).trans (Stands.map _ _ fun x _ => ?_), fun x hx hcell hhyp => ?_⟩
  · split
    · exact acquireLine_stands x
    · exact ⟨rfl, rfl, rfl, rfl, rfl⟩
  · obtain ⟨y, -, rfl⟩ := List.mem_map.mp (List.mem_filter.mp hx).1
    by_cases hy : y.cell = cellOf s.cur
    · rw [if_pos hy] at hhyp ⊢
      exact acquireLine_kept hhyp
    · rw [if_neg hy] at hcell
      exact absurd hcell hy

theorem fenceAcq_runs {s : State} (hruns : s.runs .fenceAcq = true) : ∃ u, MemoryOnly (s.entered .fenceAcq) u ∧ SameMemory s u ∧
    u.slots = (s.entered .fenceAcq).slots ∧
    (∀ x ∈ u.ms.l1, x.cell = cellOf s.cur → x.hyp = 0 → x.valid &&& ~~~(x.dirty ||| bytesOfWords x.owned) = 0) ∧
    exec .fenceAcq s = .next (u.done .fenceAcq) := by
  obtain ⟨l1, hrun, -, hkept⟩ := acquire_keeps (s.entered .fenceAcq)
  rw [State.entered_cur] at hkept
  refine ⟨(s.entered .fenceAcq).withL1 l1, MemoryOnly.with_ms _ _, s.entered_byteAt .fenceAcq, rfl, hkept, ?_⟩
  exact issue_seq hruns hrun (s.entered_slot_partner _ _) rfl

/-! ### A release -/

/-- A cell with one dirty line, at the root, that a release can perform at its home, and a task with nothing buffered (R138, R374). -/
structure State.DirtyLine (s : State) (x : L1Line) : Prop where
  buffer : s.me.wc = []
  only : s.ms.l1.filter (fun y => y.cell = cellOf s.cur && y.dirty ≠ 0) = [x]
  root : x.hyp = 0
  lives : s.homeLives x.pa
  reachable : s.ws.reachable (pkgOf x.pa) = true
  free : s.heldLine x.pa = false
  home : s.ms.checkOf x.pa = .good
  check : x.check = .good

theorem State.DirtyLine.dirty_ne {s : State} {x : L1Line} (h : s.DirtyLine x) : x.dirty ≠ 0 := by
  have hmem : x ∈ s.ms.l1.filter (fun y => y.cell = cellOf s.cur && y.dirty ≠ 0) := by rw [h.only]; exact List.mem_singleton_self x
  have hname := (List.mem_filter.mp hmem).2
  simp only [Bool.and_eq_true, decide_eq_true_eq] at hname
  exact hname.2

/-- A dirty line of the cell is that line. -/
theorem State.DirtyLine.eq_of_dirty {s : State} {x y : L1Line} (h : s.DirtyLine x) (hy : y ∈ s.ms.l1) (hcell : y.cell = cellOf s.cur)
    (hdirty : y.dirty ≠ 0) : y = x := by
  have hmem : y ∈ s.ms.l1.filter (fun y => y.cell = cellOf s.cur && y.dirty ≠ 0) := List.mem_filter.mpr ⟨hy, by
    simp only [Bool.and_eq_true, decide_eq_true_eq]
    exact ⟨hcell, hdirty⟩⟩
  rw [h.only] at hmem
  exact List.mem_singleton.mp hmem

theorem State.DirtyLine.entered {s : State} {x : L1Line} (h : s.DirtyLine x) (i : Instr) : (s.entered i).DirtyLine x where
  buffer := by rw [State.me, State.entered_slot_wc, State.entered_cur]; exact h.buffer
  only := by rw [State.entered_ms, State.entered_cur]; exact h.only
  root := h.root
  lives := State.entered_homeLives h.lives
  reachable := by rw [State.entered_ws]; exact h.reachable
  free := by rw [State.heldLine, State.entered_hyps]; exact h.free
  home := by rw [State.entered_ms]; exact h.home
  check := h.check

/-- The dirty bytes of a sound line of an L1 performed at their home (R138, R140). -/
theorem performLine_ok {s : State} {x : L1Line} {own : Option Nat} (hroot : x.hyp = 0) (hi : s.noInjection) (hl : s.homeLives x.pa)
    (hc : s.ms.checkOf x.pa ≠ .single) (hx : x.check = .good) :
    ∃ u, performLine x own s = .ok () u ∧ MemoryOnly s u ∧ (∀ k, (u.slot k).wc = (s.slot k).wc) ∧ Stands u.ms.l1 s.ms.l1 ∧
      ∀ a, u.byteAt a = if x.pa ≤ a ∧ a < x.pa + 64 ∧ x.dirty.getLsbD (a - x.pa) = true
        then x.data.extractLsb' (8 * (a - x.pa)) 8 else s.byteAt a := by
  by_cases hdirty : x.dirty = 0
  · exact ⟨s, by simp [performLine, hdirty], .refl s, fun _ => rfl, .refl _, fun a => by simp [hdirty]⟩
  · obtain ⟨u, hmerge, honly, hbytes, hslot, hstands⟩ := homeMerge_ok (data := x.data) (own := own) (exempt := none) hdirty hl hi hc
    refine ⟨u, ?_, honly, fun k => by rw [hslot, brokenBy_eq], hstands, hbytes⟩
    simp only [performLine, run_ite, hdirty, if_false, run_bind, hroot, if_true, hmerge, carryCheck, hx, run_pure]

/-- A release of a cell with one dirty line performs its dirty bytes at their home, and leaves no dirty line in the cell (R138). -/
theorem releaseNow_performs {s : State} {x : L1Line} (h : s.DirtyLine x) (hi : s.noInjection) (hstores : s.storesQueued s.cur = false) :
    ∃ u, releaseNow s = .ok () u ∧ MemoryOnly s u ∧
      (∀ a, u.byteAt a = if x.pa ≤ a ∧ a < x.pa + 64 ∧ x.dirty.getLsbD (a - x.pa) = true
        then x.data.extractLsb' (8 * (a - x.pa)) 8 else s.byteAt a) ∧
      ∀ y ∈ u.ms.l1, y.cell = cellOf s.cur → y.dirty = 0 := by
  obtain ⟨w, hperform, honly, hwc, hstands, hbytes⟩ := performLine_ok (own := some (cellOf s.cur)) h.root hi h.lives
    (by rw [h.home]; decide) h.check
  have hbuffer : (s.slot s.cur).wc = [] := h.buffer
  have hheld : s.releaseHeld (cellOf s.cur) [] = false := by
    simp only [State.releaseHeld, List.any_nil, Bool.or_false, List.any_eq_false, Bool.and_eq_true, decide_eq_true_eq, not_and,
      Bool.not_eq_true]
    intro y hy hcell
    rw [h.eq_of_dirty hy hcell.1 hcell.2]
    exact h.free
  have hfault : releaseFault s (cellOf s.cur) [] = none := by
    have hnone : (s.ms.l1.filter fun y => y.cell = cellOf s.cur && y.dirty ≠ 0 && !s.ws.reachable (pkgOf y.pa)) = [] := by
      rw [List.filter_eq_nil_iff]
      intro y hy
      simp only [Bool.and_eq_true, decide_eq_true_eq, Bool.not_eq_true', not_and, Bool.not_eq_false]
      intro hcell
      rw [h.eq_of_dirty hy hcell.1 hcell.2]
      exact h.reachable
    simp only [releaseFault, hnone, List.map_nil, List.filter_nil, List.append_nil, List.head?_nil]
  have hwcur : w.cur = s.cur := honly.cur
  simp only [releaseNow, run_bind, holdStores_ok hstores, release, releaseOf, run_curId, run_get, hbuffer, hheld, Bool.not_false,
    waitFor_true, run_pure, hfault, performAll, h.only, run_eachM_cons, run_eachM_nil, hperform, run_modMs, run_modSlotAt]
  refine ⟨_, rfl, (honly.trans (MemoryOnly.with_ms w _)).trans (MemoryOnly.setSlot rfl), hbytes, fun y hy hcell => ?_⟩
  obtain ⟨z, -, rfl⟩ := List.mem_map.mp (List.mem_filter.mp hy).1
  by_cases hz : z.cell = cellOf s.cur ∧ z.dirty ≠ 0
  · rw [if_pos hz]
    unfold cleanLine
    split <;> rfl
  · rw [if_neg hz] at hcell ⊢
    exact Decidable.byContradiction fun hd => hz ⟨hcell, hd⟩

/-- What a fence that releases does after its release: it may acquire, or drop the cell's lines (R157, R158). -/
def FenceEnds (i : Instr) (after : M Unit) : Prop :=
  ∀ s : State, (∀ y ∈ s.ms.l1, y.cell = cellOf s.cur → y.dirty = 0) →
    ∃ m, after s = .ok () { s with ms := m } ∧ m.mem = s.ms.mem ∧ ∀ y ∈ m.l1, y.cell = cellOf s.cur → y.dirty = 0 ∧ i ≠ .afence

theorem fenceEnds_rel : FenceEnds .fenceRel (pure ()) :=
  fun s hclean => ⟨s.ms, rfl, rfl, fun y hy hcell => ⟨hclean y hy hcell, nofun⟩⟩

theorem fenceEnds_sc : FenceEnds .fenceSc acquire := by
  intro s hclean
  obtain ⟨l1, hrun, hstands, -⟩ := acquire_keeps s
  refine ⟨_, hrun, rfl, fun y hy hcell => ⟨?_, nofun⟩⟩
  obtain ⟨z, hz, ecell, -, edirty, -⟩ := hstands y hy
  rw [edirty]
  exact hclean z hz (ecell.symm.trans hcell)

theorem fenceEnds_afence : FenceEnds .afence (do dropCell (cellOf (← curId))) := by
  intro s _
  refine ⟨_, rfl, rfl, fun y hy hcell => ?_⟩
  have hgone := (List.mem_filter.mp hy).2
  simp [hcell] at hgone

theorem FenceEnds.runs {i : Instr} {after : M Unit} (h : FenceEnds i after) {s : State} {x : L1Line} (hlss : isLss i = true)
    (hret : isTret i = false) (hexec : exec i s = issue i (thenNext (do releaseNow; after)) s) (hruns : s.runs i = true)
    (hi : s.noInjection) (hx : s.DirtyLine x) :
    ∃ u, MemoryOnly (s.entered i) u ∧
      (∀ a, u.byteAt a = if x.pa ≤ a ∧ a < x.pa + 64 ∧ x.dirty.getLsbD (a - x.pa) = true then
        x.data.extractLsb' (8 * (a - x.pa)) 8 else s.byteAt a) ∧
      (∀ y ∈ u.ms.l1, y.cell = cellOf s.cur → y.dirty = 0 ∧ i ≠ .afence) ∧
      exec i s = .next (u.done i) := by
  obtain ⟨t, hrelease, honly, hbytes, hclean⟩ := releaseNow_performs (hx.entered i) (State.entered_noInjection hi)
    ((s.entered_storesQueued i).trans (State.runs_stores hruns (by rw [hlss]; rfl)))
  have hcur : t.cur = s.cur := honly.cur.trans (s.entered_cur i)
  rw [State.entered_cur, ← hcur] at hclean
  obtain ⟨m, hafter, hmem, hlines⟩ := h t hclean
  rw [hcur] at hlines
  have honlyU := honly.trans (MemoryOnly.with_ms t m)
  refine ⟨_, honlyU, fun a => ?_, hlines, ?_⟩
  · rw [← s.entered_byteAt i a, ← hbytes a, State.byteAt, hmem]
    rfl
  · rw [hexec]
    refine issue_seq hruns ?_ honlyU.partner_entered hret
    rw [run_bind, hrelease]
    exact hafter

theorem fenceOutcomes : Claims.FenceOutcomes := by
  refine ⟨fun s hruns => fenceAcq_runs hruns, ?_⟩
  intro i hfence s x hruns hi hwc hdirty hroot _ hl hreach hheld hcheck hx
  have h : s.DirtyLine x := ⟨hwc, hdirty, hroot, hl, hreach, hheld, hcheck, hx⟩
  rcases hfence with rfl | rfl | rfl
  · refine fenceEnds_rel.runs rfl rfl ?_ hruns hi h
    rw [exec_fenceRel, execFenceRel, bind_pure_unit]
  · exact fenceEnds_sc.runs rfl rfl rfl hruns hi h
  · exact fenceEnds_afence.runs rfl rfl rfl hruns hi h

/-! ### Prefetch -/

theorem allBytes_of_missing {valid : BitVec 64} (h : allBytes &&& ~~~valid = 0) : valid = BitVec.allOnes 64 := by
  rw [allBytes, BitVec.allOnes_and] at h
  rw [← BitVec.not_not (b := valid), h]
  rfl

/-- `pref` of a cacheable place with a sound home leaves the whole line in the cell's L1, and fetches no more than that (R159). -/
theorem pref_fetches {a : GReg} {s : State} {pa va : Nat} {tr : Option Trans} (hruns : s.runs (.pref a) = true)
    (ha : (s.entered (.pref a)).access .allowed (s.me.gval a) 1 .read = .ok (.mem pa va true, tr))
    (hcheck : s.ms.checkOf (lineAddr pa) = .good) (hheld : s.heldLine (lineAddr pa) = false) :
    ∃ m, MemoryOnly (s.entered (.pref a)) { s.entered (.pref a) with ms := m } ∧ m.mem = s.ms.mem ∧
      (∃ x, ({ s.entered (.pref a) with ms := m } : State).l1Of va 0 = some x ∧ x.valid = BitVec.allOnes 64) ∧
      exec (.pref a) s = .next (({ s.entered (.pref a) with ms := m } : State).done (.pref a)) := by
  have hpartner : ((s.entered (.pref a)).slot s.cur).partner = none := by
    rw [State.entered_slot_partner]; exact (s.clear_iff.mp (State.runs_clear hruns)).2.2.2.1
  have hgood : (s.entered (.pref a)).ms.checkOf (lineAddr pa) = .good := by rw [State.entered_ms]; exact hcheck
  have hplace : checkPlace (s.entered (.pref a)) (((s.entered (.pref a)).slot s.cur).agent s.cur) .allowed ((s.slot s.cur).gval a) 1 .read =
      .ok (.mem pa va true, tr) := by rw [← State.entered_cur s (.pref a)]; exact ha
  obtain ⟨y, m, hfill, hvalid, hms, hfind⟩ := l1Fill_ok (ctx := (((s.entered (.pref a)).slot s.cur).agent s.cur).ctx)
    (cell := (((s.entered (.pref a)).slot s.cur).agent s.cur).cell) (asid := (((s.entered (.pref a)).slot s.cur).agent s.cur).asid)
    (va := lineAddr va) (use := allBytes) hgood (by rw [State.heldLine, State.entered_hyps]; exact hheld)
  have honly := MemoryOnly.with_ms (s.entered (.pref a)) m
  refine ⟨m, honly, by rw [hms, State.entered_ms], ⟨y, (honly.l1Of va 0).trans ?_, allBytes_of_missing hvalid⟩, ?_⟩
  · rw [State.me, State.entered_cur]
    exact hfind
  · rw [exec_pref]
    refine issue_seq hruns ?_ (s.entered_slot_partner _ _) rfl
    simp only [run_bind, run_rd, run_curAgent, run_get, State.entered_cur, State.entered_gval, hplace, run_curSlot, hgood, hpartner,
      Option.isNone_none, decide_true, Bool.true_or, Bool.and_true, if_true, hfill, run_pure]

/-- `pref` of an address whose access would fault does nothing (R159). -/
theorem pref_dropped {a : GReg} {s : State} {f : Failure} (hruns : s.runs (.pref a) = true)
    (ha : (s.entered (.pref a)).access .allowed (s.me.gval a) 1 .read = .error f) :
    exec (.pref a) s = .next ((s.entered (.pref a)).done (.pref a)) := by
  rw [exec_pref]
  refine issue_seq hruns ?_ (s.entered_slot_partner _ _) rfl
  have hplace : checkPlace (s.entered (.pref a)) (((s.entered (.pref a)).slot s.cur).agent s.cur) .allowed ((s.slot s.cur).gval a) 1 .read =
      .error f := by rw [← State.entered_cur s (.pref a)]; exact ha
  simp only [run_bind, run_rd, run_curAgent, run_get, State.entered_cur, State.entered_gval, hplace, run_pure]

theorem prefetchOutcomes : Claims.PrefetchOutcomes := by
  refine ⟨fun a s pa va tr hruns ha hcheck hheld => ?_, fun a s f hruns ha => pref_dropped hruns ha⟩
  obtain ⟨m, honly, hmem, hline, hrun⟩ := pref_fetches hruns ha hcheck hheld
  refine ⟨_, honly, fun b => ?_, rfl, hline, hrun⟩
  rw [State.byteAt, hmem]
  rfl

/-- Settles O8: a release performs the cell's dirty bytes at their home, an acquire keeps only bytes dirty or owned, `afence` empties the
cell, and `pref` fetches a line or does nothing. -/
theorem fencesAndPrefetch : Obligations.FencesAndPrefetch := ⟨fenceOutcomes, prefetchOutcomes⟩

end Sys2Proof.Machine
end

section
/-!
PROOFS. Lines replaced in caches, translations held and invalidated.
-/

namespace Sys2Proof.Machine

/-! ### Lines replaced -/

/-- The name under which a line of an L1 is found. -/
theorem L1Line.is_iff {x : L1Line} {cell : Nat} {asid : BitVec 16} {va k : Nat} :
    x.is cell asid va k = true ↔ x.cell = cell ∧ x.asid = asid ∧ x.va = va ∧ x.hyp = k := by
  simp only [L1Line.is, Bool.and_eq_true, decide_eq_true_eq, and_assoc]

/-- A line replaced: its dirty bytes are at their home, and no line of the L1 has its name (R140). -/
theorem replaceLine_ok {s : State} {x : L1Line} (hroot : x.hyp = 0) (hi : s.noInjection) (hl : s.homeLives x.pa)
    (hc : s.ms.checkOf x.pa ≠ .single) (hx : x.check = .good) :
    ∃ u, replaceLine x s = .ok () u ∧ u.ms.l1Find x.cell x.asid x.va x.hyp = none ∧
      ∀ a, u.byteAt a = if x.pa ≤ a ∧ a < x.pa + 64 ∧ x.dirty.getLsbD (a - x.pa) = true
        then x.data.extractLsb' (8 * (a - x.pa)) 8 else s.byteAt a := by
  obtain ⟨u, hperform, -, -, -, hbytes⟩ := performLine_ok (own := none) hroot hi hl hc hx
  rw [replaceLine, run_bind, hperform]
  refine ⟨_, rfl, List.find?_eq_none.mpr fun y hy => ?_, hbytes⟩
  have hother := (List.mem_filter.mp hy).2
  rwa [Bool.not_eq_true', ← Bool.not_eq_true] at hother

theorem l1Replacement_runs {s : State} {cell asid va k : Nat} {x : L1Line} (hev : s.ev = [cell, asid, va, k])
    (hfind : s.ms.l1Find cell (BitVec.ofNat 16 asid) va k = some x) (hheld : s.heldLine x.pa = false) {u : State}
    (hreplace : replaceLine x s = .ok () u) : exec .l1Replacement s = .next u := by
  rw [exec_l1Replacement]
  refine event_ok ?_
  simp only [run_bind, run_evArg, hev, run_get, List.getElem?_cons_zero, List.getElem?_cons_succ, Option.getD_some, hfind,
    needSome_some, run_pure, run_need, hheld, Bool.not_false, if_true, hreplace]

/-! ### Home lines evicted -/

/-- The owners of a line's words after those of a mask have been settled with no owner (R134). -/
theorem settleOwners_none_owner (m : MemSys) (line n i k : Nat) (w : BitVec 16) :
    tblGet 0 (settleOwners m line none n i w).owner (line + 4 * k) =
      if i ≤ k ∧ k < i + n ∧ w.getLsbD k = true then 0 else tblGet 0 m.owner (line + 4 * k) := by
  induction n generalizing m i with
  | zero => rw [if_neg (by omega)]; rfl
  | succ n ih =>
    rw [settleOwners, ih]
    by_cases hk : k = i
    · subst hk
      by_cases hw : w.getLsbD k = true
      · simp [hw]
      · simp [hw]
    · have hkey : line + 4 * k ≠ line + 4 * i := by omega
      have hrange : (i + 1 ≤ k ∧ k < i + 1 + n) ↔ (i ≤ k ∧ k < i + (n + 1)) := by omega
      simp only [← and_assoc, hrange]
      congr 1
      split
      · exact tblGet_set_other 0 m.owner 0 hkey
      · rfl

theorem homeEviction_runs {s : State} {a : Nat} {rest : List Nat} (hev : s.ev = a :: rest) (hown : pkgOf (lineAddr a) = s.ws.own)
    (hlive : s.live (homeOf (lineAddr a)) = true) :
    exec .homeEviction s =
      .next { s with ms := (settleOwners s.ms (lineAddr a) none 16 0 (BitVec.allOnes 16)).l1Tidy } := by
  rw [exec_homeEviction]
  refine event_ok ?_
  simp only [run_bind, run_evArg, hev, List.getElem?_cons_zero, Option.getD_some, run_get, run_need, hown, hlive, decide_true,
    Bool.and_true, if_true, run_modMs]

theorem linesReplaced : Claims.LinesReplaced := by
  refine ⟨fun s cell asid va k x hev hfind hroot _ hx hc hheld hi hl => ?_, fun s a rest hev hown hlive => ?_⟩
  · obtain ⟨u, hreplace, hgone, hbytes⟩ := replaceLine_ok hroot hi hl hc hx
    have hname : x.is cell (BitVec.ofNat 16 asid) va k = true :=
      List.find?_some (p := fun y : L1Line => y.is cell (BitVec.ofNat 16 asid) va k) hfind
    obtain ⟨hcell, hasid, hva, hk⟩ := L1Line.is_iff.mp hname
    rw [hcell, hasid, hva, hk] at hgone
    exact ⟨u, l1Replacement_runs hev hfind hheld hreplace, hgone, hbytes⟩
  · refine ⟨_, homeEviction_runs hev hown hlive, fun b => ?_, rfl, fun k hk => ?_⟩
    · rw [State.byteAt, MemSys.l1Tidy, (settleOwners_fields _ _ _ _ _ _).1]
      rfl
    · rw [MemSys.l1Tidy, settleOwners_none_owner, if_pos]
      exact ⟨Nat.zero_le k, by omega, BitVec.getLsbD_allOnes.trans (decide_eq_true hk)⟩

/-! ### Misses -/

/-- A miss that neither TLB answers leaves the misses as its die takes it, or as they are where its die takes no more (R395). -/
theorem missOf_runs {s : State} {cell asid va : Nat} (hev : s.ev = [0, cell, asid, va]) (hcell : cell < 512)
    (hlive : s.live (cell / 128) = true) (hva : va < 2 ^ 56)
    (hmiss : ∀ e ∈ s.ms.tlb, ¬((e.holder = cell ∨ e.holder = 512 + cell / 128) ∧ e.asid = BitVec.ofNat 16 asid ∧
      e.vpage = va / 2 ^ pageShift e.level)) :
    exec .tlbWalk s = .next
      { s with ms := (s.ms.takeMiss (cell / 128) cell (BitVec.ofNat 16 asid) (va / 2 ^ 16)).getD s.ms } := by
  have hneed : (cell < 512 && s.live (cell / 128) && decide (va < 2 ^ 56) && s.ms.tlb.all fun e =>
      !((e.holder = cell || e.holder = 512 + cell / 128) && e.asid = BitVec.ofNat 16 asid && e.vpage = va / 2 ^ pageShift e.level)) =
      true := by
    simp only [hcell, hlive, hva, decide_true, Bool.true_and, List.all_eq_true, Bool.not_eq_true', ← Bool.not_eq_true,
      Bool.and_eq_true, Bool.or_eq_true, decide_eq_true_eq, and_assoc]
    exact hmiss
  rw [exec_tlbWalk]
  cases htake : s.ms.takeMiss (cell / 128) cell (BitVec.ofNat 16 asid) (va / 2 ^ 16) with
  | some m =>
    refine event_ok ?_
    simp only [run_bind, run_evArg, hev, List.getElem?_cons_zero, List.getElem?_cons_succ, Option.getD_some, if_true, missOf, run_get,
      run_need, hneed, htake, needSome_some, run_pure, run_modMs]
  | none =>
    refine event_error (t := s) (e := .park .none) ?_
    simp only [run_bind, run_evArg, hev, List.getElem?_cons_zero, List.getElem?_cons_succ, Option.getD_some, if_true, missOf, run_get,
      run_need, hneed, htake]
    rfl

/-- Whether a miss is of a page of a die. -/
def Miss.isOf (x : Miss) (die : Nat) (asid : BitVec 16) (vpage : Nat) : Prop := x.die = die ∧ x.asid = asid ∧ x.vpage = vpage

/-- A cell joins the one miss entry, of its page. -/
theorem takeMiss_joins {m : MemSys} {x : Miss} {die cell : Nat} {asid : BitVec 16} {vpage : Nat} (hm : m.misses = [x])
    (hx : x.isOf die asid vpage) (hcell : cell ∉ x.cells) :
    m.takeMiss die cell asid vpage = some { m with misses := [{ x with cells := x.cells ++ [cell] }] } := by
  obtain ⟨hdie, hasid, hvpage⟩ := hx
  simp [MemSys.takeMiss, hm, hdie, hasid, hvpage, hcell]

/-- A cell whose page has no miss entry takes one where its die has one free, and none else. -/
theorem takeMiss_new {m : MemSys} {die cell : Nat} {asid : BitVec 16} {vpage : Nat} (hm : ∀ x ∈ m.misses, ¬x.isOf die asid vpage) :
    m.takeMiss die cell asid vpage = if 4096 ≤ (m.misses.filter fun x => x.die = die).length then none else
      some { m with misses := m.misses ++ [⟨die, asid, vpage, [cell]⟩] } := by
  have hnone : (m.misses.any fun x => x.die = die && x.asid = asid && x.vpage = vpage) = false := by
    simp only [List.any_eq_false, Bool.and_eq_true, decide_eq_true_eq, and_assoc]
    exact hm
  simp only [MemSys.takeMiss, hnone, Bool.false_eq_true, if_false, maxMisses]
  rfl

/-! ### Walks -/

theorem tlbInsert_eq (m : MemSys) (e : TlbEntry) (n victim : Nat) :
    tlbInsert m e n victim = { m with tlb := (tlbInsert m e n victim).tlb } := rfl

theorem mem_tlbInsert_self (m : MemSys) (e : TlbEntry) (n victim : Nat) : e ∈ (tlbInsert m e n victim).tlb :=
  List.mem_append_right _ (List.mem_singleton_self e)

theorem mem_tlbInsert {m : MemSys} {e y : TlbEntry} {n victim : Nat} (h : y ∈ (tlbInsert m e n victim).tlb) : y ∈ m.tlb ∨ y = e :=
  (List.mem_append.mp h).imp (fun h => (List.mem_filter.mp h).1) List.mem_singleton.mp

/-- What makes room for an entry is of its own holder. -/
theorem mem_tlbInsert_other {m : MemSys} {e y : TlbEntry} {n victim : Nat} (hy : y ∈ m.tlb) (hh : y.holder ≠ e.holder) :
    y ∈ (tlbInsert m e n victim).tlb := by
  refine List.mem_append_left _ (List.mem_filter.mpr ⟨hy, ?_⟩)
  simp only [hh, decide_false, Bool.false_and, Bool.not_false, Bool.true_and, decide_eq_true_eq]
  split
  · exact nofun
  · intro hout
    have hmem := List.mem_of_getElem? hout.symm
    exact hh (of_decide_eq_true (List.mem_filter.mp hmem).2)

/-- The memory system once an entry is in its die's TLB and, one after another, in those of some cells. -/
def MemSys.fillTlbs (m : MemSys) (e : TlbEntry) (cells : List (Nat × Nat)) (victims : List Nat) : MemSys :=
  cells.foldl (fun m c => tlbInsert m { e with holder := c.1 } 128 ((victims[c.2 + 1]?).getD 0)) m

/-- An entry put into the TLBs of some cells is in each of them, and in no other that did not hold it. -/
theorem fillTlbs_spec (e : TlbEntry) (cells : List (Nat × Nat)) (victims : List Nat) (m : MemSys) :
    ∃ tlb, m.fillTlbs e cells victims = { m with tlb := tlb } ∧ (∀ h, { e with holder := h } ∈ m.tlb → { e with holder := h } ∈ tlb) ∧
      (∀ c ∈ cells, { e with holder := c.1 } ∈ tlb) ∧ ∀ y ∈ tlb, y ∈ m.tlb ∨ ∃ c ∈ cells, y = { e with holder := c.1 } := by
  induction cells generalizing m with
  | nil => exact ⟨m.tlb, rfl, fun _ h => h, nofun, fun _ h => .inl h⟩
  | cons c r ih =>
    obtain ⟨tlb, hframe, hkeeps, hall, honly⟩ := ih (tlbInsert m { e with holder := c.1 } 128 ((victims[c.2 + 1]?).getD 0))
    refine ⟨tlb, hframe, fun h hh => hkeeps h ?_, fun d hd => ?_, fun y hy => ?_⟩
    · by_cases hc : h = c.1
      · rw [hc]; exact mem_tlbInsert_self _ _ _ _
      · exact mem_tlbInsert_other hh hc
    · rcases List.mem_cons.mp hd with rfl | hd
      · exact hkeeps _ (mem_tlbInsert_self _ _ _ _)
      · exact hall d hd
    · rcases honly y hy with h | ⟨d, hd, rfl⟩
      · exact (mem_tlbInsert h).imp_right fun h => ⟨c, List.mem_cons_self, h⟩
      · exact .inr ⟨d, List.mem_cons_of_mem _ hd, rfl⟩

theorem keepPath_cons (m : MemSys) (die : Nat) (asid : BitVec 16) (va : Nat) (t : Nat × Nat) (ts : List (Nat × Nat)) :
    m.keepPath die asid va (t :: ts) =
      (if m.walkCache.contains ⟨die, asid, t.1, va / 2 ^ pathShift t.1, t.2⟩ then m else
        { m with walkCache := m.walkCache ++ [⟨die, asid, t.1, va / 2 ^ pathShift t.1, t.2⟩] }).keepPath die asid va ts := rfl

/-- A walk's path changes the walk cache alone, and drops none of its entries. -/
theorem keepPath_spec (die : Nat) (asid : BitVec 16) (va : Nat) (ts : List (Nat × Nat)) (m : MemSys) :
    ∃ walks, m.keepPath die asid va ts = { m with walkCache := walks } ∧ ∀ y ∈ m.walkCache, y ∈ walks := by
  induction ts generalizing m with
  | nil => exact ⟨m.walkCache, rfl, fun _ h => h⟩
  | cons t r ih =>
    rw [keepPath_cons]
    split
    · exact ih m
    · obtain ⟨walks, hframe, hkeeps⟩ := ih { m with walkCache := m.walkCache ++ [⟨die, asid, t.1, va / 2 ^ pathShift t.1, t.2⟩] }
      exact ⟨walks, hframe, fun y hy => hkeeps y (List.mem_append_left _ hy)⟩

theorem mem_firsts {l : List Nat} {c : Nat} : c ∈ firsts l ↔ c ∈ l := by
  have h : ∀ acc, c ∈ l.foldl (fun m b => if m.contains b then m else m ++ [b]) acc ↔ c ∈ acc ∨ c ∈ l := by
    induction l with
    | nil => simp
    | cons b r ih =>
      intro acc
      rw [List.foldl_cons, ih, List.mem_cons]
      split
      · next hb =>
        have hb : b ∈ acc := by simpa using hb
        exact ⟨Or.imp_right .inr, fun h => h.elim .inl fun h => h.elim (fun h => .inl (h ▸ hb)) .inr⟩
      · rw [List.mem_append, List.mem_singleton, or_assoc]
  exact (h []).trans (or_iff_right List.not_mem_nil)

/-- The entry that a leaf leaves in a holder's TLB. -/
def Leaf.entry (l : Leaf) (asid : BitVec 16) (va h : Nat) : TlbEntry := ⟨h, asid, va / 2 ^ pageShift l.level, l.level, l.pte⟩

/-- Whether a leaf that a die has found answers a miss: one of the die and the address space whose address lies in the leaf's page. -/
def Leaf.answers (l : Leaf) (die : Nat) (asid : BitVec 16) (va : Nat) (y : Miss) : Bool :=
  y.die = die && y.asid = asid && 2 ^ 16 * y.vpage / 2 ^ pageShift l.level = va / 2 ^ pageShift l.level

/-- A walk for a die's oldest miss is what the event does by the operands 1, the die and the places that make room. -/
theorem tlbWalk_walks {s t : State} {die : Nat} {victims : List Nat} (hev : s.ev = 1 :: die :: victims)
    (h : walkMiss die victims s = .ok () t) : exec .tlbWalk s = .next t := by
  rw [exec_tlbWalk]
  refine event_ok ?_
  simp only [run_bind, run_evArg, run_evRest, hev, List.getElem?_cons_zero, List.getElem?_cons_succ, Option.getD_some,
    Nat.one_ne_zero, if_false, List.drop_succ_cons, List.drop_zero]
  exact h

theorem walkMiss_faults {s : State} {die : Nat} {victims : List Nat} {x : Miss} {f : Failure}
    (hfind : s.ms.misses.find? (fun y => y.die = die) = some x) (hwalk : walk s die x.asid .read (2 ^ 16 * x.vpage) = .error f) :
    walkMiss die victims s = .ok () { s with ms := { s.ms with misses := s.ms.misses.erase x } } := by
  simp only [walkMiss, run_bind, run_get, hfind, needSome_some, run_pure, hwalk, run_modMs]

/-- The cells whose misses a leaf answers, each with its place. -/
def Leaf.cells (l : Leaf) (die : Nat) (asid : BitVec 16) (va : Nat) (misses : List Miss) : List (Nat × Nat) :=
  (firsts ((misses.filter (l.answers die asid va)).flatMap (·.cells))).zipIdx

theorem Leaf.mem_cells {l : Leaf} {die : Nat} {asid : BitVec 16} {va : Nat} {misses : List Miss} {c : Nat} :
    (∃ d ∈ l.cells die asid va misses, d.1 = c) ↔ ∃ y ∈ misses, l.answers die asid va y = true ∧ c ∈ y.cells := by
  have hfst : (∃ d ∈ l.cells die asid va misses, d.1 = c) ↔ c ∈ (l.cells die asid va misses).map (·.1) := List.mem_map.symm
  rw [hfst, Leaf.cells, List.zipIdx_map_fst, mem_firsts]
  simp only [List.mem_flatMap, List.mem_filter, and_assoc]

/-- The tables that the walk of an address passes through, from where the walk cache lets it begin. -/
def State.walkTables (s : State) (die : Nat) (asid : BitVec 16) (va : Nat) : List (Nat × Nat) :=
  match walkStart s die asid va with
  | some (level, t) => tablesFrom s va (6 - level) t
  | none => tablesFrom s va 5 (2048 * fieldOf (BitVec.ofNat 64 (s.ms.read (s.fabric (s.pf.fw.asidTab + 8 * asid.toNat)) 8)) 39 11)

/-- The memory system once a die's walk of an address has found a leaf: the TLBs filled, the tables kept, and the misses answered gone. -/
def State.walked (s : State) (l : Leaf) (die : Nat) (asid : BitVec 16) (va : Nat) (victims : List Nat) : MemSys :=
  let e := l.entry asid va (512 + die)
  let m := (tlbInsert s.ms e 8192 ((victims[0]?).getD 0)).fillTlbs e (l.cells die asid va s.ms.misses) victims
  { m.keepPath die asid va (s.walkTables die asid va) with misses := m.misses.filter fun y => !l.answers die asid va y }

theorem walkMiss_finds {s : State} {die : Nat} {victims : List Nat} {x : Miss} {l : Leaf}
    (hfind : s.ms.misses.find? (fun y => y.die = die) = some x) (hwalk : walk s die x.asid .read (2 ^ 16 * x.vpage) = .ok l) :
    walkMiss die victims s = .ok () { s with ms := s.walked l die x.asid (2 ^ 16 * x.vpage) victims } := by
  simp only [walkMiss, run_bind, run_get, hfind, needSome_some, run_pure, hwalk, run_modMs]
  rfl

/-- A walk that finds a leaf leaves its entry in the TLBs of the die and of the cells whose misses it answers, and in no other. -/
theorem walked_spec (s : State) (l : Leaf) (die : Nat) (asid : BitVec 16) (va : Nat) (victims : List Nat) :
    ∃ tlb walks, s.walked l die asid va victims =
        { s.ms with tlb := tlb, walkCache := walks, misses := s.ms.misses.filter fun y => !l.answers die asid va y } ∧
      l.entry asid va (512 + die) ∈ tlb ∧
      (∀ y ∈ s.ms.misses, l.answers die asid va y = true → ∀ c ∈ y.cells, l.entry asid va c ∈ tlb) ∧
      (∀ y ∈ tlb, y ∈ s.ms.tlb ∨ y = l.entry asid va (512 + die) ∨
        ∃ m ∈ s.ms.misses, l.answers die asid va m = true ∧ ∃ c ∈ m.cells, y = l.entry asid va c) ∧
      ∀ y ∈ s.ms.walkCache, y ∈ walks := by
  obtain ⟨tlb, htlb, hkeeps, hall, honly⟩ := fillTlbs_spec (l.entry asid va (512 + die)) (l.cells die asid va s.ms.misses) victims
    (tlbInsert s.ms (l.entry asid va (512 + die)) 8192 ((victims[0]?).getD 0))
  obtain ⟨walks, hwalks, hcached⟩ := keepPath_spec die asid va (s.walkTables die asid va)
    { tlbInsert s.ms (l.entry asid va (512 + die)) 8192 ((victims[0]?).getD 0) with tlb := tlb }
  refine ⟨tlb, walks, ?_, hkeeps _ (mem_tlbInsert_self _ _ _ _), fun y hy hin c hc => ?_, fun y hy => ?_, hcached⟩
  · rw [State.walked, htlb, hwalks]
    rfl
  · obtain ⟨d, hd, rfl⟩ := Leaf.mem_cells.mpr ⟨y, hy, hin, hc⟩
    exact hall d hd
  · rcases honly y hy with hold | ⟨d, hd, rfl⟩
    · exact (mem_tlbInsert hold).imp_right .inl
    · obtain ⟨m, hm, hin, hc⟩ := Leaf.mem_cells.mp ⟨d, hd, rfl⟩
      exact .inr (.inr ⟨m, hm, hin, d.1, hc, rfl⟩)

/-! ### A die that takes an invalidation -/

/-- Where a die takes an invalidation, it holds no line and no buffer: it drops translations and its walk cache's entries (R396, R397). -/
theorem holderDrops_die {s : State} {h : Nat} {hit : BitVec 16 → Nat → Nat → Bool} (hl1 : ∀ x ∈ s.ms.l1, x.cell ≠ h)
    (hslots : ∀ x ∈ s.slots, cellOf x.1 ≠ h) :
    holderDrops h hit s = .ok () { s with ms := { s.ms with
      tlb := s.ms.tlb.filter fun e => !(e.holder = h && hit e.asid (e.vpage * 2 ^ pageShift e.level) (2 ^ pageShift e.level))
      walkCache := s.ms.walkCache.filter fun e =>
        !(512 + e.die = h && hit e.asid (e.path * 2 ^ pathShift e.level) (2 ^ pathShift e.level)) } } := by
  have hany : (s.ms.l1.any fun x => x.cell = h && hit x.asid x.va 64 && s.heldLine x.pa) = false :=
    List.any_eq_false.mpr fun x hx => by simp [hl1 x hx]
  have hlines : (s.ms.l1.filter fun x => x.cell = h && hit x.asid x.va 64) = [] :=
    List.filter_eq_nil_iff.mpr fun x hx => by simp [hl1 x hx]
  have hbuffers : (s.slots.filter fun x => cellOf x.1 = h) = [] :=
    List.filter_eq_nil_iff.mpr fun x hx => by simp [hslots x hx]
  simp only [holderDrops, run_bind, run_get, hany, Bool.not_false, waitFor_true, run_pure, hlines, hbuffers, run_eachM_nil, run_modMs]

theorem translationsHeld : Claims.TranslationsHeld := by
  refine ⟨?miss, ?walks, ?inval⟩
  case miss =>
    intro s cell asid va a die mine hev hcell hlive hva hmiss
    have hrun := missOf_runs hev hcell hlive hva hmiss
    refine ⟨fun x hm hx hc => ?_, fun hnone hroom => ?_, fun hnone hfull => ?_⟩
    · rw [hrun, takeMiss_joins hm hx hc, Option.getD_some]
    · rw [hrun, takeMiss_new hnone, if_neg (Nat.not_le.mpr hroom), Option.getD_some]
    · rw [hrun, takeMiss_new hnone, if_pos hfull, Option.getD_none]
  case walks =>
    intro s die victims x va hev hfind
    refine ⟨fun f hwalk => tlbWalk_walks hev (walkMiss_faults hfind hwalk), fun l hwalk => ?_⟩
    obtain ⟨tlb, walks, hms, hspec⟩ := walked_spec s l die x.asid va victims
    refine ⟨_, tlbWalk_walks hev ((walkMiss_finds hfind hwalk).trans (by rw [hms])), rfl, hspec⟩
  case inval =>
    intro s t h id all asid lo n hs answer hit hev hpend hmem hdie hl1 hslots
    have hheld : (([all, asid, lo, n] ++ hs).drop 4).contains h = true := List.contains_iff_mem.mpr hmem
    have hhit : keptHit ([all, asid, lo, n] ++ hs) = hit := rfl
    rw [exec_invalHolder]
    refine event_ok ?_
    simp only [run_bind, run_evArg, hev, List.getElem?_cons_zero, List.getElem?_cons_succ, Option.getD_some, run_get, hpend,
      needSome_some, run_pure, run_need, hheld, decide_true, Bool.true_and, if_true, hhit, holderDrops_die hl1 hslots,
      Nat.not_lt.mpr hdie, decide_false, Bool.false_and, Bool.false_eq_true, if_false, run_modSlotAt]
    rfl

/-! ### `inval` -/

/-- What `inval` checks of its operands, where they are a range of the address space (R396). -/
theorem inval_operands {start count : Word} {n : Nat} (hn : n = count.toNat % 2 ^ 40 * 2 ^ 16) (halign : start.toNat % 2 ^ 16 = 0)
    (hend : start.toNat + n ≤ 2 ^ 56) (hstart : start.toNat < 2 ^ 56) (hreserved : count.toNat / 2 ^ 40 % 128 = 0) :
    fieldOf count 39 0 * 2 ^ 16 = n ∧ (start.toNat < 2 ^ 56 && start.toNat % 2 ^ 16 = 0 && fieldOf count 46 40 = 0 &&
      start.toNat + n ≤ 2 ^ 56) = true := by
  have hlow : fieldOf count 39 0 * 2 ^ 16 = n := by rw [fieldOf, Nat.pow_zero, Nat.div_one, hn]
  have hhigh : fieldOf count 46 40 = 0 := hreserved
  exact ⟨hlow, by simp only [hstart, halign, hhigh, hend, decide_true, Bool.and_self]⟩

theorem mem_invalHolders_die {s : State} (hit : BitVec 16 → Nat → Nat → Bool) {d : Nat} (hd : d < 4) (hlive : s.live d = true) :
    512 + d ∈ s.invalHolders hit :=
  List.mem_append_right _ (List.mem_map_of_mem (List.mem_filter.mpr ⟨List.mem_range.mpr hd, hlive⟩))

theorem State.setSlot_me {s : State} {k : Nat} (h : s.cur = k) (x : Slot) : (s.setSlot k x).me = x := by
  subst h
  exact State.slot_setSlot_self _ _ _

/-- What an `inval` keeps: ALL, ASID, the first byte and the number of bytes. -/
def invalKept (start count : Word) (n : Nat) : List Nat := [(count.getLsbD 47).toNat, fieldOf count 63 48, start.toNat, n]

/-- The slot of an `inval` that waits for some holders. -/
def Slot.invalidating (x : Slot) (kept hs : List Nat) : Slot := { x with pend := some ⟨.inval, 0, kept ++ hs, none⟩ }

/-- What an `inval` of a good range does after its release: nothing for an empty range, else its slot waits for the holders (R396). -/
theorem inval_released {a b : GReg} {s u : State} {n : Nat} (hruns : s.runs (.inval a b) = true)
    (hn : fieldOf (s.me.gval b) 39 0 * 2 ^ 16 = n)
    (hcheck : ((s.me.gval a).toNat < 2 ^ 56 && (s.me.gval a).toNat % 2 ^ 16 = 0 && fieldOf (s.me.gval b) 46 40 = 0 &&
      (s.me.gval a).toNat + n ≤ 2 ^ 56) = true)
    (hu : Same (s.entered (.inval a b)) u) (hrelease : releaseNow (s.entered (.inval a b)) = .ok () u) :
    let kept := invalKept (s.me.gval a) (s.me.gval b) n
    (n = 0 → exec (.inval a b) s = .next (u.done (.inval a b))) ∧
    (n ≠ 0 → exec (.inval a b) s = .next (u.setSlot s.cur
      { (u.slot s.cur).invalidating kept (u.invalHolders (keptHit kept)) with st := .parked, wait := .inval })) := by
  intro kept
  obtain ⟨hst, -, hissued, -⟩ := s.clear_iff.mp (State.runs_clear hruns)
  have hpend : ((s.entered (.inval a b)).slot s.cur).pend = none := by
    rw [State.entered_slot_pend]; exact (Slot.issued_false hissued).2
  have hcur : u.cur = s.cur := hu.cur.trans (s.entered_cur _)
  refine ⟨fun hzero => ?_, fun hnonzero => ?_⟩ <;> rw [exec_inval]
  · refine issue_seq hruns ?_ hu.only.partner_entered rfl
    subst hzero
    simp only [State.me] at hn hcheck
    simp only [run_bind, run_curSlot, State.entered_cur, hpend, run_rd, State.entered_gval, hn, hcheck, check_true, run_pure, hrelease,
      if_true]
  · have hslot : ((u.slot s.cur).invalidating kept (u.invalHolders (keptHit kept))).st ≠ .free := by
      rw [Slot.invalidating, hu.slot, State.entered_slot_st]; exact hst
    refine (issue_park (w := .inval) (u := u.setSlot s.cur ((u.slot s.cur).invalidating kept (u.invalHolders (keptHit kept)))) hruns
      ?_).trans ?_
    · simp only [State.me] at hn hcheck
      simp only [run_thenNext, run_bind, run_curSlot, State.entered_cur, hpend, run_rd, State.entered_gval, hn, hcheck, check_true,
        run_pure, hrelease, hnonzero, if_false, run_get, run_modSlot, hcur, run_park]
      rfl
    · rw [State.slot_setSlot_self, State.setSlot_setSlot _ _ _ (Slot.ne_empty hslot)]

theorem invalOutcomes : Claims.InvalOutcomes := by
  intro a b s i n hruns halign hend hstart hreserved hwc hclean
  obtain ⟨hn, hcheck⟩ := inval_operands (n := n) rfl halign hend hstart hreserved
  have hcalm : (s.entered i).calm := ⟨by rw [State.me, State.entered_slot_wc, State.entered_cur]; exact hwc,
    by rw [State.entered_ms, State.entered_cur]; exact hclean⟩
  obtain ⟨u, hu, hrelease⟩ := releaseNow_same hcalm ((s.entered_storesQueued i).trans (State.runs_stores hruns rfl))
  have hcur : u.cur = s.cur := hu.cur.trans (s.entered_cur _)
  obtain ⟨hempty, hwaits⟩ := inval_released hruns hn hcheck hu hrelease
  refine ⟨fun hzero => ⟨u, hu.only, hu.entered_sameMemory, hempty hzero⟩, fun hnonzero => ⟨_, hwaits hnonzero, ?_⟩⟩
  rw [State.setSlot_me hcur]
  refine ⟨fun k => (State.byteAt_setSlot _ _ _ _).trans (hu.entered_sameMemory k), rfl, rfl, _, rfl, fun d hd hlive => ?_⟩
  refine mem_invalHolders_die _ hd ?_
  rw [State.live, hu.alike.pf, State.entered_pf]
  exact hlive

/-- Settles O54: a line replaced or evicted leaves its bytes at home and no owner, a walk's leaf is held by the die and the cells that
wait, and an `inval` waits for every holder and every live die. -/
theorem cachesAndTlbs : Obligations.CachesAndTlbs := ⟨linesReplaced, translationsHeld, invalOutcomes⟩

end Sys2Proof.Machine
end

section
/-!
PROOFS. The block steps of a product, its integer value, and the end of a matrix entry.
-/

namespace Sys2Proof.Machine

/-! ### Runs of bytes written -/

theorem tblWfFrom_putN (t : Tbl Byte) (a n v : Nat) (h : tblWfFrom 0 a t = true) : tblWfFrom 0 a (tblPutN t a n v) = true := by
  induction n generalizing t a v with
  | zero => exact h
  | succ n ih =>
    have hrest := ih (tblFrom t (a + 1)) (a + 1) (v / 256) (tblWfFrom_from t (a + 1) a h)
    rw [tblPutN]
    split
    · exact tblWfFrom_mono 0 (Nat.le_succ a) _ hrest
    · next hbyte =>
      simp only [tblWfFrom, Bool.and_eq_true, decide_eq_true_eq]
      exact ⟨⟨Nat.le_refl a, hbyte⟩, hrest⟩

/-- The first byte of a run put in front of a table, and the rest of it. -/
theorem tblGet_putN_succ (t : Tbl Byte) (a n v b : Nat) (h : tblWfFrom 0 a t = true) :
    tblGet 0 (tblPutN t a (n + 1) v) b =
      if b = a then BitVec.ofNat 8 v else tblGet 0 (tblPutN (tblFrom t (a + 1)) (a + 1) n (v / 256)) b := by
  have hrest := tblWfFrom_putN (tblFrom t (a + 1)) (a + 1) n (v / 256) (tblWfFrom_from t (a + 1) a h)
  rw [tblPutN]
  split
  · next hzero =>
    split
    · next hb => rw [hb, tblGet_low 0 _ hrest (Nat.lt_succ_self a), hzero]; rfl
    · rfl
  · rfl

/-- In a canonical table, the bytes of a run that was put in front of it, and every other byte as it was. -/
theorem tblGet_putN (t : Tbl Byte) (a n v b : Nat) (h : tblWfFrom 0 a t = true) :
    tblGet 0 (tblPutN t a n v) b = if a ≤ b ∧ b < a + n then BitVec.ofNat 8 (v / 256 ^ (b - a)) else tblGet 0 t b := by
  induction n generalizing t a v with
  | zero => rw [if_neg (by omega)]; rfl
  | succ n ih =>
    have hfrom := tblWfFrom_from t (a + 1) a h
    rw [tblGet_putN_succ t a n v b h, ih _ _ _ hfrom]
    obtain hb | rfl | hb := Nat.lt_trichotomy b a
    · rw [if_neg (by omega), if_neg (by omega), if_neg (by omega), tblGet_low 0 _ hfrom (by omega), tblGet_low 0 t h hb]
    · rw [if_pos rfl, if_pos (by omega), Nat.sub_self, Nat.pow_zero, Nat.div_one]
    · rw [if_neg (by omega), tblGet_from t (by omega), Nat.div_div_eq_div_mul, ← Nat.pow_succ',
        show (b - (a + 1)).succ = b - a by omega]
      by_cases hrun : a ≤ b ∧ b < a + (n + 1)
      · rw [if_pos hrun, if_pos (by omega)]
      · rw [if_neg hrun, if_neg (by omega)]

theorem tblWfFrom_writeN (t : Tbl Byte) {a lo : Nat} (n v : Nat) (ha : lo ≤ a) (h : tblWfFrom 0 lo t = true) :
    tblWfFrom 0 lo (tblWriteN t a n v) = true := by
  induction t generalizing lo with
  | nil => exact tblWfFrom_mono 0 ha _ (tblWfFrom_putN [] a n v rfl)
  | cons x r ih =>
    obtain ⟨k, w⟩ := x
    simp only [tblWfFrom, Bool.and_eq_true, decide_eq_true_eq] at h
    obtain ⟨⟨hk, hw⟩, hr⟩ := h
    rw [tblWriteN]
    split
    · next hka =>
      simp only [tblWfFrom, Bool.and_eq_true, decide_eq_true_eq]
      exact ⟨⟨hk, hw⟩, ih hka hr⟩
    · next hka =>
      refine tblWfFrom_mono 0 ha _ (tblWfFrom_putN _ a n v ?_)
      simp only [tblWfFrom, Bool.and_eq_true, decide_eq_true_eq]
      exact ⟨⟨by omega, hw⟩, hr⟩

/-- In a canonical table, the bytes of a run that was written, and every other byte as it was. -/
theorem tblGet_writeN (t : Tbl Byte) (a n v b : Nat) {lo : Nat} (h : tblWfFrom 0 lo t = true) :
    tblGet 0 (tblWriteN t a n v) b = if a ≤ b ∧ b < a + n then BitVec.ofNat 8 (v / 256 ^ (b - a)) else tblGet 0 t b := by
  induction t generalizing lo with
  | nil => exact tblGet_putN [] a n v b rfl
  | cons x r ih =>
    obtain ⟨k, w⟩ := x
    simp only [tblWfFrom, Bool.and_eq_true, decide_eq_true_eq] at h
    obtain ⟨⟨-, hw⟩, hr⟩ := h
    rw [tblWriteN]
    split
    · next hka =>
      rw [tblGet, ih hr, tblGet]
      split
      · next hb => rw [if_neg (by omega)]
      · rfl
    · next hka =>
      refine tblGet_putN _ a n v b ?_
      simp only [tblWfFrom, Bool.and_eq_true, decide_eq_true_eq]
      exact ⟨⟨by omega, hw⟩, hr⟩

/-- A table with the entries of some keys taken out. -/
theorem tblGet_filterKeys {α : Type} (d : α) (p : Nat → Bool) (t : Tbl α) (x : Nat) :
    tblGet d (t.filter fun e => p e.1) x = if p x then tblGet d t x else d := by
  induction t with
  | nil => simp
  | cons e r ih =>
    obtain ⟨k, v⟩ := e
    rw [List.filter_cons, tblGet]
    by_cases hx : x = k
    · subst hx
      cases hp : p x <;> simp [tblGet, hp, ih]
    · cases hp : p k <;> simp [tblGet, hx, ih]

/-! ### Operand slots and accumulators of an updated state -/

@[simp] theorem State.opSlot_setCore (s : State) (c n o : Nat) (x : Core) : (s.setCore c x).opSlot n o = s.opSlot n o := rfl
@[simp] theorem State.opSlot_with_cur (s : State) (t n o : Nat) : State.opSlot { s with cur := t } n o = s.opSlot n o := rfl
@[simp] theorem run_modOpSlot (n o : Nat) (f : OpSlot → OpSlot) (s : State) :
    modOpSlot n o f s = .ok () (s.setOpSlot n o (f (s.opSlot n o))) := rfl

theorem State.cell_setCell (s : State) (n j : Nat) (x : Cell) : (s.setCell n x).cell j = if j = n then x else s.cell j :=
  tblGet_set _ _ _ _ _

/-- A change of an operand slot leaves the arbiters of every cell alone. -/
@[simp] theorem State.marb_setOpSlot (s : State) (n o j : Nat) (x : OpSlot) :
    ((s.setOpSlot n o x).cell j).marb = (s.cell j).marb := by
  rw [State.setOpSlot, State.cell_setCell]
  split
  · next hj => rw [hj]
  · rfl

theorem State.opSlot_setOpSlot (s : State) (n o j q : Nat) (x : OpSlot) :
    (s.setOpSlot n o x).opSlot j q = if j = n ∧ q = o then x else s.opSlot j q := by
  rw [State.opSlot, State.setOpSlot, State.cell_setCell]
  by_cases hj : j = n
  · subst hj
    simp only [if_true, tblGet_set, true_and]
    rfl
  · rw [if_neg hj, if_neg fun h => hj h.1]
    rfl

@[simp] theorem State.opSlot_setOpSlot_self (s : State) (n o : Nat) (x : OpSlot) : (s.setOpSlot n o x).opSlot n o = x := by
  rw [State.opSlot_setOpSlot, if_pos ⟨rfl, rfl⟩]

@[simp] theorem Core.tile_setTile_self (c : Core) (t : Nat) (x : Tile) : (c.setTile t x).tile t = x := tblGet_set_self _ _ _ _
@[simp] theorem Core.accZero_poison (c : Core) (t : Nat) : (c.accZero t).poison = c.poison := rfl

/-- A zeroed accumulator tile has zero bytes, and every other tile its own (R242). -/
theorem Core.acc_accZero (c : Core) (t x : Nat) : tblGet 0 (c.accZero t).acc x = if x / 32768 = t then 0 else tblGet 0 c.acc x := by
  rw [Core.accZero, tblGet_filterKeys 0 (fun k => decide (k / 32768 ≠ t)) c.acc x]
  by_cases hx : x / 32768 = t <;> simp [hx]

/-- Bytes written within an accumulator tile leave every other tile alone. -/
theorem Core.acc_accWrite_other (c : Core) {t off n x : Nat} (v : Nat) (h : tblWf 0 c.acc = true) (hoff : off + n ≤ 32768)
    (hx : x / 32768 ≠ t) : tblGet 0 (c.accWrite t off n v).acc x = tblGet 0 c.acc x := by
  rw [Core.accWrite, tblGet_writeN c.acc _ n v x h, if_neg (by omega)]

theorem Core.accWrite_wf (c : Core) (t off n v : Nat) (h : tblWf 0 c.acc = true) : tblWf 0 (c.accWrite t off n v).acc = true :=
  tblWfFrom_writeN c.acc n v (Nat.zero_le _) h

/-! ### What a block step leaves as it was -/

/-- The states reached from one in which the accumulators of a core are canonical, while a product runs: of the core's accumulators at most
one tile has other bytes, and the queue, the checks, the operand slots and all that the block step's guards read are the same (R249). -/
structure TileOnly (core d : Nat) (s u : State) : Prop where
  slots : u.slots = s.slots
  ms : u.ms = s.ms
  pf : u.pf = s.pf
  marb : ∀ n, (u.cell n).marb = (s.cell n).marb
  opSlot : ∀ n o, u.opSlot n o = s.opSlot n o
  mq : (u.core core).mq = (s.core core).mq
  poison : ∀ t, tblGet .good (u.core core).poison t = tblGet .good (s.core core).poison t
  wf : tblWf 0 (u.core core).acc = true
  acc : ∀ x, x / 32768 ≠ d → tblGet 0 (u.core core).acc x = tblGet 0 (s.core core).acc x

theorem TileOnly.refl {core : Nat} (d : Nat) {s : State} (h : tblWf 0 (s.core core).acc = true) : TileOnly core d s s :=
  ⟨rfl, rfl, rfl, fun _ => rfl, fun _ _ => rfl, rfl, fun _ => rfl, h, fun _ _ => rfl⟩

theorem TileOnly.noInjection {core d : Nat} {s u : State} (h : TileOnly core d s u) (hi : s.noInjection) : u.noInjection := by
  intro die
  rw [h.pf]
  exact hi die

/-- An operand slot written with what it holds. -/
theorem TileOnly.setOpSlot_same {core d : Nat} {s u : State} (h : TileOnly core d s u) (n o : Nat) :
    TileOnly core d s (u.setOpSlot n o (u.opSlot n o)) where
  slots := h.slots
  ms := h.ms
  pf := h.pf
  marb j := (u.marb_setOpSlot n o j _).trans (h.marb j)
  opSlot j q := by
    rw [State.opSlot_setOpSlot, ← h.opSlot j q]
    split
    · next hjq => rw [hjq.1, hjq.2]
    · rfl
  mq := h.mq
  poison := h.poison
  wf := h.wf
  acc := h.acc

/-- The check of an entry of the pool written with what it is. -/
theorem TileOnly.setPoison_same {core d : Nat} {s u : State} (h : TileOnly core d s u) {t : Nat} {e : LineCheck}
    (he : tblGet .good (u.core core).poison t = e) :
    TileOnly core d s (u.setCore core { u.core core with poison := tblSet .good (u.core core).poison t e }) where
  slots := h.slots
  ms := h.ms
  pf := h.pf
  marb := h.marb
  opSlot := h.opSlot
  mq := by rw [State.core_setCore_self]; exact h.mq
  poison j := by
    rw [State.core_setCore_self, tblGet_set, ← h.poison j]
    split
    · next hj => rw [hj, he]
    · rfl
  wf := by rw [State.core_setCore_self]; exact h.wf
  acc := by rw [State.core_setCore_self]; exact h.acc

/-- Bytes written within the tile. -/
theorem TileOnly.setAcc {core d : Nat} {s u : State} (h : TileOnly core d s u) {off n : Nat} (v : Nat) (hoff : off + n ≤ 32768) :
    TileOnly core d s (u.setCore core ((u.core core).accWrite d off n v)) where
  slots := h.slots
  ms := h.ms
  pf := h.pf
  marb := h.marb
  opSlot := h.opSlot
  mq := by rw [State.core_setCore_self]; exact h.mq
  poison := by rw [State.core_setCore_self]; exact h.poison
  wf := by rw [State.core_setCore_self]; exact (u.core core).accWrite_wf d off n v h.wf
  acc x hx := by
    rw [State.core_setCore_self, (u.core core).acc_accWrite_other v h.wf hoff hx]
    exact h.acc x hx

/-! ### The elements of a block -/

/-- A body run on a list, each run of which keeps an invariant, keeps it. -/
theorem run_eachM_keeps {α : Type} {f : α → M Unit} {I : State → Prop} {l : List α} {s : State}
    (h : ∀ a ∈ l, ∀ u, I u → ∃ w, f a u = .ok () w ∧ I w) (hs : I s) : ∃ w, eachM f l s = .ok () w ∧ I w := by
  induction l generalizing s with
  | nil => exact ⟨s, rfl, hs⟩
  | cons a r ih =>
    obtain ⟨w, hrun, hw⟩ := h a List.mem_cons_self s hs
    rw [run_eachM_cons, hrun]
    exact ih (fun b hb => h b (List.mem_cons_of_mem a hb)) hw

theorem accStore_tileOnly {core d off n v : Nat} {s u : State} (h : TileOnly core d s u) (hi : s.noInjection) (hoff : off + n ≤ 32768) :
    ∃ w, accStore core d off n v u = .ok () w ∧ TileOnly core d s w := by
  have hacc := h.setAcc v hoff
  refine ⟨_, ?_, hacc.setPoison_same (t := 0x80 + d) rfl⟩
  simp only [accStore, run_bind, run_modCoreAt, run_get, run_injected (hacc.noInjection hi)]

theorem accBytes_le (c : Word) : accBytes c ≤ 8 := by
  rw [accBytes]; split <;> decide

/-- The rows of one of the four blocks of an operand slot are rows 0 to 63 (R249). -/
theorem blockRows_lt {data : Tbl Byte} {b : Nat} {x : Nat × OpRow} (hb : b < 4) (h : x ∈ blockRows data b) : x.1 < 64 := by
  obtain ⟨i, hi, rfl⟩ := List.mem_map.mp h
  have := List.mem_range.mp hi
  simp only
  omega

/-- An element of the 64 by 64 lies within its tile (R247). -/
theorem element_within {n x y : Nat} (hn : n ≤ 8) (hx : x < 64) (hy : y < 64) : n * (64 * x + y) + n ≤ 32768 :=
  calc n * (64 * x + y) + n = n * (64 * x + y + 1) := rfl
    _ ≤ 8 * 4096 := Nat.mul_le_mul hn (by omega)

theorem mulElem_tileOnly {core d : Nat} {e : MEntry} {x y : Nat × OpRow} {s u : State} (h : TileOnly core d s u) (hi : s.noInjection)
    (hx : x.1 < 64) (hy : y.1 < 64) : ∃ w, mulElem core e d x y u = .ok () w ∧ TileOnly core d s w := by
  obtain ⟨w, hrun, hw⟩ := accStore_tileOnly (v := mxElem e.mxctl x.2 y.2
    ((u.core core).accRead d (accBytes e.mxctl * (64 * x.1 + y.1)) (accBytes e.mxctl))) h hi (element_within (accBytes_le e.mxctl) hx hy)
  exact ⟨w, hrun, hw⟩

theorem runBlock_tileOnly {core d a b : Nat} {e : MEntry} {s u : State} (h : TileOnly core d s u) (hi : s.noInjection)
    (hblocks : e.blocks < 16) : ∃ w, runBlock core e d a b u = .ok () w ∧ TileOnly core d s w := by
  simp only [runBlock, run_bind, run_get]
  refine run_eachM_keeps (fun x hx v hv => ?_) h
  refine run_eachM_keeps (fun y hy v hv => ?_) hv
  exact mulElem_tileOnly hv hi (blockRows_lt (by omega) hx) (blockRows_lt (by omega) hy)

/-! ### The checks before a block, and the block step -/

/-- A good operand slot passes its check (R145). -/
theorem readOpCheck_tileOnly {core d o : Nat} {s u : State} (h : TileOnly core d s u) (hgood : (s.opSlot (core / 8) o).check = .good) :
    ∃ w, readOpCheck core o u = .ok true w ∧ TileOnly core d s w := by
  have hu : (u.opSlot (core / 8) o).check = .good := by rw [h.opSlot]; exact hgood
  have hsame : { u.opSlot (core / 8) o with check := .good } = u.opSlot (core / 8) o := by rw [← hu]
  refine ⟨_, ?_, h.setOpSlot_same (core / 8) o⟩
  simp only [readOpCheck, run_bind, run_get, hu, mxRead, run_pure, if_true, run_modOpSlot, hsame]

/-- A good accumulator tile passes its check (R145). -/
theorem readAccCheck_tileOnly {core d : Nat} {s u : State} (h : TileOnly core d s u)
    (hgood : tblGet .good (s.core core).poison (0x80 + d) = .good) : ∃ w, readAccCheck core d u = .ok true w ∧ TileOnly core d s w := by
  have hu : tblGet .good (u.core core).poison (0x80 + d) = .good := by rw [h.poison]; exact hgood
  refine ⟨_, ?_, h.setPoison_same hu⟩
  simp only [readAccCheck, run_bind, run_get, hu, mxRead, run_pure, if_true, run_modCoreAt]

/-- A block step of a product whose operands and tile are sound: it runs, and its entry counts it (R249). -/
theorem stepBlock_runs {core : Nat} {e : MEntry} {d : CReg} {a b : OReg} {s : State} (hinstr : e.instr = .mxmul d a b)
    (hblocks : e.blocks < 16) (hi : s.noInjection) (ha : (s.opSlot (core / 8) a.toNat).check = .good)
    (hb : (s.opSlot (core / 8) b.toNat).check = .good) (hc : tblGet .good (s.core core).poison (0x80 + d.toNat) = .good)
    (hwf : tblWf 0 (s.core core).acc = true) :
    ∃ w, TileOnly core d.toNat { s with cur := e.slot } w ∧
      stepBlock core e s = .ok () (w.setCore core { w.core core with mq := bumpBlock (w.core core).mq }) := by
  obtain ⟨t1, hrunA, h1⟩ := readOpCheck_tileOnly (s := { s with cur := e.slot }) (.refl d.toNat hwf) ha
  obtain ⟨t2, hrunB, h2⟩ : ∃ w, (if a = b then EStateM.Result.ok true t1 else readOpCheck core b.toNat t1) = .ok true w ∧
      TileOnly core d.toNat { s with cur := e.slot } w := by
    split
    · exact ⟨t1, rfl, h1⟩
    · exact readOpCheck_tileOnly h1 hb
  obtain ⟨t3, hrunC, h3⟩ := readAccCheck_tileOnly h2 hc
  obtain ⟨w, hrun, hw⟩ := runBlock_tileOnly (a := a.toNat) (b := b.toNat) h3 hi hblocks
  refine ⟨w, hw, ?_⟩
  simp only [stepBlock, run_bind, run_modify, hinstr, hrunA]
  split at hrunB
  · next hab =>
    cases hrunB
    simp only [if_pos hab, run_bind, run_pure, hrunC, Bool.and_self, if_true, hrun, run_modCoreAt]
  · next hab =>
    simp only [if_neg hab, run_bind, hrunB, hrunC, Bool.and_self, if_true, hrun, run_modCoreAt]

/-- The arbiter grants the core whose turn it is while that core has grants left and is ready (R208, R251). -/
theorem arbitrate_turn {weight : Nat → Nat} {ready : Nat → Bool} {a : Arbiter} (hw : 0 < weight a.turn.toNat) (hl : 0 < a.left)
    (hr : ready a.turn.toNat = true) : arbitrate weight ready a = (some a.turn.toNat, { a with left := a.left - 1 }) := by
  rw [arbitrate, grantLoop, if_pos ⟨hw, hl, hr⟩]

theorem Core.mGrantable_mxmul {c : Core} {e : MEntry} {rest : List MEntry} {d : CReg} {a b : OReg} (hmq : c.mq = e :: rest)
    (hinstr : e.instr = .mxmul d a b) (hblocks : e.blocks < 16) : c.mGrantable = true := by
  simp only [Core.mGrantable, hmq, hinstr, hblocks, decide_true, Bool.and_self]

/-- A state in which the matrix arbiter of a cell has used a grant of its turn. -/
def State.mxGranted (s : State) (n : Nat) : State :=
  s.setCell n { s.cell n with marb := { (s.cell n).marb with left := (s.cell n).marb.left - 1 } }

theorem State.mxGranted_left (s : State) (n : Nat) : ((s.mxGranted n).cell n).marb.left = (s.cell n).marb.left - 1 := by
  rw [State.mxGranted, State.cell_setCell_self]

theorem State.opSlot_mxGranted (s : State) (n o : Nat) : (s.mxGranted n).opSlot n o = s.opSlot n o := by
  rw [State.opSlot, State.mxGranted, State.cell_setCell_self]; rfl

theorem matrixBlockSteps : Claims.MatrixBlockSteps := by
  intro s n k e rest d a b hev hn hturn hweight hleft hmq hinstr hblocks hi ha hb hc hwf
  have hk : (8 * n + k) / 8 = n := by have := (s.cell n).marb.turn.isLt; omega
  have hgrant := arbitrate_turn (weight := fun k => s.weight Launch.mw (8 * n + k)) (ready := fun k => (s.core (8 * n + k)).mGrantable)
    (a := (s.cell n).marb) (by rw [hturn]; exact hweight) hleft (by rw [hturn]; exact Core.mGrantable_mxmul hmq hinstr hblocks)
  rw [hturn] at hgrant
  obtain ⟨w, hw, hstep⟩ := stepBlock_runs (s := s.mxGranted n) (core := 8 * n + k) hinstr hblocks hi
    (by rw [hk, State.opSlot_mxGranted]; exact ha) (by rw [hk, State.opSlot_mxGranted]; exact hb) hc hwf
  refine ⟨w.setCore (8 * n + k) { w.core (8 * n + k) with mq := bumpBlock (w.core (8 * n + k)).mq }, ?_, ?_, ?_, hw.slots, hw.ms, ?_⟩
  · rw [exec_matrixBlockGrant]
    refine event_ok ?_
    simp only [run_bind, run_evArg, hev, Option.getD_some, hn, decide_true, need_true, run_pure, run_get, hgrant, run_modify,
      Option.bind_some, hmq, List.head?_cons, Option.map_some]
    exact hstep
  · rw [State.core_setCore_self, hw.mq]
    exact congrArg bumpBlock hmq
  · rw [State.cell_setCore, hw.marb]
    exact s.mxGranted_left n
  · rw [State.core_setCore_self]
    exact hw.acc

/-! ### The integer value of an element -/

/-- The product of elements k of two rows, as integers (R187). -/
def intProduct (c : Word) (a b : OpRow) (k : Nat) : Int :=
  a.int (ctlA c) (c.getLsbD 8) k * b.int (ctlB c) (c.getLsbD 9) k

theorem wrapN_eq (v : Int) (w : Nat) : wrapN v w = (BitVec.ofInt w v).toNat := by
  rw [wrapN, BitVec.toNat_ofInt, Int.natCast_pow]; rfl

theorem foldl_add_eq (x : Int) (l : List Int) : l.foldl (· + ·) x = x + l.sum := List.foldl_eq_apply_foldr

/-- A K-step on integers adds its products, to 32 bits; of the accumulator it takes 32 bits (R187). -/
theorem kSteps_int_succ {c : Word} (a b : OpRow) (hc : mxInt c = true) (n st acc : Nat) :
    kSteps c a b (n + 1) st acc = kSteps c a b n (st + 1)
      (BitVec.ofNat 32 acc + BitVec.ofInt 32 ((stepElems (ctlA c) st).map (intProduct c a b)).sum).toNat := by
  rw [kSteps]
  simp only [hc, if_true, foldl_add_eq, wrapN_eq, asSigned_eq _ 32 (by decide), BitVec.ofInt_add, BitVec.ofInt_toInt]
  rfl

/-- The elements of n + 1 K-steps are those of the first and those of the rest. -/
theorem sum_stepElems (f : Nat → Int) (t : ElemType) (st n : Nat) :
    ((List.range ((n + 1) * (512 / t.width))).map fun k => f (st * (512 / t.width) + k)).sum =
      ((stepElems t st).map f).sum + ((List.range (n * (512 / t.width))).map fun k => f ((st + 1) * (512 / t.width) + k)).sum := by
  rw [stepElems, Nat.succ_mul, Nat.add_comm, List.range_add, List.map_append, List.sum_append, List.map_map, List.map_map]
  congr 3
  funext k
  simp only [Function.comp_apply, Nat.succ_mul, Nat.add_assoc]

/-- The K-steps on integers add the products of their elements, to 32 bits (R187). -/
theorem kSteps_int {c : Word} (a b : OpRow) (hc : mxInt c = true) (n st : Nat) (acc : BitVec 32) :
    kSteps c a b n st acc.toNat = (acc + BitVec.ofInt 32 ((List.range (n * (512 / (ctlA c).width))).map fun k =>
      intProduct c a b (st * (512 / (ctlA c).width) + k)).sum).toNat := by
  induction n generalizing st acc with
  | zero => simp [kSteps]
  | succ n ih =>
    rw [kSteps_int_succ a b hc, ih, BitVec.ofNat_toNat, BitVec.setWidth_eq, sum_stepElems (intProduct c a b), BitVec.ofInt_add,
      BitVec.add_assoc]

theorem matrixIntegerProduct : Claims.MatrixIntegerProduct := by
  intro c a b acc _ hf64 hint
  calc mxElem c a b acc = kSteps c a b 6 0 acc := by rw [mxElem, hf64]; rfl
    _ = kSteps c a b 6 0 (BitVec.ofNat 32 acc).toNat := by
      rw [kSteps_int_succ a b hint 5, kSteps_int_succ a b hint 5 0 (BitVec.toNat _), BitVec.ofNat_toNat, BitVec.setWidth_eq]
    _ = (BitVec.ofNat 32 acc + BitVec.ofInt 32 ((List.range (6 * (512 / (ctlA c).width))).map (intProduct c a b)).sum).toNat := by
      rw [kSteps_int a b hint]
      simp only [Nat.zero_mul, Nat.zero_add]
    _ = _ := by rw [BitVec.ofInt_add, BitVec.ofInt_toInt]; rfl

/-! ### The end of an entry -/

/-- The event acts on the head of the core's queue (R241). -/
theorem exec_matrixEntryComplete_head {s t : State} {core : Nat} {e : MEntry} {rest : List MEntry} (hev : s.ev[0]? = some core)
    (hmq : (s.core core).mq = e :: rest) (h : completeMx core e s = .ok () t) : exec .matrixEntryComplete s = .next t := by
  rw [exec_matrixEntryComplete]
  refine event_ok ?_
  simp only [run_bind, run_evArg, hev, Option.getD_some, run_get, hmq, List.head?_cons, needSome_some, run_pure, h]

/-- A state whose core's queue has lost its head. -/
def State.leftMq (s : State) (core : Nat) : State := s.setCore core { s.core core with mq := (s.core core).mq.drop 1 }

@[simp] theorem run_leaveMq (core : Nat) (s : State) : leaveMq core s = .ok () (s.leftMq core) := rfl
@[simp] theorem State.leftMq_slots (s : State) (core : Nat) : (s.leftMq core).slots = s.slots := rfl
@[simp] theorem State.leftMq_core (s : State) (core : Nat) :
    (s.leftMq core).core core = { s.core core with mq := (s.core core).mq.drop 1 } := s.core_setCore_self _ _
theorem State.leftMq_mq {s : State} {core : Nat} {e : MEntry} {rest : List MEntry} (h : (s.core core).mq = e :: rest) :
    ((s.leftMq core).core core).mq = rest := by
  rw [State.leftMq_core, h]; rfl

/-- The core once an `mxzero` has zeroed its tile, made its check good, and made it READY (R248). -/
def Core.mxZeroed (c : Core) (d : Nat) : Core :=
  { c.accZero d with poison := tblSet .good c.poison (0x80 + d) .good }.setTile (0x80 + d) ⟨.ready, 0⟩

theorem Core.tile_mxZeroed (c : Core) (d : Nat) : (c.mxZeroed d).tile (0x80 + d) = ⟨.ready, 0⟩ := Core.tile_setTile_self _ _ _
theorem Core.acc_mxZeroed (c : Core) (d x : Nat) : tblGet 0 (c.mxZeroed d).acc x = if x / 32768 = d then 0 else tblGet 0 c.acc x :=
  c.acc_accZero d x

theorem completeMx_oclaim {core : Nat} {e : MEntry} {d : GReg} {a : OReg} (s : State) (hinstr : e.instr = .oclaim d a) :
    completeMx core e s = .ok () ((State.setOpSlot { s with cur := e.slot } (core / 8) a.toNat
      { s.opSlot (core / 8) a.toNat with data := [], check := .good }).leftMq core) := by
  simp only [completeMx, run_bind, run_modify, hinstr, run_modOpSlot, run_leaveMq, State.opSlot_with_cur]

theorem completeMx_mxzero {core : Nat} {e : MEntry} {d : CReg} (s : State) (hinstr : e.instr = .mxzero d) :
    ∃ u : State, completeMx core e s = .ok () (u.leftMq core) ∧ u.slots = s.slots ∧ u.core core = (s.core core).mxZeroed d.toNat := by
  simp only [completeMx, run_bind, run_modify, hinstr, run_modCoreAt, setTileAt, run_leaveMq, State.core_setCore_self,
    State.core_with_cur, Core.accZero_poison]
  exact ⟨_, rfl, rfl, State.core_setCore_self _ _ _⟩

theorem completeMx_mxmul {core : Nat} {e : MEntry} {d : CReg} {a b : OReg} (s : State) (hinstr : e.instr = .mxmul d a b)
    (hblocks : 16 ≤ e.blocks) : completeMx core e s = .ok () (State.leftMq { s with cur := e.slot } core) := by
  simp only [completeMx, run_bind, run_modify, hinstr, hblocks, decide_true, need_true, run_pure, run_leaveMq]

theorem matrixCompletes : Claims.MatrixCompletes := by
  intro s core e rest hev hmq
  refine ⟨fun d a hinstr => ?oclaim, fun d hinstr => ?mxzero, fun d a b hinstr hblocks => ?mxmul⟩
  case oclaim =>
    refine ⟨_, exec_matrixEntryComplete_head hev hmq (completeMx_oclaim s hinstr), State.leftMq_mq hmq, rfl, ?_⟩
    rw [State.leftMq, State.opSlot_setCore, State.opSlot_setOpSlot_self]
  case mxzero =>
    obtain ⟨u, hrun, hslots, hcore⟩ := completeMx_mxzero (core := core) s hinstr
    refine ⟨_, exec_matrixEntryComplete_head hev hmq hrun, State.leftMq_mq (by rw [hcore]; exact hmq), hslots, ?_, fun x => ?_⟩ <;>
      rw [State.leftMq_core, hcore]
    · exact (s.core core).tile_mxZeroed d.toNat
    · exact (s.core core).acc_mxZeroed d.toNat x
  case mxmul =>
    refine ⟨_, exec_matrixEntryComplete_head hev hmq (completeMx_mxmul s hinstr hblocks), State.leftMq_mq hmq, rfl, ?_⟩
    rw [State.leftMq_core, State.core_with_cur]

/-- Settles O24: a block step writes bytes of its tile alone, the K-steps on integers add up to one sum modulo 2^32, and each of the three
entries does its work and leaves the queue. -/
theorem matrixProducts : Obligations.MatrixProducts := ⟨matrixBlockSteps, matrixIntegerProduct, matrixCompletes⟩

end Sys2Proof.Machine
end

section
/-!
PROOFS. Operand slots claimed and released, and MXCTL.
-/

namespace Sys2Proof.Machine

/-! ### The end of an instruction that names what it uses -/

/-- Where an instruction executes normally and its body is done, it goes on at the next word, whatever it names. -/
theorem issueNamed_thenNext {s u : State} {i : Instr} (names : State → Slot → List Named) {body : M Unit} (h : s.runs i = true)
    (hb : body (s.entered i) = .ok () u) (hp : (u.slot s.cur).partner = (s.slot s.cur).partner) (hi : isTret i = false) :
    issueNamed i names (thenNext body) s = .next (u.done i) := by
  obtain ⟨-, -, -, halone, -⟩ := s.clear_iff.mp (State.runs_clear h)
  exact issueNamed_seq names h (by rw [run_thenNext, hb]) (hp.trans halone) hi

/-! ### The matrix queue and operand slots -/

@[simp] theorem State.entered_opSlot (s : State) (i : Instr) (n o : Nat) : (s.entered i).opSlot n o = s.opSlot n o := by
  rw [State.opSlot, State.entered_cell, State.opSlot]
@[simp] theorem State.setOpSlot_cur (s : State) (n o : Nat) (x : OpSlot) : (s.setOpSlot n o x).cur = s.cur := rfl
@[simp] theorem State.slot_setOpSlot (s : State) (n o t : Nat) (x : OpSlot) : (s.setOpSlot n o x).slot t = s.slot t := rfl
@[simp] theorem State.slot_mxPlaced (s : State) (i : Instr) (ga gb : Word) (ps : List Place) (t : Nat) :
    (s.mxPlaced i ga gb ps).slot t = s.slot t := rfl
@[simp] theorem run_placeMx (i : Instr) (ga gb : Word) (ps : List Place) (s : State) :
    placeMx i ga gb ps s = .ok () (s.mxPlaced i ga gb ps) := rfl

theorem mxRoom_ok {s : State} (h : s.here.mq.length < 8) : mxRoom s = .ok () s := by
  rw [mxRoom, run_bind, run_curCore]
  simp only [h, decide_true, waitFor_true, run_pure]

theorem checkHeld_ok {s : State} {o : OReg} (h : s.holdsOp o) : checkHeld o s = .ok () s := by
  rw [State.holdsOp] at h
  simp only [checkHeld, run_bind, run_curId, run_get, h, decide_true, check_true, run_pure]

theorem State.holdsOp.entered {s : State} {o : OReg} (h : s.holdsOp o) (i : Instr) : (s.entered i).holdsOp o := by
  rw [State.holdsOp, State.entered_cur, State.entered_opSlot]
  exact h

/-! ### `oclaim` and `orelease` -/

/-- `oclaim` of a FREE slot, with room in the queue (R245). -/
theorem exec_oclaim_free {d : GReg} {a : OReg} {s : State} (hruns : s.runs (.oclaim d a) = true)
    (hfree : (s.opSlot (cellOf s.cur) a.toNat).holder = none) (hroom : s.here.mq.length < 8) :
    exec (.oclaim d a) s = .next (((((s.entered (.oclaim d a)).setOpSlot (cellOf s.cur) a.toNat
      { s.opSlot (cellOf s.cur) a.toNat with holder := some (coreOf s.cur), ready := false }).mxPlaced
        (.oclaim d a) 0 0 []).put d 0).done (.oclaim d a)) := by
  have hroom' : mxRoom (s.entered (.oclaim d a)) = .ok () (s.entered (.oclaim d a)) :=
    mxRoom_ok (by rw [State.here, State.entered_core, State.entered_cur]; exact hroom)
  refine issueNamed_thenNext _ hruns ?_ ?_ rfl
  · simp only [run_bind, run_curId, run_get, State.entered_cur, State.entered_opSlot, hfree, hroom', run_modOpSlot, run_placeMx, run_wr]
  · rw [State.put_slot_partner, State.slot_mxPlaced, State.slot_setOpSlot, State.entered_slot_partner]

/-- `oclaim` of a slot that a core holds writes its answer and nothing else (R245). -/
theorem exec_oclaim_held {d : GReg} {a : OReg} {s : State} {c : Nat} (hruns : s.runs (.oclaim d a) = true)
    (hheld : (s.opSlot (cellOf s.cur) a.toNat).holder = some c) :
    exec (.oclaim d a) s = .next (((s.entered (.oclaim d a)).put d (if c = coreOf s.cur then 1 else 2)).done (.oclaim d a)) := by
  refine issueNamed_thenNext _ hruns ?_ ?_ rfl
  · simp only [run_bind, run_curId, run_get, State.entered_cur, State.entered_opSlot, hheld, run_wr]
  · rw [State.put_slot_partner, State.entered_slot_partner]

/-- `orelease` of a slot that the core holds and no queued entry names (R245). -/
theorem exec_orelease_held {a : OReg} {s : State} (hruns : s.runs (.orelease a) = true) (hheld : s.holdsOp a)
    (hunnamed : ∀ m ∈ s.here.mq, m.opSlots.contains a.toNat = false) :
    exec (.orelease a) s = .next (((s.entered (.orelease a)).setOpSlot (cellOf s.cur) a.toNat .free).done (.orelease a)) := by
  have hall : (s.here.mq.all fun e => !e.opSlots.contains a.toNat) = true :=
    List.all_eq_true.mpr fun m hm => by rw [hunnamed m hm]; rfl
  refine issueNamed_thenNext _ hruns ?_ ?_ rfl
  · simp only [run_bind, checkHeld_ok (hheld.entered _), run_curCore, State.entered_core, State.entered_cur, hall, waitFor_true,
      run_pure, run_curId, run_modOpSlot]
  · rw [State.slot_setOpSlot, State.entered_slot_partner]

theorem operandSlots : Claims.OperandSlots := by
  intro d a s
  refine ⟨exec_oclaim_free, fun hruns hheld => ?mine, fun c hruns hheld hother => ?other, exec_orelease_held⟩
  case mine => rw [exec_oclaim_held hruns hheld, if_pos rfl]
  case other => rw [exec_oclaim_held hruns hheld, if_neg hother]

/-! ### MXCTL -/

theorem exec_mxset_valid {a : GReg} {s : State} (hruns : s.runs (.mxset a) = true) (hok : mxctlOk (s.me.gval a) = true) :
    exec (.mxset a) s = .next
      (((s.entered (.mxset a)).setMe { (s.entered (.mxset a)).me with mxctl := s.me.gval a }).done (.mxset a)) := by
  refine issue_seq hruns ?_ ?_ rfl
  · simp only [run_bind, run_rd, State.entered_gval, State.entered_cur, hok, check_true, run_pure, run_modSlot, State.setMe, State.me]
  · simp only [State.setMe, State.me, State.entered_cur, State.slot_setSlot_self, State.entered_slot_partner]

theorem exec_mxset_invalid {a : GReg} {s : State} (hruns : s.runs (.mxset a) = true) (hbad : mxctlOk (s.me.gval a) = false)
    (hhandler : s.hasHandler = true) :
    exec (.mxset a) s = .next ((s.entered (.mxset a)).trapped .mxConfig (s.me.gval a)) := by
  refine issue_trap hruns ?_ rfl hhandler
  simp only [run_thenNext, run_bind, run_rd, State.entered_gval, State.entered_cur, run_check, hbad, Bool.false_eq_true, if_false]

theorem exec_mxget_runs {d : GReg} {s : State} (hruns : s.runs (.mxget d) = true) :
    exec (.mxget d) s = .next (((s.entered (.mxget d)).put d s.me.mxctl).done (.mxget d)) := by
  refine issue_seq hruns ?_ ?_ rfl
  · simp only [run_bind, run_curSlot, State.entered_cur, State.entered_slot_mxctl, run_wr]
  · rw [State.put_slot_partner, State.entered_slot_partner]

theorem matrixControl : Claims.MatrixControl := by
  refine ⟨fun a s hruns => ⟨exec_mxset_valid hruns, exec_mxset_invalid hruns⟩, fun d s => exec_mxget_runs, ?words⟩
  case words => decide

/-- Settles O22: a claim answers by who holds the slot and takes a FREE one, a release frees it, and MXCTL takes valid words only. -/
theorem matrixSetup : Obligations.MatrixSetup := ⟨operandSlots, matrixControl⟩

end Sys2Proof.Machine
end
